-- ==== Sys2Proof/Word.lean ====
section
/-! DEFINITION. The one machine word of the model: the byte. Everything the controller links, the pilot, the actuator
bus and the steering line carry is a run of bytes (chapter 10). -/

namespace Sys2Proof

/-- A byte as it is carried on a line. -/
abbrev Byte := BitVec 8

end Sys2Proof
end

