-- ==== Sys2Proof/Syntax.lean ====
section
/-! DEFINITION. The commands of the block: one constructor for each row of spec/opcode_table.json. A request carries the
link it arrives on, its TAG and its payload bytes (R169, R170, R182); its KIND is the row's. An event carries what the
spec says the event brings. -/

namespace Sys2Proof

/-- The two controller links (chapter 9). -/
inductive LinkId where
  | a
  | b
  deriving DecidableEq, Repr

/-- A cable port, 0 to 31. -/
abbrev PortId := Fin 32

/-- A protection group, 0 to 11. -/
abbrev GroupId := Fin 12

/-- A timing reference, 0 to 5: OCA, OCB, LR0 to LR3. -/
abbrev RefId := Fin 6

/-- An alarm point number, 0 to 318 (R135). -/
abbrev PointId := Fin 319

/-- Samples of a PILOT-IN pin: those its receiver has taken since the last command that gave it samples, oldest first. -/
structure PilotSamples where
  port    : PortId
  samples : List Bool
  deriving DecidableEq, Repr

/-- Samples of an RXD pin: those its receiver has taken since the last command that gave it samples or a frame, oldest first. -/
structure LinkSamples where
  link    : LinkId
  samples : List Bool
  deriving DecidableEq, Repr

/-- How the characters of an answer frame come on ACT-RXD (R187): the byte of the first one, the time from the end of each
character to the beginning of the next, in µs, and whether any character has a framing error. -/
structure AnswerRun where
  first   : Byte
  gaps    : List Nat
  framing : Bool
  deriving DecidableEq, Repr

/-- The commands, in the order of the table. -/
inductive Instr where
  /-- FULL_RESET (R181), with the RATE[1:0] strap as it stands at the end of the reset. -/
  | fullReset (rate : BitVec 2)
  | setPort (l : LinkId) (tag : Byte) (payload : List Byte)
  | getPort (l : LinkId) (tag : Byte) (payload : List Byte)
  | portStatus (l : LinkId) (tag : Byte) (payload : List Byte)
  | setShelfId (l : LinkId) (tag : Byte) (payload : List Byte)
  | setRange (l : LinkId) (tag : Byte) (payload : List Byte)
  | getRanges (l : LinkId) (tag : Byte) (payload : List Byte)
  /-- PILOT_MESSAGE (R14): bytes 1 to 8 of a complete message (byte 0 was tested at character 0), and whether any of its
  nine characters has its noise mark set. It is a message none of whose characters is given by PILOT_CHARACTER_TAKEN
  (log entry 39). -/
  | pilotMessage (p : PortId) (body : Vector Byte 8) (noise : Bool)
  /-- TRUNCATED_MESSAGE (R13): the samples in which the allowance runs out. -/
  | truncatedMessage (pin : PilotSamples)
  | lossTimerExpiry (p : PortId)
  | pilotTransmit (p : PortId)
  | secondsTick
  /-- CONVERSION_END (R28): the code the ADC delivers. -/
  | conversionEnd (code : BitVec 12)
  | holdOffExpiry (p : PortId)
  | restoreWaitExpiry (g : GroupId)
  | awaitFarTimeout (g : GroupId)
  | trialTimerExpiry (g : GroupId)
  | setGroup (l : LinkId) (tag : Byte) (payload : List Byte)
  | deleteGroup (l : LinkId) (tag : Byte) (payload : List Byte)
  | getGroup (l : LinkId) (tag : Byte) (payload : List Byte)
  | groupStatus (l : LinkId) (tag : Byte) (payload : List Byte)
  | protRequestBar (l : LinkId) (tag : Byte) (payload : List Byte)
  | protRequestForce (l : LinkId) (tag : Byte) (payload : List Byte)
  | protRequestManual (l : LinkId) (tag : Byte) (payload : List Byte)
  | protRequestTrial (l : LinkId) (tag : Byte) (payload : List Byte)
  | protRequestClear (l : LinkId) (tag : Byte) (payload : List Byte)
  | setMaintEnter (l : LinkId) (tag : Byte) (payload : List Byte)
  | setMaintLeave (l : LinkId) (tag : Byte) (payload : List Byte)
  | maintMove (l : LinkId) (tag : Byte) (payload : List Byte)
  | clearHalt (l : LinkId) (tag : Byte) (payload : List Byte)
  | settle (l : LinkId) (tag : Byte) (payload : List Byte)
  | settleReply
  | busTransactionStart
  | commandRepeat
  | answerTimeout
  /-- POSITION (R187): how the run of characters comes, with its first byte, and every further byte of the answer frame but its answer code. -/
  | answerPosition (run : AnswerRun) (position capability partner check : Byte)
  | answerAccepted (run : AnswerRun) (check : Byte)
  | answerRefused (run : AnswerRun) (fault check : Byte)
  | answerSingleOnly (run : AnswerRun) (check : Byte)
  | answerMoving (run : AnswerRun) (check : Byte)
  | answerSettled (run : AnswerRun) (position check : Byte)
  /-- POLL_DUE (R95): the driver address whose poll interval expires. -/
  | pollDue (address : Nat)
  | moveTimeout (address : Nat)
  | setRef (l : LinkId) (tag : Byte) (payload : List Byte)
  | getRef (l : LinkId) (tag : Byte) (payload : List Byte)
  | setTiming (l : LinkId) (tag : Byte) (payload : List Byte)
  | forceRef (l : LinkId) (tag : Byte) (payload : List Byte)
  | clearForce (l : LinkId) (tag : Byte) (payload : List Byte)
  | lockout (l : LinkId) (tag : Byte) (payload : List Byte)
  | unlock (l : LinkId) (tag : Byte) (payload : List Byte)
  | timingStatus (l : LinkId) (tag : Byte) (payload : List Byte)
  | referenceEdge (r : RefId)
  | edgeTimerExpiry (r : RefId)
  /-- MEASUREMENT_END (R119): the count C of LOCLK cycles at the 8,000th edge. -/
  | measurementEnd (r : RefId) (count : Nat)
  | measurementEarlyEnd (r : RefId)
  | soakTimerExpiry (r : RefId)
  | acquireTimerExpiry
  | holdoverTimerExpiry
  | steerFrameStart
  | setProfile (l : LinkId) (tag : Byte) (payload : List Byte)
  | getProfile (l : LinkId) (tag : Byte) (payload : List Byte)
  | readAlarms (l : LinkId) (tag : Byte) (payload : List Byte)
  | declareSoakExpiry (k : PointId)
  | clearSoakExpiry (k : PointId)
  /-- ACO_PRESS (R156): for how long ACO_N has been high, and then low, since the last ACO_PRESS or full reset, whichever is the
later, in ms (log entry 30). -/
  | acoPress (high low : Nat)
  | aco (l : LinkId) (tag : Byte) (payload : List Byte)
  | setNotices (l : LinkId) (tag : Byte) (payload : List Byte)
  | noticeSend
  | replySend (l : LinkId)
  /-- BREAK (R167): the samples in which the break comes. -/
  | linkBreak (pin : LinkSamples)
  /-- FRAME_GAP_TIMEOUT (R168): the samples in which the gap limit runs out. -/
  | frameGapTimeout (pin : LinkSamples)
  /-- FRAME_CRC_ERROR (R169): the samples of the link up to the end of the frame. -/
  | frameCrcError (l : LinkId) (samples : List Bool)
  | requestBadKind (l : LinkId) (tag kind : Byte) (payload : List Byte)
  | claim (l : LinkId) (tag : Byte) (payload : List Byte)
  | release (l : LinkId) (tag : Byte) (payload : List Byte)
  | keepalive (l : LinkId) (tag : Byte) (payload : List Byte)
  | periodTimerExpiry
  | setLinkWatch (l : LinkId) (tag : Byte) (payload : List Byte)
  | restart (l : LinkId) (tag : Byte) (payload : List Byte)
  /-- RESTART_TAKES_EFFECT (R179): the link whose RESTART reply frame has been sent whole. -/
  | restartTakesEffect (l : LinkId)
  | identify (l : LinkId) (tag : Byte) (payload : List Byte)
  | cableTest (l : LinkId) (tag : Byte) (payload : List Byte)
  | cableTestLead
  | cableTestMarkerSent
  | cableTestSequenceEnd
  /-- CABLE_TEST_MARKER (R23): the samples the in side has taken since acceptance, or since the last such command, before
  sample 1 of the start, and those of its verification. -/
  | cableTestMarker (search start : List Bool)
  /-- CABLE_TEST_PASS (R23): the twelve samples of each further bit of the sequence, in order (bit 0 is sample 1). -/
  | cableTestPass (bits : List (BitVec 12))
  | cableTestFail (bits : List (BitVec 12))
  | noPath
  /-- PILOT_CHARACTER_TAKEN (R10 to R13): the samples taken since the last command that gave the receiver samples, before
  sample 1 of the character, and the character's, the last of them sample 8 of its stop bit. -/
  | pilotCharacterTaken (p : PortId) (search samples : List Bool)
  /-- FRAME_FRAMING_ERROR (R168): the samples up to the end of the character. -/
  | frameFramingError (pin : LinkSamples)
  /-- FRAME_BAD_LEN (R168): the samples of the link up to the end of the length byte. -/
  | frameBadLen (l : LinkId) (samples : List Bool)
  deriving DecidableEq, Repr

end Sys2Proof
end

