-- ==== Sys2Proof/Config.lean ====
section
/-! DEFINITION. The free values: what the spec leaves open and no proof may choose. None of these constants has a body. -/

namespace Sys2Proof

/-- The part's internal pseudo-random sequence of challenges (R175): the byte of the n-th draw. R175 says that any value may
follow any other, so nothing constrains it. -/
opaque Config.challenge : Nat → Byte

/-- The order of things that come about at one moment, where the spec says 'in either order' (R98, R149, R153, R159):
whether, at the n-th such choice, the item under choice goes before an item that has `k` others behind it. -/
opaque Config.precedes : Nat → Nat → Bool

/-- The KIND of the BUSY reply to a request whose KIND is 0x80 or above. R170 gives KIND plus 0x80, which no byte holds, and
names another value for BAD-KIND replies only. -/
opaque Config.busyKind : Byte → Byte

end Sys2Proof
end

