-- ==== Sys2Proof/Machine/Bits.lean ====
section
/-! DEFINITION. Plain helpers every block uses: clamping and rounding (00_scope.md, Arithmetic), byte order (chapter 10),
character votes (R10, R11), the link CRC (R169), tables, and the free order of things that come about together. -/

namespace Sys2Proof.Machine

/-! ### Arithmetic -/

/-- A value clamped to a range (00_scope.md, Arithmetic). -/
def clampNat (lo hi x : Nat) : Nat := max lo (min hi x)

/-- A signed value clamped to a range (00_scope.md, Arithmetic). -/
def clampInt (lo hi x : Int) : Int := max lo (min hi x)

/-- A value rounded down to its step. -/
def floorTo (step x : Nat) : Nat := x / step * step

/-- `x / d` rounded half away from zero: sign(x) × ((|x| + d div 2) div d) (R29, R120). -/
def roundedDiv (x : Int) (d : Nat) : Int := x.sign * (((x.natAbs + d / 2) / d : Nat) : Int)

/-- The time from `now` to `expiry`, both in µs, in whole seconds, rounded up (R49, R133). -/
def secondsLeft (now expiry : Nat) : Nat := (expiry - now + 999999) / 1000000

/-! ### Bytes, high byte first (chapter 10) -/

def byteOf (n : Nat) : Byte := BitVec.ofNat 8 n

/-- An index carried in a byte, when it lies in the range of its index set. -/
def finOf (n : Nat) (b : Byte) : Option (Fin n) := if h : b.toNat < n then some ⟨b.toNat, h⟩ else none

/-- A flag byte: 0 no or clear, 1 yes or set; every other value is outside the code set (R183). -/
def flagOf (b : Byte) : Option Bool := if b = 0 then some false else if b = 1 then some true else none

def flagByte (b : Bool) : Byte := if b then 1 else 0

def u16 (hi lo : Byte) : Nat := hi.toNat * 256 + lo.toNat

def u24 (a b c : Byte) : Nat := (a.toNat * 256 + b.toNat) * 256 + c.toNat

/-- A signed 16-bit field, two's complement. -/
def s16 (hi lo : Byte) : Int := if u16 hi lo < 32768 then (u16 hi lo : Int) else (u16 hi lo : Int) - 65536

def be16 (n : Nat) : List Byte := [byteOf (n / 256), byteOf n]

def be24 (n : Nat) : List Byte := [byteOf (n / 65536), byteOf (n / 256), byteOf n]

def be32 (n : Nat) : List Byte := [byteOf (n / 16777216), byteOf (n / 65536), byteOf (n / 256), byteOf n]

/-- A signed value in two bytes. -/
def beS16 (x : Int) : List Byte := be16 (x % 65536).toNat

/-- A signed value in three bytes, as on the steering line (R184). -/
def beS24 (x : Int) : List Byte := be24 (x % 16777216).toNat

/-- The sum of a frame's bytes modulo 256. -/
def byteSum (bs : List Byte) : Byte := bs.foldl (· + ·) 0

/-- The check that makes the bytes and it sum to 0 modulo 256 (R14, R187, R188). -/
def checkByte (bs : List Byte) : Byte := - byteSum bs

/-- Byte `i` of a payload. -/
def byteAt (payload : List Byte) (i : Nat) : Byte := payload.getD i 0

/-! ### Character recovery (R10, R11) -/

/-- The majority of three samples. -/
def majority (x y z : Bool) : Bool := (x && y) || (x && z) || (y && z)

/-- Whether three samples do not all agree. -/
def disagree (x y z : Bool) : Bool := !(x == y && y == z)

/-- Sample `i`, counted from 1, of a run of samples. -/
def sampleAt (samples : List Bool) (i : Nat) : Bool := samples.getD (i - 1) false

/-- Whether samples 3, 4 and 5 of a candidate start bit verify it: their majority is 0 (R10). -/
def startVerified (samples : List Bool) : Bool :=
  !majority (sampleAt samples 3) (sampleAt samples 4) (sampleAt samples 5)

/-- The vote of bit `k` of a character, bit 9 being the stop bit: samples 6, 7 and 8 of its own bit (R11). -/
def voteBit (samples : List Bool) (k : Nat) : Bool :=
  majority (sampleAt samples (12 * k + 6)) (sampleAt samples (12 * k + 7)) (sampleAt samples (12 * k + 8))

/-- Whether the three samples of bit `k` disagree (R11). -/
def noisyBit (samples : List Bool) (k : Nat) : Bool :=
  disagree (sampleAt samples (12 * k + 6)) (sampleAt samples (12 * k + 7)) (sampleAt samples (12 * k + 8))

/-- The byte of a character: data bit 1 is the least significant (R11). -/
def characterByte (samples : List Bool) : Byte :=
  byteOf ((List.range 8).foldl (fun acc k => acc + if voteBit samples (k + 1) then 2 ^ k else 0) 0)

/-- The noise mark of a character: its start samples 3, 4 and 5, or the samples of any bit, do not all agree (R10, R11). -/
def characterNoise (samples : List Bool) : Bool :=
  disagree (sampleAt samples 3) (sampleAt samples 4) (sampleAt samples 5) ||
    (List.range 9).any (fun k => noisyBit samples (k + 1))

/-- The framing error mark: a stop bit whose majority is 0 (R11). -/
def characterFraming (samples : List Bool) : Bool := !voteBit samples 9

/-- The samples of a character from sample 1 of its start bit to sample 8 of its stop bit, at which it is taken (R11). -/
def characterLength : Nat := 116

/-! ### The cable test sequence (R22) -/

/-- One bit of the sequence x^7 + x^6 + 1: the exclusive-or of the two oldest bits (bits 6 and 5), shifted in as the newest
(bit 0). -/
def sequenceNext (reg : BitVec 7) : Bool × BitVec 7 :=
  let new := reg.getLsbD 6 ^^ reg.getLsbD 5
  (new, (reg <<< 1) ||| (if new then 1 else 0))

/-- The register after `n` bits of the sequence. -/
def sequenceAdvance : Nat → BitVec 7 → BitVec 7
  | 0, reg => reg
  | n + 1, reg => sequenceAdvance n (sequenceNext reg).2

/-- Bit `i`, counted from 0, of the sequence that follows from a register (R22). -/
def sequenceBit (reg : BitVec 7) (i : Nat) : Bool := (sequenceNext (sequenceAdvance i reg)).1

/-! ### The link CRC (R169) -/

/-- One data bit into the CRC register. -/
def crcBit (reg : BitVec 16) (bit : Bool) : BitVec 16 :=
  if reg.getLsbD 15 = bit then reg <<< 1 else (reg <<< 1) ^^^ 0x1021

/-- One byte into the CRC register, most significant bit first. -/
def crcByte (reg : BitVec 16) (b : Byte) : BitVec 16 :=
  [7, 6, 5, 4, 3, 2, 1, 0].foldl (fun r i => crcBit r (b.getLsbD i)) reg

/-- The CRC over a run of bytes, the register starting at 0xFFFF, with no final inversion. -/
def crc16 (bs : List Byte) : BitVec 16 := bs.foldl crcByte 0xFFFF

/-- Whether the last two bytes of a complete frame are the CRC of the bytes before them (R169). -/
def crcFits (frame : List Byte) : Bool :=
  decide (frame.drop (frame.length - 2) = be16 (crc16 (frame.take (frame.length - 2))).toNat)

/-! ### Tables -/

/-- The table whose entry `i` is `f i`. -/
def tab {α : Type} (n : Nat) (f : Fin n → α) : Vector α n := ⟨⟨List.ofFn f⟩, by simp⟩

/-- A table with entry `i` changed by `f`. -/
def upd {α : Type} {n : Nat} (v : Vector α n) (i : Fin n) (f : α → α) : Vector α n := v.set i (f v[i])

/-! ### The free order of things that come about at one moment -/

/-- An item put at a free place among others. -/
def insertFree {α : Type} (draw : Nat) (x : α) : List α → List α
  | [] => [x]
  | y :: ys => if Config.precedes draw ys.length then x :: y :: ys else y :: insertFree draw x ys

/-- The items in a free order: any order at all (R98, R149, R153, R159). A list of at most one item is itself. -/
def freeOrder {α : Type} (draw : Nat) : List α → List α
  | [] => []
  | x :: xs => insertFree (draw + xs.length) x (freeOrder draw xs)

end Sys2Proof.Machine
end

