-- ==== Sys2Proof/Machine/State.lean ====
section
/-! DEFINITION. The state of the part: every record, queue, timer, buffer and pin the spec names, as plain data, and what it
is right after a full reset. Times are in µs on the model's own clock (log entry 2); a running timer is held as its expiry. -/

namespace Sys2Proof.Machine

/-! ### Code sets (section 10.1) -/

/-- Result codes of replies (section 10.1). -/
inductive Result where
  | ok | pending | notMaster | busy | badKind | badLength | badArg | state | priority | conflict | full
  deriving DecidableEq, Repr

/-- Line conditions (00_scope.md; R37): NOT-IN-SERVICE stands outside the order OK, DEGRADE, FAIL. -/
inductive Condition where
  | ok | degrade | fail | notInService
  deriving DecidableEq, Repr

/-- Power states (R33). -/
inductive PowerState where
  | normal | low | over | lost
  deriving DecidableEq, Repr

/-- Range kinds (R8). -/
inductive RangeKind where
  | outOfService | test
  deriving DecidableEq, Repr

/-- Range status of a port (R9). -/
inductive RangeStatus where
  | none | test | outOfService
  deriving DecidableEq, Repr

/-! ### Cable ports and the pilot (chapters 1 and 2) -/

/-- A trace: shelf, slot and port as carried in bytes 1 to 3 (R15, R185). -/
structure Trace where
  shelf : Byte
  slot  : Byte
  port  : Byte
  deriving DecidableEq, Repr

/-- The cable port record (R1). Powers and thresholds in centi-dBm, hold-off in ms. -/
structure PortRecord where
  enabled       : Bool
  expected      : Option Trace
  persistence   : Nat
  pilotRequired : Bool
  traceFail     : Bool
  overloadFail  : Bool
  icpt          : Int
  slope         : Nat
  tFail         : Int
  tDeg          : Int
  tOver         : Int
  hysteresis    : Nat
  holdOff       : Nat
  badThreshold  : Nat
  deriving DecidableEq, Repr

/-- A candidate of field acceptance with its repeat count (R15). -/
structure Cand (α : Type) where
  value : α
  count : Nat
  deriving DecidableEq, Repr

/-- The four flag fields of byte 4 (R16, R185). -/
structure Flags where
  farFail    : Bool
  farDegrade : Bool
  testRange  : Bool
  groupType  : BitVec 2
  deriving DecidableEq, Repr

/-- The protection fields, bytes 6 and 7 (R16). -/
structure ProtFields where
  request : Byte
  effect  : Byte
  deriving DecidableEq, Repr

/-- A character taken by a receiver with its marks, and the idle count that stood at sample 1 of its start (R10, R11). -/
structure RxChar where
  byte    : Byte
  noise   : Bool
  framing : Bool
  idle    : Nat
  deriving DecidableEq, Repr

/-- Character recovery (R10, R11, R166): in search with its idle count, or past sample 1 of a candidate start that came with
this idle count, with the samples taken since, sample 1 first. Samples 1 to 5 are the start verification. -/
inductive CharRx where
  | search (idle : Nat)
  | taking (idle : Nat) (samples : List Bool)
  deriving DecidableEq, Repr

/-- The pilot receiver (R10): whether it samples, and how far its character recovery is. -/
structure Receiver where
  running : Bool
  chars   : CharRx
  deriving DecidableEq, Repr

/-- The message assembly (R12, R13): HUNT, or ASSEMBLING with the characters held, character 0 first, and the samples left of the
allowance for the next one. -/
inductive Assembly where
  | hunt
  | assembling (chars : List RxChar) (left : Nat)
  deriving DecidableEq, Repr

/-- What a pilot transmitter is doing (R19, R22): stopped with PILOT-OUT at 1, in its lead-in, in its train of messages, or
given over to a cable test. -/
inductive TxPhase where
  | off | leadIn | message | test
  deriving DecidableEq, Repr

/-- A pilot transmitter (R19, R20): its phase, when the message last begun began, when the next one begins, and the bytes of
the message last begun. -/
structure PilotTx where
  phase  : TxPhase
  begun  : Nat
  nextAt : Nat
  bytes  : List Byte
  deriving DecidableEq, Repr

/-- Everything held for one cable port: its record (R1), receiver and assembly (R10 to R14), candidates and accepted fields
(R15, R16), defects and loss timer (R17, R18, R36), counts and noise window (R35: ten buckets, oldest first, the last the
current second's), the latest conversion, Ps and latches (R28 to R32), conditions and hold-off timer (R37 to R40), and its
transmitter (R19, R20). -/
structure Port where
  cfg           : PortRecord
  rx            : Receiver
  asm           : Assembly
  traceCand     : Option (Cand Trace)
  accTrace      : Option Trace
  flagsCand     : Option (Cand Flags)
  accFlags      : Option Flags
  qualityCand   : Option (Cand Nat)
  accQuality    : Option Nat
  protCand      : Option (Cand ProtFields)
  accProt       : Option ProtFields
  pilotLoss     : Bool
  traceMismatch : Bool
  pilotErrors   : Bool
  lossTimer     : Option Nat
  validCount    : Nat
  buckets       : List Nat
  lastValid     : Nat
  lastBad       : Nat
  power         : Option Int
  satLow        : Bool
  satHigh       : Bool
  ps            : Option Int
  lostLatch     : Bool
  overLatch     : Bool
  lowLatch      : Bool
  raw           : Condition
  reported      : Condition
  holdTimer     : Option Nat
  tx            : PilotTx
  deriving DecidableEq, Repr

/-- A port range entry (R8). -/
structure RangeEntry where
  enabled : Bool
  kind    : RangeKind
  lower   : PortId
  upper   : PortId
  deriving DecidableEq, Repr

/-- The conversion under way (R26, R27): its port, whether that port has been enabled throughout, and its end. -/
structure Conversion where
  port   : PortId
  used   : Bool
  endsAt : Nat
  deriving DecidableEq, Repr

/-- The out side's phase of a cable test (R21, R22). -/
inductive OutPhase where
  | finish | lead | marker | sequence | done
  deriving DecidableEq, Repr

/-- The in side's phase of a cable test (R23). -/
inductive InPhase where
  | awaitMarker | compare
  deriving DecidableEq, Repr

/-- The single test record (R21), with both sequence registers (R22) and the end of the out side's present phase. -/
structure CableTest where
  outPort    : PortId
  inPort     : PortId
  length     : Nat
  late       : Bool
  link       : LinkId
  outPhase   : OutPhase
  inPhase    : InPhase
  compared   : Nat
  acceptedAt : Nat
  phaseEnds  : Nat
  outReg     : BitVec 7
  inReg      : BitVec 7
  deriving DecidableEq, Repr

/-! ### Protection groups and switch actuators (chapters 3 to 5) -/

/-- Request kinds (R50). -/
inductive ReqKind where
  | none | hold | trial | restoreWait | manual | degradeP | degrade | fail | force | failP | bar
  deriving DecidableEq, Repr

/-- A request: a kind and a member, 0 for the kinds without one (R50). -/
structure Request where
  kind   : ReqKind
  member : Nat
  deriving DecidableEq, Repr

inductive GroupType where
  | onePlusOne | oneForN
  deriving DecidableEq, Repr

inductive Ends where
  | single | dual
  deriving DecidableEq, Repr

/-- The fields of a group record that SET-GROUP sets (R43). Hold-off in ms, restore-wait in s. -/
structure GroupConfig where
  type        : GroupType
  ends        : Ends
  prot        : PortId
  working     : List PortId
  revertive   : Bool
  holdOff     : Nat
  restoreWait : Nat
  selector    : Nat
  bridge      : Option Nat
  deriving DecidableEq, Repr

/-- The states of a configured group (R70). A group without a record is UNCONFIGURED. -/
inductive GroupState where
  | adopting | idle | bridging | awaitFar | selecting | switched | releasing | recovering | frozen | halted | maint
  deriving DecidableEq, Repr

/-- Trial results (R43, R88). -/
inductive TrialResult where
  | none | pass | fail | abandoned
  deriving DecidableEq, Repr

/-- A configured group (R43, R68 to R70, R77, R86). -/
structure Group where
  cfg              : GroupConfig
  state            : GroupState
  external         : Option Request
  stay             : Option Request
  restoreTimer     : Option Nat
  remote           : Option Request
  farEcho          : Option ReqKind
  farBridged       : Option Nat
  protocolMismatch : Bool
  local_           : Request
  effective        : Request
  target           : Nat
  trialResult      : TrialResult
  trialTimer       : Option Nat
  awaitTimer       : Option Nat
  farBridgeTimeout : Bool
  deriving DecidableEq, Repr

inductive Role where
  | selector | bridge
  deriving DecidableEq, Repr

/-- Where the polling of a moving element stands (R95): its poll falls due at a time, has been due since a time, or is on the
bus. -/
inductive PollState where
  | waiting (due : Nat)
  | due (since : Nat)
  | onBus
  deriving DecidableEq, Repr

/-- A move under way (R94, R95): when it began, and its poll. Its timeout expires 200 ms after it began. -/
structure Move where
  began : Nat
  poll  : PollState
  deriving DecidableEq, Repr

/-- An element record (R89). The moving set (R95) is the elements whose `moving` is set. -/
structure Element where
  address     : Nat
  role        : Role
  group       : GroupId
  known       : Option Nat
  lastSettled : Option Nat
  paired      : Bool
  partner     : Option Nat
  moving      : Option Move
  lastFault   : Byte
  deriving DecidableEq, Repr

inductive OpClass where
  | protection | recovery | adopt | maintenance
  deriving DecidableEq, Repr

/-- What an operation does (R97): a read of a selector and then of a bridge, a move of one element, or a paired move. -/
inductive OpKind where
  | read (selector : Nat) (bridge : Option Nat)
  | move (address target : Nat)
  | paired (selector selectorTarget bridge bridgeTarget : Nat)
  deriving DecidableEq, Repr

/-- A command frame of the actuator bus (section 10.5). -/
inductive BusCmd where
  | read (address : Nat)
  | move (address target : Nat)
  | paired (address selectorTarget bridgeTarget : Nat)
  | poll (address : Nat)
  deriving DecidableEq, Repr

/-- An entry of the move queue (R97): in flight or queued; the ready transaction with the time it became ready; whether the
operation has come to its second element; whether a paired move goes on in single form (R96); the elements a read found
unread (R93); whether a trial read is still to be judged (R88), and whether it read the position known before it (R87). -/
structure Op where
  cls      : OpClass
  kind     : OpKind
  group    : GroupId
  inFlight : Bool
  ready    : Option (Nat × BusCmd)
  second   : Bool
  single   : Bool
  unread   : List Nat
  judged   : Bool
  matched  : Bool
  deriving DecidableEq, Repr

/-- Where the exchange of a transaction stands (R92): open until its answer timeout, or waiting to be repeated. -/
inductive Exchange where
  | awaiting (timeout : Nat)
  | repeating (beginsAt : Nat)
  deriving DecidableEq, Repr

/-- The transaction on the bus (R92): its command, the group whose operation it serves, its exchange, whether it has been
repeated, whether it counts only for ACTUATOR-BUS (R95, R100), and whether it may still be repeated (R95). -/
structure Transaction where
  cmd        : BusCmd
  owner      : GroupId
  exchange   : Exchange
  repeated   : Bool
  orphan     : Bool
  repeatable : Bool
  deriving DecidableEq, Repr

/-- What the arbiter may choose (R99): the time by which it stands in its order, the command, and its group. -/
structure Choice where
  since : Nat
  cmd   : BusCmd
  owner : GroupId
  deriving DecidableEq, Repr

/-! ### Notices (section 8.4) -/

inductive Severity where
  | none | warning | minor | major | critical
  deriving DecidableEq, Repr

inductive Grade where
  | sa | nsa | ungraded
  deriving DecidableEq, Repr

inductive AlarmEvent where
  | raised | cleared | hidden | severity
  deriving DecidableEq, Repr

inductive TimingState where
  | freeRun | acquiring | locked | holdover
  deriving DecidableEq, Repr

/-- A notice with its contents as they stood when it was queued (R159). A GROUP notice's state `none` is UNCONFIGURED. -/
inductive Notice where
  | alarm (point : PointId) (event : AlarmEvent) (severity : Severity) (grade : Grade)
  | group (g : GroupId) (entered : Option GroupState) (effective : Request) (selected : Option Nat) (trial : TrialResult)
  | timing (state : TimingState) (selected : Option RefId)
  | claimPending
  | granted (challenge : Byte)
  | overflow
  deriving DecidableEq, Repr

/-- The protection controller and the actuator controller: group records, element table, move queue, the bus with the end of
its last transaction, the arbiter's choice of the transaction that begins next (R99), ACTUATOR-BUS (R92), the settle-failure list
(R107), and the GROUP notices of the step under way. -/
structure Switching where
  groups     : Vector (Option Group) 12
  elements   : List Element
  queue      : List Op
  bus        : Option Transaction
  busFreeAt  : Nat
  chosen     : Option Choice
  busDefect  : Bool
  settleFail : List GroupId
  raised     : List Notice
  deriving DecidableEq, Repr

/-! ### Shelf timing (chapter 6) -/

inductive NominalRate where
  | mhz2048 | mhz1544 | khz8
  deriving DecidableEq, Repr

/-- The binding of a line reference (R109). -/
inductive Binding where
  | port (p : PortId)
  | member (g : GroupId) (m : Nat)
  deriving DecidableEq, Repr

inductive QualState where
  | unqualified | soaking | qualified | rejected
  deriving DecidableEq, Repr

/-- A sample in ppb with its out-of-range mark (R119). -/
structure Sample where
  ppb        : Int
  outOfRange : Bool
  deriving DecidableEq, Repr

/-- A reference record (R109). `measuring` is the measurement in progress with the edges it has counted; its window is oldest
first. -/
structure Ref where
  enabled    : Bool
  rate       : NominalRate
  binding    : Binding
  priority   : Nat
  provisioned : Nat
  lockedOut  : Bool
  present    : Bool
  window     : List Sample
  latest     : Option Sample
  average    : Option Int
  state      : QualState
  soakTimer  : Option Nat
  source     : Option PortId
  received   : Nat
  measuring  : Option Nat
  edgeTimer  : Option Nat
  deriving DecidableEq, Repr

inductive TimingMode where
  | quality | priority
  deriving DecidableEq, Repr

/-- The timing settings (R132): ppb, s, s, h, ppb. -/
structure TimingSettings where
  accept          : Nat
  requalifySoak   : Nat
  acquireTime     : Nat
  holdoverLimit   : Nat
  slew            : Nat
  mode            : TimingMode
  revertive       : Bool
  holdoverQuality : Nat
  freeRunQuality  : Nat
  deriving DecidableEq, Repr

/-- The timing unit: references, settings, selection and force (R123, R124), timing state and its timers (R126, R128), holdover
history, count and readiness (R127), steering word (R129), the reference on REFOUT or low (R130), the code given to each port
(R131), the steering line's frame in transmission with its end and the frame waiting (R188), the next tick of the seconds
clock (R35), and the TIMING notices of the step under way. -/
structure Timing where
  refs          : Vector Ref 6
  settings      : TimingSettings
  selected      : Option RefId
  forced        : Option RefId
  state         : TimingState
  acquireTimer  : Option Nat
  holdoverTimer : Option Nat
  holdoverValue : Int
  history       : List Int
  lockedUpdates : Nat
  ready         : Bool
  word          : Int
  refout        : Option RefId
  codes         : Vector Nat 32
  steering      : Option (List Byte × Nat)
  steerWaiting  : Option (List Byte)
  nextTick      : Nat
  raised        : List Notice
  deriving DecidableEq, Repr

/-! ### Alarm points and office outputs (chapters 7 and 8) -/

/-- Defect kinds, in the order of R135. -/
inductive DefectKind where
  | lostLight | lowPower | overload | pilotLoss | traceMismatch | pilotErrors | farFail
  | protUnavailable | protocolMismatch | farBridgeTimeout | switchFail | halted | standingRequest
  | refFail | refRejected | refQuality
  | holdover | freeRun | noMaster | shelfFail | actuatorBus
  deriving DecidableEq, Repr

/-- The object a point stands on (R135). -/
inductive Place where
  | port (p : PortId)
  | group (g : GroupId)
  | ref (r : RefId)
  | shelf
  deriving DecidableEq, Repr

/-- The one soak timer of a point (R136). -/
inductive Soak where
  | stopped
  | declare (expiry : Nat)
  | clear (expiry : Nat)
  deriving DecidableEq, Repr

/-- An alarm point (R136). -/
structure Point where
  raw          : Bool
  declared     : Bool
  soak         : Soak
  grade        : Grade
  severity     : Severity
  masked       : Bool
  suppressed   : Bool
  acknowledged : Bool
  deriving DecidableEq, Repr

/-- A severity profile entry (R140), soaks in ms. -/
structure ProfileEntry where
  sa          : Severity
  nsa         : Severity
  declareSoak : Nat
  clearSoak   : Nat
  deriving DecidableEq, Repr

/-- One number for each severity that has contacts. -/
structure SeverityCounts where
  critical : Nat
  major    : Nat
  minor    : Nat
  deriving DecidableEq, Repr

/-- The office contacts of the alarm unit, true when closed (section 8). -/
structure Contacts where
  crv : Bool
  cra : Bool
  mjv : Bool
  mja : Bool
  mnv : Bool
  mna : Bool
  deriving DecidableEq, Repr

/-- The ACO_N pushbutton (R156): for how long ACO_N was high before it went low, and for how long it has been low since, in ms seen from
the full reset on, each counted to 20. -/
structure AcoPin where
  high : Nat
  low  : Nat
  deriving DecidableEq, Repr

/-- The alarm unit: points, profile, active alarm list (R149), the counts of R154 and R155, the contacts and the pushbutton. -/
structure AlarmUnit where
  points   : Vector Point 319
  profile  : Vector ProfileEntry 21
  active   : List PointId
  visual   : SeverityCounts
  audible  : SeverityCounts
  contacts : Contacts
  acoPin   : AcoPin
  deriving DecidableEq, Repr

/-- The notice queue with its overflow flag and settings (R159, R164). -/
structure Notices where
  queue        : List Notice
  overflow     : Bool
  threshold    : Severity
  groupEnable  : Bool
  timingEnable : Bool
  deriving DecidableEq, Repr

/-! ### Controller links (chapter 9) -/

inductive LinkRole where
  | observer | claimant | master
  deriving DecidableEq, Repr

inductive LinkRxState where
  | breakHunt | awaitLen | inFrame
  deriving DecidableEq, Repr

/-- A link receiver (R166 to R168): its state, the frame in assembly (the bytes taken, LEN first), its character recovery, the
samples taken since the gap limit last began to count, and the consecutive 0 samples up to the 240 of a break. -/
structure LinkRx where
  state    : LinkRxState
  assembly : List Byte
  chars    : CharRx
  waited   : Nat
  zeros    : Nat
  deriving DecidableEq, Repr

/-- A link receiver in BREAK-HUNT on a line at rest: after full reset, and at the end of a frame that came whole (R168, R181; log
entry 6). -/
def LinkRx.hunting : LinkRx := ⟨.breakHunt, [], .search 0, 0, 0⟩

/-- A reply or notice frame less its break, LEN and CRC (section 9.2). -/
structure Frame where
  tag     : Byte
  kind    : Byte
  payload : List Byte
  deriving DecidableEq, Repr

/-- A ready reply, and whether it is the BUSY reply of R171. -/
structure Reply where
  frame : Frame
  busy  : Bool
  deriving DecidableEq, Repr

/-- An outstanding request (R171): its TAG and KIND, and whether its reply has been formed. -/
structure Outstanding where
  tag    : Byte
  kind   : Byte
  formed : Bool
  deriving DecidableEq, Repr

/-- A controller link: receiver, outstanding request, ready replies (oldest first), the frame last begun with the end of its
transmission, and role. -/
structure Link where
  rx          : LinkRx
  outstanding : Option Outstanding
  ready       : List Reply
  sending     : Option (Frame × Nat)
  role        : LinkRole
  deriving DecidableEq, Repr

inductive WatchMode where
  | plain | window | challenge
  deriving DecidableEq, Repr

/-- The running period timer (R175): its expiry, and the length it was started with, both in µs. -/
structure PeriodTimer where
  expiry : Nat
  length : Nat
  deriving DecidableEq, Repr

/-- The link supervisor (chapter 9): both links, the rate code sampled from RATE[1:0] (R166), the link-watch settings (R178, ms),
the period timer and the start of the early window (R174), the last challenge and how many have been drawn (R175), the lapse
count, run and ever-granted fact (R177), and SHF (R158; true when closed). -/
structure LinkSupervisor where
  linkA       : Link
  linkB       : Link
  rate        : BitVec 2
  mode        : WatchMode
  period      : Nat
  lapseLimit  : Nat
  periodTimer : Option PeriodTimer
  earlyStart  : Nat
  challenge   : Option Byte
  draws       : Nat
  lapses      : Nat
  run         : Nat
  everGranted : Bool
  shf         : Bool
  deriving DecidableEq, Repr

/-! ### The whole part -/

/-- The state of the part. `now`, `orderDraws` and `raised` are the model's own: its clock, the number of free choices of order
made so far, and the link supervisor's notices of the step under way (empty between steps). -/
structure State where
  now        : Nat
  pending    : List Instr
  shelf      : Byte
  slot       : Byte
  ranges     : Vector RangeEntry 4
  ports      : Vector Port 32
  conversion : Option Conversion
  cableTest  : Option CableTest
  sw         : Switching
  timing     : Timing
  alarms     : AlarmUnit
  notices    : Notices
  links      : LinkSupervisor
  raised     : List Notice
  orderDraws : Nat
  deriving DecidableEq, Repr

/-- Why the machine would stop. It never does: every command of the table has a next state in every state of the part. -/
inductive Fault where
  deriving DecidableEq, Repr

/-- Why a command would have no meaning. -/
inductive Refusal where
  /-- A command of the table that the model gives no meaning yet; raised by `exec` alone; safe. -/
  | notModelled (mnemonic : String)
  deriving DecidableEq, Repr

/-! ### Full reset (R181 and the reset rules of every chapter) -/

/-- The port record after full reset (R1). -/
def PortRecord.reset : PortRecord where
  enabled := false
  expected := none
  persistence := 3
  pilotRequired := false
  traceFail := false
  overloadFail := false
  icpt := -5000
  slope := 320
  tFail := -3500
  tDeg := -2800
  tOver := -300
  hysteresis := 100
  holdOff := 0
  badThreshold := 40

/-- A disabled port with this record (R4, R25, R34, R35, R42). The latest power is absent and both saturation marks are clear until
its first used conversion (R28; DESIGN CHOICE, log entry 28). -/
def Port.disabled (cfg : PortRecord) : Port where
  cfg := cfg
  rx := ⟨false, .search 0⟩
  asm := .hunt
  traceCand := none
  accTrace := none
  flagsCand := none
  accFlags := none
  qualityCand := none
  accQuality := none
  protCand := none
  accProt := none
  pilotLoss := false
  traceMismatch := false
  pilotErrors := false
  lossTimer := none
  validCount := 0
  buckets := List.replicate 10 0
  lastValid := 0
  lastBad := 0
  power := none
  satLow := false
  satHigh := false
  ps := none
  lostLatch := false
  overLatch := false
  lowLatch := false
  raw := .notInService
  reported := .notInService
  holdTimer := none
  tx := ⟨.off, 0, 0, []⟩

/-- A reference after full reset (R109): the priority is the index plus 1. -/
def Ref.reset (r : RefId) : Ref where
  enabled := false
  rate := .mhz2048
  binding := .port 0
  priority := r.val + 1
  provisioned := 6
  lockedOut := false
  present := false
  window := []
  latest := none
  average := none
  state := .unqualified
  soakTimer := none
  source := none
  received := 15
  measuring := none
  edgeTimer := none

/-- The timing settings after full reset (R132). -/
def TimingSettings.reset : TimingSettings where
  accept := 4600
  requalifySoak := 30
  acquireTime := 30
  holdoverLimit := 24
  slew := 1000
  mode := .quality
  revertive := false
  holdoverQuality := 11
  freeRunQuality := 12

/-- The timing unit after a full reset at time `now` (R134). The first tick comes one second later (log entry 5). The holdover value
is 0, for which R134 gives none (DESIGN CHOICE, log entry 28). -/
def Timing.reset (now : Nat) : Timing where
  refs := tab 6 Ref.reset
  settings := .reset
  selected := none
  forced := none
  state := .freeRun
  acquireTimer := none
  holdoverTimer := none
  holdoverValue := 0
  history := []
  lockedUpdates := 0
  ready := false
  word := 0
  refout := none
  codes := Vector.replicate 32 12
  steering := none
  steerWaiting := none
  nextTick := now + 1000000
  raised := []

/-- The protection controller and the actuator controller after full reset (R43, R89, R98, R107, R108). -/
def Switching.reset : Switching where
  groups := Vector.replicate 12 none
  elements := []
  queue := []
  bus := none
  busFreeAt := 0
  chosen := none
  busDefect := false
  settleFail := []
  raised := []

/-- The severity profile after full reset (R140), in the order of R135. -/
def ProfileEntry.resets : List ProfileEntry :=
  [⟨.major, .minor, 2500, 10000⟩, ⟨.minor, .warning, 2500, 10000⟩, ⟨.major, .minor, 2500, 10000⟩,
   ⟨.minor, .warning, 2500, 10000⟩, ⟨.major, .minor, 2500, 10000⟩, ⟨.minor, .warning, 2500, 10000⟩,
   ⟨.minor, .warning, 2500, 10000⟩,
   ⟨.minor, .none, 0, 0⟩, ⟨.minor, .none, 0, 0⟩, ⟨.minor, .none, 0, 0⟩, ⟨.major, .none, 0, 0⟩,
   ⟨.critical, .none, 0, 0⟩, ⟨.warning, .none, 0, 0⟩,
   ⟨.minor, .none, 0, 0⟩, ⟨.minor, .none, 0, 0⟩, ⟨.warning, .none, 0, 0⟩,
   ⟨.major, .none, 0, 0⟩, ⟨.major, .none, 0, 0⟩, ⟨.major, .none, 0, 0⟩, ⟨.critical, .none, 0, 0⟩,
   ⟨.major, .none, 0, 0⟩]

/-- The index of the profile entry of a point's kind (R135). -/
def profileIndex (k : PointId) : Fin 21 :=
  if k.val < 224 then Fin.ofNat 21 (k.val / 32)
  else if k.val < 296 then Fin.ofNat 21 (7 + (k.val - 224) / 12)
  else if k.val < 314 then Fin.ofNat 21 (13 + (k.val - 296) / 6)
  else Fin.ofNat 21 (16 + (k.val - 314))

/-- The profile after full reset (R140). -/
def profileReset : Vector ProfileEntry 21 := ⟨⟨ProfileEntry.resets⟩, rfl⟩

/-- The two points whose raw defect is present from the first moment after full reset: NO-MASTER and SHELF-FAIL (R153). -/
def declaredAtReset (k : PointId) : Bool := k.val = 316 || k.val = 317

/-- A point at the first moment after full reset (R136, R153). -/
def Point.reset (k : PointId) : Point where
  raw := declaredAtReset k
  declared := declaredAtReset k
  soak := .stopped
  grade := if k.val < 224 then .sa else .ungraded
  severity := profileReset[profileIndex k].sa
  masked := false
  suppressed := false
  acknowledged := false

/-- The alarm unit at the first moment after full reset: NO-MASTER and SHELF-FAIL declared, in either order, so that CRV, CRA, MJV
and MJA are closed (R153, R165). -/
def AlarmUnit.reset (draw : Nat) : AlarmUnit where
  points := tab 319 Point.reset
  profile := profileReset
  active := freeOrder draw [316, 317]
  visual := ⟨1, 1, 0⟩
  audible := ⟨1, 1, 0⟩
  contacts := ⟨true, true, true, true, false, false⟩
  acoPin := ⟨0, 0⟩

/-- The notices at the first moment after full reset: the two RAISED notices, in either order (R165). -/
def Notices.reset (draw : Nat) : Notices where
  queue := freeOrder draw [.alarm 316 .raised .major .ungraded, .alarm 317 .raised .critical .ungraded]
  overflow := false
  threshold := .warning
  groupEnable := true
  timingEnable := true

/-- A link after full reset (R181). -/
def Link.reset : Link where
  rx := .hunting
  outstanding := none
  ready := []
  sending := none
  role := .observer

/-- The link supervisor after full reset (R181), with the strap sampled and the number of challenges drawn so far. -/
def LinkSupervisor.reset (rate : BitVec 2) (draws : Nat) : LinkSupervisor where
  linkA := .reset
  linkB := .reset
  rate := rate
  mode := .plain
  period := 1000
  lapseLimit := 2
  periodTimer := none
  earlyStart := 0
  challenge := none
  draws := draws
  lapses := 0
  run := 0
  everGranted := false
  shf := true

/-- The part at the first moment after a full reset taken at time `now` with the strap at `rate`; `draws` and `orderDraws` are the
free values used up to then, and `pending` the commands waiting. -/
def State.afterReset (rate : BitVec 2) (now draws orderDraws : Nat) (pending : List Instr) : State where
  now := now
  pending := pending
  shelf := 0
  slot := 0
  ranges := Vector.replicate 4 ⟨false, .outOfService, 0, 0⟩
  ports := Vector.replicate 32 (.disabled .reset)
  conversion := none
  cableTest := none
  sw := .reset
  timing := .reset now
  alarms := .reset orderDraws
  notices := .reset (orderDraws + 2)
  links := .reset rate draws
  raised := []
  orderDraws := orderDraws + 4

/-- The part right after power-on, with the strap at 0 (log entry 3) and no command waiting. -/
def State.reset : State := .afterReset 0 0 0 0 []

end Sys2Proof.Machine
end

