-- ==== Sys2Proof/Machine/Formats.lean ====
section
/-! DEFINITION. The code sets of section 10.1 and the ranks of 00_scope.md: what each enumerated value is sent as, and which
byte names which value. -/

namespace Sys2Proof.Machine

def Result.code : Result → Byte
  | .ok => 0 | .pending => 1 | .notMaster => 2 | .busy => 3 | .badKind => 4 | .badLength => 5 | .badArg => 6
  | .state => 7 | .priority => 8 | .conflict => 9 | .full => 10

/-- Severities in rising order (00_scope.md), which is their code order. -/
def Severity.rank : Severity → Nat
  | .none => 0 | .warning => 1 | .minor => 2 | .major => 3 | .critical => 4

def Severity.ofCode (b : Byte) : Option Severity :=
  match b.toNat with
  | 0 => some .none | 1 => some .warning | 2 => some .minor | 3 => some .major | 4 => some .critical
  | _ => Option.none

/-- Line conditions in worsening order (00_scope.md), which is their code order. -/
def Condition.rank : Condition → Nat
  | .ok => 0 | .degrade => 1 | .fail => 2 | .notInService => 3

def PowerState.code : PowerState → Nat
  | .normal => 0 | .low => 1 | .over => 2 | .lost => 3

def RangeKind.code : RangeKind → Nat
  | .outOfService => 0 | .test => 1

def RangeKind.ofCode (b : Byte) : Option RangeKind :=
  if b = 0 then some .outOfService else if b = 1 then some .test else none

def RangeStatus.code : RangeStatus → Nat
  | .none => 0 | .test => 1 | .outOfService => 2

/-- The codes of R50, which are the priorities. -/
def ReqKind.code : ReqKind → Nat
  | .none => 0 | .hold => 2 | .trial => 3 | .restoreWait => 4 | .manual => 6 | .degradeP => 7 | .degrade => 8 | .fail => 10
  | .force => 12 | .failP => 13 | .bar => 14

/-- The kind a code names; 1, 5, 9, 11 and 15 name none (R50). -/
def ReqKind.ofCode : Nat → Option ReqKind
  | 0 => some .none | 2 => some .hold | 3 => some .trial | 4 => some .restoreWait | 6 => some .manual | 7 => some .degradeP
  | 8 => some .degrade | 10 => some .fail | 12 => some .force | 13 => some .failP | 14 => some .bar
  | _ => Option.none

/-- Whether a kind is written with a member (R50). -/
def ReqKind.hasMember : ReqKind → Bool
  | .hold | .trial | .restoreWait | .manual | .degrade | .fail | .force => true
  | .none | .degradeP | .failP | .bar => false

def GroupType.code : GroupType → Nat
  | .onePlusOne => 1 | .oneForN => 2

def GroupType.ofCode (b : Byte) : Option GroupType :=
  if b = 1 then some .onePlusOne else if b = 2 then some .oneForN else none

def Ends.code : Ends → Nat
  | .single => 0 | .dual => 1

def Ends.ofCode (b : Byte) : Option Ends := if b = 0 then some .single else if b = 1 then some .dual else none

/-- Group state codes; UNCONFIGURED, a group without a record, is 0. -/
def GroupState.code : Option GroupState → Nat
  | none => 0 | some .adopting => 1 | some .idle => 2 | some .bridging => 3 | some .awaitFar => 4 | some .selecting => 5
  | some .switched => 6 | some .releasing => 7 | some .recovering => 8 | some .frozen => 9 | some .halted => 10
  | some .maint => 11

def TrialResult.code : TrialResult → Nat
  | .none => 0 | .pass => 1 | .fail => 2 | .abandoned => 3

def NominalRate.code : NominalRate → Nat
  | .mhz2048 => 0 | .mhz1544 => 1 | .khz8 => 2

def NominalRate.ofCode (b : Byte) : Option NominalRate :=
  if b = 0 then some .mhz2048 else if b = 1 then some .mhz1544 else if b = 2 then some .khz8 else none

/-- The divider that brings an office feed to its 8 kHz rate (R109). -/
def NominalRate.divider : NominalRate → Nat
  | .mhz2048 => 256 | .mhz1544 => 193 | .khz8 => 1

def TimingMode.code : TimingMode → Nat
  | .quality => 0 | .priority => 1

def TimingMode.ofCode (b : Byte) : Option TimingMode :=
  if b = 0 then some .quality else if b = 1 then some .priority else none

def TimingState.code : TimingState → Nat
  | .freeRun => 0 | .acquiring => 1 | .locked => 2 | .holdover => 3

def QualState.code : QualState → Nat
  | .unqualified => 0 | .soaking => 1 | .qualified => 2 | .rejected => 3

def WatchMode.code : WatchMode → Nat
  | .plain => 0 | .window => 1 | .challenge => 2

def WatchMode.ofCode (b : Byte) : Option WatchMode :=
  if b = 0 then some .plain else if b = 1 then some .window else if b = 2 then some .challenge else none

def AlarmEvent.code : AlarmEvent → Nat
  | .raised => 0 | .cleared => 1 | .hidden => 2 | .severity => 3

def Grade.code : Grade → Nat
  | .sa => 0 | .nsa => 1 | .ungraded => 2

/-- The KIND codes of the request table (section 10.1). -/
def requestKinds : List Byte :=
  [0x01, 0x02, 0x03, 0x04, 0x05, 0x06, 0x10, 0x11, 0x12, 0x13, 0x14, 0x15, 0x16, 0x20, 0x21, 0x22, 0x23, 0x24, 0x28, 0x29, 0x2A,
   0x2B, 0x30, 0x31, 0x32, 0x33, 0x34, 0x40, 0x41, 0x42, 0x48, 0x49]

/-! ### Alarm point identity (R135) -/

/-- The kind code, 0 to 20, of a point. -/
def kindOfPoint (k : PointId) : Fin 21 := profileIndex k

/-- The object a point stands on (R135). -/
def placeOfPoint (k : PointId) : Place :=
  if k.val < 224 then .port (Fin.ofNat 32 k.val)
  else if k.val < 296 then .group (Fin.ofNat 12 (k.val - 224))
  else if k.val < 314 then .ref (Fin.ofNat 6 (k.val - 296))
  else .shelf

/-- The object index sent with a point: the port, group or reference, and 0 for a shelf point (section 10.3). -/
def objectIndex (k : PointId) : Nat :=
  match placeOfPoint k with
  | .port p => p.val
  | .group g => g.val
  | .ref r => r.val
  | .shelf => 0

/-- The defect kinds in enumeration order (R135). -/
def DefectKind.ofIndex (k : Fin 21) : DefectKind :=
  match k.val with
  | 0 => .lostLight | 1 => .lowPower | 2 => .overload | 3 => .pilotLoss | 4 => .traceMismatch | 5 => .pilotErrors
  | 6 => .farFail | 7 => .protUnavailable | 8 => .protocolMismatch | 9 => .farBridgeTimeout | 10 => .switchFail
  | 11 => .halted | 12 => .standingRequest | 13 => .refFail | 14 => .refRejected | 15 => .refQuality | 16 => .holdover
  | 17 => .freeRun | 18 => .noMaster | 19 => .shelfFail | _ => .actuatorBus

/-- The point of kind number `k` (0-based in the port domain) on a port: 32 × k + i. -/
def portPoint (k : Fin 7) (p : PortId) : PointId := ⟨32 * k.val + p.val, by omega⟩

/-- The point of kind number `k` (0-based in the group domain) on a group: 224 + 12 × k + i. -/
def groupPoint (k : Fin 6) (g : GroupId) : PointId := ⟨224 + 12 * k.val + g.val, by omega⟩

/-- The point of kind number `k` (0-based in the reference domain) on a reference: 296 + 6 × k + i. -/
def refPoint (k : Fin 3) (r : RefId) : PointId := ⟨296 + 6 * k.val + r.val, by omega⟩

/-! ### Items of replies (R184) -/

def condByte (c : Condition) : Byte := byteOf c.rank

/-- A value within 0..254 that may be absent: 0xFF for absent. -/
def orFF (x : Option Nat) : Byte := (x.map byteOf).getD 0xFF

/-- An item of more than one byte that may be absent: a presence byte, then its value, sent as 0 when absent. -/
def present (width : Nat) (x : Option (List Byte)) : List Byte :=
  match x with
  | some bs => 1 :: bs
  | none => 0 :: List.replicate width 0

/-- A request: its kind code and its member. -/
def requestBytes (r : Request) : List Byte := [byteOf r.kind.code, byteOf r.member]

/-- A request that may be absent: kind 0xFF and member 0 when absent. -/
def requestOrFF (r : Option Request) : List Byte := (r.map requestBytes).getD [0xFF, 0]

def traceBytes (t : Trace) : List Byte := [t.shelf, t.slot, t.port]

/-- The four flags as in byte 4 of the pilot (section 10.4). -/
def flagsByte (f : Flags) : Byte :=
  byteOf ((if f.farFail then 1 else 0) + (if f.farDegrade then 2 else 0) + (if f.testRange then 4 else 0)
    + 8 * f.groupType.toNat)

/-! ### Notices on a link (sections 10.1 and 10.3) -/

def Notice.kind : Notice → Byte
  | .alarm .. => 0x60
  | .group .. => 0x61
  | .timing .. => 0x62
  | .claimPending => 0x63
  | .granted _ => 0x63
  | .overflow => 0x64

def Notice.payload : Notice → List Byte
  | .alarm k e sev g =>
    be16 k.val ++ [byteOf (kindOfPoint k).val, byteOf (objectIndex k), byteOf e.code, byteOf sev.rank, byteOf g.code]
  | .group g st e sel tr =>
    [byteOf g.val, byteOf (GroupState.code st)] ++ requestBytes e ++ [orFF sel, byteOf tr.code]
  | .timing st sel => [byteOf st.code, orFF (sel.map Fin.val)]
  | .claimPending => [0, 0]
  | .granted ch => [1, ch]
  | .overflow => []

/-- A notice is sent with TAG 0x00 (R182). -/
def Notice.frame (n : Notice) : Frame := ⟨0, n.kind, n.payload⟩

/-- The bytes of a frame as characters on the line: LEN, TAG, KIND, payload and CRC, high byte first (section 9.2, R169). -/
def Frame.bytes (f : Frame) : List Byte :=
  let body := byteOf (f.payload.length + 4) :: f.tag :: f.kind :: f.payload
  body ++ be16 (crc16 body).toNat

end Sys2Proof.Machine
end

