-- ==== Sys2Proof/Machine/Receivers.lean ====
section
/-! DEFINITION. Receivers sample by sample: characters recovered from samples (R10, R11, R166), the marker of a cable test (R23), and
the frames of a controller link (R167, R168). -/

namespace Sys2Proof.Machine

/-! ### Characters (R10, R11) -/

/-- Whether character recovery is in search (R10). -/
def CharRx.searching : CharRx → Bool
  | .search _ => true
  | .taking _ _ => false

/-- The character of its samples and the idle count of its start (R10, R11). -/
def characterOf (idle : Nat) (samples : List Bool) : RxChar :=
  ⟨characterByte samples, characterNoise samples, characterFraming samples, idle⟩

/-- One sample of character recovery, and the character it completes (R10, R11): in search a 1 adds to the idle count, and a 0 taken
with an idle count of at least 3 is sample 1 of a candidate start; sample 5 verifies it or returns to search; sample 116 takes the
character. -/
def CharRx.sample (b : Bool) (x : CharRx) : CharRx × Option RxChar :=
  match x with
  | .search idle =>
    if b then (.search (idle + 1), none)
    else if 3 ≤ idle then (.taking idle [false], none)
    else (.search 0, none)
  | .taking idle before =>
    let samples := before ++ [b]
    if samples.length = 5 ∧ startVerified samples = false then (.search 0, none)
    else if characterLength ≤ samples.length then (.search 0, some (characterOf idle samples))
    else (.taking idle samples, none)

/-! ### The marker of a cable test (R23) -/

/-- Whether a start has just been verified whose sample 1 came with an idle count of at least 144 (R23). -/
def CharRx.isMarker : CharRx → Bool
  | .search _ => false
  | .taking idle samples => decide (samples.length = 5) && decide (144 ≤ idle)

/-- A start just verified is given up, the receiver returning to search (DESIGN CHOICE, log entry 46). -/
def CharRx.giveUpStart : CharRx → CharRx
  | .search idle => .search idle
  | .taking idle samples => if 5 ≤ samples.length then .search 0 else .taking idle samples

/-- The samples of the in side in AWAIT-MARKER, up to its marker: the receiver samples as in R10 and takes only the marker (R23). -/
def seekMarker : List Bool → CharRx → CharRx × Bool
  | [], x => (x, false)
  | b :: bs, x =>
    let y := (x.sample b).1
    if y.isMarker then (.search 0, true) else seekMarker bs y.giveUpStart

/-! ### The receiver of a controller link (R166 to R168) -/

/-- The frame in assembly is discarded, and the receiver is in BREAK-HUNT (R168). -/
def LinkRx.discard (x : LinkRx) : LinkRx := { x with state := .breakHunt, assembly := [] }

/-- A character taken on a link, and the frame that it completes where the CRC fits (R167 to R169): ignored in BREAK-HUNT; with a
framing error it discards the frame; the first in AWAIT-LEN is LEN, which below 4 discards the frame; in IN-FRAME it joins the
frame, which is judged when LEN bytes have followed LEN. -/
def LinkRx.takeChar (c : RxChar) (x : LinkRx) : LinkRx × Option (List Byte) :=
  match x.state with
  | .breakHunt => (x, none)
  | .awaitLen =>
    if c.framing ∨ c.byte.toNat < 4 then (x.discard, none) else ({ x with state := .inFrame, assembly := [c.byte] }, none)
  | .inFrame =>
    let frame := x.assembly ++ [c.byte]
    if c.framing then (x.discard, none)
    else if frame.length ≤ (byteAt frame 0).toNat then ({ x with assembly := frame }, none)
    else (x.discard, if crcFits frame then some frame else none)

/-- 3 character times, in samples (R168). -/
def gapLimit : Nat := 360

/-- 20 bit times of low, in samples (R167). -/
def breakLength : Nat := 240

/-- One sample of the gap limit: where it has run out and no candidate start is past its sample 1, the frame is discarded (R168). -/
def LinkRx.spendGap (x : LinkRx) : LinkRx :=
  if x.state = .breakHunt then x
  else if gapLimit ≤ x.waited + 1 ∧ x.chars.searching then { x.discard with waited := 0 }
  else { x with waited := x.waited + 1 }

/-- One sample on RXD, and the frame that it completes where the CRC fits (R166 to R169). At the 240th 0 in a row a break is
recognised and the frame in assembly is discarded; at the first 1 after it the receiver enters AWAIT-LEN, its idle count starting
from that sample (log entry 47). -/
def LinkRx.sample (b : Bool) (x : LinkRx) : LinkRx × Option (List Byte) :=
  if b ∧ breakLength ≤ x.zeros then (⟨.awaitLen, [], .search 1, 0, 0⟩, none)
  else if !b ∧ breakLength ≤ x.zeros + 1 then (⟨.breakHunt, [], .search 0, 0, breakLength⟩, none)
  else
    let y := { x with chars := (x.chars.sample b).1, zeros := if b then 0 else x.zeros + 1 }
    match (x.chars.sample b).2 with
    | some c => ({ y with waited := 0 }).takeChar c
    | none => (y.spendGap, none)

end Sys2Proof.Machine
end

