-- ==== Sys2Proof/Machine/Ports.lean ====
section
/-! DEFINITION. What happens inside one cable port: pilot assembly and acceptance (R12 to R18), the noise window (R35, R36),
power (R28 to R34), the raw condition and hold-off (R37 to R42), and pilot service (R3, R4). Nothing here looks outside the
port. -/

namespace Sys2Proof.Machine

/-! ### Power state and raw condition -/

/-- The highest-ranked of the set latches, in the order LOST, OVER, LOW, else NORMAL (R33). -/
def Port.powerState (p : Port) : PowerState :=
  if p.lostLatch then .lost else if p.overLatch then .over else if p.lowLatch then .low else .normal

/-- The raw condition the port's findings and option flags give (R37). -/
def Port.rawCondition (p : Port) : Condition :=
  if !p.cfg.enabled then .notInService
  else if p.powerState = .lost ∨ (p.powerState = .over ∧ p.cfg.overloadFail) ∨ (p.pilotLoss ∧ p.cfg.pilotRequired)
      ∨ (p.traceMismatch ∧ p.cfg.traceFail) then .fail
  else if p.powerState = .low ∨ p.pilotErrors then .degrade
  else .ok

/-- A changed raw condition taken by the hold-off of the port (R40). `eff` is the effective hold-off in ms. -/
def Port.holdOffTake (eff now : Nat) (p : Port) : Port :=
  if p.reported.rank < p.raw.rank then
    if p.holdTimer.isSome then p
    else if eff = 0 then { p with reported := p.raw }
    else { p with holdTimer := some (now + eff * 1000) }
  else { p with holdTimer := none, reported := p.raw }

/-- The raw condition re-evaluated; a re-evaluation that leaves it unchanged has no further effect (R38). -/
def Port.settle (eff now : Nat) (p : Port) : Port :=
  if p.rawCondition = p.raw then p else ({ p with raw := p.rawCondition }).holdOffTake eff now

/-- The expiry of the hold-off timer: the reported condition takes the raw condition (R40). -/
def Port.holdOffExpire (p : Port) : Port := { p with holdTimer := none, reported := p.raw }

/-! ### TRACE-MISMATCH and PILOT-ERRORS -/

/-- TRACE-MISMATCH re-evaluated (R18). -/
def Port.retrace (p : Port) : Port :=
  { p with traceMismatch :=
      match p.cfg.expected, p.accTrace with
      | some e, some a => p.cfg.enabled && decide (e ≠ a) && !p.pilotLoss
      | _, _ => false }

/-- The sum of the noise window (R35). -/
def Port.windowSum (p : Port) : Nat := p.buckets.sum

/-- PILOT-ERRORS re-evaluated against the window sum (R36). -/
def Port.judgeErrors (p : Port) : Port :=
  { p with pilotErrors :=
      if p.cfg.badThreshold ≤ p.windowSum then true
      else if p.windowSum ≤ p.cfg.badThreshold / 2 then false
      else p.pilotErrors }

/-- The noise window with one more bad message in its newest bucket. -/
def bumpNewest : List Nat → List Nat
  | [] => []
  | [n] => [n + 1]
  | n :: m :: ns => n :: bumpNewest (m :: ns)

/-- One bad message counted in the current second (R14, R36). -/
def Port.countBad (p : Port) : Port := ({ p with buckets := bumpNewest p.buckets }).judgeErrors

/-- A tick of the seconds clock on an enabled port (R35). -/
def Port.tick (p : Port) : Port :=
  ({ p with
      lastValid := p.validCount
      lastBad := p.buckets.getLastD 0
      buckets := p.buckets.drop 1 ++ [0]
      validCount := 0 }).judgeErrors

/-! ### Acceptance (R15, R16) -/

/-- The candidate after a valid message that carries `v`. -/
def takeCand {α : Type} [DecidableEq α] (persistence : Nat) (v : α) (c : Option (Cand α)) : Cand α :=
  match c with
  | some c => if c.value = v then ⟨v, min (c.count + 1) persistence⟩ else ⟨v, 1⟩
  | none => ⟨v, 1⟩

/-- The accepted value after the candidate: it takes the candidate's value when the repeat count equals the persistence. -/
def accepted {α : Type} (persistence : Nat) (c : Cand α) (old : Option α) : Option α :=
  if c.count = persistence then some c.value else old

/-- The flag fields of byte 4; bits 5 to 7 are not compared and not accepted (R185). -/
def flagsOf (b : Byte) : Flags := ⟨b.getLsbD 0, b.getLsbD 1, b.getLsbD 2, b.extractLsb' 3 2⟩

/-- The low nibble of a byte. -/
def lowNibble (b : Byte) : Nat := b.toNat % 16

/-- The high nibble of a byte. -/
def highNibble (b : Byte) : Nat := b.toNat / 16

/-- A valid message handed to acceptance: the loss timer restarts, PILOT-LOSS is absent, and all four candidates are updated
at the same moment (R14 to R17). `body` is bytes 1 to 8. -/
def Port.acceptMessage (now : Nat) (body : Vector Byte 8) (p : Port) : Port :=
  let tc := takeCand p.cfg.persistence (⟨body[0], body[1], body[2]⟩ : Trace) p.traceCand
  let fc := takeCand 2 (flagsOf body[3]) p.flagsCand
  let qc := takeCand 3 (lowNibble body[4]) p.qualityCand
  let pc := takeCand 2 (⟨body[5], body[6]⟩ : ProtFields) p.protCand
  Port.retrace
    { p with
      validCount := p.validCount + 1
      lossTimer := some (now + 40000)
      pilotLoss := false
      traceCand := some tc
      accTrace := accepted p.cfg.persistence tc p.accTrace
      flagsCand := some fc
      accFlags := accepted 2 fc p.accFlags
      qualityCand := some qc
      accQuality := accepted 3 qc p.accQuality
      protCand := some pc
      accProt := accepted 2 pc p.accProt }

/-- Whether a complete message is valid: its nine bytes, the header among them, sum to 0 modulo 256, and no character has its
noise mark set (R14). -/
def messageValid (body : Vector Byte 8) (noise : Bool) : Bool := decide (byteSum (0xA6 :: body.toList) = 0) && !noise

/-- A complete message judged: counted, handed to acceptance when valid, and the assembly in HUNT after it (R14). -/
def Port.judgeMessage (now : Nat) (body : Vector Byte 8) (noise : Bool) (p : Port) : Port :=
  let q := { p with asm := .hunt }
  if messageValid body noise then q.acceptMessage now body else q.countBad

/-! ### Assembly (R12, R13) -/

/-- Bytes 1 to 8 of the nine characters of a complete message. -/
def bodyOf (chars : List RxChar) : Vector Byte 8 := tab 8 (fun i => ((chars.getD (i.val + 1) ⟨0, false, false, 0⟩).byte))

/-- The allowance for the next character of a message, in samples (R13). -/
def allowance : Nat := 40

/-- A character taken by the assembly of an enabled port (R12, R13): in HUNT a delimited start is wanted and 0xA6 becomes
character 0; in ASSEMBLING a framing error ends the message as bad, and character 8 completes it. -/
def Port.takeChar (now : Nat) (c : RxChar) (p : Port) : Port :=
  match p.asm with
  | .hunt =>
    if c.idle < 96 then p
    else if c.framing ∨ c.byte ≠ 0xA6 then p.countBad
    else { p with asm := .assembling [c] allowance }
  | .assembling chars _ =>
    if c.framing then ({ p with asm := .hunt }).countBad
    else if (chars ++ [c]).length = 9 then
      p.judgeMessage now (bodyOf (chars ++ [c])) ((chars ++ [c]).any (·.noise))
    else { p with asm := .assembling (chars ++ [c]) allowance }

/-- One sample of the allowance of a message in assembly: where it has run out and no candidate start is past its sample 1, the
message is truncated, which is one bad message (R13). -/
def Port.spendAllowance (p : Port) : Port :=
  match p.asm with
  | .hunt => p
  | .assembling chars left =>
    if left ≤ 1 ∧ p.rx.chars.searching then ({ p with asm := .hunt }).countBad
    else { p with asm := .assembling chars (left - 1) }

/-- One sample taken by the receiver of a port (R10 to R13). -/
def Port.sample (now : Nat) (p : Port) (b : Bool) : Port :=
  let q := { p with rx := ⟨p.rx.running, (p.rx.chars.sample b).1⟩ }
  match (p.rx.chars.sample b).2 with
  | some c => q.takeChar now c
  | none => q.spendAllowance

/-- A message given whole (R14): its last character has just been taken, so the receiver is in search (R11). -/
def Port.wholeMessage (now : Nat) (body : Vector Byte 8) (noise : Bool) (p : Port) : Port :=
  ({ p with rx := ⟨p.rx.running, .search 0⟩ }).judgeMessage now body noise

/-- The loss timer expires (R17): PILOT-LOSS present, every accepted field but the trace absent, every candidate discarded. -/
def Port.loss (p : Port) : Port :=
  Port.retrace
    { p with
      lossTimer := none
      pilotLoss := true
      accFlags := none
      accQuality := none
      accProt := none
      traceCand := none
      flagsCand := none
      qualityCand := none
      protCand := none }

/-! ### Power (R28 to R32) -/

/-- The power of a code (R28). -/
def Port.powerOf (p : Port) (code : Nat) : Int :=
  clampInt (-6000) 1500 (p.cfg.icpt + (((code * p.cfg.slope + 128) / 256 : Nat) : Int))

/-- A used conversion: power, lost latch, smoothing, over latch, low latch, in that order (R28 to R33). Calibration, thresholds and
hysteresis are those that stand at its end: one under way as SET-PORT changes them is the port's next (R5, R34; DESIGN CHOICE, log
entry 40). -/
def Port.convert (code : Nat) (p : Port) : Port :=
  let pw := p.powerOf code
  let lo := decide (code = 0)
  let hi := decide (code = 4095)
  let lost :=
    if p.lostLatch then !(decide (p.cfg.tFail + (p.cfg.hysteresis : Int) ≤ pw) && !lo)
    else decide (pw < p.cfg.tFail) || lo
  let cleared := p.lostLatch && !lost
  let ps :=
    match p.ps with
    | none => pw
    | some old => if cleared then pw else old + roundedDiv (pw - old) 8
  let ovr :=
    if p.overLatch then !(decide (ps ≤ p.cfg.tOver - (p.cfg.hysteresis : Int)) && !hi)
    else decide (p.cfg.tOver < ps) || hi
  let low :=
    if p.lowLatch then !decide (p.cfg.tDeg + (p.cfg.hysteresis : Int) ≤ ps)
    else decide (ps < p.cfg.tDeg)
  { p with power := some pw, satLow := lo, satHigh := hi, ps := some ps, lostLatch := lost, overLatch := ovr, lowLatch := low }

/-! ### Pilot service (R3, R4, R34, R35, R42) -/

/-- The 20 idle bit times of a lead-in, in µs (R19). -/
def leadInTime : Nat := 2500

/-- A port whose pilot service starts (R3, R34, R42). -/
def Port.startService (now : Nat) (cfg : PortRecord) : Port :=
  { Port.disabled cfg with
    rx := ⟨true, .search 0⟩
    lossTimer := some (now + 40000)
    raw := .ok
    reported := .ok
    tx := ⟨.leadIn, now, now + leadInTime, []⟩ }

/-- A port left enabled by a SET-PORT (R5, R190). -/
def Port.rewrite (cfg : PortRecord) (p : Port) : Port :=
  let q := { p with cfg := cfg }
  let q := if cfg.expected ≠ p.cfg.expected then q.retrace else q
  let q := if cfg.persistence ≠ p.cfg.persistence then { q with traceCand := none } else q
  if cfg.badThreshold ≠ p.cfg.badThreshold then q.judgeErrors else q

end Sys2Proof.Machine
end

