-- ==== Sys2Proof/Machine/Groups.lean ====
section
/-! DEFINITION. The group engines (chapters 3 and 4): requests and their comparison, the formation of L, E and T, the far end's
signal, stepping, adoption, recovery, trials, and what withdraws a queued operation. These functions read the ports and ranges
through `SwEnv` and change the switching block only. -/

namespace Sys2Proof.Machine

/-- What the switching block reads of the other blocks: the time, the ports, the ranges, and whether GROUP notices are enabled. -/
structure SwEnv where
  now    : Nat
  ports  : Vector Port 32
  ranges : Vector RangeEntry 4
  notify : Bool

/-! ### Ranges (R9) -/

/-- An enabled entry of this kind covers the port. -/
def RangeEntry.covers (kind : RangeKind) (p : PortId) (e : RangeEntry) : Bool :=
  e.enabled && decide (e.kind = kind) && decide (e.lower ≤ p) && decide (p ≤ e.upper)

/-- The range status of a port (R9). -/
def rangeStatus (ranges : Vector RangeEntry 4) (p : PortId) : RangeStatus :=
  if ranges.toList.any (RangeEntry.covers .outOfService p) then .outOfService
  else if ranges.toList.any (RangeEntry.covers .test p) then .test
  else .none

/-! ### Requests (R50) -/

def Request.none : Request := ⟨.none, 0⟩

/-- A request outranks another when its code is higher, or at equal codes when its member is lower (R50). -/
def Request.outranks (x y : Request) : Bool :=
  decide (y.kind.code < x.kind.code) || (decide (x.kind.code = y.kind.code) && decide (x.member < y.member))

/-- The higher of two requests (R50). -/
def Request.higher (x y : Request) : Request := if y.outranks x then y else x

/-- The highest of a list of requests, NONE when there is none (R57). -/
def topRequest (rs : List Request) : Request := rs.foldl Request.higher Request.none

/-! ### Records and look-ups -/

/-- The number of working members. -/
def GroupConfig.count (c : GroupConfig) : Nat := c.working.length

/-- The ports of a group in member order, member 0 first. -/
def GroupConfig.members (c : GroupConfig) : List PortId := c.prot :: c.working

/-- The elements of a group: selector first, then the bridge of a ONE-FOR-N. -/
def GroupConfig.addresses (c : GroupConfig) : List Nat := c.selector :: c.bridge.toList

/-- The group a port belongs to and its member number there. -/
def memberOf (groups : Vector (Option Group) 12) (p : PortId) : Option (GroupId × Nat) :=
  (List.finRange 12).findSome? fun g =>
    groups[g].bind fun grp => if p ∈ grp.cfg.members then some (g, grp.cfg.members.idxOf p) else Option.none

/-- The effective hold-off of a port, in ms: the greater of its own and its group's (R39). -/
def effectiveHoldOff (groups : Vector (Option Group) 12) (ports : Vector Port 32) (p : PortId) : Nat :=
  match (memberOf groups p).bind fun gm => groups[gm.1] with
  | some grp => max ports[p].cfg.holdOff grp.cfg.holdOff
  | .none => ports[p].cfg.holdOff

def Switching.element (w : Switching) (address : Nat) : Option Element := w.elements.find? (·.address = address)

/-- The known position of the element at an address (R90). -/
def Switching.known (w : Switching) (address : Nat) : Option Nat := (w.element address).bind (·.known)

/-- The selected member S: the known position of the selector (R44). -/
def Switching.selected (w : Switching) (grp : Group) : Option Nat := w.known grp.cfg.selector

/-- The known position B of the bridge (R71). -/
def Switching.bridgeAt (w : Switching) (grp : Group) : Option Nat := grp.cfg.bridge.bind w.known

/-- The group's one operation queued or in flight (R97). -/
def Switching.opOf (w : Switching) (g : GroupId) : Option Op := w.queue.find? (·.group = g)

def Switching.setGroup (w : Switching) (g : GroupId) (grp : Group) : Switching :=
  { w with groups := w.groups.set g (some grp) }

def Switching.modGroup (w : Switching) (g : GroupId) (f : Group → Group) : Switching :=
  { w with groups := upd w.groups g (Option.map f) }

def Switching.modElement (w : Switching) (address : Nat) (f : Element → Element) : Switching :=
  { w with elements := w.elements.map fun el => if el.address = address then f el else el }

def Switching.modOp (w : Switching) (g : GroupId) (f : Op → Op) : Switching :=
  { w with queue := w.queue.map fun op => if op.group = g then f op else op }

/-- Entries leave the move queue, all but those of which `p` holds, and the arbiter's choice leaves with the entry it serves (R100). -/
def Switching.keepOps (w : Switching) (p : Op → Bool) : Switching :=
  { w with queue := w.queue.filter p, chosen := w.chosen.filter fun c => (w.opOf c.owner).all p }

/-- The group's entry leaves the move queue. -/
def Switching.dropOp (w : Switching) (g : GroupId) : Switching := w.keepOps (·.group ≠ g)

/-- A new entry, queued (R97). -/
def Op.new (cls : OpClass) (kind : OpKind) (g : GroupId) : Op :=
  { cls := cls, kind := kind, group := g, inFlight := false, ready := Option.none, second := false, single := false,
    unread := [], judged := true, matched := false }

/-- A queued MAINTENANCE entry. -/
def Op.waitsLast (op : Op) : Bool := decide (op.cls = .maintenance) && !op.inFlight

/-- An entry placed on the move queue: a PROTECTION, RECOVERY or ADOPT entry goes ahead of every queued MAINTENANCE entry
(R98). -/
def placeOp (queue : List Op) (op : Op) : List Op :=
  if op.cls = .maintenance then queue ++ [op]
  else queue.takeWhile (fun o => !o.waitsLast) ++ op :: queue.dropWhile (fun o => !o.waitsLast)

def Switching.place (w : Switching) (op : Op) : Switching := { w with queue := placeOp w.queue op }

/-- The read of a single-ended trial (R87). -/
def Op.isTrialRead (op : Op) : Bool :=
  match op.cls, op.kind with
  | .protection, .read _ _ => true
  | _, _ => false

/-! ### Local requests, L, E and T (R51 to R53, R56 to R59) -/

/-- The condition request of member m (R51), dropped for a working member in an OUT-OF-SERVICE range (R52). -/
def condRequest (env : SwEnv) (cfg : GroupConfig) (m : Nat) : Option Request :=
  if m = 0 then
    match env.ports[cfg.prot].reported with
    | .degrade => some ⟨.degradeP, 0⟩
    | .fail => some ⟨.failP, 0⟩
    | _ => Option.none
  else
    match cfg.working[m - 1]? with
    | Option.none => Option.none
    | some p =>
      if rangeStatus env.ranges p = .outOfService then Option.none
      else
        match env.ports[p].reported with
        | .degrade => some ⟨.degrade, m⟩
        | .fail => some ⟨.fail, m⟩
        | _ => Option.none

/-- The signalling loss of a dual-ended group (R53). -/
def Group.signallingLoss (env : SwEnv) (grp : Group) : Bool :=
  decide (grp.cfg.ends = .dual) && (env.ports[grp.cfg.prot].pilotLoss || grp.protocolMismatch)

/-- The local requests other than the external and the stay request (R57). -/
def Group.conditions (env : SwEnv) (grp : Group) : List Request :=
  (if rangeStatus env.ranges grp.cfg.prot = .outOfService then [⟨.bar, 0⟩] else [])
    ++ (condRequest env grp.cfg 0).toList
    ++ (if grp.signallingLoss env then [⟨.failP, 0⟩] else [])
    ++ (List.range grp.cfg.count).filterMap (fun i => condRequest env grp.cfg (i + 1))

/-- The local requests other than the stay request. -/
def Group.locals (env : SwEnv) (grp : Group) : List Request := grp.external.toList ++ grp.conditions env

/-- E formed from a local top request and F (R58). -/
def Group.effectiveOf (grp : Group) (l : Request) : Request :=
  match grp.cfg.ends, grp.remote with
  | .dual, some f => l.higher f
  | _, _ => l

/-- The target member of an effective request (R59). -/
def targetOf (e : Request) (selected : Option Nat) : Nat :=
  match e.kind with
  | .none | .bar | .failP | .degradeP => 0
  | .trial => selected.getD 0
  | .hold | .restoreWait | .manual | .degrade | .fail | .force => e.member

/-- The stay request discarded and the restore-wait timer stopped (R56). -/
def Group.dropStay (grp : Group) : Group := { grp with stay := Option.none, restoreTimer := Option.none }

/-- L, E and T formed afresh, the stay request being first tested for displacement (R56 to R60). -/
def Group.form (env : SwEnv) (selected : Option Nat) (grp : Group) : Group :=
  let grp :=
    match grp.stay with
    | some st => if (grp.locals env).any (·.outranks st) then grp.dropStay else grp
    | Option.none => grp
  let l := topRequest (grp.locals env ++ grp.stay.toList)
  let e := grp.effectiveOf l
  { grp with local_ := l, effective := e, target := targetOf e selected }

/-! ### The far end's signal (R68, R69) -/

/-- The requested member as read: 0 with a kind that carries no member (R68). -/
def requestedMember (b : Byte) : Nat :=
  match ReqKind.ofCode (highNibble b) with
  | some k => if k.hasMember then lowNibble b else 0
  | Option.none => lowNibble b

/-- The tests of PROTOCOL-MISMATCH on accepted fields and flags (R69). -/
def mismatchOf (cfg : GroupConfig) (pf : ProtFields) (fl : Flags) : Bool :=
  decide (fl.groupType.toNat ≠ cfg.type.code)
    || (ReqKind.ofCode (highNibble pf.request)).isNone
    || (ReqKind.ofCode (highNibble pf.effect)).isNone
    || decide (cfg.count < requestedMember pf.request)
    || decide (cfg.count < lowNibble pf.effect)
    || ((ReqKind.ofCode (highNibble pf.request)).any ReqKind.hasMember && decide (lowNibble pf.request = 0))

/-- The far end's signal decoded afresh from the protection port's accepted values (R68, R69). -/
def Group.decode (env : SwEnv) (grp : Group) : Group :=
  let port := env.ports[grp.cfg.prot]
  match grp.cfg.ends, port.accProt, port.accFlags with
  | .dual, some pf, some fl =>
    if mismatchOf grp.cfg pf fl then
      { grp with protocolMismatch := true, remote := Option.none, farEcho := Option.none, farBridged := Option.none }
    else if port.pilotLoss then
      { grp with protocolMismatch := false, remote := Option.none, farEcho := Option.none, farBridged := Option.none }
    else
      { grp with
        protocolMismatch := false
        remote := (ReqKind.ofCode (highNibble pf.request)).map fun k => ⟨k, requestedMember pf.request⟩
        farEcho := ReqKind.ofCode (highNibble pf.effect)
        farBridged := some (lowNibble pf.effect) }
  | _, _, _ => { grp with protocolMismatch := false, remote := Option.none, farEcho := Option.none, farBridged := Option.none }

/-- The signal decoded and L, E and T formed afresh for a group (R60, R68). -/
def Switching.refresh (env : SwEnv) (g : GroupId) (w : Switching) : Switching :=
  match w.groups[g] with
  | Option.none => w
  | some grp => w.setGroup g ((grp.decode env).form env (w.selected grp))

/-! ### The outgoing protection signal (R66, R67) -/

/-- Whether the bridge counts as moving: an operation that moves it has started on the bus and has not ended (R67). -/
def Switching.bridgeMoving (w : Switching) (g : GroupId) (grp : Group) : Bool :=
  match w.opOf g with
  | some op =>
    op.inFlight &&
      match op.kind with
      | .read _ _ => false
      | .move address _ => decide (grp.cfg.bridge = some address)
      | .paired _ _ _ _ => true
  | Option.none => false

/-- The bridged member a dual-ended group sends (R66, R67). -/
def Switching.bridgedMember (w : Switching) (g : GroupId) (grp : Group) : Nat :=
  match grp.cfg.type with
  | .oneForN => if w.bridgeMoving g grp then 0 else (w.bridgeAt grp).getD 0
  | .onePlusOne =>
    match grp.state with
    | .maint | .frozen | .halted => 0
    | _ => grp.target

/-- The outgoing bytes 6 and 7 of a dual-ended group (R66). -/
def Switching.outgoing (w : Switching) (g : GroupId) (grp : Group) : ProtFields :=
  let b := w.bridgedMember g grp
  match grp.state with
  | .maint | .frozen | .halted => ⟨byteOf (16 * ReqKind.bar.code), byteOf (16 * ReqKind.bar.code + b)⟩
  | _ =>
    ⟨byteOf (16 * grp.local_.kind.code + grp.local_.member), byteOf (16 * grp.effective.kind.code + b)⟩

/-! ### Group states and notices (R70, R77, R161) -/

/-- A GROUP notice carrying this state, when GROUP notices are enabled (R161). -/
def Switching.note (env : SwEnv) (g : GroupId) (st : Option GroupState) (w : Switching) : Switching :=
  match w.groups[g] with
  | Option.none => w
  | some grp =>
    if env.notify then
      { w with raised := w.raised ++ [.group g st grp.effective (w.selected grp) grp.trialResult] }
    else w

/-- A group enters a state: the AWAIT-FAR timer starts at entry to AWAIT-FAR and stops, with FAR-BRIDGE-TIMEOUT, at leaving it
(R77), and a GROUP notice is queued. A group already in the state enters nothing (R161). -/
def Switching.enter (env : SwEnv) (g : GroupId) (st : GroupState) (w : Switching) : Switching :=
  match w.groups[g] with
  | Option.none => w
  | some grp =>
    if grp.state = st then w
    else
      (w.setGroup g
        { grp with
          state := st
          awaitTimer := if st = .awaitFar then some (env.now + 2000000) else Option.none
          farBridgeTimeout := false }).note env g (some st)

/-! ### External requests and trials (R62, R86 to R88) -/

/-- A running trial stops without a result: ABANDONED, its timer stopped; a queued trial read of the group is withdrawn, one in
flight is not judged (R88). -/
def Switching.stopTrial (g : GroupId) (w : Switching) : Switching :=
  let w := w.modGroup g fun grp =>
    if grp.external.any (fun r => decide (r.kind = .trial)) then { grp with trialResult := .abandoned, trialTimer := Option.none }
    else grp
  (w.keepOps fun op => !(decide (op.group = g) && op.isTrialRead && !op.inFlight)).modOp g fun op =>
    if op.isTrialRead then { op with judged := false } else op

/-- The external request replaced or removed; a TRIAL so removed stops without a result (R62, R63, R88). -/
def Switching.setExternal (g : GroupId) (ext : Option Request) (w : Switching) : Switching :=
  (w.stopTrial g).modGroup g fun grp => { grp with external := ext }

/-- A trial ends with a result, in the order of R88: result, timer, notice, removal of the TRIAL, and L, E and T afresh. -/
def Switching.endTrial (env : SwEnv) (g : GroupId) (res : TrialResult) (w : Switching) : Switching :=
  let w := w.modGroup g fun grp => { grp with trialResult := res, trialTimer := Option.none }
  let w := w.note env g (w.groups[g].map (·.state))
  let w := w.modGroup g fun grp => { grp with external := Option.none }
  w.refresh env g

/-- A dual-ended trial passes while its timer runs and the far echo is TRIAL (R86). -/
def Switching.echoTest (env : SwEnv) (g : GroupId) (w : Switching) : Switching :=
  match w.groups[g] with
  | Option.none => w
  | some grp =>
    if grp.external.any (fun r => decide (r.kind = .trial)) ∧ grp.cfg.ends = .dual ∧ grp.trialTimer.isSome
        ∧ grp.farEcho = some .trial then
      w.endTrial env g .pass
    else w

/-- The read of a single-ended trial, placed when the group stands in IDLE with no operation of its own (R87). -/
def Switching.placeTrialRead (g : GroupId) (w : Switching) : Switching :=
  match w.groups[g] with
  | Option.none => w
  | some grp =>
    if grp.external.any (fun r => decide (r.kind = .trial)) ∧ grp.cfg.ends = .single ∧ grp.state = .idle
        ∧ (w.opOf g).isNone then
      w.place (.new .protection (.read grp.cfg.selector Option.none) g)
    else w

/-! ### Stepping (R72 to R76) -/

/-- Whether the table records the selector and the bridge as the two elements of one paired-capable card (R91). -/
def Switching.onePairedCard (w : Switching) (selector bridge : Nat) : Bool :=
  match w.element selector, w.element bridge with
  | some s, some b => s.paired && b.paired && decide (s.partner = some bridge) && decide (b.partner = some selector)
  | _, _ => false

/-- The target a step goes by: T, and 0 in a single-ended TRIAL, whose step releases a selector that a move begun before it has left
on the working member (R87), where R59 makes T the selected member (DEDUCED, log entry 41). -/
def Group.stepTarget (grp : Group) : Nat :=
  if grp.cfg.ends = .single ∧ grp.effective.kind = .trial then 0 else grp.target

/-- The operation and the state of a step (R73 to R76), or none where no row holds or a position is unknown (R71). -/
def Switching.stepRow (w : Switching) (grp : Group) : Option (Option OpKind × GroupState) :=
  let t := grp.stepTarget
  match grp.cfg.type, w.selected grp with
  | .oneForN, some s =>
    match grp.cfg.bridge, w.bridgeAt grp with
    | some br, some b =>
      if 1 ≤ s ∧ s ≠ t then
        if 1 ≤ t ∧ b ≠ t ∧ w.onePairedCard grp.cfg.selector br then
          some (some (.paired grp.cfg.selector 0 br t), .releasing)
        else some (some (.move grp.cfg.selector 0), .releasing)
      else if s = 0 ∧ 1 ≤ t ∧ b ≠ t then some (some (.move br t), .bridging)
      else if s = 0 ∧ 1 ≤ t then
        if grp.farBridged = some t then some (some (.move grp.cfg.selector t), .selecting)
        else some (Option.none, .awaitFar)
      else if s = 0 ∧ b ≠ 0 then some (some (.move br 0), .releasing)
      else if s = 0 then some (Option.none, .idle)
      else some (Option.none, .switched)
    | _, _ => Option.none
  | .onePlusOne, some s =>
    if s = 0 ∧ t = 1 then
      if grp.cfg.ends = .single ∨ grp.farBridged = some 1 then some (some (.move grp.cfg.selector 1), .selecting)
      else some (Option.none, .awaitFar)
    else if s = 1 ∧ t = 0 then some (some (.move grp.cfg.selector 0), .releasing)
    else if s = 0 ∧ t = 0 then some (Option.none, .idle)
    else if s = 1 ∧ t = 1 then some (Option.none, .switched)
    else Option.none
  | _, Option.none => Option.none

/-- A step: at most one PROTECTION operation placed, and the state entered (R72). A group that enters IDLE with a single-ended
trial running places its read (R87). -/
def Switching.step (env : SwEnv) (g : GroupId) (w : Switching) : Switching :=
  match w.groups[g] with
  | Option.none => w
  | some grp =>
    match w.stepRow grp with
    | Option.none => w
    | some (some kind, st) => (w.place (.new .protection kind g)).enter env g st
    | some (Option.none, st) =>
      let w' := w.enter env g st
      if grp.state ≠ .idle ∧ st = .idle then w'.placeTrialRead g else w'

/-- What a change of E, T or the far-bridged value does to the group (R72, R79, R80, R87): a rest state steps, a queued
operation is withdrawn and the group steps afresh, an operation in flight runs on. `old` is the group before the change. -/
def Switching.react (env : SwEnv) (g : GroupId) (old : Group) (w : Switching) : Switching :=
  match w.groups[g] with
  | Option.none => w
  | some grp =>
    let changed := decide (grp.effective ≠ old.effective) || decide (grp.target ≠ old.target)
    let bridged := decide (grp.farBridged ≠ old.farBridged)
    match grp.state with
    | .idle | .switched | .awaitFar =>
      match w.opOf g with
      | some op =>
        if !op.inFlight && op.isTrialRead && changed then
          (((w.setExternal g Option.none).dropOp g).refresh env g).step env g
        else w
      | Option.none => if changed || bridged then w.step env g else w
    | .bridging | .selecting | .releasing =>
      match w.opOf g with
      | some op =>
        if !op.inFlight &&
            (changed ||
              (bridged && decide (grp.state = .selecting) && decide (grp.cfg.ends = .dual)
                && decide (grp.farBridged ≠ some grp.target))) then
          (w.dropOp g).step env g
        else w
      | Option.none => w
    | _ => w

/-- An event at a group: `f` changes what the event changes, L, E and T are formed afresh, a trial may pass, and the group acts on
what changed (R60, R72, R79). It acts on the net change: a TRIAL that passes at its acceptance changes E and changes it back, which
withdraws no queued operation (R86; DESIGN CHOICE, log entry 42). A group without a record takes no event. -/
def Switching.event (env : SwEnv) (g : GroupId) (f : Switching → Switching) (w : Switching) : Switching :=
  match w.groups[g] with
  | Option.none => w
  | some old => (((f w).refresh env g).echoTest env g).react env g old

/-! ### Stay requests (R54) and the removal of external requests (R63 to R65) -/

/-- The stay request of a member: RESTORE-WAIT in a revertive group, HOLD in another (R54). -/
def Group.stayFor (grp : Group) (m : Nat) : Request := ⟨if grp.cfg.revertive then .restoreWait else .hold, m⟩

/-- A group takes a stay request; RESTORE-WAIT starts the restore-wait timer (R54). -/
def Group.takeStay (now : Nat) (m : Nat) (grp : Group) : Group :=
  { grp with
    stay := some (grp.stayFor m)
    restoreTimer := if grp.cfg.revertive then some (now + grp.cfg.restoreWait * 1000000) else Option.none }

/-- Whether a stay request arises as member m's reported condition changes to OK (R54). The environment is the one after the
change, the group the one before it. -/
def Switching.stayArises (env : SwEnv) (w : Switching) (grp : Group) (m : Nat) : Bool :=
  (decide (grp.effective.kind = .fail) || decide (grp.effective.kind = .degrade)) && decide (grp.effective.member = m)
    && decide (grp.local_ = grp.effective) && decide (w.selected grp = some m) && decide (1 ≤ m)
    && (decide (grp.state = .idle) || decide (grp.state = .switched) || decide (grp.state = .awaitFar))
    && !(grp.locals env).any (·.outranks (grp.stayFor m))

/-- A change of member m's reported condition handed to the group engine (R40, R51, R54). -/
def Switching.memberEvent (env : SwEnv) (g : GroupId) (m : Nat) (before after : Condition) (w : Switching) : Switching :=
  w.event env g fun w =>
    match w.groups[g] with
    | Option.none => w
    | some grp =>
      if before ≠ .ok ∧ after = .ok ∧ w.stayArises env grp m then w.setGroup g (grp.takeStay env.now m) else w

/-- The HOLD a CLEAR leaves: of a FORCE or MANUAL whose member is selected, in a non-revertive group, unless another local
request outranks it (R63). -/
def Switching.clearHold (env : SwEnv) (w : Switching) (grp : Group) : Option Request :=
  match grp.external with
  | some ⟨.force, m⟩ | some ⟨.manual, m⟩ =>
    if w.selected grp = some m ∧ grp.cfg.revertive = false
        ∧ (({ grp with external := Option.none } : Group).locals env).any (·.outranks ⟨.hold, m⟩) = false then
      some ⟨.hold, m⟩
    else Option.none
  | _ => Option.none

/-- A CLEAR (R63): removes the external request, or discards a HOLD where there is none. -/
def Switching.clearExternal (env : SwEnv) (g : GroupId) (w : Switching) : Switching :=
  match w.groups[g] with
  | Option.none => w
  | some grp =>
    match grp.external with
    | Option.none =>
      if grp.stay.any (fun r => decide (r.kind = .hold)) then w.setGroup g grp.dropStay else w
    | some _ =>
      match w.clearHold env grp with
      | some h => (w.setExternal g Option.none).modGroup g fun x => { x with stay := some h, restoreTimer := Option.none }
      | Option.none => w.setExternal g Option.none

/-- Whether the group's external request is a MANUAL or a TRIAL. -/
def Group.hasTemporary (grp : Group) : Bool :=
  grp.external.any fun r => decide (r.kind = .manual) || decide (r.kind = .trial)

/-- A group as the part becomes masterless: an external MANUAL or TRIAL is removed as a CLEAR would (R65). -/
def Switching.masterless (env : SwEnv) (g : GroupId) (w : Switching) : Switching :=
  match w.groups[g] with
  | Option.none => w
  | some grp => if grp.hasTemporary then w.event env g (Switching.clearExternal env g) else w

/-- Entry to MAINT, FROZEN or HALTED with its removals (R64). -/
def Switching.stand (env : SwEnv) (g : GroupId) (st : GroupState) (w : Switching) : Switching :=
  let w :=
    match w.groups[g] with
    | some grp => if grp.hasTemporary then w.setExternal g Option.none else w
    | Option.none => w
  ((w.modGroup g Group.dropStay).refresh env g).enter env g st

/-! ### Known positions (R90) -/

/-- A change of a selector's known position taken by the group engine: the stay request is discarded when the selector is known
settled on another member, and L, E and T are formed afresh (R44, R56, R60), a TRIAL's T being the selected member (R59; what a step
does then is `Group.stepTarget`'s, log entry 41). -/
def Switching.selectorMoved (env : SwEnv) (g : GroupId) (pos : Option Nat) (w : Switching) : Switching :=
  let w := w.modGroup g fun grp =>
    match grp.stay, pos with
    | some st, some s => if st.member ≠ s then grp.dropStay else grp
    | _, _ => grp
  w.refresh env g

/-- An element's known position set, with its last settled position when it is known (R90). -/
def Switching.setKnown (env : SwEnv) (address : Nat) (pos : Option Nat) (w : Switching) : Switching :=
  match w.element address with
  | Option.none => w
  | some el =>
    let w' := w.modElement address fun x => { x with known := pos, lastSettled := if pos.isSome then pos else x.lastSettled }
    if el.role = .selector ∧ el.known ≠ pos then w'.selectorMoved env el.group pos else w'

/-! ### Adoption (R82 to R85) -/

/-- A group enters ADOPTING and queues the read of its elements (R82). -/
def Switching.adopt (env : SwEnv) (g : GroupId) (w : Switching) : Switching :=
  match w.groups[g] with
  | Option.none => w
  | some grp => (w.enter env g .adopting).place (.new .adopt (.read grp.cfg.selector grp.cfg.bridge) g)

/-- An adoption ends: IDLE, or SWITCHED with the stay request of R85, and then a step. The GROUP notice of SWITCHED carries the E that
stands before the stay request arises (R161 leaves it open; DESIGN CHOICE, log entry 16). -/
def Switching.adoptionEnd (env : SwEnv) (g : GroupId) (w : Switching) : Switching :=
  match w.groups[g] with
  | Option.none => w
  | some grp =>
    match w.selected grp with
    | Option.none => w
    | some s =>
      if s = 0 then (w.enter env g .idle).step env g
      else
        let w := w.enter env g .switched
        let w := w.modGroup g fun x => if (x.locals env).any (·.outranks (x.stayFor s)) then x else x.takeStay env.now s
        (w.refresh env g).step env g

/-- Whether the positions an adoption read found are consistent (R83). -/
def Switching.consistent (w : Switching) (grp : Group) : Bool :=
  match grp.cfg.type, w.selected grp with
  | _, Option.none => false
  | .onePlusOne, some s => decide (s ≤ 1)
  | .oneForN, some s => decide (s = 0) || (decide (w.bridgeAt grp = some s) && decide (s ≤ grp.cfg.count))

/-- The judgement of a complete adoption read (R83): the adoption ends, or the selector is moved to 0. -/
def Switching.judgeAdoption (env : SwEnv) (g : GroupId) (w : Switching) : Switching :=
  match w.groups[g] with
  | Option.none => w
  | some grp =>
    if w.consistent grp then w.adoptionEnd env g else w.place (.new .adopt (.move grp.cfg.selector 0) g)

/-! ### Outcomes of operations (R101, R102, R104) -/

/-- A trial read that has ended: judged where its trial still runs, and the step that takes what changed meanwhile (R87, R88). -/
def Switching.trialOutcome (env : SwEnv) (g : GroupId) (op : Op) (pass : Bool) (w : Switching) : Switching :=
  let w := if op.judged then w.endTrial env g (if pass then .pass else .fail) else w
  w.step env g

/-- A group's operation succeeds (R101): its entry leaves the queue, and the engine acts by class and state. -/
def Switching.succeed (env : SwEnv) (g : GroupId) (w : Switching) : Switching :=
  match w.groups[g], w.opOf g with
  | some grp, some op =>
    let w := w.dropOp g
    if grp.state = .maint then w
    else
      match op.cls, op.kind with
      | .protection, .read _ _ => w.trialOutcome env g op op.matched
      | .protection, _ => w.step env g
      | .adopt, .read _ _ => w.judgeAdoption env g
      | .adopt, _ => w.adoptionEnd env g
      | .recovery, _ => w.stand env g .frozen
      | .maintenance, _ => w
  | _, _ => w.dropOp g

/-- A group added to the settle-failure list, once (R107). -/
def addFailure (g : GroupId) (gs : List GroupId) : List GroupId := if g ∈ gs then gs else gs ++ [g]

/-- RECOVERING: the failed element is commanded back to its last settled position (R81, R102). An element that never settled
has none, and the group enters HALTED (log entry 12). -/
def Switching.recover (env : SwEnv) (g : GroupId) (failed : Nat) (w : Switching) : Switching :=
  match (w.element failed).bind (·.lastSettled) with
  | some pos => (w.enter env g .recovering).place (.new .recovery (.move failed pos) g)
  | Option.none => (w.setKnown env failed Option.none).stand env g .halted

/-- A group's operation fails at an element (R101): its entry leaves the queue, the group joins the settle-failure list, and the
engine acts by class and state. The read of a trial that was stopped leaves known position and group state as they were (R88): a change
of E made while it was in flight is not acted on at its failure (DEDUCED, log entry 48). In MAINT it fails as every read there: what it
could not read becomes unknown (R101, R104; DEDUCED, log entry 49). -/
def Switching.failOp (env : SwEnv) (g : GroupId) (failed : Nat) (w : Switching) : Switching :=
  match w.groups[g], w.opOf g with
  | some grp, some op =>
    let w := { w.dropOp g with settleFail := addFailure g w.settleFail }
    if grp.state = .maint then
      match op.kind with
      | .read _ _ => op.unread.foldl (fun w a => w.setKnown env a Option.none) w
      | _ => w.setKnown env failed Option.none
    else
      match op.cls, op.kind with
      | .protection, .read _ _ => if op.judged then w.trialOutcome env g op false else w
      | .protection, _ => w.recover env g failed
      | .adopt, .read _ _ => w.stand env g .halted
      | .adopt, _ => (w.setKnown env failed Option.none).stand env g .halted
      | .recovery, _ => (w.setKnown env failed Option.none).stand env g .halted
      | .maintenance, _ => w.setKnown env failed Option.none
  | _, _ => w.dropOp g

end Sys2Proof.Machine
end

