-- ==== Sys2Proof/Machine/TimingUnit.lean ====
section
/-! DEFINITION. The timing unit (chapter 6; R188): source ports, signal, measurement, qualification, selection, timing state,
steering, outgoing quality codes. These functions read the ports and groups through `TimingEnv` and change the timing unit
only. -/

namespace Sys2Proof.Machine

/-- What the timing unit reads of the other blocks: the time, the ports, the switching block (groups and selector positions), and
whether TIMING notices are enabled. -/
structure TimingEnv where
  now    : Nat
  ports  : Vector Port 32
  sw     : Switching
  notify : Bool

/-! ### Source, quality, health (R113, R116) -/

/-- The kind is fixed by the index: 0 and 1 are OFFICE (R109). -/
def isOffice (r : RefId) : Bool := decide (r.val < 2)

/-- The source port a binding gives (R113). -/
def derivedSource (sw : Switching) (b : Binding) : Option PortId :=
  match b with
  | .port p => some p
  | .member g m =>
    match sw.groups[g] with
    | none => none
    | some grp =>
      if m = 0 ∨ grp.cfg.count < m then none
      else if sw.selected grp = some m then some grp.cfg.prot
      else grp.cfg.working[m - 1]?

/-- The received quality a source port gives (R116). -/
def receivedQuality (ports : Vector Port 32) (source : Option PortId) : Nat :=
  match source with
  | none => 15
  | some p =>
    if ports[p].cfg.enabled then
      match ports[p].accQuality with
      | none => 15
      | some q => if q = 0 then 15 else q
    else 15

/-- Whether a reference's source is healthy (R116). -/
def sourceHealthy (ports : Vector Port 32) (r : RefId) (source : Option PortId) : Bool :=
  if isOffice r then true
  else
    match source with
    | none => false
    | some p => ports[p].cfg.enabled && decide (ports[p].raw ≠ .fail)

/-- The quality of a reference (R109). -/
def Ref.quality (r : RefId) (x : Ref) : Nat := if isOffice r then x.provisioned else x.received

/-- Whether a reference is selectable (R122). -/
def Ref.selectable (ports : Vector Port 32) (r : RefId) (x : Ref) : Bool :=
  x.enabled && x.present && decide (x.state = .qualified) && decide (x.quality r ≠ 15) && !x.lockedOut
    && (isOffice r || x.source.any fun p => decide (ports[p].raw ≠ .fail))

/-! ### Signal (R117) and restarts (R111) -/

/-- Measurement, window, latest sample, average, soak and qualification lost (R111, R117). -/
def Ref.clearMeasures (x : Ref) : Ref :=
  { x with measuring := none, window := [], latest := none, average := none, soakTimer := none, state := .unqualified }

/-- The signal becomes FAIL, with its effects; a signal already FAIL takes none (R117). The edge timer, whose expiry has no effect
there, is stopped (DESIGN CHOICE, log entry 45). -/
def Ref.fail (x : Ref) : Ref := if x.present then { x.clearMeasures with present := false, edgeTimer := none } else x

/-- The state of enabling (R111). -/
def Ref.restart (env : TimingEnv) (r : RefId) (x : Ref) : Ref :=
  let source := if isOffice r then none else derivedSource env.sw x.binding
  { x.clearMeasures with
    source := source
    received := receivedQuality env.ports source
    present := sourceHealthy env.ports r source
    edgeTimer := some (env.now + 500) }

/-- A protection-caused change of the source port (R114). -/
def Ref.follow (env : TimingEnv) (r : RefId) (source : Option PortId) (x : Ref) : Ref :=
  let y := { x with
    source := source
    received := receivedQuality env.ports source
    measuring := none
    edgeTimer := some (env.now + 500) }
  if sourceHealthy env.ports r source then y else y.fail

/-- A change of the source port by the creation, rebuild or deletion of its group (R115). -/
def Ref.regroup (env : TimingEnv) (r : RefId) (source : Option PortId) (x : Ref) : Ref :=
  if source.isSome then x.restart env r else { x.fail with source := none, received := 15 }

/-- The quality and health of the source port taken afresh (R116, R117). -/
def Ref.sourceChanged (env : TimingEnv) (r : RefId) (x : Ref) : Ref :=
  let y := { x with received := receivedQuality env.ports x.source }
  if sourceHealthy env.ports r x.source then y else y.fail

/-! ### Steering (R127, R129, R188) -/

/-- The steering frame of a word and a state (section 10.6). -/
def steerFrame (word : Int) (st : TimingState) : List Byte :=
  let body := 0x5A :: beS24 word ++ [byteOf st.code]
  body ++ [checkByte body]

/-- How long a steering frame takes, in µs: 60 bit times at 19,200 bit/s (section 10.6). -/
def steerTime : Nat := 3125

/-- A frame formed at an update: it begins at once on an idle line, and otherwise waits; in either case it replaces one that waits,
which is never sent (R188). -/
def Timing.send (now : Nat) (t : Timing) : Timing :=
  let f := steerFrame t.word t.state
  match t.steering with
  | some (_, ends) =>
    if now < ends then { t with steerWaiting := some f }
    else { t with steering := some (f, now + steerTime), steerWaiting := none }
  | none => { t with steering := some (f, now + steerTime), steerWaiting := none }

/-- The target of an update, or none where the average is absent (R129). -/
def Timing.steerTarget (t : Timing) : Option Int :=
  match t.state with
  | .freeRun => some 0
  | .holdover => some t.holdoverValue
  | .acquiring | .locked => t.selected.bind fun r => t.refs[r].average

/-- The word after an update: one slew-limited step toward the target (R129). -/
def steerWord (slew : Nat) (target word : Int) : Int := word + clampInt (-(slew : Int)) (slew : Int) (target - word)

/-- Whether a step is clamped (R129). -/
def steerClamped (slew : Nat) (target word : Int) : Bool := decide (slew < (target - word).natAbs)

/-- A locked update pushes the average onto the history and counts (R127). -/
def Timing.push (t : Timing) : Timing :=
  match t.selected.bind fun r => t.refs[r].average with
  | none => t
  | some avg =>
    let history := t.history ++ [avg]
    let count := min 16 (t.lockedUpdates + 1)
    { t with
      history := history.drop (history.length - 4)
      lockedUpdates := count
      ready := t.ready || decide (count = 16) }

/-- The word stepped toward the target; unchanged where the target is not available (R129). -/
def Timing.stepped (t : Timing) : Timing :=
  match t.steerTarget with
  | none => t
  | some target => { t with word := steerWord t.settings.slew target t.word }

/-- The word stepped and sent: what every update does (R129). -/
def Timing.stepWord (now : Nat) (t : Timing) : Timing := t.stepped.send now

/-- Whether this update makes ACQUIRING LOCKED: the acquire timer has expired and the step is not clamped (R126). -/
def Timing.locks (t : Timing) : Bool :=
  decide (t.state = .acquiring) && t.acquireTimer.isNone &&
    (t.steerTarget.any fun target => !steerClamped t.settings.slew target t.word)

/-- A TIMING notice, when TIMING notices are enabled (R161). -/
def Timing.note (env : TimingEnv) (t : Timing) : Timing :=
  if env.notify then { t with raised := t.raised ++ [.timing t.state t.selected] } else t

/-- The codes given to the ports and the reference on REFOUT, afresh (R130, R131). -/
def Timing.giveOut (t : Timing) : Timing :=
  let common :=
    match t.state, t.selected with
    | .holdover, _ => t.settings.holdoverQuality
    | .freeRun, _ => t.settings.freeRunQuality
    | _, some r => t.refs[r].quality r
    | _, none => t.settings.freeRunQuality
  let marked := t.selected.bind fun r => if isOffice r then none else t.refs[r].source
  { t with
    codes := tab 32 fun p => if marked = some p then 15 else common
    refout :=
      match t.state with
      | .acquiring | .locked => t.selected
      | .holdover | .freeRun => none }

/-- An update (R129); one that makes the state LOCKED is followed by the update of that state change, with its notice (R126,
R128). At a tick a LOCKED update pushes onto the history (R127). -/
def Timing.update (env : TimingEnv) (tick : Bool) (t : Timing) : Timing :=
  if t.locks then (((({ t.stepped with state := .locked }).send env.now).stepWord env.now).giveOut).note env
  else if tick && decide (t.state = .locked) then (t.stepWord env.now).push
  else t.stepWord env.now

/-! ### Selection (R123, R125) and the timing state (R126, R128) -/

/-- Whether reference x ranks strictly better than y (R123). -/
def Timing.ranksBetter (t : Timing) (x y : RefId) : Bool :=
  let px := t.refs[x].priority
  let py := t.refs[y].priority
  let byPriority := decide (px < py) || (decide (px = py) && decide (x < y))
  match t.settings.mode with
  | .priority => byPriority
  | .quality =>
    decide (t.refs[x].quality x < t.refs[y].quality y)
      || (decide (t.refs[x].quality x = t.refs[y].quality y) && byPriority)

/-- The selectable references in index order. -/
def Timing.selectables (ports : Vector Port 32) (t : Timing) : List RefId :=
  (List.finRange 6).filter fun r => t.refs[r].selectable ports r

/-- The best-ranked selectable reference (R123). -/
def Timing.best (ports : Vector Port 32) (t : Timing) : Option RefId :=
  match t.selectables ports with
  | [] => none
  | r :: rs => some (rs.foldl (fun x y => if t.ranksBetter y x then y else x) r)

/-- The selection R123 forms. -/
def Timing.selection (ports : Vector Port 32) (t : Timing) : Option RefId :=
  let can := fun r : RefId => t.refs[r].selectable ports r
  if t.forced.any can then t.forced
  else
    match t.selected with
    | none => t.best ports
    | some sel =>
      if !can sel then t.best ports
      else if decide (t.settings.mode = .quality) &&
          (t.selectables ports).any (fun r => decide (t.refs[r].quality r < t.refs[sel].quality sel)) then t.best ports
      else if t.settings.revertive && (t.best ports).any (fun b => t.ranksBetter b sel) then t.best ports
      else some sel

/-- The timing state after a change of the selected reference (R126, R128). With none selected the acquire timer is stopped (DESIGN
CHOICE, log entry 45). -/
def Timing.moveState (now : Nat) (t : Timing) : Timing :=
  match t.selected with
  | some _ =>
    { t with state := .acquiring, acquireTimer := some (now + t.settings.acquireTime * 1000000), holdoverTimer := none }
  | none =>
    match t.state with
    | .freeRun | .holdover => t
    | .acquiring | .locked =>
      if t.ready then
        { t with
          state := .holdover
          acquireTimer := none
          holdoverValue := t.history.headD 0
          holdoverTimer := some (now + t.settings.holdoverLimit * 3600000000) }
      else { t with state := .freeRun, acquireTimer := none }

/-- Selection re-evaluated (R125): a change goes to the timing state with its update (R129), to REFOUT and the codes, and to a
TIMING notice; the codes follow the selected reference's quality in any case (R131). -/
def Timing.reselect (env : TimingEnv) (t : Timing) : Timing :=
  let sel := t.selection env.ports
  if sel = t.selected then t.giveOut
  else
    let t' := ({ t with selected := sel }).moveState env.now
    let t' := if t'.state = t.state then t' else t'.stepWord env.now
    t'.giveOut.note env

/-- One reference changed, and selection re-evaluated. -/
def Timing.modRef (env : TimingEnv) (r : RefId) (f : Ref → Ref) (t : Timing) : Timing :=
  ({ t with refs := upd t.refs r f }).reselect env

/-- Every reference changed by its index, and selection re-evaluated once, after all of them (R125; DESIGN CHOICE where one event
changes several, log entry 44). -/
def Timing.modRefs (env : TimingEnv) (f : RefId → Ref → Ref) (t : Timing) : Timing :=
  ({ t with refs := tab 6 fun r => f r t.refs[r] }).reselect env

/-! ### What other blocks hand the timing unit -/

/-- A port's raw condition, enabling or accepted quality changed (R116, R117, R122). -/
def Timing.portChanged (env : TimingEnv) (p : PortId) (t : Timing) : Timing :=
  t.modRefs env fun r x => if x.enabled ∧ isOffice r = false ∧ x.source = some p then x.sourceChanged env r else x

/-- Known selector positions changed: each enabled line reference bound to a group member whose source port is another one now
follows it (R113, R114). -/
def Timing.followSelectors (env : TimingEnv) (t : Timing) : Timing :=
  let moved := fun (r : RefId) (x : Ref) =>
    match x.binding with
    | .member _ _ => x.enabled && !isOffice r && decide (derivedSource env.sw x.binding ≠ x.source)
    | .port _ => false
  if (List.finRange 6).any (fun r => moved r t.refs[r]) then
    t.modRefs env fun r x => if moved r x then x.follow env r (derivedSource env.sw x.binding) else x
  else t

/-- A group was created, rebuilt or deleted (R115). -/
def Timing.regroup (env : TimingEnv) (g : GroupId) (t : Timing) : Timing :=
  t.modRefs env fun r x =>
    match x.binding with
    | .member g' _ =>
      if x.enabled ∧ isOffice r = false ∧ g' = g ∧ derivedSource env.sw x.binding ≠ x.source then
        x.regroup env r (derivedSource env.sw x.binding)
      else x
    | .port _ => x

/-! ### Measurement and qualification (R118 to R121) -/

/-- The sample of a measurement that ends at its 8,000th edge with count C (R119). -/
def sampleOf (count : Nat) : Sample :=
  let d : Int := 20000000 - (count : Int)
  if 2000 < d.natAbs then ⟨if 0 < d then 100000 else -100000, true⟩ else ⟨d * 50, false⟩

/-- The average of a full window, sum / 16 rounded half away from zero; absent while the window holds fewer than 16 (R120). -/
def averageOf (window : List Sample) : Option Int :=
  if window.length = 16 then some (roundedDiv ((window.map (·.ppb)).sum) 16) else none

/-- A sample joins the window and the average is formed (R120). -/
def Ref.takeSample (s : Sample) (x : Ref) : Ref :=
  let all := x.window ++ [s]
  let window := all.drop (all.length - 16)
  { x with latest := some s, window := window, average := averageOf window }

/-- A sample is rejecting when it is out-of-range or its magnitude exceeds 2 × A (R121). -/
def Sample.rejecting (accept : Nat) (s : Sample) : Bool := s.outOfRange || decide (2 * accept < s.ppb.natAbs)

/-- SOAKING with the soak timer started, or QUALIFIED at once with a soak of 0 (R121). -/
def Ref.startSoak (set : TimingSettings) (now : Nat) (x : Ref) : Ref :=
  if set.requalifySoak = 0 then { x with state := .qualified, soakTimer := none }
  else { x with state := .soaking, soakTimer := some (now + set.requalifySoak * 1000000) }

/-- The qualification judged at a sample (R121). -/
def Ref.judge (set : TimingSettings) (now : Nat) (s : Sample) (x : Ref) : Ref :=
  let within := fun limit : Nat => x.average.any fun a => decide (a.natAbs ≤ limit)
  let beyond := x.average.any fun a => decide (set.accept < a.natAbs)
  let rejecting := s.rejecting set.accept
  match x.state with
  | .unqualified => if within set.accept && !rejecting then x.startSoak set now else x
  | .rejected => if within (set.accept * 3 / 4) && !rejecting then x.startSoak set now else x
  | .soaking | .qualified => if beyond || rejecting then { x with state := .rejected, soakTimer := none } else x

/-- A sample taken at the end of a measurement: window, average, qualification, selection. `next` is the measurement that goes on
from the same edge, or none. -/
def Timing.sample (env : TimingEnv) (r : RefId) (s : Sample) (next : Option Nat) (t : Timing) : Timing :=
  t.modRef env r fun x => ({ x.takeSample s with measuring := next }).judge t.settings env.now s

/-- An edge of an enabled reference (R117, R118). -/
def Ref.edge (env : TimingEnv) (r : RefId) (x : Ref) : Ref :=
  if x.present then
    { x with
      edgeTimer := some (env.now + 500)
      measuring :=
        match x.measuring with
        | none => some 0
        | some n => some (min 7999 (n + 1)) }
  else if sourceHealthy env.ports r x.source then
    { x with present := true, edgeTimer := some (env.now + 500), measuring := some 0 }
  else x

/-! ### Configuration (R110, R111, R124) -/

/-- The configuration fields of SET-REF. -/
structure RefConfig where
  enabled     : Bool
  rate        : NominalRate
  binding     : Binding
  priority    : Nat
  provisioned : Nat
  deriving DecidableEq, Repr

/-- An accepted SET-REF on one reference (R111). -/
def Ref.configure (env : TimingEnv) (r : RefId) (c : RefConfig) (x : Ref) : Ref :=
  let y := { x with
    enabled := c.enabled
    rate := c.rate
    binding := c.binding
    priority := c.priority
    provisioned := c.provisioned }
  if c.enabled then y.restart env r
  else if x.enabled then { y.clearMeasures with present := false, edgeTimer := none }
  else y

end Sys2Proof.Machine
end

