-- ==== Sys2Proof/Machine/Alarms.lean ====
section
/-! DEFINITION. The alarm unit (chapters 7 and 8): raw defects, soaks, masking, suppression, grading, the active alarm list, the
counts and contacts, ALARM notices and acknowledgement. All points of one moment are taken together (log entry 8). -/

namespace Sys2Proof.Machine

/-! ### Raw defects (R137 to R139) -/

/-- A raw defect of the port domain (R137). -/
def portDefect (p : Port) (k : DefectKind) : Bool :=
  match k with
  | .lostLight => decide (p.powerState = .lost)
  | .lowPower => decide (p.powerState = .low)
  | .overload => decide (p.powerState = .over)
  | .pilotLoss => p.pilotLoss
  | .traceMismatch => p.traceMismatch
  | .pilotErrors => p.pilotErrors
  | .farFail => p.accFlags.any (·.farFail)
  | _ => false

/-- A raw defect of the group domain (R138). -/
def groupDefect (grp : Group) (k : DefectKind) : Bool :=
  match k with
  | .protUnavailable => decide (grp.effective.kind = .bar) || decide (grp.effective.kind = .failP)
  | .protocolMismatch => grp.protocolMismatch
  | .farBridgeTimeout => grp.farBridgeTimeout
  | .switchFail => decide (grp.state = .frozen)
  | .halted => decide (grp.state = .halted)
  | .standingRequest =>
    grp.external.any fun r => decide (r.kind = .force) || decide (r.kind = .manual) || decide (r.kind = .bar)
  | _ => false

/-- A raw defect of the reference domain (R122, R138). -/
def refDefect (r : RefId) (x : Ref) (k : DefectKind) : Bool :=
  x.enabled &&
    match k with
    | .refFail => !x.present
    | .refRejected => decide (x.state = .rejected)
    | .refQuality => decide (x.quality r = 15)
    | _ => false

/-- Whether a link is MASTER. -/
def LinkSupervisor.hasMaster (l : LinkSupervisor) : Bool :=
  decide (l.linkA.role = .master) || decide (l.linkB.role = .master)

/-- A raw defect of the shelf domain (R139). -/
def shelfDefect (s : State) (k : DefectKind) : Bool :=
  match k with
  | .holdover => decide (s.timing.state = .holdover)
  | .freeRun => decide (s.timing.state = .freeRun) && s.timing.refs.toList.any (·.enabled)
  | .noMaster => !s.links.hasMaster
  | .shelfFail => s.links.shf
  | .actuatorBus => s.sw.busDefect
  | _ => false

/-- Whether the object of a point is in service: a port enabled, a group configured, a reference enabled (R144). -/
def inService (s : State) (k : PointId) : Bool :=
  match placeOfPoint k with
  | .port p => s.ports[p].cfg.enabled
  | .group g => s.sw.groups[g].isSome
  | .ref r => s.timing.refs[r].enabled
  | .shelf => true

/-- The raw defect of a point as its owning block states it (R137 to R139). -/
def rawDefect (s : State) (k : PointId) : Bool :=
  let kind := DefectKind.ofIndex (kindOfPoint k)
  match placeOfPoint k with
  | .port p => s.ports[p].cfg.enabled && portDefect s.ports[p] kind
  | .group g => s.sw.groups[g].any fun grp => groupDefect grp kind
  | .ref r => refDefect r s.timing.refs[r] kind
  | .shelf => shelfDefect s kind

/-! ### Grade and severity (R147) -/

/-- The grade of the points of a port (R147). -/
def portGrade (sw : Switching) (p : PortId) : Grade :=
  match memberOf sw.groups p with
  | none => .sa
  | some (g, m) =>
    match sw.groups[g] with
    | none => .sa
    | some grp =>
      if m = 0 then if sw.selected grp = some 0 then .nsa else .sa
      else if sw.selected grp = some m ∧ grp.state ≠ .halted then .nsa
      else .sa

/-- The grade of a point (R136, R147). -/
def pointGrade (s : State) (k : PointId) : Grade :=
  match placeOfPoint k with
  | .port p => portGrade s.sw p
  | _ => .ungraded

/-- The severity a profile entry gives a grade (R147). -/
def ProfileEntry.severity (e : ProfileEntry) (g : Grade) : Severity :=
  match g with
  | .nsa => e.nsa
  | .sa | .ungraded => e.sa

/-! ### Soaks (R142 to R144, R148) -/

/-- A soak timer that expires in this step. -/
inductive Expiry where
  | none
  | declare (k : PointId)
  | clear (k : PointId)
  deriving DecidableEq, Repr

def Point.isDeclareSoak (pt : Point) : Bool := match pt.soak with | .declare _ => true | _ => false

def Point.isClearSoak (pt : Point) : Bool := match pt.soak with | .clear _ => true | _ => false

/-- A point cleared: CLEAR, its timer stopped, its acknowledged flag clear (R143, R144). -/
def Point.clearNow (pt : Point) : Point := { pt with declared := false, soak := .stopped, acknowledged := false }

/-- A point declared: DECLARED, its timer stopped, its acknowledged flag clear (R142). -/
def Point.declareNow (pt : Point) : Point := { pt with declared := true, soak := .stopped, acknowledged := false }

/-- A point's own timer expires (R142, R143). -/
def Point.expire (e : Expiry) (k : PointId) (pt : Point) : Point :=
  match e with
  | .none => pt
  | .declare j => if j = k ∧ pt.declared = false ∧ pt.isDeclareSoak then pt.declareNow else pt
  | .clear j => if j = k ∧ pt.declared ∧ pt.isClearSoak then pt.clearNow else pt

/-- A point takes its raw defect, grade and severity of this moment (R142 to R144, R148): `serves` is whether its object is in
service, and `entry` its kind's profile entry. -/
def Point.take (now : Nat) (entry : ProfileEntry) (serves raw : Bool) (grade : Grade) (pt : Point) : Point :=
  let sev := entry.severity grade
  let new := { pt with raw := serves && raw, grade := grade, severity := sev }
  if !serves then new.clearNow
  else if pt.declared then
    if sev = .none then new.clearNow
    else
      let new := if pt.severity.rank < sev.rank then { new with acknowledged := false } else new
      if raw then { new with soak := .stopped }
      else if pt.raw then
        if entry.clearSoak = 0 then new.clearNow else { new with soak := .clear (now + entry.clearSoak * 1000) }
      else new
  else if sev = .none then { new with soak := .stopped }
  else if raw then
    if pt.raw ∧ pt.severity ≠ .none then new
    else if entry.declareSoak = 0 then new.declareNow
    else { new with soak := .declare (now + entry.declareSoak * 1000) }
  else { new with soak := .stopped }

/-- A point after its expiry and its owning block's state of this moment. -/
def nextPoint (s : State) (e : Expiry) (k : PointId) : Point :=
  (s.alarms.points[k].expire e k).take s.now s.alarms.profile[profileIndex k] (inService s k) (rawDefect s k) (pointGrade s k)

/-! ### Masking and suppression (R145, R146) -/

/-- A masker holds: its raw defect is present or its point is DECLARED (R145). -/
def Point.masks (pt : Point) : Bool := pt.raw || pt.declared

/-- The maskers of a point (R145). -/
def maskers (refs : Vector Ref 6) (k : PointId) : List PointId :=
  let kind := DefectKind.ofIndex (kindOfPoint k)
  match placeOfPoint k, kind with
  | .port p, .lowPower => [portPoint 0 p]
  | .port p, .pilotLoss => [portPoint 0 p]
  | .port p, .traceMismatch => [portPoint 0 p, portPoint 3 p]
  | .port p, .pilotErrors => [portPoint 0 p, portPoint 3 p]
  | .port p, .farFail => [portPoint 0 p, portPoint 3 p]
  | .ref r, .refFail => if isOffice r then [] else (refs[r].source.map (portPoint 0)).toList
  | .ref r, .refRejected => [refPoint 0 r]
  | .ref r, .refQuality => [refPoint 0 r]
  | .group g, .switchFail => [groupPoint 4 g]
  | _, _ => []

/-- Whether a point is suppressed: a port point of a port under a range (R146). -/
def suppressedPoint (ranges : Vector RangeEntry 4) (k : PointId) : Bool :=
  match placeOfPoint k with
  | .port p => decide (rangeStatus ranges p ≠ .none)
  | _ => false

/-- Every point of this moment, with its flags. -/
def nextPoints (s : State) (e : Expiry) : Vector Point 319 :=
  let taken := tab 319 (nextPoint s e)
  tab 319 fun k =>
    { taken[k] with
      masked := (maskers s.timing.refs k).any fun j => taken[j].masks
      suppressed := suppressedPoint s.ranges k }

/-! ### Reportable points, list, counts and contacts (R149, R152, R154, R155) -/

/-- A point is reportable (R152). -/
def Point.reportable (pt : Point) : Bool :=
  pt.declared && !pt.masked && !pt.suppressed && decide (1 ≤ pt.severity.rank)

/-- How many reportable points of a severity there are (R154). -/
def visualCount (pts : Vector Point 319) (sev : Severity) : Nat :=
  pts.toList.countP fun pt => pt.reportable && decide (pt.severity = sev)

/-- How many reportable, unacknowledged points of a severity there are (R155). -/
def audibleCount (pts : Vector Point 319) (sev : Severity) : Nat :=
  pts.toList.countP fun pt => pt.reportable && decide (pt.severity = sev) && !pt.acknowledged

/-- Counts and contacts as the points make them (R154, R155). -/
def AlarmUnit.recount (a : AlarmUnit) : AlarmUnit :=
  let v : SeverityCounts := ⟨visualCount a.points .critical, visualCount a.points .major, visualCount a.points .minor⟩
  let d : SeverityCounts := ⟨audibleCount a.points .critical, audibleCount a.points .major, audibleCount a.points .minor⟩
  { a with
    visual := v
    audible := d
    contacts :=
      { crv := decide (1 ≤ v.critical), cra := decide (1 ≤ d.critical), mjv := decide (1 ≤ v.major),
        mja := decide (1 ≤ d.major), mnv := decide (1 ≤ v.minor), mna := decide (1 ≤ d.minor) } }

/-- The ALARM notice a point's change gives, if any, with the severities its threshold test reads (R160). -/
def alarmNotice (threshold : Severity) (k : PointId) (old new : Point) : Option Notice :=
  let passes := fun sev : Severity => decide (threshold.rank ≤ sev.rank)
  if old.reportable then
    if new.reportable then
      if old.severity ≠ new.severity ∧ (passes old.severity ∨ passes new.severity) then
        some (.alarm k .severity new.severity new.grade)
      else none
    else if new.declared then
      if passes new.severity then some (.alarm k .hidden new.severity new.grade) else none
    else if passes old.severity then some (.alarm k .cleared old.severity new.grade)
    else none
  else if new.reportable ∧ passes new.severity then some (.alarm k .raised new.severity new.grade)
  else none

/-- The alarm unit takes the state of every block at this moment. Points declared together join the list in a free order
(R149); the ALARM notices join the notices of the step. -/
def takeAlarms (e : Expiry) (s : State) : State :=
  let new : Vector Point 319 := nextPoints s e
  let old : Vector Point 319 := s.alarms.points
  let joined := (List.finRange 319).filter fun (k : PointId) => new[k].declared && !old[k].declared
  { s with
    alarms := ({ s.alarms with
      points := new
      active := s.alarms.active.filter (fun (k : PointId) => new[k].declared) ++ freeOrder s.orderDraws joined }).recount
    raised := s.raised ++ (List.finRange 319).filterMap fun (k : PointId) => alarmNotice s.notices.threshold k old[k] new[k]
    orderDraws := s.orderDraws + joined.length }

/-! ### Acknowledgement (R151) -/

/-- How many declared points an ACO acknowledges. -/
def AlarmUnit.unacknowledged (a : AlarmUnit) : Nat := a.points.toList.countP fun pt => pt.declared && !pt.acknowledged

/-- An ACO: every declared point is acknowledged (R151, R155). -/
def AlarmUnit.acknowledge (a : AlarmUnit) : AlarmUnit :=
  ({ a with points := tab 319 fun k => { a.points[k] with acknowledged := a.points[k].acknowledged || a.points[k].declared } }).recount

end Sys2Proof.Machine
end

