-- ==== Sys2Proof/Machine/Bus.lean ====
section
/-! DEFINITION. The actuator controller (chapter 5; R186, R187): the arbiter, transactions and their answers, the moving set,
and what a rebuild or a deletion does to the element table. -/

namespace Sys2Proof.Machine

/-! ### Command frames (section 10.5) -/

def BusCmd.address : BusCmd → Nat
  | .read a => a
  | .move a _ => a
  | .paired a _ _ => a
  | .poll a => a

/-- The bytes of a command frame. -/
def BusCmd.bytes (c : BusCmd) : List Byte :=
  let body :=
    match c with
    | .read a => [byteOf a, 0x01]
    | .move a t => [byteOf a, 0x02, byteOf t]
    | .paired a s b => [byteOf a, 0x03, byteOf s, byteOf b]
    | .poll a => [byteOf a, 0x04]
  body ++ [checkByte body]

/-- How long a command frame lasts, in µs: a character time of 40 µs for each byte (R186). -/
def BusCmd.duration (c : BusCmd) : Nat := 40 * c.bytes.length

/-! ### The arbiter (R99) -/

/-- The first command of an operation (R97). -/
def Op.first (op : Op) : BusCmd :=
  match op.kind with
  | .read s _ => .read s
  | .move a t => .move a t
  | .paired s st _ bt => .paired s st bt

/-- The class of the operation that moves an element. -/
def Switching.classOf (w : Switching) (el : Element) : Option OpClass := (w.opOf el.group).map (·.cls)

/-- The earlier of two choices, and at equal times the one to the lower driver address (R99). -/
def Choice.earlier (x y : Choice) : Choice :=
  if y.since < x.since ∨ (y.since = x.since ∧ y.cmd.address < x.cmd.address) then y else x

def earliest : List Choice → Option Choice
  | [] => Option.none
  | c :: cs => some (cs.foldl Choice.earlier c)

/-- The due polls of elements whose operation is, or is not, MAINTENANCE. -/
def Switching.duePolls (w : Switching) (maintenance : Bool) : List Choice :=
  w.elements.filterMap fun el =>
    match el.moving with
    | some ⟨_, .due since⟩ =>
      if decide (w.classOf el = some .maintenance) = maintenance then some ⟨since, .poll el.address, el.group⟩ else Option.none
    | _ => Option.none

/-- The ready transactions of in-flight operations that are not MAINTENANCE. -/
def Switching.readyOnes (w : Switching) : List Choice :=
  w.queue.filterMap fun op =>
    match op.ready with
    | some (at_, cmd) => if op.inFlight ∧ op.cls ≠ .maintenance then some ⟨at_, cmd, op.group⟩ else Option.none
    | Option.none => Option.none

/-- The first queued entry that is, or is not, MAINTENANCE, in the order of R98. -/
def Switching.firstQueued (w : Switching) (maintenance : Bool) : Option Choice :=
  (w.queue.find? fun op => !op.inFlight && decide (decide (op.cls = .maintenance) = maintenance)).map
    fun op => ⟨0, op.first, op.group⟩

/-- The arbiter's choice among what stands (R99). -/
def Switching.choose (w : Switching) : Option Choice :=
  (earliest (w.duePolls false)).or <|
    (earliest w.readyOnes).or <|
      (w.firstQueued false).or <|
        (earliest (w.duePolls true)).or (w.firstQueued true)

/-- Whether R98 bars a choice: it is MAINTENANCE's, and a PROTECTION, RECOVERY or ADOPT entry is queued. -/
def Switching.barred (w : Switching) (c : Choice) : Bool :=
  (w.opOf c.owner).any (fun op => decide (op.cls = .maintenance))
    && w.queue.any fun op => !op.inFlight && decide (op.cls ≠ .maintenance)

/-- The arbiter at the end of an event (R99): while no transaction is on the bus it holds the choice it has made, and chooses where it
holds none. A choice that was withdrawn (R100), or that R98 has come to bar, is made afresh (DESIGN CHOICE, log entry 43). -/
def Switching.arbitrate (w : Switching) : Switching :=
  if w.bus.isSome then w else { w with chosen := (w.chosen.filter fun c => !w.barred c).or w.choose }

/-- A transaction begins at time `now` (R92, R99): a poll is on the bus, a ready transaction is taken, a queued entry is in
flight. -/
def Switching.begin (now : Nat) (c : Choice) (w : Switching) : Switching :=
  let w : Switching :=
    match c.cmd with
    | .poll a => w.modElement a fun el => { el with moving := el.moving.map fun m => { m with poll := .onBus } }
    | _ => w.modOp c.owner fun op => { op with inFlight := true, ready := Option.none }
  { w with
    chosen := Option.none
    bus := some
      { cmd := c.cmd, owner := c.owner, exchange := .awaiting (now + c.cmd.duration + 2000), repeated := false, orphan := false,
        repeatable := true } }

/-! ### The end of a transaction (R92) -/

/-- The transaction ends, with or without an answer: the bus is free, and ACTUATOR-BUS follows (R92). -/
def Switching.close (now : Nat) (answered : Bool) (w : Switching) : Switching :=
  { w with bus := Option.none, busFreeAt := now, busDefect := !answered }

/-- One character time of the bus, in µs (R186). -/
def characterTime : Nat := 40

/-- Whether the characters of a run belong to one frame: each begins within one character time of the end of the previous one, and none
has a framing error (R187). -/
def runHolds (run : AnswerRun) : Bool := run.gaps.all (fun gap => decide (gap ≤ characterTime)) && !run.framing

/-- The transaction that this answer frame ends (R92, R187): its exchange is open, its characters hold together, the first byte is the
commanded address plus 0x80, the bytes sum to 0 modulo 256, and the answer code answers the command. That its characters follow the
command frame is `answered`'s. -/
def Switching.answeredBy (w : Switching) (run : AnswerRun) (frame : List Byte) (fits : BusCmd → Bool) : Option Transaction :=
  match w.bus with
  | some t =>
    match t.exchange with
    | .awaiting _ =>
      if runHolds run ∧ frame.head? = some (byteOf (t.cmd.address + 0x80)) ∧ byteSum frame = 0 ∧ fits t.cmd then some t
      else Option.none
    | .repeating _ => Option.none
  | Option.none => Option.none

/-- The end of the command frame of the open exchange, from which its answer timeout runs (R92, R187). -/
def Switching.frameEnd (w : Switching) : Nat :=
  match w.bus.map Transaction.exchange with
  | some (.awaiting timeout) => timeout - 2000
  | _ => 0

/-- The target of the operation's move of an element (R97). -/
def Op.targetOf (op : Op) (address : Nat) : Option Nat :=
  match op.kind with
  | .read _ _ => Option.none
  | .move a t => if a = address then some t else Option.none
  | .paired s st b bt => if address = s then some st else if address = b then some bt else Option.none

/-- An element joins the moving set: its move begins now, its first poll is due 5 ms later (R94). -/
def Switching.moves (now address : Nat) (w : Switching) : Switching :=
  w.modElement address fun el => { el with moving := some ⟨now, .waiting (now + 5000)⟩ }

/-- An element leaves the moving set. -/
def Switching.rests (address : Nat) (w : Switching) : Switching :=
  w.modElement address fun el => { el with moving := Option.none }

/-- The next read of a read operation, or its end (R93): it completes when every element was read. -/
def Switching.readOn (env : SwEnv) (g : GroupId) (w : Switching) : Switching :=
  match w.opOf g with
  | Option.none => w
  | some op =>
    match op.kind, op.second with
    | .read _ (some b), false => w.modOp g fun o => { o with second := true, ready := some (env.now, .read b) }
    | .read s _, _ => if op.unread.isEmpty then w.succeed env g else w.failOp env g s
    | _, _ => w

/-- A move of an element ended in success (R95, R96): the operation succeeds, or a paired move goes on with its bridge. -/
def Switching.moveOn (env : SwEnv) (g : GroupId) (address : Nat) (w : Switching) : Switching :=
  match w.opOf g with
  | Option.none => w
  | some op =>
    match op.kind with
    | .paired s _ b bt =>
      if address = s ∧ op.second = false then
        if op.single then w.modOp g fun o => { o with second := true, ready := some (env.now, .move b bt) }
        else (w.modOp g fun o => { o with second := true }).moves env.now b
      else w.succeed env g
    | _ => w.succeed env g

/-! ### Answers (R93 to R96, R187) -/

/-- POSITION (R91, R93): position, capability, partner. The position read enters the element table, and the timing unit is told, at this
answer, the first of a two-element read as well as the last: R90 and R93 place it there, R101 and R83 at the operation's end (DESIGN
CHOICE, log entry 52). -/
def Switching.onPosition (env : SwEnv) (run : AnswerRun) (frame : List Byte) (pos cap partner : Byte) (w : Switching) : Switching :=
  match w.answeredBy run frame fun c => match c with | .read _ => true | _ => false with
  | Option.none => w
  | some t =>
    if 7 < pos.toNat ∨ 1 < cap.toNat ∨ (cap = 1 ∧ (partner.toNat < 1 ∨ 62 < partner.toNat)) then w
    else
      let a := t.cmd.address
      let w' := w.close env.now true
      if t.orphan then w'
      else
        let held := w.known a
        let w' := w'.modElement a fun el =>
          { el with paired := decide (cap = 1), partner := if cap = 1 then some partner.toNat else Option.none }
        let w' := w'.setKnown env a (some pos.toNat)
        let w' := w'.modOp t.owner fun op => { op with matched := decide (held = some pos.toNat) }
        w'.readOn env t.owner

/-- ACCEPTED (R94, R96): the element's move is under way. -/
def Switching.onAccepted (env : SwEnv) (run : AnswerRun) (frame : List Byte) (w : Switching) : Switching :=
  match w.answeredBy run frame fun c => match c with | .move _ _ => true | .paired _ _ _ => true | _ => false with
  | Option.none => w
  | some t =>
    let w' := w.close env.now true
    if t.orphan then w' else w'.moves env.now t.cmd.address

/-- REFUSED (R94 to R96, R187): the last fault is stored, and the operation fails. The element that a refused PAIRED-MOVE names as
failed is the selector it is addressed to (R102 is silent; DEDUCED, log entry 50). -/
def Switching.onRefused (env : SwEnv) (run : AnswerRun) (frame : List Byte) (fault : Byte) (w : Switching) : Switching :=
  match w.answeredBy run frame fun c => match c with | .read _ => false | _ => true with
  | Option.none => w
  | some t =>
    let w' := w.close env.now true
    if t.orphan then w'
    else
      ((w'.modElement t.cmd.address fun el => { el with lastFault := fault }).rests t.cmd.address).failOp env t.owner
        t.cmd.address

/-- SINGLE-ONLY (R91, R96): the paired-capable flags are cleared and the paired move goes on as single moves. -/
def Switching.onSingleOnly (env : SwEnv) (run : AnswerRun) (frame : List Byte) (w : Switching) : Switching :=
  match w.answeredBy run frame fun c => match c with | .paired _ _ _ => true | _ => false with
  | Option.none => w
  | some t =>
    let w' := w.close env.now true
    if t.orphan then w'
    else
      let a := t.cmd.address
      let partner := (w.element a).bind (·.partner)
      let w' : Switching := { w' with
        elements := w'.elements.map fun (el : Element) =>
          if el.address = a ∨ partner = some el.address then { el with paired := false } else el }
      w'.modOp t.owner fun op =>
        match op.kind with
        | .paired s st _ _ => { op with single := true, ready := some (env.now, .move s st) }
        | _ => op

/-- MOVING (R95): the next poll is due 5 ms later. -/
def Switching.onMoving (env : SwEnv) (run : AnswerRun) (frame : List Byte) (w : Switching) : Switching :=
  match w.answeredBy run frame fun c => match c with | .poll _ => true | _ => false with
  | Option.none => w
  | some t =>
    let w' := w.close env.now true
    if t.orphan then w'
    else
      w'.modElement t.cmd.address fun el =>
        { el with moving := el.moving.map fun m => { m with poll := .waiting (env.now + 5000) } }

/-- SETTLED (R95, R96): at the target the move succeeds, elsewhere it fails. -/
def Switching.onSettled (env : SwEnv) (run : AnswerRun) (frame : List Byte) (pos : Byte) (w : Switching) : Switching :=
  match w.answeredBy run frame fun c => match c with | .poll _ => true | _ => false with
  | Option.none => w
  | some t =>
    if 7 < pos.toNat then w
    else
      let a := t.cmd.address
      let w' := w.close env.now true
      if t.orphan then w'
      else
        let w' := w'.rests a
        if (w.opOf t.owner).bind (·.targetOf a) = some pos.toNat then
          (w'.setKnown env a (some pos.toNat)).moveOn env t.owner a
        else w'.failOp env t.owner a

/-! ### No answer (R92, R93, R95) -/

/-- A transaction ends in answer failure: ACTUATOR-BUS, and what the command's operation takes from it (R92, R93, R95). The element that
an unanswered PAIRED-MOVE names as failed is the selector it is addressed to (R102 is silent; DEDUCED, log entry 50). -/
def Switching.answerFailure (env : SwEnv) (t : Transaction) (w : Switching) : Switching :=
  let w' := w.close env.now false
  if t.orphan then w'
  else
    let a := t.cmd.address
    match t.cmd with
    | .read _ =>
      let w' := w'.modOp t.owner fun op => { op with unread := op.unread ++ [a] }
      let w' := if (w'.opOf t.owner).any (fun op => decide (op.cls = .adopt)) then w'.setKnown env a Option.none else w'
      w'.readOn env t.owner
    | .move _ _ | .paired _ _ _ => w'.failOp env t.owner a
    | .poll _ => (w'.rests a).failOp env t.owner a

/-- The 2 ms answer timeout of the open exchange (R92): the exchange is to be repeated once, or the transaction ends in answer
failure. -/
def Switching.onAnswerTimeout (env : SwEnv) (w : Switching) : Switching :=
  match w.bus with
  | some t =>
    match t.exchange with
    | .awaiting _ =>
      if t.repeated ∨ !t.repeatable then w.answerFailure env t
      else { w with bus := some { t with exchange := .repeating (env.now + 80) } }
    | .repeating _ => w
  | Option.none => w

/-- The repeat of an unanswered exchange begins (R92, R186). -/
def Switching.onRepeat (now : Nat) (w : Switching) : Switching :=
  match w.bus with
  | some t =>
    match t.exchange with
    | .repeating _ =>
      { w with bus := some { t with exchange := .awaiting (now + t.cmd.duration + 2000), repeated := true } }
    | .awaiting _ => w
  | Option.none => w

/-! ### The moving set (R95) -/

/-- A moving element's poll interval expires: its POLL waits for the arbiter. -/
def Switching.onPollDue (address : Nat) (w : Switching) : Switching :=
  w.modElement address fun el =>
    { el with moving := el.moving.map fun m =>
        match m.poll with
        | .waiting due => { m with poll := .due due }
        | _ => m }

/-- A POLL exchange open at its move's timeout is finished on the bus and counts only for ACTUATOR-BUS; one that waits to be
repeated is not repeated, and ends without an answer (R95). -/
def Switching.abandonPoll (now address : Nat) (w : Switching) : Switching :=
  match w.bus with
  | some t =>
    if t.cmd = .poll address then
      match t.exchange with
      | .awaiting _ => { w with bus := some { t with orphan := true, repeatable := false } }
      | .repeating _ => w.close now false
    else w
  | Option.none => w

/-- A move not ended 200 ms after it began fails, and the element leaves the moving set (R95). -/
def Switching.onMoveTimeout (env : SwEnv) (address : Nat) (w : Switching) : Switching :=
  match w.element address with
  | Option.none => w
  | some el =>
    if el.moving.isSome then ((w.abandonPoll env.now address).rests address).failOp env el.group address else w

/-! ### The element table (R46, R47, R48, R89) -/

/-- A new element record (R89). -/
def Element.new (address : Nat) (role : Role) (g : GroupId) : Element :=
  { address := address, role := role, group := g, known := Option.none, lastSettled := Option.none, paired := false,
    partner := Option.none, moving := Option.none, lastFault := 0 }

/-- The element records a group record wants: the selector's, then the bridge's. -/
def GroupConfig.elements (g : GroupId) (c : GroupConfig) : List Element :=
  Element.new c.selector .selector g :: (c.bridge.map fun b => Element.new b .bridge g).toList

/-- The addresses an operation moves or reads. -/
def OpKind.addresses : OpKind → List Nat
  | .read s b => s :: b.toList
  | .move a _ => [a]
  | .paired s _ b _ => [s, b]

/-- A rebuild drops an element of the group's operation: a queued one is withdrawn, one in flight ends untold, and its transaction
on the bus counts only for ACTUATOR-BUS (R47, R100). -/
def Switching.dropWith (g : GroupId) (dropped : List Nat) (w : Switching) : Switching :=
  match w.opOf g with
  | Option.none => w
  | some op =>
    if op.kind.addresses.any (fun a => decide (a ∈ dropped)) then
      let w := op.kind.addresses.foldl (fun w a => w.rests a) (w.dropOp g)
      { w with bus := w.bus.map fun t => if t.owner = g then { t with orphan := true } else t }
    else w

/-- The element table after a rebuild (R47): kept addresses keep their records under the role they now have, dropped ones go,
added ones are new. -/
def rebuiltElements (g : GroupId) (new : GroupConfig) (els : List Element) : List Element :=
  els.filter (fun el => decide (el.group ≠ g)) ++
    (new.elements g).map fun fresh =>
      match els.find? (fun el => decide (el.address = fresh.address ∧ el.group = g)) with
      | some el => { el with role := fresh.role }
      | Option.none => fresh

/-- A group without requests: the initial fields of R43. -/
def Group.new (cfg : GroupConfig) : Group :=
  { cfg := cfg, state := .idle, external := Option.none, stay := Option.none, restoreTimer := Option.none,
    remote := Option.none, farEcho := Option.none, farBridged := Option.none, protocolMismatch := false,
    local_ := Request.none, effective := Request.none, target := 0, trialResult := .none, trialTimer := Option.none,
    awaitTimer := Option.none, farBridgeTimeout := false }

/-- Creation (R46): the record, its element records, the signal and requests, and ADOPTING with its read queued. -/
def Switching.create (env : SwEnv) (g : GroupId) (cfg : GroupConfig) (w : Switching) : Switching :=
  let w := { w.setGroup g (Group.new cfg) with elements := w.elements ++ cfg.elements g }
  (w.refresh env g).adopt env g

/-- Rebuild of a group in MAINT (R47). -/
def Switching.rebuild (env : SwEnv) (g : GroupId) (cfg : GroupConfig) (w : Switching) : Switching :=
  match w.groups[g] with
  | Option.none => w
  | some old =>
    let w := w.setExternal g Option.none
    let w := w.dropWith g (old.cfg.addresses.filter fun a => decide (a ∉ cfg.addresses))
    let w := { w with elements := rebuiltElements g cfg w.elements }
    let w := w.modGroup g fun grp => { grp.dropStay with cfg := cfg }
    w.refresh env g

/-- Deletion (R48, R161): the record and its element records go, and a GROUP notice carries UNCONFIGURED, E NONE and S 0. -/
def Switching.delete (env : SwEnv) (g : GroupId) (w : Switching) : Switching :=
  { w with
    groups := w.groups.set g Option.none
    elements := w.elements.filter fun el => decide (el.group ≠ g)
    raised := if env.notify then w.raised ++ [.group g Option.none Request.none (some 0) .none] else w.raised }

end Sys2Proof.Machine
end

