-- ==== Sys2Proof/Machine/Ops.lean ====
section
/-! DEFINITION. The shared operations over the whole part: its clock, notice queueing, what an event at a port, a group or the
bus hands to the other blocks, pilot messages as they are built, the power scan, and the end of a cable test. -/

namespace Sys2Proof.Machine

/-! ### Time and the blocks' surroundings -/

/-- The part at the moment `t` at which something falls due, or now if that moment is past. -/
def State.reach (t : Nat) (s : State) : State := { s with now := max s.now t }

/-- The step of the idle part: the model's clock goes on by 1 µs. -/
def State.idle (s : State) : State := { s with now := s.now + 1 }

def State.swEnv (s : State) : SwEnv := ⟨s.now, s.ports, s.ranges, s.notices.groupEnable⟩

def State.timingEnv (s : State) : TimingEnv := ⟨s.now, s.ports, s.sw, s.notices.timingEnable⟩

/-! ### The notice queue (R159, R162) -/

/-- A notice joins the tail while the queue holds fewer than 32, and is otherwise discarded and remembered (R159). -/
def Notices.enqueue (q : Notices) (n : Notice) : Notices :=
  if q.queue.length < 32 then { q with queue := q.queue ++ [n] } else { q with overflow := true }

/-- The OVERFLOW notice, at a moment at which a link is MASTER (R162). -/
def Notices.tellOverflow (q : Notices) : Notices :=
  if q.queue = [] ∧ q.overflow = true then { q with queue := [.overflow], overflow := false } else q

/-- The notices of the event under way. -/
def State.allRaised (s : State) : List Notice := s.sw.raised ++ s.timing.raised ++ s.raised

/-- The notices of the event under way join the queue, in any order among themselves (R159). -/
def flush (s : State) : State :=
  { s with
    sw := { s.sw with raised := [] }
    timing := { s.timing with raised := [] }
    raised := []
    notices := (freeOrder s.orderDraws s.allRaised).foldl Notices.enqueue s.notices
    orderDraws := s.orderDraws + s.allRaised.length }

/-- The end of an event: the alarm unit takes what every block now states, the notices of the event are queued, and the bus arbiter
chooses where it has to (R99). -/
def finish (e : Expiry) (s : State) : State :=
  let t := flush (takeAlarms e s)
  { t with sw := t.sw.arbitrate }

/-! ### Events at the switching block -/

/-- The switching block changed by `f`; the timing unit follows the selectors whose known position changed (R90, R113). -/
def inSwitch (f : SwEnv → Switching → Switching) (s : State) : State :=
  let moved : State := { s with sw := f s.swEnv s.sw }
  { moved with timing := moved.timing.followSelectors moved.timingEnv }

/-- The same event at several groups, taken one after the other in any order. -/
def groupsInTurn (gs : List GroupId) (f : GroupId → SwEnv → Switching → Switching) (s : State) : State :=
  (freeOrder s.orderDraws gs).foldl (fun s g => inSwitch (f g) s) { s with orderDraws := s.orderDraws + gs.length }

/-- The groups that the loss of the master changes (R65). -/
def temporaryGroups (s : State) : List GroupId :=
  (List.finRange 12).filter fun g => s.sw.groups[g].any Group.hasTemporary

/-- The part becomes masterless: every external MANUAL and TRIAL is removed (R65, R174). -/
def masterless (s : State) : State := groupsInTurn (temporaryGroups s) (fun g env => Switching.masterless env g) s

/-! ### Events at a port -/

/-- Whether a port is the in port of the running cable test (R23). -/
def inTest (s : State) (p : PortId) : Bool := s.cableTest.any fun t => decide (t.inPort = p)

/-- Whether a port is the out port of the running cable test (R22). -/
def outTest (s : State) (p : PortId) : Bool := s.cableTest.any fun t => decide (t.outPort = p)

/-- Whether a port's receiver takes pilot characters: enabled, and not the in port of a running test (R10). -/
def listening (s : State) (p : PortId) : Bool := s.ports[p].cfg.enabled && !inTest s p

/-- What the group engine of port `p` reads of it has changed: the reported condition, or on member 0 what the far end's signal is
decoded from (R40, R60, R68). -/
def tellGroup (p : PortId) (old : Port) (s : State) : State :=
  let new := s.ports[p]
  match memberOf s.sw.groups p with
  | none => s
  | some (g, m) =>
    if old.reported ≠ new.reported then inSwitch (fun env => Switching.memberEvent env g m old.reported new.reported) s
    else if m = 0 ∧ (old.accProt ≠ new.accProt ∨ old.accFlags ≠ new.accFlags ∨ old.pilotLoss ≠ new.pilotLoss) then
      inSwitch (fun env => Switching.event env g id) s
    else s

/-- What the timing unit reads of port `p` has changed: raw condition, enabled, accepted quality (R116, R117, R122). -/
def tellTiming (p : PortId) (old : Port) (s : State) : State :=
  let new := s.ports[p]
  if old.raw ≠ new.raw ∨ old.cfg.enabled ≠ new.cfg.enabled ∨ old.accQuality ≠ new.accQuality then
    { s with timing := s.timing.portChanged s.timingEnv p }
  else s

/-- A port replaced, and its readers told. -/
def setPortTo (p : PortId) (new : Port) (s : State) : State :=
  let old := s.ports[p]
  tellTiming p old (tellGroup p old { s with ports := s.ports.set p new })

/-- An event at a port: `f` changes the port, its raw condition is re-evaluated (R38, R40), and its readers are told. -/
def portEvent (p : PortId) (f : Port → Port) (s : State) : State :=
  let changed := f s.ports[p]
  setPortTo p (changed.settle (effectiveHoldOff s.sw.groups (s.ports.set p changed) p) s.now) s

/-- One sample taken by the receiver of a listening port (R10 to R14). A message that ends in it, valid or bad, is an event at the port at
that sample; a sample that changes nothing but the receiver and the assembly is none. -/
def pilotSample (p : PortId) (s : State) (b : Bool) : State :=
  let old := s.ports[p]
  let new := old.sample s.now b
  if ({ new with rx := old.rx, asm := old.asm } : Port) = old then { s with ports := s.ports.set p new }
  else finish .none (portEvent p (fun x => x.sample s.now b) s)

/-- A run of samples taken by the receiver of a port, oldest first: the messages that end in it are events one after another (R38; log
entry 51). -/
def pilotSamples (p : PortId) (samples : List Bool) (s : State) : State := samples.foldl (pilotSample p) s

/-- The enabled ports whose findings no longer give the raw condition they hold. -/
def unsettled (s : State) : List PortId :=
  (List.finRange 32).filter fun p => s.ports[p].cfg.enabled && decide (s.ports[p].rawCondition ≠ s.ports[p].raw)

/-- Ports whose findings changed at one moment, taken one after the other in any order. -/
def portsInTurn (ps : List PortId) (s : State) : State :=
  (freeOrder s.orderDraws ps).foldl (fun s p => portEvent p id s) { s with orderDraws := s.orderDraws + ps.length }

/-! ### The power scan (R26) -/

/-- How long a conversion takes, in µs (R26). -/
def conversionTime : Nat := 250

/-- A conversion on a port that begins at `now`, or the ADC at rest. -/
def conversionOf (now : Nat) (p : Option PortId) : Option Conversion := p.map fun q => ⟨q, true, now + conversionTime⟩

/-- The port converted after `p`: the lowest-numbered enabled port above it, else the lowest-numbered enabled port (R26). -/
def scanAfter (ports : Vector Port 32) (p : PortId) : Option PortId :=
  ((List.finRange 32).find? fun q => ports[q].cfg.enabled && decide (p < q)).or
    ((List.finRange 32).find? fun q => ports[q].cfg.enabled)

/-! ### Pilot messages (R20, R66) -/

/-- The group type and the protection fields a port's message carries (R20). -/
def pilotSignal (s : State) (p : PortId) : Nat × ProtFields :=
  match memberOf s.sw.groups p with
  | some (g, 0) =>
    match s.sw.groups[g] with
    | some grp => if grp.cfg.ends = .dual then (grp.cfg.type.code, s.sw.outgoing g grp) else (0, ⟨0, 0⟩)
    | none => (0, ⟨0, 0⟩)
  | _ => (0, ⟨0, 0⟩)

/-- The flags of a message (R20). -/
def pilotFlags (s : State) (p : PortId) : Flags :=
  let port := s.ports[p]
  let farFail := decide (port.raw = .fail) || port.pilotLoss
  { farFail := farFail
    farDegrade := decide (port.raw = .degrade) && !farFail
    testRange := decide (rangeStatus s.ranges p ≠ .none)
    groupType := BitVec.ofNat 2 (pilotSignal s p).1 }

/-- The bytes of the message a port builds now (R20). -/
def pilotBytes (s : State) (p : PortId) : List Byte :=
  let pf := (pilotSignal s p).2
  let body := [0xA6, s.shelf, s.slot, byteOf p.val, flagsByte (pilotFlags s p), byteOf (s.timing.codes[p] % 16), pf.request,
    pf.effect]
  body ++ [checkByte body]

/-- The time from the start of one message to the start of the next, in µs: 100 bit times (R19). -/
def messagePeriod : Nat := 12500

/-- The 90 bit times of a message, in µs (R19). -/
def messageTime : Nat := 11250

/-! ### Links: the parts other blocks reach -/

def LinkSupervisor.link (x : LinkSupervisor) (l : LinkId) : Link :=
  match l with
  | .a => x.linkA
  | .b => x.linkB

def LinkSupervisor.modLink (x : LinkSupervisor) (l : LinkId) (f : Link → Link) : LinkSupervisor :=
  match l with
  | .a => { x with linkA := f x.linkA }
  | .b => { x with linkB := f x.linkB }

/-- The other of the two links. -/
def otherLink : LinkId → LinkId
  | .a => .b
  | .b => .a

/-- The master link, or none. -/
def LinkSupervisor.master (x : LinkSupervisor) : Option LinkId :=
  if x.linkA.role = .master then some .a else if x.linkB.role = .master then some .b else none

def modLink (l : LinkId) (f : Link → Link) (s : State) : State := { s with links := s.links.modLink l f }

/-- The reply of the request outstanding on a link becomes ready: the request's TAG, its KIND plus 0x80, and a payload that begins
with the result code (R170, R171). -/
def Link.answer (payload : List Byte) (k : Link) : Link :=
  match k.outstanding with
  | none => k
  | some o =>
    { k with
      outstanding := some { o with formed := true }
      ready := k.ready ++ [⟨⟨o.tag, o.kind + 0x80, payload⟩, false⟩] }

/-! ### The end of a cable test (R24) -/

inductive TestResult where
  | pass | fail | noPath | noLight | aborted
  deriving DecidableEq, Repr

def TestResult.code : TestResult → Byte
  | .pass => 0 | .fail => 1 | .noPath => 2 | .noLight => 3 | .aborted => 4

/-- The reply of a cable test: result, and the index of the first mismatch, 0 but for FAIL (section 10.3). -/
def testReply (r : TestResult) (mismatch : Nat) : List Byte := Result.ok.code :: r.code :: be16 mismatch

/-- The out port resumes pilot service with a lead-in; a disabled port stays disabled (R24). -/
def Port.resumeOut (now : Nat) (p : Port) : Port :=
  if p.cfg.enabled then { p with tx := ⟨.leadIn, now, now + leadInTime, []⟩ } else p

/-- The in port resumes pilot service: search, HUNT and a loss timer of 40 ms; a disabled port stays disabled (R24). -/
def Port.resumeIn (now : Nat) (p : Port) : Port :=
  if p.cfg.enabled then { p with rx := ⟨true, .search 0⟩, asm := .hunt, lossTimer := some (now + 40000) } else p

/-- The test record goes and both ports resume normal pilot service (R24). -/
def resumeTest (s : State) : State :=
  match s.cableTest with
  | none => s
  | some t =>
    { s with
      ports := upd (upd s.ports t.outPort (Port.resumeOut s.now)) t.inPort (Port.resumeIn s.now)
      cableTest := none }

/-- A test ends with a result: the deferred reply goes to the requesting link, and the ports resume (R23, R24). -/
def endTest (r : TestResult) (mismatch : Nat) (s : State) : State :=
  match s.cableTest with
  | none => s
  | some t => resumeTest (modLink t.link (Link.answer (testReply r mismatch)) s)

/-- Whether the running test uses a port that is disabled or under no range (R24). -/
def testBroken (s : State) : Bool :=
  s.cableTest.any fun t =>
    !(s.ports[t.outPort].cfg.enabled && s.ports[t.inPort].cfg.enabled)
      || decide (rangeStatus s.ranges t.outPort = .none) || decide (rangeStatus s.ranges t.inPort = .none)

/-- A test whose ports may no longer be under test is aborted (R24). -/
def abortBroken (s : State) : State := if testBroken s then endTest .aborted 0 s else s

end Sys2Proof.Machine
end

