-- ==== Sys2Proof/Machine/Operands.lean ====
section
/-! DEFINITION. The operands of requests: what the payload of each request with fields is read as (section 10.2, R183), with its
clamping and rounding. `none` is every refusal BAD-ARG that a rule makes before it looks at the state. -/

namespace Sys2Proof.Machine

/-- Two payload bytes from byte `i`, unsigned. -/
def wordAt (payload : List Byte) (i : Nat) : Nat := u16 (byteAt payload i) (byteAt payload (i + 1))

/-- Two payload bytes from byte `i`, signed. -/
def signedAt (payload : List Byte) (i : Nat) : Int := s16 (byteAt payload i) (byteAt payload (i + 1))

/-- An index carried as the one byte of a payload. -/
def indexArg (n : Nat) (payload : List Byte) : Option (Fin n) := finOf n (byteAt payload 0)

/-! ### Ports and ranges -/

/-- A power clamped to −6000..+1500 centi-dBm (R1). -/
def clampPower (x : Int) : Int := clampInt (-6000) 1500 x

/-- A hold-off clamped to 0..10,000 ms and rounded down to 100 ms (R2, R45). -/
def clampHoldOff (x : Nat) : Nat := floorTo 100 (clampNat 0 10000 x)

/-- The expected trace of a SET-PORT: presence byte, then shelf, slot and port clamped (R2). -/
def expectedArg (payload : List Byte) : Option (Option Trace) :=
  match flagOf (byteAt payload 2) with
  | none => none
  | some false => some none
  | some true =>
    some (some
      { shelf := byteAt payload 3
        slot := byteOf (clampNat 0 63 (byteAt payload 4).toNat)
        port := byteOf (clampNat 0 31 (byteAt payload 5).toNat) })

/-- SET-PORT (R2, steps 1 to 4). -/
def setPortArgs (payload : List Byte) : Option (PortId × PortRecord) :=
  match finOf 32 (byteAt payload 0), flagOf (byteAt payload 1), expectedArg payload with
  | some p, some enabled, some expected =>
    let persistence := (byteAt payload 6).toNat
    let options := byteAt payload 7
    let cfg : PortRecord :=
      { enabled := enabled
        expected := expected
        persistence := persistence
        pilotRequired := options.getLsbD 0
        traceFail := options.getLsbD 1
        overloadFail := options.getLsbD 2
        icpt := clampPower (signedAt payload 8)
        slope := clampNat 0 4095 (wordAt payload 10)
        tFail := clampPower (signedAt payload 12)
        tDeg := clampPower (signedAt payload 14)
        tOver := clampPower (signedAt payload 16)
        hysteresis := clampNat 0 500 (wordAt payload 18)
        holdOff := clampHoldOff (wordAt payload 20)
        badThreshold := clampNat 1 800 (wordAt payload 22) }
    if (persistence = 1 ∨ persistence = 3) ∧ cfg.tFail < cfg.tDeg ∧ cfg.tDeg < cfg.tOver then some (p, cfg) else none
  | _, _, _ => none

/-- SET-RANGE (R8). -/
def setRangeArgs (payload : List Byte) : Option (Fin 4 × RangeEntry) :=
  match finOf 4 (byteAt payload 0), flagOf (byteAt payload 1), RangeKind.ofCode (byteAt payload 2), finOf 32 (byteAt payload 3),
    finOf 32 (byteAt payload 4) with
  | some i, some enabled, some kind, some lower, some upper =>
    if lower ≤ upper then some (i, ⟨enabled, kind, lower, upper⟩) else none
  | _, _, _, _, _ => none

/-- What a CABLE-TEST asks for. -/
structure TestArgs where
  outPort : PortId
  inPort  : PortId
  length  : Nat
  late    : Bool
  deriving DecidableEq, Repr

/-- CABLE-TEST (R21, step 1, with L clamped to 64..4096). -/
def cableTestArgs (payload : List Byte) : Option TestArgs :=
  match finOf 32 (byteAt payload 0), finOf 32 (byteAt payload 1), flagOf (byteAt payload 4) with
  | some x, some y, some late => some ⟨x, y, clampNat 64 4096 (wordAt payload 2), late⟩
  | _, _, _ => none

/-! ### Groups and actuators -/

/-- Every item of a list that is there, or none where one is missing. -/
def allPresent {α : Type} : List (Option α) → Option (List α)
  | [] => some []
  | none :: _ => none
  | some x :: xs => (allPresent xs).map fun ys => x :: ys

/-- The working-port count byte of a SET-GROUP. -/
def groupCount (payload : List Byte) : Nat := (byteAt payload 4).toNat

/-- SET-GROUP, step 1 of R45: group, type, ends and the revertive flag. -/
def setGroupHead (payload : List Byte) : Option (GroupId × GroupType × Ends × Bool) :=
  match finOf 12 (byteAt payload 0), GroupType.ofCode (byteAt payload 1), Ends.ofCode (byteAt payload 2),
    flagOf (byteAt payload (5 + groupCount payload)) with
  | some g, some type, some ends, some revertive => some (g, type, ends, revertive)
  | _, _, _, _ => none

/-- A driver address, 1..62. -/
def addressOf (b : Byte) : Option Nat := if 1 ≤ b.toNat ∧ b.toNat ≤ 62 then some b.toNat else none

/-- The count of working ports a type takes (R45, step 3). -/
def countFits (type : GroupType) (ends : Ends) (n : Nat) : Bool :=
  match type with
  | .onePlusOne => decide (n = 1)
  | .oneForN => decide (1 ≤ n) && decide (n ≤ 7) && decide (ends = .dual)

/-- The bridge address of a SET-GROUP: ignored for a ONE-PLUS-ONE, and not the selector's for a ONE-FOR-N (R45, step 3). -/
def bridgeArg (type : GroupType) (selector : Nat) (b : Byte) : Option (Option Nat) :=
  match type with
  | .onePlusOne => some none
  | .oneForN =>
    match addressOf b with
    | some a => if a = selector then none else some (some a)
    | none => none

/-- SET-GROUP, steps 3 and 4 of R45: the record asked for. -/
def setGroupConfig (type : GroupType) (ends : Ends) (revertive : Bool) (payload : List Byte) : Option GroupConfig :=
  let n := groupCount payload
  match finOf 32 (byteAt payload 3), allPresent (((payload.drop 5).take n).map (finOf 32)),
    addressOf (byteAt payload (10 + n)) with
  | some prot, some working, some selector =>
    match bridgeArg type selector (byteAt payload (11 + n)) with
    | some bridge =>
      if countFits type ends n then
        some
          { type := type
            ends := ends
            prot := prot
            working := working
            revertive := revertive
            holdOff := clampHoldOff (wordAt payload (6 + n))
            restoreWait := floorTo 10 (clampNat 60 720 (wordAt payload (8 + n)))
            selector := selector
            bridge := bridge }
      else none
    | none => none
  | _, _, _ => none

/-- The kind of a PROT-REQUEST: BAR, FORCE, MANUAL, TRIAL, or NONE for CLEAR (R61). -/
def protKind (b : Byte) : Option ReqKind :=
  match b.toNat with
  | 14 => some .bar | 12 => some .force | 6 => some .manual | 3 => some .trial | 0 => some .none | _ => none

/-- A SET-MAINT action: true for ENTER, false for LEAVE. -/
def maintAction (b : Byte) : Option Bool := flagOf b

/-- MAINT-MOVE, step 2 of R106: address and position. -/
def maintMoveArgs (payload : List Byte) : Option (Nat × Nat) :=
  match addressOf (byteAt payload 0), finOf 8 (byteAt payload 1) with
  | some a, some pos => some (a, pos.val)
  | _, _ => none

/-! ### Timing -/

/-- The binding of a SET-REF for a line reference (R110, step 3). -/
def bindingArg (payload : List Byte) : Option Binding :=
  match flagOf (byteAt payload 3) with
  | some false => (finOf 32 (byteAt payload 4)).map Binding.port
  | some true =>
    match finOf 12 (byteAt payload 4) with
    | some g =>
      if 1 ≤ (byteAt payload 5).toNat ∧ (byteAt payload 5).toNat ≤ 7 then some (.member g (byteAt payload 5).toNat) else none
    | none => none
  | none => none

/-- SET-REF (R110): the fields of the other kind of reference are ignored and stand as they were. -/
def setRefArgs (refs : Vector Ref 6) (payload : List Byte) : Option (RefId × RefConfig) :=
  match finOf 6 (byteAt payload 0), flagOf (byteAt payload 1) with
  | some r, some enabled =>
    let priority := clampNat 1 6 (byteAt payload 6).toNat
    if isOffice r then
      match NominalRate.ofCode (byteAt payload 2) with
      | some rate => some (r, ⟨enabled, rate, refs[r].binding, priority, clampNat 1 15 (byteAt payload 7).toNat⟩)
      | none => none
    else
      match bindingArg payload with
      | some binding => some (r, ⟨enabled, refs[r].rate, binding, priority, refs[r].provisioned⟩)
      | none => none
  | _, _ => none

/-- SET-TIMING (R132). -/
def setTimingArgs (payload : List Byte) : Option TimingSettings :=
  match TimingMode.ofCode (byteAt payload 10), flagOf (byteAt payload 11) with
  | some mode, some revertive =>
    some
      { accept := clampNat 1000 100000 (u24 (byteAt payload 0) (byteAt payload 1) (byteAt payload 2))
        requalifySoak := clampNat 0 600 (wordAt payload 3)
        acquireTime := clampNat 10 300 (wordAt payload 5)
        holdoverLimit := clampNat 1 72 (byteAt payload 7).toNat
        slew := clampNat 10 10000 (wordAt payload 8)
        mode := mode
        revertive := revertive
        holdoverQuality := clampNat 1 15 (byteAt payload 12).toNat
        freeRunQuality := clampNat 1 15 (byteAt payload 13).toNat }
  | _, _ => none

/-- The action of a TIMING-REQUEST (R124). -/
inductive TimingAction where
  | force (r : RefId)
  | clearForce
  | lockout (r : RefId)
  | unlock (r : RefId)
  deriving DecidableEq, Repr

/-- TIMING-REQUEST (R124): the index is ignored for CLEAR-FORCE. -/
def timingRequestArgs (payload : List Byte) : Option TimingAction :=
  match (byteAt payload 0).toNat with
  | 0 => (finOf 6 (byteAt payload 1)).map TimingAction.force
  | 1 => some .clearForce
  | 2 => (finOf 6 (byteAt payload 1)).map TimingAction.lockout
  | 3 => (finOf 6 (byteAt payload 1)).map TimingAction.unlock
  | _ => none

/-! ### Alarms, notices and links -/

/-- A soak clamped to 0..30,000 ms and rounded down to 100 ms (R141). -/
def clampSoak (x : Nat) : Nat := floorTo 100 (clampNat 0 30000 x)

/-- SET-PROFILE (R141): the NSA severity of a kind that is no port kind is ignored and stored as NONE. -/
def setProfileArgs (payload : List Byte) : Option (Fin 21 × ProfileEntry) :=
  match finOf 21 (byteAt payload 0), Severity.ofCode (byteAt payload 1) with
  | some k, some sa =>
    let declare := clampSoak (wordAt payload 3)
    let clear := clampSoak (wordAt payload 5)
    if k.val < 7 then (Severity.ofCode (byteAt payload 2)).map fun nsa => (k, ⟨sa, nsa, declare, clear⟩)
    else some (k, ⟨sa, .none, declare, clear⟩)
  | _, _ => none

/-- SET-NOTICES (R164): NONE is no threshold. -/
def setNoticesArgs (payload : List Byte) : Option (Severity × Bool × Bool) :=
  match Severity.ofCode (byteAt payload 0), flagOf (byteAt payload 1), flagOf (byteAt payload 2) with
  | some .none, _, _ => none
  | some sev, some grp, some tim => some (sev, grp, tim)
  | _, _, _ => none

/-- SET-LINK-WATCH (R178): mode, period in ms and lapse limit. -/
def setLinkWatchArgs (payload : List Byte) : Option (WatchMode × Nat × Nat) :=
  (WatchMode.ofCode (byteAt payload 0)).map fun mode =>
    (mode, floorTo 100 (clampNat 200 10000 (wordAt payload 1)), clampNat 1 4 (byteAt payload 3).toNat)

end Sys2Proof.Machine
end

