-- ==== Sys2Proof/Machine/Replies.lean ====
section
/-! DEFINITION. The payloads of replies after the result code (R6, R49, R112, R133, R150, R180; layouts of R184 and section
10.3; log entry 20 where the layout is read from R184 by inference). -/

namespace Sys2Proof.Machine

/-- A reply that carries more than its result code. -/
def okWith (fields : List Byte) : List Byte := Result.ok.code :: fields

/-- A list whose length varies, preceded by its count (R184). -/
def counted {α : Type} (f : α → List Byte) (xs : List α) : List Byte := byteOf xs.length :: xs.flatMap f

/-! ### Ports and ranges -/

def optionFlags (cfg : PortRecord) : Byte :=
  byteOf ((if cfg.pilotRequired then 1 else 0) + (if cfg.traceFail then 2 else 0) + (if cfg.overloadFail then 4 else 0))

/-- A port record in the layout of SET-PORT. -/
def portRecordBytes (p : PortId) (cfg : PortRecord) : List Byte :=
  [byteOf p.val, flagByte cfg.enabled] ++ present 3 (cfg.expected.map traceBytes)
    ++ [byteOf cfg.persistence, optionFlags cfg] ++ beS16 cfg.icpt ++ be16 cfg.slope ++ beS16 cfg.tFail ++ beS16 cfg.tDeg
    ++ beS16 cfg.tOver ++ be16 cfg.hysteresis ++ be16 cfg.holdOff ++ be16 cfg.badThreshold

/-- A port's role in the running cable test: NONE, OUT, IN, OUT-AND-IN. -/
def testRole (s : State) (p : PortId) : Byte :=
  byteOf ((if outTest s p then 1 else 0) + (if inTest s p then 2 else 0))

/-- The live state of a port in the order of R6. -/
def portStatusBytes (s : State) (p : PortId) : List Byte :=
  let x := s.ports[p]
  [flagByte x.cfg.enabled, byteOf (rangeStatus s.ranges p).code, condByte x.raw, condByte x.reported,
    byteOf x.powerState.code]
    ++ present 2 (x.ps.map beS16)
    ++ present 3 (x.accTrace.map traceBytes)
    ++ present 4 (x.traceCand.map fun c => traceBytes c.value ++ [byteOf c.count])
    ++ [(x.accFlags.map flagsByte).getD 0xFF, orFF x.accQuality]
    ++ present 2 (x.accProt.map fun f => [f.request, f.effect])
    ++ [flagByte x.pilotLoss, flagByte x.traceMismatch, flagByte x.pilotErrors]
    ++ be16 x.windowSum ++ be16 x.lastValid ++ be16 x.lastBad ++ [testRole s p]

/-- A range entry in the layout of SET-RANGE. -/
def rangeBytes (i : Nat) (e : RangeEntry) : List Byte :=
  [byteOf i, flagByte e.enabled, byteOf e.kind.code, byteOf e.lower.val, byteOf e.upper.val]

/-- All four entries in entry order. -/
def rangesBytes (ranges : Vector RangeEntry 4) : List Byte := (List.finRange 4).flatMap fun i => rangeBytes i.val ranges[i]

/-! ### Groups -/

/-- A group record in the layout of SET-GROUP; the ignored bridge of a ONE-PLUS-ONE is sent as 0. -/
def groupBytes (g : GroupId) (c : GroupConfig) : List Byte :=
  [byteOf g.val, byteOf c.type.code, byteOf c.ends.code, byteOf c.prot.val] ++ counted (fun p => [byteOf p.val]) c.working
    ++ [flagByte c.revertive] ++ be16 c.holdOff ++ be16 c.restoreWait ++ [byteOf c.selector, byteOf (c.bridge.getD 0)]

/-- An element's known position and last fault, absent where there is no element. -/
def elementBytes (el : Option Element) : List Byte :=
  orFF (el.bind (·.known)) :: present 1 (el.map fun x => [x.lastFault])

/-- One member's record: port, reported condition, range status, condition request. -/
def memberBytes (env : SwEnv) (c : GroupConfig) (m : Nat) (p : PortId) : List Byte :=
  [byteOf p.val, condByte env.ports[p].reported, byteOf (rangeStatus env.ranges p).code] ++ requestOrFF (condRequest env c m)

/-- A time remaining, in whole seconds rounded up, while the timer runs. -/
def remaining (now : Nat) (timer : Option Nat) : List Byte := present 4 (timer.map fun t => be32 (secondsLeft now t))

/-- The live state of a configured group in the order of R49. PROTOCOL-MISMATCH and the far-bridged value, listed for a dual-ended group, are
left out for a single-ended one, and the restore-wait time is sent as absent while its timer does not run: R184 leaves both open (DESIGN
CHOICE, log entry 20). -/
def groupStatusBytes (s : State) (grp : Group) : List Byte :=
  let env := s.swEnv
  let c := grp.cfg
  [byteOf (GroupState.code (some grp.state)), byteOf grp.trialResult.code]
    ++ byteOf (c.count + 1) :: (c.members.zipIdx.flatMap fun pm => memberBytes env c pm.2 pm.1)
    ++ requestOrFF grp.external
    ++ requestBytes (grp.stay.getD Request.none) ++ remaining s.now grp.restoreTimer
    ++ requestBytes grp.local_ ++ requestOrFF grp.remote ++ requestBytes grp.effective
    ++ [byteOf grp.target, orFF (s.sw.selected grp)]
    ++ elementBytes (c.bridge.bind s.sw.element) ++ elementBytes (s.sw.element c.selector)
    ++ match c.ends with
       | .dual => [flagByte grp.protocolMismatch, orFF grp.farBridged]
       | .single => []

/-- The external request, 0 when absent, and E (section 10.3). -/
def protFields (grp : Option Group) : List Byte :=
  requestBytes ((grp.bind (·.external)).getD Request.none) ++ requestBytes ((grp.map (·.effective)).getD Request.none)

/-! ### Timing -/

/-- A reference in the layout of SET-REF; the fields of the other kind are sent as 0. -/
def refBytes (r : RefId) (x : Ref) : List Byte :=
  let bound : List Byte :=
    match x.binding with
    | .port p => [0, byteOf p.val, 0]
    | .member g m => [1, byteOf g.val, byteOf m]
  [byteOf r.val, flagByte x.enabled, if isOffice r then byteOf x.rate.code else 0] ++ (if isOffice r then [0, 0, 0] else bound)
    ++ [byteOf x.priority, if isOffice r then byteOf x.provisioned else 0]

/-- The settings in the layout of SET-TIMING. -/
def timingBytes (t : TimingSettings) : List Byte :=
  be24 t.accept ++ be16 t.requalifySoak ++ be16 t.acquireTime ++ [byteOf t.holdoverLimit] ++ be16 t.slew
    ++ [byteOf t.mode.code, flagByte t.revertive, byteOf t.holdoverQuality, byteOf t.freeRunQuality]

/-- The forced reference, the six locked-out flags and the selected reference (R124, R184). -/
def timingRequestBytes (t : Timing) : List Byte :=
  orFF (t.forced.map Fin.val) :: (t.refs.toList.map fun x => flagByte x.lockedOut) ++ [orFF (t.selected.map Fin.val)]

/-- The live state of one reference (R133). The source port, listed for a line reference, is left out for an office one, and the soak time is
sent as absent outside SOAKING: R184 leaves both open (DESIGN CHOICE, log entry 20). -/
def refStatusBytes (s : State) (r : RefId) : List Byte :=
  let x := s.timing.refs[r]
  [flagByte x.enabled, flagByte x.lockedOut, flagByte x.present, byteOf x.state.code, byteOf x.window.length]
    ++ present 4 (x.latest.map fun v => beS24 v.ppb ++ [flagByte v.outOfRange])
    ++ present 3 (x.average.map beS24)
    ++ remaining s.now (if x.state = .soaking then x.soakTimer else none)
    ++ [byteOf (x.quality r), flagByte (x.selectable s.ports r)]
    ++ if isOffice r then [] else [orFF (x.source.map Fin.val)]

/-- The live timing state in the order of R133. The items listed in HOLDOVER or ACQUIRING are sent in every state, as absent outside it: R184
leaves that open (DESIGN CHOICE, log entry 20). -/
def timingStatusBytes (s : State) : List Byte :=
  let t := s.timing
  [byteOf t.state.code, orFF (t.selected.map Fin.val), orFF (t.forced.map Fin.val)]
    ++ beS24 t.word ++ [flagByte t.ready, byteOf t.lockedUpdates] ++ counted beS24 t.history
    ++ present 3 (if t.state = .holdover then some (beS24 t.holdoverValue) else none)
    ++ remaining s.now (if t.state = .holdover then t.holdoverTimer else none)
    ++ present 4 (if t.state = .acquiring then some (be32 ((t.acquireTimer.map (secondsLeft s.now)).getD 0)) else none)
    ++ (List.finRange 6).flatMap (refStatusBytes s)

/-! ### Alarms, notices and links -/

/-- A profile entry in the layout of SET-PROFILE. -/
def profileBytes (k : Fin 21) (e : ProfileEntry) : List Byte :=
  [byteOf k.val, byteOf e.sa.rank, if k.val < 7 then byteOf e.nsa.rank else 0] ++ be16 e.declareSoak ++ be16 e.clearSoak

/-- One entry of READ-ALARMS (section 10.3). -/
def alarmEntry (a : AlarmUnit) (k : PointId) : List Byte :=
  let pt := a.points[k]
  be16 k.val ++
    [byteOf pt.severity.rank, byteOf pt.grade.code,
      byteOf ((if pt.masked then 1 else 0) + (if pt.suppressed then 2 else 0) + (if pt.acknowledged then 4 else 0)),
      byteOf (kindOfPoint k).val]

/-- The most entries one READ-ALARMS reply carries (R150). -/
def entriesPerRead : Nat := 41

/-- A READ-ALARMS reply: number of entries, start index, up to 41 entries (R150). -/
def readAlarmsBytes (a : AlarmUnit) (start : Nat) : List Byte :=
  be16 a.active.length ++ be16 start ++ ((a.active.drop start).take entriesPerRead).flatMap (alarmEntry a)

def noticesBytes (n : Notices) : List Byte :=
  [byteOf n.threshold.rank, flagByte n.groupEnable, flagByte n.timingEnable]

def linkWatchBytes (x : LinkSupervisor) : List Byte := [byteOf x.mode.code] ++ be16 x.period ++ [byteOf x.lapseLimit]

/-- The IDENTIFY reply: part code 0x4132, revision 0x01, 32 ports, 12 groups, 6 references and the rate code (R180). -/
def identifyBytes (x : LinkSupervisor) : List Byte := [0x41, 0x32, 0x01, 32, 12, 6, byteOf x.rate.toNat]

/-- The groups of the settle-failure list in list order (R107). -/
def settleBytes (gs : List GroupId) : List Byte := counted (fun g => [byteOf g.val]) gs

/-- The challenge and the lapse count of a KEEPALIVE reply. -/
def keepaliveBytes (challenge : Byte) (x : LinkSupervisor) : List Byte := [challenge, byteOf x.lapses]

end Sys2Proof.Machine
end

