-- ==== Sys2Proof/Machine/Requests.lean ====
section
/-! DEFINITION. A request taken on a link, and its reply (R169 to R171, R182): the checks in their order, the outstanding request,
the ready replies. -/

namespace Sys2Proof.Machine

/-- What a request's own rule does at step 5 of R170: the part after it, and the payload of its immediate reply, or none where the
reply is deferred. -/
abbrev Handler := State → State × Option (List Byte)

/-- A refusal, or an OK, that carries its result code alone. -/
def plainly (r : Result) : Handler := fun s => (s, some [r.code])

/-- A frame has been judged: the receiver is in BREAK-HUNT (R168). One that took it sample by sample has entered it already and goes on
with its samples as they came (R167). -/
def Link.frameTaken (k : Link) : Link := { k with rx := if k.rx.state = .breakHunt then k.rx else .hunting }

/-- The KIND of a BUSY reply (R170). -/
def busyReplyKind (kind : Byte) : Byte := if kind.toNat < 128 then kind + 0x80 else Config.busyKind kind

/-- A request on a link that has one outstanding is answered BUSY, or discarded while a BUSY reply waits (R171). -/
def Link.busy (tag kind : Byte) (k : Link) : Link :=
  if k.ready.any (·.busy) then k
  else { k with ready := k.ready ++ [⟨⟨tag, busyReplyKind kind, [Result.busy.code]⟩, true⟩] }

/-- The request is outstanding from now (R171). -/
def Link.take (tag kind : Byte) (k : Link) : Link := { k with outstanding := some ⟨tag, kind, false⟩ }

/-- Steps 3 to 5 of R170. -/
def examine (l : LinkId) (lengthFits masterOnly : Bool) (handle : Handler) : Handler := fun s =>
  if !lengthFits then plainly .badLength s
  else if masterOnly ∧ (s.links.link l).role ≠ .master then plainly .notMaster s
  else handle s

/-- Whether a frame that now arrives whole on a link is seen: a break came before it, so the receiver awaits its LEN (R167). -/
def awaitsFrame (l : LinkId) (s : State) : Bool := decide ((s.links.link l).rx.state = .awaitLen)

/-- A request taken on a link (R170, R171). -/
def takeRequest (l : LinkId) (tag kind : Byte) (lengthFits masterOnly : Bool) (handle : Handler) (s : State) : State :=
  let s := modLink l Link.frameTaken s
  if (s.links.link l).outstanding.isSome then modLink l (Link.busy tag kind) s
  else
    match examine l lengthFits masterOnly handle (modLink l (Link.take tag kind) s) with
    | (s', none) => s'
    | (s', some payload) => modLink l (Link.answer payload) s'

/-- A frame whose KIND names a request arrives on a link (R167 to R171). -/
def request (l : LinkId) (tag kind : Byte) (lengthFits masterOnly : Bool) (handle : Handler) (s : State) : State :=
  if awaitsFrame l s then takeRequest l tag kind lengthFits masterOnly handle s else s

/-- The BAD-KIND reply (R170): KIND plus 0x80, or 0xFF to a KIND of 0x80 or above. -/
def badKindFrame (tag kind : Byte) : Frame :=
  ⟨tag, if kind.toNat < 128 then kind + 0x80 else 0xFF, [Result.badKind.code]⟩

/-- A taken frame whose KIND names no request (R170, R171). -/
def takeBadKind (l : LinkId) (tag kind : Byte) (s : State) : State :=
  let s := modLink l Link.frameTaken s
  if (s.links.link l).outstanding.isSome then modLink l (Link.busy tag kind) s
  else
    modLink l (fun k => { k with
      outstanding := some ⟨tag, kind, true⟩
      ready := k.ready ++ [⟨badKindFrame tag kind, false⟩] }) s

/-- A frame whose KIND names no request arrives on a link (R167 to R171). -/
def badKind (l : LinkId) (tag kind : Byte) (s : State) : State := if awaitsFrame l s then takeBadKind l tag kind s else s

end Sys2Proof.Machine
end

