-- ==== Sys2Proof/Machine/ActuatorCommands.lean ====
section
/-! DEFINITION. The commands of the actuator controller (chapter 5; R186, R187): maintenance, CLEAR-HALT, SETTLE, and the bus. -/

namespace Sys2Proof.Machine

/-! ### SET-MAINT, MAINT-MOVE and CLEAR-HALT (R103 to R106) -/

/-- A queued operation of the group is withdrawn; one in flight stays (R100). -/
def Switching.withdraw (g : GroupId) (w : Switching) : Switching :=
  w.keepOps fun op => !(decide (op.group = g) && !op.inFlight)

/-- SET-MAINT ENTER accepted (R104, R64). -/
def Switching.enterMaint (env : SwEnv) (g : GroupId) (w : Switching) : Switching := (w.withdraw g).stand env g .maint

/-- SET-MAINT LEAVE accepted (R105, R82). -/
def Switching.leaveMaint (env : SwEnv) (g : GroupId) (w : Switching) : Switching := (w.withdraw g).adopt env g

/-- SET-MAINT (R104, R105). -/
def setMaint (payload : List Byte) : Handler := fun s =>
  match indexArg 12 payload, maintAction (byteAt payload 1) with
  | some g, some enters =>
    match s.sw.groups[g] with
    | none => plainly .state s
    | some grp =>
      if enters then
        if grp.state = .adopting then plainly .state s
        else if grp.state = .maint then plainly .ok s
        else (finish .none (inSwitch (fun env => Switching.enterMaint env g) s), some [Result.ok.code])
      else if grp.state ≠ .maint ∨ (s.sw.opOf g).any (·.inFlight) then plainly .state s
      else (finish .none (inSwitch (fun env => Switching.leaveMaint env g) s), some [Result.ok.code])
  | _, _ => plainly .badArg s

/-- SET-MAINT with its checks: what each of its two rows is. -/
def takeSetMaint (l : LinkId) (tag : Byte) (payload : List Byte) (s : State) : State :=
  request l tag 0x28 (payload.length = 2) true (setMaint payload) s

def execSetMaintEnter (l : LinkId) (tag : Byte) (payload : List Byte) (s : State) : Host.Outcome State Fault Refusal :=
  .next (takeSetMaint l tag payload s)

def execSetMaintLeave (l : LinkId) (tag : Byte) (payload : List Byte) (s : State) : Host.Outcome State Fault Refusal :=
  .next (takeSetMaint l tag payload s)

/-- How many MAINTENANCE entries the move queue holds (R106, step 6). -/
def maintenanceCount (w : Switching) : Nat := w.queue.countP fun op => decide (op.cls = .maintenance)

/-- MAINT-MOVE (R106). -/
def maintMove (payload : List Byte) : Handler := fun s =>
  match maintMoveArgs payload with
  | none => plainly .badArg s
  | some (a, pos) =>
    match s.sw.element a with
    | none => plainly .badArg s
    | some el =>
      if !(s.sw.groups[el.group].any fun grp => decide (grp.state = .maint)) then plainly .state s
      else if (s.sw.opOf el.group).isSome then plainly .busy s
      else if 4 ≤ maintenanceCount s.sw then plainly .full s
      else ({ s with sw := (s.sw.place (.new .maintenance (.move a pos) el.group)).arbitrate }, some [Result.ok.code])

def execMaintMove (l : LinkId) (tag : Byte) (payload : List Byte) (s : State) : Host.Outcome State Fault Refusal :=
  .next (request l tag 0x29 (payload.length = 2) true (maintMove payload) s)

/-- CLEAR-HALT (R103). -/
def clearHalt (payload : List Byte) : Handler := fun s =>
  match indexArg 12 payload with
  | none => plainly .badArg s
  | some g =>
    if s.sw.groups[g].any fun grp => decide (grp.state = .frozen) || decide (grp.state = .halted) then
      (finish .none (inSwitch (fun env => Switching.adopt env g) s), some [Result.ok.code])
    else plainly .state s

def execClearHalt (l : LinkId) (tag : Byte) (payload : List Byte) (s : State) : Host.Outcome State Fault Refusal :=
  .next (request l tag 0x2A (payload.length = 1) true (clearHalt payload) s)

/-! ### SETTLE (R107) -/

/-- Whether the move queue and the moving set are both empty. -/
def drained (w : Switching) : Bool := w.queue.isEmpty && w.elements.all fun el => el.moving.isNone

/-- Whether a link has a SETTLE whose reply is still to be formed. -/
def Link.settling (k : Link) : Bool := k.outstanding.any fun o => decide (o.kind = 0x2B) && !o.formed

/-- A link's pending SETTLE reply formed from the list. -/
def Link.settled (gs : List GroupId) (k : Link) : Link :=
  if k.settling then k.answer (okWith (settleBytes gs)) else k

/-- Both pending SETTLE replies are formed from the same list, and the list is emptied once (R107). -/
def settleReplies (s : State) : State :=
  if drained s.sw ∧ (s.links.linkA.settling ∨ s.links.linkB.settling) then
    modLink .a (Link.settled s.sw.settleFail)
      (modLink .b (Link.settled s.sw.settleFail) { s with sw := { s.sw with settleFail := [] } })
  else s

/-- SETTLE (R107): its reply is formed at once when both are empty. -/
def settle : Handler := fun s => (settleReplies s, none)

def execSettle (l : LinkId) (tag : Byte) (payload : List Byte) (s : State) : Host.Outcome State Fault Refusal :=
  .next (request l tag 0x2B (payload.length = 0) false settle s)

/-- SETTLE_REPLY (R107). -/
def execSettleReply (s : State) : Host.Outcome State Fault Refusal := .next (settleReplies s)

/-! ### The bus (R92 to R99, R186, R187) -/

/-- The idle of the bus before a transaction: 2 character times, in µs (R186). -/
def busIdle : Nat := 80

/-- BUS_TRANSACTION_START (R99, R186): the transaction that the arbiter has chosen begins. -/
def execBusTransactionStart (s : State) : Host.Outcome State Fault Refusal :=
  .next
    (match s.sw.bus, s.sw.chosen with
     | none, some c =>
       let s := s.reach (s.sw.busFreeAt + busIdle)
       { s with sw := s.sw.begin s.now c }
     | _, _ => s)

/-- COMMAND_REPEAT (R92, R186). -/
def execCommandRepeat (s : State) : Host.Outcome State Fault Refusal :=
  .next
    (match s.sw.bus.map Transaction.exchange with
     | some (.repeating t) =>
       let s := s.reach t
       { s with sw := s.sw.onRepeat s.now }
     | _ => s)

/-- ANSWER_TIMEOUT (R92). -/
def execAnswerTimeout (s : State) : Host.Outcome State Fault Refusal :=
  .next
    (match s.sw.bus.map Transaction.exchange with
     | some (.awaiting t) => finish .none (inSwitch (fun env => Switching.onAnswerTimeout env) (s.reach t))
     | _ => s)

/-- A run of characters on ACT-RXD taken by the actuator controller: an answer ends the transaction on the bus, and any other run is
discarded, with the exchange left open (R92, R187). The characters of an answer follow the command frame, so the clock is at its end at
least (log entry 36). -/
def answered (f : SwEnv → Switching → Switching) (s : State) : State :=
  let later := s.reach s.sw.frameEnd
  if (f later.swEnv s.sw).bus = s.sw.bus then s else finish .none (inSwitch f later)

/-- POSITION (R91, R93). -/
def execPosition (run : AnswerRun) (position capability partner check : Byte) (s : State) : Host.Outcome State Fault Refusal :=
  .next (answered (fun env =>
    Switching.onPosition env run [run.first, 0x81, position, capability, partner, check] position capability partner) s)

/-- ACCEPTED (R94, R96). -/
def execAccepted (run : AnswerRun) (check : Byte) (s : State) : Host.Outcome State Fault Refusal :=
  .next (answered (fun env => Switching.onAccepted env run [run.first, 0x82, check]) s)

/-- REFUSED (R94 to R96). -/
def execRefused (run : AnswerRun) (fault check : Byte) (s : State) : Host.Outcome State Fault Refusal :=
  .next (answered (fun env => Switching.onRefused env run [run.first, 0x83, fault, check] fault) s)

/-- SINGLE_ONLY (R91, R96). -/
def execSingleOnly (run : AnswerRun) (check : Byte) (s : State) : Host.Outcome State Fault Refusal :=
  .next (answered (fun env => Switching.onSingleOnly env run [run.first, 0x84, check]) s)

/-- MOVING (R95). -/
def execMoving (run : AnswerRun) (check : Byte) (s : State) : Host.Outcome State Fault Refusal :=
  .next (answered (fun env => Switching.onMoving env run [run.first, 0x85, check]) s)

/-- SETTLED (R95, R96). -/
def execSettled (run : AnswerRun) (position check : Byte) (s : State) : Host.Outcome State Fault Refusal :=
  .next (answered (fun env => Switching.onSettled env run [run.first, 0x86, position, check] position) s)

/-- POLL_DUE (R95). -/
def execPollDue (address : Nat) (s : State) : Host.Outcome State Fault Refusal :=
  .next
    (match (s.sw.element address).bind (·.moving) with
     | some ⟨_, .waiting due⟩ =>
       let s := s.reach due
       { s with sw := (s.sw.onPollDue address).arbitrate }
     | _ => s)

/-- How long a move may take, in µs (R95). -/
def moveLimit : Nat := 200000

/-- MOVE_TIMEOUT (R95). -/
def execMoveTimeout (address : Nat) (s : State) : Host.Outcome State Fault Refusal :=
  .next
    (match (s.sw.element address).bind (·.moving) with
     | some m => finish .none (inSwitch (fun env => Switching.onMoveTimeout env address) (s.reach (m.began + moveLimit)))
     | none => s)

end Sys2Proof.Machine
end

