-- ==== Sys2Proof/Machine/AlarmCommands.lean ====
section
/-! DEFINITION. The commands of the alarm unit (chapters 7 and 8): the severity profile, the active alarm list, soak timers, alarm
cut-off and the notice settings. -/

namespace Sys2Proof.Machine

/-- An accepted SET-PROFILE replaces the kind's entry (R141). -/
def writeProfile (k : Fin 21) (e : ProfileEntry) (s : State) : State :=
  { s with alarms := { s.alarms with profile := s.alarms.profile.set k e } }

/-- SET-PROFILE (R141). -/
def setProfile (payload : List Byte) : Handler := fun s =>
  match setProfileArgs payload with
  | none => plainly .badArg s
  | some (k, e) => (finish .none (writeProfile k e s), some (okWith (profileBytes k e)))

def execSetProfile (l : LinkId) (tag : Byte) (payload : List Byte) (s : State) : Host.Outcome State Fault Refusal :=
  .next (request l tag 0x40 (payload.length = 7) true (setProfile payload) s)

/-- GET-PROFILE (R141). -/
def getProfile (payload : List Byte) : Handler := fun s =>
  match indexArg 21 payload with
  | none => plainly .badArg s
  | some k => (s, some (okWith (profileBytes k s.alarms.profile[k])))

def execGetProfile (l : LinkId) (tag : Byte) (payload : List Byte) (s : State) : Host.Outcome State Fault Refusal :=
  .next (request l tag 0x41 (payload.length = 1) false (getProfile payload) s)

/-- READ-ALARMS (R150). -/
def readAlarms (payload : List Byte) : Handler := fun s =>
  if 318 < wordAt payload 0 then plainly .badArg s else (s, some (okWith (readAlarmsBytes s.alarms (wordAt payload 0))))

def execReadAlarms (l : LinkId) (tag : Byte) (payload : List Byte) (s : State) : Host.Outcome State Fault Refusal :=
  .next (request l tag 0x42 (payload.length = 2) false (readAlarms payload) s)

/-- DECLARE_SOAK_EXPIRY (R142). -/
def execDeclareSoakExpiry (k : PointId) (s : State) : Host.Outcome State Fault Refusal :=
  .next
    (match s.alarms.points[k].soak with
     | .declare t => finish (.declare k) (s.reach t)
     | _ => s)

/-- CLEAR_SOAK_EXPIRY (R143). -/
def execClearSoakExpiry (k : PointId) (s : State) : Host.Outcome State Fault Refusal :=
  .next
    (match s.alarms.points[k].soak with
     | .clear t => finish (.clear k) (s.reach t)
     | _ => s)

/-- One ACO (R151, R155). -/
def acknowledge (s : State) : State := { s with alarms := s.alarms.acknowledge }

/-- How long ACO_N must have been high, and then low, for a press, in ms (R156). -/
def acoHold : Nat := 20

/-- The pushbutton's input after ACO_N has been high for a further time and then low (R156): a high after a low counts from its own
beginning, and a low with no high before it goes on with the low under way. -/
def AcoPin.after (high low : Nat) (x : AcoPin) : AcoPin :=
  if high = 0 then ⟨x.high, min acoHold (x.low + low)⟩
  else ⟨min acoHold (if x.low = 0 then x.high + high else high), min acoHold low⟩

/-- Whether a press is taken as the input becomes `y` (R156): ACO_N was high for 20 ms and then low for 20 ms, and this low has given no
press before. -/
def AcoPin.presses (high : Nat) (x y : AcoPin) : Bool :=
  decide (acoHold ≤ y.high) && decide (acoHold ≤ y.low) && !(decide (high = 0) && decide (acoHold ≤ x.low))

/-- The pushbutton's input as given. -/
def pinTo (p : AcoPin) (s : State) : State := { s with alarms := { s.alarms with acoPin := p } }

/-- ACO_PRESS (R156): a press when ACO_N was high for 20 ms and then low for 20 ms; a shorter low, a low after a shorter high or with none
since the full reset, and a low that goes on after its press give none. The times come with the command, counted from the last
ACO_PRESS or full reset (DESIGN CHOICE, log entry 30). -/
def execAcoPress (high low : Nat) (s : State) : Host.Outcome State Fault Refusal :=
  let pin := s.alarms.acoPin.after high low
  .next (if s.alarms.acoPin.presses high pin then acknowledge (pinTo pin s) else pinTo pin s)

/-- ACO (R157): the reply carries the number of points it acknowledged. -/
def aco : Handler := fun s => (acknowledge s, some (okWith (be16 s.alarms.unacknowledged)))

def execAco (l : LinkId) (tag : Byte) (payload : List Byte) (s : State) : Host.Outcome State Fault Refusal :=
  .next (request l tag 0x48 (payload.length = 0) true aco s)

/-- SET-NOTICES (R164). -/
def setNotices (payload : List Byte) : Handler := fun s =>
  match setNoticesArgs payload with
  | none => plainly .badArg s
  | some (sev, grp, tim) =>
    let n := { s.notices with threshold := sev, groupEnable := grp, timingEnable := tim }
    ({ s with notices := n }, some (okWith (noticesBytes n)))

def execSetNotices (l : LinkId) (tag : Byte) (payload : List Byte) (s : State) : Host.Outcome State Fault Refusal :=
  .next (request l tag 0x49 (payload.length = 3) true (setNotices payload) s)

end Sys2Proof.Machine
end

