-- ==== Sys2Proof/Machine/GroupCommands.lean ====
section
/-! DEFINITION. The commands of the protection controller (chapters 3 and 4): group records, external requests, trials, and the
group timers. -/

namespace Sys2Proof.Machine

/-! ### Group records (R45 to R49) -/

/-- Whether a port is a member of another group. -/
def memberElsewhere (groups : Vector (Option Group) 12) (g : GroupId) (p : PortId) : Bool :=
  (List.finRange 12).any fun h => decide (h ≠ g) && groups[h].any fun grp => decide (p ∈ grp.cfg.members)

/-- Whether an address belongs to an element of another group. -/
def elementElsewhere (els : List Element) (g : GroupId) (a : Nat) : Bool :=
  els.any fun el => decide (el.group ≠ g) && decide (el.address = a)

/-- The conflicts of a SET-GROUP (R45, step 5). -/
def groupConflict (s : State) (g : GroupId) (c : GroupConfig) : Bool :=
  decide (¬ c.members.Nodup) || c.members.any (fun p => !s.ports[p].cfg.enabled || memberElsewhere s.sw.groups g p)
    || c.addresses.any (elementElsewhere s.sw.elements g)

/-- An accepted SET-GROUP: creation, or rebuild in MAINT, and what line references take from it (R46, R47, R115). -/
def writeGroup (g : GroupId) (c : GroupConfig) (s : State) : State :=
  let env := s.swEnv
  let s : State :=
    { s with sw := if s.sw.groups[g].isNone then s.sw.create env g c else s.sw.rebuild env g c }
  { s with timing := s.timing.regroup s.timingEnv g }

/-- SET-GROUP (R45). -/
def setGroup (payload : List Byte) : Handler := fun s =>
  match setGroupHead payload with
  | none => plainly .badArg s
  | some (g, type, ends, revertive) =>
    if s.sw.groups[g].any fun grp => decide (grp.state ≠ .maint) then plainly .state s
    else
      match setGroupConfig type ends revertive payload with
      | none => plainly .badArg s
      | some c =>
        if groupConflict s g c then plainly .conflict s
        else (finish .none (writeGroup g c s), some (okWith (groupBytes g c)))

/-- The length a SET-GROUP must have: 12 plus its working-port count (R182). -/
def setGroupFits (payload : List Byte) : Bool :=
  decide (5 ≤ payload.length) && decide (payload.length = 12 + groupCount payload)

def execSetGroup (l : LinkId) (tag : Byte) (payload : List Byte) (s : State) : Host.Outcome State Fault Refusal :=
  .next (request l tag 0x20 (setGroupFits payload) true (setGroup payload) s)

/-- Whether a group may be deleted (R48). -/
def deletable (w : Switching) (g : GroupId) : Bool :=
  w.groups[g].any (fun grp => decide (grp.state = .maint) || decide (grp.state = .frozen) || decide (grp.state = .halted))
    && (w.opOf g).isNone

/-- An accepted DELETE-GROUP (R48, R115). -/
def removeGroup (g : GroupId) (s : State) : State :=
  let s : State := { s with sw := s.sw.delete s.swEnv g }
  { s with timing := s.timing.regroup s.timingEnv g }

/-- DELETE-GROUP (R48). -/
def deleteGroup (payload : List Byte) : Handler := fun s =>
  match indexArg 12 payload with
  | none => plainly .badArg s
  | some g => if deletable s.sw g then (finish .none (removeGroup g s), some [Result.ok.code]) else plainly .state s

def execDeleteGroup (l : LinkId) (tag : Byte) (payload : List Byte) (s : State) : Host.Outcome State Fault Refusal :=
  .next (request l tag 0x21 (payload.length = 1) true (deleteGroup payload) s)

/-- GET-GROUP (R49): an UNCONFIGURED group is its state code alone. -/
def getGroup (payload : List Byte) : Handler := fun s =>
  match indexArg 12 payload with
  | none => plainly .badArg s
  | some g =>
    match s.sw.groups[g] with
    | none => (s, some (okWith [0]))
    | some grp => (s, some (okWith (groupBytes g grp.cfg)))

def execGetGroup (l : LinkId) (tag : Byte) (payload : List Byte) (s : State) : Host.Outcome State Fault Refusal :=
  .next (request l tag 0x22 (payload.length = 1) false (getGroup payload) s)

/-- GROUP-STATUS (R49). -/
def groupStatus (payload : List Byte) : Handler := fun s =>
  match indexArg 12 payload with
  | none => plainly .badArg s
  | some g =>
    match s.sw.groups[g] with
    | none => (s, some (okWith [0]))
    | some grp => (s, some (okWith (groupStatusBytes s grp)))

def execGroupStatus (l : LinkId) (tag : Byte) (payload : List Byte) (s : State) : Host.Outcome State Fault Refusal :=
  .next (request l tag 0x23 (payload.length = 1) false (groupStatus payload) s)

/-! ### PROT-REQUEST (R61 to R63) -/

/-- The states in which PROT-REQUEST is refused STATE (R61, step 2). -/
def GroupState.deaf : GroupState → Bool
  | .adopting | .maint | .frozen | .halted => true
  | .idle | .bridging | .awaitFar | .selecting | .switched | .releasing | .recovering => false

/-- Whether a request's member lies outside what its kind takes: 1..N for FORCE, MANUAL and TRIAL (R61, step 3). -/
def memberBad (grp : Group) (k : ReqKind) (m : Nat) : Bool := k.hasMember && !(decide (1 ≤ m) && decide (m ≤ grp.cfg.count))

/-- Whether an existing external request of higher code refuses the new one (R61, step 5). -/
def externalOutranks (grp : Group) (k : ReqKind) : Bool :=
  k.hasMember && grp.external.any fun r => decide (k.code < r.kind.code)

/-- The kind's own test: the refusal it makes, if any (R62). -/
def kindRefusal (s : State) (grp : Group) (r : Request) : Option Result :=
  match r.kind with
  | .force => if grp.effective.kind = .bar ∨ grp.effective.kind = .failP then some .priority else none
  | .manual =>
    if (({ grp with external := none } : Group).form s.swEnv (s.sw.selected grp)).effective.outranks r then some .priority
    else none
  | .trial => if grp.effective ≠ Request.none ∨ s.sw.selected grp ≠ some 0 then some .state else none
  | _ => none

/-- A TRIAL starts: its result becomes none, and a dual-ended group starts its trial timer at 2,000 ms (R62, R86). -/
def Group.startTrial (now : Nat) (grp : Group) : Group :=
  { grp with trialResult := .none, trialTimer := if grp.cfg.ends = .dual then some (now + 2000000) else none }

/-- An accepted BAR, FORCE, MANUAL or TRIAL becomes the external request (R62); a single-ended trial queues its read (R87). -/
def Switching.accept (env : SwEnv) (g : GroupId) (r : Request) (w : Switching) : Switching :=
  match r.kind with
  | .trial =>
    (w.event env g fun w => (w.setExternal g (some r)).modGroup g (Group.startTrial env.now)).placeTrialRead g
  | _ => w.event env g (Switching.setExternal g (some r))

/-- An accepted CLEAR (R63). -/
def Switching.acceptClear (env : SwEnv) (g : GroupId) (w : Switching) : Switching := w.event env g (Switching.clearExternal env g)

/-- The request a payload asks for: the member is ignored for BAR and CLEAR (R61). -/
def protRequestOf (k : ReqKind) (payload : List Byte) : Request := ⟨k, if k.hasMember then (byteAt payload 2).toNat else 0⟩

/-- A PROT-REQUEST reply: the result, the external request and E as they stand (R61). -/
def protReply (r : Result) (g : Option GroupId) (s : State) : List Byte :=
  r.code :: protFields (g.bind fun g => s.sw.groups[g])

/-- Steps 2 to 6 of R61 for a configured group: the refusal, if any. -/
def protRefusal (s : State) (grp : Group) (r : Request) : Option Result :=
  if grp.state.deaf then some .state
  else if memberBad grp r.kind r.member then some .badArg
  else if externalOutranks grp r.kind then some .priority
  else kindRefusal s grp r

/-- What an accepted PROT-REQUEST does. -/
def protAccepted (g : GroupId) (r : Request) (s : State) : State :=
  finish .none (inSwitch (fun env w => if r.kind = .none then w.acceptClear env g else w.accept env g r) s)

/-- PROT-REQUEST (R61). -/
def protRequest (payload : List Byte) : Handler := fun s =>
  match indexArg 12 payload, protKind (byteAt payload 1) with
  | some g, some k =>
    match s.sw.groups[g] with
    | none => (s, some (protReply .state (some g) s))
    | some grp =>
      match protRefusal s grp (protRequestOf k payload) with
      | some res => (s, some (protReply res (some g) s))
      | none =>
        let s' := protAccepted g (protRequestOf k payload) s
        (s', some (protReply .ok (some g) s'))
  | g, _ => (s, some (protReply .badArg g s))

/-- PROT-REQUEST with its checks: what each of its five rows is (R61 to R63, R170). -/
def takeProtRequest (l : LinkId) (tag : Byte) (payload : List Byte) (s : State) : State :=
  request l tag 0x24 (payload.length = 3) true (protRequest payload) s

def execProtRequestBar (l : LinkId) (tag : Byte) (payload : List Byte) (s : State) : Host.Outcome State Fault Refusal :=
  .next (takeProtRequest l tag payload s)

def execProtRequestForce (l : LinkId) (tag : Byte) (payload : List Byte) (s : State) : Host.Outcome State Fault Refusal :=
  .next (takeProtRequest l tag payload s)

def execProtRequestManual (l : LinkId) (tag : Byte) (payload : List Byte) (s : State) : Host.Outcome State Fault Refusal :=
  .next (takeProtRequest l tag payload s)

def execProtRequestTrial (l : LinkId) (tag : Byte) (payload : List Byte) (s : State) : Host.Outcome State Fault Refusal :=
  .next (takeProtRequest l tag payload s)

def execProtRequestClear (l : LinkId) (tag : Byte) (payload : List Byte) (s : State) : Host.Outcome State Fault Refusal :=
  .next (takeProtRequest l tag payload s)

/-! ### Group timers (R55, R77, R86) -/

/-- RESTORE_WAIT_EXPIRY (R55): the stay request becomes NONE. -/
def execRestoreWaitExpiry (g : GroupId) (s : State) : Host.Outcome State Fault Refusal :=
  .next
    (match s.sw.groups[g].bind (·.restoreTimer) with
     | none => s
     | some t =>
       finish .none (inSwitch (fun env w => w.event env g fun w => w.modGroup g Group.dropStay) (s.reach t)))

/-- AWAIT_FAR_TIMEOUT (R77): FAR-BRIDGE-TIMEOUT becomes present, and the group waits on. -/
def execAwaitFarTimeout (g : GroupId) (s : State) : Host.Outcome State Fault Refusal :=
  .next
    (match s.sw.groups[g].bind (·.awaitTimer) with
     | none => s
     | some t =>
       let s := s.reach t
       finish .none { s with sw := s.sw.modGroup g fun grp => { grp with awaitTimer := none, farBridgeTimeout := true } })

/-- TRIAL_TIMER_EXPIRY (R86): the trial ends with FAIL. -/
def execTrialTimerExpiry (g : GroupId) (s : State) : Host.Outcome State Fault Refusal :=
  .next
    (match s.sw.groups[g].bind (·.trialTimer) with
     | none => s
     | some t =>
       finish .none (inSwitch (fun env w => w.event env g fun w => w.endTrial env g .fail) (s.reach t)))

end Sys2Proof.Machine
end

