-- ==== Sys2Proof/Machine/LinkCommands.lean ====
section
/-! DEFINITION. The commands of the link supervisor (chapters 8 and 9): mastership, the link-watch, RESTART, IDENTIFY, and the
links' receivers and transmitters. -/

namespace Sys2Proof.Machine

/-! ### Mastership (R158, R173, R174, R176, R177) -/

/-- SHF judged afresh (R158): closed exactly when no master has been granted or the lapse count has reached its limit. -/
def LinkSupervisor.judgeShf (x : LinkSupervisor) : LinkSupervisor :=
  { x with shf := !x.everGranted || decide (x.lapseLimit ≤ x.lapses) }

/-- The period timer started with the period in force (R174, R175). -/
def LinkSupervisor.startPeriod (now : Nat) (x : LinkSupervisor) : LinkSupervisor :=
  { x with periodTimer := some ⟨now + x.period * 1000, x.period * 1000⟩, earlyStart := now }

/-- A new challenge drawn (R175). -/
def LinkSupervisor.draw (x : LinkSupervisor) : LinkSupervisor :=
  { x with challenge := some (Config.challenge x.draws), draws := x.draws + 1 }

/-- What a grant does in the link supervisor (R174). -/
def LinkSupervisor.grant (l : LinkId) (now : Nat) (x : LinkSupervisor) : LinkSupervisor :=
  ({ ((x.modLink l fun k => { k with role := .master }).draw).startPeriod now with run := 0, everGranted := true }).judgeShf

/-- A grant (R174), with the OVERFLOW notice of a queue that was empty (R162). -/
def grant (l : LinkId) (s : State) : State :=
  { s with links := s.links.grant l s.now, notices := s.notices.tellOverflow }

/-- A notice of the link supervisor (R161). -/
def raise (n : Notice) (s : State) : State := { s with raised := s.raised ++ [n] }

/-- The last challenge, 0 before the first. -/
def LinkSupervisor.lastChallenge (x : LinkSupervisor) : Byte := x.challenge.getD 0

/-- The master leaves: a waiting claimant is granted by handover, and otherwise the part becomes masterless (R174). -/
def depart (l : LinkId) (s : State) : State :=
  let s : State := { s with links := { s.links.modLink l fun k => { k with role := .observer } with periodTimer := none } }
  if (s.links.link (otherLink l)).role = .claimant then
    let s := grant (otherLink l) s
    raise (.granted s.links.lastChallenge) s
  else masterless s

/-- The counts at a lapse (R176, R177, R158). -/
def LinkSupervisor.lapse (x : LinkSupervisor) : LinkSupervisor :=
  ({ x with lapses := min 4 (x.lapses + 1), run := 0 }).judgeShf

/-- A lapse of the master link (R176). -/
def lapse (l : LinkId) (s : State) : State := depart l { s with links := s.links.lapse }

/-- CLAIM (R173). -/
def claim (l : LinkId) : Handler := fun s =>
  match (s.links.link l).role, (s.links.link (otherLink l)).role with
  | .master, _ => (s, some (okWith [s.links.lastChallenge]))
  | .claimant, _ => (s, some [Result.pending.code, 0])
  | .observer, .master =>
    (finish .none (raise .claimPending (modLink l (fun k => { k with role := .claimant }) s)), some [Result.pending.code, 0])
  | .observer, _ =>
    let s' := finish .none (grant l s)
    (s', some (okWith [s'.links.lastChallenge]))

def execClaim (l : LinkId) (tag : Byte) (payload : List Byte) (s : State) : Host.Outcome State Fault Refusal :=
  .next (request l tag 0x02 (payload.length = 0) false (claim l) s)

/-- RELEASE (R174). -/
def release (l : LinkId) : Handler := fun s => (finish .none (depart l s), some [Result.ok.code])

def execRelease (l : LinkId) (tag : Byte) (payload : List Byte) (s : State) : Host.Outcome State Fault Refusal :=
  .next (request l tag 0x03 (payload.length = 0) true (release l) s)

/-! ### The link-watch (R175 to R178) -/

/-- Whether a KEEPALIVE comes too early: less than half the running timer's length after the start of the early window (R175). -/
def LinkSupervisor.early (now : Nat) (x : LinkSupervisor) : Bool :=
  x.periodTimer.any fun t => decide ((now - x.earlyStart) * 2 < t.length)

/-- Whether a KEEPALIVE is a lapse (R175). -/
def LinkSupervisor.watchFails (now : Nat) (response : Byte) (x : LinkSupervisor) : Bool :=
  match x.mode with
  | .plain => false
  | .window => x.early now
  | .challenge => x.early now || decide (x.challenge ≠ some (~~~response))

/-- An accepted KEEPALIVE (R175, R177, R158). -/
def LinkSupervisor.keep (now : Nat) (x : LinkSupervisor) : LinkSupervisor :=
  let y := x.draw.startPeriod now
  let run := min 3 (x.run + 1)
  ({ y with run := run, lapses := if run = 3 then 0 else x.lapses }).judgeShf

/-- KEEPALIVE (R175, R176). -/
def keepalive (l : LinkId) (payload : List Byte) : Handler := fun s =>
  if s.links.watchFails s.now (byteAt payload 0) then
    let s' := finish .none (lapse l s)
    (s', some (Result.state.code :: keepaliveBytes 0 s'.links))
  else
    let s' := finish .none { s with links := s.links.keep s.now }
    (s', some (okWith (keepaliveBytes s'.links.lastChallenge s'.links)))

def execKeepalive (l : LinkId) (tag : Byte) (payload : List Byte) (s : State) : Host.Outcome State Fault Refusal :=
  .next (request l tag 0x04 (payload.length = 1) true (keepalive l payload) s)

/-- PERIOD_TIMER_EXPIRY (R176). -/
def execPeriodTimerExpiry (s : State) : Host.Outcome State Fault Refusal :=
  .next
    (match s.links.periodTimer, s.links.master with
     | some t, some l => finish .none (lapse l (s.reach t.expiry))
     | _, _ => s)

/-- SET-LINK-WATCH (R178, R158). -/
def setLinkWatch (payload : List Byte) : Handler := fun s =>
  match setLinkWatchArgs payload with
  | none => plainly .badArg s
  | some (mode, period, limit) =>
    let links := ({ s.links with mode := mode, period := period, lapseLimit := limit }).judgeShf
    (finish .none { s with links := links }, some (okWith (linkWatchBytes links)))

def execSetLinkWatch (l : LinkId) (tag : Byte) (payload : List Byte) (s : State) : Host.Outcome State Fault Refusal :=
  .next (request l tag 0x05 (payload.length = 4) true (setLinkWatch payload) s)

/-! ### RESTART and IDENTIFY (R179, R180) -/

def execRestart (l : LinkId) (tag : Byte) (payload : List Byte) (s : State) : Host.Outcome State Fault Refusal :=
  .next (request l tag 0x06 (payload.length = 0) true (plainly .ok) s)

/-- Whether a frame is the OK reply of a RESTART. -/
def Frame.isRestartReply (f : Frame) : Bool := decide (f.kind = 0x86) && decide (f.payload = [Result.ok.code])

/-- The RESTART reply in transmission on a link, with its end. -/
def Link.restarting (k : Link) : Option Nat :=
  match k.sending with
  | some (f, ends) => if f.isRestartReply then some ends else none
  | none => none

/-- A link at the effects of RESTART (R179): the frame in assembly is discarded, while the receiver goes on sampling its line, so that a
break under way is still recognised (R166, R167); a frame in transmission is sent whole. -/
def Link.restart (k : Link) : Link :=
  { k with rx := k.rx.discard, outstanding := none, ready := [], role := .observer }

/-- The link supervisor and the notice queue at the effects of RESTART (R165, R179). -/
def restartLinks (s : State) : State :=
  { s with
    links := { s.links with linkA := s.links.linkA.restart, linkB := s.links.linkB.restart, periodTimer := none }
    notices := { s.notices with queue := [], overflow := true } }

/-- RESTART_TAKES_EFFECT (R179): at the end of the RESTART reply frame. -/
def execRestartTakesEffect (l : LinkId) (s : State) : Host.Outcome State Fault Refusal :=
  .next
    (match (s.links.link l).restarting with
     | none => s
     | some ends =>
       let s := modLink l (fun k => { k with sending := none }) (s.reach ends)
       finish .none (masterless (resumeTest (restartLinks s))))

/-- IDENTIFY (R180). -/
def identify : Handler := fun s => (s, some (okWith (identifyBytes s.links)))

def execIdentify (l : LinkId) (tag : Byte) (payload : List Byte) (s : State) : Host.Outcome State Fault Refusal :=
  .next (request l tag 0x01 (payload.length = 0) false identify s)

/-- REQUEST_BAD_KIND (R170, R182): a KIND that names a request draws no BAD-KIND. -/
def execRequestBadKind (l : LinkId) (tag kind : Byte) (_payload : List Byte) (s : State) : Host.Outcome State Fault Refusal :=
  .next (if kind ∈ requestKinds then s else badKind l tag kind s)

/-! ### Transmitters (R163, R166, R172) -/

/-- The rate a strap code selects, in bit/s (R166). -/
def linkRate (code : BitVec 2) : Nat :=
  match code.toNat with
  | 0 => 57600 | 1 => 115200 | 2 => 230400 | _ => 460800

/-- The bit times of a frame with this many characters: break, 2 at 1, characters of 10, 2 at 1 (R172). -/
def frameBits (characters : Nat) : Nat := 24 + 2 + 10 * characters + 2

/-- How long a frame takes, in µs, rounded up. -/
def frameTime (code : BitVec 2) (f : Frame) : Nat :=
  (frameBits f.bytes.length * 1000000 + linkRate code - 1) / linkRate code

/-- The moment a link's transmitter is free (R172). -/
def Link.freeAt (now : Nat) (k : Link) : Nat := (k.sending.map (·.2)).getD now

/-- A frame begins on a link's transmitter. -/
def Link.beginFrame (f : Frame) (ends : Nat) (k : Link) : Link := { k with sending := some (f, ends) }

/-- The oldest ready reply leaves as its frame begins; the request it answers is outstanding no longer, unless it is the BUSY reply
of another (R171, R172). -/
def Link.popReply (r : Reply) (rest : List Reply) (k : Link) : Link :=
  { k with ready := rest, outstanding := if r.busy then k.outstanding else none }

/-- REPLY_SEND (R172). The transmitter that has sent a RESTART reply is free after RESTART has taken effect (R179). -/
def execReplySend (l : LinkId) (s : State) : Host.Outcome State Fault Refusal :=
  .next
    (match (s.links.link l).ready with
     | [] => s
     | r :: rest =>
       if (s.links.link l).restarting.isSome then s
       else
         let s := s.reach ((s.links.link l).freeAt s.now)
         modLink l (fun k => (k.popReply r rest).beginFrame r.frame (s.now + frameTime s.links.rate r.frame)) s)

/-- The head notice leaves; an OVERFLOW notice follows the last one while the flag is set (R162, R163). -/
def Notices.pop (rest : List Notice) (q : Notices) : Notices := ({ q with queue := rest }).tellOverflow

/-- NOTICE_SEND (R163, R172). -/
def execNoticeSend (s : State) : Host.Outcome State Fault Refusal :=
  .next
    (match s.links.master, s.notices.queue with
     | some l, n :: rest =>
       if (s.links.link l).ready = [] ∧ (s.links.link l).restarting.isNone then
         let s := s.reach ((s.links.link l).freeAt s.now)
         let s := modLink l (Link.beginFrame n.frame (s.now + frameTime s.links.rate n.frame)) s
         { s with notices := s.notices.pop rest }
       else s
     | _, _ => s)

end Sys2Proof.Machine
end

