-- ==== Sys2Proof/Machine/PortCommands.lean ====
section
/-! DEFINITION. The commands of the pilot units and the cable port records (chapter 1): requests on ports, ranges and the shelf
identity, pilot reception and transmission, and the cable test. -/

namespace Sys2Proof.Machine

/-! ### Port records (R2 to R6) -/

/-- The ADC at rest begins a conversion on the port just enabled (R26). -/
def scanEnabled (p : PortId) (s : State) : State :=
  match s.conversion with
  | none => { s with conversion := conversionOf s.now (some p) }
  | some _ => s

/-- The code of a conversion under way on a port just disabled will be discarded (R27). -/
def scanDisabled (p : PortId) (s : State) : State :=
  { s with conversion := s.conversion.map fun c => if c.port = p then { c with used := false } else c }

/-- An accepted SET-PORT (R3 to R5). -/
def writePort (p : PortId) (cfg : PortRecord) (s : State) : State :=
  let old := s.ports[p]
  match old.cfg.enabled, cfg.enabled with
  | false, true => scanEnabled p (setPortTo p (Port.startService s.now cfg) s)
  | true, false => abortBroken (scanDisabled p (setPortTo p (Port.disabled cfg) s))
  | true, true => portEvent p (Port.rewrite cfg) s
  | false, false => { s with ports := s.ports.set p { old with cfg := cfg } }

/-- SET-PORT (R2). -/
def setPort (payload : List Byte) : Handler := fun s =>
  match setPortArgs payload with
  | none => plainly .badArg s
  | some (p, cfg) =>
    if cfg.enabled = false ∧ (memberOf s.sw.groups p).isSome then plainly .conflict s
    else (finish .none (writePort p cfg s), some (okWith (portRecordBytes p cfg)))

def execSetPort (l : LinkId) (tag : Byte) (payload : List Byte) (s : State) : Host.Outcome State Fault Refusal :=
  .next (request l tag 0x10 (payload.length = 24) true (setPort payload) s)

/-- GET-PORT (R6). -/
def getPort (payload : List Byte) : Handler := fun s =>
  match indexArg 32 payload with
  | none => plainly .badArg s
  | some p => (s, some (okWith (portRecordBytes p s.ports[p].cfg)))

def execGetPort (l : LinkId) (tag : Byte) (payload : List Byte) (s : State) : Host.Outcome State Fault Refusal :=
  .next (request l tag 0x11 (payload.length = 1) false (getPort payload) s)

/-- PORT-STATUS (R6). -/
def portStatus (payload : List Byte) : Handler := fun s =>
  match indexArg 32 payload with
  | none => plainly .badArg s
  | some p => (s, some (okWith (portStatusBytes s p)))

def execPortStatus (l : LinkId) (tag : Byte) (payload : List Byte) (s : State) : Host.Outcome State Fault Refusal :=
  .next (request l tag 0x12 (payload.length = 1) false (portStatus payload) s)

/-! ### Shelf identity (R7) and ranges (R8, R9) -/

/-- SET-SHELF-ID (R7). -/
def setShelfId (payload : List Byte) : Handler := fun s =>
  let slot := byteOf (clampNat 0 63 (byteAt payload 1).toNat)
  ({ s with shelf := byteAt payload 0, slot := slot }, some (okWith [byteAt payload 0, slot]))

def execSetShelfId (l : LinkId) (tag : Byte) (payload : List Byte) (s : State) : Host.Outcome State Fault Refusal :=
  .next (request l tag 0x13 (payload.length = 2) true (setShelfId payload) s)

/-- The groups a member of which has another range status than before (R52). -/
def rangedGroups (before after : Vector RangeEntry 4) (groups : Vector (Option Group) 12) : List GroupId :=
  (List.finRange 12).filter fun g =>
    groups[g].any fun grp => grp.cfg.members.any fun p => decide (rangeStatus before p ≠ rangeStatus after p)

/-- A range entry replaced: the groups of the ports whose status changed, and a running cable test (R9, R24, R52). -/
def writeRange (i : Fin 4) (e : RangeEntry) (s : State) : State :=
  let ranges := s.ranges.set i e
  abortBroken
    (groupsInTurn (rangedGroups s.ranges ranges s.sw.groups) (fun g env => Switching.event env g id) { s with ranges := ranges })

/-- SET-RANGE (R8). -/
def setRange (payload : List Byte) : Handler := fun s =>
  match setRangeArgs payload with
  | none => plainly .badArg s
  | some (i, e) => (finish .none (writeRange i e s), some (okWith (rangeBytes i.val e)))

def execSetRange (l : LinkId) (tag : Byte) (payload : List Byte) (s : State) : Host.Outcome State Fault Refusal :=
  .next (request l tag 0x14 (payload.length = 5) true (setRange payload) s)

/-- GET-RANGES (R8). -/
def getRanges : Handler := fun s => (s, some (okWith (rangesBytes s.ranges)))

def execGetRanges (l : LinkId) (tag : Byte) (payload : List Byte) (s : State) : Host.Outcome State Fault Refusal :=
  .next (request l tag 0x15 (payload.length = 0) false getRanges s)

/-! ### Pilot reception (R10 to R18) -/

/-- PILOT_MESSAGE (R14): a complete message is judged, whatever the assembly held; a message given character by character is judged
at its ninth PILOT_CHARACTER_TAKEN (DESIGN CHOICE, log entry 39). -/
def execPilotMessage (p : PortId) (body : Vector Byte 8) (noise : Bool) (s : State) : Host.Outcome State Fault Refusal :=
  .next (if listening s p then finish .none (portEvent p (Port.wholeMessage s.now body noise) s) else s)

/-- PILOT_CHARACTER_TAKEN (R10 to R13): each message that its samples end is an event of its own (R38), at the moment of the command
(DESIGN CHOICE, log entry 51). -/
def execPilotCharacterTaken (p : PortId) (search samples : List Bool) (s : State) : Host.Outcome State Fault Refusal :=
  .next (if listening s p then pilotSamples p (search ++ samples) s else s)

/-- TRUNCATED_MESSAGE (R13): the samples over which the allowance runs out; each message that they end is an event of its own (R38), at
the moment of the command (DESIGN CHOICE, log entry 51). -/
def execTruncatedMessage (pin : PilotSamples) (s : State) : Host.Outcome State Fault Refusal :=
  .next (if listening s pin.port then pilotSamples pin.port pin.samples s else s)

/-- LOSS_TIMER_EXPIRY (R17). -/
def execLossTimerExpiry (p : PortId) (s : State) : Host.Outcome State Fault Refusal :=
  .next
    (match s.ports[p].lossTimer with
     | some t => finish .none (portEvent p Port.loss (s.reach t))
     | none => s)

/-! ### Pilot transmission (R19, R20) -/

/-- PILOT_TRANSMIT (R20): the next message is built from the state of its first start bit. -/
def execPilotTransmit (p : PortId) (s : State) : Host.Outcome State Fault Refusal :=
  .next
    (match s.ports[p].tx.phase with
     | .leadIn | .message =>
       let s := s.reach s.ports[p].tx.nextAt
       { s with ports := upd s.ports p fun x => { x with tx := ⟨.message, s.now, s.now + messagePeriod, pilotBytes s p⟩ } }
     | .off | .test => s)

/-! ### The cable test (R21 to R24) -/

/-- The out side at acceptance: FINISH while a message is in transmission, and otherwise LEAD (R22). -/
def outStart (now : Nat) (tx : PilotTx) : OutPhase × Nat :=
  if tx.phase = .message ∧ now < tx.begun + messageTime then (.finish, tx.begun + messageTime) else (.lead, now + 2000)

/-- The in side takes over a receiver (R23). -/
def Port.testIn (p : Port) : Port :=
  { p with
    rx := ⟨p.rx.running, .search 0⟩, asm := .hunt, traceCand := none, flagsCand := none, qualityCand := none, protCand := none,
    lossTimer := none }

/-- A test begins (R21 to R23). -/
def startTest (l : LinkId) (a : TestArgs) (s : State) : State :=
  let out := outStart s.now s.ports[a.outPort].tx
  { s with
    cableTest :=
      some
        { outPort := a.outPort, inPort := a.inPort, length := a.length, late := a.late, link := l, outPhase := out.1,
          inPhase := .awaitMarker, compared := 0, acceptedAt := s.now, phaseEnds := out.2, outReg := 0x7F, inReg := 0x7F }
    ports := upd (upd s.ports a.outPort fun x => { x with tx := { x.tx with phase := .test } }) a.inPort Port.testIn }

/-- CABLE-TEST (R21). -/
def cableTest (l : LinkId) (payload : List Byte) : Handler := fun s =>
  match cableTestArgs payload with
  | none => plainly .badArg s
  | some a =>
    if s.ports[a.outPort].cfg.enabled = false ∨ s.ports[a.inPort].cfg.enabled = false
        ∨ rangeStatus s.ranges a.outPort = .none ∨ rangeStatus s.ranges a.inPort = .none then plainly .badArg s
    else if s.cableTest.isSome then plainly .busy s
    else if s.ports[a.inPort].powerState = .lost then (s, some (testReply .noLight 0))
    else (startTest l a s, none)

def execCableTest (l : LinkId) (tag : Byte) (payload : List Byte) (s : State) : Host.Outcome State Fault Refusal :=
  .next (request l tag 0x16 (payload.length = 5) true (cableTest l payload) s)

/-- The out side goes on to its next phase at the end of the one it is in. -/
def outOn (phase : OutPhase) (f : Nat → CableTest → CableTest) (s : State) : State :=
  match s.cableTest with
  | none => s
  | some t =>
    if t.outPhase = phase then
      let s := s.reach t.phaseEnds
      { s with cableTest := some (f s.now t) }
    else s

/-- CABLE_TEST_LEAD (R22): 16 idle bit times begin. -/
def execCableTestLead (s : State) : Host.Outcome State Fault Refusal :=
  .next (outOn .finish (fun now t => { t with outPhase := .lead, phaseEnds := now + 2000 }) s)

/-- The L bits of the sequence begin at the end of the marker (R22). -/
def CableTest.beginSequence (now : Nat) (t : CableTest) : CableTest :=
  { t with outPhase := .sequence, phaseEnds := now + 125 * t.length }

/-- CABLE_TEST_MARKER_SENT (R22): at the end of LEAD the marker bit begins; the same command at its end begins the sequence (DESIGN
CHOICE, log entry 29: the table has one row for the two). -/
def execCableTestMarkerSent (s : State) : Host.Outcome State Fault Refusal :=
  .next
    (if s.cableTest.any (fun t => decide (t.outPhase = .marker)) then outOn .marker CableTest.beginSequence s
     else outOn .lead (fun now t => { t with outPhase := .marker, phaseEnds := now + 125 }) s)

/-- CABLE_TEST_SEQUENCE_END (R22): bit L has been sent. An out side still in MARKER has gone through its sequence before (log entry
29). -/
def execCableTestSequenceEnd (s : State) : Host.Outcome State Fault Refusal :=
  .next
    (outOn .sequence (fun _ t => { t with outPhase := .done, outReg := sequenceAdvance t.length t.outReg })
      (outOn .marker CableTest.beginSequence s))

/-- The receiver of the in side after the samples in which it has looked for its marker. -/
def Port.seek (samples : List Bool) (p : Port) : Port :=
  if p.rx.running then { p with rx := ⟨p.rx.running, (seekMarker samples p.rx.chars).1⟩ } else p

/-- Whether the in side finds its marker in these samples (R23). -/
def Port.finds (samples : List Bool) (p : Port) : Bool := p.rx.running && (seekMarker samples p.rx.chars).2

/-- CABLE_TEST_MARKER (R23): the in side looks for its marker in the samples its receiver has taken. -/
def execCableTestMarker (search start : List Bool) (s : State) : Host.Outcome State Fault Refusal :=
  .next
    (match s.cableTest with
     | none => s
     | some t =>
       if t.inPhase = .awaitMarker then
         let samples := search ++ start
         { s with
           ports := upd s.ports t.inPort (Port.seek samples)
           cableTest := some { t with inPhase := if s.ports[t.inPort].finds samples then .compare else .awaitMarker } }
       else s)

/-- Whether a bit's chosen sample, 7 or 10, is 1 (R21, R23). -/
def chosenSample (late : Bool) (bit : BitVec 12) : Bool := bit.getLsbD (if late then 9 else 6)

/-- Further bits compared with the sequence, and the outcome: a mismatch at its index, a pass at bit L, or none yet (R23). -/
def compareBits (late : Bool) (length : Nat) : List (BitVec 12) → Nat → BitVec 7 → Nat × BitVec 7 × Option (TestResult × Nat)
  | [], compared, reg => (compared, reg, none)
  | bit :: bits, compared, reg =>
    let next := sequenceNext reg
    if chosenSample late bit ≠ next.1 then (compared, next.2, some (.fail, compared + 1))
    else if length ≤ compared + 1 then (compared + 1, next.2, some (.pass, 0))
    else compareBits late length bits (compared + 1) next.2

/-- The in side in COMPARE takes further bits of the sequence (R23). -/
def compareMore (bits : List (BitVec 12)) (s : State) : State :=
  match s.cableTest with
  | none => s
  | some t =>
    if t.inPhase = .compare then
      match compareBits t.late t.length bits t.compared t.inReg with
      | (compared, reg, outcome) =>
        let s : State := { s with cableTest := some { t with compared := compared, inReg := reg } }
        match outcome with
        | none => s
        | some (r, k) => endTest r k s
    else s

/-- CABLE_TEST_PASS (R23). -/
def execCableTestPass (bits : List (BitVec 12)) (s : State) : Host.Outcome State Fault Refusal := .next (compareMore bits s)

/-- CABLE_TEST_FAIL (R23). -/
def execCableTestFail (bits : List (BitVec 12)) (s : State) : Host.Outcome State Fault Refusal := .next (compareMore bits s)

/-- NO_PATH (R23): 50 ms from acceptance with no marker. -/
def execNoPath (s : State) : Host.Outcome State Fault Refusal :=
  .next
    (match s.cableTest with
     | none => s
     | some t => if t.inPhase = .awaitMarker then endTest .noPath 0 (s.reach (t.acceptedAt + 50000)) else s)

end Sys2Proof.Machine
end

