-- ==== Sys2Proof/Machine/TimingCommands.lean ====
section
/-! DEFINITION. The commands of the timing unit (chapter 6; R188): reference records, settings, forces and lockouts, edges and
measurements, the timing timers and the steering line. -/

namespace Sys2Proof.Machine

/-- The timing unit changed by `f`. -/
def inTiming (f : TimingEnv → Timing → Timing) (s : State) : State := { s with timing := f s.timingEnv s.timing }

/-! ### Requests -/

/-- SET-REF (R110, R111). -/
def setRef (payload : List Byte) : Handler := fun s =>
  match setRefArgs s.timing.refs payload with
  | none => plainly .badArg s
  | some (r, c) =>
    let s' := finish .none (inTiming (fun env t => t.modRef env r (Ref.configure env r c)) s)
    (s', some (okWith (refBytes r s'.timing.refs[r])))

def execSetRef (l : LinkId) (tag : Byte) (payload : List Byte) (s : State) : Host.Outcome State Fault Refusal :=
  .next (request l tag 0x30 (payload.length = 8) true (setRef payload) s)

/-- GET-REF (R112): the configuration fields and the locked-out flag. -/
def getRef (payload : List Byte) : Handler := fun s =>
  match indexArg 6 payload with
  | none => plainly .badArg s
  | some r => (s, some (okWith (refBytes r s.timing.refs[r] ++ [flagByte s.timing.refs[r].lockedOut])))

def execGetRef (l : LinkId) (tag : Byte) (payload : List Byte) (s : State) : Host.Outcome State Fault Refusal :=
  .next (request l tag 0x31 (payload.length = 1) false (getRef payload) s)

/-- SET-TIMING (R132): selection and the outgoing codes follow at once. -/
def setTiming (payload : List Byte) : Handler := fun s =>
  match setTimingArgs payload with
  | none => plainly .badArg s
  | some set =>
    (finish .none (inTiming (fun env t => ({ t with settings := set }).reselect env) s), some (okWith (timingBytes set)))

def execSetTiming (l : LinkId) (tag : Byte) (payload : List Byte) (s : State) : Host.Outcome State Fault Refusal :=
  .next (request l tag 0x32 (payload.length = 14) true (setTiming payload) s)

/-- Whether a TIMING-REQUEST is refused CONFLICT (R124). -/
def timingConflict (t : Timing) (a : TimingAction) : Bool :=
  match a with
  | .force r => t.refs[r].lockedOut
  | .lockout r => decide (t.forced = some r)
  | .clearForce | .unlock _ => false

/-- What an accepted TIMING-REQUEST does before selection is re-evaluated (R124). -/
def Timing.act (a : TimingAction) (t : Timing) : Timing :=
  match a with
  | .force r => { t with forced := some r }
  | .clearForce => { t with forced := none }
  | .lockout r => { t with refs := upd t.refs r fun x => { x with lockedOut := true } }
  | .unlock r => { t with refs := upd t.refs r fun x => { x with lockedOut := false } }

/-- TIMING-REQUEST (R124, R125). -/
def timingRequest (payload : List Byte) : Handler := fun s =>
  match timingRequestArgs payload with
  | none => plainly .badArg s
  | some a =>
    if timingConflict s.timing a then plainly .conflict s
    else
      let s' := finish .none (inTiming (fun env t => (t.act a).reselect env) s)
      (s', some (okWith (timingRequestBytes s'.timing)))

/-- TIMING-REQUEST with its checks: what each of its four rows is. -/
def takeTimingRequest (l : LinkId) (tag : Byte) (payload : List Byte) (s : State) : State :=
  request l tag 0x33 (payload.length = 2) true (timingRequest payload) s

def execForceRef (l : LinkId) (tag : Byte) (payload : List Byte) (s : State) : Host.Outcome State Fault Refusal :=
  .next (takeTimingRequest l tag payload s)

def execClearForce (l : LinkId) (tag : Byte) (payload : List Byte) (s : State) : Host.Outcome State Fault Refusal :=
  .next (takeTimingRequest l tag payload s)

def execLockout (l : LinkId) (tag : Byte) (payload : List Byte) (s : State) : Host.Outcome State Fault Refusal :=
  .next (takeTimingRequest l tag payload s)

def execUnlock (l : LinkId) (tag : Byte) (payload : List Byte) (s : State) : Host.Outcome State Fault Refusal :=
  .next (takeTimingRequest l tag payload s)

/-- TIMING-STATUS (R133). -/
def timingStatus : Handler := fun s => (s, some (okWith (timingStatusBytes s)))

def execTimingStatus (l : LinkId) (tag : Byte) (payload : List Byte) (s : State) : Host.Outcome State Fault Refusal :=
  .next (request l tag 0x34 (payload.length = 0) false timingStatus s)

/-! ### Edges and measurements (R117 to R121) -/

/-- REFERENCE_EDGE (R117): the divided 8 kHz rate of an enabled reference rises. -/
def execReferenceEdge (r : RefId) (s : State) : Host.Outcome State Fault Refusal :=
  .next
    (if s.timing.refs[r].enabled then finish .none (inTiming (fun env t => t.modRef env r (Ref.edge env r)) s) else s)

/-- EDGE_TIMER_EXPIRY (R117). -/
def execEdgeTimerExpiry (r : RefId) (s : State) : Host.Outcome State Fault Refusal :=
  .next
    (match s.timing.refs[r].edgeTimer with
     | none => s
     | some t =>
       finish .none (inTiming (fun env tm => tm.modRef env r fun x => { x.fail with edgeTimer := none }) (s.reach t)))

/-- The count at which a measurement ends early (R118). -/
def earlyEndCount : Nat := 20002001

/-- MEASUREMENT_END (R117 to R121): the 8,000th edge restarts the edge timer, gives the sample and starts the next measurement. -/
def execMeasurementEnd (r : RefId) (count : Nat) (s : State) : Host.Outcome State Fault Refusal :=
  .next
    (if s.timing.refs[r].measuring.isSome ∧ count < earlyEndCount then
      finish .none
        (inTiming (fun env t =>
          ({ t with refs := upd t.refs r fun x => { x with edgeTimer := some (env.now + 500) } }).sample env r (sampleOf count)
            (some 0)) s)
     else s)

/-- The sample of an early end (R118). -/
def earlySample : Sample := ⟨-100000, true⟩

/-- MEASUREMENT_EARLY_END (R118): the next measurement waits for the next edge. -/
def execMeasurementEarlyEnd (r : RefId) (s : State) : Host.Outcome State Fault Refusal :=
  .next
    (if s.timing.refs[r].measuring.isSome then finish .none (inTiming (fun env t => t.sample env r earlySample none) s) else s)

/-- SOAK_TIMER_EXPIRY (R121). -/
def execSoakTimerExpiry (r : RefId) (s : State) : Host.Outcome State Fault Refusal :=
  .next
    (match s.timing.refs[r].soakTimer with
     | none => s
     | some t =>
       finish .none
         (inTiming (fun env tm => tm.modRef env r fun x =>
           { x with soakTimer := none, state := if x.state = .soaking then .qualified else x.state }) (s.reach t)))

/-! ### Timing timers and the steering line (R126, R128, R188) -/

/-- ACQUIRE_TIMER_EXPIRY (R126): a following unclamped update may make the state LOCKED. -/
def execAcquireTimerExpiry (s : State) : Host.Outcome State Fault Refusal :=
  .next
    (match s.timing.acquireTimer with
     | none => s
     | some t =>
       let s := s.reach t
       { s with timing := { s.timing with acquireTimer := none } })

/-- The end of holdover (R128): FREE_RUN, not holdover-ready, history empty, count 0, with the update of the state change. -/
def Timing.endHoldover (env : TimingEnv) (t : Timing) : Timing :=
  ((({ t with state := .freeRun, holdoverTimer := none, ready := false, history := [], lockedUpdates := 0 }).stepWord
    env.now).giveOut).note env

/-- HOLDOVER_TIMER_EXPIRY (R128). -/
def execHoldoverTimerExpiry (s : State) : Host.Outcome State Fault Refusal :=
  .next
    (match s.timing.holdoverTimer with
     | none => s
     | some t => finish .none (inTiming Timing.endHoldover (s.reach t)))

/-- STEER_FRAME_START (R188): the waiting frame begins at the end of the frame in transmission. -/
def execSteerFrameStart (s : State) : Host.Outcome State Fault Refusal :=
  .next
    (match s.timing.steering, s.timing.steerWaiting with
     | some (_, ends), some f =>
       let s := s.reach ends
       { s with timing := { s.timing with steering := some (f, s.now + steerTime), steerWaiting := none } }
     | _, _ => s)

end Sys2Proof.Machine
end

