-- ==== Sys2Proof/Machine/FrameCommands.lean ====
section
/-! DEFINITION. The rows of the link receivers (R166 to R169): the samples on RXD, the frames they complete, and the request that a
frame is by its KIND (section 10.1). -/

namespace Sys2Proof.Machine

/-- A frame whose CRC fits, taken as the request its KIND names (R169, R170, R182; section 10.1). -/
def takeKind (l : LinkId) (tag kind : Byte) (payload : List Byte) : State → State :=
  let n := payload.length
  if kind = 0x01 then takeRequest l tag 0x01 (n = 0) false identify
  else if kind = 0x02 then takeRequest l tag 0x02 (n = 0) false (claim l)
  else if kind = 0x03 then takeRequest l tag 0x03 (n = 0) true (release l)
  else if kind = 0x04 then takeRequest l tag 0x04 (n = 1) true (keepalive l payload)
  else if kind = 0x05 then takeRequest l tag 0x05 (n = 4) true (setLinkWatch payload)
  else if kind = 0x06 then takeRequest l tag 0x06 (n = 0) true (plainly .ok)
  else if kind = 0x10 then takeRequest l tag 0x10 (n = 24) true (setPort payload)
  else if kind = 0x11 then takeRequest l tag 0x11 (n = 1) false (getPort payload)
  else if kind = 0x12 then takeRequest l tag 0x12 (n = 1) false (portStatus payload)
  else if kind = 0x13 then takeRequest l tag 0x13 (n = 2) true (setShelfId payload)
  else if kind = 0x14 then takeRequest l tag 0x14 (n = 5) true (setRange payload)
  else if kind = 0x15 then takeRequest l tag 0x15 (n = 0) false getRanges
  else if kind = 0x16 then takeRequest l tag 0x16 (n = 5) true (cableTest l payload)
  else if kind = 0x20 then takeRequest l tag 0x20 (setGroupFits payload) true (setGroup payload)
  else if kind = 0x21 then takeRequest l tag 0x21 (n = 1) true (deleteGroup payload)
  else if kind = 0x22 then takeRequest l tag 0x22 (n = 1) false (getGroup payload)
  else if kind = 0x23 then takeRequest l tag 0x23 (n = 1) false (groupStatus payload)
  else if kind = 0x24 then takeRequest l tag 0x24 (n = 3) true (protRequest payload)
  else if kind = 0x28 then takeRequest l tag 0x28 (n = 2) true (setMaint payload)
  else if kind = 0x29 then takeRequest l tag 0x29 (n = 2) true (maintMove payload)
  else if kind = 0x2A then takeRequest l tag 0x2A (n = 1) true (clearHalt payload)
  else if kind = 0x2B then takeRequest l tag 0x2B (n = 0) false settle
  else if kind = 0x30 then takeRequest l tag 0x30 (n = 8) true (setRef payload)
  else if kind = 0x31 then takeRequest l tag 0x31 (n = 1) false (getRef payload)
  else if kind = 0x32 then takeRequest l tag 0x32 (n = 14) true (setTiming payload)
  else if kind = 0x33 then takeRequest l tag 0x33 (n = 2) true (timingRequest payload)
  else if kind = 0x34 then takeRequest l tag 0x34 (n = 0) false timingStatus
  else if kind = 0x40 then takeRequest l tag 0x40 (n = 7) true (setProfile payload)
  else if kind = 0x41 then takeRequest l tag 0x41 (n = 1) false (getProfile payload)
  else if kind = 0x42 then takeRequest l tag 0x42 (n = 2) false (readAlarms payload)
  else if kind = 0x48 then takeRequest l tag 0x48 (n = 0) true aco
  else if kind = 0x49 then takeRequest l tag 0x49 (n = 3) true (setNotices payload)
  else takeBadKind l tag kind

/-- A frame whose CRC fits: TAG, KIND and payload stand between LEN and the CRC (section 9.2). -/
def takeFrame (l : LinkId) (frame : List Byte) : State → State :=
  takeKind l (byteAt frame 1) (byteAt frame 2) ((frame.drop 3).take (frame.length - 5))

/-- One sample on the RXD pin of a link (R166 to R169). -/
def onSample (l : LinkId) (s : State) (b : Bool) : State :=
  let taken := (s.links.link l).rx.sample b
  let s := modLink l (fun k => { k with rx := taken.1 }) s
  match taken.2 with
  | some frame => takeFrame l frame s
  | none => s

/-- A run of samples on the RXD pin of a link, oldest first. -/
def onSamples (l : LinkId) (samples : List Bool) (s : State) : State := samples.foldl (onSample l) s

/-- BREAK (R167). -/
def execBreak (pin : LinkSamples) (s : State) : Host.Outcome State Fault Refusal := .next (onSamples pin.link pin.samples s)

/-- FRAME_GAP_TIMEOUT (R168). -/
def execFrameGapTimeout (pin : LinkSamples) (s : State) : Host.Outcome State Fault Refusal :=
  .next (onSamples pin.link pin.samples s)

/-- FRAME_FRAMING_ERROR (R168). -/
def execFrameFramingError (pin : LinkSamples) (s : State) : Host.Outcome State Fault Refusal :=
  .next (onSamples pin.link pin.samples s)

/-- FRAME_BAD_LEN (R168). -/
def execFrameBadLen (l : LinkId) (samples : List Bool) (s : State) : Host.Outcome State Fault Refusal :=
  .next (onSamples l samples s)

/-- FRAME_CRC_ERROR (R169). -/
def execFrameCrcError (l : LinkId) (samples : List Bool) (s : State) : Host.Outcome State Fault Refusal :=
  .next (onSamples l samples s)

end Sys2Proof.Machine
end

