-- ==== Sys2Proof/Machine/PowerCommands.lean ====
section
/-! DEFINITION. The commands of the power scan unit, the line condition evaluator and the seconds clock (chapter 2; R129), and the
full reset (R181). -/

namespace Sys2Proof.Machine

/-- FULL_RESET (R181 and the reset rules of every chapter): the part at the first moment after it, with the strap as sampled. The
model's clock, the free values used up and the waiting commands are not the part's and go on. -/
def execFullReset (rate : BitVec 2) (s : State) : Host.Outcome State Fault Refusal :=
  .next (State.afterReset rate s.now s.links.draws s.orderDraws s.pending)

/-- The next conversion begins at once on the port chosen (R26). -/
def scanOn (p : PortId) (s : State) : State := { s with conversion := conversionOf s.now (scanAfter s.ports p) }

/-- CONVERSION_END (R26 to R33): the code is used if the port was enabled throughout, and the next conversion begins. -/
def execConversionEnd (code : BitVec 12) (s : State) : Host.Outcome State Fault Refusal :=
  .next
    (match s.conversion with
     | none => s
     | some c =>
       let s := s.reach c.endsAt
       if c.used then finish .none (scanOn c.port (portEvent c.port (Port.convert code.toNat) s)) else scanOn c.port s)

/-- HOLD_OFF_EXPIRY (R40): the reported condition takes the raw condition. -/
def execHoldOffExpiry (p : PortId) (s : State) : Host.Outcome State Fault Refusal :=
  .next
    (match s.ports[p].holdTimer with
     | none => s
     | some t => let s := s.reach t; finish .none (setPortTo p s.ports[p].holdOffExpire s))

/-- Every enabled port's noise window rolls and its counts are latched (R35). -/
def tickPorts (s : State) : State :=
  { s with ports := tab 32 fun p => if s.ports[p].cfg.enabled then s.ports[p].tick else s.ports[p] }

/-- The steering update of a tick (R129). -/
def tickTiming (s : State) : State := { s with timing := s.timing.update s.timingEnv true }

/-- SECONDS_TICK (R35, R36, R129): the next tick comes one second later. -/
def execSecondsTick (s : State) : Host.Outcome State Fault Refusal :=
  .next
    (let s := s.reach s.timing.nextTick
     let s := tickPorts { s with timing := { s.timing with nextTick := s.timing.nextTick + 1000000 } }
     finish .none (tickTiming (portsInTurn (unsettled s) s)))

end Sys2Proof.Machine
end

