-- ==== Sys2Proof/Machine/Dispatch.lean ====
section
/-! DEFINITION. The dispatch of the commands: one arm for each constructor of Instr, one direct call of its meaning. -/

namespace Sys2Proof.Machine

def exec (i : Instr) (s : State) : Host.Outcome State Fault Refusal :=
  match i with
  | .fullReset rate => Sys2Proof.Machine.execFullReset rate s
  | .setPort l tag payload => Sys2Proof.Machine.execSetPort l tag payload s
  | .getPort l tag payload => Sys2Proof.Machine.execGetPort l tag payload s
  | .portStatus l tag payload => Sys2Proof.Machine.execPortStatus l tag payload s
  | .setShelfId l tag payload => Sys2Proof.Machine.execSetShelfId l tag payload s
  | .setRange l tag payload => Sys2Proof.Machine.execSetRange l tag payload s
  | .getRanges l tag payload => Sys2Proof.Machine.execGetRanges l tag payload s
  | .pilotMessage p body noise => Sys2Proof.Machine.execPilotMessage p body noise s
  | .truncatedMessage pin => Sys2Proof.Machine.execTruncatedMessage pin s
  | .lossTimerExpiry p => Sys2Proof.Machine.execLossTimerExpiry p s
  | .pilotTransmit p => Sys2Proof.Machine.execPilotTransmit p s
  | .secondsTick => Sys2Proof.Machine.execSecondsTick s
  | .conversionEnd code => Sys2Proof.Machine.execConversionEnd code s
  | .holdOffExpiry p => Sys2Proof.Machine.execHoldOffExpiry p s
  | .restoreWaitExpiry g => Sys2Proof.Machine.execRestoreWaitExpiry g s
  | .awaitFarTimeout g => Sys2Proof.Machine.execAwaitFarTimeout g s
  | .trialTimerExpiry g => Sys2Proof.Machine.execTrialTimerExpiry g s
  | .setGroup l tag payload => Sys2Proof.Machine.execSetGroup l tag payload s
  | .deleteGroup l tag payload => Sys2Proof.Machine.execDeleteGroup l tag payload s
  | .getGroup l tag payload => Sys2Proof.Machine.execGetGroup l tag payload s
  | .groupStatus l tag payload => Sys2Proof.Machine.execGroupStatus l tag payload s
  | .protRequestBar l tag payload => Sys2Proof.Machine.execProtRequestBar l tag payload s
  | .protRequestForce l tag payload => Sys2Proof.Machine.execProtRequestForce l tag payload s
  | .protRequestManual l tag payload => Sys2Proof.Machine.execProtRequestManual l tag payload s
  | .protRequestTrial l tag payload => Sys2Proof.Machine.execProtRequestTrial l tag payload s
  | .protRequestClear l tag payload => Sys2Proof.Machine.execProtRequestClear l tag payload s
  | .setMaintEnter l tag payload => Sys2Proof.Machine.execSetMaintEnter l tag payload s
  | .setMaintLeave l tag payload => Sys2Proof.Machine.execSetMaintLeave l tag payload s
  | .maintMove l tag payload => Sys2Proof.Machine.execMaintMove l tag payload s
  | .clearHalt l tag payload => Sys2Proof.Machine.execClearHalt l tag payload s
  | .settle l tag payload => Sys2Proof.Machine.execSettle l tag payload s
  | .settleReply => Sys2Proof.Machine.execSettleReply s
  | .busTransactionStart => Sys2Proof.Machine.execBusTransactionStart s
  | .commandRepeat => Sys2Proof.Machine.execCommandRepeat s
  | .answerTimeout => Sys2Proof.Machine.execAnswerTimeout s
  | .answerPosition run position capability partner check => Sys2Proof.Machine.execPosition run position capability partner check s
  | .answerAccepted run check => Sys2Proof.Machine.execAccepted run check s
  | .answerRefused run fault check => Sys2Proof.Machine.execRefused run fault check s
  | .answerSingleOnly run check => Sys2Proof.Machine.execSingleOnly run check s
  | .answerMoving run check => Sys2Proof.Machine.execMoving run check s
  | .answerSettled run position check => Sys2Proof.Machine.execSettled run position check s
  | .pollDue address => Sys2Proof.Machine.execPollDue address s
  | .moveTimeout address => Sys2Proof.Machine.execMoveTimeout address s
  | .setRef l tag payload => Sys2Proof.Machine.execSetRef l tag payload s
  | .getRef l tag payload => Sys2Proof.Machine.execGetRef l tag payload s
  | .setTiming l tag payload => Sys2Proof.Machine.execSetTiming l tag payload s
  | .forceRef l tag payload => Sys2Proof.Machine.execForceRef l tag payload s
  | .clearForce l tag payload => Sys2Proof.Machine.execClearForce l tag payload s
  | .lockout l tag payload => Sys2Proof.Machine.execLockout l tag payload s
  | .unlock l tag payload => Sys2Proof.Machine.execUnlock l tag payload s
  | .timingStatus l tag payload => Sys2Proof.Machine.execTimingStatus l tag payload s
  | .referenceEdge r => Sys2Proof.Machine.execReferenceEdge r s
  | .edgeTimerExpiry r => Sys2Proof.Machine.execEdgeTimerExpiry r s
  | .measurementEnd r count => Sys2Proof.Machine.execMeasurementEnd r count s
  | .measurementEarlyEnd r => Sys2Proof.Machine.execMeasurementEarlyEnd r s
  | .soakTimerExpiry r => Sys2Proof.Machine.execSoakTimerExpiry r s
  | .acquireTimerExpiry => Sys2Proof.Machine.execAcquireTimerExpiry s
  | .holdoverTimerExpiry => Sys2Proof.Machine.execHoldoverTimerExpiry s
  | .steerFrameStart => Sys2Proof.Machine.execSteerFrameStart s
  | .setProfile l tag payload => Sys2Proof.Machine.execSetProfile l tag payload s
  | .getProfile l tag payload => Sys2Proof.Machine.execGetProfile l tag payload s
  | .readAlarms l tag payload => Sys2Proof.Machine.execReadAlarms l tag payload s
  | .declareSoakExpiry k => Sys2Proof.Machine.execDeclareSoakExpiry k s
  | .clearSoakExpiry k => Sys2Proof.Machine.execClearSoakExpiry k s
  | .acoPress high low => Sys2Proof.Machine.execAcoPress high low s
  | .aco l tag payload => Sys2Proof.Machine.execAco l tag payload s
  | .setNotices l tag payload => Sys2Proof.Machine.execSetNotices l tag payload s
  | .noticeSend => Sys2Proof.Machine.execNoticeSend s
  | .replySend l => Sys2Proof.Machine.execReplySend l s
  | .linkBreak pin => Sys2Proof.Machine.execBreak pin s
  | .frameGapTimeout pin => Sys2Proof.Machine.execFrameGapTimeout pin s
  | .frameCrcError l samples => Sys2Proof.Machine.execFrameCrcError l samples s
  | .requestBadKind l tag kind payload => Sys2Proof.Machine.execRequestBadKind l tag kind payload s
  | .claim l tag payload => Sys2Proof.Machine.execClaim l tag payload s
  | .release l tag payload => Sys2Proof.Machine.execRelease l tag payload s
  | .keepalive l tag payload => Sys2Proof.Machine.execKeepalive l tag payload s
  | .periodTimerExpiry => Sys2Proof.Machine.execPeriodTimerExpiry s
  | .setLinkWatch l tag payload => Sys2Proof.Machine.execSetLinkWatch l tag payload s
  | .restart l tag payload => Sys2Proof.Machine.execRestart l tag payload s
  | .restartTakesEffect l => Sys2Proof.Machine.execRestartTakesEffect l s
  | .identify l tag payload => Sys2Proof.Machine.execIdentify l tag payload s
  | .cableTest l tag payload => Sys2Proof.Machine.execCableTest l tag payload s
  | .cableTestLead => Sys2Proof.Machine.execCableTestLead s
  | .cableTestMarkerSent => Sys2Proof.Machine.execCableTestMarkerSent s
  | .cableTestSequenceEnd => Sys2Proof.Machine.execCableTestSequenceEnd s
  | .cableTestMarker search start => Sys2Proof.Machine.execCableTestMarker search start s
  | .cableTestPass bits => Sys2Proof.Machine.execCableTestPass bits s
  | .cableTestFail bits => Sys2Proof.Machine.execCableTestFail bits s
  | .noPath => Sys2Proof.Machine.execNoPath s
  | .pilotCharacterTaken p search samples => Sys2Proof.Machine.execPilotCharacterTaken p search samples s
  | .frameFramingError pin => Sys2Proof.Machine.execFrameFramingError pin s
  | .frameBadLen l samples => Sys2Proof.Machine.execFrameBadLen l samples s

end Sys2Proof.Machine
end

