-- ==== Sys2Proof/Machine/Lines.lean ====
section
/-! DEFINITION. The levels of the output lines that carry bits: PILOT-OUT (R19, R22), ACT-TXD (R186), STEER (R188, section 10.6) and the
TXD pins (R166, R172). What is being sent and when it began stands in State; these functions say what level that makes at a time, as
long as no further command comes before it (log entry 34). A level of 1 is `true`. -/

namespace Sys2Proof.Machine

/-- The bits of a character: a 0 start bit, eight data bits least significant first, a 1 stop bit (R19, R166, R186). -/
def characterBits (b : Byte) : List Bool := false :: (List.range 8).map b.getLsbD ++ [true]

/-- The bits of characters sent back to back. -/
def lineBits (bytes : List Byte) : List Bool := bytes.flatMap characterBits

/-- The level at bit `i` of a run of bits on a line that rests at 1. -/
def levelOf (bits : List Bool) (i : Nat) : Bool := bits.getD i true

/-- Which bit of a line with this many bits a second is sent at a time in µs, its first bit having begun at another. -/
def bitAt (rate begun time : Nat) : Nat := (time - begun) * rate / 1000000

/-! ### PILOT-OUT -/

/-- The rate of the pilot, in bit/s (R19). -/
def pilotRate : Nat := 8000

/-- The level of a message: its nine characters and then idle (R19). -/
def PilotTx.messageLevel (time : Nat) (tx : PilotTx) : Bool := levelOf (lineBits tx.bytes) (bitAt pilotRate tx.begun time)

/-- The level of the L bits of the sequence, which begin at a time, and then 1 (R22). -/
def CableTest.sequenceLevel (begun time : Nat) (t : CableTest) : Bool :=
  if bitAt pilotRate begun time < t.length then sequenceBit t.outReg (bitAt pilotRate begun time) else true

/-- The level that the out side of a cable test sends (R22): the rest of a message, idle, the 0 of the marker with the sequence after it,
and 1 when it is done. -/
def CableTest.outLevel (time : Nat) (tx : PilotTx) (t : CableTest) : Bool :=
  match t.outPhase with
  | .finish => tx.messageLevel time
  | .lead => true
  | .marker => if time < t.phaseEnds then false else t.sequenceLevel t.phaseEnds time
  | .sequence => t.sequenceLevel (t.phaseEnds - 125 * t.length) time
  | .done => true

/-- PILOT-OUT of a port (R19, R22): 1 while disabled and in the lead-in, then the messages, and during a cable test what its out side
sends. -/
def pilotOut (time : Nat) (s : State) (p : PortId) : Bool :=
  match s.ports[p].tx.phase with
  | .off | .leadIn => true
  | .message => s.ports[p].tx.messageLevel time
  | .test => (s.cableTest.map (CableTest.outLevel time s.ports[p].tx)).getD true

/-! ### ACT-TXD, STEER and the TXD pins -/

/-- ACT-TXD (R186): the command frame of the open exchange, which began its own duration and the answer timeout before that timeout
expires, and 1 between frames. -/
def actTxd (time : Nat) (w : Switching) : Bool :=
  match w.bus with
  | some t =>
    match t.exchange with
    | .awaiting timeout => levelOf (lineBits t.cmd.bytes) (bitAt 250000 (timeout - 2000 - t.cmd.duration) time)
    | .repeating _ => true
  | none => true

/-- STEER (R188, section 10.6): the frame in transmission, and 1 between frames. -/
def steer (time : Nat) (t : Timing) : Bool :=
  match t.steering with
  | some (bytes, ends) => levelOf (lineBits bytes) (bitAt 19200 (ends - steerTime) time)
  | none => true

/-- The bits of a frame on a link: a break of 24 bit times, 2 at 1, its characters, and 2 at 1 (R172). -/
def Frame.lineBits (f : Frame) : List Bool :=
  List.replicate 24 false ++ [true, true] ++ Machine.lineBits f.bytes ++ [true, true]

/-- The TXD pin of a link (R166, R172): the frame in transmission, and 1 between frames. -/
def txd (time : Nat) (l : LinkId) (s : State) : Bool :=
  match (s.links.link l).sending with
  | some (f, ends) => levelOf f.lineBits (bitAt (linkRate s.links.rate) (ends - frameTime s.links.rate f) time)
  | none => true

end Sys2Proof.Machine
end

