-- ==== Sys2Proof/Safety.lean ====
section
/-! DEFINITION. The terms of the claims: what a request frame is, what a reply leaves on its link, which parts of the block a command
leaves as they stand, and the laws that every step keeps. -/

namespace Sys2Proof.Machine

/-! ### Requests as the request table of section 10.1 has them -/

/-- A request frame: the link it is taken on, its TAG, KIND and payload, whether its length is the table's (R182), and whether it is
master-only (section 9.3). -/
structure Taken where
  link       : LinkId
  tag        : Byte
  kind       : Byte
  payload    : List Byte
  fits       : Bool
  masterOnly : Bool
  deriving DecidableEq, Repr

/-- A request whose table length is `n`. -/
def Taken.fixed (l : LinkId) (tag kind : Byte) (payload : List Byte) (n : Nat) (masterOnly : Bool) : Taken :=
  ⟨l, tag, kind, payload, decide (payload.length = n), masterOnly⟩

/-- The request a command is; none for the operations and events. -/
def takenRequest (i : Instr) : Option Taken :=
  match i with
  | .identify l tag p => some (.fixed l tag 0x01 p 0 false)
  | .claim l tag p => some (.fixed l tag 0x02 p 0 false)
  | .release l tag p => some (.fixed l tag 0x03 p 0 true)
  | .keepalive l tag p => some (.fixed l tag 0x04 p 1 true)
  | .setLinkWatch l tag p => some (.fixed l tag 0x05 p 4 true)
  | .restart l tag p => some (.fixed l tag 0x06 p 0 true)
  | .setPort l tag p => some (.fixed l tag 0x10 p 24 true)
  | .getPort l tag p => some (.fixed l tag 0x11 p 1 false)
  | .portStatus l tag p => some (.fixed l tag 0x12 p 1 false)
  | .setShelfId l tag p => some (.fixed l tag 0x13 p 2 true)
  | .setRange l tag p => some (.fixed l tag 0x14 p 5 true)
  | .getRanges l tag p => some (.fixed l tag 0x15 p 0 false)
  | .cableTest l tag p => some (.fixed l tag 0x16 p 5 true)
  | .setGroup l tag p =>
    some ⟨l, tag, 0x20, p, decide (5 ≤ p.length) && decide (p.length = 12 + (byteAt p 4).toNat), true⟩
  | .deleteGroup l tag p => some (.fixed l tag 0x21 p 1 true)
  | .getGroup l tag p => some (.fixed l tag 0x22 p 1 false)
  | .groupStatus l tag p => some (.fixed l tag 0x23 p 1 false)
  | .protRequestBar l tag p | .protRequestForce l tag p | .protRequestManual l tag p | .protRequestTrial l tag p
  | .protRequestClear l tag p => some (.fixed l tag 0x24 p 3 true)
  | .setMaintEnter l tag p | .setMaintLeave l tag p => some (.fixed l tag 0x28 p 2 true)
  | .maintMove l tag p => some (.fixed l tag 0x29 p 2 true)
  | .clearHalt l tag p => some (.fixed l tag 0x2A p 1 true)
  | .settle l tag p => some (.fixed l tag 0x2B p 0 false)
  | .setRef l tag p => some (.fixed l tag 0x30 p 8 true)
  | .getRef l tag p => some (.fixed l tag 0x31 p 1 false)
  | .setTiming l tag p => some (.fixed l tag 0x32 p 14 true)
  | .forceRef l tag p | .clearForce l tag p | .lockout l tag p | .unlock l tag p => some (.fixed l tag 0x33 p 2 true)
  | .timingStatus l tag p => some (.fixed l tag 0x34 p 0 false)
  | .setProfile l tag p => some (.fixed l tag 0x40 p 7 true)
  | .getProfile l tag p => some (.fixed l tag 0x41 p 1 false)
  | .readAlarms l tag p => some (.fixed l tag 0x42 p 2 false)
  | .aco l tag p => some (.fixed l tag 0x48 p 0 true)
  | .setNotices l tag p => some (.fixed l tag 0x49 p 3 true)
  | _ => none

/-- The link has no request outstanding (R171), and its receiver awaits a frame: a break came before it (R167). -/
structure FreeLink (l : LinkId) (s : State) : Prop where
  outstanding : (s.links.link l).outstanding = none
  awaits : (s.links.link l).rx.state = .awaitLen

/-- The link is the master link, has no request outstanding, and awaits a frame. -/
def MasterReady (l : LinkId) (s : State) : Prop := FreeLink l s ∧ (s.links.link l).role = .master

/-- The link after a request on it has been taken and has drawn an immediate reply (R168, R170, R171). -/
def Link.repliedTo (tag kind : Byte) (payload : List Byte) (k : Link) : Link :=
  { k.frameTaken with
    outstanding := some ⟨tag, kind, true⟩
    ready := k.ready ++ [⟨⟨tag, kind + 0x80, payload⟩, false⟩] }

/-- The part with the receiver of a link as given. -/
def withRx (l : LinkId) (x : LinkRx) (s : State) : State := modLink l (fun k => { k with rx := x }) s

/-- The 0 samples in a row after some samples, where there were `z` before them (R167). -/
def zerosAfter (z : Nat) (samples : List Bool) : Nat := samples.foldl (fun z b => if b then 0 else z + 1) z

/-- The part after a request on a link has drawn an immediate reply and nothing else has changed. -/
def replied (l : LinkId) (tag kind : Byte) (payload : List Byte) (s : State) : State :=
  { s with links := s.links.modLink l (Link.repliedTo tag kind payload) }

/-- The link after a request whose reply is deferred has been taken. -/
def Link.deferredTo (tag kind : Byte) (k : Link) : Link :=
  { k.frameTaken with outstanding := some ⟨tag, kind, false⟩ }

/-- The part as a request's own rule finds it: the request is outstanding on its link, with no reply formed yet (R168, R171). -/
def taken (l : LinkId) (tag kind : Byte) (s : State) : State := modLink l (Link.deferredTo tag kind) s

/-- The end of an accepted request: the event ends in `u`, and then its reply becomes ready (R159, R170, R171). -/
def accepts (l : LinkId) (payload : List Byte) (u : State) : State := modLink l (Link.answer payload) (finish .none u)

/-! ### What a command leaves as it stands -/

/-- No notice of an earlier event is left over (true between steps). -/
def Quiet (s : State) : Prop := s.sw.raised = [] ∧ s.timing.raised = [] ∧ s.raised = []

/-- What only its own request, press or reset changes: identity, ranges, severity profile, notice settings, timing settings, the
force, link-watch settings and rate, the pushbutton, and the waiting commands. -/
structure KeepsSettings (s t : State) : Prop where
  pending : t.pending = s.pending
  shelf : t.shelf = s.shelf
  slot : t.slot = s.slot
  ranges : t.ranges = s.ranges
  profile : t.alarms.profile = s.alarms.profile
  threshold : t.notices.threshold = s.notices.threshold
  groupEnable : t.notices.groupEnable = s.notices.groupEnable
  timingEnable : t.notices.timingEnable = s.notices.timingEnable
  timing : t.timing.settings = s.timing.settings
  forced : t.timing.forced = s.timing.forced
  rate : t.links.rate = s.links.rate
  mode : t.links.mode = s.links.mode
  period : t.links.period = s.links.period
  lapseLimit : t.links.lapseLimit = s.links.lapseLimit
  acoPin : t.alarms.acoPin = s.alarms.acoPin

/-- Everything but the ports, the switching block and the timing unit stands as it was. -/
structure KeepsOthers (s t : State) : Prop where
  now : t.now = s.now
  pending : t.pending = s.pending
  shelf : t.shelf = s.shelf
  slot : t.slot = s.slot
  ranges : t.ranges = s.ranges
  conversion : t.conversion = s.conversion
  cableTest : t.cableTest = s.cableTest
  alarms : t.alarms = s.alarms
  notices : t.notices = s.notices
  links : t.links = s.links
  raised : t.raised = s.raised

/-- Ports, power scan and cable test stand as they were. -/
structure KeepsPorts (s t : State) : Prop where
  ports : t.ports = s.ports
  conversion : t.conversion = s.conversion
  cableTest : t.cableTest = s.cableTest

/-- Groups, elements, move queue, bus and settle-failure list stand as they were, and the arbiter holds its choice or makes the one it
has yet to make (R99). -/
def KeepsSwitching (s t : State) : Prop := t.sw = { s.sw.arbitrate with raised := t.sw.raised }

/-- The timing unit stands as it was. -/
def KeepsTiming (s t : State) : Prop := t.timing = { s.timing with raised := t.timing.raised }

/-- Both links and mastership stand as they were. -/
def KeepsLinks (s t : State) : Prop := t.links = s.links

/-- One group's engine acted and nothing else in the switching block: the bus, the elements, the settle-failure list, every other
group and every other group's operation stand as they were, and so does the group's own record; the arbiter's choice stands, unless it
was withdrawn with the group's own operation (R100). -/
structure OnlyGroup (g : GroupId) (w v : Switching) : Prop where
  others : ∀ h : GroupId, h ≠ g → v.groups[h] = w.groups[h]
  record : v.groups[g].map (·.cfg) = w.groups[g].map (·.cfg)
  elements : v.elements = w.elements
  queue : v.queue.filter (fun op => decide (op.group ≠ g)) = w.queue.filter (fun op => decide (op.group ≠ g))
  bus : v.bus = w.bus
  busFreeAt : v.busFreeAt = w.busFreeAt
  busDefect : v.busDefect = w.busDefect
  settleFail : v.settleFail = w.settleFail
  chosen : v.chosen = w.chosen ∨ ∃ c, w.chosen = some c ∧ c.owner = g ∧ v.chosen = none

/-- The records of groups and elements, less what changes in them as the part works, stand as they were (R43, R89). -/
structure SameRecords (w v : Switching) : Prop where
  groups : ∀ g : GroupId, v.groups[g].map (·.cfg) = w.groups[g].map (·.cfg)
  elements : v.elements.map (fun el => (el.address, el.role, el.group)) = w.elements.map (fun el => (el.address, el.role, el.group))

/-- Every port but one stands as it was. -/
def OnlyPort (p : PortId) (s t : State) : Prop := ∀ q : PortId, q ≠ p → t.ports[q] = s.ports[q]

/-- The far end's signal of a group stands as it decodes from the values its protection port has accepted (R68, R69), and L, E and T as
they are formed from its requests, its ports and ranges, and the selected member (R57 to R59). -/
structure Formed (env : SwEnv) (w : Switching) (grp : Group) : Prop where
  signal : grp.decode env = grp
  local_ : grp.local_ = topRequest (grp.locals env ++ grp.stay.toList)
  effective : grp.effective = grp.effectiveOf grp.local_
  target : grp.target = targetOf grp.effective (w.selected grp)

/-- What the loss of the master leaves of the groups (R65): one whose external request is neither MANUAL nor TRIAL stands as it was; of any
other that request is gone as after a CLEAR (R63). A TRIAL ends ABANDONED with its timer stopped. A MANUAL whose member is selected leaves
HOLD in a non-revertive group, unless a local request outranks it; any other removal leaves no stay request where there was none. -/
structure MasterlessGroups (before : Switching) (u : State) : Prop where
  kept : ∀ g : GroupId, before.groups[g].all (fun grp => !grp.hasTemporary) = true → u.sw.groups[g] = before.groups[g]
  cleared : ∀ (g : GroupId) grp r, before.groups[g] = some grp → grp.external = some r → r.kind = .manual ∨ r.kind = .trial →
    ∃ new, u.sw.groups[g] = some new ∧ Formed u.swEnv u.sw new ∧ new.cfg = grp.cfg ∧ new.external = none
      ∧ (r.kind = .trial → new.trialResult = .abandoned ∧ new.trialTimer = none)
      ∧ (r.kind = .manual → new.trialResult = grp.trialResult ∧ new.trialTimer = grp.trialTimer)
      ∧ (let holds := r.kind = .manual ∧ before.selected grp = some r.member ∧ grp.cfg.revertive = false
           ∧ (({ grp with external := none } : Group).locals u.swEnv).any (·.outranks ⟨.hold, r.member⟩) = false
         (holds → new.restoreTimer = none ∧ (new.stay = some ⟨.hold, r.member⟩
           ∨ (new.stay = none ∧ (new.locals u.swEnv).any (·.outranks ⟨.hold, r.member⟩) = true)))
         ∧ (¬ holds → (grp.stay = none → new.stay = none)
             ∧ (new.stay = none ∨ (new.stay = grp.stay ∧ new.restoreTimer = grp.restoreTimer))))

/-- What a group engine is told of at its member `m` (R40, R60, R68): a changed reported condition, or at its protection port a change of
what the far end's signal is decoded from. -/
def Told (m : Nat) (old new : Port) : Prop :=
  new.reported ≠ old.reported
    ∨ (m = 0 ∧ (new.accProt ≠ old.accProt ∨ new.accFlags ≠ old.accFlags ∨ new.pilotLoss ≠ old.pilotLoss))

/-- What the timing unit takes from an event at a port (R113, R116, R117): the selector position of the port's group, and, where the
port's raw condition, enabling or accepted quality has changed, the port itself. -/
def TimingTold (p : PortId) (s u : State) : Prop :=
  ∃ t, (t = s.timing ∨ t = s.timing.followSelectors u.timingEnv)
    ∧ u.timing = if s.ports[p].raw ≠ u.ports[p].raw ∨ s.ports[p].cfg.enabled ≠ u.ports[p].cfg.enabled
        ∨ s.ports[p].accQuality ≠ u.ports[p].accQuality then t.portChanged u.timingEnv p else t

/-- What an event at a port hands on (R40, R60, R68, R116): only that port changes, only its own group acts, with the far end's signal,
L, E and T formed afresh where it is told of a change, and the timing unit keeps its settings, its force and its clock. -/
structure PortCascade (p : PortId) (s u : State) : Prop where
  others : KeepsOthers s u
  ports : OnlyPort p s u
  switching : u.sw = s.sw ∨ ∃ g m, memberOf s.sw.groups p = some (g, m) ∧ OnlyGroup g s.sw u.sw
  formed : ∀ g m grp, memberOf s.sw.groups p = some (g, m) → u.sw.groups[g] = some grp →
    Told m s.ports[p] u.ports[p] → Formed u.swEnv u.sw grp
  settings : u.timing.settings = s.timing.settings
  forced : u.timing.forced = s.timing.forced
  nextTick : u.timing.nextTick = s.timing.nextTick
  timing : TimingTold p s u

/-- Every reference but one stands as it was. -/
def OnlyRef (r : RefId) (t u : Timing) : Prop := ∀ q : RefId, q ≠ r → u.refs[q] = t.refs[q]

/-- One group's engine acted and nothing else did, but for the timing unit, which follows the group's selector (R90, R113). -/
structure GroupCascade (g : GroupId) (s u : State) : Prop where
  others : KeepsOthers s u
  ports : u.ports = s.ports
  switching : OnlyGroup g s.sw u.sw
  settings : u.timing.settings = s.timing.settings
  forced : u.timing.forced = s.timing.forced
  nextTick : u.timing.nextTick = s.timing.nextTick
  timing : u.timing = s.timing.followSelectors u.timingEnv

/-- Everything but the switching block and the timing unit stands as it was, and so do the records of groups and elements. -/
structure SwitchCascade (s u : State) : Prop where
  others : KeepsOthers s u
  ports : u.ports = s.ports
  records : SameRecords s.sw u.sw
  settings : u.timing.settings = s.timing.settings
  forced : u.timing.forced = s.timing.forced
  nextTick : u.timing.nextTick = s.timing.nextTick

/-- One event at the actuators: the timing unit follows the selectors whose known position has changed (R90, R113). -/
structure BusCascade (s u : State) : Prop extends SwitchCascade s u where
  timing : u.timing = s.timing.followSelectors u.timingEnv

/-- Only the timing unit acted, and of it neither the clock of seconds nor any reference's record but one. -/
structure TimingCascade (s u : State) : Prop where
  others : KeepsOthers s u
  ports : u.ports = s.ports
  switching : u.sw = s.sw
  nextTick : u.timing.nextTick = s.timing.nextTick

/-! ### The cable test (R22 to R24) -/

/-- The part after the running test has ended at a time with a reply (R23, R24): the reply is ready, the record is gone, and both
ports have resumed pilot service. -/
def testEnded (t : CableTest) (payload : List Byte) (now : Nat) (s : State) : State :=
  { modLink t.link (Link.answer payload) s with
    now := now
    cableTest := none
    ports := upd (upd s.ports t.outPort (Port.resumeOut now)) t.inPort (Port.resumeIn now) }

/-- The port converted after `p` (R26): the enabled port that comes soonest after it in cyclic port order, `p` itself last. -/
def ScannedNext (ports : Vector Port 32) (p q : PortId) : Prop :=
  ports[q].cfg.enabled = true ∧
    ∀ r : PortId, ports[r].cfg.enabled = true → (q.val + 31 - p.val) % 32 ≤ (r.val + 31 - p.val) % 32

/-! ### The laws that every step keeps -/

/-- Mastership and the link-watch (R173 to R178, R158): at most one link is MASTER, a link claims only while the other is MASTER, the
period timer runs exactly while a link is MASTER, the counts and settings lie in their ranges, and SHF is closed exactly when no
master has been granted or the lapse count has reached its limit. -/
structure MastershipInv (x : LinkSupervisor) : Prop where
  oneMaster : ¬ (x.linkA.role = .master ∧ x.linkB.role = .master)
  claims : ∀ l, (x.link l).role = .claimant → (x.link (otherLink l)).role = .master
  watched : x.periodTimer.isSome = x.hasMaster
  limit : 1 ≤ x.lapseLimit ∧ x.lapseLimit ≤ 4
  lapses : x.lapses ≤ 4
  run : x.run ≤ 3
  period : 200 ≤ x.period ∧ x.period ≤ 10000 ∧ x.period % 100 = 0
  shf : x.shf = (!x.everGranted || decide (x.lapseLimit ≤ x.lapses))

/-- The replies of one link (R171): the reply of the request outstanding, once it has been formed, and at most one BUSY reply. -/
structure RepliesInv (k : Link) : Prop where
  own : (k.ready.countP fun r => !r.busy) = if k.outstanding.any (·.formed) then 1 else 0
  busy : (k.ready.countP fun r => r.busy) ≤ 1

/-- The requests in progress (R21, R107, R171): only a CABLE-TEST whose test runs and a SETTLE wait for their reply, and the running
test's request is outstanding. -/
structure RequestsInv (s : State) : Prop where
  replies : ∀ l, RepliesInv (s.links.link l)
  waiting : ∀ l, ∀ o : Outstanding, (s.links.link l).outstanding = some o → o.formed = false →
    o.kind = 0x2B ∨ (o.kind = 0x16 ∧ ∃ t, s.cableTest = some t ∧ t.link = l)
  test : ∀ t, s.cableTest = some t → ∃ tag, (s.links.link t.link).outstanding = some ⟨tag, 0x16, false⟩

/-- The notice queue (R159): at most 32 notices, and no event leaves one behind. -/
structure NoticesInv (s : State) : Prop where
  bounded : s.notices.queue.length ≤ 32
  quiet : Quiet s

/-- One alarm point (R136, R142, R143, R147, R148): a declare soak runs only on a CLEAR point whose raw defect is present, a clear
soak only on a DECLARED one whose raw defect is absent; a point of severity NONE is not DECLARED; only a DECLARED point is
acknowledged. -/
structure PointInv (pt : Point) : Prop where
  declareSoak : pt.isDeclareSoak → pt.declared = false ∧ pt.raw = true
  clearSoak : pt.isClearSoak → pt.declared = true ∧ pt.raw = false
  graded : pt.declared → pt.severity ≠ .none
  acknowledged : pt.acknowledged → pt.declared = true

/-- The counts and contacts that the points make (R152, R154, R155): for each of CRITICAL, MAJOR and MINOR how many points of that severity
are declared, unmasked and unsuppressed, and how many of those are unacknowledged; each contact is closed where its count is 1 or more. -/
def CountsFit (a : AlarmUnit) : Prop :=
  let shown := fun sev : Severity => (List.finRange 319).countP fun k : PointId =>
    let pt := a.points[k]
    pt.declared && !pt.masked && !pt.suppressed && decide (pt.severity = sev)
  let sounding := fun sev : Severity => (List.finRange 319).countP fun k : PointId =>
    let pt := a.points[k]
    pt.declared && !pt.masked && !pt.suppressed && decide (pt.severity = sev) && !pt.acknowledged
  a.visual = ⟨shown .critical, shown .major, shown .minor⟩
    ∧ a.audible = ⟨sounding .critical, sounding .major, sounding .minor⟩
    ∧ (a.contacts.crv = true ↔ 1 ≤ shown .critical) ∧ (a.contacts.cra = true ↔ 1 ≤ sounding .critical)
    ∧ (a.contacts.mjv = true ↔ 1 ≤ shown .major) ∧ (a.contacts.mja = true ↔ 1 ≤ sounding .major)
    ∧ (a.contacts.mnv = true ↔ 1 ≤ shown .minor) ∧ (a.contacts.mna = true ↔ 1 ≤ sounding .minor)

/-- The alarm unit (R149, R154, R155): every point is as `PointInv` says, the active alarm list holds each DECLARED point once and
nothing else, and the counts and contacts are those the points make. -/
structure AlarmsInv (a : AlarmUnit) : Prop where
  points : ∀ k : PointId, PointInv a.points[k]
  active : ∀ k : PointId, k ∈ a.active ↔ a.points[k].declared = true
  once : a.active.Nodup
  counts : a.recount = a

/-- A value the steering line may carry: within ±100,000 ppb. -/
def steerable (x : Int) : Prop := -100000 ≤ x ∧ x ≤ 100000

/-- One reference's measurements (R119, R120): at most 16 samples, each within ±100,000 ppb, and the average they give. -/
structure RefInv (x : Ref) : Prop where
  window : x.window.length ≤ 16
  samples : ∀ v ∈ x.window, steerable v.ppb
  average : x.average = averageOf x.window

/-- The timing unit (R119, R120, R126 to R130): the steering word and what it steps toward lie within ±100,000 ppb; a reference is
selected exactly in ACQUIRING and LOCKED, and it is the one on REFOUT; the holdover timer runs exactly in HOLDOVER and the acquire
timer only in ACQUIRING; the history holds the last four locked updates, and sixteen of them make the part holdover-ready. -/
structure TimingInv (t : Timing) : Prop where
  refs : ∀ r : RefId, RefInv t.refs[r]
  word : steerable t.word
  history : ∀ v ∈ t.history, steerable v
  holdoverValue : steerable t.holdoverValue
  selecting : t.selected.isSome = (decide (t.state = .acquiring) || decide (t.state = .locked))
  refout : t.refout = t.selected
  holdover : t.holdoverTimer.isSome = decide (t.state = .holdover)
  acquiring : t.acquireTimer.isSome → t.state = .acquiring
  pushed : t.history.length = min 4 t.lockedUpdates
  counted : t.lockedUpdates ≤ 16
  ready : t.ready = decide (t.lockedUpdates = 16)

/-- The selected timing reference (R122, R125, R131): it is always selectable, and the outgoing codes are those of its quality, with 15
on its source port, or, with none selected, those of HOLDOVER and FREE-RUN. -/
structure SelectionInv (ports : Vector Port 32) (t : Timing) : Prop where
  able : ∀ r, t.selected = some r → t.refs[r].enabled = true ∧ t.refs[r].present = true ∧ t.refs[r].state = .qualified
    ∧ t.refs[r].quality r ≠ 15 ∧ t.refs[r].lockedOut = false
  healthy : ∀ r, t.selected = some r → 2 ≤ r.val → ∃ p, t.refs[r].source = some p ∧ ports[p].raw ≠ .fail
  codes : ∀ (r : RefId) (p : PortId), t.selected = some r → t.state = .acquiring ∨ t.state = .locked →
    t.codes[p] = if 2 ≤ r.val ∧ t.refs[r].source = some p then 15 else t.refs[r].quality r
  heldCodes : ∀ p : PortId, t.selected = none → t.state = .holdover → t.codes[p] = t.settings.holdoverQuality
  freeCodes : ∀ p : PortId, t.selected = none → t.state = .freeRun → t.codes[p] = t.settings.freeRunQuality

/-- One cable port (R1, R28, R30, R35, R37 to R40, R42): its thresholds are in order; a disabled port holds nothing but its record; an
enabled one holds the raw condition its findings give, and reports it unless its hold-off timer runs on a worse one. -/
structure PortInv (p : Port) : Prop where
  thresholds : p.cfg.tFail < p.cfg.tDeg ∧ p.cfg.tDeg < p.cfg.tOver
  persistence : p.cfg.persistence = 1 ∨ p.cfg.persistence = 3
  disabled : p.cfg.enabled = false → p = .disabled p.cfg
  raw : p.raw = p.rawCondition
  reported : p.holdTimer = none → p.reported = p.raw
  held : p.holdTimer.isSome → p.reported.rank < p.raw.rank
  window : p.buckets.length = 10
  power : ∀ x, p.ps = some x → -6000 ≤ x ∧ x ≤ 1500

/-- All ports, and the power scan: the code of a conversion is used only for a port that is enabled (R27). -/
structure PortsInv (s : State) : Prop where
  ports : ∀ p : PortId, PortInv s.ports[p]
  scan : ∀ c, s.conversion = some c → c.used = true → s.ports[c.port].cfg.enabled = true

/-- Group records and element records (R43 to R48, R89): a configured group's members are distinct enabled ports of no other group,
with the count its type takes; the element table holds, each address once, exactly the elements of the configured groups. -/
structure MembershipInv (s : State) : Prop where
  members : ∀ g : GroupId, ∀ grp, s.sw.groups[g] = some grp →
    grp.cfg.members.Nodup ∧ (∀ p ∈ grp.cfg.members, s.ports[p].cfg.enabled = true)
      ∧ countFits grp.cfg.type grp.cfg.ends grp.cfg.count = true ∧ grp.cfg.addresses.Nodup
  apart : ∀ g h : GroupId, ∀ x y, g ≠ h → s.sw.groups[g] = some x → s.sw.groups[h] = some y →
    ∀ p, p ∈ x.cfg.members → p ∉ y.cfg.members
  addresses : (s.sw.elements.map (·.address)).Nodup
  owned : ∀ el ∈ s.sw.elements, ∃ grp, s.sw.groups[el.group] = some grp ∧ el.address ∈ grp.cfg.addresses
  present : ∀ g : GroupId, ∀ grp, s.sw.groups[g] = some grp →
    ∀ a ∈ grp.cfg.addresses, ∃ el ∈ s.sw.elements, el.address = a ∧ el.group = g

/-- The move queue and the arbiter (R97 to R99): every entry serves a group that has a record and is neither FROZEN nor HALTED, no two
serve one group, at most 16 entries stand in the queue and at most four are MAINTENANCE, no queued MAINTENANCE entry stands before a
queued entry of another class, and no choice waits while a transaction is on the bus. -/
structure QueueInv (w : Switching) : Prop where
  once : (w.queue.map (·.group)).Nodup
  owned : ∀ op ∈ w.queue, ∃ grp, w.groups[op.group] = some grp ∧ grp.state ≠ .frozen ∧ grp.state ≠ .halted
  entries : w.queue.length ≤ 16
  maintenance : w.queue.countP (fun op => decide (op.cls = .maintenance)) ≤ 4
  order : w.queue.Pairwise fun x y =>
    ¬ (x.cls = .maintenance ∧ x.inFlight = false ∧ y.cls ≠ .maintenance ∧ y.inFlight = false)
  choice : w.bus ≠ none → w.chosen = none

end Sys2Proof.Machine
end

