-- ==== Sys2Proof/Certificates/Slice0/Obligations.lean ====
section
/-! DEFINITION. The obligations: what is stated of this block for the provers. Each docstring names the rules of spec/ it rests on, or
says that it is the model's choice and names the log entry. -/

open Sys2Proof
open Sys2Proof.Machine

/-! ### The block as a machine -/

/-- A step takes the command at the front of the queue and runs it on the part with the queue's rest. -/
def Obligations.StepRunsFrontCommand : Prop :=
  ∀ (c : Instr) (rest : List Instr) (s : State), s.pending = c :: rest → step s = exec c { s with pending := rest }

/-- With no command waiting the block idles: only the model's clock goes on (the model's choice, log entry 1). -/
def Obligations.IdleStepAdvancesClock : Prop :=
  ∀ s : State, s.pending = [] → step s = .next { s with now := s.now + 1 }

/-- Full reset (R181, with R1, R7, R8, R25, R43, R89, R109, R132, R134, R140, R153, R159, R165) completes in every state: every block at
its reset values, the severity profile and every alarm point among them, with NO-MASTER and SHELF-FAIL declared. That the model's
clock and the waiting commands go on is the model's choice (log entry 35), and so are a port's absent power and clear saturation marks
in `Port.disabled`, to which R4, R28 and R34 give no value (log entry 28). -/
def Obligations.FullResetLeavesResetValues : Prop :=
  ∀ (rate : BitVec 2) (s : State), ∃ t, exec (.fullReset rate) s = .next t ∧ t.now = s.now ∧ t.pending = s.pending
    ∧ t.shelf = 0 ∧ t.slot = 0
    ∧ (∀ i : Fin 4, t.ranges[i] = ⟨false, .outOfService, 0, 0⟩)
    ∧ (∀ p : PortId, t.ports[p] = .disabled .reset) ∧ t.conversion = none ∧ t.cableTest = none
    ∧ (∀ g : GroupId, t.sw.groups[g] = none) ∧ t.sw.elements = [] ∧ t.sw.queue = [] ∧ t.sw.bus = none ∧ t.sw.chosen = none ∧ t.sw.busDefect = false
    ∧ t.sw.settleFail = []
    ∧ (∀ r : RefId, t.timing.refs[r] = .reset r) ∧ t.timing.settings = .reset ∧ t.timing.selected = none
    ∧ t.timing.forced = none ∧ t.timing.state = .freeRun ∧ t.timing.word = 0 ∧ t.timing.history = [] ∧ t.timing.ready = false
    ∧ t.timing.refout = none ∧ (∀ p : PortId, t.timing.codes[p] = 12)
    ∧ t.timing.acquireTimer = none ∧ t.timing.holdoverTimer = none ∧ t.timing.lockedUpdates = 0
    ∧ t.timing.steering = none ∧ t.timing.steerWaiting = none
    ∧ t.alarms.profile.toList =
        [⟨.major, .minor, 2500, 10000⟩, ⟨.minor, .warning, 2500, 10000⟩, ⟨.major, .minor, 2500, 10000⟩,
         ⟨.minor, .warning, 2500, 10000⟩, ⟨.major, .minor, 2500, 10000⟩, ⟨.minor, .warning, 2500, 10000⟩,
         ⟨.minor, .warning, 2500, 10000⟩,
         ⟨.minor, .none, 0, 0⟩, ⟨.minor, .none, 0, 0⟩, ⟨.minor, .none, 0, 0⟩, ⟨.major, .none, 0, 0⟩, ⟨.critical, .none, 0, 0⟩,
         ⟨.warning, .none, 0, 0⟩,
         ⟨.minor, .none, 0, 0⟩, ⟨.minor, .none, 0, 0⟩, ⟨.warning, .none, 0, 0⟩,
         ⟨.major, .none, 0, 0⟩, ⟨.major, .none, 0, 0⟩, ⟨.major, .none, 0, 0⟩, ⟨.critical, .none, 0, 0⟩, ⟨.major, .none, 0, 0⟩]
    ∧ (∀ k : PointId,
        let present := decide (k = 316 ∨ k = 317)
        t.alarms.points[k] = ⟨present, present, .stopped, if k.val < 224 then .sa else .ungraded,
          t.alarms.profile[profileIndex k].sa, false, false, false⟩)
    ∧ t.alarms.active.Perm [316, 317] ∧ t.alarms.visual = ⟨1, 1, 0⟩ ∧ t.alarms.audible = ⟨1, 1, 0⟩
    ∧ t.alarms.contacts = ⟨true, true, true, true, false, false⟩ ∧ t.alarms.acoPin = ⟨0, 0⟩
    ∧ t.notices.queue.Perm [.alarm 316 .raised .major .ungraded, .alarm 317 .raised .critical .ungraded]
    ∧ t.notices.overflow = false ∧ t.notices.threshold = .warning ∧ t.notices.groupEnable = true
    ∧ t.notices.timingEnable = true
    ∧ (∀ l : LinkId, t.links.link l = ⟨⟨.breakHunt, [], .search 0, 0, 0⟩, none, [], none, .observer⟩)
    ∧ t.links.challenge = none ∧ t.links.rate = rate ∧ t.links.mode = .plain ∧ t.links.period = 1000 ∧ t.links.lapseLimit = 2
    ∧ t.links.periodTimer = none ∧ t.links.lapses = 0 ∧ t.links.run = 0 ∧ t.links.everGranted = false ∧ t.links.shf = true

/-- The end of an event (R99, R137 to R139, R142 to R149, R152, R154, R155, R159, R160): every alarm point takes its raw defect from its
block and declares, soaks or clears; it is masked by its maskers of R145's table, suppressed by its port's range, and graded from its port's
place in a group. Newly declared points join the end of the active list in some order, counts and contacts are those that the points make
(`CountsFit`), and the event's notices join the queue in some order. The arbiter of the bus chooses where it holds no choice; nothing else
changes. That all points are taken together, so that a point's net change alone draws a notice, is the model's choice (log entry 8), and so
is that any order of things which come about together may arise (log entry 9). -/
def Obligations.EventEndsInAlarmsAndNotices : Prop :=
  ∀ (e : Expiry) (s : State), let t := finish e s
    t.now = s.now ∧ KeepsSettings s t ∧ KeepsPorts s t ∧ KeepsSwitching s t ∧ KeepsTiming s t ∧ KeepsLinks s t ∧ Quiet t
    ∧ (let raws := fun (n : Nat) (point : Fin n → PointId) => (List.finRange n).map fun i => t.alarms.points[point i].raw
       (∀ p : PortId, let x := s.ports[p]
          raws 7 (portPoint · p) = if x.cfg.enabled then
              [x.lostLatch, !x.lostLatch && !x.overLatch && x.lowLatch, !x.lostLatch && x.overLatch, x.pilotLoss, x.traceMismatch,
               x.pilotErrors, x.accFlags.any (·.farFail)]
            else [false, false, false, false, false, false, false])
       ∧ (∀ g : GroupId, raws 6 (groupPoint · g) = match s.sw.groups[g] with
          | none => [false, false, false, false, false, false]
          | some x =>
            [decide (x.effective.kind = .bar ∨ x.effective.kind = .failP), x.protocolMismatch, x.farBridgeTimeout,
             decide (x.state = .frozen), decide (x.state = .halted),
             x.external.any fun r => decide (r.kind = .force ∨ r.kind = .manual ∨ r.kind = .bar)])
       ∧ (∀ r : RefId, let x := s.timing.refs[r]
          raws 3 (refPoint · r) = if x.enabled then [!x.present, decide (x.state = .rejected), decide (x.quality r = 15)]
            else [false, false, false])
       ∧ [314, 315, 316, 317, 318].map (fun k : PointId => t.alarms.points[k].raw) =
          [decide (s.timing.state = .holdover), decide (s.timing.state = .freeRun ∧ ∃ r : RefId, s.timing.refs[r].enabled = true),
           decide (s.links.linkA.role ≠ .master ∧ s.links.linkB.role ≠ .master), s.links.shf, s.sw.busDefect])
    ∧ (let runs := fun (k : PointId) (serves : Bool) =>
         let old := s.alarms.points[k]
         let new := t.alarms.points[k]
         let entry := s.alarms.profile[profileIndex k]
         let was : Point :=
           if e = .declare k ∧ old.declared = false ∧ old.isDeclareSoak = true then
             { old with declared := true, soak := .stopped, acknowledged := false }
           else if e = .clear k ∧ old.declared = true ∧ old.isClearSoak = true then
             { old with declared := false, soak := .stopped, acknowledged := false }
           else old
         let comes := fun (declared : Bool) (soak : Soak) (acknowledged : Bool) =>
           new.declared = declared ∧ new.soak = soak ∧ new.acknowledged = acknowledged
         let kept := if was.severity.rank < new.severity.rank then false else was.acknowledged
         (serves = false → comes false .stopped false)
         ∧ (serves = true → was.declared = false →
             (new.severity = .none ∨ new.raw = false → comes false .stopped was.acknowledged)
             ∧ (new.severity ≠ .none → new.raw = true → was.raw = true → was.severity ≠ .none → comes false was.soak was.acknowledged)
             ∧ (new.severity ≠ .none → new.raw = true → was.raw = false ∨ was.severity = .none →
                 (entry.declareSoak = 0 → comes true .stopped false)
                 ∧ (entry.declareSoak ≠ 0 → comes false (.declare (s.now + entry.declareSoak * 1000)) was.acknowledged)))
         ∧ (serves = true → was.declared = true →
             (new.severity = .none → comes false .stopped false)
             ∧ (new.severity ≠ .none → new.raw = true → comes true .stopped kept)
             ∧ (new.severity ≠ .none → new.raw = false → was.raw = false → comes true was.soak kept)
             ∧ (new.severity ≠ .none → new.raw = false → was.raw = true →
                 (entry.clearSoak = 0 → comes false .stopped false)
                 ∧ (entry.clearSoak ≠ 0 → comes true (.clear (s.now + entry.clearSoak * 1000)) kept)))
       (∀ (i : Fin 7) (p : PortId), runs (portPoint i p) s.ports[p].cfg.enabled)
       ∧ (∀ (i : Fin 6) (g : GroupId), runs (groupPoint i g) s.sw.groups[g].isSome)
       ∧ (∀ (i : Fin 3) (r : RefId), runs (refPoint i r) s.timing.refs[r].enabled)
       ∧ (∀ k : PointId, 314 ≤ k.val → runs k true))
    ∧ (∃ joined : List PointId,
        joined.Perm ((List.finRange 319).filter fun k : PointId => t.alarms.points[k].declared && !s.alarms.points[k].declared)
        ∧ t.alarms.active = s.alarms.active.filter (fun k : PointId => t.alarms.points[k].declared) ++ joined)
    ∧ CountsFit t.alarms ∧ t.alarms.profile = s.alarms.profile
    ∧ (let shows := fun pt : Point => pt.declared && !pt.masked && !pt.suppressed && decide (pt.severity ≠ .none)
       let passes := fun sev : Severity => decide (s.notices.threshold.rank ≤ sev.rank)
       ∃ ns : List Notice,
        ns.Perm (s.sw.raised ++ s.timing.raised ++ s.raised ++ (List.finRange 319).filterMap fun k : PointId =>
          let old := s.alarms.points[k]
          let new := t.alarms.points[k]
          if shows old && shows new then
            if old.severity ≠ new.severity ∧ (passes old.severity || passes new.severity) then
              some (.alarm k .severity new.severity new.grade) else none
          else if shows old && new.declared then
            if passes new.severity then some (.alarm k .hidden new.severity new.grade) else none
          else if shows old then if passes old.severity then some (.alarm k .cleared old.severity new.grade) else none
          else if shows new && passes new.severity then some (.alarm k .raised new.severity new.grade)
          else none)
        ∧ t.notices = ns.foldl Notices.enqueue s.notices)
    ∧ (let holds := fun k : PointId => t.alarms.points[k].raw || t.alarms.points[k].declared
       (∀ p : PortId,
          let light := holds (portPoint 0 p)
          let loss := holds (portPoint 3 p)
          [0, 1, 2, 3, 4, 5, 6].map (fun i => t.alarms.points[portPoint i p].masked)
            = [false, light, false, light, light || loss, light || loss, light || loss])
       ∧ (∀ g : GroupId, [0, 1, 2, 3, 4, 5].map (fun i => t.alarms.points[groupPoint i g].masked)
            = [false, false, false, holds (groupPoint 4 g), false, false])
       ∧ (∀ r : RefId, [0, 1, 2].map (fun i => t.alarms.points[refPoint i r].masked)
            = [decide (2 ≤ r.val) && s.timing.refs[r].source.any (fun p => holds (portPoint 0 p)), holds (refPoint 0 r),
               holds (refPoint 0 r)])
       ∧ (∀ k : PointId, 314 ≤ k.val → t.alarms.points[k].masked = false))
    ∧ (∀ (i : Fin 7) (p : PortId),
        let pt := t.alarms.points[portPoint i p]
        (memberOf s.sw.groups p = none → pt.grade = .sa)
        ∧ (∀ g grp m, memberOf s.sw.groups p = some (g, m) → s.sw.groups[g] = some grp →
            pt.grade = if s.sw.selected grp = some m ∧ (m = 0 ∨ grp.state ≠ .halted) then .nsa else .sa)
        ∧ pt.severity = (let entry := s.alarms.profile[i.val]; if pt.grade = .nsa then entry.nsa else entry.sa)
        ∧ (pt.suppressed = true ↔ rangeStatus s.ranges p ≠ .none))
    ∧ (∀ k : PointId, 224 ≤ k.val →
        t.alarms.points[k].grade = .ungraded ∧ t.alarms.points[k].suppressed = false
        ∧ t.alarms.points[k].severity = s.alarms.profile[profileIndex k].sa)

/-! ### Requests in general (R168, R170, R171, R182) -/

/-- The checks of a request in their order (R167, R170, R171, R182): a frame with no break before it is not seen; on a link that has a
request outstanding it draws one BUSY reply, or none while a BUSY reply waits; a KIND that names no request is answered BAD-KIND, with KIND
plus 0x80, or 0xFF to a KIND of 0x80 or above; a length other than its table's draws BAD-LENGTH; a master-only request from a link that is
not MASTER draws NOT-MASTER. Nothing but the link changes. -/
def Obligations.RequestChecksComeInOrder : Prop :=
  (∀ (i : Instr) (q : Taken) (s : State), takenRequest i = some q →
    ((s.links.link q.link).rx.state ≠ .awaitLen → exec i s = .next s)
    ∧ ((s.links.link q.link).rx.state = .awaitLen → (s.links.link q.link).outstanding.isSome → exec i s = .next { s with links := s.links.modLink q.link fun k =>
      { k with
        rx := ⟨.breakHunt, [], .search 0, 0, 0⟩
        ready := if k.ready.any (·.busy) then k.ready else k.ready ++ [⟨⟨q.tag, q.kind + 0x80, [3]⟩, true⟩] } })
    ∧ (FreeLink q.link s → q.fits = false → exec i s = .next (replied q.link q.tag q.kind [5] s))
    ∧ (FreeLink q.link s → q.fits = true → q.masterOnly = true → (s.links.link q.link).role ≠ .master →
        exec i s = .next (replied q.link q.tag q.kind [2] s)))
  ∧ (∀ (l : LinkId) (tag kind : Byte) (payload : List Byte) (s : State), (s.links.link l).rx.state ≠ .awaitLen →
      exec (.requestBadKind l tag kind payload) s = .next s)
  ∧ (∀ (l : LinkId) (tag kind : Byte) (payload : List Byte) (s : State), kind ∉ requestKinds → FreeLink l s →
      exec (.requestBadKind l tag kind payload) s = .next { s with links := s.links.modLink l fun k =>
        { k with
          rx := ⟨.breakHunt, [], .search 0, 0, 0⟩
          outstanding := some ⟨tag, kind, true⟩
          ready := k.ready ++ [⟨⟨tag, if kind.toNat < 128 then kind + 0x80 else 0xFF, [4]⟩, false⟩] } })

/-- The requests that only read (R6, R8, R49, R112, R133, R141, R150, R180): on a link with nothing outstanding each is answered OK with
its record or live state, at most 41 alarm entries a reply, and nothing but the link changes; an index outside its set is refused
BAD-ARG; an UNCONFIGURED group is its state code alone. The items of PORT-STATUS, GROUP-STATUS and TIMING-STATUS stand in the order of
R6, R49 and R133 and in the widths and code sets of R184 and section 10.1, and an entry of READ-ALARMS is the six bytes of section 10.3.
The model's reading of R184 are the bytes of an item that is absent or whose state does not hold, or that only the other kind of group or
reference has (log entry 20), and of the acquire time when its timer has expired (log entry 26). -/
def Obligations.ReadsReplyAndChangeNothing : Prop :=
  (∀ (l : LinkId) (tag : Byte) (s : State), FreeLink l s →
    (∀ p : PortId,
      exec (.getPort l tag [byteOf p.val]) s = .next (replied l tag 0x11 (0 :: portRecordBytes p s.ports[p].cfg) s)
      ∧ exec (.portStatus l tag [byteOf p.val]) s = .next (replied l tag 0x12 (0 :: portStatusBytes s p) s))
    ∧ exec (.getRanges l tag []) s =
        .next (replied l tag 0x15 (0 :: (List.finRange 4).flatMap fun i : Fin 4 => rangeBytes i.val s.ranges[i]) s)
    ∧ (∀ g : GroupId,
        (s.sw.groups[g] = none → exec (.getGroup l tag [byteOf g.val]) s = .next (replied l tag 0x22 [0, 0] s)
          ∧ exec (.groupStatus l tag [byteOf g.val]) s = .next (replied l tag 0x23 [0, 0] s))
        ∧ (∀ grp, s.sw.groups[g] = some grp →
            exec (.getGroup l tag [byteOf g.val]) s = .next (replied l tag 0x22 (0 :: groupBytes g grp.cfg) s)
            ∧ exec (.groupStatus l tag [byteOf g.val]) s = .next (replied l tag 0x23 (0 :: groupStatusBytes s grp) s)))
    ∧ (∀ r : RefId, exec (.getRef l tag [byteOf r.val]) s =
        .next (replied l tag 0x31 (0 :: refBytes r s.timing.refs[r] ++ [flagByte s.timing.refs[r].lockedOut]) s))
    ∧ exec (.timingStatus l tag []) s = .next (replied l tag 0x34 (0 :: timingStatusBytes s) s)
    ∧ (∀ k : Fin 21, exec (.getProfile l tag [byteOf k.val]) s =
        .next (replied l tag 0x41 (0 :: profileBytes k s.alarms.profile[k]) s))
    ∧ (∀ hi lo : Byte, u16 hi lo ≤ 318 → exec (.readAlarms l tag [hi, lo]) s =
        .next (replied l tag 0x42 (0 :: be16 s.alarms.active.length ++ [hi, lo]
          ++ ((s.alarms.active.drop (u16 hi lo)).take 41).flatMap (alarmEntry s.alarms)) s))
    ∧ exec (.identify l tag []) s = .next (replied l tag 0x01 [0, 0x41, 0x32, 0x01, 32, 12, 6, byteOf s.links.rate.toNat] s)
    ∧ (∀ b : Byte,
        (32 ≤ b.toNat → exec (.getPort l tag [b]) s = .next (replied l tag 0x11 [6] s)
          ∧ exec (.portStatus l tag [b]) s = .next (replied l tag 0x12 [6] s))
        ∧ (12 ≤ b.toNat → exec (.getGroup l tag [b]) s = .next (replied l tag 0x22 [6] s)
          ∧ exec (.groupStatus l tag [b]) s = .next (replied l tag 0x23 [6] s))
        ∧ (6 ≤ b.toNat → exec (.getRef l tag [b]) s = .next (replied l tag 0x31 [6] s))
        ∧ (21 ≤ b.toNat → exec (.getProfile l tag [b]) s = .next (replied l tag 0x41 [6] s)))
    ∧ (∀ hi lo : Byte, 318 < u16 hi lo → exec (.readAlarms l tag [hi, lo]) s = .next (replied l tag 0x42 [6] s)))
  ∧ (∀ s : State,
      let part := fun (bytes : List Byte) (start count : Nat) => (bytes.drop start).take count
      let yes := fun b : Bool => if b then (1 : Byte) else 0
      let one := fun x : Option Nat => match x with | some n => byteOf n | none => 0xFF
      let two := fun n : Nat => [byteOf (n / 256), byteOf n]
      let three := fun x : Int => let n := (x % 16777216).toNat; [byteOf (n / 65536), byteOf (n / 256), byteOf n]
      let maybe := fun (width : Nat) (x : Option (List Byte)) => match x with | some v => 1 :: v | none => List.replicate (width + 1) 0
      let left := fun timer : Option Nat => maybe 4 (timer.map fun t =>
        let n := (t - s.now + 999999) / 1000000
        [byteOf (n / 16777216), byteOf (n / 65536), byteOf (n / 256), byteOf n])
      let condition : Condition → Byte := fun | .ok => 0 | .degrade => 1 | .fail => 2 | .notInService => 3
      let range : RangeStatus → Byte := fun | .none => 0 | .test => 1 | .outOfService => 2
      let request := fun r : Request => [byteOf r.kind.code, byteOf r.member]
      let requestOrNone := fun r : Option Request => match r with | some r => request r | none => [0xFF, 0]
      (∀ p : PortId,
        let x := s.ports[p]
        let b := portStatusBytes s p
        b.length = 32
        ∧ part b 0 4 = [yes x.cfg.enabled, range (rangeStatus s.ranges p), condition x.raw, condition x.reported]
        ∧ part b 4 1 = [if x.lostLatch then 3 else if x.overLatch then 2 else if x.lowLatch then 1 else 0]
        ∧ part b 5 3 = maybe 2 (x.ps.map fun v => two (v % 65536).toNat)
        ∧ part b 8 4 = maybe 3 (x.accTrace.map fun t => [t.shelf, t.slot, t.port])
        ∧ part b 12 5 = maybe 4 (x.traceCand.map fun c => [c.value.shelf, c.value.slot, c.value.port, byteOf c.count])
        ∧ part b 17 2 = [one (x.accFlags.map fun f => (if f.farFail then 1 else 0) + (if f.farDegrade then 2 else 0)
            + (if f.testRange then 4 else 0) + 8 * f.groupType.toNat), one x.accQuality]
        ∧ part b 19 3 = maybe 2 (x.accProt.map fun f => [f.request, f.effect])
        ∧ part b 22 3 = [yes x.pilotLoss, yes x.traceMismatch, yes x.pilotErrors]
        ∧ part b 25 6 = two x.buckets.sum ++ two x.lastValid ++ two x.lastBad
        ∧ part b 31 1 = [byteOf ((if outTest s p then 1 else 0) + (if inTest s p then 2 else 0))])
      ∧ (∀ grp : Machine.Group,
        let b := groupStatusBytes s grp
        let k := 8 + 5 * grp.cfg.count
        let element := fun address : Option Nat =>
          one (address.bind s.sw.known) :: maybe 1 ((address.bind s.sw.element).map fun el => [el.lastFault])
        let state : GroupState → Byte := fun
          | .adopting => 1 | .idle => 2 | .bridging => 3 | .awaitFar => 4 | .selecting => 5 | .switched => 6 | .releasing => 7
          | .recovering => 8 | .frozen => 9 | .halted => 10 | .maint => 11
        let trial : TrialResult → Byte := fun | .none => 0 | .pass => 1 | .fail => 2 | .abandoned => 3
        b.length = k + (match grp.cfg.ends with | .single => 23 | .dual => 25)
        ∧ part b 0 3 = [state grp.state, trial grp.trialResult, byteOf (grp.cfg.count + 1)]
        ∧ (∀ (m : Nat) (p : PortId), grp.cfg.members[m]? = some p → part b (3 + 5 * m) 5 =
            [byteOf p.val, condition s.ports[p].reported, range (rangeStatus s.ranges p)]
              ++ (if 1 ≤ m ∧ rangeStatus s.ranges p = .outOfService then [0xFF, 0] else match s.ports[p].reported with
                | .degrade => if m = 0 then [7, 0] else [8, byteOf m]
                | .fail => if m = 0 then [13, 0] else [10, byteOf m]
                | _ => [0xFF, 0]))
        ∧ part b k 2 = requestOrNone grp.external
        ∧ part b (k + 2) 7 = request (grp.stay.getD ⟨.none, 0⟩) ++ left grp.restoreTimer
        ∧ part b (k + 9) 8 = request grp.local_ ++ requestOrNone grp.remote ++ request grp.effective
            ++ [byteOf grp.target, one (s.sw.selected grp)]
        ∧ part b (k + 17) 6 = element grp.cfg.bridge ++ element (some grp.cfg.selector)
        ∧ (grp.cfg.ends = .dual → part b (k + 23) 2 = [yes grp.protocolMismatch, one grp.farBridged]))
      ∧ (let t := s.timing
         let b := timingStatusBytes s
         let k := 9 + 3 * t.history.length
         let state : TimingState → Byte := fun | .freeRun => 0 | .acquiring => 1 | .locked => 2 | .holdover => 3
         let quality : QualState → Byte := fun | .unqualified => 0 | .soaking => 1 | .qualified => 2 | .rejected => 3
         b.length = k + 144
         ∧ part b 0 3 = [state t.state, one (t.selected.map Fin.val), one (t.forced.map Fin.val)]
         ∧ part b 3 3 = three t.word
         ∧ part b 6 (3 * t.history.length + 3) =
             [yes t.ready, byteOf t.lockedUpdates, byteOf t.history.length] ++ t.history.flatMap three
         ∧ (t.state = .holdover → part b k 9 = maybe 3 (some (three t.holdoverValue)) ++ left t.holdoverTimer)
         ∧ (t.state ≠ .holdover → part b k 9 = List.replicate 9 0)
         ∧ (t.state = .acquiring → part b (k + 9) 5 = left (some (t.acquireTimer.getD s.now)))
         ∧ (t.state ≠ .acquiring → part b (k + 9) 5 = List.replicate 5 0)
         ∧ (∀ r : RefId,
             let x := t.refs[r]
             part b (k + 14 + 21 * r.val + (r.val - 2)) 21 =
               [yes x.enabled, yes x.lockedOut, yes x.present, quality x.state, byteOf x.window.length]
                 ++ maybe 4 (x.latest.map fun v => three v.ppb ++ [yes v.outOfRange]) ++ maybe 3 (x.average.map three)
                 ++ left (if x.state = .soaking then x.soakTimer else none)
                 ++ [byteOf (x.quality r), yes (x.selectable s.ports r)]
             ∧ (2 ≤ r.val → part b (k + 14 + 22 * r.val + 19) 1 = [one (x.source.map Fin.val)])))
      ∧ (∀ k : PointId,
          let pt := s.alarms.points[k]
          let n := k.val
          let kind := if n < 224 then n / 32 else if n < 296 then 7 + (n - 224) / 12 else if n < 314 then 13 + (n - 296) / 6 else n - 298
          let severity : Severity → Byte := fun | .none => 0 | .warning => 1 | .minor => 2 | .major => 3 | .critical => 4
          let grade : Grade → Byte := fun | .sa => 0 | .nsa => 1 | .ungraded => 2
          alarmEntry s.alarms k = two n ++ [severity pt.severity, grade pt.grade,
            byteOf ((if pt.masked then 1 else 0) + (if pt.suppressed then 2 else 0) + (if pt.acknowledged then 4 else 0)),
            byteOf kind]))

/-! ### Cable ports, ranges, pilot, cable test (chapter 1) -/

/-- R7 whole. SET-SHELF-ID stores the shelf number as sent and the slot clamped to 63, gives both in its reply, and changes nothing else,
so that a message in transmission keeps its bytes; it is master-only. A pilot message started carries the shelf and slot of that moment.
After full reset both are 0, and RESTART keeps them. TRACE-MISMATCH and all else that comes of a received message is the same whatever
the part's own shelf and slot are. -/
def Obligations.ShelfIdStoresClampedSlot : Prop :=
  (∀ (l : LinkId) (tag shelf slot : Byte) (s : State),
    (MasterReady l s → exec (.setShelfId l tag [shelf, slot]) s =
      .next { replied l tag 0x13 [0, shelf, if slot.toNat ≤ 63 then slot else 63] s with
        shelf := shelf, slot := if slot.toNat ≤ 63 then slot else 63 })
    ∧ (FreeLink l s → (s.links.link l).role ≠ .master →
        exec (.setShelfId l tag [shelf, slot]) s = .next (replied l tag 0x13 [2] s)))
  ∧ (∀ (p : PortId) (s : State), s.ports[p].tx.phase = .leadIn ∨ s.ports[p].tx.phase = .message →
      ∃ t, exec (.pilotTransmit p) s = .next t ∧ byteAt t.ports[p].tx.bytes 1 = s.shelf ∧ byteAt t.ports[p].tx.bytes 2 = s.slot)
  ∧ (∀ (rate : BitVec 2) (s : State), ∃ t, exec (.fullReset rate) s = .next t ∧ t.shelf = 0 ∧ t.slot = 0)
  ∧ (∀ (l : LinkId) (s : State), ∃ t, exec (.restartTakesEffect l) s = .next t ∧ t.shelf = s.shelf ∧ t.slot = s.slot)
  ∧ (∀ (l : LinkId) (tag : Byte) (s : State), ∃ t, exec (.restart l tag []) s = .next t ∧ t.shelf = s.shelf ∧ t.slot = s.slot)
  ∧ (∀ (p : PortId) (body : Vector Byte 8) (noise : Bool) (search samples : List Bool) (shelf slot : Byte) (s : State),
      ∀ i ∈ [Instr.pilotMessage p body noise, .pilotCharacterTaken p search samples],
        ∃ t, exec i s = .next t
          ∧ exec i { s with shelf := shelf, slot := slot } = .next { t with shelf := shelf, slot := slot })

/-- SET-PORT that enables a port (R3, R26, R34, R42): pilot service starts, nothing is accepted, latches and defects are clear, both
conditions are OK, and a resting ADC begins a conversion on the port. That the port's power P is absent and both its saturation marks are
clear until its first conversion (`Port.disabled`) is the model's choice (log entry 28). -/
def Obligations.SetPortStartsService : Prop :=
  ∀ (l : LinkId) (tag : Byte) (payload : List Byte) (p : PortId) (cfg : PortRecord) (s : State),
    MasterReady l s → payload.length = 24 → setPortArgs payload = some (p, cfg) → cfg.enabled = true →
    s.ports[p].cfg.enabled = false →
    ∃ u, exec (.setPort l tag payload) s = .next (accepts l (0 :: portRecordBytes p cfg) u)
      ∧ u.ports[p] = { Port.disabled cfg with
          rx := ⟨true, .search 0⟩, lossTimer := some (s.now + 40000), raw := .ok, reported := .ok
          tx := ⟨.leadIn, s.now, s.now + 2500, []⟩ }
      ∧ u.conversion = (if s.conversion = none then some ⟨p, true, s.now + 250⟩ else s.conversion)
      ∧ PortCascade p (taken l tag 0x10 s) { u with conversion := s.conversion }

/-- SET-PORT that disables a port of no group (R4, R24, R27, R34, R42): the port holds its record and nothing else, the code of a conversion
under way on it will not be used, and a running cable test that uses the port is aborted. That its power P is absent and both its saturation
marks are clear from then on (`Port.disabled`) is the model's choice (log entry 28). -/
def Obligations.SetPortEndsService : Prop :=
  ∀ (l : LinkId) (tag : Byte) (payload : List Byte) (p : PortId) (cfg : PortRecord) (s : State),
    MasterReady l s → payload.length = 24 → setPortArgs payload = some (p, cfg) → cfg.enabled = false →
    s.ports[p].cfg.enabled = true → memberOf s.sw.groups p = none →
    ∃ u v, exec (.setPort l tag payload) s = .next (accepts l (0 :: portRecordBytes p cfg) u)
      ∧ v.ports[p] = .disabled cfg
      ∧ v.conversion = s.conversion.map (fun c => if c.port = p then { c with used := false } else c)
      ∧ v.sw = s.sw
      ∧ PortCascade p (taken l tag 0x10 s) { v with conversion := s.conversion }
      ∧ (testBroken v = false → u = v)
      ∧ (testBroken v = true → ∃ t, s.cableTest = some t ∧ u = testEnded t [0, 4, 0, 0] s.now v)
      ∧ (∀ t, s.cableTest = some t → t.outPort = p ∨ t.inPort = p → testBroken v = true)

/-- SET-PORT on a port that stays enabled (R5, R34, R190): receiver, assembly, accepted fields, counts, latches, Ps and transmitter
carry on; a changed expected trace re-evaluates TRACE-MISMATCH, a changed persistence discards the trace candidate, a changed threshold
re-evaluates PILOT-ERRORS; the raw condition is the one the findings and the new flags give. -/
def Obligations.SetPortKeepsService : Prop :=
  ∀ (l : LinkId) (tag : Byte) (payload : List Byte) (p : PortId) (cfg : PortRecord) (s : State),
    MasterReady l s → payload.length = 24 → setPortArgs payload = some (p, cfg) → cfg.enabled = true →
    s.ports[p].cfg.enabled = true →
    ∃ u, exec (.setPort l tag payload) s = .next (accepts l (0 :: portRecordBytes p cfg) u)
      ∧ PortCascade p (taken l tag 0x10 s) u
      ∧ (let old := s.ports[p]
         let new := u.ports[p]
         new = { old with
           cfg := cfg, traceCand := new.traceCand, traceMismatch := new.traceMismatch, pilotErrors := new.pilotErrors
           raw := new.raw, reported := new.reported, holdTimer := new.holdTimer }
         ∧ new.traceCand = (if cfg.persistence ≠ old.cfg.persistence then none else old.traceCand)
         ∧ new.traceMismatch = (if cfg.expected ≠ old.cfg.expected then
             cfg.expected.isSome && old.accTrace.isSome && decide (cfg.expected ≠ old.accTrace) && !old.pilotLoss
             else old.traceMismatch)
         ∧ new.pilotErrors = (if cfg.badThreshold ≠ old.cfg.badThreshold then
             decide (cfg.badThreshold ≤ old.buckets.sum)
               || (decide (cfg.badThreshold / 2 < old.buckets.sum) && old.pilotErrors)
             else old.pilotErrors)
         ∧ new.raw = new.rawCondition)

/-- SET-PORT on a port that stays disabled stores the record and has no other effect (R5); one that is refused leaves the record and
all port state unchanged (R2): BAD-ARG where its fields fail the tests, CONFLICT where it would disable a member port. The fields are
decoded from the payload of section 10.2 with the clamping of R2, so that every field of a record that passes the tests, its expected
trace among them, lies in its range (R1). -/
def Obligations.SetPortStoresRecordOrRefuses : Prop :=
  ∀ (l : LinkId) (tag : Byte) (payload : List Byte) (s : State), MasterReady l s → payload.length = 24 →
    (∀ p cfg, setPortArgs payload = some (p, cfg) → cfg.enabled = false → s.ports[p].cfg.enabled = false →
        memberOf s.sw.groups p = none →
        exec (.setPort l tag payload) s = .next (accepts l (0 :: portRecordBytes p cfg)
          { taken l tag 0x10 s with ports := s.ports.set p { s.ports[p] with cfg := cfg } }))
    ∧ (setPortArgs payload = none → exec (.setPort l tag payload) s = .next (replied l tag 0x10 [6] s))
    ∧ (∀ p cfg, setPortArgs payload = some (p, cfg) → cfg.enabled = false → memberOf s.sw.groups p ≠ none →
        exec (.setPort l tag payload) s = .next (replied l tag 0x10 [9] s))
    ∧ (let b := fun i => (byteAt payload i).toNat
       let word := fun i => 256 * b i + b (i + 1)
       let signed := fun i => if word i < 32768 then (word i : Int) else (word i : Int) - 65536
       let power := fun i => max (-6000) (min 1500 (signed i))
       (setPortArgs payload = none ↔ 32 ≤ b 0 ∨ 1 < b 1 ∨ 1 < b 2 ∨ (b 6 ≠ 1 ∧ b 6 ≠ 3)
         ∨ ¬ (power 12 < power 14 ∧ power 14 < power 16))
       ∧ (∀ p cfg, setPortArgs payload = some (p, cfg) →
           p.val = b 0 ∧ cfg = {
             enabled := decide (b 1 = 1)
             expected := if b 2 = 1 then some ⟨byteAt payload 3, byteOf (min 63 (b 4)), byteOf (min 31 (b 5))⟩ else none
             persistence := b 6
             pilotRequired := (byteAt payload 7).getLsbD 0, traceFail := (byteAt payload 7).getLsbD 1
             overloadFail := (byteAt payload 7).getLsbD 2
             icpt := power 8, slope := min 4095 (word 10), tFail := power 12, tDeg := power 14, tOver := power 16
             hysteresis := min 500 (word 18), holdOff := min 10000 (word 20) / 100 * 100
             badThreshold := max 1 (min 800 (word 22)) }
           ∧ (∀ t : Trace, cfg.expected = some t → t.slot.toNat ≤ 63 ∧ t.port.toNat ≤ 31)
           ∧ (cfg.persistence = 1 ∨ cfg.persistence = 3)
           ∧ -6000 ≤ cfg.tFail ∧ cfg.tFail < cfg.tDeg ∧ cfg.tDeg < cfg.tOver ∧ cfg.tOver ≤ 1500
           ∧ -6000 ≤ cfg.icpt ∧ cfg.icpt ≤ 1500 ∧ cfg.slope ≤ 4095 ∧ cfg.hysteresis ≤ 500
           ∧ cfg.holdOff ≤ 10000 ∧ cfg.holdOff % 100 = 0 ∧ 1 ≤ cfg.badThreshold ∧ cfg.badThreshold ≤ 800))

/-- SET-RANGE (R8, R9, R24, R52): the entry is replaced; the groups of which a member's range status changed form L, E and T afresh
and every other group stands as it was; a running cable test whose ports are no longer both under a range is aborted. The range status
of a port is OUT-OF-SERVICE where an enabled entry of that kind covers it, else TEST where one of that kind does, else none. An entry, an
enable, a kind or a port number outside its set, and a lower port above the upper, are refused BAD-ARG. -/
def Obligations.SetRangeReplacesEntry : Prop :=
  (∀ (l : LinkId) (tag : Byte) (i : Fin 4) (e : RangeEntry) (s : State), MasterReady l s → e.lower ≤ e.upper →
    ∃ u v, exec (.setRange l tag
        [byteOf i.val, flagByte e.enabled, byteOf e.kind.code, byteOf e.lower.val, byteOf e.upper.val]) s =
        .next (accepts l [0, byteOf i.val, flagByte e.enabled, byteOf e.kind.code, byteOf e.lower.val, byteOf e.upper.val] u)
      ∧ v.ranges = s.ranges.set i e
      ∧ SwitchCascade { taken l tag 0x14 s with ranges := v.ranges } v
      ∧ (∀ g : GroupId, g ∉ rangedGroups s.ranges v.ranges s.sw.groups → v.sw.groups[g] = s.sw.groups[g])
      ∧ (∀ g ∈ rangedGroups s.ranges v.ranges s.sw.groups, ∀ grp, v.sw.groups[g] = some grp → Formed v.swEnv v.sw grp)
      ∧ v.sw.elements = s.sw.elements ∧ v.sw.bus = s.sw.bus
      ∧ (testBroken v = false → u = v)
      ∧ (testBroken v = true → ∃ t, s.cableTest = some t ∧ u = testEnded t [0, 4, 0, 0] s.now v))
  ∧ (∀ s : State, testBroken s = true ↔ ∃ t, s.cableTest = some t ∧
      (s.ports[t.outPort].cfg.enabled = false ∨ s.ports[t.inPort].cfg.enabled = false
        ∨ rangeStatus s.ranges t.outPort = .none ∨ rangeStatus s.ranges t.inPort = .none))
  ∧ (∀ (l : LinkId) (tag : Byte) (payload : List Byte) (s : State), MasterReady l s → payload.length = 5 →
      let b := fun i => (byteAt payload i).toNat
      4 ≤ b 0 ∨ 1 < b 1 ∨ 1 < b 2 ∨ 32 ≤ b 3 ∨ 32 ≤ b 4 ∨ b 4 < b 3 →
      exec (.setRange l tag payload) s = .next (replied l tag 0x14 [6] s))
  ∧ (∀ (ranges : Vector RangeEntry 4) (p : PortId),
      let covered := fun kind : RangeKind =>
        ∃ i : Fin 4, ranges[i].enabled = true ∧ ranges[i].kind = kind ∧ ranges[i].lower ≤ p ∧ p ≤ ranges[i].upper
      (rangeStatus ranges p = .outOfService ↔ covered .outOfService)
      ∧ (rangeStatus ranges p = .test ↔ ¬ covered .outOfService ∧ covered .test)
      ∧ (rangeStatus ranges p = .none ↔ ¬ covered .outOfService ∧ ¬ covered .test))

/-- A complete message on a listening port (R14 to R18, R36): a valid one counts, restarts the loss timer, ends PILOT-LOSS, updates all
four candidates and re-evaluates TRACE-MISMATCH; a bad one counts in the newest bucket, re-evaluates PILOT-ERRORS and touches no
candidate. That the row stands for a message given whole, and is judged whatever the assembly held, is the model's choice (log entry
39). -/
def Obligations.PilotMessageJudged : Prop :=
  ∀ (p : PortId) (body : Vector Byte 8) (noise : Bool) (s : State), listening s p = true →
    ∃ u, exec (.pilotMessage p body noise) s = .next (finish .none u) ∧ PortCascade p s u
      ∧ (let old := s.ports[p]
         let new := u.ports[p]
         new.asm = .hunt ∧ new.rx.chars = .search 0 ∧ new.raw = new.rawCondition ∧ new.cfg = old.cfg ∧ new.power = old.power
         ∧ new.ps = old.ps ∧ new.tx = old.tx
         ∧ (byteSum (0xA6 :: body.toList) = 0 ∧ noise = false →
             new.validCount = old.validCount + 1 ∧ new.buckets = old.buckets ∧ new.lossTimer = some (s.now + 40000)
             ∧ new.pilotLoss = false
             ∧ new.traceCand = some (takeCand old.cfg.persistence (⟨body[0], body[1], body[2]⟩ : Trace) old.traceCand)
             ∧ new.flagsCand = some (takeCand 2 (flagsOf body[3]) old.flagsCand)
             ∧ new.qualityCand = some (takeCand 3 (body[4].toNat % 16) old.qualityCand)
             ∧ new.protCand = some (takeCand 2 (⟨body[5], body[6]⟩ : ProtFields) old.protCand)
             ∧ (∀ c, new.traceCand = some c →
                 new.accTrace = if c.count = old.cfg.persistence then some c.value else old.accTrace)
             ∧ (∀ c, new.flagsCand = some c → new.accFlags = if c.count = 2 then some c.value else old.accFlags)
             ∧ (∀ c, new.qualityCand = some c → new.accQuality = if c.count = 3 then some c.value else old.accQuality)
             ∧ (∀ c, new.protCand = some c → new.accProt = if c.count = 2 then some c.value else old.accProt)
             ∧ new.traceMismatch =
                 (old.cfg.expected.isSome && new.accTrace.isSome && decide (old.cfg.expected ≠ new.accTrace))
             ∧ new.pilotErrors = old.pilotErrors)
         ∧ (¬ (byteSum (0xA6 :: body.toList) = 0 ∧ noise = false) →
             new.validCount = old.validCount ∧ new.buckets = bumpNewest old.buckets
             ∧ new.lossTimer = old.lossTimer ∧ new.pilotLoss = old.pilotLoss
             ∧ new.traceCand = old.traceCand ∧ new.flagsCand = old.flagsCand ∧ new.qualityCand = old.qualityCand
             ∧ new.protCand = old.protCand ∧ new.accTrace = old.accTrace ∧ new.accFlags = old.accFlags
             ∧ new.accQuality = old.accQuality ∧ new.accProt = old.accProt ∧ new.traceMismatch = old.traceMismatch
             ∧ new.pilotErrors = (decide (old.cfg.badThreshold ≤ new.buckets.sum)
                 || (decide (old.cfg.badThreshold / 2 < new.buckets.sum) && old.pilotErrors))))

/-- Samples at a listening port in HUNT (R10 to R12). The idle count counts the 1 samples of the search; a 0 with fewer than 3 before it,
and a false start, produce no character and leave it at 0. Of a verified start the character is taken at sample 116: too little idle
before it discards it uncounted; after a delimited start a framing error or a byte other than 0xA6 is one bad message, which is an event at
the port (R38); 0xA6 opens a message with an allowance of 40 samples. Where no message ends, nothing but the receiver and the assembly
changes. A row of samples does what its samples do one after another, each message that ends in them an event of its own; that all of
them come at the moment of the command is the model's choice (log entry 51). A port always has ten buckets (`PortInv`). -/
def Obligations.PilotCharacterInHunt : Prop :=
  (∀ (p : PortId) (before ones : Nat) (s : State), listening s p = true → s.ports[p].asm = .hunt →
    s.ports[p].rx.chars = .search before →
    (let idle := before + ones
     let old := s.ports[p]
     let run := fun more : List Bool => exec (.pilotCharacterTaken p (List.replicate ones true) more) s
     let quiet := fun (more : List Bool) (n : Nat) (asm : Assembly) =>
       run more = .next { s with ports := s.ports.set p { old with rx := ⟨old.rx.running, .search n⟩, asm := asm } }
     quiet [] idle .hunt
     ∧ (idle < 3 → quiet [false] 0 .hunt)
     ∧ (3 ≤ idle → ∀ b c d e : Bool, startVerified [false, b, c, d, e] = false → quiet [false, b, c, d, e] 0 .hunt)
     ∧ (3 ≤ idle → ∀ samples : List Bool, samples.length = 116 → sampleAt samples 1 = false → startVerified samples = true →
         (idle < 96 → quiet samples 0 .hunt)
         ∧ (96 ≤ idle → characterFraming samples = false → characterByte samples = 0xA6 →
             quiet samples 0 (.assembling [⟨0xA6, characterNoise samples, false, idle⟩] 40))
         ∧ (96 ≤ idle → (characterFraming samples = true ∨ characterByte samples ≠ 0xA6) → old.buckets ≠ [] →
             ∃ u, run samples = .next (finish .none u) ∧ PortCascade p s u
               ∧ (let new := u.ports[p]
                  new = { old with
                    rx := ⟨old.rx.running, .search 0⟩, buckets := bumpNewest old.buckets, pilotErrors := new.pilotErrors
                    raw := new.raw, reported := new.reported, holdTimer := new.holdTimer }
                  ∧ new.raw = new.rawCondition
                  ∧ new.pilotErrors = (decide (old.cfg.badThreshold ≤ new.buckets.sum)
                      || (decide (old.cfg.badThreshold / 2 < new.buckets.sum) && old.pilotErrors)))))))
  ∧ (∀ (p : PortId) (first second samples : List Bool) (s : State), ∃ t, exec (.truncatedMessage ⟨p, first⟩) s = .next t
      ∧ exec (.truncatedMessage ⟨p, first ++ second⟩) s = exec (.truncatedMessage ⟨p, second⟩) t
      ∧ exec (.pilotCharacterTaken p (first ++ second) samples) s = exec (.pilotCharacterTaken p second samples) t)

/-- Samples in ASSEMBLING (R13, R14). The allowance run out over 1 samples truncates the message, which is one bad message, and the idle
count carries on; a false start inside it leaves it running. A character whose start falls inside the allowance and is verified:
with a framing error it ends the message as one bad message; as an eighth following character it completes the message, which is
judged; an earlier one joins it and opens an allowance of 40 samples. A message that ends is an event at the port (R38); where none
ends, nothing but the receiver and the assembly changes. A port always has ten buckets (`PortInv`). -/
def Obligations.PilotCharacterInMessage : Prop :=
  ∀ (p : PortId) (chars : List RxChar) (left before : Nat) (s : State), listening s p = true →
    s.ports[p].asm = .assembling chars left → s.ports[p].rx.chars = .search before → 1 ≤ left →
    (let old := s.ports[p]
     let quiet := fun (asm : Assembly) =>
       Host.Outcome.next { s with ports := s.ports.set p { old with rx := ⟨old.rx.running, .search 0⟩, asm := asm } }
     let ends := fun (out : Host.Outcome State Fault Refusal) (idle : Nat) (now : Port → Prop) =>
       ∃ u, out = .next (finish .none u) ∧ PortCascade p s u ∧ u.ports[p].asm = .hunt
         ∧ u.ports[p].rx = ⟨old.rx.running, .search idle⟩ ∧ u.ports[p].raw = u.ports[p].rawCondition
         ∧ u.ports[p].cfg = old.cfg ∧ now u.ports[p]
     let bad := fun new : Port =>
       new.buckets = bumpNewest old.buckets ∧ new.validCount = old.validCount ∧ new.lossTimer = old.lossTimer
         ∧ new.pilotLoss = old.pilotLoss
     (old.buckets ≠ [] → ends (exec (.truncatedMessage ⟨p, List.replicate left true⟩) s) (before + left) bad)
     ∧ (∀ ones : Nat, ones + 5 < left → 3 ≤ before + ones → ∀ b c d e : Bool, startVerified [false, b, c, d, e] = false →
         exec (.pilotCharacterTaken p (List.replicate ones true) [false, b, c, d, e]) s
           = quiet (.assembling chars (left - (ones + 5))))
     ∧ (∀ (ones : Nat) (samples : List Bool), ones < left → 3 ≤ before + ones → samples.length = 116 →
         sampleAt samples 1 = false → startVerified samples = true →
         (let msg := chars ++ [(⟨characterByte samples, characterNoise samples, false, before + ones⟩ : RxChar)]
          let run := exec (.pilotCharacterTaken p (List.replicate ones true) samples) s
          (characterFraming samples = true → old.buckets ≠ [] → ends run 0 bad)
          ∧ (characterFraming samples = false → msg.length ≠ 9 → run = quiet (.assembling msg 40))
          ∧ (characterFraming samples = false → msg.length = 9 →
              (byteSum (0xA6 :: (bodyOf msg).toList) = 0 ∧ msg.any (·.noise) = false → ends run 0 fun new =>
                new.validCount = old.validCount + 1 ∧ new.buckets = old.buckets ∧ new.pilotLoss = false
                ∧ new.lossTimer = some (s.now + 40000))
              ∧ (¬ (byteSum (0xA6 :: (bodyOf msg).toList) = 0 ∧ msg.any (·.noise) = false) → old.buckets ≠ [] →
                  ends run 0 bad)))))

/-- The loss timer expires (R17): PILOT-LOSS, every accepted field but the trace absent, every candidate discarded, TRACE-MISMATCH
absent. The command moves the clock to the timer's due time where that lies ahead (the model's choice, log entry 36). -/
def Obligations.LossTimerExpiryRaisesPilotLoss : Prop :=
  ∀ (p : PortId) (due : Nat) (s : State), s.ports[p].lossTimer = some due →
    ∃ u, exec (.lossTimerExpiry p) s = .next (finish .none u) ∧ PortCascade p (s.reach due) u
      ∧ (let old := s.ports[p]
         let new := u.ports[p]
         new = { old with
           lossTimer := none, pilotLoss := true, traceMismatch := false, accFlags := none, accQuality := none, accProt := none
           traceCand := none, flagsCand := none, qualityCand := none, protCand := none
           raw := new.raw, reported := new.reported, holdTimer := new.holdTimer }
         ∧ new.raw = new.rawCondition)

/-- The transmitter of a port in service begins its next message when it falls due, to which the command moves the clock (log entry 36),
(R19, R20, R66, R67): built from the state of that
moment, check byte last, the next one 100 bit times later; nothing else changes. PILOT-OUT is 1 in a port out of service and in the
lead-in; from the start of the message it carries its characters at 125 µs a bit, each a 0 start bit, eight data bits least significant
first and a 1 stop bit, and then 1. On the protection port of a dual-ended group it carries
the group type, the kinds and members of L, the kind of E and the bridged member, or BAR in MAINT, FROZEN and HALTED; on any other port
the group type and the protection bytes are 0. -/
def Obligations.PilotTransmitBuildsMessage : Prop :=
  (∀ (p : PortId) (s : State) (time : Nat), s.ports[p].tx.phase = .off ∨ s.ports[p].tx.phase = .leadIn → pilotOut time s p = true)
  ∧ (∀ (bytes : List Byte) (i : Nat), levelOf (lineBits bytes) i =
      if 10 * bytes.length ≤ i then true else if i % 10 = 0 then false else if i % 10 = 9 then true
      else (byteAt bytes (i / 10)).getLsbD (i % 10 - 1))
  ∧ ∀ (p : PortId) (s : State), s.ports[p].tx.phase = .leadIn ∨ s.ports[p].tx.phase = .message →
    ∃ bytes : List Byte, ∃ now, now = max s.now s.ports[p].tx.nextAt
      ∧ exec (.pilotTransmit p) s = .next { s with
          now := now, ports := s.ports.set p { s.ports[p] with tx := ⟨.message, now, now + 12500, bytes⟩ } }
      ∧ (∀ (t : State) (time : Nat), exec (.pilotTransmit p) s = .next t → pilotOut time t p = levelOf (lineBits bytes) ((time - now) / 125))
      ∧ bytes.length = 9 ∧ byteSum bytes = 0 ∧ bytes.take 4 = [0xA6, s.shelf, s.slot, byteOf p.val]
      ∧ (byteAt bytes 4).getLsbD 0 = (decide (s.ports[p].raw = .fail) || s.ports[p].pilotLoss)
      ∧ (byteAt bytes 4).getLsbD 1 =
          (decide (s.ports[p].raw = .degrade) && !(decide (s.ports[p].raw = .fail) || s.ports[p].pilotLoss))
      ∧ (byteAt bytes 4).getLsbD 2 = decide (rangeStatus s.ranges p ≠ .none)
      ∧ byteAt bytes 5 = byteOf (s.timing.codes[p] % 16)
      ∧ ((∀ g grp, memberOf s.sw.groups p = some (g, 0) → s.sw.groups[g] = some grp → grp.cfg.ends = .single) →
          (byteAt bytes 4).toNat / 8 = 0 ∧ byteAt bytes 6 = 0 ∧ byteAt bytes 7 = 0)
      ∧ (∀ g grp, memberOf s.sw.groups p = some (g, 0) → s.sw.groups[g] = some grp → grp.cfg.ends = .dual →
          let stands := grp.state = .maint ∨ grp.state = .frozen ∨ grp.state = .halted
          let bridgeMoves := ∃ op, s.sw.opOf g = some op ∧ op.inFlight = true
            ∧ ((∃ a x, op.kind = .move a x ∧ grp.cfg.bridge = some a) ∨ ∃ a x b y, op.kind = .paired a x b y)
          let carries := fun kind member echo bridged : Nat =>
            byteAt bytes 6 = byteOf (16 * kind + member) ∧ byteAt bytes 7 = byteOf (16 * echo + bridged)
          let sends := fun bridged : Nat =>
            (stands → carries 14 0 14 bridged)
            ∧ (¬ stands → carries grp.local_.kind.code grp.local_.member grp.effective.kind.code bridged)
          (grp.cfg.type = .onePlusOne →
            (byteAt bytes 4).toNat / 8 = 1 ∧ (stands → sends 0) ∧ (¬ stands → sends grp.target))
          ∧ (grp.cfg.type = .oneForN →
            (byteAt bytes 4).toNat / 8 = 2 ∧ (bridgeMoves → sends 0) ∧ (¬ bridgeMoves → sends ((s.sw.bridgeAt grp).getD 0))))

/-- CABLE-TEST accepted (R21 to R23): a test record is made with both registers all ones, the out port's transmitter leaves its pilot,
the in port's receiver its reception with its candidates and loss timer; the reply is deferred. With light lost at the in port the
reply is NO-LIGHT and no test starts; with a test running it is BUSY; a port number or sample choice outside its set, a disabled port or
one under no range is refused BAD-ARG before that. The payload is read as section 10.2 has it, with L clamped to 64..4096. -/
def Obligations.CableTestBegins : Prop :=
  (∀ (l : LinkId) (tag : Byte) (payload : List Byte) (a : TestArgs) (s : State), MasterReady l s → payload.length = 5 →
    cableTestArgs payload = some a → s.ports[a.outPort].cfg.enabled = true → s.ports[a.inPort].cfg.enabled = true →
    rangeStatus s.ranges a.outPort ≠ .none → rangeStatus s.ranges a.inPort ≠ .none →
    (s.cableTest.isSome → exec (.cableTest l tag payload) s = .next (replied l tag 0x16 [3] s))
    ∧ (s.cableTest = none → s.ports[a.inPort].powerState = .lost →
        exec (.cableTest l tag payload) s = .next (replied l tag 0x16 [0, 3, 0, 0] s))
    ∧ (s.cableTest = none → s.ports[a.inPort].powerState ≠ .lost →
        ∃ t, exec (.cableTest l tag payload) s = .next t
          ∧ (∃ record, t.cableTest = some record ∧ record.outPort = a.outPort ∧ record.inPort = a.inPort
              ∧ record.length = a.length ∧ record.late = a.late ∧ record.link = l ∧ record.inPhase = .awaitMarker
              ∧ record.compared = 0 ∧ record.acceptedAt = s.now ∧ record.outReg = 0x7F ∧ record.inReg = 0x7F
              ∧ (record.outPhase, record.phaseEnds) =
                  if s.ports[a.outPort].tx.phase = .message ∧ s.now < s.ports[a.outPort].tx.begun + 11250
                  then (.finish, s.ports[a.outPort].tx.begun + 11250) else (.lead, s.now + 2000))
          ∧ t.ports[a.outPort].tx.phase = .test
          ∧ t.ports[a.inPort].asm = .hunt ∧ t.ports[a.inPort].rx.chars = .search 0 ∧ t.ports[a.inPort].lossTimer = none
          ∧ t.ports[a.inPort].traceCand = none ∧ t.ports[a.inPort].flagsCand = none ∧ t.ports[a.inPort].qualityCand = none
          ∧ t.ports[a.inPort].protCand = none ∧ t.ports[a.inPort].accTrace = s.ports[a.inPort].accTrace
          ∧ (∀ q : PortId, q ≠ a.outPort → q ≠ a.inPort → t.ports[q] = s.ports[q])
          ∧ { t with ports := s.ports, cableTest := none } = taken l tag 0x16 s))
  ∧ (∀ (l : LinkId) (tag : Byte) (payload : List Byte) (s : State), MasterReady l s → payload.length = 5 →
      (cableTestArgs payload = none → exec (.cableTest l tag payload) s = .next (replied l tag 0x16 [6] s))
      ∧ (∀ a, cableTestArgs payload = some a →
          s.ports[a.outPort].cfg.enabled = false ∨ s.ports[a.inPort].cfg.enabled = false
            ∨ rangeStatus s.ranges a.outPort = .none ∨ rangeStatus s.ranges a.inPort = .none →
          exec (.cableTest l tag payload) s = .next (replied l tag 0x16 [6] s)))
  ∧ (∀ payload : List Byte,
      let b := fun i => (byteAt payload i).toNat
      (cableTestArgs payload = none ↔ 32 ≤ b 0 ∨ 32 ≤ b 1 ∨ 1 < b 4)
      ∧ (∀ a, cableTestArgs payload = some a →
          a.outPort.val = b 0 ∧ a.inPort.val = b 1 ∧ a.length = max 64 (min 4096 (256 * b 2 + b 3)) ∧ a.late = decide (b 4 = 1)
          ∧ 64 ≤ a.length ∧ a.length ≤ 4096))

/-- A running test (R22 to R24): FINISH to LEAD for 16 bit times, MARKER for one, SEQUENCE for L, then DONE, with the out register at
the end of its L bits; the in side leaves AWAIT-MARKER at a verified start with at least 144 samples of idle before it, and at no other;
L matching bits pass the test, the first bit that differs fails it with its index, 50 ms without a marker end it with NO-PATH. At its
end the deferred reply becomes ready on the requesting link, the record goes and both ports resume. PILOT-OUT of the out port carries
the rest of its message in FINISH, 1 in LEAD, the 0 of the marker, the bits of the sequence at 125 µs each, and 1 in DONE; each bit is
the exclusive-or of the two oldest of the register, and shifted into it. That CABLE_TEST_MARKER_SENT stands for
the start of MARKER and, given again, for that of SEQUENCE, and that CABLE_TEST_SEQUENCE_END goes through SEQUENCE where it is not given
again, is the model's choice (log entry 29); so is that a start too soon for the marker gives no character (log entry 46), and that a
command which stands for a due time moves the clock there (log entry 36). -/
def Obligations.CableTestRunsToItsReply : Prop :=
  (∀ (reg : BitVec 7) (n : Nat), (∀ k, k < 7 → reg.getLsbD (6 - k) = true) → sequenceBit reg n =
      match n with
      | 0 | 1 | 2 | 3 | 4 | 5 | 7 => false
      | 6 => true
      | n + 1 => sequenceBit reg (n - 5) != sequenceBit reg (n - 6))
  ∧ ∀ (t : CableTest) (s : State), s.cableTest = some t →
    (s.ports[t.outPort].tx.phase = .test → ∀ time : Nat,
      let level := pilotOut time s t.outPort
      (t.outPhase = .finish → level = levelOf (lineBits s.ports[t.outPort].tx.bytes) ((time - s.ports[t.outPort].tx.begun) / 125))
      ∧ (t.outPhase = .lead ∨ t.outPhase = .done → level = true)
      ∧ (t.outPhase = .marker → time < t.phaseEnds → level = false)
      ∧ (t.outPhase = .sequence → ∀ i : Nat, i < t.length →
          t.phaseEnds - 125 * t.length + 125 * i ≤ time → time < t.phaseEnds - 125 * t.length + 125 * (i + 1) →
          level = sequenceBit t.outReg i))
    ∧ (t.outPhase = .finish → exec .cableTestLead s = .next { s with
        now := max s.now t.phaseEnds
        cableTest := some { t with outPhase := .lead, phaseEnds := max s.now t.phaseEnds + 16 * 125 } })
    ∧ (t.outPhase = .lead → exec .cableTestMarkerSent s = .next { s with
        now := max s.now t.phaseEnds
        cableTest := some { t with outPhase := .marker, phaseEnds := max s.now t.phaseEnds + 125 } })
    ∧ (t.outPhase = .marker → exec .cableTestMarkerSent s = .next { s with
        now := max s.now t.phaseEnds
        cableTest := some { t with outPhase := .sequence, phaseEnds := max s.now t.phaseEnds + 125 * t.length } })
    ∧ (t.outPhase = .sequence → exec .cableTestSequenceEnd s = .next { s with
        now := max s.now t.phaseEnds
        cableTest := some { t with outPhase := .done, outReg := sequenceAdvance t.length t.outReg } })
    ∧ (t.outPhase = .marker → exec .cableTestSequenceEnd s = .next { s with
        now := max s.now t.phaseEnds + 125 * t.length
        cableTest := some { t with
          outPhase := .done, phaseEnds := max s.now t.phaseEnds + 125 * t.length, outReg := sequenceAdvance t.length t.outReg } })
    ∧ (∀ (before ones : Nat) (b c d e : Bool), t.inPhase = .awaitMarker → s.ports[t.inPort].rx = ⟨true, .search before⟩ →
        3 ≤ before + ones →
        exec (.cableTestMarker (List.replicate ones true) [false, b, c, d, e]) s = .next { s with
          ports := s.ports.set t.inPort { s.ports[t.inPort] with rx := ⟨true, .search 0⟩ }
          cableTest := some { t with inPhase :=
            if 144 ≤ before + ones ∧ startVerified [false, b, c, d, e] = true then .compare else .awaitMarker } })
    ∧ (t.inPhase = .awaitMarker → ∃ u, exec .noPath s = .next u ∧ u = testEnded t [0, 2, 0, 0] (max s.now (t.acceptedAt + 50000)) s)
    ∧ (∀ bits : List (BitVec 12), t.inPhase = .compare → t.compared + bits.length = t.length → bits ≠ [] →
        (∀ i : Fin bits.length, chosenSample t.late bits[i] = sequenceBit t.inReg i.val) →
        exec (.cableTestPass bits) s = .next (testEnded t [0, 0, 0, 0] s.now s))
    ∧ (∀ (bits : List (BitVec 12)) (last : BitVec 12), t.inPhase = .compare → t.compared + bits.length < t.length →
        (∀ i : Fin bits.length, chosenSample t.late bits[i] = sequenceBit t.inReg i.val) →
        chosenSample t.late last ≠ sequenceBit t.inReg bits.length →
        exec (.cableTestFail (bits ++ [last])) s =
          .next (testEnded t ([0, 1] ++ be16 (t.compared + bits.length + 1)) s.now s))

/-! ### Optical power and line condition (chapter 2) -/

/-- The end of a conversion (R26 to R33): a code that is not used changes the scan only; a used one gives the power, the marks, the
lost latch, Ps, the over and low latches, in that order, and the raw condition; the scan goes on with the next enabled port. That the
calibration, the thresholds and the hysteresis are those that stand at the conversion's end is the model's choice (log entry 40), and so
is that the command moves the clock to that end where it lies ahead (log entry 36). -/
def Obligations.ConversionJudgesPower : Prop :=
  ∀ (code : BitVec 12) (c : Conversion) (s : State), s.conversion = some c →
    ∃ next : Option Conversion,
      (∀ k, next = some k → ScannedNext s.ports c.port k.port ∧ k.used = true ∧ k.endsAt = max s.now c.endsAt + 250)
      ∧ (next = none → ∀ p : PortId, s.ports[p].cfg.enabled = false)
      ∧ (c.used = false →
          exec (.conversionEnd code) s = .next { s with now := max s.now c.endsAt, conversion := next })
      ∧ (c.used = true →
          ∃ u, exec (.conversionEnd code) s = .next (finish .none u) ∧ u.conversion = next
            ∧ PortCascade c.port (s.reach c.endsAt) { u with conversion := s.conversion }
            ∧ (let old := s.ports[c.port]
               let new := u.ports[c.port]
               let pw := clampInt (-6000) 1500 (old.cfg.icpt + ((code.toNat * old.cfg.slope + 128) / 256 : Nat))
               let lost := if old.lostLatch = true then ¬ (old.cfg.tFail + old.cfg.hysteresis ≤ pw ∧ code ≠ 0)
                 else pw < old.cfg.tFail ∨ code = 0
               (new.lostLatch = true ↔ lost)
               ∧ (∃ ps, new.ps = some ps
                   ∧ ps = (match old.ps with
                       | none => pw
                       | some x => if old.lostLatch = true ∧ ¬ lost then pw
                         else x + (pw - x).sign * ((((pw - x).natAbs + 4) / 8 : Nat) : Int))
                   ∧ (new.overLatch = true ↔
                       if old.overLatch = true then ¬ (ps ≤ old.cfg.tOver - old.cfg.hysteresis ∧ code ≠ 4095)
                       else old.cfg.tOver < ps ∨ code = 4095)
                   ∧ (new.lowLatch = true ↔
                       if old.lowLatch = true then ¬ old.cfg.tDeg + old.cfg.hysteresis ≤ ps else ps < old.cfg.tDeg))
               ∧ new = { old with
                   power := some pw, satLow := decide (code = 0), satHigh := decide (code = 4095), ps := new.ps
                   lostLatch := new.lostLatch, overLatch := new.overLatch, lowLatch := new.lowLatch
                   raw := new.raw, reported := new.reported, holdTimer := new.holdTimer }
               ∧ new.raw = new.rawCondition))

/-- The raw condition of an enabled port (R33, R37): FAIL for LOST, for OVER, PILOT-LOSS or TRACE-MISMATCH where the port's option
flags make them failures, else DEGRADE for LOW or PILOT-ERRORS, else OK; NOT-IN-SERVICE of a disabled port. -/
def Obligations.RawConditionFollowsFindings : Prop :=
  ∀ p : Port,
    let isOver := ¬ p.lostLatch ∧ p.overLatch
    let isLow := ¬ p.lostLatch ∧ ¬ p.overLatch ∧ p.lowLatch
    let fails := p.lostLatch ∨ (isOver ∧ p.cfg.overloadFail) ∨ (p.pilotLoss ∧ p.cfg.pilotRequired)
      ∨ (p.traceMismatch ∧ p.cfg.traceFail)
    (p.rawCondition = .notInService ↔ p.cfg.enabled = false)
    ∧ (p.rawCondition = .fail ↔ p.cfg.enabled = true ∧ fails)
    ∧ (p.rawCondition = .degrade ↔ p.cfg.enabled = true ∧ ¬ fails ∧ (isLow ∨ p.pilotErrors))
    ∧ (p.rawCondition = .ok ↔ p.cfg.enabled = true ∧ ¬ fails ∧ ¬ (isLow ∨ p.pilotErrors))

/-- A changed raw condition and the hold-off timer (R40): one worse than the reported condition starts the timer where it is stopped
and leaves it where it runs, or is reported at once with a hold-off of 0; any other is reported at once and stops the timer. An
unchanged raw condition has no effect (R38). Every event at a port in service is judged so, by the greater of the port's own hold-off and
its group's (R39): the loss timer, a message given whole, a sample that ends one (`PilotCharacterInHunt` says that a row of samples is
its samples one after another), a conversion, a SET-PORT, which goes by the hold-off it sets, and a tick of the seconds clock. At the
timer's expiry, to which the command moves the clock (the model's choice, log entry 36), the reported condition takes the raw condition,
and the port's group is told. -/
def Obligations.HoldOffDelaysWorseConditions : Prop :=
  (∀ (eff now : Nat) (p : Port),
      let q := p.settle eff now
      q = { p with raw := p.rawCondition, reported := q.reported, holdTimer := q.holdTimer }
      ∧ (p.rawCondition = p.raw → q = p)
      ∧ (p.rawCondition ≠ p.raw → p.reported.rank < p.rawCondition.rank → p.holdTimer.isSome →
          q.reported = p.reported ∧ q.holdTimer = p.holdTimer)
      ∧ (p.rawCondition ≠ p.raw → p.reported.rank < p.rawCondition.rank → p.holdTimer = none → eff = 0 →
          q.reported = p.rawCondition ∧ q.holdTimer = none)
      ∧ (p.rawCondition ≠ p.raw → p.reported.rank < p.rawCondition.rank → p.holdTimer = none → eff ≠ 0 →
          q.reported = p.reported ∧ q.holdTimer = some (now + eff * 1000))
      ∧ (p.rawCondition ≠ p.raw → p.rawCondition.rank ≤ p.reported.rank → q.reported = p.rawCondition ∧ q.holdTimer = none))
  ∧ (∀ (p : PortId) (due : Nat) (s : State), s.ports[p].holdTimer = some due →
        ∃ u, exec (.holdOffExpiry p) s = .next (finish .none u) ∧ PortCascade p (s.reach due) u
          ∧ u.ports[p] = { s.ports[p] with holdTimer := none, reported := s.ports[p].raw })
  ∧ (∀ (p : PortId) (s : State),
      let old := s.ports[p]
      let judged := fun (u : State) (now : Nat) (changed : Port) =>
        ∃ eff, u.ports[p] = changed.settle eff now
          ∧ (memberOf s.sw.groups p = none → eff = changed.cfg.holdOff)
          ∧ (∀ g m grp, memberOf s.sw.groups p = some (g, m) → s.sw.groups[g] = some grp →
              eff = max changed.cfg.holdOff grp.cfg.holdOff)
      let judges := fun (i : Instr) (now : Nat) (changed : Port) => ∃ u, exec i s = .next (finish .none u) ∧ judged u now changed
      (∀ due, old.lossTimer = some due → judges (.lossTimerExpiry p) (max s.now due) old.loss)
      ∧ (∀ body noise, listening s p = true → judges (.pilotMessage p body noise) s.now (old.wholeMessage s.now body noise))
      ∧ (∀ b : Bool, listening s p = true →
          let next := old.sample s.now b
          let quiet := next = { old with rx := next.rx, asm := next.asm }
          (quiet → exec (.truncatedMessage ⟨p, [b]⟩) s = .next { s with ports := s.ports.set p next })
          ∧ (¬ quiet → judges (.truncatedMessage ⟨p, [b]⟩) s.now next))
      ∧ (∀ code endsAt, s.conversion = some ⟨p, true, endsAt⟩ →
          judges (.conversionEnd code) (max s.now endsAt) (old.convert code.toNat))
      ∧ (∀ l tag payload cfg, MasterReady l s → payload.length = 24 → setPortArgs payload = some (p, cfg) → cfg.enabled = true →
          old.cfg.enabled = true →
          ∃ u, exec (.setPort l tag payload) s = .next (accepts l (0 :: portRecordBytes p cfg) u) ∧ judged u s.now (old.rewrite cfg))
      ∧ (old.cfg.enabled = true → judges .secondsTick (max s.now s.timing.nextTick) old.tick))

/-- A tick of the seconds clock (R35, R36, R126, R127, R129): each enabled port latches its counts and rolls its noise window,
PILOT-ERRORS is judged against it, a disabled port takes nothing, and the next tick is one second later. The timing unit then does its
update: the word takes one slew-limited step toward the target of its state, a frame of the word goes to the steering line, and an
update in LOCKED pushes the average onto the history and counts. An unclamped step in ACQUIRING after the acquire timer makes the
state LOCKED. That the update follows the ports' changes is the model's reading (log entry 27), and so are the two updates of the tick
that makes the state LOCKED (log entry 37); that the command moves the clock to the tick is its choice (log entry 36). -/
def Obligations.SecondsTickRollsWindowsAndSteers : Prop :=
  ∀ s : State,
    let changes := fun p : PortId => s.ports[p].cfg.enabled = true ∧ s.ports[p].tick.rawCondition ≠ s.ports[p].raw
    ∃ m u, exec .secondsTick s = .next (finish .none u) ∧ u = { m with timing := u.timing }
      ∧ KeepsOthers (s.reach s.timing.nextTick) m
      ∧ m.timing.nextTick = s.timing.nextTick + 1000000 ∧ m.timing.settings = s.timing.settings ∧ m.timing.forced = s.timing.forced
      ∧ ((∀ p, ¬ changes p) → m.sw = s.sw ∧ m.timing = { s.timing with nextTick := s.timing.nextTick + 1000000 })
      ∧ (∀ g : GroupId, (∀ p x, changes p → memberOf s.sw.groups p ≠ some (g, x)) → m.sw.groups[g] = s.sw.groups[g])
      ∧ (∀ p : PortId, s.ports[p].cfg.enabled = false → u.ports[p] = s.ports[p])
      ∧ (∀ p : PortId, s.ports[p].cfg.enabled = true →
          (let old := s.ports[p]
           let new := u.ports[p]
           new = { old with
             lastValid := old.validCount, lastBad := old.buckets.getLastD 0, validCount := 0, buckets := old.buckets.drop 1 ++ [0]
             pilotErrors := new.pilotErrors, raw := new.raw, reported := new.reported, holdTimer := new.holdTimer }
           ∧ (new.pilotErrors = true ↔ old.cfg.badThreshold ≤ new.buckets.sum
               ∨ (old.cfg.badThreshold / 2 < new.buckets.sum ∧ old.pilotErrors = true))
           ∧ new.raw = new.rawCondition))
      ∧ (let old := m.timing
         let new := u.timing
         let slew := old.settings.slew
         let average := old.selected.bind fun r => old.refs[r].average
         let target := match old.state with
           | .freeRun => some 0
           | .holdover => some old.holdoverValue
           | .acquiring | .locked => average
         let locks := old.state = .acquiring ∧ old.acquireTimer = none ∧ ∃ x, target = some x ∧ (x - old.word).natAbs ≤ slew
         let frame := steerFrame new.word new.state
         let taken := ∃ f ends, old.steering = some (f, ends) ∧ m.now < ends
         (taken → new.steering = old.steering ∧ new.steerWaiting = some frame)
         ∧ (¬ taken → new.steering = some (frame, m.now + 3125) ∧ (¬ locks → new.steerWaiting = none))
         ∧ (¬ locks →
             new = { old with
               word := new.word, history := new.history, lockedUpdates := new.lockedUpdates, ready := new.ready
               steering := new.steering, steerWaiting := new.steerWaiting }
             ∧ (target = none → new.word = old.word)
             ∧ (∀ x, target = some x → new.word = old.word + clampInt (-slew) slew (x - old.word))
             ∧ (∀ avg, old.state = .locked → average = some avg →
                 new.history = (old.history ++ [avg]).drop ((old.history ++ [avg]).length - 4)
                 ∧ new.lockedUpdates = min 16 (old.lockedUpdates + 1)
                 ∧ new.ready = (old.ready || decide (new.lockedUpdates = 16)))
             ∧ (old.state ≠ .locked ∨ average = none →
                 new.history = old.history ∧ new.lockedUpdates = old.lockedUpdates ∧ new.ready = old.ready))
         ∧ (locks →
             target = some new.word ∧ new.steerWaiting = some frame
             ∧ new = { old with
               state := .locked, word := new.word, codes := new.codes, refout := old.selected
               raised := if m.notices.timingEnable then old.raised ++ [.timing .locked old.selected] else old.raised
               steering := new.steering, steerWaiting := new.steerWaiting }))

/-! ### Protection groups (chapters 3 and 4) -/

/-- SET-GROUP (R43, R45 to R47, R82, R97, R98). On an UNCONFIGURED group it makes the record and its element records, with
no request but those the ports give, and the group enters ADOPTING with a read of its elements on the move queue; every other group
stands as it was. On a group in MAINT it replaces the record: external and stay requests go, kept elements keep their records, and
the state stays MAINT. It is refused BAD-ARG, STATE, BAD-ARG, CONFLICT in that order, and changes nothing then; there is a conflict
exactly where a member is named twice, is disabled or is another group's, or an address is another group's element's. The payload is read as
section 10.2 has it with the clamping of R45. That a kept element keeps its record under its new role, and that a rebuild with an
operation in flight leaves the settle-failure list as it was, is the model's reading of R47 (log entry 21). -/
def Obligations.SetGroupCreatesOrRebuilds : Prop :=
  (∀ (l : LinkId) (tag : Byte) (payload : List Byte) (g : GroupId) (type : GroupType) (ends : Ends) (rev : Bool) (c : GroupConfig)
    (s : State), MasterReady l s → setGroupFits payload = true → setGroupHead payload = some (g, type, ends, rev) →
    setGroupConfig type ends rev payload = some c → groupConflict s g c = false →
    (s.sw.groups[g] = none →
      ∃ u grp, exec (.setGroup l tag payload) s = .next (accepts l (0 :: groupBytes g c) u)
        ∧ KeepsOthers (taken l tag 0x20 s) u ∧ u.ports = s.ports
        ∧ u.timing.settings = s.timing.settings ∧ u.timing.forced = s.timing.forced
        ∧ u.timing = s.timing.regroup u.timingEnv g
        ∧ u.sw.groups[g] = some grp ∧ Formed u.swEnv u.sw grp
        ∧ grp = ({ Group.new c with
            state := .adopting, remote := grp.remote, farEcho := grp.farEcho, farBridged := grp.farBridged
            protocolMismatch := grp.protocolMismatch, local_ := grp.local_, effective := grp.effective, target := grp.target } : Machine.Group)
        ∧ (∀ h : GroupId, h ≠ g → u.sw.groups[h] = s.sw.groups[h])
        ∧ u.sw.elements = s.sw.elements
            ++ Element.new c.selector .selector g :: (c.bridge.map fun b => Element.new b .bridge g).toList
        ∧ u.sw.queue = placeOp s.sw.queue (.new .adopt (.read c.selector c.bridge) g)
        ∧ u.sw.bus = s.sw.bus ∧ u.sw.chosen = s.sw.chosen ∧ u.sw.busDefect = s.sw.busDefect ∧ u.sw.settleFail = s.sw.settleFail)
    ∧ (∀ old, s.sw.groups[g] = some old → old.state = .maint →
      let slot := fun (a : Nat) (role : Role) =>
        match s.sw.elements.find? (fun el => decide (el.address = a ∧ el.group = g)) with
        | some el => { el with role := role }
        | none => Element.new a role g
      ∃ u grp, exec (.setGroup l tag payload) s = .next (accepts l (0 :: groupBytes g c) u)
        ∧ KeepsOthers (taken l tag 0x20 s) u ∧ u.ports = s.ports
        ∧ u.timing.settings = s.timing.settings ∧ u.timing.forced = s.timing.forced
        ∧ u.timing = s.timing.regroup u.timingEnv g
        ∧ u.sw.groups[g] = some grp ∧ Formed u.swEnv u.sw grp
        ∧ grp.cfg = c ∧ grp.state = .maint ∧ grp.external = none ∧ grp.stay = none ∧ grp.restoreTimer = none
        ∧ (∀ h : GroupId, h ≠ g → u.sw.groups[h] = s.sw.groups[h])
        ∧ u.sw.queue.filter (fun op => decide (op.group ≠ g)) = s.sw.queue.filter (fun op => decide (op.group ≠ g))
        ∧ u.sw.busDefect = s.sw.busDefect ∧ u.sw.settleFail = s.sw.settleFail
        ∧ (s.sw.opOf g = none →
            u.sw.elements = s.sw.elements.filter (fun el => decide (el.group ≠ g))
              ++ slot c.selector .selector :: (c.bridge.map fun b => slot b .bridge).toList
            ∧ u.sw.queue = s.sw.queue ∧ u.sw.bus = s.sw.bus ∧ u.sw.chosen = s.sw.chosen)))
  ∧ (∀ (s : State) (g : GroupId) (c : GroupConfig), groupConflict s g c = true ↔
      ¬ c.members.Nodup ∨ (∃ p ∈ c.members, s.ports[p].cfg.enabled = false)
        ∨ (∃ p ∈ c.members, ∃ (h : GroupId) (other : Machine.Group),
            h ≠ g ∧ s.sw.groups[h] = some other ∧ p ∈ other.cfg.members)
        ∨ (∃ a ∈ c.addresses, ∃ el ∈ s.sw.elements, el.group ≠ g ∧ el.address = a))
  ∧ (∀ (l : LinkId) (tag : Byte) (payload : List Byte) (s : State), MasterReady l s → setGroupFits payload = true →
      let refused := fun code : Byte => exec (.setGroup l tag payload) s = .next (replied l tag 0x20 [code] s)
      (setGroupHead payload = none → refused 6)
      ∧ (∀ g type ends rev, setGroupHead payload = some (g, type, ends, rev) →
          (∀ old, s.sw.groups[g] = some old → old.state ≠ .maint → refused 7)
          ∧ ((∀ old, s.sw.groups[g] = some old → old.state = .maint) →
              (setGroupConfig type ends rev payload = none → refused 6)
              ∧ (∀ c, setGroupConfig type ends rev payload = some c →
                  groupConflict s g c = true → refused 9))))
  ∧ (∀ payload : List Byte, setGroupFits payload = true →
      let b := fun i => (byteAt payload i).toNat
      let word := fun i => 256 * b i + b (i + 1)
      let n := b 4
      let address := fun x : Nat => 1 ≤ x ∧ x ≤ 62
      (setGroupHead payload = none ↔ 12 ≤ b 0 ∨ (b 1 ≠ 1 ∧ b 1 ≠ 2) ∨ 1 < b 2 ∨ 1 < b (5 + n))
      ∧ (∀ g type ends rev, setGroupHead payload = some (g, type, ends, rev) →
          g.val = b 0 ∧ type.code = b 1 ∧ ends.code = b 2 ∧ rev = decide (b (5 + n) = 1))
      ∧ (∀ type ends rev,
          (setGroupConfig type ends rev payload = none ↔
            (type = .onePlusOne ∧ n ≠ 1) ∨ (type = .oneForN ∧ (n < 1 ∨ 7 < n ∨ ends = .single)) ∨ 32 ≤ b 3
              ∨ (∃ i < n, 32 ≤ b (5 + i)) ∨ ¬ address (b (10 + n))
              ∨ (type = .oneForN ∧ (¬ address (b (11 + n)) ∨ b (11 + n) = b (10 + n))))
          ∧ (∀ c, setGroupConfig type ends rev payload = some c →
              c.type = type ∧ c.ends = ends ∧ c.revertive = rev ∧ c.prot.val = b 3
              ∧ c.working.map (fun p : PortId => p.val) = (List.range n).map (fun i => b (5 + i))
              ∧ c.holdOff = min 10000 (word (6 + n)) / 100 * 100
              ∧ c.restoreWait = max 60 (min 720 (word (8 + n))) / 10 * 10
              ∧ c.selector = b (10 + n) ∧ c.bridge = (match type with | .onePlusOne => none | .oneForN => some (b (11 + n))))))

/-- DELETE-GROUP (R48, R161): in MAINT, FROZEN or HALTED with no operation of the group, its record and its element records go and a
notice carries UNCONFIGURED, E NONE and S 0, where GROUP notices are enabled; in any other state it is refused STATE, and for a group
number outside its set BAD-ARG. That the notice
carries the trial result none is the model's reading (log entry 17). -/
def Obligations.DeleteGroupRemovesRecords : Prop :=
  ∀ (l : LinkId) (tag : Byte) (g : GroupId) (s : State), MasterReady l s →
    (∀ grp, s.sw.groups[g] = some grp → grp.state = .maint ∨ grp.state = .frozen ∨ grp.state = .halted → s.sw.opOf g = none →
      ∃ u, exec (.deleteGroup l tag [byteOf g.val]) s = .next (accepts l [0] u)
        ∧ KeepsOthers (taken l tag 0x21 s) u ∧ u.ports = s.ports
        ∧ u.timing.settings = s.timing.settings ∧ u.timing.forced = s.timing.forced
        ∧ u.timing = s.timing.regroup u.timingEnv g
        ∧ u.sw = { s.sw with
            groups := s.sw.groups.set g none
            elements := s.sw.elements.filter fun el => decide (el.group ≠ g)
            raised := if s.notices.groupEnable then
                s.sw.raised ++ [.group g none ⟨.none, 0⟩ (some 0) .none] else s.sw.raised })
    ∧ ((∀ grp, s.sw.groups[g] = some grp → grp.state ≠ .maint ∧ grp.state ≠ .frozen ∧ grp.state ≠ .halted) ∨ s.sw.opOf g ≠ none →
        exec (.deleteGroup l tag [byteOf g.val]) s = .next (replied l tag 0x21 [7] s))
    ∧ (∀ b : Byte, 12 ≤ b.toNat → exec (.deleteGroup l tag [b]) s = .next (replied l tag 0x21 [6] s))

/-- PROT-REQUEST accepted (R56, R61, R62, R86 to R88): BAR, FORCE, MANUAL or TRIAL becomes the external request, a TRIAL it replaces ends
ABANDONED, BAR, FORCE and MANUAL displace a HOLD or RESTORE-WAIT, and L, E and T are formed afresh. A TRIAL clears the trial result; in a
dual-ended group it starts the trial timer, and passes at once where the far echo is already TRIAL; in a ONE-PLUS-ONE single-ended group at
rest it queues its read. -/
def Obligations.ProtRequestSetsExternalRequest : Prop :=
  ∀ (l : LinkId) (tag b m : Byte) (g : GroupId) (grp : Machine.Group) (s : State), MasterReady l s → s.sw.groups[g] = some grp →
    grp.state ≠ .adopting → grp.state ≠ .maint → grp.state ≠ .frozen → grp.state ≠ .halted →
    let runs := fun (i : Instr) (good : State → Machine.Group → Prop) =>
      ∃ u new, exec i s = .next (accepts l (0 :: protFields (u.sw.groups[g])) u) ∧ GroupCascade g (taken l tag 0x24 s) u
        ∧ u.sw.groups[g] = some new ∧ Formed u.swEnv u.sw new ∧ good u new
    let plain := fun (r : Request) (_ : State) (new : Machine.Group) =>
      new.external = some r ∧ ((∀ x, grp.stay = some x → x.kind.code ≤ 4) → new.stay = none)
        ∧ (if grp.external.any (fun x => decide (x.kind = .trial)) then new.trialResult = .abandoned ∧ new.trialTimer = none
           else new.trialResult = grp.trialResult ∧ new.trialTimer = grp.trialTimer)
    let named := 1 ≤ m.toNat ∧ m.toNat ≤ grp.cfg.count
    runs (.protRequestBar l tag [byteOf g.val, 14, b]) (plain ⟨.bar, 0⟩)
    ∧ (named → (∀ x, grp.external = some x → x.kind.code ≤ 12) → grp.effective.kind ≠ .bar → grp.effective.kind ≠ .failP →
        runs (.protRequestForce l tag [byteOf g.val, 12, m]) (plain ⟨.force, m.toNat⟩))
    ∧ (named → (∀ x, grp.external = some x → x.kind.code ≤ 6) →
        (({ grp with external := none } : Machine.Group).form s.swEnv (s.sw.selected grp)).effective.outranks ⟨.manual, m.toNat⟩ = false →
        runs (.protRequestManual l tag [byteOf g.val, 6, m]) (plain ⟨.manual, m.toNat⟩))
    ∧ (named → (∀ x, grp.external = some x → x.kind.code ≤ 3) → grp.effective = ⟨.none, 0⟩ → s.sw.selected grp = some 0 →
        runs (.protRequestTrial l tag [byteOf g.val, 3, m]) fun u new =>
          (grp.cfg.ends = .dual → (grp.decode s.swEnv).farEcho = some .trial →
            new.external = none ∧ new.trialResult = .pass ∧ new.trialTimer = none)
          ∧ (grp.cfg.ends = .dual → (grp.decode s.swEnv).farEcho ≠ some .trial →
            new.external = some ⟨.trial, m.toNat⟩ ∧ new.trialResult = .none ∧ new.trialTimer = some (s.now + 2000000))
          ∧ (grp.cfg.ends = .single →
            new.external = some ⟨.trial, m.toNat⟩ ∧ new.trialResult = .none ∧ new.trialTimer = none
            ∧ (grp.cfg.type = .onePlusOne → grp.state = .idle → s.sw.opOf g = none → new.effective = ⟨.trial, m.toNat⟩ →
                new.state = .idle
                ∧ u.sw.queue = placeOp s.sw.queue (.new .protection (.read grp.cfg.selector none) g))))

/-- PROT-REQUEST refused (R61, R62), in the order of the checks: nothing changes, and the reply carries the result with the external
request and E as they stand (0 where the group has no record: the model's choice, log entry 31). -/
def Obligations.ProtRequestRefusedInOrder : Prop :=
  ∀ (l : LinkId) (tag : Byte) (payload : List Byte) (s : State), MasterReady l s → payload.length = 3 →
    ∀ i ∈ [Instr.protRequestBar l tag payload, .protRequestForce l tag payload, .protRequestManual l tag payload,
        .protRequestTrial l tag payload, .protRequestClear l tag payload],
      let refused := fun (r : Byte) (grp : Option Machine.Group) => exec i s = .next (replied l tag 0x24 (r :: protFields grp) s)
      (indexArg 12 payload = none → refused 6 none)
      ∧ (∀ g, indexArg 12 payload = some g →
          (protKind (byteAt payload 1) = none → refused 6 s.sw.groups[g])
          ∧ (∀ k, protKind (byteAt payload 1) = some k →
              (s.sw.groups[g] = none → refused 7 none)
              ∧ (∀ grp, s.sw.groups[g] = some grp →
                  let deaf := grp.state = .adopting ∨ grp.state = .maint ∨ grp.state = .frozen ∨ grp.state = .halted
                  let m := (byteAt payload 2).toNat
                  let named := 1 ≤ m ∧ m ≤ grp.cfg.count
                  let takes := k = .force ∨ k = .manual ∨ k = .trial
                  let stronger := ∃ x, grp.external = some x ∧ k.code < x.kind.code
                  (deaf → refused 7 (some grp))
                  ∧ (¬ deaf → takes → ¬ named → refused 6 (some grp))
                  ∧ (¬ deaf → takes → named → stronger → refused 8 (some grp))
                  ∧ (¬ deaf → k = .force → named → ¬ stronger → grp.effective.kind = .bar ∨ grp.effective.kind = .failP →
                      refused 8 (some grp))
                  ∧ (¬ deaf → k = .manual → named → ¬ stronger →
                      (({ grp with external := none } : Machine.Group).form s.swEnv (s.sw.selected grp)).effective.outranks ⟨.manual, m⟩
                        = true → refused 8 (some grp))
                  ∧ (¬ deaf → k = .trial → named → ¬ stronger →
                      grp.effective ≠ ⟨.none, 0⟩ ∨ s.sw.selected grp ≠ some 0 → refused 7 (some grp)))))

/-- PROT-REQUEST CLEAR (R61, R63): the external request goes, a TRIAL ends ABANDONED, a HOLD goes where there is no external request,
and a FORCE or MANUAL whose member is selected leaves HOLD in a non-revertive group unless another local request outranks it. Any other
removal leaves no stay request where there was none. -/
def Obligations.ProtRequestClearRemovesExternal : Prop :=
  ∀ (l : LinkId) (tag b : Byte) (g : GroupId) (grp : Machine.Group) (s : State), MasterReady l s → s.sw.groups[g] = some grp →
    grp.state ≠ .adopting → grp.state ≠ .maint → grp.state ≠ .frozen → grp.state ≠ .halted →
    ∃ u new, exec (.protRequestClear l tag [byteOf g.val, 0, b]) s = .next (accepts l (0 :: protFields (some new)) u)
      ∧ GroupCascade g (taken l tag 0x24 s) u ∧ u.sw.groups[g] = some new ∧ Formed u.swEnv u.sw new
      ∧ new.external = none
      ∧ (if grp.external.any (fun x => decide (x.kind = .trial)) then new.trialResult = .abandoned ∧ new.trialTimer = none
         else new.trialResult = grp.trialResult ∧ new.trialTimer = grp.trialTimer)
      ∧ (grp.external = none → grp.stay.any (fun x => decide (x.kind = .hold)) = true → new.stay = none ∧ new.restoreTimer = none)
      ∧ (∀ m, grp.external = some ⟨.force, m⟩ ∨ grp.external = some ⟨.manual, m⟩ → s.sw.selected grp = some m →
          grp.cfg.revertive = false →
          (({ grp with external := none } : Machine.Group).locals s.swEnv).any (·.outranks ⟨.hold, m⟩) = false →
          new.stay = some ⟨.hold, m⟩ ∨ (new.stay = none ∧ (new.locals u.swEnv).any (·.outranks ⟨.hold, m⟩) = true))
      ∧ (∀ r, grp.external = some r →
          ¬ ((r.kind = .force ∨ r.kind = .manual) ∧ s.sw.selected grp = some r.member ∧ grp.cfg.revertive = false
            ∧ (({ grp with external := none } : Machine.Group).locals s.swEnv).any (·.outranks ⟨.hold, r.member⟩) = false) →
          (grp.stay = none → new.stay = none)
          ∧ (new.stay = none ∨ (new.stay = grp.stay ∧ new.restoreTimer = grp.restoreTimer)))

/-- The group timers: RESTORE-WAIT ends the stay request (R55), upon which the group reacts to the change; the AWAIT-FAR timer raises
FAR-BRIDGE-TIMEOUT and the group waits on (R77); the trial timer ends the trial with FAIL (R86, R88). The commands move the clock to
the timers' due times (the model's choice, log entry 36). A stay request arises, and RESTORE-WAIT with its timer in a revertive group,
as the reported condition of the selected working member becomes OK while its own FAIL or DEGRADE stands as L and E in a group at rest
and no local request outranks it (R54): at every event of its port. A tick of the seconds clock that changes more than
one member takes them in an order that the spec leaves free (log entry 9). -/
def Obligations.GroupTimersExpire : Prop :=
  ∀ (g : GroupId) (grp : Machine.Group) (due : Nat) (s : State), s.sw.groups[g] = some grp →
    (grp.restoreTimer = some due →
      ∃ u new, exec (.restoreWaitExpiry g) s = .next (finish .none u) ∧ GroupCascade g (s.reach due) u
        ∧ u.sw.groups[g] = some new ∧ Formed u.swEnv u.sw new ∧ new.stay = none ∧ new.restoreTimer = none
        ∧ (∃ mid x, mid.groups[g] = some x ∧ Formed u.swEnv mid x ∧ x.stay = none ∧ x.state = grp.state ∧ mid.queue = s.sw.queue
            ∧ mid.elements = s.sw.elements ∧ u.sw = mid.react u.swEnv g grp))
    ∧ (grp.awaitTimer = some due →
        exec (.awaitFarTimeout g) s = .next (finish .none { s.reach due with
          sw := { s.sw with groups := s.sw.groups.set g (some { grp with awaitTimer := none, farBridgeTimeout := true }) } }))
    ∧ (grp.trialTimer = some due →
      ∃ u new, exec (.trialTimerExpiry g) s = .next (finish .none u) ∧ GroupCascade g (s.reach due) u
        ∧ u.sw.groups[g] = some new ∧ Formed u.swEnv u.sw new ∧ new.external = none ∧ new.trialResult = .fail
        ∧ new.trialTimer = none)
    ∧ (∀ (p : PortId) (m : Nat), memberOf s.sw.groups p = some (g, m) → grp.decode s.swEnv = grp → s.ports[p].reported ≠ .ok →
        let old := s.ports[p]
        let judged := fun u : State => ∃ new, u.sw.groups[g] = some new
          ∧ (let stays : Request := ⟨if grp.cfg.revertive then .restoreWait else .hold, m⟩
             let arises := u.ports[p].reported = .ok ∧ (grp.effective = ⟨.fail, m⟩ ∨ grp.effective = ⟨.degrade, m⟩)
               ∧ grp.local_ = grp.effective ∧ s.sw.selected grp = some m ∧ 1 ≤ m
               ∧ (grp.state = .idle ∨ grp.state = .switched ∨ grp.state = .awaitFar)
               ∧ ∀ r ∈ grp.locals u.swEnv, r.outranks stays = false
             (arises → new.stay = some stays
               ∧ new.restoreTimer = if grp.cfg.revertive then some (u.now + grp.cfg.restoreWait * 1000000) else none)
             ∧ (¬ arises → new.stay = none ∨ (new.stay = grp.stay ∧ new.restoreTimer = grp.restoreTimer)))
        let judges := fun i : Instr => ∃ u, exec i s = .next (finish .none u) ∧ judged u
        (∀ code endsAt, s.conversion = some ⟨p, true, endsAt⟩ → judges (.conversionEnd code))
        ∧ (∀ body noise, listening s p = true → judges (.pilotMessage p body noise))
        ∧ (∀ b : Bool, listening s p = true →
            let next := old.sample s.now b
            next ≠ { old with rx := next.rx, asm := next.asm } → judges (.truncatedMessage ⟨p, [b]⟩))
        ∧ (old.lossTimer.isSome → judges (.lossTimerExpiry p))
        ∧ (old.holdTimer.isSome → judges (.holdOffExpiry p))
        ∧ (old.cfg.enabled = true →
            (∀ q ∈ grp.cfg.members, q ≠ p → s.ports[q].cfg.enabled = true → s.ports[q].tick.rawCondition = s.ports[q].raw) →
            judges .secondsTick)
        ∧ (∀ l tag payload cfg, MasterReady l s → payload.length = 24 → setPortArgs payload = some (p, cfg) → cfg.enabled = true →
            old.cfg.enabled = true →
            ∃ u, exec (.setPort l tag payload) s = .next (accepts l (0 :: portRecordBytes p cfg) u) ∧ judged u))

/-- The far end's signal (R68, R69). A dual-ended group's PROTOCOL-MISMATCH is present exactly where its protection port has accepted
protection fields and flags and a test fails: the group type, a code that names no kind, a member above N, or a request written with a
member and sent without one. The far request, the far echo and the far-bridged value are the received ones, a member received with a
kind that carries none read as 0, while both values are accepted and neither PILOT-LOSS nor the mismatch is present; otherwise, and in
a single-ended group, they are absent.

The formation of L, E and T (R50 to R53, R56 to R59), which `Formed` says of a group and `Group.form` does to one. Of the external
request, BAR from an OUT-OF-SERVICE range of the protection port, DEGRADE-P and FAIL-P from its reported condition, FAIL-P from a
signalling loss, DEGRADE and FAIL of each working member under no such range, and the stay request, L is the highest: by code, and at
equal codes by the lower member; NONE where none is present. A stay request that one of the others outranks is discarded first, its timer
stopped. E is the higher of L and F where the far end's request is present in a dual-ended group, and otherwise L. T is the member that E
names, 0 of NONE, BAR, FAIL-P and DEGRADE-P, and of a TRIAL the selected member, 0 where it is unknown. -/
def Obligations.FarSignalDecodedAndRequestsFormed : Prop :=
  (∀ (env : SwEnv) (grp : Machine.Group),
    let port := env.ports[grp.cfg.prot]
    let u := grp.decode env
    let absent := u.remote = none ∧ u.farEcho = none ∧ u.farBridged = none
    u = { grp with remote := u.remote, farEcho := u.farEcho, farBridged := u.farBridged, protocolMismatch := u.protocolMismatch }
    ∧ (grp.cfg.ends = .single ∨ port.accProt = none ∨ port.accFlags = none → u.protocolMismatch = false ∧ absent)
    ∧ (∀ pf fl, grp.cfg.ends = .dual → port.accProt = some pf → port.accFlags = some fl →
        let kind := pf.request.toNat / 16
        let echo := pf.effect.toNat / 16
        let bridged := pf.effect.toNat % 16
        let memberless := kind = 0 ∨ kind = 7 ∨ kind = 13 ∨ kind = 14
        let unnamed := fun c : Nat => c = 1 ∨ c = 5 ∨ c = 9 ∨ c = 11 ∨ c = 15
        let member := if memberless then 0 else pf.request.toNat % 16
        (u.protocolMismatch = true ↔
          fl.groupType.toNat ≠ grp.cfg.type.code ∨ unnamed kind ∨ unnamed echo ∨ grp.cfg.count < member ∨ grp.cfg.count < bridged
            ∨ (¬ memberless ∧ ¬ unnamed kind ∧ member = 0))
        ∧ (u.protocolMismatch = true ∨ port.pilotLoss = true → absent)
        ∧ (u.protocolMismatch = false → port.pilotLoss = false →
            (∃ f, u.remote = some f ∧ f.kind.code = kind ∧ f.member = member) ∧ (∃ e, u.farEcho = some e ∧ e.code = echo)
              ∧ u.farBridged = some bridged)))
  ∧ (let code : ReqKind → Nat := fun
       | .none => 0 | .hold => 2 | .trial => 3 | .restoreWait => 4 | .manual => 6 | .degradeP => 7 | .degrade => 8 | .fail => 10
       | .force => 12 | .failP => 13 | .bar => 14
     let beats := fun x y : Request => code y.kind < code x.kind ∨ (code x.kind = code y.kind ∧ x.member < y.member)
     let present := fun (env : SwEnv) (grp : Machine.Group) (r : Request) =>
       let prot := env.ports[grp.cfg.prot]
       grp.external = some r
       ∨ (r = ⟨.bar, 0⟩ ∧ rangeStatus env.ranges grp.cfg.prot = .outOfService)
       ∨ (r = ⟨.degradeP, 0⟩ ∧ prot.reported = .degrade)
       ∨ (r = ⟨.failP, 0⟩
           ∧ (prot.reported = .fail ∨ (grp.cfg.ends = .dual ∧ (prot.pilotLoss = true ∨ grp.protocolMismatch = true))))
       ∨ (∃ m p, grp.cfg.working[m]? = some p ∧ rangeStatus env.ranges p ≠ .outOfService
           ∧ ((r = ⟨.degrade, m + 1⟩ ∧ env.ports[p].reported = .degrade) ∨ (r = ⟨.fail, m + 1⟩ ∧ env.ports[p].reported = .fail)))
     let formed := fun (env : SwEnv) (selected : Option Nat) (grp : Machine.Group) =>
       let stands := fun r : Request => present env grp r ∨ grp.stay = some r
       (stands grp.local_ ∨ grp.local_ = ⟨.none, 0⟩)
       ∧ (∀ r, stands r → r = grp.local_ ∨ beats grp.local_ r)
       ∧ (grp.cfg.ends = .single ∨ grp.remote = none → grp.effective = grp.local_)
       ∧ (∀ f, grp.cfg.ends = .dual → grp.remote = some f →
           (beats f grp.local_ → grp.effective = f) ∧ (¬ beats f grp.local_ → grp.effective = grp.local_))
       ∧ grp.target = (match grp.effective.kind with
           | .none | .bar | .failP | .degradeP => 0
           | .trial => selected.getD 0
           | .hold | .restoreWait | .manual | .degrade | .fail | .force => grp.effective.member)
     (∀ (env : SwEnv) (w : Switching) (grp : Machine.Group), Formed env w grp → formed env (w.selected grp) grp)
     ∧ (∀ (env : SwEnv) (selected : Option Nat) (grp : Machine.Group),
         let new := grp.form env selected
         let displaced := ∃ st r, grp.stay = some st ∧ present env grp r ∧ beats r st
         formed env selected new
         ∧ new = { grp with
             stay := new.stay, restoreTimer := new.restoreTimer, local_ := new.local_, effective := new.effective, target := new.target }
         ∧ (displaced → new.stay = none ∧ new.restoreTimer = none)
         ∧ (¬ displaced → new.stay = grp.stay ∧ new.restoreTimer = grp.restoreTimer)))

/-- A step of a group (R72 to R77): the first row of its table that holds, on S, B, T and the far-bridged value, gives the one
PROTECTION operation that joins the move queue, if any, and the state entered; entry to AWAIT-FAR starts its timer. A single-ended
trial that waits for IDLE places its read there (R87), and a step in one releases the selector: it goes by 0 where T is the selected
member (the model's reading of R59 and R87, log entry 41). Nothing else in the switching block changes but the group's notice. A group
steps at a change of E, T or the far-bridged value while it rests without an operation; a queued operation is withdrawn first, with the
arbiter's choice of it (R100), one in flight runs on, and a queued trial read stops its trial (R72, R79, R80, R87). -/
def Obligations.StepsFollowTheTables : Prop :=
  (∀ (env : SwEnv) (g : GroupId) (grp : Machine.Group) (w : Switching) (sel s : Nat), w.groups[g] = some grp → grp.cfg.selector = sel →
    w.selected grp = some s →
    let t := if grp.cfg.ends = .single ∧ grp.effective.kind = .trial then 0 else grp.target
    let v := w.step env g
    let entered := fun st : GroupState => v.groups[g] = some (if grp.state = st then grp else { grp with
      state := st, awaitTimer := if st = .awaitFar then some (env.now + 2000000) else none, farBridgeTimeout := false })
    let issues := fun (kind : OpKind) (st : GroupState) => entered st ∧ v.queue = placeOp w.queue (.new .protection kind g)
    let waitsToRead := grp.state ≠ .idle ∧ grp.external.any (fun r => decide (r.kind = .trial)) = true ∧ grp.cfg.ends = .single
      ∧ w.opOf g = none
    let rests := fun st : GroupState => entered st
      ∧ (¬ (st = .idle ∧ waitsToRead) → v.queue = w.queue)
      ∧ (st = .idle ∧ waitsToRead → v.queue = placeOp w.queue (.new .protection (.read sel none) g))
    OnlyGroup g w v
    ∧ (∀ br b, grp.cfg.type = .oneForN → grp.cfg.bridge = some br → w.bridgeAt grp = some b →
        let oneCard := ∃ x y, w.element sel = some x ∧ w.element br = some y ∧ x.paired = true ∧ y.paired = true
          ∧ x.partner = some br ∧ y.partner = some sel
        (1 ≤ s → s ≠ t → 1 ≤ t → b ≠ t → oneCard → issues (.paired sel 0 br t) .releasing)
        ∧ (1 ≤ s → s ≠ t → ¬ (1 ≤ t ∧ b ≠ t ∧ oneCard) → issues (.move sel 0) .releasing)
        ∧ (s = 0 → 1 ≤ t → b ≠ t → issues (.move br t) .bridging)
        ∧ (s = 0 → 1 ≤ t → b = t → grp.farBridged = some t → issues (.move sel t) .selecting)
        ∧ (s = 0 → 1 ≤ t → b = t → grp.farBridged ≠ some t → rests .awaitFar)
        ∧ (s = 0 → t = 0 → b ≠ 0 → issues (.move br 0) .releasing)
        ∧ (s = 0 → t = 0 → b = 0 → rests .idle)
        ∧ (1 ≤ s → s = t → rests .switched))
    ∧ (grp.cfg.type = .onePlusOne →
        (s = 0 → t = 1 → grp.cfg.ends = .single ∨ grp.farBridged = some 1 → issues (.move sel 1) .selecting)
        ∧ (s = 0 → t = 1 → grp.cfg.ends = .dual → grp.farBridged ≠ some 1 → rests .awaitFar)
        ∧ (s = 1 → t = 0 → issues (.move sel 0) .releasing)
        ∧ (s = 0 → t = 0 → rests .idle)
        ∧ (s = 1 → t = 1 → rests .switched)))
  ∧ (∀ (env : SwEnv) (g : GroupId) (old grp : Machine.Group) (w : Switching), w.groups[g] = some grp →
      let v := w.react env g old
      let changed := grp.effective ≠ old.effective ∨ grp.target ≠ old.target
      let rests := grp.state = .idle ∨ grp.state = .switched ∨ grp.state = .awaitFar
      let moves := grp.state = .bridging ∨ grp.state = .selecting ∨ grp.state = .releasing
      let leavesTarget := grp.farBridged ≠ old.farBridged ∧ grp.state = .selecting ∧ grp.cfg.ends = .dual
        ∧ grp.farBridged ≠ some grp.target
      let trialRead := fun op : Op => op.cls = .protection ∧ ∃ a b, op.kind = .read a b
      let withdrawn : Switching := { w with
        queue := w.queue.filter (fun op => decide (op.group ≠ g)), chosen := w.chosen.filter fun c => decide (c.owner ≠ g) }
      (¬ rests → ¬ moves → v = w)
      ∧ (rests → w.opOf g = none → changed ∨ grp.farBridged ≠ old.farBridged → v = w.step env g)
      ∧ (rests → w.opOf g = none → ¬ changed → grp.farBridged = old.farBridged → v = w)
      ∧ (moves → w.opOf g = none → v = w)
      ∧ (∀ op, w.opOf g = some op →
          (op.inFlight = true → v = w)
          ∧ (op.inFlight = false → moves → changed ∨ leavesTarget → v = withdrawn.step env g)
          ∧ (op.inFlight = false → moves → ¬ (changed ∨ leavesTarget) → v = w)
          ∧ (op.inFlight = false → rests → ¬ (changed ∧ trialRead op) → v = w)
          ∧ (op.inFlight = false → rests → changed → trialRead op →
              ∃ mid new, v = mid.step env g ∧ mid.groups[g] = some new ∧ Formed env mid new ∧ mid.queue = withdrawn.queue
                ∧ mid.chosen = withdrawn.chosen ∧ mid.elements = w.elements ∧ new.external = none ∧ new.state = grp.state
                ∧ (grp.external.any (fun r => decide (r.kind = .trial)) = true → new.trialResult = .abandoned))))

/-! ### Switch actuators (chapter 5) -/

/-- SET-MAINT ENTER (R64, R88, R104): a queued operation of the group is withdrawn and one in flight runs on, an external MANUAL or TRIAL
and the stay request go, a TRIAL so removed ends ABANDONED with its timer stopped, and the state is MAINT. In MAINT it is answered OK with
no effect; in ADOPTING or without a record STATE. A group number or an action outside its set is refused BAD-ARG. -/
def Obligations.SetMaintEnterStandsGroupDown : Prop :=
  ∀ (l : LinkId) (tag : Byte) (g : GroupId) (s : State), MasterReady l s →
    (s.sw.groups[g] = none → exec (.setMaintEnter l tag [byteOf g.val, 1]) s = .next (replied l tag 0x28 [7] s))
    ∧ (∀ grp, s.sw.groups[g] = some grp →
        (grp.state = .adopting → exec (.setMaintEnter l tag [byteOf g.val, 1]) s = .next (replied l tag 0x28 [7] s))
        ∧ (grp.state = .maint → exec (.setMaintEnter l tag [byteOf g.val, 1]) s = .next (replied l tag 0x28 [0] s))
        ∧ (grp.state ≠ .adopting → grp.state ≠ .maint →
            ∃ u new, exec (.setMaintEnter l tag [byteOf g.val, 1]) s = .next (accepts l [0] u)
              ∧ GroupCascade g (taken l tag 0x28 s) u ∧ u.sw.groups[g] = some new ∧ Formed u.swEnv u.sw new
              ∧ new.state = .maint ∧ new.stay = none ∧ new.restoreTimer = none ∧ new.awaitTimer = none
              ∧ new.farBridgeTimeout = false
              ∧ new.external = (if grp.external.any (fun x => decide (x.kind = .manual) || decide (x.kind = .trial)) then none
                  else grp.external)
              ∧ (if grp.external.any (fun x => decide (x.kind = .trial)) then new.trialResult = .abandoned ∧ new.trialTimer = none
                 else new.trialResult = grp.trialResult ∧ new.trialTimer = grp.trialTimer)
              ∧ (∀ op ∈ u.sw.queue, op.group = g → op.inFlight = true)
              ∧ (∀ op ∈ s.sw.queue, op.group = g → op.inFlight = true →
                  ∃ op' ∈ u.sw.queue, op' = { op with judged := op'.judged })))
    ∧ (∀ b action : Byte, 12 ≤ b.toNat ∨ 1 < action.toNat →
        exec (.setMaintEnter l tag [b, action]) s = .next (replied l tag 0x28 [6] s)
        ∧ exec (.setMaintLeave l tag [b, action]) s = .next (replied l tag 0x28 [6] s))

/-- SET-MAINT LEAVE in MAINT with no operation in flight, and CLEAR-HALT in FROZEN or HALTED (R82, R103, R105): the group enters ADOPTING
and a read of its elements joins the move queue, ahead of every queued MAINTENANCE entry (R98). Elsewhere both are refused STATE, and for a
group number outside its set BAD-ARG. An adoption read that completes is judged (R83): inconsistent positions queue a move of the selector
to 0; consistent ones, and that move settled (R84), end the adoption (R85) in IDLE, or in SWITCHED with the stay request unless a local
request outranks it, and then with a step. That the notice of SWITCHED carries the E before the stay request is the model's choice (log
entry 16). -/
def Obligations.LeaveAndClearHaltAdopt : Prop :=
  (∀ (l : LinkId) (tag : Byte) (g : GroupId) (s : State), MasterReady l s →
    let adopts := fun (i : Instr) (kind : Byte) (grp : Machine.Group) (queue : List Op) =>
      ∃ u, exec i s = .next (accepts l [0] u) ∧ GroupCascade g (taken l tag kind s) u
        ∧ u.sw.groups[g] = some { grp with state := .adopting, awaitTimer := none, farBridgeTimeout := false }
        ∧ u.sw.queue = placeOp queue (.new .adopt (.read grp.cfg.selector grp.cfg.bridge) g)
    (∀ grp, s.sw.groups[g] = some grp →
      (grp.state = .maint → (∀ op, s.sw.opOf g = some op → op.inFlight = false) →
        adopts (.setMaintLeave l tag [byteOf g.val, 0]) 0x28 grp (s.sw.queue.filter fun op => !(decide (op.group = g) && !op.inFlight)))
      ∧ (grp.state = .frozen ∨ grp.state = .halted → adopts (.clearHalt l tag [byteOf g.val]) 0x2A grp s.sw.queue))
    ∧ ((∀ grp, s.sw.groups[g] = some grp → grp.state ≠ .maint ∨ ∃ op, s.sw.opOf g = some op ∧ op.inFlight = true) →
        exec (.setMaintLeave l tag [byteOf g.val, 0]) s = .next (replied l tag 0x28 [7] s))
    ∧ ((∀ grp, s.sw.groups[g] = some grp → grp.state ≠ .frozen ∧ grp.state ≠ .halted) →
        exec (.clearHalt l tag [byteOf g.val]) s = .next (replied l tag 0x2A [7] s))
    ∧ (∀ b action : Byte, 12 ≤ b.toNat →
        exec (.setMaintLeave l tag [b, action]) s = .next (replied l tag 0x28 [6] s)
        ∧ exec (.clearHalt l tag [b]) s = .next (replied l tag 0x2A [6] s)))
  ∧ (∀ (env : SwEnv) (g : GroupId) (grp : Machine.Group) (op : Op) (w : Switching) (s : Nat), w.groups[g] = some grp →
      w.opOf g = some op → op.cls = .adopt → grp.state = .adopting → w.selected grp = some s →
      let v := w.succeed env g
      let rest : Switching := { w with
        queue := w.queue.filter (fun op => decide (op.group ≠ g)), chosen := w.chosen.filter fun c => decide (c.owner ≠ g) }
      let told := fun st : GroupState =>
        if env.notify then w.raised ++ [.group g (some st) grp.effective (some s) grp.trialResult] else w.raised
      let consistent := match grp.cfg.type with
        | .onePlusOne => s ≤ 1
        | .oneForN => s = 0 ∨ (w.bridgeAt grp = some s ∧ s ≤ grp.cfg.count)
      let read := ∃ a b, op.kind = .read a b
      (read → ¬ consistent → v = { rest with queue := placeOp rest.queue (.new .adopt (.move grp.cfg.selector 0) g) })
      ∧ (¬ read ∨ consistent → s = 0 →
          v = ({ rest with
            groups := w.groups.set g (some { grp with state := .idle, awaitTimer := none, farBridgeTimeout := false })
            raised := told .idle } : Switching).step env g)
      ∧ (¬ read ∨ consistent → 1 ≤ s →
          let stays : Request := ⟨if grp.cfg.revertive then .restoreWait else .hold, s⟩
          ∃ new, v = ({ rest with groups := w.groups.set g (some new), raised := told .switched } : Switching).step env g
            ∧ Formed env w new ∧ new.state = .switched ∧ new.cfg = grp.cfg ∧ new.external = grp.external
            ∧ (grp.decode env = grp → (∀ r ∈ grp.locals env, r.outranks stays = false) →
                new.stay = some stays
                ∧ new.restoreTimer = if grp.cfg.revertive then some (env.now + grp.cfg.restoreWait * 1000000) else none)
            ∧ (grp.decode env = grp → (∃ r ∈ grp.locals env, r.outranks stays = true) →
                new.stay = none ∨ (new.stay = grp.stay ∧ new.restoreTimer = grp.restoreTimer))))

/-- MAINT-MOVE (R106): for an element of a group in MAINT that has no operation, with fewer than four MAINTENANCE entries, the move
joins the end of the queue, and the arbiter chooses where it holds no choice (R99); the refusals come in the order BAD-ARG, STATE, BUSY,
FULL, and change nothing. -/
def Obligations.MaintMoveQueuesOneMove : Prop :=
  ∀ (l : LinkId) (tag : Byte) (payload : List Byte) (s : State), MasterReady l s → payload.length = 2 →
    let answer := fun (r : Byte) (w : Switching) => exec (.maintMove l tag payload) s = .next (replied l tag 0x29 [r] { s with sw := w })
    let a := (byteAt payload 0).toNat
    let pos := (byteAt payload 1).toNat
    (a = 0 ∨ 62 < a ∨ 7 < pos ∨ s.sw.element a = none → answer 6 s.sw)
    ∧ (∀ el, 1 ≤ a → a ≤ 62 → pos ≤ 7 → s.sw.element a = some el →
        let inMaint := ∃ grp, s.sw.groups[el.group] = some grp ∧ grp.state = .maint
        (¬ inMaint → answer 7 s.sw)
        ∧ (inMaint → s.sw.opOf el.group ≠ none → answer 3 s.sw)
        ∧ (inMaint → s.sw.opOf el.group = none → 4 ≤ s.sw.queue.countP (fun op => decide (op.cls = .maintenance)) → answer 10 s.sw)
        ∧ (inMaint → s.sw.opOf el.group = none → s.sw.queue.countP (fun op => decide (op.cls = .maintenance)) < 4 →
            answer 0 ({ s.sw with queue := s.sw.queue ++ [.new .maintenance (.move a pos) el.group] } : Switching).arbitrate))

/-- SETTLE (R107): its reply waits until the move queue and the moving set are both empty. Then every link's waiting SETTLE is
answered from the one settle-failure list, which is emptied; until then nothing happens. -/
def Obligations.SettleAnswersWhenDrained : Prop :=
  ∀ (l : LinkId) (tag : Byte) (s : State),
    let empty := s.sw.queue = [] ∧ ∀ el ∈ s.sw.elements, el.moving = none
    let waits := fun k : Link => ∃ t, k.outstanding = some ⟨t, 0x2B, false⟩
    let settled := fun (old new : Link) =>
      (∀ t, old.outstanding = some ⟨t, 0x2B, false⟩ → new = { old with
          outstanding := some ⟨t, 0x2B, true⟩
          ready := old.ready ++ [⟨⟨t, 0xAB, 0 :: byteOf s.sw.settleFail.length :: s.sw.settleFail.map fun g => byteOf g.val⟩, false⟩] })
      ∧ (¬ waits old → new = old)
    (FreeLink l s → ¬ empty → exec (.settle l tag []) s = .next (taken l tag 0x2B s))
    ∧ (FreeLink l s → empty → ∃ t, exec (.settle l tag []) s = .next t
        ∧ (∀ k, settled ((taken l tag 0x2B s).links.link k) (t.links.link k))
        ∧ { t with links := s.links } = { s with sw := { s.sw with settleFail := [] } })
    ∧ (¬ (empty ∧ ∃ k, waits (s.links.link k)) → exec .settleReply s = .next s)
    ∧ (empty ∧ (∃ k, waits (s.links.link k)) → ∃ t, exec .settleReply s = .next t
        ∧ (∀ k, settled (s.links.link k) (t.links.link k))
        ∧ { t with links := s.links } = { s with sw := { s.sw with settleFail := [] } })

/-- The bus (R92, R97 to R100, R186). While no transaction is on it, the arbiter holds the choice it has made, and chooses where it
holds none: the earliest due poll of an element whose operation is not MAINTENANCE, else the earliest ready transaction, else the first
queued operation, else the same of MAINTENANCE; none only where nothing waits. What is chosen begins two character times after the last
transaction ended, and ACT-TXD carries its bytes at 4 µs a bit. An entry joins the queue at its end, or, unless it is MAINTENANCE, ahead of
the first queued MAINTENANCE entry; an entry that leaves takes a choice of it along. A first answer timeout leads to one repeat 2 character
times later, a second to answer failure with ACTUATOR-BUS. That a held choice stands, but is made afresh when it is withdrawn or barred by
R98, is the model's choice (log entry 43), and so are the moments to which the commands move the clock (log entry 36), and that
BUS_TRANSACTION_START changes nothing where a transaction is on the bus or no choice is held, an event that cannot arise there (log entry
7); that an unanswered PAIRED-MOVE fails at the selector is its reading (log entry 50). -/
def Obligations.BusRunsOneTransactionAtATime : Prop :=
  (∀ w : Switching,
    let v := w.arbitrate
    let waits := ∃ op ∈ w.queue, op.inFlight = false ∧ op.cls ≠ .maintenance
    let barred := fun c : Choice => waits ∧ ∃ op, w.opOf c.owner = some op ∧ op.cls = .maintenance
    (w.bus ≠ none → v = w)
    ∧ (w.bus = none → v = { w with chosen := v.chosen }
        ∧ (∀ c, w.chosen = some c → ¬ barred c → v.chosen = some c)
        ∧ (w.chosen = none ∨ (∃ c, w.chosen = some c ∧ barred c) → v.chosen = w.choose))
    ∧ (w.choose = none ↔
        (∀ el ∈ w.elements, ∀ m due, el.moving = some m → m.poll ≠ .due due)
        ∧ ∀ op ∈ w.queue, op.inFlight = true ∧ (op.ready = none ∨ op.cls = .maintenance))
    ∧ (∀ c, w.choose = some c →
        let polls := fun (maintenance : Bool) (x : Choice) => ∃ el ∈ w.elements, ∃ began, el.moving = some ⟨began, .due x.since⟩
          ∧ x.cmd = .poll el.address ∧ x.owner = el.group
          ∧ (maintenance = true ↔ ∃ op, w.opOf el.group = some op ∧ op.cls = .maintenance)
        let readies := fun x : Choice => ∃ op ∈ w.queue, op.inFlight = true ∧ op.cls ≠ .maintenance
          ∧ op.ready = some (x.since, x.cmd) ∧ x.owner = op.group
        let leads := fun among : Choice → Prop =>
          among c ∧ ∀ x, among x → c.since < x.since ∨ (c.since = x.since ∧ c.cmd.address ≤ x.cmd.address)
        let first := fun maintenance : Bool => ∃ before op after, w.queue = before ++ op :: after
          ∧ op.inFlight = false ∧ (maintenance = true ↔ op.cls = .maintenance)
          ∧ (∀ x ∈ before, x.inFlight = true ∨ ¬ (maintenance = true ↔ x.cls = .maintenance))
          ∧ c.owner = op.group ∧ c.cmd = (match op.kind with
            | .read a _ => .read a | .move a t => .move a t | .paired a st _ bt => .paired a st bt)
        let due := fun maintenance : Bool => ∃ x, polls maintenance x
        let ready := ∃ x, readies x
        (due false → leads (polls false))
        ∧ (¬ due false → ready → leads readies)
        ∧ (¬ due false → ¬ ready → waits → first false)
        ∧ (¬ due false → ¬ ready → ¬ waits → due true → leads (polls true))
        ∧ (¬ due false → ¬ ready → ¬ waits → ¬ due true → first true))
    ∧ (∀ keep : Op → Bool, let k := w.keepOps keep
        k = { w with queue := w.queue.filter keep, chosen := k.chosen }
        ∧ (∀ c, k.chosen = some c ↔ w.chosen = some c ∧ ∀ op, w.opOf c.owner = some op → keep op = true)))
  ∧ (∀ (queue : List Op) (op : Op),
      (op.cls = .maintenance → placeOp queue op = queue ++ [op])
      ∧ (op.cls ≠ .maintenance → ∃ before after, queue = before ++ after ∧ placeOp queue op = before ++ op :: after
          ∧ (∀ x ∈ before, ¬ (x.cls = .maintenance ∧ x.inFlight = false))
          ∧ (∀ x rest, after = x :: rest → x.cls = .maintenance ∧ x.inFlight = false)))
  ∧ ∀ s : State,
    (s.sw.bus ≠ none ∨ s.sw.chosen = none → exec .busTransactionStart s = .next s)
    ∧ (∀ c, s.sw.bus = none → s.sw.chosen = some c →
      let now := max s.now (s.sw.busFreeAt + 80)
      ∃ w, exec .busTransactionStart s = .next { s with now := now, sw := w }
        ∧ w.bus = some ⟨c.cmd, c.owner, .awaiting (now + 40 * c.cmd.bytes.length + 2000), false, false, true⟩
        ∧ (match c.cmd with
            | .poll a => w = { s.sw with
                bus := w.bus
                chosen := none
                elements := s.sw.elements.map fun el =>
                  if el.address = a then { el with moving := el.moving.map fun m => { m with poll := .onBus } } else el }
            | _ => w = { s.sw with
                bus := w.bus
                chosen := none
                queue := s.sw.queue.map fun op =>
                  if op.group = c.owner then { op with inFlight := true, ready := none } else op })
        ∧ (∀ time, now ≤ time → actTxd time w = levelOf (lineBits c.cmd.bytes) ((time - now) / 4)))
    ∧ (∀ t due, s.sw.bus = some t → t.exchange = .repeating due →
        exec .commandRepeat s = .next { s with
          now := max s.now due
          sw := { s.sw with bus := some { t with
            exchange := .awaiting (max s.now due + 40 * t.cmd.bytes.length + 2000), repeated := true } } })
    ∧ (∀ t due, s.sw.bus = some t → t.exchange = .awaiting due →
        ∃ u, exec .answerTimeout s = .next (finish .none u) ∧ BusCascade (s.reach due) u
          ∧ (t.repeated = false → t.repeatable = true →
              u.sw = { s.sw with bus := some { t with exchange := .repeating (max s.now due + 80) } })
          ∧ (t.repeated = true ∨ t.repeatable = false →
              u.sw.bus = none ∧ u.sw.busFreeAt = max s.now due ∧ u.sw.busDefect = true
              ∧ (let closed : Switching := { s.sw with bus := none, busFreeAt := max s.now due, busDefect := true }
                 let a := t.cmd.address
                 (t.orphan = true → u.sw = closed)
                 ∧ (t.orphan = false → t.cmd = .poll a → u.sw = ({ closed with
                     elements := s.sw.elements.map fun el => if el.address = a then { el with moving := none } else el }
                     : Switching).failOp u.swEnv t.owner a)
                 ∧ (t.orphan = false → (∃ x, t.cmd = .move a x) ∨ (∃ x y, t.cmd = .paired a x y) →
                     u.sw = closed.failOp u.swEnv t.owner a)
                 ∧ (∀ op y b, t.orphan = false → t.cmd = .read a → s.sw.opOf t.owner = some op → op.kind = .read y b →
                     let unread : Switching := { closed with
                       queue := s.sw.queue.map fun op => if op.group = t.owner then { op with unread := op.unread ++ [a] } else op }
                     let lost := if op.cls = .adopt then unread.setKnown u.swEnv a none else unread
                     (b = none ∨ op.second = true → u.sw = lost.failOp u.swEnv t.owner y)
                     ∧ (∀ x, b = some x → op.second = false → u.sw = { lost with
                         queue := lost.queue.map fun op =>
                           if op.group = t.owner then { op with second := true, ready := some (u.now, .read x) } else op }))
                 ∧ (∀ grp op, t.orphan = false → s.sw.groups[t.owner] = some grp → s.sw.opOf t.owner = some op →
                     (∀ a, t.cmd ≠ .read a) → t.owner ∈ u.sw.settleFail))))

/-- The answers (R91, R93, R94, R96, R187), each to an open exchange of a command it answers, with its first byte and check right, its
characters one character time apart at most and none with a framing error: POSITION gives the element's known position and capability and
goes on with the next read, or ends the read's operation; ACCEPTED starts its move, REFUSED stores the fault and fails the operation,
SINGLE-ONLY clears the paired-capable flags and goes on with single moves. Every answer ends the transaction and clears ACTUATOR-BUS; one to
a transaction that counts for nothing else has no other effect. A run of characters that fails a test of R187, or comes with no exchange
open, is discarded: nothing changes, and an open exchange stays open with its timeout (that the row of such a run changes nothing else is
the model's choice, log entries 6 and 7). That a REFUSED PAIRED-MOVE fails at the selector it is addressed to is the model's reading (log
entry 50). Its characters come after the command frame, so the command moves the clock to that frame's end (the model's choice, log entry
36). A known position that is set is handed to the group as its selector's, which discards a stay request on another member and forms L, E
and T afresh (R56, R60, R90). -/
def Obligations.AnswersEndTheTransaction : Prop :=
  (∀ (t : Transaction) (due : Nat) (run : AnswerRun) (check : Byte) (s : State), s.sw.bus = some t →
    t.exchange = .awaiting due → (∀ gap ∈ run.gaps, gap ≤ 40) → run.framing = false → run.first = byteOf (t.cmd.address + 0x80) →
    let a := t.cmd.address
    let now := max s.now (due - 2000)
    let closed : Switching := { s.sw with bus := none, busFreeAt := now, busDefect := false }
    let runs := fun (i : Instr) (frame : List Byte) (good : State → Prop) => byteSum frame = 0 →
      ∃ u, exec i s = .next (finish .none u) ∧ BusCascade (s.reach (due - 2000)) u
        ∧ u.sw.bus = none ∧ u.sw.busFreeAt = now ∧ u.sw.busDefect = false
        ∧ (t.orphan = true → u.sw = closed) ∧ (t.orphan = false → good u)
    (∀ pos cap partner : Byte, t.cmd = .read a → pos.toNat ≤ 7 → cap.toNat ≤ 1 →
        (cap = 1 → 1 ≤ partner.toNat ∧ partner.toNat ≤ 62) →
        runs (.answerPosition run pos cap partner check) [run.first, 0x81, pos, cap, partner, check] fun u =>
          (∀ el, s.sw.element a = some el →
            (∀ op, s.sw.opOf t.owner = some op → (op.cls = .adopt ∨ op.cls = .protection) ∧ a ∉ op.unread) →
            ∃ el', u.sw.element a = some el' ∧ el'.known = some pos.toNat ∧ el'.lastSettled = some pos.toNat
              ∧ el'.paired = decide (cap = 1) ∧ el'.partner = (if cap = 1 then some partner.toNat else none)
              ∧ el'.lastFault = el.lastFault)
          ∧ (∀ op x y, s.sw.opOf t.owner = some op → op.kind = .read x y →
              let learned : Switching := { closed with elements := s.sw.elements.map fun el =>
                if el.address = a then
                  { el with paired := decide (cap = 1), partner := if cap = 1 then some partner.toNat else none } else el }
              let known := learned.setKnown u.swEnv a (some pos.toNat)
              let read : Switching := { known with queue := known.queue.map fun op =>
                if op.group = t.owner then { op with matched := decide (s.sw.known a = some pos.toNat) } else op }
              (∀ b, y = some b → op.second = false → u.sw = { read with queue := read.queue.map fun op =>
                  if op.group = t.owner then { op with second := true, ready := some (now, .read b) } else op })
              ∧ (y = none ∨ op.second = true → op.unread = [] → u.sw = read.succeed u.swEnv t.owner)
              ∧ (y = none ∨ op.second = true → op.unread ≠ [] → u.sw = read.failOp u.swEnv t.owner x)))
    ∧ ((∃ x, t.cmd = .move a x) ∨ (∃ x y, t.cmd = .paired a x y) →
        runs (.answerAccepted run check) [run.first, 0x82, check] fun u =>
          u.sw = { closed with elements := s.sw.elements.map fun el =>
            if el.address = a then { el with moving := some ⟨now, .waiting (now + 5000)⟩ } else el })
    ∧ (∀ fault : Byte, (∀ x, t.cmd ≠ .read x) →
        runs (.answerRefused run fault check) [run.first, 0x83, fault, check] fun u =>
          u.sw = ({ closed with elements := s.sw.elements.map fun el =>
            if el.address = a then { el with lastFault := fault, moving := none } else el } : Switching).failOp u.swEnv t.owner a
          ∧ (∀ el, s.sw.element a = some el → ∃ el', u.sw.element a = some el' ∧ el'.lastFault = fault ∧ el'.moving = none)
          ∧ (∀ grp op, s.sw.groups[t.owner] = some grp → s.sw.opOf t.owner = some op → t.owner ∈ u.sw.settleFail))
    ∧ ((∃ x y, t.cmd = .paired a x y) →
        runs (.answerSingleOnly run check) [run.first, 0x84, check] fun u =>
          u.sw = { closed with
            elements := s.sw.elements.map fun el =>
              if el.address = a ∨ ((s.sw.element a).bind (·.partner)) = some el.address then { el with paired := false } else el
            queue := s.sw.queue.map fun op =>
              if op.group = t.owner then
                match op.kind with
                | .paired x st _ _ => { op with single := true, ready := some (now, .move x st) }
                | _ => op
              else op }))
  ∧ (∀ (run : AnswerRun) (pos cap partner fault check : Byte) (s : State),
      let discards := fun (i : Instr) (frame : List Byte) (answers : BusCmd → Prop) (inRange : Prop) =>
        ¬ (∃ t due, s.sw.bus = some t ∧ t.exchange = .awaiting due ∧ (∀ gap ∈ run.gaps, gap ≤ 40) ∧ run.framing = false
          ∧ run.first = byteOf (t.cmd.address + 0x80) ∧ byteSum frame = 0 ∧ answers t.cmd ∧ inRange) →
        exec i s = .next s
      let moves := fun c : BusCmd => (∃ a x, c = .move a x) ∨ ∃ a x y, c = .paired a x y
      let polls := fun c : BusCmd => ∃ a, c = .poll a
      discards (.answerPosition run pos cap partner check) [run.first, 0x81, pos, cap, partner, check] (fun c => ∃ a, c = .read a)
        (pos.toNat ≤ 7 ∧ cap.toNat ≤ 1 ∧ (cap = 1 → 1 ≤ partner.toNat ∧ partner.toNat ≤ 62))
      ∧ discards (.answerAccepted run check) [run.first, 0x82, check] moves True
      ∧ discards (.answerRefused run fault check) [run.first, 0x83, fault, check] (fun c => moves c ∨ polls c) True
      ∧ discards (.answerSingleOnly run check) [run.first, 0x84, check] (fun c => ∃ a x y, c = .paired a x y) True
      ∧ discards (.answerMoving run check) [run.first, 0x85, check] polls True
      ∧ discards (.answerSettled run pos check) [run.first, 0x86, pos, check] polls (pos.toNat ≤ 7))
  ∧ (∀ (env : SwEnv) (a : Nat) (pos : Option Nat) (w : Switching),
      let v := w.setKnown env a pos
      v.queue = w.queue ∧ v.bus = w.bus ∧ v.settleFail = w.settleFail ∧ (∀ b, b ≠ a → v.element b = w.element b)
      ∧ (∀ el, w.element a = some el →
          v.element a = some { el with known := pos, lastSettled := if pos.isSome then pos else el.lastSettled }
          ∧ (el.role = .bridge ∨ el.known = pos → v.groups = w.groups)
          ∧ (∀ grp, el.role = .selector → el.known ≠ pos → w.groups[el.group] = some grp →
              ∃ new, v.groups[el.group] = some new ∧ Formed env v new ∧ new.state = grp.state ∧ new.external = grp.external
                ∧ (∀ st m, grp.stay = some st → pos = some m → st.member ≠ m → new.stay = none))))

/-- Moves (R95, R96): the poll of a moving element falls due, upon which the arbiter chooses where it holds no choice (R99); MOVING puts the
next one 5 ms later; SETTLED takes the element out of the moving set, at the operation's target with its known position set, upon which the
operation succeeds or a paired move goes on with its bridge, and elsewhere as a failure of the operation, which leaves the known position
unless the rules for its class make it unknown; 200 ms after its start a move fails, the element leaves the moving set, and its group joins
the settle-failure list. What an operation's end does by its class and the group's state is R81, R87, R88, R101, R102, R104 and R106: a
step, a judged trial, RECOVERING with its move, FROZEN or HALTED, at whose entry an external MANUAL or TRIAL and the stay request go and a
TRIAL so removed ends ABANDONED with its timer stopped (R64), or, in MAINT, the position alone. The commands move the clock to their moments
(the model's choice, log entry 36); a failed element that never settled has no recovery (log entry 12). A stopped trial's read that fails is
followed by no step, and in MAINT makes unknown what it could not read: the model's reading (log entries 48 and 49). -/
def Obligations.MovesArePolledUntilSettled : Prop :=
  (∀ (a : Nat) (s : State),
    (∀ el began due, s.sw.element a = some el → el.moving = some ⟨began, .waiting due⟩ →
      ∃ els, exec (.pollDue a) s = .next { s with now := max s.now due, sw := ({ s.sw with elements := els } : Switching).arbitrate }
        ∧ els.find? (fun x => decide (x.address = a)) = some { el with moving := some ⟨began, .due due⟩ }
        ∧ ∀ b, b ≠ a → els.find? (fun x => decide (x.address = b)) = s.sw.element b)
    ∧ (∀ el m, s.sw.element a = some el → el.moving = some m →
      ∃ u, exec (.moveTimeout a) s = .next (finish .none u) ∧ BusCascade (s.reach (m.began + 200000)) u
        ∧ (∃ el', u.sw.element a = some el' ∧ el'.moving = none ∧ el'.lastFault = el.lastFault)
        ∧ (∀ grp op, s.sw.groups[el.group] = some grp → s.sw.opOf el.group = some op → el.group ∈ u.sw.settleFail)
        ∧ (∀ t due, s.sw.bus = some t → t.cmd = .poll a → t.exchange = .awaiting due →
            u.sw.bus = some { t with orphan := true, repeatable := false })
        ∧ ((∀ t, s.sw.bus = some t → t.cmd ≠ .poll a) →
            u.sw = ({ s.sw with elements := s.sw.elements.map fun x => if x.address = a then { x with moving := none } else x }
              : Switching).failOp u.swEnv el.group a))
    ∧ (∀ (t : Transaction) (due : Nat) (run : AnswerRun) (check : Byte), s.sw.bus = some t → t.exchange = .awaiting due →
        t.cmd = .poll a → (∀ gap ∈ run.gaps, gap ≤ 40) → run.framing = false → run.first = byteOf (a + 0x80) →
        let now := max s.now (due - 2000)
        let closed : Switching := { s.sw with bus := none, busFreeAt := now, busDefect := false }
        (byteSum [run.first, 0x85, check] = 0 →
          ∃ u, exec (.answerMoving run check) s = .next (finish .none u) ∧ BusCascade (s.reach (due - 2000)) u
            ∧ u.sw = (if t.orphan then closed else { closed with elements := s.sw.elements.map fun el =>
                if el.address = a then
                  { el with moving := el.moving.map fun m => { m with poll := .waiting (now + 5000) } } else el }))
        ∧ (∀ pos : Byte, pos.toNat ≤ 7 → byteSum [run.first, 0x86, pos, check] = 0 →
            ∃ u, exec (.answerSettled run pos check) s = .next (finish .none u) ∧ BusCascade (s.reach (due - 2000)) u
              ∧ u.sw.bus = none ∧ u.sw.busFreeAt = now ∧ u.sw.busDefect = false
              ∧ (t.orphan = true → u.sw = closed)
              ∧ (∀ el op, t.orphan = false → s.sw.element a = some el → s.sw.opOf t.owner = some op →
                  let rested : Switching := { closed with elements := s.sw.elements.map fun x =>
                    if x.address = a then { x with moving := none } else x }
                  let settled := rested.setKnown u.swEnv a (some pos.toNat)
                  ((∀ x y, op.kind ≠ .paired a x a y) → ∃ el', u.sw.element a = some el' ∧ el'.moving = none)
                  ∧ (op.targetOf a = some pos.toNat → u.sw.known a = some pos.toNat
                      ∧ (∀ x, op.kind = .move a x → u.sw = settled.succeed u.swEnv t.owner)
                      ∧ (∀ x st b bt, op.kind = .paired x st b bt → a = x → op.second = false →
                          u.sw = (if op.single then
                            { settled with queue := settled.queue.map fun op =>
                                if op.group = t.owner then { op with second := true, ready := some (now, .move b bt) } else op }
                          else
                            { settled with
                              queue := settled.queue.map fun op => if op.group = t.owner then { op with second := true } else op
                              elements := settled.elements.map fun y =>
                                if y.address = b then { y with moving := some ⟨now, .waiting (now + 5000)⟩ } else y }))
                      ∧ (∀ x st b bt, op.kind = .paired x st b bt → a ≠ x ∨ op.second = true →
                          u.sw = settled.succeed u.swEnv t.owner))
                  ∧ (op.targetOf a ≠ some pos.toNat →
                      u.sw = rested.failOp u.swEnv t.owner a
                      ∧ (∀ grp, s.sw.groups[t.owner] = some grp → t.owner ∈ u.sw.settleFail
                          ∧ (op.cls = .protection → grp.state ≠ .maint → el.lastSettled ≠ none →
                              u.sw.known a = s.sw.known a)))))))
  ∧ (∀ (env : SwEnv) (g : GroupId) (grp : Machine.Group) (op : Op) (a : Nat) (w : Switching), w.groups[g] = some grp →
      w.opOf g = some op →
      let good := w.succeed env g
      let bad := w.failOp env g a
      let rest : Switching := { w with
        queue := w.queue.filter (fun op => decide (op.group ≠ g)), chosen := w.chosen.filter fun c => decide (c.owner ≠ g) }
      let failed : Switching := { rest with settleFail := if g ∈ w.settleFail then w.settleFail else w.settleFail ++ [g] }
      let read := ∃ x y, op.kind = .read x y
      let stands := fun (v : Switching) (st : GroupState) =>
        ∃ new, v.groups[g] = some new ∧ Formed env v new ∧ new.state = st ∧ new.stay = none ∧ new.restoreTimer = none
          ∧ new.cfg = grp.cfg ∧ new.external = (if grp.hasTemporary then none else grp.external)
          ∧ (if grp.external.any (fun r => decide (r.kind = .trial)) then new.trialResult = .abandoned ∧ new.trialTimer = none
             else new.trialResult = grp.trialResult ∧ new.trialTimer = grp.trialTimer)
      let judged := fun (v : Switching) (res : TrialResult) =>
        ∃ mid new, v = mid.step env g ∧ mid.groups[g] = some new ∧ Formed env mid new ∧ new.trialResult = res
          ∧ new.trialTimer = none ∧ new.external = none ∧ new.state = grp.state ∧ mid.queue = rest.queue
          ∧ mid.elements = w.elements
          ∧ mid.raised = if env.notify then
              w.raised ++ [.group g (some grp.state) grp.effective (w.selected grp) res] else w.raised
      bad.settleFail = failed.settleFail ∧ good.settleFail = w.settleFail
      ∧ (grp.state = .maint → good = rest ∧ (¬ read → bad = failed.setKnown env a none)
          ∧ (read → ∀ x, (x ∈ op.unread → bad.known x = none) ∧ (x ∉ op.unread → bad.known x = w.known x)))
      ∧ (grp.state ≠ .maint →
          (op.cls = .protection → ¬ read →
            good = rest.step env g
            ∧ (∀ el pos, w.element a = some el → el.lastSettled = some pos →
                bad.groups[g] = some (if grp.state = .recovering then grp else { grp with
                  state := .recovering, awaitTimer := none, farBridgeTimeout := false })
                ∧ bad.queue = placeOp rest.queue (.new .recovery (.move a pos) g) ∧ bad.elements = w.elements)
            ∧ ((w.element a).bind (·.lastSettled) = none → stands bad .halted ∧ bad.known a = none ∧ bad.queue = rest.queue))
          ∧ (op.cls = .protection → read →
              (op.judged = true → judged good (if op.matched then .pass else .fail) ∧ judged bad .fail)
              ∧ (op.judged = false → good = rest.step env g ∧ bad = failed))
          ∧ (op.cls = .recovery → stands good .frozen ∧ good.elements = w.elements ∧ good.queue = rest.queue
              ∧ stands bad .halted ∧ bad.known a = none ∧ bad.queue = rest.queue)
          ∧ (op.cls = .adopt → stands bad .halted ∧ bad.queue = rest.queue ∧ (read → bad.elements = w.elements)
              ∧ (¬ read → bad.known a = none))
          ∧ (op.cls = .maintenance → good = rest ∧ bad = failed.setKnown env a none)))

/-! ### Shelf timing (chapter 6) -/

/-- SET-REF (R109 to R111, R113, R116): the configuration fields are stored; enabling, or any SET-REF on an enabled reference, starts it
afresh with its source port, signal and edge timer; disabling clears it; no other reference, setting or force changes, and selection
is re-evaluated. The payload is read as section 10.2 has it with the clamping of R110, the fields of the other kind of reference
ignored. That disabling leaves the source port and the received quality as they stood is the model's reading of R111 (log entry 24), and
that it stops the edge timer is the model's choice (log entry 45). -/
def Obligations.SetRefConfiguresReference : Prop :=
  (∀ (l : LinkId) (tag : Byte) (payload : List Byte) (s : State), MasterReady l s → payload.length = 8 →
    (setRefArgs s.timing.refs payload = none → exec (.setRef l tag payload) s = .next (replied l tag 0x30 [6] s))
    ∧ (∀ r c, setRefArgs s.timing.refs payload = some (r, c) →
        1 ≤ c.priority ∧ c.priority ≤ 6
        ∧ ∃ u, exec (.setRef l tag payload) s = .next (accepts l (0 :: refBytes r u.timing.refs[r]) u)
          ∧ TimingCascade (taken l tag 0x30 s) u ∧ OnlyRef r s.timing u.timing
          ∧ u.timing.settings = s.timing.settings ∧ u.timing.forced = s.timing.forced
          ∧ u.timing.selected = u.timing.selection s.ports
          ∧ (let old := s.timing.refs[r]
             let source := if r.val < 2 then none else derivedSource s.sw c.binding
             u.timing.refs[r] =
               if c.enabled then
                 { old with
                   enabled := true, rate := c.rate, binding := c.binding, priority := c.priority, provisioned := c.provisioned
                   measuring := none, window := [], latest := none, average := none, soakTimer := none, state := .unqualified
                   source := source, received := receivedQuality s.ports source, present := sourceHealthy s.ports r source
                   edgeTimer := some (s.now + 500) }
               else if old.enabled then
                 { old with
                   enabled := false, rate := c.rate, binding := c.binding, priority := c.priority, provisioned := c.provisioned
                   measuring := none, window := [], latest := none, average := none, soakTimer := none, state := .unqualified
                   present := false, edgeTimer := none }
               else
                 { old with
                   enabled := false, rate := c.rate, binding := c.binding, priority := c.priority, provisioned := c.provisioned })))
  ∧ (∀ (refs : Vector Ref 6) (payload : List Byte),
      let b := fun i => (byteAt payload i).toNat
      (setRefArgs refs payload = none ↔ 6 ≤ b 0 ∨ 1 < b 1 ∨ (b 0 < 2 ∧ 2 < b 2)
        ∨ (2 ≤ b 0 ∧ (1 < b 3 ∨ (b 3 = 0 ∧ 32 ≤ b 4) ∨ (b 3 = 1 ∧ (12 ≤ b 4 ∨ b 5 < 1 ∨ 7 < b 5)))))
      ∧ (∀ r c, setRefArgs refs payload = some (r, c) →
          r.val = b 0 ∧ c.enabled = decide (b 1 = 1) ∧ c.priority = max 1 (min 6 (b 6))
          ∧ (r.val < 2 → c.rate.code = b 2 ∧ c.provisioned = max 1 (min 15 (b 7)) ∧ c.binding = refs[r].binding)
          ∧ (2 ≤ r.val → c.rate = refs[r].rate ∧ c.provisioned = refs[r].provisioned
              ∧ (b 3 = 0 → ∃ p : PortId, c.binding = .port p ∧ p.val = b 4)
              ∧ (b 3 = 1 → ∃ g : GroupId, c.binding = .member g (b 5) ∧ g.val = b 4))))

/-- SET-TIMING (R131, R132): the settings are replaced whole, clamped to their ranges; selection is re-evaluated, and each port is given
the code of the state or of the selected reference, and 15 where it is the source port of the selected line reference. The payload is
read as section 10.2 has it; a mode or revertive flag outside its set is refused. -/
def Obligations.SetTimingReplacesSettings : Prop :=
  (∀ (l : LinkId) (tag : Byte) (payload : List Byte) (s : State), MasterReady l s → payload.length = 14 →
    (setTimingArgs payload = none → exec (.setTiming l tag payload) s = .next (replied l tag 0x32 [6] s))
    ∧ (∀ set, setTimingArgs payload = some set →
        1000 ≤ set.accept ∧ set.accept ≤ 100000 ∧ set.requalifySoak ≤ 600 ∧ 10 ≤ set.acquireTime ∧ set.acquireTime ≤ 300
        ∧ 1 ≤ set.holdoverLimit ∧ set.holdoverLimit ≤ 72 ∧ 10 ≤ set.slew ∧ set.slew ≤ 10000
        ∧ 1 ≤ set.holdoverQuality ∧ set.holdoverQuality ≤ 15 ∧ 1 ≤ set.freeRunQuality ∧ set.freeRunQuality ≤ 15
        ∧ ∃ u, exec (.setTiming l tag payload) s = .next (accepts l (0 :: timingBytes set) u)
          ∧ TimingCascade (taken l tag 0x32 s) u ∧ u.timing.settings = set ∧ u.timing.refs = s.timing.refs
          ∧ u.timing.forced = s.timing.forced ∧ u.timing.selected = u.timing.selection s.ports
          ∧ (∀ p : PortId, ∀ r, u.timing.selected = some r → u.timing.state = .acquiring ∨ u.timing.state = .locked →
              u.timing.codes[p] =
                if r.val < 2 then s.timing.refs[r].provisioned
                else if s.timing.refs[r].source = some p then 15 else s.timing.refs[r].received)
          ∧ (∀ p : PortId, u.timing.selected = none →
              u.timing.codes[p] = if u.timing.state = .holdover then set.holdoverQuality else set.freeRunQuality)))
  ∧ (∀ payload : List Byte,
      let b := fun i => (byteAt payload i).toNat
      let word := fun i => 256 * b i + b (i + 1)
      (setTimingArgs payload = none ↔ 1 < b 10 ∨ 1 < b 11)
      ∧ (∀ set, setTimingArgs payload = some set → set = {
          accept := max 1000 (min 100000 (65536 * b 0 + 256 * b 1 + b 2)), requalifySoak := min 600 (word 3)
          acquireTime := max 10 (min 300 (word 5)), holdoverLimit := max 1 (min 72 (b 7)), slew := max 10 (min 10000 (word 8))
          mode := if b 10 = 0 then .quality else .priority, revertive := decide (b 11 = 1)
          holdoverQuality := max 1 (min 15 (b 12)), freeRunQuality := max 1 (min 15 (b 13)) }))

/-- TIMING-REQUEST (R124, R125): FORCE, CLEAR-FORCE, LOCKOUT and UNLOCK change the force or one locked-out flag and nothing else of the
references, and selection is re-evaluated. FORCE of a locked-out reference and LOCKOUT of the forced one are refused CONFLICT; an action
outside its set, and a reference outside its set where the action names one, are refused BAD-ARG. -/
def Obligations.TimingRequestsSteerSelection : Prop :=
  ∀ (l : LinkId) (tag b : Byte) (r : RefId) (s : State), MasterReady l s →
    let runs := fun (i : Instr) (good : Timing → Prop) =>
      ∃ u, exec i s = .next (accepts l (0 :: timingRequestBytes u.timing) u) ∧ TimingCascade (taken l tag 0x33 s) u
        ∧ u.timing.settings = s.timing.settings ∧ u.timing.selected = u.timing.selection s.ports ∧ good u.timing
    (s.timing.refs[r].lockedOut = false →
      runs (.forceRef l tag [0, byteOf r.val]) fun t => t.forced = some r ∧ t.refs = s.timing.refs)
    ∧ (s.timing.refs[r].lockedOut = true →
        exec (.forceRef l tag [0, byteOf r.val]) s = .next (replied l tag 0x33 [9] s))
    ∧ (runs (.clearForce l tag [1, b]) fun t => t.forced = none ∧ t.refs = s.timing.refs)
    ∧ (s.timing.forced ≠ some r →
        runs (.lockout l tag [2, byteOf r.val]) fun t =>
          t.forced = s.timing.forced ∧ t.refs = s.timing.refs.set r { s.timing.refs[r] with lockedOut := true })
    ∧ (s.timing.forced = some r → exec (.lockout l tag [2, byteOf r.val]) s = .next (replied l tag 0x33 [9] s))
    ∧ (runs (.unlock l tag [3, byteOf r.val]) fun t =>
        t.forced = s.timing.forced ∧ t.refs = s.timing.refs.set r { s.timing.refs[r] with lockedOut := false })
    ∧ (∀ action : Byte, 3 < action.toNat ∨ (action.toNat ≠ 1 ∧ 6 ≤ b.toNat) →
        ∀ i ∈ [Instr.forceRef l tag [action, b], .clearForce l tag [action, b], .lockout l tag [action, b], .unlock l tag [action, b]],
          exec i s = .next (replied l tag 0x33 [6] s))

/-- Selection and the timing state (R122, R123, R125, R126, R128, R129, R161, R188): a selectable forced reference is selected; else the
selected one stays while it is selectable, no selectable one has a better quality in QUALITY mode, and in revertive operation none ranks
better; else the best-ranked selectable one is selected, or none. A reference is selectable while it is enabled, its signal PRESENT,
QUALIFIED, of a quality other than 15 and not locked out, and a line reference while its source port is not in raw FAIL (R122). A newly
selected reference makes the state ACQUIRING; the loss of the last one makes it HOLDOVER when the part is holdover-ready, and else FREE-RUN;
that it stops a running acquire timer is the model's choice (log entry 45). A change of the state takes an update: the word takes one
slew-limited step toward the target of the new state, and its frame begins on STEER, or waits behind the frame in transmission; where the
state does not change, word and STEER stand. A change of the selected reference draws one TIMING notice. Records, force and history stand.
-/
def Obligations.SelectionMovesTimingState : Prop :=
  ∀ (env : TimingEnv) (t : Timing),
    let can := fun r : RefId => t.refs[r].selectable env.ports r = true
    let q := fun r : RefId => if r.val < 2 then t.refs[r].provisioned else t.refs[r].received
    let prio := fun r : RefId => t.refs[r].priority
    let better := fun x y : RefId =>
      (t.settings.mode = .quality ∧ q x < q y)
        ∨ ((t.settings.mode = .priority ∨ q x = q y) ∧ (prio x < prio y ∨ (prio x = prio y ∧ x < y)))
    let forces := ∃ f, t.forced = some f ∧ can f
    let stays := ∃ x, t.selected = some x ∧ can x ∧ (t.settings.mode = .quality → ∀ y, can y → q x ≤ q y)
      ∧ (t.settings.revertive = true → ∀ y, can y → ¬ better y x)
    let u := t.reselect env
    (∀ r : RefId, can r ↔ t.refs[r].enabled = true ∧ t.refs[r].present = true ∧ t.refs[r].state = .qualified ∧ q r ≠ 15
      ∧ t.refs[r].lockedOut = false ∧ (2 ≤ r.val → ∃ p, t.refs[r].source = some p ∧ env.ports[p].raw ≠ .fail))
    ∧ (forces → u.selected = t.forced)
    ∧ (¬ forces → stays → u.selected = t.selected)
    ∧ (¬ forces → ¬ stays → (∀ y, ¬ can y) → u.selected = none)
    ∧ (¬ forces → ¬ stays → (∃ y, can y) → ∃ x, u.selected = some x ∧ can x ∧ ∀ y, can y → ¬ better y x)
    ∧ (u.selected = t.selected → u.state = t.state ∧ u.acquireTimer = t.acquireTimer ∧ u.holdoverTimer = t.holdoverTimer)
    ∧ (u.selected ≠ t.selected → u.selected.isSome → u.state = .acquiring ∧ u.holdoverTimer = none
        ∧ u.acquireTimer = some (env.now + t.settings.acquireTime * 1000000))
    ∧ (u.selected ≠ t.selected → u.selected = none → t.state = .acquiring ∨ t.state = .locked →
        u.acquireTimer = none
        ∧ (t.ready = true → u.state = .holdover ∧ u.holdoverValue = t.history.headD 0
            ∧ u.holdoverTimer = some (env.now + t.settings.holdoverLimit * 3600000000))
        ∧ (t.ready = false → u.state = .freeRun))
    ∧ u.refs = t.refs ∧ u.settings = t.settings ∧ u.forced = t.forced ∧ u.nextTick = t.nextTick
    ∧ u.history = t.history ∧ u.lockedUpdates = t.lockedUpdates ∧ u.ready = t.ready
    ∧ u.raised = (if u.selected ≠ t.selected ∧ env.notify = true then t.raised ++ [.timing u.state u.selected] else t.raised)
    ∧ (u.state = t.state → u.word = t.word ∧ u.steering = t.steering ∧ u.steerWaiting = t.steerWaiting)
    ∧ (u.state ≠ t.state →
        let slew := t.settings.slew
        let target := match u.state with
          | .freeRun => some 0
          | .holdover => some u.holdoverValue
          | .acquiring | .locked => u.selected.bind fun r => u.refs[r].average
        let frame := steerFrame u.word u.state
        let taken := ∃ f ends, t.steering = some (f, ends) ∧ env.now < ends
        (target = none → u.word = t.word)
        ∧ (∀ x, target = some x → u.word = t.word + clampInt (-slew) slew (x - t.word))
        ∧ (taken → u.steering = t.steering ∧ u.steerWaiting = some frame)
        ∧ (¬ taken → u.steering = some (frame, env.now + 3125) ∧ u.steerWaiting = none))

/-- Edges and measurements of a reference (R117 to R121): an edge restarts the edge timer and is counted, or brings a lost signal back
where its source is healthy; the edge timer's expiry loses the signal; the 8,000th edge gives the sample 50 × (20,000,000 − C), marked
out-of-range and set to ±100,000 beyond 2,000 counts, an early end the sample −100,000 out-of-range; the sample joins a window of 16,
the average is formed from a full one, and the qualification is judged. A line reference follows its source port (R113 to R117): it
takes the quality and the health of a port that changes; a selector settle that moves its source abandons the measurement and keeps the
window; a group made, rebuilt or deleted restarts it, or, where no source is left, loses its signal. That REFERENCE_EDGE counts to
7,999 and MEASUREMENT_END stands for the 8,000th edge whatever was counted is the model's choice (log entry 25); so is that a lost
signal stops the edge timer (log entry 45) and that the commands move the clock to due times (log entry 36). That a disabled line
reference keeps its source port and received quality through these is the model's reading (log entry 24). -/
def Obligations.EdgesAndSamplesQualify : Prop :=
  (∀ (r : RefId) (s : State),
    let old := s.timing.refs[r]
    let set := s.timing.settings
    let runs := fun (i : Instr) (at_ : State) (good : State → Ref → Prop) =>
      ∃ u, exec i s = .next (finish .none u) ∧ TimingCascade at_ u ∧ OnlyRef r s.timing u.timing
        ∧ u.timing.settings = set ∧ u.timing.forced = s.timing.forced ∧ u.timing.selected = u.timing.selection s.ports
        ∧ good u u.timing.refs[r]
    let sampled := fun (smp : Sample) (new : Ref) =>
      let window := (old.window ++ [smp]).drop ((old.window ++ [smp]).length - 16)
      let average : Option Int := if window.length = 16 then some (roundedDiv ((window.map (·.ppb)).sum) 16) else none
      let rejects := smp.outOfRange = true ∨ 2 * set.accept < smp.ppb.natAbs
      let within := fun n : Nat => ∃ a, average = some a ∧ a.natAbs ≤ n
      let soaks := if set.requalifySoak = 0 then new.state = .qualified ∧ new.soakTimer = none
        else new.state = .soaking ∧ new.soakTimer = some (s.now + set.requalifySoak * 1000000)
      new = { old with
        latest := some smp, window := window, average := average, measuring := new.measuring, edgeTimer := new.edgeTimer
        state := new.state, soakTimer := new.soakTimer }
      ∧ (old.state = .unqualified → within set.accept ∧ ¬ rejects → soaks)
      ∧ (old.state = .rejected → within (set.accept * 3 / 4) ∧ ¬ rejects → soaks)
      ∧ (old.state = .soaking ∨ old.state = .qualified →
          rejects ∨ (∃ a, average = some a ∧ set.accept < a.natAbs) → new.state = .rejected ∧ new.soakTimer = none)
      ∧ ((old.state = .unqualified ∧ ¬ (within set.accept ∧ ¬ rejects))
          ∨ (old.state = .rejected ∧ ¬ (within (set.accept * 3 / 4) ∧ ¬ rejects))
          ∨ ((old.state = .soaking ∨ old.state = .qualified) ∧ ¬ (rejects ∨ ∃ a, average = some a ∧ set.accept < a.natAbs)) →
          new.state = old.state ∧ new.soakTimer = old.soakTimer)
    (old.enabled = false → exec (.referenceEdge r) s = .next s)
    ∧ (old.enabled = true → runs (.referenceEdge r) s fun _ new =>
        (old.present = true → new = { old with
            edgeTimer := some (s.now + 500)
            measuring := match old.measuring with | none => some 0 | some n => some (min 7999 (n + 1)) })
        ∧ (old.present = false → sourceHealthy s.ports r old.source = true →
            new = { old with present := true, edgeTimer := some (s.now + 500), measuring := some 0 })
        ∧ (old.present = false → sourceHealthy s.ports r old.source = false → new = old))
    ∧ (∀ due, old.edgeTimer = some due → runs (.edgeTimerExpiry r) (s.reach due) fun _ new =>
        (old.present = true → new = { old with
            present := false, edgeTimer := none, measuring := none, window := [], latest := none, average := none
            soakTimer := none, state := .unqualified })
        ∧ (old.present = false → new = { old with edgeTimer := none }))
    ∧ (∀ count, old.measuring.isSome → count ≤ 20002000 → runs (.measurementEnd r count) s fun _ new =>
        let d : Int := 20000000 - count
        sampled (if d.natAbs ≤ 2000 then ⟨50 * d, false⟩ else if 0 < d then ⟨100000, true⟩ else ⟨-100000, true⟩) new
        ∧ new.measuring = some 0 ∧ new.edgeTimer = some (s.now + 500))
    ∧ (old.measuring.isSome → runs (.measurementEarlyEnd r) s fun _ new =>
        sampled ⟨-100000, true⟩ new ∧ new.measuring = none ∧ new.edgeTimer = old.edgeTimer))
  ∧ (∀ (env : TimingEnv) (t : Timing) (r : RefId),
      let old := t.refs[r]
      let follows := old.enabled = true ∧ 2 ≤ r.val
      let quality := fun source : Option PortId =>
        match source.bind (fun p => if env.ports[p].cfg.enabled then env.ports[p].accQuality else none) with
        | none => 15
        | some q => if q = 0 then 15 else q
      let healthy := fun source : Option PortId =>
        source.any fun p => env.ports[p].cfg.enabled && decide (env.ports[p].raw ≠ .fail)
      let failed := fun x : Ref => if x.present then
          { x with measuring := none, window := [], latest := none, average := none, soakTimer := none, state := .unqualified
                   present := false, edgeTimer := none }
        else x
      let source := derivedSource env.sw old.binding
      let moves := follows ∧ (∃ g m, old.binding = .member g m) ∧ source ≠ old.source
      (∀ p, old.binding = .port p → source = some p)
      ∧ (∀ g m, old.binding = .member g m →
          (env.sw.groups[g] = none → source = none)
          ∧ (∀ grp, env.sw.groups[g] = some grp →
              (m = 0 ∨ grp.cfg.count < m → source = none)
              ∧ (1 ≤ m → m ≤ grp.cfg.count → env.sw.selected grp = some m → source = some grp.cfg.prot)
              ∧ (1 ≤ m → m ≤ grp.cfg.count → env.sw.selected grp ≠ some m → source = grp.cfg.working[m - 1]?)))
      ∧ (∀ p : PortId,
          let new := (t.portChanged env p).refs[r]
          (follows ∧ old.source = some p →
            new = if healthy old.source then { old with received := quality old.source }
              else failed { old with received := quality old.source })
          ∧ (¬ (follows ∧ old.source = some p) → new = old))
      ∧ (let new := (t.followSelectors env).refs[r]
         let moved := { old with
           source := source, received := quality source, measuring := none, edgeTimer := some (env.now + 500) }
         (moves → new = if healthy source then moved else failed moved) ∧ (¬ moves → new = old))
      ∧ (∀ g : GroupId,
          let new := (t.regroup env g).refs[r]
          (∀ m, old.binding = .member g m → moves →
            new = if source.isSome then
                { old with
                  measuring := none, window := [], latest := none, average := none, soakTimer := none, state := .unqualified
                  source := source, received := quality source, present := healthy source, edgeTimer := some (env.now + 500) }
              else { failed old with source := none, received := 15 })
          ∧ ((∀ m, old.binding ≠ .member g m) ∨ ¬ moves → new = old)))

/-- The timers of the timing unit and the steering line (R121, R126, R128, R129, R188): the end of a requalification soak qualifies the
reference; the acquire timer stops; the end of holdover makes the state FREE-RUN with an empty history, and the word steps toward zero, its
frame beginning on STEER or waiting behind the one in transmission; the waiting steering frame begins at the end of the one in transmission.
STEER carries the characters of the frame at 19,200 bit/s, and is 1 between frames. The commands move the clock to these moments (the
model's choice, log entry 36). -/
def Obligations.TimingTimersExpire : Prop :=
  ∀ (s : State) (due : Nat),
    (∀ r : RefId, s.timing.refs[r].soakTimer = some due →
      ∃ u, exec (.soakTimerExpiry r) s = .next (finish .none u) ∧ TimingCascade (s.reach due) u
        ∧ u.timing.settings = s.timing.settings ∧ u.timing.forced = s.timing.forced
        ∧ u.timing.refs = s.timing.refs.set r { s.timing.refs[r] with
            soakTimer := none
            state := if s.timing.refs[r].state = .soaking then .qualified else s.timing.refs[r].state }
        ∧ u.timing.selected = u.timing.selection s.ports)
    ∧ (s.timing.acquireTimer = some due →
        exec .acquireTimerExpiry s = .next { s with now := max s.now due, timing := { s.timing with acquireTimer := none } })
    ∧ (s.timing.holdoverTimer = some due →
        ∃ u, exec .holdoverTimerExpiry s = .next (finish .none u) ∧ TimingCascade (s.reach due) u
          ∧ u.timing.refs = s.timing.refs ∧ u.timing.settings = s.timing.settings ∧ u.timing.selected = s.timing.selected
          ∧ u.timing.state = .freeRun ∧ u.timing.holdoverTimer = none ∧ u.timing.ready = false ∧ u.timing.history = []
          ∧ u.timing.lockedUpdates = 0 ∧ u.timing.refout = none
          ∧ u.timing.word = s.timing.word + clampInt (-s.timing.settings.slew) s.timing.settings.slew (0 - s.timing.word)
          ∧ (let frame := steerFrame u.timing.word .freeRun
             let taken := ∃ f ends, s.timing.steering = some (f, ends) ∧ max s.now due < ends
             (taken → u.timing.steering = s.timing.steering ∧ u.timing.steerWaiting = some frame)
             ∧ (¬ taken → u.timing.steering = some (frame, max s.now due + 3125) ∧ u.timing.steerWaiting = none))
          ∧ u.timing.raised = (if s.notices.timingEnable then s.timing.raised ++ [.timing .freeRun s.timing.selected]
              else s.timing.raised))
    ∧ (∀ sent waiting, s.timing.steering = some (sent, due) → s.timing.steerWaiting = some waiting →
        exec .steerFrameStart s = .next { s with
          now := max s.now due
          timing := { s.timing with steering := some (waiting, max s.now due + 3125), steerWaiting := none } })
    ∧ (∀ (t : Timing) (time : Nat), t.steering = none → steer time t = true)
    ∧ (∀ (t : Timing) (bytes : List Byte) (begun time : Nat), t.steering = some (bytes, begun + 3125) → begun ≤ time →
        steer time t = levelOf (lineBits bytes) ((time - begun) * 19200 / 1000000))


/-! ### Alarm points and office outputs (chapters 7 and 8) -/

/-- SET-PROFILE (R140, R141, R148): the kind's entry is replaced with its soaks clamped and rounded down to 100 ms, the NSA severity of a
kind that is no port kind being NONE, and every point of the kind is re-evaluated at once (as the end of every event does); it is refused
BAD-ARG exactly where its kind, its SA severity, or a port kind's NSA severity lies outside its code set. -/
def Obligations.SetProfileReplacesEntry : Prop :=
  ∀ (l : LinkId) (tag : Byte) (payload : List Byte) (s : State), MasterReady l s → payload.length = 7 →
    let b := fun i => (byteAt payload i).toNat
    let soak := fun i => min 30000 (256 * b i + b (i + 1)) / 100 * 100
    let refused := 21 ≤ b 0 ∨ 4 < b 1 ∨ (b 0 < 7 ∧ 4 < b 2)
    (setProfileArgs payload = none ↔ refused)
    ∧ (refused → exec (.setProfile l tag payload) s = .next (replied l tag 0x40 [6] s))
    ∧ (∀ k : Fin 21, k.val = b 0 → ¬ refused → ∃ e : ProfileEntry,
        e.sa.rank = b 1 ∧ (k.val < 7 → e.nsa.rank = b 2) ∧ (7 ≤ k.val → e.nsa = .none)
        ∧ e.declareSoak = soak 3 ∧ e.clearSoak = soak 5
        ∧ exec (.setProfile l tag payload) s = .next (accepts l (0 :: profileBytes k e)
          { taken l tag 0x40 s with alarms := { s.alarms with profile := s.alarms.profile.set k e } }))

/-- Soak timers (R142, R143): at the end of a declare soak a point whose defect is still present is declared and joins the active list;
at the end of a clear soak a declared point whose defect is absent is cleared and leaves it. The defects and severities are those of
that moment, as the end of every event takes them (`EventEndsInAlarmsAndNotices`). That the expiry of a soak that does not run changes
nothing is the model's choice (log entry 7), and that the commands move the clock to the soak's end (log entry 36). -/
def Obligations.SoakExpiryDeclaresOrClears : Prop :=
  ∀ (k : PointId) (due : Nat) (s : State),
    let pt := s.alarms.points[k]
    ((∀ d, pt.soak ≠ .declare d) → exec (.declareSoakExpiry k) s = .next s)
    ∧ ((∀ d, pt.soak ≠ .clear d) → exec (.clearSoakExpiry k) s = .next s)
    ∧ (pt.soak = .declare due → ∃ t, exec (.declareSoakExpiry k) s = .next t ∧ t = finish (.declare k) (s.reach due)
      ∧ (let new := t.alarms.points[k]
         pt.declared = false → new.raw = true → new.severity ≠ .none →
           new.declared = true ∧ new.soak = .stopped ∧ new.acknowledged = false ∧ k ∈ t.alarms.active))
    ∧ (pt.soak = .clear due → ∃ t, exec (.clearSoakExpiry k) s = .next t ∧ t = finish (.clear k) (s.reach due)
      ∧ (let new := t.alarms.points[k]
         pt.declared = true → new.raw = false →
           new.declared = false ∧ new.soak = .stopped ∧ new.acknowledged = false ∧ k ∉ t.alarms.active))

/-- Alarm cut-off (R151, R155 to R157): an ACO request, or a press, acknowledges every declared point, so that no audible contact is
closed; the request's reply carries how many points it acknowledged. A press is a low of 20 ms after a high of 20 ms. The row carries for
how long ACO_N was high and then low since the last such row or full reset, and the input holds how long, up to 20 ms, the last high and
the low after it have lasted (the model's choice, log entry 30). A low that goes on after its press, a shorter one, one after a shorter
high, and one held through a full reset, from which the input starts with no high, give none, and then only the input changes. -/
def Obligations.CutOffAcknowledgesDeclaredPoints : Prop :=
  (∀ (l : LinkId) (tag : Byte) (high low : Nat) (s : State),
    let acknowledges := fun a : AlarmUnit =>
      (∀ k : PointId, a.points[k] = { s.alarms.points[k] with
          acknowledged := s.alarms.points[k].acknowledged || s.alarms.points[k].declared })
      ∧ a.profile = s.alarms.profile ∧ a.active = s.alarms.active ∧ CountsFit a ∧ a.audible = ⟨0, 0, 0⟩
      ∧ a.contacts.cra = false ∧ a.contacts.mja = false ∧ a.contacts.mna = false
    let pin := s.alarms.acoPin
    let pressed := fun after : AcoPin => ∃ a, acknowledges a ∧ a.acoPin = after ∧ exec (.acoPress high low) s = .next { s with alarms := a }
    let ignored := fun after : AcoPin => exec (.acoPress high low) s = .next { s with alarms := { s.alarms with acoPin := after } }
    (MasterReady l s → ∃ a, acknowledges a ∧ a.acoPin = pin
      ∧ exec (.aco l tag []) s = .next (replied l tag 0x48
          (0 :: be16 (s.alarms.points.toList.countP fun pt => pt.declared && !pt.acknowledged)) { s with alarms := a }))
    ∧ (20 ≤ high → 20 ≤ low → pressed ⟨20, 20⟩)
    ∧ (1 ≤ high → high < 20 → pin.low ≠ 0 → ignored ⟨high, min 20 low⟩)
    ∧ (1 ≤ high → low < 20 → ignored ⟨min 20 (if pin.low = 0 then pin.high + high else high), low⟩)
    ∧ (1 ≤ high → pin.low = 0 → pin.high + high < 20 → ignored ⟨pin.high + high, min 20 low⟩)
    ∧ (1 ≤ high → pin.low = 0 → 20 ≤ pin.high + high → 20 ≤ low → pressed ⟨20, 20⟩)
    ∧ (high = 0 → 20 ≤ pin.high → pin.low < 20 → 20 ≤ pin.low + low → pressed ⟨pin.high, 20⟩)
    ∧ (high = 0 → pin.high < 20 ∨ 20 ≤ pin.low ∨ pin.low + low < 20 → ignored ⟨pin.high, min 20 (pin.low + low)⟩))
  ∧ (∀ (rate : BitVec 2) (low : Nat) (s : State), ∃ t, exec (.fullReset rate) s = .next t
      ∧ exec (.acoPress 0 low) t = .next { t with alarms := { t.alarms with acoPin := ⟨0, min 20 low⟩ } })

/-- SET-NOTICES (R164): the threshold and the two enables are stored and replied; NONE is no threshold; nothing else changes. -/
def Obligations.SetNoticesStoresSettings : Prop :=
  ∀ (l : LinkId) (tag : Byte) (s : State), MasterReady l s →
    (∀ (sev : Severity) (grp tim : Bool), sev ≠ .none →
      exec (.setNotices l tag [byteOf sev.rank, flagByte grp, flagByte tim]) s =
        .next (replied l tag 0x49 [0, byteOf sev.rank, flagByte grp, flagByte tim]
          { s with notices := { s.notices with threshold := sev, groupEnable := grp, timingEnable := tim } }))
    ∧ (∀ a b c : Byte, a = 0 ∨ 4 < a.toNat ∨ 1 < b.toNat ∨ 1 < c.toNat →
        exec (.setNotices l tag [a, b, c]) s = .next (replied l tag 0x49 [6] s))


/-! ### Controller links (chapters 8 and 9) -/

/-- The transmitters (R162, R163, R166, R169 to R172): the oldest ready reply leaves first, and ends its request unless it is a BUSY
reply; a notice leaves on the master link while no reply is ready there, and OVERFLOW follows the last one where notices were lost.
Where a reply is ready on the master link, or no link is MASTER, no notice leaves: NOTICE_SEND is then the command of an event that cannot
arise and changes nothing (the model's choice, log entry 7), so that a ready reply goes before every notice.
Every frame carries the CRC of its bytes and takes 28 bit times and 10 for each byte, at the rate of the strap; TXD carries a break of
24 bit times at 0, 2 at 1, the characters, and 2 at 1, and is 1 between frames. That its end is rounded
up to a whole microsecond is the model's choice (log entry 15), that a transmitter which sends the reply of a RESTART begins no other
frame is its reading of R179 (log entry 32), and that a command moves the clock to the end of the frame before is its choice (log entry
36). -/
def Obligations.TransmittersSendRepliesThenNotices : Prop :=
  (∀ (l : LinkId) (f : Frame) (ends : Nat) (s : State), (s.links.link l).sending = some (f, ends) → f.kind = 0x86 → f.payload = [0] →
      exec (.replySend l) s = .next s ∧ (s.links.master = some l → exec .noticeSend s = .next s))
  ∧ (∀ (l : LinkId) (r : Reply) (rest : List Reply) (s : State), (s.links.link l).ready = r :: rest →
      (s.links.link l).restarting = none →
      let now := max s.now ((s.links.link l).freeAt s.now)
      exec (.replySend l) s = .next { s with
        now := now
        links := s.links.modLink l fun k =>
          { k with
            ready := rest
            outstanding := if r.busy then k.outstanding else none
            sending := some (r.frame, now + frameTime s.links.rate r.frame) } }
        ∧ ∀ t time, exec (.replySend l) s = .next t → now ≤ time →
            txd time l t = levelOf r.frame.lineBits ((time - now) * linkRate s.links.rate / 1000000))
  ∧ (∀ (l : LinkId) (n : Notice) (rest : List Notice) (s : State), s.links.master = some l → s.notices.queue = n :: rest →
      (s.links.link l).ready = [] → (s.links.link l).restarting = none →
      let now := max s.now ((s.links.link l).freeAt s.now)
      exec .noticeSend s = .next { s with
        now := now
        links := s.links.modLink l fun k => { k with sending := some (n.frame, now + frameTime s.links.rate n.frame) }
        notices := if rest = [] ∧ s.notices.overflow = true then { s.notices with queue := [.overflow], overflow := false }
          else { s.notices with queue := rest } }
        ∧ ∀ t time, exec .noticeSend s = .next t → now ≤ time →
            txd time l t = levelOf n.frame.lineBits ((time - now) * linkRate s.links.rate / 1000000))
  ∧ (∀ s : State,
      (∀ l, s.links.master = some l → (s.links.link l).ready ≠ [] → exec .noticeSend s = .next s)
      ∧ ((∀ l, (s.links.link l).role ≠ .master) → exec .noticeSend s = .next s))
  ∧ (∀ (l : LinkId) (s : State) (time : Nat), (s.links.link l).sending = none → txd time l s = true)
  ∧ (∀ f : Frame, f.lineBits = List.replicate 24 false ++ [true, true] ++ lineBits f.bytes ++ [true, true])
  ∧ (∀ f : Frame, crcFits f.bytes = true ∧ f.bytes.length = f.payload.length + 5)
  ∧ (∀ (code : BitVec 2) (f : Frame),
      (28 + 10 * f.bytes.length) * 1000000 ≤ frameTime code f * linkRate code
      ∧ frameTime code f * linkRate code < (28 + 10 * f.bytes.length) * 1000000 + linkRate code)

/-- The receivers (R166 to R169), over samples of RXD. 240 zeros in a row and the first 1 after them lead to AWAIT-LEN from any state;
360 samples without a start discard the frame; a character of 116 samples is ignored in BREAK-HUNT, and otherwise discards the frame
with a framing error; the first in AWAIT-LEN is LEN, which below 4 discards the frame; in IN-FRAME it joins the frame, which is judged
when LEN bytes have followed LEN: with a CRC that differs it is discarded, and with one that fits it is taken as the request its KIND
names. A request command is such a frame, taken whole on a receiver that awaits one (log entry 6); the rows of the receivers all run
the samples they carry, FRAME_BAD_LEN and its like being named by what their samples come to (log entry 23); and what a receiver does
between the recognition of a break and the first 1 after it, with the count of the gap from there, is the model's choice (log entry 47). -/
def Obligations.ReceiversDiscardBadFrames : Prop :=
  (∀ (l : LinkId) (s : State) (idle : Nat),
    let rx := (s.links.link l).rx
    let rows := fun samples : List Bool => [Instr.linkBreak ⟨l, samples⟩, .frameGapTimeout ⟨l, samples⟩, .frameFramingError ⟨l, samples⟩,
      .frameBadLen l samples, .frameCrcError l samples]
    let becomes := fun (samples : List Bool) (x : LinkRx) => ∀ i ∈ rows samples, exec i s = .next (withRx l x s)
    rx.chars = .search idle →
    (∀ zeros : Nat, rx.zeros ≤ 239 → 240 ≤ rx.zeros + zeros →
      becomes (List.replicate zeros false ++ [true]) ⟨.awaitLen, [], .search 1, 0, 0⟩)
    ∧ (∀ ones : Nat, rx.zeros ≤ 238 → rx.state ≠ .breakHunt → 1 ≤ ones → rx.waited + ones = 360 →
        becomes (List.replicate ones true) ⟨.breakHunt, [], .search (idle + ones), 0, 0⟩)
    ∧ (∀ (ones : Nat) (samples : List Bool), rx.zeros ≤ 119 → rx.state = .breakHunt ∨ rx.waited + ones < 360 → 3 ≤ idle + ones →
        samples.length = 116 → sampleAt samples 1 = false → startVerified samples = true →
        let line := List.replicate ones true ++ samples
        let byte := characterByte samples
        let framing := characterFraming samples
        let frame := rx.assembly ++ [byte]
        let after : LinkRxState → List Byte → LinkRx := fun state bytes =>
          ⟨state, bytes, .search 0, 0, zerosAfter (if ones = 0 then rx.zeros else 0) samples⟩
        (rx.state = .breakHunt → becomes line (after .breakHunt rx.assembly))
        ∧ (rx.state ≠ .breakHunt → framing = true → becomes line (after .breakHunt []))
        ∧ (rx.state = .awaitLen → byte.toNat < 4 → becomes line (after .breakHunt []))
        ∧ (rx.state = .awaitLen → framing = false → 4 ≤ byte.toNat → becomes line (after .inFrame [byte]))
        ∧ (rx.state = .inFrame → framing = false → frame.length ≤ (byteAt frame 0).toNat → becomes line (after .inFrame frame))
        ∧ (rx.state = .inFrame → framing = false → (byteAt frame 0).toNat < frame.length → crcFits frame = false →
            becomes line (after .breakHunt []))
        ∧ (rx.state = .inFrame → framing = false → (byteAt frame 0).toNat < frame.length → crcFits frame = true →
            ∀ i ∈ rows line, exec i s = .next (takeKind l (byteAt frame 1) (byteAt frame 2)
              ((frame.drop 3).take (frame.length - 5)) (withRx l (after .breakHunt []) s)))))
  ∧ (∀ (i : Instr) (q : Taken) (s : State), takenRequest i = some q →
      exec i s = .next (if (s.links.link q.link).rx.state = .awaitLen then takeKind q.link q.tag q.kind q.payload s else s))
  ∧ (∀ (l : LinkId) (tag kind : Byte) (payload : List Byte) (s : State), kind ∉ requestKinds →
      exec (.requestBadKind l tag kind payload) s =
        .next (if (s.links.link l).rx.state = .awaitLen then takeKind l tag kind payload s else s))

/-- CLAIM and RELEASE (R158, R173, R174): a CLAIM with no master is granted with a fresh challenge and the period timer started; one beside
a master waits as CLAIMANT with a notice; a repeated CLAIM draws the same answer. A RELEASE grants a waiting claimant, and otherwise leaves
the part masterless with every external MANUAL and TRIAL removed as `MasterlessGroups` says (R65). That an OVERFLOW notice due at a grant
joins the queue before the other notices of the event is the model's reading (log entry 19). -/
def Obligations.MastershipIsClaimedAndReleased : Prop :=
  ∀ (l : LinkId) (tag : Byte) (s : State), FreeLink l s →
    let role := fun k : LinkId => (s.links.link k).role
    let granted := fun (x : LinkSupervisor) (k : LinkId) =>
      (x.link k).role = .master ∧ x.challenge = some (Config.challenge s.links.draws) ∧ x.draws = s.links.draws + 1
        ∧ x.periodTimer = some ⟨s.now + s.links.period * 1000, s.links.period * 1000⟩ ∧ x.earlyStart = s.now ∧ x.run = 0
        ∧ x.everGranted = true ∧ x.lapses = s.links.lapses ∧ x.shf = decide (s.links.lapseLimit ≤ s.links.lapses)
    (role l = .master → exec (.claim l tag []) s = .next (replied l tag 0x02 [0, s.links.challenge.getD 0] s))
    ∧ (role l = .claimant → exec (.claim l tag []) s = .next (replied l tag 0x02 [1, 0] s))
    ∧ (role l = .observer → role (otherLink l) = .master →
        exec (.claim l tag []) s = .next (accepts l [1, 0] { taken l tag 0x02 s with
          links := (taken l tag 0x02 s).links.modLink l fun k => { k with role := .claimant }
          raised := s.raised ++ [.claimPending] }))
    ∧ (role l = .observer → role (otherLink l) ≠ .master →
        ∃ u, exec (.claim l tag []) s = .next (accepts l [0, Config.challenge s.links.draws] u)
          ∧ granted u.links l ∧ u.notices = s.notices.tellOverflow
          ∧ u.links.link (otherLink l) = s.links.link (otherLink l)
          ∧ { u with links := s.links, notices := s.notices } = s)
    ∧ (role l = .master → role (otherLink l) = .claimant →
        ∃ u, exec (.release l tag []) s = .next (accepts l [0] u)
          ∧ granted u.links (otherLink l) ∧ (u.links.link l).role = .observer ∧ u.notices = s.notices.tellOverflow
          ∧ { u with links := s.links, notices := s.notices } = { s with raised := s.raised ++ [.granted (Config.challenge s.links.draws)] })
    ∧ (role l = .master → role (otherLink l) ≠ .claimant →
        ∃ u, exec (.release l tag []) s = .next (accepts l [0] u)
          ∧ (u.links.link l).role = .observer ∧ u.links.periodTimer = none
          ∧ u.links.link (otherLink l) = s.links.link (otherLink l)
          ∧ SwitchCascade { s with links := u.links } u ∧ MasterlessGroups s.sw u)

/-- The link-watch (R175 to R178, R158): an accepted KEEPALIVE draws a new challenge, restarts the period, and clears the lapse count with
the third in a row; in WINDOW and CHALLENGE one in the first half of the running period is a lapse, and in CHALLENGE one that is not the
complement of the challenge; a lapse counts up to 4, ends the run, and ends the mastership; the period timer's expiry is a lapse. With a
claimant the mastership is handed over with a fresh challenge and a GRANTED notice (R174); with none every external MANUAL and TRIAL is
removed as `MasterlessGroups` says (R65). SET-LINK-WATCH stores its fields; SHF closes at the limit. The expiry moves the clock to the
timer's due time (the model's choice, log entry 36), and OVERFLOW comes before GRANTED (its reading, log entry 19). -/
def Obligations.LinkWatchCountsLapses : Prop :=
  ∀ (l : LinkId) (tag response : Byte) (s : State), (s.links.link l).role = .master →
    let early := ∃ t, s.links.periodTimer = some t ∧ (s.now - s.links.earlyStart) * 2 < t.length
    let fails := (s.links.mode = .window ∧ early)
      ∨ (s.links.mode = .challenge ∧ (early ∨ s.links.challenge ≠ some (~~~ response)))
    let lapsed := fun u : State =>
      let x := u.links
      x.lapses = min 4 (s.links.lapses + 1) ∧ x.run = 0 ∧ (x.link l).role = .observer
        ∧ x.shf = (!x.everGranted || decide (s.links.lapseLimit ≤ min 4 (s.links.lapses + 1)))
        ∧ u.ports = s.ports ∧ SameRecords s.sw u.sw
        ∧ ((s.links.link (otherLink l)).role = .claimant →
            (x.link (otherLink l)).role = .master ∧ x.challenge = some (Config.challenge s.links.draws) ∧ x.draws = s.links.draws + 1
            ∧ x.periodTimer = some ⟨u.now + s.links.period * 1000, s.links.period * 1000⟩ ∧ x.earlyStart = u.now
            ∧ u.sw = s.sw ∧ u.notices = s.notices.tellOverflow ∧ u.raised = s.raised ++ [.granted (Config.challenge s.links.draws)])
        ∧ ((s.links.link (otherLink l)).role ≠ .claimant →
            x.link (otherLink l) = s.links.link (otherLink l) ∧ x.periodTimer = none ∧ MasterlessGroups s.sw u
            ∧ u.notices = s.notices ∧ u.raised = s.raised)
    (FreeLink l s → ¬ fails →
      let next := Config.challenge s.links.draws
      let run := min 3 (s.links.run + 1)
      let lapses := if run = 3 then 0 else s.links.lapses
      exec (.keepalive l tag [response]) s = .next (accepts l [0, next, byteOf lapses] { taken l tag 0x04 s with
        links := { (taken l tag 0x04 s).links with
          challenge := some next, draws := s.links.draws + 1
          periodTimer := some ⟨s.now + s.links.period * 1000, s.links.period * 1000⟩, earlyStart := s.now
          run := run, lapses := lapses
          shf := !s.links.everGranted || decide (s.links.lapseLimit ≤ lapses) } }))
    ∧ (FreeLink l s → fails →
        ∃ u, exec (.keepalive l tag [response]) s = .next (accepts l [7, 0, byteOf (min 4 (s.links.lapses + 1))] u) ∧ u.now = s.now
          ∧ lapsed u)
    ∧ (∀ t, s.links.periodTimer = some t → s.links.master = some l →
        ∃ u, exec .periodTimerExpiry s = .next (finish .none u) ∧ u.now = max s.now t.expiry ∧ lapsed u)
    ∧ (∀ payload : List Byte, FreeLink l s → payload.length = 4 →
        (2 < (byteAt payload 0).toNat → exec (.setLinkWatch l tag payload) s = .next (replied l tag 0x05 [6] s))
        ∧ (∀ mode, WatchMode.ofCode (byteAt payload 0) = some mode →
            let period := clampNat 200 10000 (u16 (byteAt payload 1) (byteAt payload 2)) / 100 * 100
            let limit := clampNat 1 4 (byteAt payload 3).toNat
            exec (.setLinkWatch l tag payload) s =
              .next (accepts l ([0, byteOf mode.code] ++ be16 period ++ [byteOf limit]) { taken l tag 0x05 s with
                links := { (taken l tag 0x05 s).links with
                  mode := mode, period := period, lapseLimit := limit
                  shf := !s.links.everGranted || decide (limit ≤ s.links.lapses) } })))

/-- RESTART (R24, R65, R165, R179): it is answered OK, and takes effect at the end of that reply: both links are OBSERVERs with nothing
outstanding or ready, their receivers discard the frame and enter BREAK-HUNT with the count of a break under way, the notice queue is
empty with its overflow flag set, a running cable test is gone with its ports back in service, and every external MANUAL and TRIAL is
removed as `MasterlessGroups` says. All else stands: every record and setting, the alarm points, the link-watch's counts and challenge,
the ports but for the receiver and transmitter of the two of a cable test, the elements with the moves under way, the bus, the
settle-failure list, and of the move queue every operation in flight and every one of a group that held no MANUAL or TRIAL; the arbiter's
choice, unless it leaves with an operation withdrawn (R100); and the timing unit, where its references follow the selectors already. The
command moves the clock to the end of that reply (the model's choice, log entry 36). -/
def Obligations.RestartClearsLinks : Prop :=
  ∀ (l : LinkId) (s : State),
    (∀ tag, MasterReady l s → exec (.restart l tag []) s = .next (replied l tag 0x06 [0] s))
    ∧ (∀ f ends, (s.links.link l).sending = some (f, ends) → f.kind = 0x86 → f.payload = [0] →
        ∃ u, exec (.restartTakesEffect l) s = .next (finish .none u) ∧ u.now = max s.now ends
          ∧ (∀ k, u.links.link k = { (s.links.link k) with
              rx := { (s.links.link k).rx with state := .breakHunt, assembly := [] }
              outstanding := none, ready := [], role := .observer
              sending := if k = l then none else (s.links.link k).sending })
          ∧ u.links = { s.links with linkA := u.links.linkA, linkB := u.links.linkB, periodTimer := none }
          ∧ u.notices = { s.notices with queue := [], overflow := true } ∧ u.raised = s.raised
          ∧ u.cableTest = none ∧ KeepsSettings s u ∧ u.alarms = s.alarms ∧ u.conversion = s.conversion
          ∧ SameRecords s.sw u.sw ∧ MasterlessGroups s.sw u
          ∧ u.sw = { s.sw with groups := u.sw.groups, queue := u.sw.queue, chosen := u.sw.chosen, raised := u.sw.raised }
          ∧ (let temporary := fun g : GroupId => ∃ grp, s.sw.groups[g] = some grp ∧ grp.hasTemporary = true
             ((∀ g, ¬ temporary g) → u.sw = s.sw ∧ u.timing = s.timing)
             ∧ (u.sw.chosen = s.sw.chosen ∨ ∃ c, s.sw.chosen = some c ∧ temporary c.owner ∧ u.sw.chosen = none)
             ∧ ((s.sw.queue.map (·.group)).Nodup → ∀ op ∈ s.sw.queue,
                 (¬ temporary op.group → op ∈ u.sw.queue)
                 ∧ (op.inFlight = true → ∃ op' ∈ u.sw.queue, op' = { op with judged := op'.judged })))
          ∧ ((∀ (r : RefId) g m, 2 ≤ r.val → s.timing.refs[r].enabled = true → s.timing.refs[r].binding = .member g m →
              s.timing.refs[r].source = derivedSource s.sw (.member g m)) → u.timing = s.timing)
          ∧ (s.cableTest = none → u.ports = s.ports)
          ∧ (∀ t, s.cableTest = some t → ∀ p : PortId,
              let old := s.ports[p]
              let new := u.ports[p]
              new = { old with tx := new.tx, rx := new.rx, asm := new.asm, lossTimer := new.lossTimer }
              ∧ (old.cfg.enabled = false → new = old)
              ∧ (p ≠ t.outPort → new.tx = old.tx)
              ∧ (p ≠ t.inPort → new.rx = old.rx ∧ new.asm = old.asm ∧ new.lossTimer = old.lossTimer)
              ∧ (old.cfg.enabled = true → p = t.outPort → new.tx = ⟨.leadIn, u.now, u.now + 2500, []⟩)
              ∧ (old.cfg.enabled = true → p = t.inPort →
                  new.lossTimer = some (u.now + 40000) ∧ new.rx = ⟨true, .search 0⟩ ∧ new.asm = .hunt)))

/-! ### Laws that every step keeps -/

/-- Every step keeps the port laws (R27, R28, R35, R37 to R40, R42), whatever command is at the front of the queue. That a port out of
service holds no power and no saturation mark (`Port.disabled`) is the model's choice (log entry 28). -/
def Obligations.StepKeepsPortLaws : Prop := ∀ s t : State, PortsInv s → step s = .next t → PortsInv t

/-- Every step keeps the laws of group and element records (R43, R45 to R48, R89), so that the moving set holds no element twice and at
most 24 of them (R95); and every step keeps the law of the move queue and the arbiter (R97 to R99): every entry serves a group that has a
record and is neither FROZEN nor HALTED, no two serve one group, at most 16 entries stand in the queue and at most four are MAINTENANCE,
no queued MAINTENANCE entry stands before a queued entry of another class, and no choice waits while a transaction is on the bus. The
event at whose end a choice is made is the model's choice (log entry 43). -/
def Obligations.StepKeepsMembershipLaws : Prop :=
  (∀ s t : State, MembershipInv s → step s = .next t → MembershipInv t
    ∧ ((t.sw.elements.filter (·.moving.isSome)).map (·.address)).Nodup
    ∧ (t.sw.elements.filter (·.moving.isSome)).length ≤ 24)
  ∧ (∀ s t : State, QueueInv s.sw → step s = .next t → QueueInv t.sw)

/-- Every step keeps the laws of the timing unit (R119, R120, R126 to R130), and the selected timing reference is always selectable,
with its quality in the outgoing codes and 15 on its source port (R122, R125, R131). That the acquire timer runs in ACQUIRING alone is the
model's choice (log entry 45). -/
def Obligations.StepKeepsTimingLaws : Prop :=
  (∀ s t : State, TimingInv s.timing → step s = .next t → TimingInv t.timing)
  ∧ (∀ s t : State, SelectionInv s.ports s.timing → step s = .next t → SelectionInv t.ports t.timing)

/-- Every step keeps the laws of the alarm unit (R136, R142, R143, R147 to R149, R154, R155), and with them its counts and contacts are
those that the reportable points make: per severity how many there are, how many of them are unacknowledged, and each contact closed where
its count is 1 or more (`CountsFit`). -/
def Obligations.StepKeepsAlarmLaws : Prop :=
  ∀ s t : State, AlarmsInv s.alarms → step s = .next t → AlarmsInv t.alarms ∧ CountsFit t.alarms

/-- Every step keeps the laws of mastership and the link-watch (R158, R173 to R178). -/
def Obligations.StepKeepsMastershipLaws : Prop := ∀ s t : State, MastershipInv s.links → step s = .next t → MastershipInv t.links

/-- Every step keeps the laws of requests in progress (R21, R107, R171) and of the notice queue (R159). -/
def Obligations.StepKeepsRequestAndNoticeLaws : Prop :=
  ∀ s t : State, RequestsInv s → NoticesInv s → step s = .next t → RequestsInv t ∧ NoticesInv t

/-- The part after a full reset meets every law that steps keep. Where the laws read a port's absent power and clear saturation marks, or
the holdover value 0, these are the model's choice (log entry 28). -/
def Obligations.ResetMeetsEveryLaw : Prop :=
  PortsInv State.reset ∧ MembershipInv State.reset ∧ QueueInv State.reset.sw ∧ TimingInv State.reset.timing
    ∧ SelectionInv State.reset.ports State.reset.timing ∧ AlarmsInv State.reset.alarms
    ∧ MastershipInv State.reset.links ∧ RequestsInv State.reset ∧ NoticesInv State.reset
end

