-- ==== Sys2Proof/Laws/State.lean ====
section
/-! SUPPORT. One lemma for each field of each record update, true by rfl: what the update leaves and what it changes. -/

namespace Sys2Proof.Machine

/-! ### Updates of the whole part -/

/-! `State.reach` -/

@[simp] theorem State.reach_pending (t : Nat) (s : State) : (s.reach t).pending = s.pending := rfl
@[simp] theorem State.reach_shelf (t : Nat) (s : State) : (s.reach t).shelf = s.shelf := rfl
@[simp] theorem State.reach_slot (t : Nat) (s : State) : (s.reach t).slot = s.slot := rfl
@[simp] theorem State.reach_ranges (t : Nat) (s : State) : (s.reach t).ranges = s.ranges := rfl
@[simp] theorem State.reach_ports (t : Nat) (s : State) : (s.reach t).ports = s.ports := rfl
@[simp] theorem State.reach_conversion (t : Nat) (s : State) : (s.reach t).conversion = s.conversion := rfl
@[simp] theorem State.reach_cableTest (t : Nat) (s : State) : (s.reach t).cableTest = s.cableTest := rfl
@[simp] theorem State.reach_sw (t : Nat) (s : State) : (s.reach t).sw = s.sw := rfl
@[simp] theorem State.reach_timing (t : Nat) (s : State) : (s.reach t).timing = s.timing := rfl
@[simp] theorem State.reach_alarms (t : Nat) (s : State) : (s.reach t).alarms = s.alarms := rfl
@[simp] theorem State.reach_notices (t : Nat) (s : State) : (s.reach t).notices = s.notices := rfl
@[simp] theorem State.reach_links (t : Nat) (s : State) : (s.reach t).links = s.links := rfl
@[simp] theorem State.reach_raised (t : Nat) (s : State) : (s.reach t).raised = s.raised := rfl
@[simp] theorem State.reach_orderDraws (t : Nat) (s : State) : (s.reach t).orderDraws = s.orderDraws := rfl

/-! `State.idle` -/

@[simp] theorem State.idle_pending (s : State) : (s.idle).pending = s.pending := rfl
@[simp] theorem State.idle_shelf (s : State) : (s.idle).shelf = s.shelf := rfl
@[simp] theorem State.idle_slot (s : State) : (s.idle).slot = s.slot := rfl
@[simp] theorem State.idle_ranges (s : State) : (s.idle).ranges = s.ranges := rfl
@[simp] theorem State.idle_ports (s : State) : (s.idle).ports = s.ports := rfl
@[simp] theorem State.idle_conversion (s : State) : (s.idle).conversion = s.conversion := rfl
@[simp] theorem State.idle_cableTest (s : State) : (s.idle).cableTest = s.cableTest := rfl
@[simp] theorem State.idle_sw (s : State) : (s.idle).sw = s.sw := rfl
@[simp] theorem State.idle_timing (s : State) : (s.idle).timing = s.timing := rfl
@[simp] theorem State.idle_alarms (s : State) : (s.idle).alarms = s.alarms := rfl
@[simp] theorem State.idle_notices (s : State) : (s.idle).notices = s.notices := rfl
@[simp] theorem State.idle_links (s : State) : (s.idle).links = s.links := rfl
@[simp] theorem State.idle_raised (s : State) : (s.idle).raised = s.raised := rfl
@[simp] theorem State.idle_orderDraws (s : State) : (s.idle).orderDraws = s.orderDraws := rfl

/-! `Switching.arbitrate` -/

@[simp] theorem Switching.arbitrate_groups (w : Switching) : w.arbitrate.groups = w.groups := by unfold Switching.arbitrate; split <;> rfl
@[simp] theorem Switching.arbitrate_elements (w : Switching) : w.arbitrate.elements = w.elements := by unfold Switching.arbitrate; split <;> rfl
@[simp] theorem Switching.arbitrate_queue (w : Switching) : w.arbitrate.queue = w.queue := by unfold Switching.arbitrate; split <;> rfl
@[simp] theorem Switching.arbitrate_bus (w : Switching) : w.arbitrate.bus = w.bus := by unfold Switching.arbitrate; split <;> rfl
@[simp] theorem Switching.arbitrate_busFreeAt (w : Switching) : w.arbitrate.busFreeAt = w.busFreeAt := by unfold Switching.arbitrate; split <;> rfl
@[simp] theorem Switching.arbitrate_busDefect (w : Switching) : w.arbitrate.busDefect = w.busDefect := by unfold Switching.arbitrate; split <;> rfl
@[simp] theorem Switching.arbitrate_settleFail (w : Switching) : w.arbitrate.settleFail = w.settleFail := by unfold Switching.arbitrate; split <;> rfl
@[simp] theorem Switching.arbitrate_raised (w : Switching) : w.arbitrate.raised = w.raised := by unfold Switching.arbitrate; split <;> rfl

/-! `flush` -/

@[simp] theorem flush_now (s : State) : (flush s).now = s.now := rfl
@[simp] theorem flush_pending (s : State) : (flush s).pending = s.pending := rfl
@[simp] theorem flush_shelf (s : State) : (flush s).shelf = s.shelf := rfl
@[simp] theorem flush_slot (s : State) : (flush s).slot = s.slot := rfl
@[simp] theorem flush_ranges (s : State) : (flush s).ranges = s.ranges := rfl
@[simp] theorem flush_ports (s : State) : (flush s).ports = s.ports := rfl
@[simp] theorem flush_conversion (s : State) : (flush s).conversion = s.conversion := rfl
@[simp] theorem flush_cableTest (s : State) : (flush s).cableTest = s.cableTest := rfl
@[simp] theorem flush_sw_groups (s : State) : (flush s).sw.groups = s.sw.groups := rfl
@[simp] theorem flush_sw_elements (s : State) : (flush s).sw.elements = s.sw.elements := rfl
@[simp] theorem flush_sw_queue (s : State) : (flush s).sw.queue = s.sw.queue := rfl
@[simp] theorem flush_sw_bus (s : State) : (flush s).sw.bus = s.sw.bus := rfl
@[simp] theorem flush_sw_busFreeAt (s : State) : (flush s).sw.busFreeAt = s.sw.busFreeAt := rfl
@[simp] theorem flush_sw_chosen (s : State) : (flush s).sw.chosen = s.sw.chosen := rfl
@[simp] theorem flush_sw_busDefect (s : State) : (flush s).sw.busDefect = s.sw.busDefect := rfl
@[simp] theorem flush_sw_settleFail (s : State) : (flush s).sw.settleFail = s.sw.settleFail := rfl
@[simp] theorem flush_timing_refs (s : State) : (flush s).timing.refs = s.timing.refs := rfl
@[simp] theorem flush_timing_settings (s : State) : (flush s).timing.settings = s.timing.settings := rfl
@[simp] theorem flush_timing_selected (s : State) : (flush s).timing.selected = s.timing.selected := rfl
@[simp] theorem flush_timing_forced (s : State) : (flush s).timing.forced = s.timing.forced := rfl
@[simp] theorem flush_timing_state (s : State) : (flush s).timing.state = s.timing.state := rfl
@[simp] theorem flush_timing_acquireTimer (s : State) : (flush s).timing.acquireTimer = s.timing.acquireTimer := rfl
@[simp] theorem flush_timing_holdoverTimer (s : State) : (flush s).timing.holdoverTimer = s.timing.holdoverTimer := rfl
@[simp] theorem flush_timing_holdoverValue (s : State) : (flush s).timing.holdoverValue = s.timing.holdoverValue := rfl
@[simp] theorem flush_timing_history (s : State) : (flush s).timing.history = s.timing.history := rfl
@[simp] theorem flush_timing_lockedUpdates (s : State) : (flush s).timing.lockedUpdates = s.timing.lockedUpdates := rfl
@[simp] theorem flush_timing_ready (s : State) : (flush s).timing.ready = s.timing.ready := rfl
@[simp] theorem flush_timing_word (s : State) : (flush s).timing.word = s.timing.word := rfl
@[simp] theorem flush_timing_refout (s : State) : (flush s).timing.refout = s.timing.refout := rfl
@[simp] theorem flush_timing_codes (s : State) : (flush s).timing.codes = s.timing.codes := rfl
@[simp] theorem flush_timing_steering (s : State) : (flush s).timing.steering = s.timing.steering := rfl
@[simp] theorem flush_timing_steerWaiting (s : State) : (flush s).timing.steerWaiting = s.timing.steerWaiting := rfl
@[simp] theorem flush_timing_nextTick (s : State) : (flush s).timing.nextTick = s.timing.nextTick := rfl
@[simp] theorem flush_alarms (s : State) : (flush s).alarms = s.alarms := rfl
@[simp] theorem flush_links (s : State) : (flush s).links = s.links := rfl

/-! `takeAlarms` -/

@[simp] theorem takeAlarms_sw_groups (e : Expiry) (s : State) : (takeAlarms e s).sw.groups = s.sw.groups := rfl
@[simp] theorem takeAlarms_sw_elements (e : Expiry) (s : State) : (takeAlarms e s).sw.elements = s.sw.elements := rfl
@[simp] theorem takeAlarms_sw_queue (e : Expiry) (s : State) : (takeAlarms e s).sw.queue = s.sw.queue := rfl
@[simp] theorem takeAlarms_sw_bus (e : Expiry) (s : State) : (takeAlarms e s).sw.bus = s.sw.bus := rfl
@[simp] theorem takeAlarms_sw_busFreeAt (e : Expiry) (s : State) : (takeAlarms e s).sw.busFreeAt = s.sw.busFreeAt := rfl
@[simp] theorem takeAlarms_sw_busDefect (e : Expiry) (s : State) : (takeAlarms e s).sw.busDefect = s.sw.busDefect := rfl
@[simp] theorem takeAlarms_sw_settleFail (e : Expiry) (s : State) : (takeAlarms e s).sw.settleFail = s.sw.settleFail := rfl
@[simp] theorem takeAlarms_sw_raised (e : Expiry) (s : State) : (takeAlarms e s).sw.raised = s.sw.raised := rfl
@[simp] theorem takeAlarms_timing_refs (e : Expiry) (s : State) : (takeAlarms e s).timing.refs = s.timing.refs := rfl
@[simp] theorem takeAlarms_timing_settings (e : Expiry) (s : State) :
    (takeAlarms e s).timing.settings = s.timing.settings := rfl
@[simp] theorem takeAlarms_timing_selected (e : Expiry) (s : State) :
    (takeAlarms e s).timing.selected = s.timing.selected := rfl
@[simp] theorem takeAlarms_timing_forced (e : Expiry) (s : State) : (takeAlarms e s).timing.forced = s.timing.forced := rfl
@[simp] theorem takeAlarms_timing_state (e : Expiry) (s : State) : (takeAlarms e s).timing.state = s.timing.state := rfl
@[simp] theorem takeAlarms_timing_acquireTimer (e : Expiry) (s : State) :
    (takeAlarms e s).timing.acquireTimer = s.timing.acquireTimer := rfl
@[simp] theorem takeAlarms_timing_holdoverTimer (e : Expiry) (s : State) :
    (takeAlarms e s).timing.holdoverTimer = s.timing.holdoverTimer := rfl
@[simp] theorem takeAlarms_timing_holdoverValue (e : Expiry) (s : State) :
    (takeAlarms e s).timing.holdoverValue = s.timing.holdoverValue := rfl
@[simp] theorem takeAlarms_timing_history (e : Expiry) (s : State) : (takeAlarms e s).timing.history = s.timing.history := rfl
@[simp] theorem takeAlarms_timing_lockedUpdates (e : Expiry) (s : State) :
    (takeAlarms e s).timing.lockedUpdates = s.timing.lockedUpdates := rfl
@[simp] theorem takeAlarms_timing_ready (e : Expiry) (s : State) : (takeAlarms e s).timing.ready = s.timing.ready := rfl
@[simp] theorem takeAlarms_timing_word (e : Expiry) (s : State) : (takeAlarms e s).timing.word = s.timing.word := rfl
@[simp] theorem takeAlarms_timing_refout (e : Expiry) (s : State) : (takeAlarms e s).timing.refout = s.timing.refout := rfl
@[simp] theorem takeAlarms_timing_codes (e : Expiry) (s : State) : (takeAlarms e s).timing.codes = s.timing.codes := rfl
@[simp] theorem takeAlarms_timing_steering (e : Expiry) (s : State) :
    (takeAlarms e s).timing.steering = s.timing.steering := rfl
@[simp] theorem takeAlarms_timing_steerWaiting (e : Expiry) (s : State) :
    (takeAlarms e s).timing.steerWaiting = s.timing.steerWaiting := rfl
@[simp] theorem takeAlarms_timing_nextTick (e : Expiry) (s : State) :
    (takeAlarms e s).timing.nextTick = s.timing.nextTick := rfl
@[simp] theorem takeAlarms_timing_raised (e : Expiry) (s : State) : (takeAlarms e s).timing.raised = s.timing.raised := rfl
@[simp] theorem takeAlarms_notices_queue (e : Expiry) (s : State) : (takeAlarms e s).notices.queue = s.notices.queue := rfl
@[simp] theorem takeAlarms_notices_overflow (e : Expiry) (s : State) :
    (takeAlarms e s).notices.overflow = s.notices.overflow := rfl
@[simp] theorem takeAlarms_notices_threshold (e : Expiry) (s : State) :
    (takeAlarms e s).notices.threshold = s.notices.threshold := rfl
@[simp] theorem takeAlarms_notices_groupEnable (e : Expiry) (s : State) :
    (takeAlarms e s).notices.groupEnable = s.notices.groupEnable := rfl
@[simp] theorem takeAlarms_notices_timingEnable (e : Expiry) (s : State) :
    (takeAlarms e s).notices.timingEnable = s.notices.timingEnable := rfl
@[simp] theorem takeAlarms_links_linkA (e : Expiry) (s : State) : (takeAlarms e s).links.linkA = s.links.linkA := rfl
@[simp] theorem takeAlarms_links_linkB (e : Expiry) (s : State) : (takeAlarms e s).links.linkB = s.links.linkB := rfl
@[simp] theorem takeAlarms_links_rate (e : Expiry) (s : State) : (takeAlarms e s).links.rate = s.links.rate := rfl
@[simp] theorem takeAlarms_links_mode (e : Expiry) (s : State) : (takeAlarms e s).links.mode = s.links.mode := rfl
@[simp] theorem takeAlarms_links_period (e : Expiry) (s : State) : (takeAlarms e s).links.period = s.links.period := rfl
@[simp] theorem takeAlarms_links_lapseLimit (e : Expiry) (s : State) :
    (takeAlarms e s).links.lapseLimit = s.links.lapseLimit := rfl
@[simp] theorem takeAlarms_links_periodTimer (e : Expiry) (s : State) :
    (takeAlarms e s).links.periodTimer = s.links.periodTimer := rfl
@[simp] theorem takeAlarms_links_earlyStart (e : Expiry) (s : State) :
    (takeAlarms e s).links.earlyStart = s.links.earlyStart := rfl
@[simp] theorem takeAlarms_links_challenge (e : Expiry) (s : State) :
    (takeAlarms e s).links.challenge = s.links.challenge := rfl
@[simp] theorem takeAlarms_links_draws (e : Expiry) (s : State) : (takeAlarms e s).links.draws = s.links.draws := rfl
@[simp] theorem takeAlarms_links_lapses (e : Expiry) (s : State) : (takeAlarms e s).links.lapses = s.links.lapses := rfl
@[simp] theorem takeAlarms_links_run (e : Expiry) (s : State) : (takeAlarms e s).links.run = s.links.run := rfl
@[simp] theorem takeAlarms_links_everGranted (e : Expiry) (s : State) :
    (takeAlarms e s).links.everGranted = s.links.everGranted := rfl
@[simp] theorem takeAlarms_links_shf (e : Expiry) (s : State) : (takeAlarms e s).links.shf = s.links.shf := rfl

/-! `finish` -/

/-- The switching block at the end of an event: the arbiter has chosen (R99), and no notice is left over. -/
theorem finish_sw (e : Expiry) (s : State) : (finish e s).sw = { s.sw.arbitrate with raised := [] } := by
  show Switching.arbitrate { s.sw with raised := [] } = _
  unfold Switching.arbitrate
  dsimp only
  split <;> rfl
@[simp] theorem finish_now (e : Expiry) (s : State) : (finish e s).now = s.now := by simp only [finish, flush, takeAlarms]
@[simp] theorem finish_pending (e : Expiry) (s : State) : (finish e s).pending = s.pending := by simp only [finish, flush, takeAlarms]
@[simp] theorem finish_shelf (e : Expiry) (s : State) : (finish e s).shelf = s.shelf := by simp only [finish, flush, takeAlarms]
@[simp] theorem finish_slot (e : Expiry) (s : State) : (finish e s).slot = s.slot := by simp only [finish, flush, takeAlarms]
@[simp] theorem finish_ranges (e : Expiry) (s : State) : (finish e s).ranges = s.ranges := by simp only [finish, flush, takeAlarms]
@[simp] theorem finish_ports (e : Expiry) (s : State) : (finish e s).ports = s.ports := by simp only [finish, flush, takeAlarms]
@[simp] theorem finish_conversion (e : Expiry) (s : State) : (finish e s).conversion = s.conversion := by simp only [finish, flush, takeAlarms]
@[simp] theorem finish_cableTest (e : Expiry) (s : State) : (finish e s).cableTest = s.cableTest := by simp only [finish, flush, takeAlarms]
@[simp] theorem finish_links (e : Expiry) (s : State) : (finish e s).links = s.links := by simp only [finish, flush, takeAlarms]
@[simp] theorem finish_sw_groups (e : Expiry) (s : State) : (finish e s).sw.groups = s.sw.groups := by rw [finish_sw]; simp
@[simp] theorem finish_sw_elements (e : Expiry) (s : State) : (finish e s).sw.elements = s.sw.elements := by rw [finish_sw]; simp
@[simp] theorem finish_sw_queue (e : Expiry) (s : State) : (finish e s).sw.queue = s.sw.queue := by rw [finish_sw]; simp
@[simp] theorem finish_sw_bus (e : Expiry) (s : State) : (finish e s).sw.bus = s.sw.bus := by rw [finish_sw]; simp
@[simp] theorem finish_sw_busFreeAt (e : Expiry) (s : State) : (finish e s).sw.busFreeAt = s.sw.busFreeAt := by rw [finish_sw]; simp
@[simp] theorem finish_sw_busDefect (e : Expiry) (s : State) : (finish e s).sw.busDefect = s.sw.busDefect := by rw [finish_sw]; simp
@[simp] theorem finish_sw_settleFail (e : Expiry) (s : State) : (finish e s).sw.settleFail = s.sw.settleFail := by rw [finish_sw]; simp
@[simp] theorem finish_timing_refs (e : Expiry) (s : State) : (finish e s).timing.refs = s.timing.refs := rfl
@[simp] theorem finish_timing_settings (e : Expiry) (s : State) : (finish e s).timing.settings = s.timing.settings := rfl
@[simp] theorem finish_timing_selected (e : Expiry) (s : State) : (finish e s).timing.selected = s.timing.selected := rfl
@[simp] theorem finish_timing_forced (e : Expiry) (s : State) : (finish e s).timing.forced = s.timing.forced := rfl
@[simp] theorem finish_timing_state (e : Expiry) (s : State) : (finish e s).timing.state = s.timing.state := rfl
@[simp] theorem finish_timing_acquireTimer (e : Expiry) (s : State) :
    (finish e s).timing.acquireTimer = s.timing.acquireTimer := rfl
@[simp] theorem finish_timing_holdoverTimer (e : Expiry) (s : State) :
    (finish e s).timing.holdoverTimer = s.timing.holdoverTimer := rfl
@[simp] theorem finish_timing_holdoverValue (e : Expiry) (s : State) :
    (finish e s).timing.holdoverValue = s.timing.holdoverValue := rfl
@[simp] theorem finish_timing_history (e : Expiry) (s : State) : (finish e s).timing.history = s.timing.history := rfl
@[simp] theorem finish_timing_lockedUpdates (e : Expiry) (s : State) :
    (finish e s).timing.lockedUpdates = s.timing.lockedUpdates := rfl
@[simp] theorem finish_timing_ready (e : Expiry) (s : State) : (finish e s).timing.ready = s.timing.ready := rfl
@[simp] theorem finish_timing_word (e : Expiry) (s : State) : (finish e s).timing.word = s.timing.word := rfl
@[simp] theorem finish_timing_refout (e : Expiry) (s : State) : (finish e s).timing.refout = s.timing.refout := rfl
@[simp] theorem finish_timing_codes (e : Expiry) (s : State) : (finish e s).timing.codes = s.timing.codes := rfl
@[simp] theorem finish_timing_steering (e : Expiry) (s : State) : (finish e s).timing.steering = s.timing.steering := rfl
@[simp] theorem finish_timing_steerWaiting (e : Expiry) (s : State) :
    (finish e s).timing.steerWaiting = s.timing.steerWaiting := rfl
@[simp] theorem finish_timing_nextTick (e : Expiry) (s : State) : (finish e s).timing.nextTick = s.timing.nextTick := rfl
@[simp] theorem finish_links_linkA (e : Expiry) (s : State) : (finish e s).links.linkA = s.links.linkA := rfl
@[simp] theorem finish_links_linkB (e : Expiry) (s : State) : (finish e s).links.linkB = s.links.linkB := rfl
@[simp] theorem finish_links_rate (e : Expiry) (s : State) : (finish e s).links.rate = s.links.rate := rfl
@[simp] theorem finish_links_mode (e : Expiry) (s : State) : (finish e s).links.mode = s.links.mode := rfl
@[simp] theorem finish_links_period (e : Expiry) (s : State) : (finish e s).links.period = s.links.period := rfl
@[simp] theorem finish_links_lapseLimit (e : Expiry) (s : State) : (finish e s).links.lapseLimit = s.links.lapseLimit := rfl
@[simp] theorem finish_links_periodTimer (e : Expiry) (s : State) : (finish e s).links.periodTimer = s.links.periodTimer := rfl
@[simp] theorem finish_links_earlyStart (e : Expiry) (s : State) : (finish e s).links.earlyStart = s.links.earlyStart := rfl
@[simp] theorem finish_links_challenge (e : Expiry) (s : State) : (finish e s).links.challenge = s.links.challenge := rfl
@[simp] theorem finish_links_draws (e : Expiry) (s : State) : (finish e s).links.draws = s.links.draws := rfl
@[simp] theorem finish_links_lapses (e : Expiry) (s : State) : (finish e s).links.lapses = s.links.lapses := rfl
@[simp] theorem finish_links_run (e : Expiry) (s : State) : (finish e s).links.run = s.links.run := rfl
@[simp] theorem finish_links_everGranted (e : Expiry) (s : State) : (finish e s).links.everGranted = s.links.everGranted := rfl
@[simp] theorem finish_links_shf (e : Expiry) (s : State) : (finish e s).links.shf = s.links.shf := rfl

/-! `modLink` -/

@[simp] theorem modLink_now (l : LinkId) (f : Link → Link) (s : State) : (modLink l f s).now = s.now := by cases l <;> rfl
@[simp] theorem modLink_pending (l : LinkId) (f : Link → Link) (s : State) :
    (modLink l f s).pending = s.pending := by cases l <;> rfl
@[simp] theorem modLink_shelf (l : LinkId) (f : Link → Link) (s : State) : (modLink l f s).shelf = s.shelf := by cases l <;> rfl
@[simp] theorem modLink_slot (l : LinkId) (f : Link → Link) (s : State) : (modLink l f s).slot = s.slot := by cases l <;> rfl
@[simp] theorem modLink_ranges (l : LinkId) (f : Link → Link) (s : State) :
    (modLink l f s).ranges = s.ranges := by cases l <;> rfl
@[simp] theorem modLink_ports (l : LinkId) (f : Link → Link) (s : State) : (modLink l f s).ports = s.ports := by cases l <;> rfl
@[simp] theorem modLink_conversion (l : LinkId) (f : Link → Link) (s : State) :
    (modLink l f s).conversion = s.conversion := by cases l <;> rfl
@[simp] theorem modLink_cableTest (l : LinkId) (f : Link → Link) (s : State) :
    (modLink l f s).cableTest = s.cableTest := by cases l <;> rfl
@[simp] theorem modLink_sw (l : LinkId) (f : Link → Link) (s : State) : (modLink l f s).sw = s.sw := by cases l <;> rfl
@[simp] theorem modLink_timing (l : LinkId) (f : Link → Link) (s : State) :
    (modLink l f s).timing = s.timing := by cases l <;> rfl
@[simp] theorem modLink_alarms (l : LinkId) (f : Link → Link) (s : State) :
    (modLink l f s).alarms = s.alarms := by cases l <;> rfl
@[simp] theorem modLink_notices (l : LinkId) (f : Link → Link) (s : State) :
    (modLink l f s).notices = s.notices := by cases l <;> rfl
@[simp] theorem modLink_links_rate (l : LinkId) (f : Link → Link) (s : State) :
    (modLink l f s).links.rate = s.links.rate := by cases l <;> rfl
@[simp] theorem modLink_links_mode (l : LinkId) (f : Link → Link) (s : State) :
    (modLink l f s).links.mode = s.links.mode := by cases l <;> rfl
@[simp] theorem modLink_links_period (l : LinkId) (f : Link → Link) (s : State) :
    (modLink l f s).links.period = s.links.period := by cases l <;> rfl
@[simp] theorem modLink_links_lapseLimit (l : LinkId) (f : Link → Link) (s : State) :
    (modLink l f s).links.lapseLimit = s.links.lapseLimit := by cases l <;> rfl
@[simp] theorem modLink_links_periodTimer (l : LinkId) (f : Link → Link) (s : State) :
    (modLink l f s).links.periodTimer = s.links.periodTimer := by cases l <;> rfl
@[simp] theorem modLink_links_earlyStart (l : LinkId) (f : Link → Link) (s : State) :
    (modLink l f s).links.earlyStart = s.links.earlyStart := by cases l <;> rfl
@[simp] theorem modLink_links_challenge (l : LinkId) (f : Link → Link) (s : State) :
    (modLink l f s).links.challenge = s.links.challenge := by cases l <;> rfl
@[simp] theorem modLink_links_draws (l : LinkId) (f : Link → Link) (s : State) :
    (modLink l f s).links.draws = s.links.draws := by cases l <;> rfl
@[simp] theorem modLink_links_lapses (l : LinkId) (f : Link → Link) (s : State) :
    (modLink l f s).links.lapses = s.links.lapses := by cases l <;> rfl
@[simp] theorem modLink_links_run (l : LinkId) (f : Link → Link) (s : State) :
    (modLink l f s).links.run = s.links.run := by cases l <;> rfl
@[simp] theorem modLink_links_everGranted (l : LinkId) (f : Link → Link) (s : State) :
    (modLink l f s).links.everGranted = s.links.everGranted := by cases l <;> rfl
@[simp] theorem modLink_links_shf (l : LinkId) (f : Link → Link) (s : State) :
    (modLink l f s).links.shf = s.links.shf := by cases l <;> rfl
@[simp] theorem modLink_raised (l : LinkId) (f : Link → Link) (s : State) :
    (modLink l f s).raised = s.raised := by cases l <;> rfl
@[simp] theorem modLink_orderDraws (l : LinkId) (f : Link → Link) (s : State) :
    (modLink l f s).orderDraws = s.orderDraws := by cases l <;> rfl

/-! `withRx` -/

@[simp] theorem withRx_now (l : LinkId) (x : LinkRx) (s : State) : (withRx l x s).now = s.now := by cases l <;> rfl
@[simp] theorem withRx_pending (l : LinkId) (x : LinkRx) (s : State) : (withRx l x s).pending = s.pending := by cases l <;> rfl
@[simp] theorem withRx_shelf (l : LinkId) (x : LinkRx) (s : State) : (withRx l x s).shelf = s.shelf := by cases l <;> rfl
@[simp] theorem withRx_slot (l : LinkId) (x : LinkRx) (s : State) : (withRx l x s).slot = s.slot := by cases l <;> rfl
@[simp] theorem withRx_ranges (l : LinkId) (x : LinkRx) (s : State) : (withRx l x s).ranges = s.ranges := by cases l <;> rfl
@[simp] theorem withRx_ports (l : LinkId) (x : LinkRx) (s : State) : (withRx l x s).ports = s.ports := by cases l <;> rfl
@[simp] theorem withRx_conversion (l : LinkId) (x : LinkRx) (s : State) : (withRx l x s).conversion = s.conversion := by cases l <;> rfl
@[simp] theorem withRx_cableTest (l : LinkId) (x : LinkRx) (s : State) : (withRx l x s).cableTest = s.cableTest := by cases l <;> rfl
@[simp] theorem withRx_sw (l : LinkId) (x : LinkRx) (s : State) : (withRx l x s).sw = s.sw := by cases l <;> rfl
@[simp] theorem withRx_timing (l : LinkId) (x : LinkRx) (s : State) : (withRx l x s).timing = s.timing := by cases l <;> rfl
@[simp] theorem withRx_alarms (l : LinkId) (x : LinkRx) (s : State) : (withRx l x s).alarms = s.alarms := by cases l <;> rfl
@[simp] theorem withRx_notices (l : LinkId) (x : LinkRx) (s : State) : (withRx l x s).notices = s.notices := by cases l <;> rfl
@[simp] theorem withRx_raised (l : LinkId) (x : LinkRx) (s : State) : (withRx l x s).raised = s.raised := by cases l <;> rfl
@[simp] theorem withRx_orderDraws (l : LinkId) (x : LinkRx) (s : State) : (withRx l x s).orderDraws = s.orderDraws := by cases l <;> rfl

/-! `LinkRx.discard` -/

@[simp] theorem LinkRx.discard_state (x : LinkRx) : x.discard.state = .breakHunt := rfl
@[simp] theorem LinkRx.discard_assembly (x : LinkRx) : x.discard.assembly = [] := rfl
@[simp] theorem LinkRx.discard_chars (x : LinkRx) : x.discard.chars = x.chars := rfl
@[simp] theorem LinkRx.discard_waited (x : LinkRx) : x.discard.waited = x.waited := rfl
@[simp] theorem LinkRx.discard_zeros (x : LinkRx) : x.discard.zeros = x.zeros := rfl

/-! `CableTest.beginSequence` -/

@[simp] theorem CableTest.beginSequence_outPhase (now : Nat) (t : CableTest) : (t.beginSequence now).outPhase = .sequence := rfl
@[simp] theorem CableTest.beginSequence_phaseEnds (now : Nat) (t : CableTest) :
    (t.beginSequence now).phaseEnds = now + 125 * t.length := rfl
@[simp] theorem CableTest.beginSequence_outPort (now : Nat) (t : CableTest) : (t.beginSequence now).outPort = t.outPort := rfl
@[simp] theorem CableTest.beginSequence_inPort (now : Nat) (t : CableTest) : (t.beginSequence now).inPort = t.inPort := rfl
@[simp] theorem CableTest.beginSequence_length (now : Nat) (t : CableTest) : (t.beginSequence now).length = t.length := rfl
@[simp] theorem CableTest.beginSequence_late (now : Nat) (t : CableTest) : (t.beginSequence now).late = t.late := rfl
@[simp] theorem CableTest.beginSequence_link (now : Nat) (t : CableTest) : (t.beginSequence now).link = t.link := rfl
@[simp] theorem CableTest.beginSequence_inPhase (now : Nat) (t : CableTest) : (t.beginSequence now).inPhase = t.inPhase := rfl
@[simp] theorem CableTest.beginSequence_compared (now : Nat) (t : CableTest) : (t.beginSequence now).compared = t.compared := rfl
@[simp] theorem CableTest.beginSequence_acceptedAt (now : Nat) (t : CableTest) : (t.beginSequence now).acceptedAt = t.acceptedAt := rfl
@[simp] theorem CableTest.beginSequence_outReg (now : Nat) (t : CableTest) : (t.beginSequence now).outReg = t.outReg := rfl
@[simp] theorem CableTest.beginSequence_inReg (now : Nat) (t : CableTest) : (t.beginSequence now).inReg = t.inReg := rfl

/-! `raise` -/

@[simp] theorem raise_now (n : Notice) (s : State) : (raise n s).now = s.now := rfl
@[simp] theorem raise_pending (n : Notice) (s : State) : (raise n s).pending = s.pending := rfl
@[simp] theorem raise_shelf (n : Notice) (s : State) : (raise n s).shelf = s.shelf := rfl
@[simp] theorem raise_slot (n : Notice) (s : State) : (raise n s).slot = s.slot := rfl
@[simp] theorem raise_ranges (n : Notice) (s : State) : (raise n s).ranges = s.ranges := rfl
@[simp] theorem raise_ports (n : Notice) (s : State) : (raise n s).ports = s.ports := rfl
@[simp] theorem raise_conversion (n : Notice) (s : State) : (raise n s).conversion = s.conversion := rfl
@[simp] theorem raise_cableTest (n : Notice) (s : State) : (raise n s).cableTest = s.cableTest := rfl
@[simp] theorem raise_sw (n : Notice) (s : State) : (raise n s).sw = s.sw := rfl
@[simp] theorem raise_timing (n : Notice) (s : State) : (raise n s).timing = s.timing := rfl
@[simp] theorem raise_alarms (n : Notice) (s : State) : (raise n s).alarms = s.alarms := rfl
@[simp] theorem raise_notices (n : Notice) (s : State) : (raise n s).notices = s.notices := rfl
@[simp] theorem raise_links (n : Notice) (s : State) : (raise n s).links = s.links := rfl
@[simp] theorem raise_orderDraws (n : Notice) (s : State) : (raise n s).orderDraws = s.orderDraws := rfl

/-! `acknowledge` -/

@[simp] theorem acknowledge_sw_groups (s : State) : (acknowledge s).sw.groups = s.sw.groups := rfl
@[simp] theorem acknowledge_sw_elements (s : State) : (acknowledge s).sw.elements = s.sw.elements := rfl
@[simp] theorem acknowledge_sw_queue (s : State) : (acknowledge s).sw.queue = s.sw.queue := rfl
@[simp] theorem acknowledge_sw_bus (s : State) : (acknowledge s).sw.bus = s.sw.bus := rfl
@[simp] theorem acknowledge_sw_busFreeAt (s : State) : (acknowledge s).sw.busFreeAt = s.sw.busFreeAt := rfl
@[simp] theorem acknowledge_sw_busDefect (s : State) : (acknowledge s).sw.busDefect = s.sw.busDefect := rfl
@[simp] theorem acknowledge_sw_settleFail (s : State) : (acknowledge s).sw.settleFail = s.sw.settleFail := rfl
@[simp] theorem acknowledge_sw_raised (s : State) : (acknowledge s).sw.raised = s.sw.raised := rfl
@[simp] theorem acknowledge_timing_refs (s : State) : (acknowledge s).timing.refs = s.timing.refs := rfl
@[simp] theorem acknowledge_timing_settings (s : State) : (acknowledge s).timing.settings = s.timing.settings := rfl
@[simp] theorem acknowledge_timing_selected (s : State) : (acknowledge s).timing.selected = s.timing.selected := rfl
@[simp] theorem acknowledge_timing_forced (s : State) : (acknowledge s).timing.forced = s.timing.forced := rfl
@[simp] theorem acknowledge_timing_state (s : State) : (acknowledge s).timing.state = s.timing.state := rfl
@[simp] theorem acknowledge_timing_acquireTimer (s : State) : (acknowledge s).timing.acquireTimer = s.timing.acquireTimer := rfl
@[simp] theorem acknowledge_timing_holdoverTimer (s : State) :
    (acknowledge s).timing.holdoverTimer = s.timing.holdoverTimer := rfl
@[simp] theorem acknowledge_timing_holdoverValue (s : State) :
    (acknowledge s).timing.holdoverValue = s.timing.holdoverValue := rfl
@[simp] theorem acknowledge_timing_history (s : State) : (acknowledge s).timing.history = s.timing.history := rfl
@[simp] theorem acknowledge_timing_lockedUpdates (s : State) :
    (acknowledge s).timing.lockedUpdates = s.timing.lockedUpdates := rfl
@[simp] theorem acknowledge_timing_ready (s : State) : (acknowledge s).timing.ready = s.timing.ready := rfl
@[simp] theorem acknowledge_timing_word (s : State) : (acknowledge s).timing.word = s.timing.word := rfl
@[simp] theorem acknowledge_timing_refout (s : State) : (acknowledge s).timing.refout = s.timing.refout := rfl
@[simp] theorem acknowledge_timing_codes (s : State) : (acknowledge s).timing.codes = s.timing.codes := rfl
@[simp] theorem acknowledge_timing_steering (s : State) : (acknowledge s).timing.steering = s.timing.steering := rfl
@[simp] theorem acknowledge_timing_steerWaiting (s : State) : (acknowledge s).timing.steerWaiting = s.timing.steerWaiting := rfl
@[simp] theorem acknowledge_timing_nextTick (s : State) : (acknowledge s).timing.nextTick = s.timing.nextTick := rfl
@[simp] theorem acknowledge_timing_raised (s : State) : (acknowledge s).timing.raised = s.timing.raised := rfl
@[simp] theorem acknowledge_notices_queue (s : State) : (acknowledge s).notices.queue = s.notices.queue := rfl
@[simp] theorem acknowledge_notices_overflow (s : State) : (acknowledge s).notices.overflow = s.notices.overflow := rfl
@[simp] theorem acknowledge_notices_threshold (s : State) : (acknowledge s).notices.threshold = s.notices.threshold := rfl
@[simp] theorem acknowledge_notices_groupEnable (s : State) : (acknowledge s).notices.groupEnable = s.notices.groupEnable := rfl
@[simp] theorem acknowledge_notices_timingEnable (s : State) :
    (acknowledge s).notices.timingEnable = s.notices.timingEnable := rfl
@[simp] theorem acknowledge_links_linkA (s : State) : (acknowledge s).links.linkA = s.links.linkA := rfl
@[simp] theorem acknowledge_links_linkB (s : State) : (acknowledge s).links.linkB = s.links.linkB := rfl
@[simp] theorem acknowledge_links_rate (s : State) : (acknowledge s).links.rate = s.links.rate := rfl
@[simp] theorem acknowledge_links_mode (s : State) : (acknowledge s).links.mode = s.links.mode := rfl
@[simp] theorem acknowledge_links_period (s : State) : (acknowledge s).links.period = s.links.period := rfl
@[simp] theorem acknowledge_links_lapseLimit (s : State) : (acknowledge s).links.lapseLimit = s.links.lapseLimit := rfl
@[simp] theorem acknowledge_links_periodTimer (s : State) : (acknowledge s).links.periodTimer = s.links.periodTimer := rfl
@[simp] theorem acknowledge_links_earlyStart (s : State) : (acknowledge s).links.earlyStart = s.links.earlyStart := rfl
@[simp] theorem acknowledge_links_challenge (s : State) : (acknowledge s).links.challenge = s.links.challenge := rfl
@[simp] theorem acknowledge_links_draws (s : State) : (acknowledge s).links.draws = s.links.draws := rfl
@[simp] theorem acknowledge_links_lapses (s : State) : (acknowledge s).links.lapses = s.links.lapses := rfl
@[simp] theorem acknowledge_links_run (s : State) : (acknowledge s).links.run = s.links.run := rfl
@[simp] theorem acknowledge_links_everGranted (s : State) : (acknowledge s).links.everGranted = s.links.everGranted := rfl
@[simp] theorem acknowledge_links_shf (s : State) : (acknowledge s).links.shf = s.links.shf := rfl

/-! `pinTo` -/

@[simp] theorem pinTo_now (p : AcoPin) (s : State) : (pinTo p s).now = s.now := rfl
@[simp] theorem pinTo_pending (p : AcoPin) (s : State) : (pinTo p s).pending = s.pending := rfl
@[simp] theorem pinTo_shelf (p : AcoPin) (s : State) : (pinTo p s).shelf = s.shelf := rfl
@[simp] theorem pinTo_slot (p : AcoPin) (s : State) : (pinTo p s).slot = s.slot := rfl
@[simp] theorem pinTo_ranges (p : AcoPin) (s : State) : (pinTo p s).ranges = s.ranges := rfl
@[simp] theorem pinTo_ports (p : AcoPin) (s : State) : (pinTo p s).ports = s.ports := rfl
@[simp] theorem pinTo_conversion (p : AcoPin) (s : State) : (pinTo p s).conversion = s.conversion := rfl
@[simp] theorem pinTo_cableTest (p : AcoPin) (s : State) : (pinTo p s).cableTest = s.cableTest := rfl
@[simp] theorem pinTo_sw (p : AcoPin) (s : State) : (pinTo p s).sw = s.sw := rfl
@[simp] theorem pinTo_timing (p : AcoPin) (s : State) : (pinTo p s).timing = s.timing := rfl
@[simp] theorem pinTo_alarms_points (p : AcoPin) (s : State) : (pinTo p s).alarms.points = s.alarms.points := rfl
@[simp] theorem pinTo_alarms_profile (p : AcoPin) (s : State) : (pinTo p s).alarms.profile = s.alarms.profile := rfl
@[simp] theorem pinTo_alarms_active (p : AcoPin) (s : State) : (pinTo p s).alarms.active = s.alarms.active := rfl
@[simp] theorem pinTo_alarms_visual (p : AcoPin) (s : State) : (pinTo p s).alarms.visual = s.alarms.visual := rfl
@[simp] theorem pinTo_alarms_audible (p : AcoPin) (s : State) : (pinTo p s).alarms.audible = s.alarms.audible := rfl
@[simp] theorem pinTo_alarms_contacts (p : AcoPin) (s : State) : (pinTo p s).alarms.contacts = s.alarms.contacts := rfl
@[simp] theorem pinTo_notices (p : AcoPin) (s : State) : (pinTo p s).notices = s.notices := rfl
@[simp] theorem pinTo_links (p : AcoPin) (s : State) : (pinTo p s).links = s.links := rfl
@[simp] theorem pinTo_raised (p : AcoPin) (s : State) : (pinTo p s).raised = s.raised := rfl
@[simp] theorem pinTo_orderDraws (p : AcoPin) (s : State) : (pinTo p s).orderDraws = s.orderDraws := rfl

/-! `writeProfile` -/

@[simp] theorem writeProfile_now (k : Fin 21) (e : ProfileEntry) (s : State) : (writeProfile k e s).now = s.now := rfl
@[simp] theorem writeProfile_pending (k : Fin 21) (e : ProfileEntry) (s : State) :
    (writeProfile k e s).pending = s.pending := rfl
@[simp] theorem writeProfile_shelf (k : Fin 21) (e : ProfileEntry) (s : State) : (writeProfile k e s).shelf = s.shelf := rfl
@[simp] theorem writeProfile_slot (k : Fin 21) (e : ProfileEntry) (s : State) : (writeProfile k e s).slot = s.slot := rfl
@[simp] theorem writeProfile_ranges (k : Fin 21) (e : ProfileEntry) (s : State) : (writeProfile k e s).ranges = s.ranges := rfl
@[simp] theorem writeProfile_ports (k : Fin 21) (e : ProfileEntry) (s : State) : (writeProfile k e s).ports = s.ports := rfl
@[simp] theorem writeProfile_conversion (k : Fin 21) (e : ProfileEntry) (s : State) :
    (writeProfile k e s).conversion = s.conversion := rfl
@[simp] theorem writeProfile_cableTest (k : Fin 21) (e : ProfileEntry) (s : State) :
    (writeProfile k e s).cableTest = s.cableTest := rfl
@[simp] theorem writeProfile_sw (k : Fin 21) (e : ProfileEntry) (s : State) : (writeProfile k e s).sw = s.sw := rfl
@[simp] theorem writeProfile_timing (k : Fin 21) (e : ProfileEntry) (s : State) : (writeProfile k e s).timing = s.timing := rfl
@[simp] theorem writeProfile_alarms_points (k : Fin 21) (e : ProfileEntry) (s : State) :
    (writeProfile k e s).alarms.points = s.alarms.points := rfl
@[simp] theorem writeProfile_alarms_active (k : Fin 21) (e : ProfileEntry) (s : State) :
    (writeProfile k e s).alarms.active = s.alarms.active := rfl
@[simp] theorem writeProfile_alarms_visual (k : Fin 21) (e : ProfileEntry) (s : State) :
    (writeProfile k e s).alarms.visual = s.alarms.visual := rfl
@[simp] theorem writeProfile_alarms_audible (k : Fin 21) (e : ProfileEntry) (s : State) :
    (writeProfile k e s).alarms.audible = s.alarms.audible := rfl
@[simp] theorem writeProfile_alarms_contacts (k : Fin 21) (e : ProfileEntry) (s : State) :
    (writeProfile k e s).alarms.contacts = s.alarms.contacts := rfl
@[simp] theorem writeProfile_alarms_acoPin (k : Fin 21) (e : ProfileEntry) (s : State) :
    (writeProfile k e s).alarms.acoPin = s.alarms.acoPin := rfl
@[simp] theorem writeProfile_notices (k : Fin 21) (e : ProfileEntry) (s : State) :
    (writeProfile k e s).notices = s.notices := rfl
@[simp] theorem writeProfile_links (k : Fin 21) (e : ProfileEntry) (s : State) : (writeProfile k e s).links = s.links := rfl
@[simp] theorem writeProfile_raised (k : Fin 21) (e : ProfileEntry) (s : State) : (writeProfile k e s).raised = s.raised := rfl
@[simp] theorem writeProfile_orderDraws (k : Fin 21) (e : ProfileEntry) (s : State) :
    (writeProfile k e s).orderDraws = s.orderDraws := rfl

/-! `restartLinks` -/

@[simp] theorem restartLinks_now (s : State) : (restartLinks s).now = s.now := rfl
@[simp] theorem restartLinks_pending (s : State) : (restartLinks s).pending = s.pending := rfl
@[simp] theorem restartLinks_shelf (s : State) : (restartLinks s).shelf = s.shelf := rfl
@[simp] theorem restartLinks_slot (s : State) : (restartLinks s).slot = s.slot := rfl
@[simp] theorem restartLinks_ranges (s : State) : (restartLinks s).ranges = s.ranges := rfl
@[simp] theorem restartLinks_ports (s : State) : (restartLinks s).ports = s.ports := rfl
@[simp] theorem restartLinks_conversion (s : State) : (restartLinks s).conversion = s.conversion := rfl
@[simp] theorem restartLinks_cableTest (s : State) : (restartLinks s).cableTest = s.cableTest := rfl
@[simp] theorem restartLinks_sw (s : State) : (restartLinks s).sw = s.sw := rfl
@[simp] theorem restartLinks_timing (s : State) : (restartLinks s).timing = s.timing := rfl
@[simp] theorem restartLinks_alarms (s : State) : (restartLinks s).alarms = s.alarms := rfl
@[simp] theorem restartLinks_notices_threshold (s : State) : (restartLinks s).notices.threshold = s.notices.threshold := rfl
@[simp] theorem restartLinks_notices_groupEnable (s : State) :
    (restartLinks s).notices.groupEnable = s.notices.groupEnable := rfl
@[simp] theorem restartLinks_notices_timingEnable (s : State) :
    (restartLinks s).notices.timingEnable = s.notices.timingEnable := rfl
@[simp] theorem restartLinks_links_rate (s : State) : (restartLinks s).links.rate = s.links.rate := rfl
@[simp] theorem restartLinks_links_mode (s : State) : (restartLinks s).links.mode = s.links.mode := rfl
@[simp] theorem restartLinks_links_period (s : State) : (restartLinks s).links.period = s.links.period := rfl
@[simp] theorem restartLinks_links_lapseLimit (s : State) : (restartLinks s).links.lapseLimit = s.links.lapseLimit := rfl
@[simp] theorem restartLinks_links_earlyStart (s : State) : (restartLinks s).links.earlyStart = s.links.earlyStart := rfl
@[simp] theorem restartLinks_links_challenge (s : State) : (restartLinks s).links.challenge = s.links.challenge := rfl
@[simp] theorem restartLinks_links_draws (s : State) : (restartLinks s).links.draws = s.links.draws := rfl
@[simp] theorem restartLinks_links_lapses (s : State) : (restartLinks s).links.lapses = s.links.lapses := rfl
@[simp] theorem restartLinks_links_run (s : State) : (restartLinks s).links.run = s.links.run := rfl
@[simp] theorem restartLinks_links_everGranted (s : State) : (restartLinks s).links.everGranted = s.links.everGranted := rfl
@[simp] theorem restartLinks_links_shf (s : State) : (restartLinks s).links.shf = s.links.shf := rfl
@[simp] theorem restartLinks_raised (s : State) : (restartLinks s).raised = s.raised := rfl
@[simp] theorem restartLinks_orderDraws (s : State) : (restartLinks s).orderDraws = s.orderDraws := rfl

/-! `grant` -/

@[simp] theorem grant_now (l : LinkId) (s : State) : (grant l s).now = s.now := by cases l <;> rfl
@[simp] theorem grant_pending (l : LinkId) (s : State) : (grant l s).pending = s.pending := by cases l <;> rfl
@[simp] theorem grant_shelf (l : LinkId) (s : State) : (grant l s).shelf = s.shelf := by cases l <;> rfl
@[simp] theorem grant_slot (l : LinkId) (s : State) : (grant l s).slot = s.slot := by cases l <;> rfl
@[simp] theorem grant_ranges (l : LinkId) (s : State) : (grant l s).ranges = s.ranges := by cases l <;> rfl
@[simp] theorem grant_ports (l : LinkId) (s : State) : (grant l s).ports = s.ports := by cases l <;> rfl
@[simp] theorem grant_conversion (l : LinkId) (s : State) : (grant l s).conversion = s.conversion := by cases l <;> rfl
@[simp] theorem grant_cableTest (l : LinkId) (s : State) : (grant l s).cableTest = s.cableTest := by cases l <;> rfl
@[simp] theorem grant_sw (l : LinkId) (s : State) : (grant l s).sw = s.sw := by cases l <;> rfl
@[simp] theorem grant_timing (l : LinkId) (s : State) : (grant l s).timing = s.timing := by cases l <;> rfl
@[simp] theorem grant_alarms (l : LinkId) (s : State) : (grant l s).alarms = s.alarms := by cases l <;> rfl
@[simp] theorem grant_links_rate (l : LinkId) (s : State) : (grant l s).links.rate = s.links.rate := by cases l <;> rfl
@[simp] theorem grant_links_mode (l : LinkId) (s : State) : (grant l s).links.mode = s.links.mode := by cases l <;> rfl
@[simp] theorem grant_links_period (l : LinkId) (s : State) : (grant l s).links.period = s.links.period := by cases l <;> rfl
@[simp] theorem grant_links_lapseLimit (l : LinkId) (s : State) :
    (grant l s).links.lapseLimit = s.links.lapseLimit := by cases l <;> rfl
@[simp] theorem grant_links_lapses (l : LinkId) (s : State) : (grant l s).links.lapses = s.links.lapses := by cases l <;> rfl
@[simp] theorem grant_raised (l : LinkId) (s : State) : (grant l s).raised = s.raised := by cases l <;> rfl
@[simp] theorem grant_orderDraws (l : LinkId) (s : State) : (grant l s).orderDraws = s.orderDraws := by cases l <;> rfl

/-! `tickPorts` -/

@[simp] theorem tickPorts_now (s : State) : (tickPorts s).now = s.now := rfl
@[simp] theorem tickPorts_pending (s : State) : (tickPorts s).pending = s.pending := rfl
@[simp] theorem tickPorts_shelf (s : State) : (tickPorts s).shelf = s.shelf := rfl
@[simp] theorem tickPorts_slot (s : State) : (tickPorts s).slot = s.slot := rfl
@[simp] theorem tickPorts_ranges (s : State) : (tickPorts s).ranges = s.ranges := rfl
@[simp] theorem tickPorts_conversion (s : State) : (tickPorts s).conversion = s.conversion := rfl
@[simp] theorem tickPorts_cableTest (s : State) : (tickPorts s).cableTest = s.cableTest := rfl
@[simp] theorem tickPorts_sw (s : State) : (tickPorts s).sw = s.sw := rfl
@[simp] theorem tickPorts_timing (s : State) : (tickPorts s).timing = s.timing := rfl
@[simp] theorem tickPorts_alarms (s : State) : (tickPorts s).alarms = s.alarms := rfl
@[simp] theorem tickPorts_notices (s : State) : (tickPorts s).notices = s.notices := rfl
@[simp] theorem tickPorts_links (s : State) : (tickPorts s).links = s.links := rfl
@[simp] theorem tickPorts_raised (s : State) : (tickPorts s).raised = s.raised := rfl
@[simp] theorem tickPorts_orderDraws (s : State) : (tickPorts s).orderDraws = s.orderDraws := rfl

/-! `tickTiming` -/

@[simp] theorem tickTiming_now (s : State) : (tickTiming s).now = s.now := rfl
@[simp] theorem tickTiming_pending (s : State) : (tickTiming s).pending = s.pending := rfl
@[simp] theorem tickTiming_shelf (s : State) : (tickTiming s).shelf = s.shelf := rfl
@[simp] theorem tickTiming_slot (s : State) : (tickTiming s).slot = s.slot := rfl
@[simp] theorem tickTiming_ranges (s : State) : (tickTiming s).ranges = s.ranges := rfl
@[simp] theorem tickTiming_ports (s : State) : (tickTiming s).ports = s.ports := rfl
@[simp] theorem tickTiming_conversion (s : State) : (tickTiming s).conversion = s.conversion := rfl
@[simp] theorem tickTiming_cableTest (s : State) : (tickTiming s).cableTest = s.cableTest := rfl
@[simp] theorem tickTiming_sw (s : State) : (tickTiming s).sw = s.sw := rfl
@[simp] theorem tickTiming_alarms (s : State) : (tickTiming s).alarms = s.alarms := rfl
@[simp] theorem tickTiming_notices (s : State) : (tickTiming s).notices = s.notices := rfl
@[simp] theorem tickTiming_links (s : State) : (tickTiming s).links = s.links := rfl
@[simp] theorem tickTiming_raised (s : State) : (tickTiming s).raised = s.raised := rfl
@[simp] theorem tickTiming_orderDraws (s : State) : (tickTiming s).orderDraws = s.orderDraws := rfl

/-! `scanOn` -/

@[simp] theorem scanOn_now (p : PortId) (s : State) : (scanOn p s).now = s.now := rfl
@[simp] theorem scanOn_pending (p : PortId) (s : State) : (scanOn p s).pending = s.pending := rfl
@[simp] theorem scanOn_shelf (p : PortId) (s : State) : (scanOn p s).shelf = s.shelf := rfl
@[simp] theorem scanOn_slot (p : PortId) (s : State) : (scanOn p s).slot = s.slot := rfl
@[simp] theorem scanOn_ranges (p : PortId) (s : State) : (scanOn p s).ranges = s.ranges := rfl
@[simp] theorem scanOn_ports (p : PortId) (s : State) : (scanOn p s).ports = s.ports := rfl
@[simp] theorem scanOn_cableTest (p : PortId) (s : State) : (scanOn p s).cableTest = s.cableTest := rfl
@[simp] theorem scanOn_sw (p : PortId) (s : State) : (scanOn p s).sw = s.sw := rfl
@[simp] theorem scanOn_timing (p : PortId) (s : State) : (scanOn p s).timing = s.timing := rfl
@[simp] theorem scanOn_alarms (p : PortId) (s : State) : (scanOn p s).alarms = s.alarms := rfl
@[simp] theorem scanOn_notices (p : PortId) (s : State) : (scanOn p s).notices = s.notices := rfl
@[simp] theorem scanOn_links (p : PortId) (s : State) : (scanOn p s).links = s.links := rfl
@[simp] theorem scanOn_raised (p : PortId) (s : State) : (scanOn p s).raised = s.raised := rfl
@[simp] theorem scanOn_orderDraws (p : PortId) (s : State) : (scanOn p s).orderDraws = s.orderDraws := rfl

/-! `scanDisabled` -/

@[simp] theorem scanDisabled_now (p : PortId) (s : State) : (scanDisabled p s).now = s.now := rfl
@[simp] theorem scanDisabled_pending (p : PortId) (s : State) : (scanDisabled p s).pending = s.pending := rfl
@[simp] theorem scanDisabled_shelf (p : PortId) (s : State) : (scanDisabled p s).shelf = s.shelf := rfl
@[simp] theorem scanDisabled_slot (p : PortId) (s : State) : (scanDisabled p s).slot = s.slot := rfl
@[simp] theorem scanDisabled_ranges (p : PortId) (s : State) : (scanDisabled p s).ranges = s.ranges := rfl
@[simp] theorem scanDisabled_ports (p : PortId) (s : State) : (scanDisabled p s).ports = s.ports := rfl
@[simp] theorem scanDisabled_cableTest (p : PortId) (s : State) : (scanDisabled p s).cableTest = s.cableTest := rfl
@[simp] theorem scanDisabled_sw (p : PortId) (s : State) : (scanDisabled p s).sw = s.sw := rfl
@[simp] theorem scanDisabled_timing (p : PortId) (s : State) : (scanDisabled p s).timing = s.timing := rfl
@[simp] theorem scanDisabled_alarms (p : PortId) (s : State) : (scanDisabled p s).alarms = s.alarms := rfl
@[simp] theorem scanDisabled_notices (p : PortId) (s : State) : (scanDisabled p s).notices = s.notices := rfl
@[simp] theorem scanDisabled_links (p : PortId) (s : State) : (scanDisabled p s).links = s.links := rfl
@[simp] theorem scanDisabled_raised (p : PortId) (s : State) : (scanDisabled p s).raised = s.raised := rfl
@[simp] theorem scanDisabled_orderDraws (p : PortId) (s : State) : (scanDisabled p s).orderDraws = s.orderDraws := rfl

/-! `inTiming` -/

@[simp] theorem inTiming_now (f : TimingEnv → Timing → Timing) (s : State) : (inTiming f s).now = s.now := rfl
@[simp] theorem inTiming_pending (f : TimingEnv → Timing → Timing) (s : State) : (inTiming f s).pending = s.pending := rfl
@[simp] theorem inTiming_shelf (f : TimingEnv → Timing → Timing) (s : State) : (inTiming f s).shelf = s.shelf := rfl
@[simp] theorem inTiming_slot (f : TimingEnv → Timing → Timing) (s : State) : (inTiming f s).slot = s.slot := rfl
@[simp] theorem inTiming_ranges (f : TimingEnv → Timing → Timing) (s : State) : (inTiming f s).ranges = s.ranges := rfl
@[simp] theorem inTiming_ports (f : TimingEnv → Timing → Timing) (s : State) : (inTiming f s).ports = s.ports := rfl
@[simp] theorem inTiming_conversion (f : TimingEnv → Timing → Timing) (s : State) :
    (inTiming f s).conversion = s.conversion := rfl
@[simp] theorem inTiming_cableTest (f : TimingEnv → Timing → Timing) (s : State) : (inTiming f s).cableTest = s.cableTest := rfl
@[simp] theorem inTiming_sw (f : TimingEnv → Timing → Timing) (s : State) : (inTiming f s).sw = s.sw := rfl
@[simp] theorem inTiming_alarms (f : TimingEnv → Timing → Timing) (s : State) : (inTiming f s).alarms = s.alarms := rfl
@[simp] theorem inTiming_notices (f : TimingEnv → Timing → Timing) (s : State) : (inTiming f s).notices = s.notices := rfl
@[simp] theorem inTiming_links (f : TimingEnv → Timing → Timing) (s : State) : (inTiming f s).links = s.links := rfl
@[simp] theorem inTiming_raised (f : TimingEnv → Timing → Timing) (s : State) : (inTiming f s).raised = s.raised := rfl
@[simp] theorem inTiming_orderDraws (f : TimingEnv → Timing → Timing) (s : State) :
    (inTiming f s).orderDraws = s.orderDraws := rfl

/-! `inSwitch` -/

@[simp] theorem inSwitch_now (f : SwEnv → Switching → Switching) (s : State) : (inSwitch f s).now = s.now := rfl
@[simp] theorem inSwitch_pending (f : SwEnv → Switching → Switching) (s : State) : (inSwitch f s).pending = s.pending := rfl
@[simp] theorem inSwitch_shelf (f : SwEnv → Switching → Switching) (s : State) : (inSwitch f s).shelf = s.shelf := rfl
@[simp] theorem inSwitch_slot (f : SwEnv → Switching → Switching) (s : State) : (inSwitch f s).slot = s.slot := rfl
@[simp] theorem inSwitch_ranges (f : SwEnv → Switching → Switching) (s : State) : (inSwitch f s).ranges = s.ranges := rfl
@[simp] theorem inSwitch_ports (f : SwEnv → Switching → Switching) (s : State) : (inSwitch f s).ports = s.ports := rfl
@[simp] theorem inSwitch_conversion (f : SwEnv → Switching → Switching) (s : State) :
    (inSwitch f s).conversion = s.conversion := rfl
@[simp] theorem inSwitch_cableTest (f : SwEnv → Switching → Switching) (s : State) :
    (inSwitch f s).cableTest = s.cableTest := rfl
@[simp] theorem inSwitch_alarms (f : SwEnv → Switching → Switching) (s : State) : (inSwitch f s).alarms = s.alarms := rfl
@[simp] theorem inSwitch_notices (f : SwEnv → Switching → Switching) (s : State) : (inSwitch f s).notices = s.notices := rfl
@[simp] theorem inSwitch_links (f : SwEnv → Switching → Switching) (s : State) : (inSwitch f s).links = s.links := rfl
@[simp] theorem inSwitch_raised (f : SwEnv → Switching → Switching) (s : State) : (inSwitch f s).raised = s.raised := rfl
@[simp] theorem inSwitch_orderDraws (f : SwEnv → Switching → Switching) (s : State) :
    (inSwitch f s).orderDraws = s.orderDraws := rfl

/-! `startTest` -/

@[simp] theorem startTest_now (l : LinkId) (a : TestArgs) (s : State) : (startTest l a s).now = s.now := rfl
@[simp] theorem startTest_pending (l : LinkId) (a : TestArgs) (s : State) : (startTest l a s).pending = s.pending := rfl
@[simp] theorem startTest_shelf (l : LinkId) (a : TestArgs) (s : State) : (startTest l a s).shelf = s.shelf := rfl
@[simp] theorem startTest_slot (l : LinkId) (a : TestArgs) (s : State) : (startTest l a s).slot = s.slot := rfl
@[simp] theorem startTest_ranges (l : LinkId) (a : TestArgs) (s : State) : (startTest l a s).ranges = s.ranges := rfl
@[simp] theorem startTest_conversion (l : LinkId) (a : TestArgs) (s : State) :
    (startTest l a s).conversion = s.conversion := rfl
@[simp] theorem startTest_sw (l : LinkId) (a : TestArgs) (s : State) : (startTest l a s).sw = s.sw := rfl
@[simp] theorem startTest_timing (l : LinkId) (a : TestArgs) (s : State) : (startTest l a s).timing = s.timing := rfl
@[simp] theorem startTest_alarms (l : LinkId) (a : TestArgs) (s : State) : (startTest l a s).alarms = s.alarms := rfl
@[simp] theorem startTest_notices (l : LinkId) (a : TestArgs) (s : State) : (startTest l a s).notices = s.notices := rfl
@[simp] theorem startTest_links (l : LinkId) (a : TestArgs) (s : State) : (startTest l a s).links = s.links := rfl
@[simp] theorem startTest_raised (l : LinkId) (a : TestArgs) (s : State) : (startTest l a s).raised = s.raised := rfl
@[simp] theorem startTest_orderDraws (l : LinkId) (a : TestArgs) (s : State) :
    (startTest l a s).orderDraws = s.orderDraws := rfl

/-! ### Updates of its blocks -/

/-! `Link.frameTaken` -/

@[simp] theorem Link.frameTaken_outstanding (k : Link) : (k.frameTaken).outstanding = k.outstanding := rfl
@[simp] theorem Link.frameTaken_ready (k : Link) : (k.frameTaken).ready = k.ready := rfl
@[simp] theorem Link.frameTaken_sending (k : Link) : (k.frameTaken).sending = k.sending := rfl
@[simp] theorem Link.frameTaken_role (k : Link) : (k.frameTaken).role = k.role := rfl

/-! `Link.take` -/

@[simp] theorem Link.take_rx (tag kind : Byte) (k : Link) : (k.take tag kind).rx = k.rx := rfl
@[simp] theorem Link.take_ready (tag kind : Byte) (k : Link) : (k.take tag kind).ready = k.ready := rfl
@[simp] theorem Link.take_sending (tag kind : Byte) (k : Link) : (k.take tag kind).sending = k.sending := rfl
@[simp] theorem Link.take_role (tag kind : Byte) (k : Link) : (k.take tag kind).role = k.role := rfl

/-! `Link.repliedTo` -/

@[simp] theorem Link.repliedTo_sending (tag kind : Byte) (payload : List Byte) (k : Link) :
    (k.repliedTo tag kind payload).sending = k.sending := rfl
@[simp] theorem Link.repliedTo_role (tag kind : Byte) (payload : List Byte) (k : Link) :
    (k.repliedTo tag kind payload).role = k.role := rfl

/-! `Link.deferredTo` -/

@[simp] theorem Link.deferredTo_ready (tag kind : Byte) (k : Link) : (k.deferredTo tag kind).ready = k.ready := rfl
@[simp] theorem Link.deferredTo_sending (tag kind : Byte) (k : Link) : (k.deferredTo tag kind).sending = k.sending := rfl
@[simp] theorem Link.deferredTo_role (tag kind : Byte) (k : Link) : (k.deferredTo tag kind).role = k.role := rfl

/-! `Link.restart` -/

@[simp] theorem Link.restart_sending (k : Link) : (k.restart).sending = k.sending := rfl

/-! `Link.beginFrame` -/

@[simp] theorem Link.beginFrame_rx (f : Frame) (ends : Nat) (k : Link) : (k.beginFrame f ends).rx = k.rx := rfl
@[simp] theorem Link.beginFrame_outstanding (f : Frame) (ends : Nat) (k : Link) :
    (k.beginFrame f ends).outstanding = k.outstanding := rfl
@[simp] theorem Link.beginFrame_ready (f : Frame) (ends : Nat) (k : Link) : (k.beginFrame f ends).ready = k.ready := rfl
@[simp] theorem Link.beginFrame_role (f : Frame) (ends : Nat) (k : Link) : (k.beginFrame f ends).role = k.role := rfl

/-! `Link.popReply` -/

@[simp] theorem Link.popReply_rx (r : Reply) (rest : List Reply) (k : Link) : (k.popReply r rest).rx = k.rx := rfl
@[simp] theorem Link.popReply_sending (r : Reply) (rest : List Reply) (k : Link) :
    (k.popReply r rest).sending = k.sending := rfl
@[simp] theorem Link.popReply_role (r : Reply) (rest : List Reply) (k : Link) : (k.popReply r rest).role = k.role := rfl

/-! `LinkSupervisor.startPeriod` -/

@[simp] theorem LinkSupervisor.startPeriod_linkA (now : Nat) (x : LinkSupervisor) : (x.startPeriod now).linkA = x.linkA := rfl
@[simp] theorem LinkSupervisor.startPeriod_linkB (now : Nat) (x : LinkSupervisor) : (x.startPeriod now).linkB = x.linkB := rfl
@[simp] theorem LinkSupervisor.startPeriod_rate (now : Nat) (x : LinkSupervisor) : (x.startPeriod now).rate = x.rate := rfl
@[simp] theorem LinkSupervisor.startPeriod_mode (now : Nat) (x : LinkSupervisor) : (x.startPeriod now).mode = x.mode := rfl
@[simp] theorem LinkSupervisor.startPeriod_period (now : Nat) (x : LinkSupervisor) :
    (x.startPeriod now).period = x.period := rfl
@[simp] theorem LinkSupervisor.startPeriod_lapseLimit (now : Nat) (x : LinkSupervisor) :
    (x.startPeriod now).lapseLimit = x.lapseLimit := rfl
@[simp] theorem LinkSupervisor.startPeriod_challenge (now : Nat) (x : LinkSupervisor) :
    (x.startPeriod now).challenge = x.challenge := rfl
@[simp] theorem LinkSupervisor.startPeriod_draws (now : Nat) (x : LinkSupervisor) : (x.startPeriod now).draws = x.draws := rfl
@[simp] theorem LinkSupervisor.startPeriod_lapses (now : Nat) (x : LinkSupervisor) :
    (x.startPeriod now).lapses = x.lapses := rfl
@[simp] theorem LinkSupervisor.startPeriod_run (now : Nat) (x : LinkSupervisor) : (x.startPeriod now).run = x.run := rfl
@[simp] theorem LinkSupervisor.startPeriod_everGranted (now : Nat) (x : LinkSupervisor) :
    (x.startPeriod now).everGranted = x.everGranted := rfl
@[simp] theorem LinkSupervisor.startPeriod_shf (now : Nat) (x : LinkSupervisor) : (x.startPeriod now).shf = x.shf := rfl

/-! `LinkSupervisor.draw` -/

@[simp] theorem LinkSupervisor.draw_linkA (x : LinkSupervisor) : (x.draw).linkA = x.linkA := rfl
@[simp] theorem LinkSupervisor.draw_linkB (x : LinkSupervisor) : (x.draw).linkB = x.linkB := rfl
@[simp] theorem LinkSupervisor.draw_rate (x : LinkSupervisor) : (x.draw).rate = x.rate := rfl
@[simp] theorem LinkSupervisor.draw_mode (x : LinkSupervisor) : (x.draw).mode = x.mode := rfl
@[simp] theorem LinkSupervisor.draw_period (x : LinkSupervisor) : (x.draw).period = x.period := rfl
@[simp] theorem LinkSupervisor.draw_lapseLimit (x : LinkSupervisor) : (x.draw).lapseLimit = x.lapseLimit := rfl
@[simp] theorem LinkSupervisor.draw_periodTimer (x : LinkSupervisor) : (x.draw).periodTimer = x.periodTimer := rfl
@[simp] theorem LinkSupervisor.draw_earlyStart (x : LinkSupervisor) : (x.draw).earlyStart = x.earlyStart := rfl
@[simp] theorem LinkSupervisor.draw_lapses (x : LinkSupervisor) : (x.draw).lapses = x.lapses := rfl
@[simp] theorem LinkSupervisor.draw_run (x : LinkSupervisor) : (x.draw).run = x.run := rfl
@[simp] theorem LinkSupervisor.draw_everGranted (x : LinkSupervisor) : (x.draw).everGranted = x.everGranted := rfl
@[simp] theorem LinkSupervisor.draw_shf (x : LinkSupervisor) : (x.draw).shf = x.shf := rfl

/-! `LinkSupervisor.judgeShf` -/

@[simp] theorem LinkSupervisor.judgeShf_linkA (x : LinkSupervisor) : (x.judgeShf).linkA = x.linkA := rfl
@[simp] theorem LinkSupervisor.judgeShf_linkB (x : LinkSupervisor) : (x.judgeShf).linkB = x.linkB := rfl
@[simp] theorem LinkSupervisor.judgeShf_rate (x : LinkSupervisor) : (x.judgeShf).rate = x.rate := rfl
@[simp] theorem LinkSupervisor.judgeShf_mode (x : LinkSupervisor) : (x.judgeShf).mode = x.mode := rfl
@[simp] theorem LinkSupervisor.judgeShf_period (x : LinkSupervisor) : (x.judgeShf).period = x.period := rfl
@[simp] theorem LinkSupervisor.judgeShf_lapseLimit (x : LinkSupervisor) : (x.judgeShf).lapseLimit = x.lapseLimit := rfl
@[simp] theorem LinkSupervisor.judgeShf_periodTimer (x : LinkSupervisor) : (x.judgeShf).periodTimer = x.periodTimer := rfl
@[simp] theorem LinkSupervisor.judgeShf_earlyStart (x : LinkSupervisor) : (x.judgeShf).earlyStart = x.earlyStart := rfl
@[simp] theorem LinkSupervisor.judgeShf_challenge (x : LinkSupervisor) : (x.judgeShf).challenge = x.challenge := rfl
@[simp] theorem LinkSupervisor.judgeShf_draws (x : LinkSupervisor) : (x.judgeShf).draws = x.draws := rfl
@[simp] theorem LinkSupervisor.judgeShf_lapses (x : LinkSupervisor) : (x.judgeShf).lapses = x.lapses := rfl
@[simp] theorem LinkSupervisor.judgeShf_run (x : LinkSupervisor) : (x.judgeShf).run = x.run := rfl
@[simp] theorem LinkSupervisor.judgeShf_everGranted (x : LinkSupervisor) : (x.judgeShf).everGranted = x.everGranted := rfl

/-! `LinkSupervisor.lapse` -/

@[simp] theorem LinkSupervisor.lapse_linkA (x : LinkSupervisor) : (x.lapse).linkA = x.linkA := rfl
@[simp] theorem LinkSupervisor.lapse_linkB (x : LinkSupervisor) : (x.lapse).linkB = x.linkB := rfl
@[simp] theorem LinkSupervisor.lapse_rate (x : LinkSupervisor) : (x.lapse).rate = x.rate := rfl
@[simp] theorem LinkSupervisor.lapse_mode (x : LinkSupervisor) : (x.lapse).mode = x.mode := rfl
@[simp] theorem LinkSupervisor.lapse_period (x : LinkSupervisor) : (x.lapse).period = x.period := rfl
@[simp] theorem LinkSupervisor.lapse_lapseLimit (x : LinkSupervisor) : (x.lapse).lapseLimit = x.lapseLimit := rfl
@[simp] theorem LinkSupervisor.lapse_periodTimer (x : LinkSupervisor) : (x.lapse).periodTimer = x.periodTimer := rfl
@[simp] theorem LinkSupervisor.lapse_earlyStart (x : LinkSupervisor) : (x.lapse).earlyStart = x.earlyStart := rfl
@[simp] theorem LinkSupervisor.lapse_challenge (x : LinkSupervisor) : (x.lapse).challenge = x.challenge := rfl
@[simp] theorem LinkSupervisor.lapse_draws (x : LinkSupervisor) : (x.lapse).draws = x.draws := rfl
@[simp] theorem LinkSupervisor.lapse_everGranted (x : LinkSupervisor) : (x.lapse).everGranted = x.everGranted := rfl

/-! `LinkSupervisor.keep` -/

@[simp] theorem LinkSupervisor.keep_linkA (now : Nat) (x : LinkSupervisor) : (x.keep now).linkA = x.linkA := rfl
@[simp] theorem LinkSupervisor.keep_linkB (now : Nat) (x : LinkSupervisor) : (x.keep now).linkB = x.linkB := rfl
@[simp] theorem LinkSupervisor.keep_rate (now : Nat) (x : LinkSupervisor) : (x.keep now).rate = x.rate := rfl
@[simp] theorem LinkSupervisor.keep_mode (now : Nat) (x : LinkSupervisor) : (x.keep now).mode = x.mode := rfl
@[simp] theorem LinkSupervisor.keep_period (now : Nat) (x : LinkSupervisor) : (x.keep now).period = x.period := rfl
@[simp] theorem LinkSupervisor.keep_lapseLimit (now : Nat) (x : LinkSupervisor) : (x.keep now).lapseLimit = x.lapseLimit := rfl
@[simp] theorem LinkSupervisor.keep_everGranted (now : Nat) (x : LinkSupervisor) :
    (x.keep now).everGranted = x.everGranted := rfl

/-! `Switching.setGroup` -/

@[simp] theorem Switching.setGroup_elements (g : GroupId) (grp : Group) (w : Switching) :
    (w.setGroup g grp).elements = w.elements := rfl
@[simp] theorem Switching.setGroup_queue (g : GroupId) (grp : Group) (w : Switching) : (w.setGroup g grp).queue = w.queue := rfl
@[simp] theorem Switching.setGroup_bus (g : GroupId) (grp : Group) (w : Switching) : (w.setGroup g grp).bus = w.bus := rfl
@[simp] theorem Switching.setGroup_busFreeAt (g : GroupId) (grp : Group) (w : Switching) :
    (w.setGroup g grp).busFreeAt = w.busFreeAt := rfl
@[simp] theorem Switching.setGroup_chosen (g : GroupId) (grp : Group) (w : Switching) :
    (w.setGroup g grp).chosen = w.chosen := rfl
@[simp] theorem Switching.setGroup_busDefect (g : GroupId) (grp : Group) (w : Switching) :
    (w.setGroup g grp).busDefect = w.busDefect := rfl
@[simp] theorem Switching.setGroup_settleFail (g : GroupId) (grp : Group) (w : Switching) :
    (w.setGroup g grp).settleFail = w.settleFail := rfl
@[simp] theorem Switching.setGroup_raised (g : GroupId) (grp : Group) (w : Switching) :
    (w.setGroup g grp).raised = w.raised := rfl

/-! `Switching.modGroup` -/

@[simp] theorem Switching.modGroup_elements (g : GroupId) (f : Group → Group) (w : Switching) :
    (w.modGroup g f).elements = w.elements := rfl
@[simp] theorem Switching.modGroup_queue (g : GroupId) (f : Group → Group) (w : Switching) :
    (w.modGroup g f).queue = w.queue := rfl
@[simp] theorem Switching.modGroup_bus (g : GroupId) (f : Group → Group) (w : Switching) : (w.modGroup g f).bus = w.bus := rfl
@[simp] theorem Switching.modGroup_busFreeAt (g : GroupId) (f : Group → Group) (w : Switching) :
    (w.modGroup g f).busFreeAt = w.busFreeAt := rfl
@[simp] theorem Switching.modGroup_chosen (g : GroupId) (f : Group → Group) (w : Switching) :
    (w.modGroup g f).chosen = w.chosen := rfl
@[simp] theorem Switching.modGroup_busDefect (g : GroupId) (f : Group → Group) (w : Switching) :
    (w.modGroup g f).busDefect = w.busDefect := rfl
@[simp] theorem Switching.modGroup_settleFail (g : GroupId) (f : Group → Group) (w : Switching) :
    (w.modGroup g f).settleFail = w.settleFail := rfl
@[simp] theorem Switching.modGroup_raised (g : GroupId) (f : Group → Group) (w : Switching) :
    (w.modGroup g f).raised = w.raised := rfl

/-! `Switching.modElement` -/

@[simp] theorem Switching.modElement_groups (a : Nat) (f : Element → Element) (w : Switching) :
    (w.modElement a f).groups = w.groups := rfl
@[simp] theorem Switching.modElement_queue (a : Nat) (f : Element → Element) (w : Switching) :
    (w.modElement a f).queue = w.queue := rfl
@[simp] theorem Switching.modElement_bus (a : Nat) (f : Element → Element) (w : Switching) :
    (w.modElement a f).bus = w.bus := rfl
@[simp] theorem Switching.modElement_busFreeAt (a : Nat) (f : Element → Element) (w : Switching) :
    (w.modElement a f).busFreeAt = w.busFreeAt := rfl
@[simp] theorem Switching.modElement_chosen (a : Nat) (f : Element → Element) (w : Switching) :
    (w.modElement a f).chosen = w.chosen := rfl
@[simp] theorem Switching.modElement_busDefect (a : Nat) (f : Element → Element) (w : Switching) :
    (w.modElement a f).busDefect = w.busDefect := rfl
@[simp] theorem Switching.modElement_settleFail (a : Nat) (f : Element → Element) (w : Switching) :
    (w.modElement a f).settleFail = w.settleFail := rfl
@[simp] theorem Switching.modElement_raised (a : Nat) (f : Element → Element) (w : Switching) :
    (w.modElement a f).raised = w.raised := rfl

/-! `Switching.modOp` -/

@[simp] theorem Switching.modOp_groups (g : GroupId) (f : Op → Op) (w : Switching) : (w.modOp g f).groups = w.groups := rfl
@[simp] theorem Switching.modOp_elements (g : GroupId) (f : Op → Op) (w : Switching) :
    (w.modOp g f).elements = w.elements := rfl
@[simp] theorem Switching.modOp_bus (g : GroupId) (f : Op → Op) (w : Switching) : (w.modOp g f).bus = w.bus := rfl
@[simp] theorem Switching.modOp_busFreeAt (g : GroupId) (f : Op → Op) (w : Switching) :
    (w.modOp g f).busFreeAt = w.busFreeAt := rfl
@[simp] theorem Switching.modOp_chosen (g : GroupId) (f : Op → Op) (w : Switching) :
    (w.modOp g f).chosen = w.chosen := rfl
@[simp] theorem Switching.modOp_busDefect (g : GroupId) (f : Op → Op) (w : Switching) :
    (w.modOp g f).busDefect = w.busDefect := rfl
@[simp] theorem Switching.modOp_settleFail (g : GroupId) (f : Op → Op) (w : Switching) :
    (w.modOp g f).settleFail = w.settleFail := rfl
@[simp] theorem Switching.modOp_raised (g : GroupId) (f : Op → Op) (w : Switching) : (w.modOp g f).raised = w.raised := rfl

/-! `Switching.keepOps` -/

@[simp] theorem Switching.keepOps_groups (p : Op → Bool) (w : Switching) : (w.keepOps p).groups = w.groups := rfl
@[simp] theorem Switching.keepOps_elements (p : Op → Bool) (w : Switching) : (w.keepOps p).elements = w.elements := rfl
@[simp] theorem Switching.keepOps_bus (p : Op → Bool) (w : Switching) : (w.keepOps p).bus = w.bus := rfl
@[simp] theorem Switching.keepOps_busFreeAt (p : Op → Bool) (w : Switching) : (w.keepOps p).busFreeAt = w.busFreeAt := rfl
@[simp] theorem Switching.keepOps_busDefect (p : Op → Bool) (w : Switching) : (w.keepOps p).busDefect = w.busDefect := rfl
@[simp] theorem Switching.keepOps_settleFail (p : Op → Bool) (w : Switching) : (w.keepOps p).settleFail = w.settleFail := rfl
@[simp] theorem Switching.keepOps_raised (p : Op → Bool) (w : Switching) : (w.keepOps p).raised = w.raised := rfl
@[simp] theorem Switching.keepOps_queue (p : Op → Bool) (w : Switching) : (w.keepOps p).queue = w.queue.filter p := rfl

/-! `Switching.dropOp` -/

@[simp] theorem Switching.dropOp_groups (g : GroupId) (w : Switching) : (w.dropOp g).groups = w.groups := rfl
@[simp] theorem Switching.dropOp_elements (g : GroupId) (w : Switching) : (w.dropOp g).elements = w.elements := rfl
@[simp] theorem Switching.dropOp_bus (g : GroupId) (w : Switching) : (w.dropOp g).bus = w.bus := rfl
@[simp] theorem Switching.dropOp_busFreeAt (g : GroupId) (w : Switching) : (w.dropOp g).busFreeAt = w.busFreeAt := rfl
@[simp] theorem Switching.dropOp_busDefect (g : GroupId) (w : Switching) : (w.dropOp g).busDefect = w.busDefect := rfl
@[simp] theorem Switching.dropOp_settleFail (g : GroupId) (w : Switching) : (w.dropOp g).settleFail = w.settleFail := rfl
@[simp] theorem Switching.dropOp_raised (g : GroupId) (w : Switching) : (w.dropOp g).raised = w.raised := rfl

/-! `Switching.place` -/

@[simp] theorem Switching.place_groups (op : Op) (w : Switching) : (w.place op).groups = w.groups := rfl
@[simp] theorem Switching.place_elements (op : Op) (w : Switching) : (w.place op).elements = w.elements := rfl
@[simp] theorem Switching.place_bus (op : Op) (w : Switching) : (w.place op).bus = w.bus := rfl
@[simp] theorem Switching.place_busFreeAt (op : Op) (w : Switching) : (w.place op).busFreeAt = w.busFreeAt := rfl
@[simp] theorem Switching.place_chosen (op : Op) (w : Switching) : (w.place op).chosen = w.chosen := rfl
@[simp] theorem Switching.place_busDefect (op : Op) (w : Switching) : (w.place op).busDefect = w.busDefect := rfl
@[simp] theorem Switching.place_settleFail (op : Op) (w : Switching) : (w.place op).settleFail = w.settleFail := rfl
@[simp] theorem Switching.place_raised (op : Op) (w : Switching) : (w.place op).raised = w.raised := rfl

/-! `Switching.close` -/

@[simp] theorem Switching.close_groups (now : Nat) (ok : Bool) (w : Switching) : (w.close now ok).groups = w.groups := rfl
@[simp] theorem Switching.close_elements (now : Nat) (ok : Bool) (w : Switching) : (w.close now ok).elements = w.elements := rfl
@[simp] theorem Switching.close_chosen (now : Nat) (ok : Bool) (w : Switching) : (w.close now ok).chosen = w.chosen := rfl
@[simp] theorem Switching.close_queue (now : Nat) (ok : Bool) (w : Switching) : (w.close now ok).queue = w.queue := rfl
@[simp] theorem Switching.close_settleFail (now : Nat) (ok : Bool) (w : Switching) :
    (w.close now ok).settleFail = w.settleFail := rfl
@[simp] theorem Switching.close_raised (now : Nat) (ok : Bool) (w : Switching) : (w.close now ok).raised = w.raised := rfl

/-! `Switching.rests` -/

@[simp] theorem Switching.rests_groups (a : Nat) (w : Switching) : (w.rests a).groups = w.groups := rfl
@[simp] theorem Switching.rests_queue (a : Nat) (w : Switching) : (w.rests a).queue = w.queue := rfl
@[simp] theorem Switching.rests_bus (a : Nat) (w : Switching) : (w.rests a).bus = w.bus := rfl
@[simp] theorem Switching.rests_busFreeAt (a : Nat) (w : Switching) : (w.rests a).busFreeAt = w.busFreeAt := rfl
@[simp] theorem Switching.rests_chosen (a : Nat) (w : Switching) : (w.rests a).chosen = w.chosen := rfl
@[simp] theorem Switching.rests_busDefect (a : Nat) (w : Switching) : (w.rests a).busDefect = w.busDefect := rfl
@[simp] theorem Switching.rests_settleFail (a : Nat) (w : Switching) : (w.rests a).settleFail = w.settleFail := rfl
@[simp] theorem Switching.rests_raised (a : Nat) (w : Switching) : (w.rests a).raised = w.raised := rfl

/-! `Switching.moves` -/

@[simp] theorem Switching.moves_groups (now a : Nat) (w : Switching) : (w.moves now a).groups = w.groups := rfl
@[simp] theorem Switching.moves_queue (now a : Nat) (w : Switching) : (w.moves now a).queue = w.queue := rfl
@[simp] theorem Switching.moves_bus (now a : Nat) (w : Switching) : (w.moves now a).bus = w.bus := rfl
@[simp] theorem Switching.moves_busFreeAt (now a : Nat) (w : Switching) : (w.moves now a).busFreeAt = w.busFreeAt := rfl
@[simp] theorem Switching.moves_chosen (now a : Nat) (w : Switching) : (w.moves now a).chosen = w.chosen := rfl
@[simp] theorem Switching.moves_busDefect (now a : Nat) (w : Switching) : (w.moves now a).busDefect = w.busDefect := rfl
@[simp] theorem Switching.moves_settleFail (now a : Nat) (w : Switching) : (w.moves now a).settleFail = w.settleFail := rfl
@[simp] theorem Switching.moves_raised (now a : Nat) (w : Switching) : (w.moves now a).raised = w.raised := rfl

/-! `Switching.withdraw` -/

@[simp] theorem Switching.withdraw_groups (g : GroupId) (w : Switching) : (w.withdraw g).groups = w.groups := rfl
@[simp] theorem Switching.withdraw_elements (g : GroupId) (w : Switching) : (w.withdraw g).elements = w.elements := rfl
@[simp] theorem Switching.withdraw_bus (g : GroupId) (w : Switching) : (w.withdraw g).bus = w.bus := rfl
@[simp] theorem Switching.withdraw_busFreeAt (g : GroupId) (w : Switching) : (w.withdraw g).busFreeAt = w.busFreeAt := rfl
@[simp] theorem Switching.withdraw_busDefect (g : GroupId) (w : Switching) : (w.withdraw g).busDefect = w.busDefect := rfl
@[simp] theorem Switching.withdraw_settleFail (g : GroupId) (w : Switching) : (w.withdraw g).settleFail = w.settleFail := rfl
@[simp] theorem Switching.withdraw_raised (g : GroupId) (w : Switching) : (w.withdraw g).raised = w.raised := rfl

/-! `Switching.onPollDue` -/

@[simp] theorem Switching.onPollDue_groups (a : Nat) (w : Switching) : (w.onPollDue a).groups = w.groups := rfl
@[simp] theorem Switching.onPollDue_queue (a : Nat) (w : Switching) : (w.onPollDue a).queue = w.queue := rfl
@[simp] theorem Switching.onPollDue_bus (a : Nat) (w : Switching) : (w.onPollDue a).bus = w.bus := rfl
@[simp] theorem Switching.onPollDue_busFreeAt (a : Nat) (w : Switching) : (w.onPollDue a).busFreeAt = w.busFreeAt := rfl
@[simp] theorem Switching.onPollDue_chosen (a : Nat) (w : Switching) : (w.onPollDue a).chosen = w.chosen := rfl
@[simp] theorem Switching.onPollDue_busDefect (a : Nat) (w : Switching) : (w.onPollDue a).busDefect = w.busDefect := rfl
@[simp] theorem Switching.onPollDue_settleFail (a : Nat) (w : Switching) : (w.onPollDue a).settleFail = w.settleFail := rfl
@[simp] theorem Switching.onPollDue_raised (a : Nat) (w : Switching) : (w.onPollDue a).raised = w.raised := rfl

/-! `Switching.delete` -/

@[simp] theorem Switching.delete_queue (env : SwEnv) (g : GroupId) (w : Switching) : (w.delete env g).queue = w.queue := rfl
@[simp] theorem Switching.delete_bus (env : SwEnv) (g : GroupId) (w : Switching) : (w.delete env g).bus = w.bus := rfl
@[simp] theorem Switching.delete_busFreeAt (env : SwEnv) (g : GroupId) (w : Switching) :
    (w.delete env g).busFreeAt = w.busFreeAt := rfl
@[simp] theorem Switching.delete_chosen (env : SwEnv) (g : GroupId) (w : Switching) :
    (w.delete env g).chosen = w.chosen := rfl
@[simp] theorem Switching.delete_busDefect (env : SwEnv) (g : GroupId) (w : Switching) :
    (w.delete env g).busDefect = w.busDefect := rfl
@[simp] theorem Switching.delete_settleFail (env : SwEnv) (g : GroupId) (w : Switching) :
    (w.delete env g).settleFail = w.settleFail := rfl

/-! `Timing.giveOut` -/

@[simp] theorem Timing.giveOut_refs (t : Timing) : (t.giveOut).refs = t.refs := rfl
@[simp] theorem Timing.giveOut_settings (t : Timing) : (t.giveOut).settings = t.settings := rfl
@[simp] theorem Timing.giveOut_selected (t : Timing) : (t.giveOut).selected = t.selected := rfl
@[simp] theorem Timing.giveOut_forced (t : Timing) : (t.giveOut).forced = t.forced := rfl
@[simp] theorem Timing.giveOut_state (t : Timing) : (t.giveOut).state = t.state := rfl
@[simp] theorem Timing.giveOut_acquireTimer (t : Timing) : (t.giveOut).acquireTimer = t.acquireTimer := rfl
@[simp] theorem Timing.giveOut_holdoverTimer (t : Timing) : (t.giveOut).holdoverTimer = t.holdoverTimer := rfl
@[simp] theorem Timing.giveOut_holdoverValue (t : Timing) : (t.giveOut).holdoverValue = t.holdoverValue := rfl
@[simp] theorem Timing.giveOut_history (t : Timing) : (t.giveOut).history = t.history := rfl
@[simp] theorem Timing.giveOut_lockedUpdates (t : Timing) : (t.giveOut).lockedUpdates = t.lockedUpdates := rfl
@[simp] theorem Timing.giveOut_ready (t : Timing) : (t.giveOut).ready = t.ready := rfl
@[simp] theorem Timing.giveOut_word (t : Timing) : (t.giveOut).word = t.word := rfl
@[simp] theorem Timing.giveOut_steering (t : Timing) : (t.giveOut).steering = t.steering := rfl
@[simp] theorem Timing.giveOut_steerWaiting (t : Timing) : (t.giveOut).steerWaiting = t.steerWaiting := rfl
@[simp] theorem Timing.giveOut_nextTick (t : Timing) : (t.giveOut).nextTick = t.nextTick := rfl
@[simp] theorem Timing.giveOut_raised (t : Timing) : (t.giveOut).raised = t.raised := rfl

/-! `Port.retrace` -/

@[simp] theorem Port.retrace_cfg (p : Port) : (p.retrace).cfg = p.cfg := rfl
@[simp] theorem Port.retrace_rx (p : Port) : (p.retrace).rx = p.rx := rfl
@[simp] theorem Port.retrace_asm (p : Port) : (p.retrace).asm = p.asm := rfl
@[simp] theorem Port.retrace_traceCand (p : Port) : (p.retrace).traceCand = p.traceCand := rfl
@[simp] theorem Port.retrace_accTrace (p : Port) : (p.retrace).accTrace = p.accTrace := rfl
@[simp] theorem Port.retrace_flagsCand (p : Port) : (p.retrace).flagsCand = p.flagsCand := rfl
@[simp] theorem Port.retrace_accFlags (p : Port) : (p.retrace).accFlags = p.accFlags := rfl
@[simp] theorem Port.retrace_qualityCand (p : Port) : (p.retrace).qualityCand = p.qualityCand := rfl
@[simp] theorem Port.retrace_accQuality (p : Port) : (p.retrace).accQuality = p.accQuality := rfl
@[simp] theorem Port.retrace_protCand (p : Port) : (p.retrace).protCand = p.protCand := rfl
@[simp] theorem Port.retrace_accProt (p : Port) : (p.retrace).accProt = p.accProt := rfl
@[simp] theorem Port.retrace_pilotLoss (p : Port) : (p.retrace).pilotLoss = p.pilotLoss := rfl
@[simp] theorem Port.retrace_pilotErrors (p : Port) : (p.retrace).pilotErrors = p.pilotErrors := rfl
@[simp] theorem Port.retrace_lossTimer (p : Port) : (p.retrace).lossTimer = p.lossTimer := rfl
@[simp] theorem Port.retrace_validCount (p : Port) : (p.retrace).validCount = p.validCount := rfl
@[simp] theorem Port.retrace_buckets (p : Port) : (p.retrace).buckets = p.buckets := rfl
@[simp] theorem Port.retrace_lastValid (p : Port) : (p.retrace).lastValid = p.lastValid := rfl
@[simp] theorem Port.retrace_lastBad (p : Port) : (p.retrace).lastBad = p.lastBad := rfl
@[simp] theorem Port.retrace_power (p : Port) : (p.retrace).power = p.power := rfl
@[simp] theorem Port.retrace_satLow (p : Port) : (p.retrace).satLow = p.satLow := rfl
@[simp] theorem Port.retrace_satHigh (p : Port) : (p.retrace).satHigh = p.satHigh := rfl
@[simp] theorem Port.retrace_ps (p : Port) : (p.retrace).ps = p.ps := rfl
@[simp] theorem Port.retrace_lostLatch (p : Port) : (p.retrace).lostLatch = p.lostLatch := rfl
@[simp] theorem Port.retrace_overLatch (p : Port) : (p.retrace).overLatch = p.overLatch := rfl
@[simp] theorem Port.retrace_lowLatch (p : Port) : (p.retrace).lowLatch = p.lowLatch := rfl
@[simp] theorem Port.retrace_raw (p : Port) : (p.retrace).raw = p.raw := rfl
@[simp] theorem Port.retrace_reported (p : Port) : (p.retrace).reported = p.reported := rfl
@[simp] theorem Port.retrace_holdTimer (p : Port) : (p.retrace).holdTimer = p.holdTimer := rfl
@[simp] theorem Port.retrace_tx (p : Port) : (p.retrace).tx = p.tx := rfl

/-! `Port.judgeErrors` -/

@[simp] theorem Port.judgeErrors_cfg (p : Port) : (p.judgeErrors).cfg = p.cfg := rfl
@[simp] theorem Port.judgeErrors_rx (p : Port) : (p.judgeErrors).rx = p.rx := rfl
@[simp] theorem Port.judgeErrors_asm (p : Port) : (p.judgeErrors).asm = p.asm := rfl
@[simp] theorem Port.judgeErrors_traceCand (p : Port) : (p.judgeErrors).traceCand = p.traceCand := rfl
@[simp] theorem Port.judgeErrors_accTrace (p : Port) : (p.judgeErrors).accTrace = p.accTrace := rfl
@[simp] theorem Port.judgeErrors_flagsCand (p : Port) : (p.judgeErrors).flagsCand = p.flagsCand := rfl
@[simp] theorem Port.judgeErrors_accFlags (p : Port) : (p.judgeErrors).accFlags = p.accFlags := rfl
@[simp] theorem Port.judgeErrors_qualityCand (p : Port) : (p.judgeErrors).qualityCand = p.qualityCand := rfl
@[simp] theorem Port.judgeErrors_accQuality (p : Port) : (p.judgeErrors).accQuality = p.accQuality := rfl
@[simp] theorem Port.judgeErrors_protCand (p : Port) : (p.judgeErrors).protCand = p.protCand := rfl
@[simp] theorem Port.judgeErrors_accProt (p : Port) : (p.judgeErrors).accProt = p.accProt := rfl
@[simp] theorem Port.judgeErrors_pilotLoss (p : Port) : (p.judgeErrors).pilotLoss = p.pilotLoss := rfl
@[simp] theorem Port.judgeErrors_traceMismatch (p : Port) : (p.judgeErrors).traceMismatch = p.traceMismatch := rfl
@[simp] theorem Port.judgeErrors_lossTimer (p : Port) : (p.judgeErrors).lossTimer = p.lossTimer := rfl
@[simp] theorem Port.judgeErrors_validCount (p : Port) : (p.judgeErrors).validCount = p.validCount := rfl
@[simp] theorem Port.judgeErrors_buckets (p : Port) : (p.judgeErrors).buckets = p.buckets := rfl
@[simp] theorem Port.judgeErrors_lastValid (p : Port) : (p.judgeErrors).lastValid = p.lastValid := rfl
@[simp] theorem Port.judgeErrors_lastBad (p : Port) : (p.judgeErrors).lastBad = p.lastBad := rfl
@[simp] theorem Port.judgeErrors_power (p : Port) : (p.judgeErrors).power = p.power := rfl
@[simp] theorem Port.judgeErrors_satLow (p : Port) : (p.judgeErrors).satLow = p.satLow := rfl
@[simp] theorem Port.judgeErrors_satHigh (p : Port) : (p.judgeErrors).satHigh = p.satHigh := rfl
@[simp] theorem Port.judgeErrors_ps (p : Port) : (p.judgeErrors).ps = p.ps := rfl
@[simp] theorem Port.judgeErrors_lostLatch (p : Port) : (p.judgeErrors).lostLatch = p.lostLatch := rfl
@[simp] theorem Port.judgeErrors_overLatch (p : Port) : (p.judgeErrors).overLatch = p.overLatch := rfl
@[simp] theorem Port.judgeErrors_lowLatch (p : Port) : (p.judgeErrors).lowLatch = p.lowLatch := rfl
@[simp] theorem Port.judgeErrors_raw (p : Port) : (p.judgeErrors).raw = p.raw := rfl
@[simp] theorem Port.judgeErrors_reported (p : Port) : (p.judgeErrors).reported = p.reported := rfl
@[simp] theorem Port.judgeErrors_holdTimer (p : Port) : (p.judgeErrors).holdTimer = p.holdTimer := rfl
@[simp] theorem Port.judgeErrors_tx (p : Port) : (p.judgeErrors).tx = p.tx := rfl

/-! `Port.countBad` -/

@[simp] theorem Port.countBad_cfg (p : Port) : (p.countBad).cfg = p.cfg := rfl
@[simp] theorem Port.countBad_rx (p : Port) : (p.countBad).rx = p.rx := rfl
@[simp] theorem Port.countBad_asm (p : Port) : (p.countBad).asm = p.asm := rfl
@[simp] theorem Port.countBad_traceCand (p : Port) : (p.countBad).traceCand = p.traceCand := rfl
@[simp] theorem Port.countBad_accTrace (p : Port) : (p.countBad).accTrace = p.accTrace := rfl
@[simp] theorem Port.countBad_flagsCand (p : Port) : (p.countBad).flagsCand = p.flagsCand := rfl
@[simp] theorem Port.countBad_accFlags (p : Port) : (p.countBad).accFlags = p.accFlags := rfl
@[simp] theorem Port.countBad_qualityCand (p : Port) : (p.countBad).qualityCand = p.qualityCand := rfl
@[simp] theorem Port.countBad_accQuality (p : Port) : (p.countBad).accQuality = p.accQuality := rfl
@[simp] theorem Port.countBad_protCand (p : Port) : (p.countBad).protCand = p.protCand := rfl
@[simp] theorem Port.countBad_accProt (p : Port) : (p.countBad).accProt = p.accProt := rfl
@[simp] theorem Port.countBad_pilotLoss (p : Port) : (p.countBad).pilotLoss = p.pilotLoss := rfl
@[simp] theorem Port.countBad_traceMismatch (p : Port) : (p.countBad).traceMismatch = p.traceMismatch := rfl
@[simp] theorem Port.countBad_lossTimer (p : Port) : (p.countBad).lossTimer = p.lossTimer := rfl
@[simp] theorem Port.countBad_validCount (p : Port) : (p.countBad).validCount = p.validCount := rfl
@[simp] theorem Port.countBad_lastValid (p : Port) : (p.countBad).lastValid = p.lastValid := rfl
@[simp] theorem Port.countBad_lastBad (p : Port) : (p.countBad).lastBad = p.lastBad := rfl
@[simp] theorem Port.countBad_power (p : Port) : (p.countBad).power = p.power := rfl
@[simp] theorem Port.countBad_satLow (p : Port) : (p.countBad).satLow = p.satLow := rfl
@[simp] theorem Port.countBad_satHigh (p : Port) : (p.countBad).satHigh = p.satHigh := rfl
@[simp] theorem Port.countBad_ps (p : Port) : (p.countBad).ps = p.ps := rfl
@[simp] theorem Port.countBad_lostLatch (p : Port) : (p.countBad).lostLatch = p.lostLatch := rfl
@[simp] theorem Port.countBad_overLatch (p : Port) : (p.countBad).overLatch = p.overLatch := rfl
@[simp] theorem Port.countBad_lowLatch (p : Port) : (p.countBad).lowLatch = p.lowLatch := rfl
@[simp] theorem Port.countBad_raw (p : Port) : (p.countBad).raw = p.raw := rfl
@[simp] theorem Port.countBad_reported (p : Port) : (p.countBad).reported = p.reported := rfl
@[simp] theorem Port.countBad_holdTimer (p : Port) : (p.countBad).holdTimer = p.holdTimer := rfl
@[simp] theorem Port.countBad_tx (p : Port) : (p.countBad).tx = p.tx := rfl

/-! `Port.tick` -/

@[simp] theorem Port.tick_cfg (p : Port) : (p.tick).cfg = p.cfg := rfl
@[simp] theorem Port.tick_rx (p : Port) : (p.tick).rx = p.rx := rfl
@[simp] theorem Port.tick_asm (p : Port) : (p.tick).asm = p.asm := rfl
@[simp] theorem Port.tick_traceCand (p : Port) : (p.tick).traceCand = p.traceCand := rfl
@[simp] theorem Port.tick_accTrace (p : Port) : (p.tick).accTrace = p.accTrace := rfl
@[simp] theorem Port.tick_flagsCand (p : Port) : (p.tick).flagsCand = p.flagsCand := rfl
@[simp] theorem Port.tick_accFlags (p : Port) : (p.tick).accFlags = p.accFlags := rfl
@[simp] theorem Port.tick_qualityCand (p : Port) : (p.tick).qualityCand = p.qualityCand := rfl
@[simp] theorem Port.tick_accQuality (p : Port) : (p.tick).accQuality = p.accQuality := rfl
@[simp] theorem Port.tick_protCand (p : Port) : (p.tick).protCand = p.protCand := rfl
@[simp] theorem Port.tick_accProt (p : Port) : (p.tick).accProt = p.accProt := rfl
@[simp] theorem Port.tick_pilotLoss (p : Port) : (p.tick).pilotLoss = p.pilotLoss := rfl
@[simp] theorem Port.tick_traceMismatch (p : Port) : (p.tick).traceMismatch = p.traceMismatch := rfl
@[simp] theorem Port.tick_lossTimer (p : Port) : (p.tick).lossTimer = p.lossTimer := rfl
@[simp] theorem Port.tick_power (p : Port) : (p.tick).power = p.power := rfl
@[simp] theorem Port.tick_satLow (p : Port) : (p.tick).satLow = p.satLow := rfl
@[simp] theorem Port.tick_satHigh (p : Port) : (p.tick).satHigh = p.satHigh := rfl
@[simp] theorem Port.tick_ps (p : Port) : (p.tick).ps = p.ps := rfl
@[simp] theorem Port.tick_lostLatch (p : Port) : (p.tick).lostLatch = p.lostLatch := rfl
@[simp] theorem Port.tick_overLatch (p : Port) : (p.tick).overLatch = p.overLatch := rfl
@[simp] theorem Port.tick_lowLatch (p : Port) : (p.tick).lowLatch = p.lowLatch := rfl
@[simp] theorem Port.tick_raw (p : Port) : (p.tick).raw = p.raw := rfl
@[simp] theorem Port.tick_reported (p : Port) : (p.tick).reported = p.reported := rfl
@[simp] theorem Port.tick_holdTimer (p : Port) : (p.tick).holdTimer = p.holdTimer := rfl
@[simp] theorem Port.tick_tx (p : Port) : (p.tick).tx = p.tx := rfl

/-! `Port.acceptMessage` -/

@[simp] theorem Port.acceptMessage_cfg (now : Nat) (body : Vector Byte 8) (p : Port) :
    (p.acceptMessage now body).cfg = p.cfg := rfl
@[simp] theorem Port.acceptMessage_rx (now : Nat) (body : Vector Byte 8) (p : Port) :
    (p.acceptMessage now body).rx = p.rx := rfl
@[simp] theorem Port.acceptMessage_asm (now : Nat) (body : Vector Byte 8) (p : Port) :
    (p.acceptMessage now body).asm = p.asm := rfl
@[simp] theorem Port.acceptMessage_pilotErrors (now : Nat) (body : Vector Byte 8) (p : Port) :
    (p.acceptMessage now body).pilotErrors = p.pilotErrors := rfl
@[simp] theorem Port.acceptMessage_buckets (now : Nat) (body : Vector Byte 8) (p : Port) :
    (p.acceptMessage now body).buckets = p.buckets := rfl
@[simp] theorem Port.acceptMessage_lastValid (now : Nat) (body : Vector Byte 8) (p : Port) :
    (p.acceptMessage now body).lastValid = p.lastValid := rfl
@[simp] theorem Port.acceptMessage_lastBad (now : Nat) (body : Vector Byte 8) (p : Port) :
    (p.acceptMessage now body).lastBad = p.lastBad := rfl
@[simp] theorem Port.acceptMessage_power (now : Nat) (body : Vector Byte 8) (p : Port) :
    (p.acceptMessage now body).power = p.power := rfl
@[simp] theorem Port.acceptMessage_satLow (now : Nat) (body : Vector Byte 8) (p : Port) :
    (p.acceptMessage now body).satLow = p.satLow := rfl
@[simp] theorem Port.acceptMessage_satHigh (now : Nat) (body : Vector Byte 8) (p : Port) :
    (p.acceptMessage now body).satHigh = p.satHigh := rfl
@[simp] theorem Port.acceptMessage_ps (now : Nat) (body : Vector Byte 8) (p : Port) :
    (p.acceptMessage now body).ps = p.ps := rfl
@[simp] theorem Port.acceptMessage_lostLatch (now : Nat) (body : Vector Byte 8) (p : Port) :
    (p.acceptMessage now body).lostLatch = p.lostLatch := rfl
@[simp] theorem Port.acceptMessage_overLatch (now : Nat) (body : Vector Byte 8) (p : Port) :
    (p.acceptMessage now body).overLatch = p.overLatch := rfl
@[simp] theorem Port.acceptMessage_lowLatch (now : Nat) (body : Vector Byte 8) (p : Port) :
    (p.acceptMessage now body).lowLatch = p.lowLatch := rfl
@[simp] theorem Port.acceptMessage_raw (now : Nat) (body : Vector Byte 8) (p : Port) :
    (p.acceptMessage now body).raw = p.raw := rfl
@[simp] theorem Port.acceptMessage_reported (now : Nat) (body : Vector Byte 8) (p : Port) :
    (p.acceptMessage now body).reported = p.reported := rfl
@[simp] theorem Port.acceptMessage_holdTimer (now : Nat) (body : Vector Byte 8) (p : Port) :
    (p.acceptMessage now body).holdTimer = p.holdTimer := rfl
@[simp] theorem Port.acceptMessage_tx (now : Nat) (body : Vector Byte 8) (p : Port) :
    (p.acceptMessage now body).tx = p.tx := rfl

/-! `Port.loss` -/

@[simp] theorem Port.loss_cfg (p : Port) : (p.loss).cfg = p.cfg := rfl
@[simp] theorem Port.loss_rx (p : Port) : (p.loss).rx = p.rx := rfl
@[simp] theorem Port.loss_asm (p : Port) : (p.loss).asm = p.asm := rfl
@[simp] theorem Port.loss_accTrace (p : Port) : (p.loss).accTrace = p.accTrace := rfl
@[simp] theorem Port.loss_pilotErrors (p : Port) : (p.loss).pilotErrors = p.pilotErrors := rfl
@[simp] theorem Port.loss_validCount (p : Port) : (p.loss).validCount = p.validCount := rfl
@[simp] theorem Port.loss_buckets (p : Port) : (p.loss).buckets = p.buckets := rfl
@[simp] theorem Port.loss_lastValid (p : Port) : (p.loss).lastValid = p.lastValid := rfl
@[simp] theorem Port.loss_lastBad (p : Port) : (p.loss).lastBad = p.lastBad := rfl
@[simp] theorem Port.loss_power (p : Port) : (p.loss).power = p.power := rfl
@[simp] theorem Port.loss_satLow (p : Port) : (p.loss).satLow = p.satLow := rfl
@[simp] theorem Port.loss_satHigh (p : Port) : (p.loss).satHigh = p.satHigh := rfl
@[simp] theorem Port.loss_ps (p : Port) : (p.loss).ps = p.ps := rfl
@[simp] theorem Port.loss_lostLatch (p : Port) : (p.loss).lostLatch = p.lostLatch := rfl
@[simp] theorem Port.loss_overLatch (p : Port) : (p.loss).overLatch = p.overLatch := rfl
@[simp] theorem Port.loss_lowLatch (p : Port) : (p.loss).lowLatch = p.lowLatch := rfl
@[simp] theorem Port.loss_raw (p : Port) : (p.loss).raw = p.raw := rfl
@[simp] theorem Port.loss_reported (p : Port) : (p.loss).reported = p.reported := rfl
@[simp] theorem Port.loss_holdTimer (p : Port) : (p.loss).holdTimer = p.holdTimer := rfl
@[simp] theorem Port.loss_tx (p : Port) : (p.loss).tx = p.tx := rfl

/-! `Port.convert` -/

@[simp] theorem Port.convert_cfg (code : Nat) (p : Port) : (p.convert code).cfg = p.cfg := rfl
@[simp] theorem Port.convert_rx (code : Nat) (p : Port) : (p.convert code).rx = p.rx := rfl
@[simp] theorem Port.convert_asm (code : Nat) (p : Port) : (p.convert code).asm = p.asm := rfl
@[simp] theorem Port.convert_traceCand (code : Nat) (p : Port) : (p.convert code).traceCand = p.traceCand := rfl
@[simp] theorem Port.convert_accTrace (code : Nat) (p : Port) : (p.convert code).accTrace = p.accTrace := rfl
@[simp] theorem Port.convert_flagsCand (code : Nat) (p : Port) : (p.convert code).flagsCand = p.flagsCand := rfl
@[simp] theorem Port.convert_accFlags (code : Nat) (p : Port) : (p.convert code).accFlags = p.accFlags := rfl
@[simp] theorem Port.convert_qualityCand (code : Nat) (p : Port) : (p.convert code).qualityCand = p.qualityCand := rfl
@[simp] theorem Port.convert_accQuality (code : Nat) (p : Port) : (p.convert code).accQuality = p.accQuality := rfl
@[simp] theorem Port.convert_protCand (code : Nat) (p : Port) : (p.convert code).protCand = p.protCand := rfl
@[simp] theorem Port.convert_accProt (code : Nat) (p : Port) : (p.convert code).accProt = p.accProt := rfl
@[simp] theorem Port.convert_pilotLoss (code : Nat) (p : Port) : (p.convert code).pilotLoss = p.pilotLoss := rfl
@[simp] theorem Port.convert_traceMismatch (code : Nat) (p : Port) : (p.convert code).traceMismatch = p.traceMismatch := rfl
@[simp] theorem Port.convert_pilotErrors (code : Nat) (p : Port) : (p.convert code).pilotErrors = p.pilotErrors := rfl
@[simp] theorem Port.convert_lossTimer (code : Nat) (p : Port) : (p.convert code).lossTimer = p.lossTimer := rfl
@[simp] theorem Port.convert_validCount (code : Nat) (p : Port) : (p.convert code).validCount = p.validCount := rfl
@[simp] theorem Port.convert_buckets (code : Nat) (p : Port) : (p.convert code).buckets = p.buckets := rfl
@[simp] theorem Port.convert_lastValid (code : Nat) (p : Port) : (p.convert code).lastValid = p.lastValid := rfl
@[simp] theorem Port.convert_lastBad (code : Nat) (p : Port) : (p.convert code).lastBad = p.lastBad := rfl
@[simp] theorem Port.convert_raw (code : Nat) (p : Port) : (p.convert code).raw = p.raw := rfl
@[simp] theorem Port.convert_reported (code : Nat) (p : Port) : (p.convert code).reported = p.reported := rfl
@[simp] theorem Port.convert_holdTimer (code : Nat) (p : Port) : (p.convert code).holdTimer = p.holdTimer := rfl
@[simp] theorem Port.convert_tx (code : Nat) (p : Port) : (p.convert code).tx = p.tx := rfl

/-! `Port.holdOffExpire` -/

@[simp] theorem Port.holdOffExpire_cfg (p : Port) : (p.holdOffExpire).cfg = p.cfg := rfl
@[simp] theorem Port.holdOffExpire_rx (p : Port) : (p.holdOffExpire).rx = p.rx := rfl
@[simp] theorem Port.holdOffExpire_asm (p : Port) : (p.holdOffExpire).asm = p.asm := rfl
@[simp] theorem Port.holdOffExpire_traceCand (p : Port) : (p.holdOffExpire).traceCand = p.traceCand := rfl
@[simp] theorem Port.holdOffExpire_accTrace (p : Port) : (p.holdOffExpire).accTrace = p.accTrace := rfl
@[simp] theorem Port.holdOffExpire_flagsCand (p : Port) : (p.holdOffExpire).flagsCand = p.flagsCand := rfl
@[simp] theorem Port.holdOffExpire_accFlags (p : Port) : (p.holdOffExpire).accFlags = p.accFlags := rfl
@[simp] theorem Port.holdOffExpire_qualityCand (p : Port) : (p.holdOffExpire).qualityCand = p.qualityCand := rfl
@[simp] theorem Port.holdOffExpire_accQuality (p : Port) : (p.holdOffExpire).accQuality = p.accQuality := rfl
@[simp] theorem Port.holdOffExpire_protCand (p : Port) : (p.holdOffExpire).protCand = p.protCand := rfl
@[simp] theorem Port.holdOffExpire_accProt (p : Port) : (p.holdOffExpire).accProt = p.accProt := rfl
@[simp] theorem Port.holdOffExpire_pilotLoss (p : Port) : (p.holdOffExpire).pilotLoss = p.pilotLoss := rfl
@[simp] theorem Port.holdOffExpire_traceMismatch (p : Port) : (p.holdOffExpire).traceMismatch = p.traceMismatch := rfl
@[simp] theorem Port.holdOffExpire_pilotErrors (p : Port) : (p.holdOffExpire).pilotErrors = p.pilotErrors := rfl
@[simp] theorem Port.holdOffExpire_lossTimer (p : Port) : (p.holdOffExpire).lossTimer = p.lossTimer := rfl
@[simp] theorem Port.holdOffExpire_validCount (p : Port) : (p.holdOffExpire).validCount = p.validCount := rfl
@[simp] theorem Port.holdOffExpire_buckets (p : Port) : (p.holdOffExpire).buckets = p.buckets := rfl
@[simp] theorem Port.holdOffExpire_lastValid (p : Port) : (p.holdOffExpire).lastValid = p.lastValid := rfl
@[simp] theorem Port.holdOffExpire_lastBad (p : Port) : (p.holdOffExpire).lastBad = p.lastBad := rfl
@[simp] theorem Port.holdOffExpire_power (p : Port) : (p.holdOffExpire).power = p.power := rfl
@[simp] theorem Port.holdOffExpire_satLow (p : Port) : (p.holdOffExpire).satLow = p.satLow := rfl
@[simp] theorem Port.holdOffExpire_satHigh (p : Port) : (p.holdOffExpire).satHigh = p.satHigh := rfl
@[simp] theorem Port.holdOffExpire_ps (p : Port) : (p.holdOffExpire).ps = p.ps := rfl
@[simp] theorem Port.holdOffExpire_lostLatch (p : Port) : (p.holdOffExpire).lostLatch = p.lostLatch := rfl
@[simp] theorem Port.holdOffExpire_overLatch (p : Port) : (p.holdOffExpire).overLatch = p.overLatch := rfl
@[simp] theorem Port.holdOffExpire_lowLatch (p : Port) : (p.holdOffExpire).lowLatch = p.lowLatch := rfl
@[simp] theorem Port.holdOffExpire_raw (p : Port) : (p.holdOffExpire).raw = p.raw := rfl
@[simp] theorem Port.holdOffExpire_tx (p : Port) : (p.holdOffExpire).tx = p.tx := rfl

/-! `Port.testIn` -/

@[simp] theorem Port.testIn_cfg (p : Port) : (p.testIn).cfg = p.cfg := rfl
@[simp] theorem Port.testIn_accTrace (p : Port) : (p.testIn).accTrace = p.accTrace := rfl
@[simp] theorem Port.testIn_accFlags (p : Port) : (p.testIn).accFlags = p.accFlags := rfl
@[simp] theorem Port.testIn_accQuality (p : Port) : (p.testIn).accQuality = p.accQuality := rfl
@[simp] theorem Port.testIn_accProt (p : Port) : (p.testIn).accProt = p.accProt := rfl
@[simp] theorem Port.testIn_pilotLoss (p : Port) : (p.testIn).pilotLoss = p.pilotLoss := rfl
@[simp] theorem Port.testIn_traceMismatch (p : Port) : (p.testIn).traceMismatch = p.traceMismatch := rfl
@[simp] theorem Port.testIn_pilotErrors (p : Port) : (p.testIn).pilotErrors = p.pilotErrors := rfl
@[simp] theorem Port.testIn_validCount (p : Port) : (p.testIn).validCount = p.validCount := rfl
@[simp] theorem Port.testIn_buckets (p : Port) : (p.testIn).buckets = p.buckets := rfl
@[simp] theorem Port.testIn_lastValid (p : Port) : (p.testIn).lastValid = p.lastValid := rfl
@[simp] theorem Port.testIn_lastBad (p : Port) : (p.testIn).lastBad = p.lastBad := rfl
@[simp] theorem Port.testIn_power (p : Port) : (p.testIn).power = p.power := rfl
@[simp] theorem Port.testIn_satLow (p : Port) : (p.testIn).satLow = p.satLow := rfl
@[simp] theorem Port.testIn_satHigh (p : Port) : (p.testIn).satHigh = p.satHigh := rfl
@[simp] theorem Port.testIn_ps (p : Port) : (p.testIn).ps = p.ps := rfl
@[simp] theorem Port.testIn_lostLatch (p : Port) : (p.testIn).lostLatch = p.lostLatch := rfl
@[simp] theorem Port.testIn_overLatch (p : Port) : (p.testIn).overLatch = p.overLatch := rfl
@[simp] theorem Port.testIn_lowLatch (p : Port) : (p.testIn).lowLatch = p.lowLatch := rfl
@[simp] theorem Port.testIn_raw (p : Port) : (p.testIn).raw = p.raw := rfl
@[simp] theorem Port.testIn_reported (p : Port) : (p.testIn).reported = p.reported := rfl
@[simp] theorem Port.testIn_holdTimer (p : Port) : (p.testIn).holdTimer = p.holdTimer := rfl
@[simp] theorem Port.testIn_tx (p : Port) : (p.testIn).tx = p.tx := rfl

/-! `Group.dropStay` -/

@[simp] theorem Group.dropStay_cfg (x : Group) : (x.dropStay).cfg = x.cfg := rfl
@[simp] theorem Group.dropStay_state (x : Group) : (x.dropStay).state = x.state := rfl
@[simp] theorem Group.dropStay_external (x : Group) : (x.dropStay).external = x.external := rfl
@[simp] theorem Group.dropStay_remote (x : Group) : (x.dropStay).remote = x.remote := rfl
@[simp] theorem Group.dropStay_farEcho (x : Group) : (x.dropStay).farEcho = x.farEcho := rfl
@[simp] theorem Group.dropStay_farBridged (x : Group) : (x.dropStay).farBridged = x.farBridged := rfl
@[simp] theorem Group.dropStay_protocolMismatch (x : Group) : (x.dropStay).protocolMismatch = x.protocolMismatch := rfl
@[simp] theorem Group.dropStay_local_ (x : Group) : (x.dropStay).local_ = x.local_ := rfl
@[simp] theorem Group.dropStay_effective (x : Group) : (x.dropStay).effective = x.effective := rfl
@[simp] theorem Group.dropStay_target (x : Group) : (x.dropStay).target = x.target := rfl
@[simp] theorem Group.dropStay_trialResult (x : Group) : (x.dropStay).trialResult = x.trialResult := rfl
@[simp] theorem Group.dropStay_trialTimer (x : Group) : (x.dropStay).trialTimer = x.trialTimer := rfl
@[simp] theorem Group.dropStay_awaitTimer (x : Group) : (x.dropStay).awaitTimer = x.awaitTimer := rfl
@[simp] theorem Group.dropStay_farBridgeTimeout (x : Group) : (x.dropStay).farBridgeTimeout = x.farBridgeTimeout := rfl

/-! `Group.takeStay` -/

@[simp] theorem Group.takeStay_cfg (now m : Nat) (x : Group) : (x.takeStay now m).cfg = x.cfg := rfl
@[simp] theorem Group.takeStay_state (now m : Nat) (x : Group) : (x.takeStay now m).state = x.state := rfl
@[simp] theorem Group.takeStay_external (now m : Nat) (x : Group) : (x.takeStay now m).external = x.external := rfl
@[simp] theorem Group.takeStay_remote (now m : Nat) (x : Group) : (x.takeStay now m).remote = x.remote := rfl
@[simp] theorem Group.takeStay_farEcho (now m : Nat) (x : Group) : (x.takeStay now m).farEcho = x.farEcho := rfl
@[simp] theorem Group.takeStay_farBridged (now m : Nat) (x : Group) : (x.takeStay now m).farBridged = x.farBridged := rfl
@[simp] theorem Group.takeStay_protocolMismatch (now m : Nat) (x : Group) :
    (x.takeStay now m).protocolMismatch = x.protocolMismatch := rfl
@[simp] theorem Group.takeStay_local_ (now m : Nat) (x : Group) : (x.takeStay now m).local_ = x.local_ := rfl
@[simp] theorem Group.takeStay_effective (now m : Nat) (x : Group) : (x.takeStay now m).effective = x.effective := rfl
@[simp] theorem Group.takeStay_target (now m : Nat) (x : Group) : (x.takeStay now m).target = x.target := rfl
@[simp] theorem Group.takeStay_trialResult (now m : Nat) (x : Group) : (x.takeStay now m).trialResult = x.trialResult := rfl
@[simp] theorem Group.takeStay_trialTimer (now m : Nat) (x : Group) : (x.takeStay now m).trialTimer = x.trialTimer := rfl
@[simp] theorem Group.takeStay_awaitTimer (now m : Nat) (x : Group) : (x.takeStay now m).awaitTimer = x.awaitTimer := rfl
@[simp] theorem Group.takeStay_farBridgeTimeout (now m : Nat) (x : Group) :
    (x.takeStay now m).farBridgeTimeout = x.farBridgeTimeout := rfl

/-! `Group.startTrial` -/

@[simp] theorem Group.startTrial_cfg (now : Nat) (x : Group) : (x.startTrial now).cfg = x.cfg := rfl
@[simp] theorem Group.startTrial_state (now : Nat) (x : Group) : (x.startTrial now).state = x.state := rfl
@[simp] theorem Group.startTrial_external (now : Nat) (x : Group) : (x.startTrial now).external = x.external := rfl
@[simp] theorem Group.startTrial_stay (now : Nat) (x : Group) : (x.startTrial now).stay = x.stay := rfl
@[simp] theorem Group.startTrial_restoreTimer (now : Nat) (x : Group) : (x.startTrial now).restoreTimer = x.restoreTimer := rfl
@[simp] theorem Group.startTrial_remote (now : Nat) (x : Group) : (x.startTrial now).remote = x.remote := rfl
@[simp] theorem Group.startTrial_farEcho (now : Nat) (x : Group) : (x.startTrial now).farEcho = x.farEcho := rfl
@[simp] theorem Group.startTrial_farBridged (now : Nat) (x : Group) : (x.startTrial now).farBridged = x.farBridged := rfl
@[simp] theorem Group.startTrial_protocolMismatch (now : Nat) (x : Group) :
    (x.startTrial now).protocolMismatch = x.protocolMismatch := rfl
@[simp] theorem Group.startTrial_local_ (now : Nat) (x : Group) : (x.startTrial now).local_ = x.local_ := rfl
@[simp] theorem Group.startTrial_effective (now : Nat) (x : Group) : (x.startTrial now).effective = x.effective := rfl
@[simp] theorem Group.startTrial_target (now : Nat) (x : Group) : (x.startTrial now).target = x.target := rfl
@[simp] theorem Group.startTrial_awaitTimer (now : Nat) (x : Group) : (x.startTrial now).awaitTimer = x.awaitTimer := rfl
@[simp] theorem Group.startTrial_farBridgeTimeout (now : Nat) (x : Group) :
    (x.startTrial now).farBridgeTimeout = x.farBridgeTimeout := rfl

/-! `Ref.clearMeasures` -/

@[simp] theorem Ref.clearMeasures_enabled (x : Ref) : (x.clearMeasures).enabled = x.enabled := rfl
@[simp] theorem Ref.clearMeasures_rate (x : Ref) : (x.clearMeasures).rate = x.rate := rfl
@[simp] theorem Ref.clearMeasures_binding (x : Ref) : (x.clearMeasures).binding = x.binding := rfl
@[simp] theorem Ref.clearMeasures_priority (x : Ref) : (x.clearMeasures).priority = x.priority := rfl
@[simp] theorem Ref.clearMeasures_provisioned (x : Ref) : (x.clearMeasures).provisioned = x.provisioned := rfl
@[simp] theorem Ref.clearMeasures_lockedOut (x : Ref) : (x.clearMeasures).lockedOut = x.lockedOut := rfl
@[simp] theorem Ref.clearMeasures_present (x : Ref) : (x.clearMeasures).present = x.present := rfl
@[simp] theorem Ref.clearMeasures_source (x : Ref) : (x.clearMeasures).source = x.source := rfl
@[simp] theorem Ref.clearMeasures_received (x : Ref) : (x.clearMeasures).received = x.received := rfl
@[simp] theorem Ref.clearMeasures_edgeTimer (x : Ref) : (x.clearMeasures).edgeTimer = x.edgeTimer := rfl

/-! `Ref.restart` -/

@[simp] theorem Ref.restart_enabled (env : TimingEnv) (r : RefId) (x : Ref) : (x.restart env r).enabled = x.enabled := rfl
@[simp] theorem Ref.restart_rate (env : TimingEnv) (r : RefId) (x : Ref) : (x.restart env r).rate = x.rate := rfl
@[simp] theorem Ref.restart_binding (env : TimingEnv) (r : RefId) (x : Ref) : (x.restart env r).binding = x.binding := rfl
@[simp] theorem Ref.restart_priority (env : TimingEnv) (r : RefId) (x : Ref) : (x.restart env r).priority = x.priority := rfl
@[simp] theorem Ref.restart_provisioned (env : TimingEnv) (r : RefId) (x : Ref) :
    (x.restart env r).provisioned = x.provisioned := rfl
@[simp] theorem Ref.restart_lockedOut (env : TimingEnv) (r : RefId) (x : Ref) : (x.restart env r).lockedOut = x.lockedOut := rfl

/-! ### What the updates change -/

@[simp] theorem State.reach_now (t : Nat) (s : State) : (s.reach t).now = max s.now t := rfl
@[simp] theorem State.idle_now (s : State) : s.idle.now = s.now + 1 := rfl
@[simp] theorem flush_sw_raised (s : State) : (flush s).sw.raised = [] := rfl
@[simp] theorem flush_timing_raised (s : State) : (flush s).timing.raised = [] := rfl
@[simp] theorem flush_raised (s : State) : (flush s).raised = [] := rfl
theorem flush_notices (s : State) :
    (flush s).notices = (freeOrder s.orderDraws s.allRaised).foldl Notices.enqueue s.notices := rfl
@[simp] theorem finish_sw_raised (e : Expiry) (s : State) : (finish e s).sw.raised = [] := by rw [finish_sw]
@[simp] theorem finish_timing_raised (e : Expiry) (s : State) : (finish e s).timing.raised = [] := rfl
@[simp] theorem finish_raised (e : Expiry) (s : State) : (finish e s).raised = [] := rfl
@[simp] theorem takeAlarms_points (e : Expiry) (s : State) : (takeAlarms e s).alarms.points = nextPoints s e := rfl
@[simp] theorem finish_points (e : Expiry) (s : State) : (finish e s).alarms.points = nextPoints s e := rfl
@[simp] theorem modLink_links (l : LinkId) (f : Link → Link) (s : State) : (modLink l f s).links = s.links.modLink l f := rfl
@[simp] theorem raise_raised (n : Notice) (s : State) : (raise n s).raised = s.raised ++ [n] := rfl
@[simp] theorem acknowledge_alarms (s : State) : (acknowledge s).alarms = s.alarms.acknowledge := rfl
@[simp] theorem pinTo_acoPin (p : AcoPin) (s : State) : (pinTo p s).alarms.acoPin = p := rfl
@[simp] theorem writeProfile_profile (k : Fin 21) (e : ProfileEntry) (s : State) :
    (writeProfile k e s).alarms.profile = s.alarms.profile.set k e := rfl
@[simp] theorem restartLinks_linkA (s : State) : (restartLinks s).links.linkA = s.links.linkA.restart := rfl
@[simp] theorem restartLinks_linkB (s : State) : (restartLinks s).links.linkB = s.links.linkB.restart := rfl
@[simp] theorem restartLinks_periodTimer (s : State) : (restartLinks s).links.periodTimer = none := rfl
@[simp] theorem restartLinks_queue (s : State) : (restartLinks s).notices.queue = [] := rfl
@[simp] theorem restartLinks_overflow (s : State) : (restartLinks s).notices.overflow = true := rfl
@[simp] theorem grant_links (l : LinkId) (s : State) : (grant l s).links = s.links.grant l s.now := rfl
@[simp] theorem grant_notices (l : LinkId) (s : State) : (grant l s).notices = s.notices.tellOverflow := rfl
@[simp] theorem tickTiming_timing (s : State) : (tickTiming s).timing = s.timing.update s.timingEnv true := rfl
@[simp] theorem scanOn_conversion (p : PortId) (s : State) :
    (scanOn p s).conversion = conversionOf s.now (scanAfter s.ports p) := rfl
@[simp] theorem inTiming_timing (f : TimingEnv → Timing → Timing) (s : State) : (inTiming f s).timing = f s.timingEnv s.timing :=
  rfl
@[simp] theorem inSwitch_sw (f : SwEnv → Switching → Switching) (s : State) : (inSwitch f s).sw = f s.swEnv s.sw := rfl
theorem inSwitch_timing (f : SwEnv → Switching → Switching) (s : State) :
    (inSwitch f s).timing = s.timing.followSelectors ⟨s.now, s.ports, f s.swEnv s.sw, s.notices.timingEnable⟩ := rfl

@[simp] theorem Link.frameTaken_rx {k : Link} (h : k.rx.state = .awaitLen) : k.frameTaken.rx = .hunting := by
  simp [Link.frameTaken, h]
theorem Link.frameTaken_hunts {k : Link} (h : k.rx.state = .breakHunt) : k.frameTaken = k := by simp [Link.frameTaken, h]
@[simp] theorem Link.take_outstanding (tag kind : Byte) (k : Link) : (k.take tag kind).outstanding = some ⟨tag, kind, false⟩ := rfl
@[simp] theorem Link.deferredTo_outstanding (tag kind : Byte) (k : Link) :
    (k.deferredTo tag kind).outstanding = some ⟨tag, kind, false⟩ := rfl
@[simp] theorem Link.deferredTo_rx (tag kind : Byte) (k : Link) : (k.deferredTo tag kind).rx = k.frameTaken.rx := rfl
@[simp] theorem Link.beginFrame_sending (f : Frame) (ends : Nat) (k : Link) : (k.beginFrame f ends).sending = some (f, ends) := rfl
@[simp] theorem Link.popReply_ready (r : Reply) (rest : List Reply) (k : Link) : (k.popReply r rest).ready = rest := rfl
@[simp] theorem Link.popReply_outstanding (r : Reply) (rest : List Reply) (k : Link) :
    (k.popReply r rest).outstanding = if r.busy then k.outstanding else none := rfl
@[simp] theorem Link.restart_role (k : Link) : k.restart.role = .observer := rfl
@[simp] theorem Link.restart_outstanding (k : Link) : k.restart.outstanding = none := rfl
@[simp] theorem Link.restart_ready (k : Link) : k.restart.ready = [] := rfl
@[simp] theorem LinkSupervisor.draw_challenge (x : LinkSupervisor) : x.draw.challenge = some (Config.challenge x.draws) := rfl
@[simp] theorem LinkSupervisor.draw_draws (x : LinkSupervisor) : x.draw.draws = x.draws + 1 := rfl
@[simp] theorem LinkSupervisor.startPeriod_earlyStart (now : Nat) (x : LinkSupervisor) : (x.startPeriod now).earlyStart = now := rfl
@[simp] theorem LinkSupervisor.startPeriod_periodTimer (now : Nat) (x : LinkSupervisor) :
    (x.startPeriod now).periodTimer = some ⟨now + x.period * 1000, x.period * 1000⟩ := rfl
@[simp] theorem LinkSupervisor.judgeShf_shf (x : LinkSupervisor) :
    x.judgeShf.shf = (!x.everGranted || decide (x.lapseLimit ≤ x.lapses)) := rfl
@[simp] theorem LinkSupervisor.lapse_lapses (x : LinkSupervisor) : x.lapse.lapses = min 4 (x.lapses + 1) := rfl
@[simp] theorem LinkSupervisor.lapse_run (x : LinkSupervisor) : x.lapse.run = 0 := rfl
@[simp] theorem LinkSupervisor.keep_run (now : Nat) (x : LinkSupervisor) : (x.keep now).run = min 3 (x.run + 1) := rfl
@[simp] theorem LinkSupervisor.keep_lapses (now : Nat) (x : LinkSupervisor) :
    (x.keep now).lapses = if min 3 (x.run + 1) = 3 then 0 else x.lapses := rfl

@[simp] theorem Switching.setGroup_groups (g : GroupId) (grp : Group) (w : Switching) :
    (w.setGroup g grp).groups = w.groups.set g (some grp) := rfl
@[simp] theorem Switching.modGroup_groups (g : GroupId) (f : Group → Group) (w : Switching) :
    (w.modGroup g f).groups = upd w.groups g (Option.map f) := rfl
@[simp] theorem Switching.dropOp_queue (g : GroupId) (w : Switching) : (w.dropOp g).queue = w.queue.filter (·.group ≠ g) := rfl
@[simp] theorem Switching.place_queue (op : Op) (w : Switching) : (w.place op).queue = placeOp w.queue op := rfl
@[simp] theorem Switching.close_bus (now : Nat) (ok : Bool) (w : Switching) : (w.close now ok).bus = none := rfl
@[simp] theorem Switching.close_busFreeAt (now : Nat) (ok : Bool) (w : Switching) : (w.close now ok).busFreeAt = now := rfl
@[simp] theorem Switching.close_busDefect (now : Nat) (ok : Bool) (w : Switching) : (w.close now ok).busDefect = !ok := rfl
@[simp] theorem Group.dropStay_stay (x : Group) : x.dropStay.stay = none := rfl
@[simp] theorem Group.dropStay_restoreTimer (x : Group) : x.dropStay.restoreTimer = none := rfl
@[simp] theorem Port.loss_pilotLoss (p : Port) : p.loss.pilotLoss = true := rfl
@[simp] theorem Port.loss_lossTimer (p : Port) : p.loss.lossTimer = none := rfl
@[simp] theorem Port.acceptMessage_pilotLoss (now : Nat) (body : Vector Byte 8) (p : Port) :
    (p.acceptMessage now body).pilotLoss = false := rfl
@[simp] theorem Port.acceptMessage_lossTimer (now : Nat) (body : Vector Byte 8) (p : Port) :
    (p.acceptMessage now body).lossTimer = some (now + 40000) := rfl
@[simp] theorem Port.tick_validCount (p : Port) : p.tick.validCount = 0 := rfl
@[simp] theorem Port.tick_lastValid (p : Port) : p.tick.lastValid = p.validCount := rfl
@[simp] theorem Port.holdOffExpire_reported (p : Port) : p.holdOffExpire.reported = p.raw := rfl
@[simp] theorem Port.holdOffExpire_holdTimer (p : Port) : p.holdOffExpire.holdTimer = none := rfl

end Sys2Proof.Machine
end

