-- ==== Sys2Proof/Laws/Tables.lean ====
section
/-! SUPPORT. Laws of tables, of the free order and of the notice queue. -/

namespace Sys2Proof.Machine

/-! ### Tables -/

@[simp] theorem tab_get {α : Type} {n : Nat} (f : Fin n → α) (i : Fin n) : (tab n f)[i] = f i := by
  simp [tab]

theorem upd_get {α : Type} {n : Nat} (v : Vector α n) (i j : Fin n) (f : α → α) :
    (upd v i f)[j] = if i = j then f v[i] else v[j] := by
  simp only [upd, Fin.getElem_fin, Vector.getElem_set, Fin.ext_iff]

@[simp] theorem upd_get_self {α : Type} {n : Nat} (v : Vector α n) (i : Fin n) (f : α → α) : (upd v i f)[i] = f v[i] := by
  rw [upd_get, if_pos rfl]

theorem upd_get_other {α : Type} {n : Nat} (v : Vector α n) {i j : Fin n} (h : j ≠ i) (f : α → α) : (upd v i f)[j] = v[j] := by
  rw [upd_get, if_neg (fun e => h e.symm)]

/-- Only the entry's own value counts. -/
theorem upd_congr {α : Type} {n : Nat} {v : Vector α n} {i : Fin n} {f g : α → α} (h : f v[i] = g v[i]) : upd v i f = upd v i g := by
  unfold upd
  rw [h]

theorem set_get {α : Type} {n : Nat} (v : Vector α n) (i j : Fin n) (x : α) :
    (v.set i x)[j] = if i = j then x else v[j] := by
  simp only [Fin.getElem_fin, Vector.getElem_set, Fin.ext_iff]

@[simp] theorem set_get_self {α : Type} {n : Nat} (v : Vector α n) (i : Fin n) (x : α) : (v.set i x)[i] = x := by
  rw [set_get, if_pos rfl]

theorem set_get_other {α : Type} {n : Nat} (v : Vector α n) {i j : Fin n} (h : j ≠ i) (x : α) : (v.set i x)[j] = v[j] := by
  rw [set_get, if_neg (fun e => h e.symm)]

theorem table_ext {α : Type} {n : Nat} {v w : Vector α n} (h : ∀ i : Fin n, v[i] = w[i]) : v = w := by
  apply Vector.ext
  intro i hi
  exact h ⟨i, hi⟩

/-! ### The free order -/

theorem insertFree_perm {α : Type} (d : Nat) (x : α) (xs : List α) : (insertFree d x xs).Perm (x :: xs) := by
  induction xs with
  | nil => exact List.Perm.refl _
  | cons y ys ih =>
    unfold insertFree
    split
    · exact List.Perm.refl _
    · exact (List.Perm.cons y ih).trans (List.Perm.swap x y ys)

/-- The free order is an order of the same items. -/
theorem freeOrder_perm {α : Type} (d : Nat) (xs : List α) : (freeOrder d xs).Perm xs := by
  induction xs with
  | nil => exact List.Perm.refl _
  | cons x xs ih => exact (insertFree_perm _ x _).trans (List.Perm.cons x ih)

@[simp] theorem freeOrder_mem {α : Type} (d : Nat) (xs : List α) (x : α) : x ∈ freeOrder d xs ↔ x ∈ xs :=
  (freeOrder_perm d xs).mem_iff

@[simp] theorem freeOrder_length {α : Type} (d : Nat) (xs : List α) : (freeOrder d xs).length = xs.length :=
  (freeOrder_perm d xs).length_eq

theorem freeOrder_nodup {α : Type} (d : Nat) {xs : List α} (h : xs.Nodup) : (freeOrder d xs).Nodup :=
  (freeOrder_perm d xs).nodup_iff.mpr h

@[simp] theorem freeOrder_single {α : Type} (d : Nat) (x : α) : freeOrder d [x] = [x] := rfl

/-! ### The notice queue -/

@[simp] theorem Notices.enqueue_threshold (q : Notices) (n : Notice) : (q.enqueue n).threshold = q.threshold := by
  unfold Notices.enqueue; split <;> rfl

@[simp] theorem Notices.enqueue_groupEnable (q : Notices) (n : Notice) : (q.enqueue n).groupEnable = q.groupEnable := by
  unfold Notices.enqueue; split <;> rfl

@[simp] theorem Notices.enqueue_timingEnable (q : Notices) (n : Notice) : (q.enqueue n).timingEnable = q.timingEnable := by
  unfold Notices.enqueue; split <;> rfl

theorem Notices.enqueue_bounded {q : Notices} (h : q.queue.length ≤ 32) (n : Notice) : (q.enqueue n).queue.length ≤ 32 := by
  unfold Notices.enqueue
  split
  · simp only [List.length_append, List.length_singleton]; omega
  · exact h

/-- What any number of notices does to the queue: at most 32, and the settings as they were. -/
theorem Notices.enqueueAll (ns : List Notice) (q : Notices) :
    (ns.foldl Notices.enqueue q).threshold = q.threshold ∧ (ns.foldl Notices.enqueue q).groupEnable = q.groupEnable
      ∧ (ns.foldl Notices.enqueue q).timingEnable = q.timingEnable
      ∧ (q.queue.length ≤ 32 → (ns.foldl Notices.enqueue q).queue.length ≤ 32) := by
  induction ns generalizing q with
  | nil => exact ⟨rfl, rfl, rfl, id⟩
  | cons n ns ih =>
    obtain ⟨h1, h2, h3, h4⟩ := ih (q.enqueue n)
    refine ⟨?_, ?_, ?_, fun h => h4 (Notices.enqueue_bounded h n)⟩ <;> simp_all

@[simp] theorem Notices.tellOverflow_threshold (q : Notices) : q.tellOverflow.threshold = q.threshold := by
  unfold Notices.tellOverflow; split <;> rfl

@[simp] theorem Notices.tellOverflow_groupEnable (q : Notices) : q.tellOverflow.groupEnable = q.groupEnable := by
  unfold Notices.tellOverflow; split <;> rfl

@[simp] theorem Notices.tellOverflow_timingEnable (q : Notices) : q.tellOverflow.timingEnable = q.timingEnable := by
  unfold Notices.tellOverflow; split <;> rfl

theorem Notices.tellOverflow_bounded {q : Notices} (h : q.queue.length ≤ 32) : q.tellOverflow.queue.length ≤ 32 := by
  unfold Notices.tellOverflow
  split
  · simp
  · exact h

end Sys2Proof.Machine
end

