-- ==== Sys2Proof/Laws/Groups.lean ====
section
/-! SUPPORT. What the engine of one group may touch: for each of its functions, `OnlyGroup`. -/

namespace Sys2Proof.Machine

theorem OnlyGroup.refl (g : GroupId) (w : Switching) : OnlyGroup g w w :=
  ⟨fun _ _ => rfl, rfl, rfl, rfl, rfl, rfl, rfl, rfl, .inl rfl⟩

theorem OnlyGroup.trans {g : GroupId} {u v w : Switching} (a : OnlyGroup g u v) (b : OnlyGroup g v w) : OnlyGroup g u w :=
  ⟨fun h n => (b.others h n).trans (a.others h n), b.record.trans a.record, b.elements.trans a.elements, b.queue.trans a.queue,
    b.bus.trans a.bus, b.busFreeAt.trans a.busFreeAt, b.busDefect.trans a.busDefect, b.settleFail.trans a.settleFail, by
    rcases a.chosen with ea | ⟨c, hc, hg, ea⟩ <;> rcases b.chosen with eb | ⟨d, hd, hh, eb⟩
    · exact .inl (eb.trans ea)
    · exact .inr ⟨d, ea ▸ hd, hh, eb⟩
    · exact .inr ⟨c, hc, hg, eb.trans ea⟩
    · rw [ea] at hd; cases hd⟩

theorem OnlyGroup.sameRecords {g : GroupId} {w v : Switching} (h : OnlyGroup g w v) : SameRecords w v where
  groups := fun k => if e : k = g then by subst e; exact h.record else by rw [h.others k e]
  elements := by rw [h.elements]

/-- A group's fields other than its record replaced. -/
theorem onlyGroup_setGroup {g : GroupId} {w : Switching} {old new : Group} (h : w.groups[g] = some old) (c : new.cfg = old.cfg) :
    OnlyGroup g w (w.setGroup g new) :=
  ⟨fun k n => set_get_other _ n _, by simp only [Switching.setGroup_groups, set_get_self, h, Option.map_some, c], rfl, rfl, rfl,
    rfl, rfl, rfl, .inl rfl⟩

theorem onlyGroup_modGroup (g : GroupId) (w : Switching) {f : Group → Group} (c : ∀ x, (f x).cfg = x.cfg) :
    OnlyGroup g w (w.modGroup g f) :=
  ⟨fun k n => upd_get_other _ n _, by
    simp only [Switching.modGroup_groups, upd_get_self, Option.map_map]
    congr 1
    funext x
    exact c x, rfl, rfl, rfl, rfl, rfl, rfl, .inl rfl⟩

/-- Entries of one group leave the queue, and the choice with them. -/
theorem onlyGroup_keepOps {g : GroupId} (w : Switching) {p : Op → Bool} (h : ∀ op, op.group ≠ g → p op = true) :
    OnlyGroup g w (w.keepOps p) where
  others := fun _ _ => rfl
  record := rfl
  elements := rfl
  queue := by
    simp only [Switching.keepOps, List.filter_filter]
    apply List.filter_congr
    intro op _
    by_cases e : op.group = g <;> simp [e, h]
  bus := rfl
  busFreeAt := rfl
  busDefect := rfl
  settleFail := rfl
  chosen := by
    simp only [Switching.keepOps]
    cases hc : w.chosen with
    | none => exact .inl rfl
    | some c =>
      by_cases hp : (w.opOf c.owner).all p = true
      · exact .inl (by rw [Option.filter_some, if_pos hp])
      · refine .inr ⟨c, rfl, ?_, by rw [Option.filter_some, if_neg hp]⟩
        cases ho : w.opOf c.owner with
        | none => rw [ho] at hp; exact absurd rfl hp
        | some op =>
          rw [ho] at hp
          have hg : op.group = c.owner := by simpa using List.find?_some ho
          by_contra hne
          exact hp (by simpa using h op (hg ▸ hne))

theorem onlyGroup_dropOp (g : GroupId) (w : Switching) : OnlyGroup g w (w.dropOp g) :=
  onlyGroup_keepOps w fun _ h => by simpa using h

theorem onlyGroup_withdraw (g : GroupId) (w : Switching) : OnlyGroup g w (w.withdraw g) :=
  onlyGroup_keepOps w fun _ h => by simp [h]

/-- The group's operation changed in what does not make it another group's. -/
theorem onlyGroup_modOp (g : GroupId) (w : Switching) {f : Op → Op} (h : ∀ op, (f op).group = op.group) :
    OnlyGroup g w (w.modOp g f) := by
  refine ⟨fun _ _ => rfl, rfl, rfl, ?_, rfl, rfl, rfl, rfl, .inl rfl⟩
  show List.filter _ (List.map _ w.queue) = List.filter _ w.queue
  induction w.queue with
  | nil => rfl
  | cons op ops ih => by_cases e : op.group = g <;> simp_all

theorem onlyGroup_place {g : GroupId} (w : Switching) {op : Op} (h : op.group = g) : OnlyGroup g w (w.place op) := by
  refine ⟨fun _ _ => rfl, rfl, rfl, ?_, rfl, rfl, rfl, rfl, .inl rfl⟩
  simp only [Switching.place_queue, placeOp]
  split
  · simp [h]
  · conv_rhs => rw [← List.takeWhile_append_dropWhile (p := fun o : Op => !o.waitsLast) (l := w.queue), List.filter_append]
    simp only [List.filter_append, List.filter_cons, h, ne_eq, not_true_eq_false, decide_false, Bool.false_eq_true, if_false]

theorem onlyGroup_note (env : SwEnv) (g : GroupId) (st : Option GroupState) (w : Switching) : OnlyGroup g w (w.note env g st) := by
  unfold Switching.note
  split
  · exact .refl g w
  · split
    · exact ⟨fun _ _ => rfl, rfl, rfl, rfl, rfl, rfl, rfl, rfl, .inl rfl⟩
    · exact .refl g w

@[simp] theorem Group.decode_cfg (env : SwEnv) (x : Group) : (x.decode env).cfg = x.cfg := by
  unfold Group.decode
  dsimp only
  repeat' split
  all_goals rfl

@[simp] theorem Group.form_cfg (env : SwEnv) (sel : Option Nat) (x : Group) : (x.form env sel).cfg = x.cfg := by
  unfold Group.form
  split
  · split <;> rfl
  · rfl

@[simp] theorem Group.decode_state (env : SwEnv) (x : Group) : (x.decode env).state = x.state := by
  unfold Group.decode
  dsimp only
  repeat' split
  all_goals rfl

@[simp] theorem Group.form_state (env : SwEnv) (sel : Option Nat) (x : Group) : (x.form env sel).state = x.state := by
  unfold Group.form
  split
  · split <;> rfl
  · rfl

theorem onlyGroup_refresh (env : SwEnv) (g : GroupId) (w : Switching) : OnlyGroup g w (w.refresh env g) := by
  unfold Switching.refresh
  split
  · exact .refl g w
  · next grp h => exact onlyGroup_setGroup h (by simp)

theorem onlyGroup_enter (env : SwEnv) (g : GroupId) (st : GroupState) (w : Switching) : OnlyGroup g w (w.enter env g st) := by
  unfold Switching.enter
  split
  · exact .refl g w
  · next grp h =>
    split
    · exact .refl g w
    · exact (onlyGroup_setGroup h (by rfl)).trans (onlyGroup_note env g _ _)

@[simp] theorem Switching.note_queue (env : SwEnv) (g : GroupId) (st : Option GroupState) (w : Switching) :
    (w.note env g st).queue = w.queue := by
  unfold Switching.note
  repeat' split
  all_goals rfl

@[simp] theorem Switching.enter_queue (env : SwEnv) (g : GroupId) (st : GroupState) (w : Switching) :
    (w.enter env g st).queue = w.queue := by
  unfold Switching.enter
  repeat' split
  all_goals first
    | rfl
    | exact Switching.note_queue env g _ _

theorem onlyGroup_stopTrial (g : GroupId) (w : Switching) : OnlyGroup g w (w.stopTrial g) := by
  refine ((onlyGroup_modGroup g w (f := fun grp =>
    if grp.external.any (fun r => decide (r.kind = .trial)) then { grp with trialResult := .abandoned, trialTimer := Option.none }
    else grp) (fun _ => by split <;> rfl)).trans (onlyGroup_keepOps (g := g) _ fun op h => ?_)).trans
    (onlyGroup_modOp g _ fun op => by split <;> rfl)
  simp [h]

theorem onlyGroup_setExternal (g : GroupId) (ext : Option Request) (w : Switching) : OnlyGroup g w (w.setExternal g ext) := by
  exact (onlyGroup_stopTrial g w).trans (onlyGroup_modGroup g _ (fun _ => rfl))

theorem onlyGroup_endTrial (env : SwEnv) (g : GroupId) (res : TrialResult) (w : Switching) :
    OnlyGroup g w (w.endTrial env g res) := by
  unfold Switching.endTrial
  dsimp only
  exact (((onlyGroup_modGroup g w (f := fun grp => { grp with trialResult := res, trialTimer := Option.none })
    (fun _ => rfl)).trans (onlyGroup_note env g _ _)).trans
    (onlyGroup_modGroup g _ (f := fun grp => { grp with external := Option.none }) (fun _ => rfl))).trans
    (onlyGroup_refresh env g _)

theorem onlyGroup_echoTest (env : SwEnv) (g : GroupId) (w : Switching) : OnlyGroup g w (w.echoTest env g) := by
  unfold Switching.echoTest
  split
  · exact .refl g w
  · split
    · exact onlyGroup_endTrial env g _ w
    · exact .refl g w

theorem onlyGroup_placeTrialRead (g : GroupId) (w : Switching) : OnlyGroup g w (w.placeTrialRead g) := by
  unfold Switching.placeTrialRead
  split
  · exact .refl g w
  · split
    · exact onlyGroup_place w rfl
    · exact .refl g w

theorem onlyGroup_step (env : SwEnv) (g : GroupId) (w : Switching) : OnlyGroup g w (w.step env g) := by
  unfold Switching.step
  split
  · exact .refl g w
  · split
    · exact .refl g w
    · exact (onlyGroup_place (g := g) w rfl).trans (onlyGroup_enter env g _ _)
    · dsimp only
      split
      · exact (onlyGroup_enter env g _ w).trans (onlyGroup_placeTrialRead g _)
      · exact onlyGroup_enter env g _ w

theorem onlyGroup_react (env : SwEnv) (g : GroupId) (old : Group) (w : Switching) : OnlyGroup g w (w.react env g old) := by
  unfold Switching.react
  dsimp only
  repeat' split
  all_goals first
    | exact .refl g w
    | exact onlyGroup_step env g w
    | exact (onlyGroup_dropOp g w).trans (onlyGroup_step env g _)
    | exact (((onlyGroup_setExternal g _ w).trans (onlyGroup_dropOp g _)).trans (onlyGroup_refresh env g _)).trans
        (onlyGroup_step env g _)

/-- Everything an event at a group can do. -/
theorem onlyGroup_event (env : SwEnv) (g : GroupId) {f : Switching → Switching} (w : Switching) (h : OnlyGroup g w (f w)) :
    OnlyGroup g w (w.event env g f) := by
  unfold Switching.event
  split
  · exact .refl g w
  · exact ((h.trans (onlyGroup_refresh env g _)).trans (onlyGroup_echoTest env g _)).trans (onlyGroup_react env g _ _)

theorem onlyGroup_memberEvent (env : SwEnv) (g : GroupId) (m : Nat) (a b : Condition) (w : Switching) :
    OnlyGroup g w (w.memberEvent env g m a b) := by
  unfold Switching.memberEvent
  refine onlyGroup_event env g w ?_
  split
  · exact .refl g w
  · next grp h =>
    split
    · exact onlyGroup_setGroup h rfl
    · exact .refl g w

theorem onlyGroup_clearExternal (env : SwEnv) (g : GroupId) (w : Switching) : OnlyGroup g w (w.clearExternal env g) := by
  unfold Switching.clearExternal
  split
  · exact .refl g w
  · next grp h =>
    split
    · split
      · exact onlyGroup_setGroup h rfl
      · exact .refl g w
    · split
      · exact (onlyGroup_setExternal g _ w).trans (onlyGroup_modGroup g _ (fun _ => rfl))
      · exact onlyGroup_setExternal g _ w

theorem onlyGroup_masterless (env : SwEnv) (g : GroupId) (w : Switching) : OnlyGroup g w (w.masterless env g) := by
  unfold Switching.masterless
  split
  · exact .refl g w
  · split
    · exact onlyGroup_event env g w (onlyGroup_clearExternal env g w)
    · exact .refl g w

theorem onlyGroup_stand (env : SwEnv) (g : GroupId) (st : GroupState) (w : Switching) : OnlyGroup g w (w.stand env g st) := by
  unfold Switching.stand
  refine OnlyGroup.trans ?_ ((onlyGroup_modGroup g _ (f := Group.dropStay) (fun _ => rfl)).trans
    ((onlyGroup_refresh env g _).trans (onlyGroup_enter env g st _)))
  split
  · split
    · exact onlyGroup_setExternal g _ w
    · exact .refl g w
  · exact .refl g w

theorem onlyGroup_selectorMoved (env : SwEnv) (g : GroupId) (pos : Option Nat) (w : Switching) :
    OnlyGroup g w (w.selectorMoved env g pos) := by
  unfold Switching.selectorMoved
  refine (onlyGroup_modGroup g w (fun x => ?_)).trans (onlyGroup_refresh env g _)
  split
  · split <;> rfl
  · rfl

theorem onlyGroup_adopt (env : SwEnv) (g : GroupId) (w : Switching) : OnlyGroup g w (w.adopt env g) := by
  unfold Switching.adopt
  split
  · exact .refl g w
  · exact (onlyGroup_enter env g _ w).trans (onlyGroup_place _ rfl)

theorem onlyGroup_adoptionEnd (env : SwEnv) (g : GroupId) (w : Switching) : OnlyGroup g w (w.adoptionEnd env g) := by
  unfold Switching.adoptionEnd
  split
  · exact .refl g w
  · split
    · exact .refl g w
    · split
      · exact (onlyGroup_enter env g _ w).trans (onlyGroup_step env g _)
      · refine (onlyGroup_enter env g _ w).trans ((onlyGroup_modGroup g _ (fun x => ?_)).trans
          ((onlyGroup_refresh env g _).trans (onlyGroup_step env g _)))
        split <;> rfl

theorem onlyGroup_judgeAdoption (env : SwEnv) (g : GroupId) (w : Switching) : OnlyGroup g w (w.judgeAdoption env g) := by
  unfold Switching.judgeAdoption
  split
  · exact .refl g w
  · split
    · exact onlyGroup_adoptionEnd env g w
    · exact onlyGroup_place w rfl

theorem onlyGroup_trialOutcome (env : SwEnv) (g : GroupId) (op : Op) (pass : Bool) (w : Switching) :
    OnlyGroup g w (w.trialOutcome env g op pass) := by
  unfold Switching.trialOutcome
  dsimp only
  refine OnlyGroup.trans ?_ (onlyGroup_step env g _)
  split
  · exact onlyGroup_endTrial env g _ w
  · exact .refl g w

theorem onlyGroup_succeed (env : SwEnv) (g : GroupId) (w : Switching) : OnlyGroup g w (w.succeed env g) := by
  unfold Switching.succeed
  repeat' split
  all_goals first
    | exact onlyGroup_dropOp g w
    | exact (onlyGroup_dropOp g w).trans (onlyGroup_trialOutcome env g _ _ _)
    | exact (onlyGroup_dropOp g w).trans (onlyGroup_step env g _)
    | exact (onlyGroup_dropOp g w).trans (onlyGroup_judgeAdoption env g _)
    | exact (onlyGroup_dropOp g w).trans (onlyGroup_adoptionEnd env g _)
    | exact (onlyGroup_dropOp g w).trans (onlyGroup_stand env g _ _)

end Sys2Proof.Machine
end

