-- ==== Sys2Proof/Laws/Bus.lean ====
section
/-! SUPPORT. The actuator controller keeps the records of groups and elements: for each of its functions, `SameRecords`. -/

namespace Sys2Proof.Machine

theorem SameRecords.refl (w : Switching) : SameRecords w w := ⟨fun _ => rfl, rfl⟩

theorem SameRecords.trans {u v w : Switching} (a : SameRecords u v) (b : SameRecords v w) : SameRecords u w :=
  ⟨fun g => (b.groups g).trans (a.groups g), b.elements.trans a.elements⟩

/-- Groups and elements untouched. -/
theorem SameRecords.of_eq {w v : Switching} (hg : v.groups = w.groups) (he : v.elements = w.elements) : SameRecords w v :=
  ⟨fun g => by rw [hg], by rw [he]⟩

/-- Elements changed in what is no part of their records. -/
theorem sameRecords_mapElements (w : Switching) {f : Element → Element}
    (h : ∀ el, (f el).address = el.address ∧ (f el).role = el.role ∧ (f el).group = el.group) :
    SameRecords w { w with elements := w.elements.map f } :=
  ⟨fun _ => rfl, by
    show (w.elements.map f).map (fun el => (el.address, el.role, el.group)) = _
    rw [List.map_map]
    apply List.map_congr_left
    intro el _
    simp [(h el).1, (h el).2.1, (h el).2.2]⟩

theorem sameRecords_modElement (w : Switching) (a : Nat) {f : Element → Element}
    (h : ∀ el, (f el).address = el.address ∧ (f el).role = el.role ∧ (f el).group = el.group) :
    SameRecords w (w.modElement a f) :=
  sameRecords_mapElements w fun el => by split <;> simp [h el]

theorem sameRecords_modOp (w : Switching) (g : GroupId) (f : Op → Op) : SameRecords w (w.modOp g f) := .of_eq rfl rfl

theorem sameRecords_close (now : Nat) (ok : Bool) (w : Switching) : SameRecords w (w.close now ok) := .of_eq rfl rfl

theorem sameRecords_rests (a : Nat) (w : Switching) : SameRecords w (w.rests a) :=
  sameRecords_modElement w a fun _ => ⟨rfl, rfl, rfl⟩

theorem sameRecords_moves (now a : Nat) (w : Switching) : SameRecords w (w.moves now a) :=
  sameRecords_modElement w a fun _ => ⟨rfl, rfl, rfl⟩

theorem sameRecords_setKnown (env : SwEnv) (a : Nat) (pos : Option Nat) (w : Switching) :
    SameRecords w (w.setKnown env a pos) := by
  unfold Switching.setKnown
  dsimp only
  repeat' split
  all_goals with_reducible repeat first
    | exact .refl _
    | refine .trans ?_ ((onlyGroup_selectorMoved _ _ _ _).sameRecords)
    | refine .trans ?_ (sameRecords_modElement _ _ ?_)
    | exact fun _ => ⟨rfl, rfl, rfl⟩

theorem sameRecords_recover (env : SwEnv) (g : GroupId) (a : Nat) (w : Switching) : SameRecords w (w.recover env g a) := by
  unfold Switching.recover
  split
  · exact ((onlyGroup_enter env g _ w).trans (onlyGroup_place (g := g) _ rfl)).sameRecords
  · exact (sameRecords_setKnown env a _ w).trans (onlyGroup_stand env g _ _).sameRecords

theorem sameRecords_forget (env : SwEnv) (as : List Nat) (w : Switching) :
    SameRecords w (as.foldl (fun w a => w.setKnown env a Option.none) w) := by
  induction as generalizing w with
  | nil => exact .refl w
  | cons a as ih => exact (sameRecords_setKnown env a _ w).trans (ih _)

theorem sameRecords_failOp (env : SwEnv) (g : GroupId) (a : Nat) (w : Switching) : SameRecords w (w.failOp env g a) := by
  have drop : SameRecords w (w.dropOp g) := .of_eq rfl rfl
  have known := fun v : Switching => sameRecords_setKnown env a Option.none v
  have halts := fun v : Switching => (onlyGroup_stand env g .halted v).sameRecords
  unfold Switching.failOp
  cases w.groups[g] with
  | none => exact drop
  | some grp =>
    cases w.opOf g with
    | none => exact drop
    | some op =>
      have h : SameRecords w { w.dropOp g with settleFail := addFailure g w.settleFail } := .of_eq rfl rfl
      refine h.trans ?_
      dsimp only
      generalize ({ w.dropOp g with settleFail := addFailure g w.settleFail } : Switching) = v
      by_cases hm : grp.state = .maint
      · rw [if_pos hm]
        cases op.kind with
        | read _ _ => exact sameRecords_forget env _ v
        | move _ _ => exact known v
        | paired _ _ _ _ => exact known v
      · rw [if_neg hm]
        cases op.cls with
        | protection =>
          cases op.kind with
          | read _ _ =>
            dsimp only
            split
            · exact (onlyGroup_trialOutcome env g op false v).sameRecords
            · exact .refl v
          | move _ _ => exact sameRecords_recover env g a v
          | paired _ _ _ _ => exact sameRecords_recover env g a v
        | adopt =>
          cases op.kind with
          | read _ _ => exact halts v
          | move _ _ => exact (known v).trans (halts _)
          | paired _ _ _ _ => exact (known v).trans (halts _)
        | recovery => exact (known v).trans (halts _)
        | maintenance => exact known v

theorem sameRecords_begin (now : Nat) (c : Choice) (w : Switching) : SameRecords w (w.begin now c) := by
  unfold Switching.begin
  dsimp only
  split
  · exact (sameRecords_modElement w _ (f := fun el => { el with moving := el.moving.map fun m => { m with poll := .onBus } })
      fun _ => ⟨rfl, rfl, rfl⟩).trans (.of_eq rfl rfl)
  · exact .of_eq rfl rfl

theorem sameRecords_readOn (env : SwEnv) (g : GroupId) (w : Switching) : SameRecords w (w.readOn env g) := by
  unfold Switching.readOn
  repeat' split
  all_goals first
    | exact .refl w
    | exact sameRecords_modOp w g _
    | exact (onlyGroup_succeed env g w).sameRecords
    | exact sameRecords_failOp env g _ w

theorem sameRecords_moveOn (env : SwEnv) (g : GroupId) (a : Nat) (w : Switching) : SameRecords w (w.moveOn env g a) := by
  unfold Switching.moveOn
  repeat' split
  all_goals first
    | exact .refl w
    | exact sameRecords_modOp w g _
    | exact (sameRecords_modOp w g _).trans (sameRecords_moves env.now _ _)
    | exact (onlyGroup_succeed env g w).sameRecords

theorem sameRecords_onPosition (env : SwEnv) (run : AnswerRun) (frame : List Byte) (pos cap partner : Byte) (w : Switching) :
    SameRecords w (w.onPosition env run frame pos cap partner) := by
  unfold Switching.onPosition
  dsimp only
  repeat' split
  all_goals with_reducible repeat first
    | exact .refl _
    | refine .trans ?_ (sameRecords_readOn _ _ _)
    | refine .trans ?_ (sameRecords_modOp _ _ _)
    | refine .trans ?_ (sameRecords_setKnown _ _ _ _)
    | refine .trans ?_ (sameRecords_modElement _ _ ?_)
    | refine .trans ?_ (sameRecords_close _ _ _)
    | exact fun _ => ⟨rfl, rfl, rfl⟩

theorem sameRecords_onAccepted (env : SwEnv) (run : AnswerRun) (frame : List Byte) (w : Switching) : SameRecords w (w.onAccepted env run frame) := by
  unfold Switching.onAccepted
  dsimp only
  repeat' split
  all_goals with_reducible repeat first
    | exact .refl _
    | refine .trans ?_ (sameRecords_moves _ _ _)
    | refine .trans ?_ (sameRecords_close _ _ _)

theorem sameRecords_onRefused (env : SwEnv) (run : AnswerRun) (frame : List Byte) (fault : Byte) (w : Switching) :
    SameRecords w (w.onRefused env run frame fault) := by
  unfold Switching.onRefused
  dsimp only
  repeat' split
  all_goals with_reducible repeat first
    | exact .refl _
    | refine .trans ?_ (sameRecords_failOp _ _ _ _)
    | refine .trans ?_ (sameRecords_rests _ _)
    | refine .trans ?_ (sameRecords_modElement _ _ ?_)
    | refine .trans ?_ (sameRecords_close _ _ _)
    | exact fun _ => ⟨rfl, rfl, rfl⟩

theorem sameRecords_onSingleOnly (env : SwEnv) (run : AnswerRun) (frame : List Byte) (w : Switching) :
    SameRecords w (w.onSingleOnly env run frame) := by
  unfold Switching.onSingleOnly
  dsimp only
  repeat' split
  all_goals with_reducible repeat first
    | exact .refl _
    | refine .trans ?_ (sameRecords_modOp _ _ _)
    | refine .trans ?_ (sameRecords_mapElements _ ?_)
    | refine .trans ?_ (sameRecords_close _ _ _)
    | exact fun _ => ⟨rfl, rfl, rfl⟩
  all_goals
    intro el
    split <;> exact ⟨rfl, rfl, rfl⟩

theorem sameRecords_onMoving (env : SwEnv) (run : AnswerRun) (frame : List Byte) (w : Switching) : SameRecords w (w.onMoving env run frame) := by
  unfold Switching.onMoving
  dsimp only
  repeat' split
  all_goals with_reducible repeat first
    | exact .refl _
    | refine .trans ?_ (sameRecords_modElement _ _ ?_)
    | refine .trans ?_ (sameRecords_close _ _ _)
    | exact fun _ => ⟨rfl, rfl, rfl⟩

theorem sameRecords_onSettled (env : SwEnv) (run : AnswerRun) (frame : List Byte) (pos : Byte) (w : Switching) :
    SameRecords w (w.onSettled env run frame pos) := by
  unfold Switching.onSettled
  dsimp only
  repeat' split
  all_goals with_reducible repeat first
    | exact .refl _
    | refine .trans ?_ (sameRecords_moveOn _ _ _ _)
    | refine .trans ?_ (sameRecords_failOp _ _ _ _)
    | refine .trans ?_ (sameRecords_setKnown _ _ _ _)
    | refine .trans ?_ (sameRecords_rests _ _)
    | refine .trans ?_ (sameRecords_close _ _ _)

theorem sameRecords_answerFailure (env : SwEnv) (t : Transaction) (w : Switching) : SameRecords w (w.answerFailure env t) := by
  unfold Switching.answerFailure
  dsimp only
  repeat' split
  all_goals with_reducible repeat first
    | exact .refl _
    | refine .trans ?_ (sameRecords_readOn _ _ _)
    | refine .trans ?_ (sameRecords_failOp _ _ _ _)
    | refine .trans ?_ (sameRecords_rests _ _)
    | refine .trans ?_ (sameRecords_setKnown _ _ _ _)
    | refine .trans ?_ (sameRecords_modOp _ _ _)
    | refine .trans ?_ (sameRecords_close _ _ _)

theorem sameRecords_onAnswerTimeout (env : SwEnv) (w : Switching) : SameRecords w (w.onAnswerTimeout env) := by
  unfold Switching.onAnswerTimeout
  repeat' split
  all_goals first
    | exact .refl w
    | exact .of_eq rfl rfl
    | exact sameRecords_answerFailure env _ w

theorem sameRecords_onRepeat (now : Nat) (w : Switching) : SameRecords w (w.onRepeat now) := by
  unfold Switching.onRepeat
  repeat' split
  all_goals first
    | exact .refl w
    | exact .of_eq rfl rfl

theorem sameRecords_onPollDue (a : Nat) (w : Switching) : SameRecords w (w.onPollDue a) :=
  sameRecords_modElement w a fun _ => ⟨rfl, rfl, rfl⟩

theorem sameRecords_arbitrate (w : Switching) : SameRecords w w.arbitrate := .of_eq (by simp) (by simp)

theorem sameRecords_onMoveTimeout (env : SwEnv) (a : Nat) (w : Switching) : SameRecords w (w.onMoveTimeout env a) := by
  unfold Switching.onMoveTimeout
  have h : SameRecords w (w.abandonPoll env.now a) := by
    unfold Switching.abandonPoll
    repeat' split
    all_goals first
      | exact .refl w
      | exact .of_eq rfl rfl
  repeat' split
  all_goals first
    | exact .refl w
    | exact (h.trans (sameRecords_rests a _)).trans (sameRecords_failOp env _ a _)

theorem sameRecords_enterMaint (env : SwEnv) (g : GroupId) (w : Switching) : SameRecords w (w.enterMaint env g) :=
  ((onlyGroup_withdraw g w).trans (onlyGroup_stand env g _ _)).sameRecords

theorem sameRecords_leaveMaint (env : SwEnv) (g : GroupId) (w : Switching) : SameRecords w (w.leaveMaint env g) :=
  ((onlyGroup_withdraw g w).trans (onlyGroup_adopt env g _)).sameRecords

end Sys2Proof.Machine
end

