-- ==== Sys2Proof/Laws/Queue.lean ====
section
/-! SUPPORT. The move queue keeps its law: for each function of the switching block, `QueueInv`. -/

namespace Sys2Proof.Machine

/-! ### Changes that leave the queue alone -/

/-- The group engines' states, the move queue, the bus and the arbiter's choice stand as they were. -/
structure QueueSame (w v : Switching) : Prop where
  states : ∀ g : GroupId, v.groups[g].map (·.state) = w.groups[g].map (·.state)
  queue : v.queue = w.queue
  bus : v.bus = w.bus
  chosen : v.chosen = w.chosen

theorem QueueSame.refl (w : Switching) : QueueSame w w := ⟨fun _ => rfl, rfl, rfl, rfl⟩

theorem QueueSame.trans {u v w : Switching} (a : QueueSame u v) (b : QueueSame v w) : QueueSame u w :=
  ⟨fun g => (b.states g).trans (a.states g), b.queue.trans a.queue, b.bus.trans a.bus, b.chosen.trans a.chosen⟩

/-- A group that is there before is there after, in its state. -/
theorem QueueSame.group {w v : Switching} (h : QueueSame w v) {g : GroupId} {grp : Group} (hg : w.groups[g] = some grp) :
    ∃ new, v.groups[g] = some new ∧ new.state = grp.state := by
  have := h.states g
  rw [hg] at this
  cases hv : v.groups[g] with
  | none => rw [hv] at this; cases this
  | some new => rw [hv] at this; exact ⟨new, rfl, by simpa using this⟩

theorem QueueSame.group_back {w v : Switching} (h : QueueSame w v) {g : GroupId} {grp : Group} (hg : v.groups[g] = some grp) :
    ∃ old, w.groups[g] = some old ∧ grp.state = old.state := by
  have := h.states g
  rw [hg] at this
  cases hv : w.groups[g] with
  | none => rw [hv] at this; cases this
  | some old => rw [hv] at this; exact ⟨old, rfl, by simpa using this⟩

theorem QueueSame.opOf {w v : Switching} (h : QueueSame w v) (g : GroupId) : v.opOf g = w.opOf g := by
  unfold Switching.opOf
  rw [h.queue]

theorem QueueSame.inv {w v : Switching} (h : QueueSame w v) (i : QueueInv w) : QueueInv v where
  once := h.queue ▸ i.once
  owned := by
    intro op hop
    rw [h.queue] at hop
    obtain ⟨grp, hg, a, b⟩ := i.owned op hop
    obtain ⟨new, hn, e⟩ := h.group hg
    exact ⟨new, hn, e ▸ a, e ▸ b⟩
  entries := h.queue ▸ i.entries
  maintenance := h.queue ▸ i.maintenance
  order := h.queue ▸ i.order
  choice := by rw [h.bus, h.chosen]; exact i.choice

/-- Groups, move queue, bus and choice untouched. -/
theorem QueueSame.of_eq {w v : Switching} (hg : v.groups = w.groups) (hq : v.queue = w.queue) (hb : v.bus = w.bus)
    (hc : v.chosen = w.chosen) : QueueSame w v := ⟨fun g => by rw [hg], hq, hb, hc⟩

theorem queueSame_setGroup {g : GroupId} {w : Switching} {old new : Group} (h : w.groups[g] = some old)
    (e : new.state = old.state) : QueueSame w (w.setGroup g new) :=
  ⟨fun k => by
    by_cases hk : k = g
    · subst hk; simp only [Switching.setGroup_groups, set_get_self, h, Option.map_some, e]
    · rw [Switching.setGroup_groups, set_get_other _ hk], rfl, rfl, rfl⟩

theorem queueSame_modGroup (g : GroupId) (w : Switching) {f : Group → Group} (e : ∀ x, (f x).state = x.state) :
    QueueSame w (w.modGroup g f) :=
  ⟨fun k => by
    by_cases hk : k = g
    · subst hk
      simp only [Switching.modGroup_groups, upd_get_self, Option.map_map]
      congr 1
      funext x
      exact e x
    · rw [Switching.modGroup_groups, upd_get_other _ hk], rfl, rfl, rfl⟩

theorem queueSame_note (env : SwEnv) (g : GroupId) (st : Option GroupState) (w : Switching) : QueueSame w (w.note env g st) := by
  unfold Switching.note
  split
  · exact .refl w
  · split
    · exact .of_eq rfl rfl rfl rfl
    · exact .refl w

theorem queueSame_refresh (env : SwEnv) (g : GroupId) (w : Switching) : QueueSame w (w.refresh env g) := by
  unfold Switching.refresh
  split
  · exact .refl w
  · next grp h => exact queueSame_setGroup h (by simp)

theorem queueSame_endTrial (env : SwEnv) (g : GroupId) (res : TrialResult) (w : Switching) :
    QueueSame w (w.endTrial env g res) := by
  unfold Switching.endTrial
  dsimp only
  exact (((queueSame_modGroup g w (f := fun grp => { grp with trialResult := res, trialTimer := Option.none })
    (fun _ => rfl)).trans (queueSame_note env g _ _)).trans
    (queueSame_modGroup g _ (f := fun grp => { grp with external := Option.none }) (fun _ => rfl))).trans
    (queueSame_refresh env g _)

theorem queueSame_echoTest (env : SwEnv) (g : GroupId) (w : Switching) : QueueSame w (w.echoTest env g) := by
  unfold Switching.echoTest
  split
  · exact .refl w
  · split
    · exact queueSame_endTrial env g _ w
    · exact .refl w

theorem queueSame_selectorMoved (env : SwEnv) (g : GroupId) (pos : Option Nat) (w : Switching) :
    QueueSame w (w.selectorMoved env g pos) := by
  refine (queueSame_modGroup g w fun x => ?_).trans (queueSame_refresh env g _)
  split
  · split <;> rfl
  · rfl

theorem queueSame_modElement (a : Nat) (f : Element → Element) (w : Switching) : QueueSame w (w.modElement a f) :=
  .of_eq rfl rfl rfl rfl

theorem queueSame_setKnown (env : SwEnv) (a : Nat) (pos : Option Nat) (w : Switching) : QueueSame w (w.setKnown env a pos) := by
  unfold Switching.setKnown
  split
  · exact .refl w
  · dsimp only
    split
    · exact (queueSame_modElement a _ w).trans (queueSame_selectorMoved env _ pos _)
    · exact queueSame_modElement a _ w

theorem queueSame_forget (env : SwEnv) (as : List Nat) (w : Switching) :
    QueueSame w (as.foldl (fun w a => w.setKnown env a Option.none) w) := by
  induction as generalizing w with
  | nil => exact .refl w
  | cons a as ih => exact (queueSame_setKnown env a _ w).trans (ih _)

/-! ### Changes of the queue -/

theorem groups_at {groups : Vector (Option Group) 12} {g h : GroupId} (e : g = h) : groups[g] = groups[h] := by rw [e]

theorem opOf_eq_none {w : Switching} {g : GroupId} : w.opOf g = none ↔ ∀ op ∈ w.queue, op.group ≠ g := by
  simp [Switching.opOf]

theorem opOf_some {w : Switching} {g : GroupId} {op : Op} (h : w.opOf g = some op) : op ∈ w.queue ∧ op.group = g :=
  ⟨List.mem_of_find?_eq_some h, by simpa using List.find?_some h⟩

/-- Entries of distinct groups are at most 16. -/
theorem entries_of_once {queue : List Op} (h : (queue.map (·.group)).Nodup) : queue.length ≤ 16 := by
  have := h.length_le_card
  simp only [List.length_map, Fintype.card_fin] at this
  omega

theorem QueueInv.keepOps {w : Switching} (i : QueueInv w) (p : Op → Bool) : QueueInv (w.keepOps p) where
  once := i.once.sublist (List.filter_sublist.map _)
  owned := fun op h => i.owned op (List.mem_filter.mp h).1
  entries := (List.length_filter_le ..).trans i.entries
  maintenance := (List.filter_sublist.countP_le).trans i.maintenance
  order := i.order.sublist List.filter_sublist
  choice := fun h => by simp only [Switching.keepOps, i.choice h]; rfl

theorem QueueInv.dropOp {w : Switching} (i : QueueInv w) (g : GroupId) : QueueInv (w.dropOp g) := i.keepOps _

/-- The group's entry leaves, and the arbiter's choice with it (R100). -/
theorem dropOp_eq {w : Switching} {g : GroupId} {op : Op} (h : w.opOf g = some op) : w.dropOp g = { w with
    queue := w.queue.filter fun op => decide (op.group ≠ g), chosen := w.chosen.filter fun c => decide (c.owner ≠ g) } := by
  have hc : (w.chosen.filter fun c => (w.opOf c.owner).all fun op => decide (op.group ≠ g)) =
      w.chosen.filter fun c => decide (c.owner ≠ g) := by
    congr 1
    funext c
    by_cases e : c.owner = g
    · simp [e, h, (opOf_some h).2]
    · cases ho : w.opOf c.owner with
      | none => simp [e]
      | some o => simp [e, (opOf_some ho).2]
  unfold Switching.dropOp Switching.keepOps
  rw [hc]

theorem dropOp_opOf (w : Switching) (g : GroupId) : (w.dropOp g).opOf g = none := by
  rw [opOf_eq_none]
  intro op h
  simpa using (List.mem_filter.mp h).2

/-- An entry changed in what leaves it its group and its class, and in flight if it was. -/
theorem QueueInv.modOp {w : Switching} (i : QueueInv w) (g : GroupId) {f : Op → Op}
    (h : ∀ op, (f op).group = op.group ∧ (f op).cls = op.cls ∧ (op.inFlight = true → (f op).inFlight = true)) :
    QueueInv (w.modOp g f) := by
  let k := fun op : Op => if op.group = g then f op else op
  have hk : ∀ op, (k op).group = op.group ∧ (k op).cls = op.cls ∧ (op.inFlight = true → (k op).inFlight = true) := by
    intro op
    dsimp only [k]
    split
    · exact h op
    · exact ⟨rfl, rfl, id⟩
  have hq : (w.modOp g f).queue = w.queue.map k := rfl
  refine ⟨?_, ?_, ?_, ?_, ?_, i.choice⟩
  · rw [hq, List.map_map, show (fun op : Op => op.group) ∘ k = fun op => op.group from funext fun op => (hk op).1]
    exact i.once
  · intro op hop
    rw [hq] at hop
    obtain ⟨op', h', rfl⟩ := List.mem_map.mp hop
    obtain ⟨grp, hg, a⟩ := i.owned op' h'
    exact ⟨grp, (groups_at (hk op').1).trans hg, a⟩
  · rw [hq, List.length_map]; exact i.entries
  · rw [hq, List.countP_map,
      show (fun op : Op => decide (op.cls = .maintenance)) ∘ k = fun op => decide (op.cls = .maintenance) from
        funext fun op => by simp [(hk op).2.1]]
    exact i.maintenance
  · rw [hq, List.pairwise_map]
    refine i.order.imp fun {x y} hxy => ?_
    rw [(hk x).2.1, (hk y).2.1]
    rintro ⟨hc, hx, hd, hy⟩
    refine hxy ⟨hc, ?_, hd, ?_⟩
    · by_contra e
      rw [(hk x).2.2 (by simpa using e)] at hx
      cases hx
    · by_contra e
      rw [(hk y).2.2 (by simpa using e)] at hy
      cases hy

/-- What an entry placed keeps of the order and adds to the counts. -/
theorem placeOp_law {queue : List Op} (op : Op) (order : queue.Pairwise fun x y =>
      ¬ (x.cls = .maintenance ∧ x.inFlight = false ∧ y.cls ≠ .maintenance ∧ y.inFlight = false)) :
    ((placeOp queue op).Pairwise fun x y =>
      ¬ (x.cls = .maintenance ∧ x.inFlight = false ∧ y.cls ≠ .maintenance ∧ y.inFlight = false))
    ∧ (placeOp queue op).Perm (op :: queue) := by
  unfold placeOp
  split
  · next h =>
    refine ⟨?_, List.perm_append_singleton op queue⟩
    rw [List.pairwise_append]
    exact ⟨order, List.pairwise_singleton .., fun x _ y hy => by
      rw [List.mem_singleton] at hy
      subst hy
      exact fun e => e.2.2.1 h⟩
  · next h =>
    have split := List.takeWhile_append_dropWhile (p := fun o : Op => !o.waitsLast) (l := queue)
    refine ⟨?_, ?_⟩
    · rw [List.pairwise_append, List.pairwise_cons]
      rw [← split, List.pairwise_append] at order
      refine ⟨order.1, ⟨fun y _ e => h e.1, order.2.1⟩, fun x hx y hy => ?_⟩
      rcases List.mem_cons.mp hy with rfl | hy
      · intro e
        have := List.mem_takeWhile_imp hx
        simp [Op.waitsLast, e.1, e.2.1] at this
      · exact order.2.2 x hx y hy
    · refine List.perm_middle.trans ?_
      rw [split]

/-- An entry placed for a group that has none. -/
theorem QueueInv.place {w : Switching} (i : QueueInv w) {op : Op} (free : w.opOf op.group = none)
    (count : op.cls = .maintenance → w.queue.countP (fun op => decide (op.cls = .maintenance)) < 4)
    (owned : ∃ grp, w.groups[op.group] = some grp ∧ grp.state ≠ .frozen ∧ grp.state ≠ .halted) : QueueInv (w.place op) := by
  have law := placeOp_law op i.order
  have once : ((w.place op).queue.map (·.group)).Nodup := by
    rw [Switching.place_queue, (law.2.map _).nodup_iff, List.map_cons, List.nodup_cons]
    refine ⟨?_, i.once⟩
    intro h
    obtain ⟨o, ho, e⟩ := List.mem_map.mp h
    exact opOf_eq_none.mp free o ho e
  refine ⟨once, ?_, entries_of_once once, ?_, law.1, i.choice⟩
  · intro o ho
    rw [Switching.place_queue, law.2.mem_iff, List.mem_cons] at ho
    rcases ho with rfl | ho
    · exact owned
    · exact i.owned o ho
  · rw [Switching.place_queue, law.2.countP_eq, List.countP_cons]
    have := i.maintenance
    split
    · next h => have := count (by simpa using h); omega
    · exact this

/-- A group enters a state; FROZEN and HALTED take a group that has no entry. -/
theorem QueueInv.enter {w : Switching} (i : QueueInv w) (env : SwEnv) (g : GroupId) {st : GroupState}
    (h : (st ≠ .frozen ∧ st ≠ .halted) ∨ w.opOf g = none) : QueueInv (w.enter env g st) := by
  unfold Switching.enter
  split
  · exact i
  · next grp hg =>
    split
    · exact i
    · refine (queueSame_note env g _ _).inv ⟨i.once, ?_, i.entries, i.maintenance, i.order, i.choice⟩
      intro op hop
      rw [Switching.setGroup_queue] at hop
      by_cases e : op.group = g
      · rcases h with h | h
        · exact ⟨_, (groups_at e).trans (by rw [Switching.setGroup_groups, set_get_self]), h⟩
        · exact absurd e (opOf_eq_none.mp h op hop)
      · obtain ⟨x, hx, a⟩ := i.owned op hop
        exact ⟨x, by rw [Switching.setGroup_groups, set_get_other _ e]; exact hx, a⟩

theorem enter_opOf (env : SwEnv) (g h : GroupId) (st : GroupState) (w : Switching) : (w.enter env g st).opOf h = w.opOf h := by
  unfold Switching.opOf
  rw [Switching.enter_queue]

/-! ### The group engine -/

theorem QueueInv.setExternal {w : Switching} (i : QueueInv w) (g : GroupId) (ext : Option Request) :
    QueueInv (w.setExternal g ext) := by
  refine (queueSame_modGroup g _ (f := fun grp => { grp with external := ext }) fun _ => rfl).inv
    (QueueInv.modOp (QueueInv.keepOps ?_ _) g fun op => ?_)
  · exact (queueSame_modGroup g w fun x => by split <;> rfl).inv i
  · split <;> exact ⟨rfl, rfl, id⟩

theorem setExternal_state {g : GroupId} {ext : Option Request} {w : Switching} {x : Group}
    (h : (w.setExternal g ext).groups[g] = some x) : ∃ y, w.groups[g] = some y ∧ x.state = y.state := by
  simp only [Switching.setExternal, Switching.stopTrial, Switching.modOp_groups, Switching.keepOps_groups,
    Switching.modGroup_groups, upd_get_self] at h
  cases hw : w.groups[g] with
  | none => rw [hw] at h; cases h
  | some y =>
    rw [hw] at h
    simp only [Option.map_some, Option.some.injEq] at h
    refine ⟨y, rfl, ?_⟩
    rw [← h]
    split <;> rfl

theorem QueueInv.placeTrialRead {w : Switching} (i : QueueInv w) (g : GroupId) : QueueInv (w.placeTrialRead g) := by
  unfold Switching.placeTrialRead
  split
  · exact i
  · next grp hg =>
    split
    · next h =>
      have hi : grp.state = .idle := h.2.2.1
      exact i.place (by simpa [Op.new] using h.2.2.2) (fun e => by cases e) ⟨grp, hg, by simp [hi]⟩
    · exact i

/-- No row of a table leads to FROZEN or HALTED. -/
theorem stepRow_state {w : Switching} {grp : Group} {k : Option OpKind} {st : GroupState} (h : w.stepRow grp = some (k, st)) :
    st ≠ .frozen ∧ st ≠ .halted := by
  unfold Switching.stepRow at h
  dsimp only at h
  repeat' split at h
  all_goals first
    | (simp only [Option.some.injEq, Prod.mk.injEq] at h; obtain ⟨_, rfl⟩ := h; exact ⟨by decide, by decide⟩)
    | cases h

/-- A step of a group that has no entry and is neither FROZEN nor HALTED. -/
theorem QueueInv.step {w : Switching} (i : QueueInv w) (env : SwEnv) {g : GroupId} (free : w.opOf g = none)
    (acts : ∀ grp, w.groups[g] = some grp → grp.state ≠ .frozen ∧ grp.state ≠ .halted) : QueueInv (w.step env g) := by
  unfold Switching.step
  split
  · exact i
  · next grp hg =>
    split
    · exact i
    · next kind st h =>
      exact (i.place (op := .new .protection kind g) free (fun e => by cases e) ⟨grp, hg, acts grp hg⟩).enter env g
        (.inl (stepRow_state h))
    · next st h =>
      have := i.enter env g (.inl (stepRow_state h))
      dsimp only
      split
      · exact this.placeTrialRead g
      · exact this

theorem QueueInv.react {w : Switching} (i : QueueInv w) (env : SwEnv) (g : GroupId) (old : Group) :
    QueueInv (w.react env g old) := by
  unfold Switching.react
  split
  · exact i
  · next grp hg =>
    have acts : ∀ x, w.groups[g] = some x → grp.state ≠ .frozen ∧ grp.state ≠ .halted →
        x.state ≠ .frozen ∧ x.state ≠ .halted := by
      intro x hx h
      rw [hg] at hx
      cases hx
      exact h
    dsimp only
    split
    all_goals first | exact i | skip
    all_goals
      next st =>
      have hs : grp.state ≠ .frozen ∧ grp.state ≠ .halted := by rw [st]; exact ⟨by decide, by decide⟩
      split
      · split
        · first
            | exact (i.dropOp g).step env (dropOp_opOf w g) fun x hx => acts x hx hs
            | (have same := queueSame_refresh env g ((w.setExternal g Option.none).dropOp g)
               refine (same.inv ((i.setExternal g _).dropOp g)).step env ?_ fun x hx => ?_
               · rw [same.opOf]; exact dropOp_opOf _ g
               · obtain ⟨y, hy, e⟩ := same.group_back hx
                 rw [e]
                 obtain ⟨z, hz, e'⟩ := setExternal_state hy
                 rw [e']
                 exact acts z hz hs)
        · exact i
      · next free =>
        first
          | exact i
          | (split
             · exact i.step env free fun x hx => acts x hx hs
             · exact i)

/-- An event at a group, where what the event changes keeps the law. -/
theorem QueueInv.event {w : Switching} (i : QueueInv w) (env : SwEnv) (g : GroupId) {f : Switching → Switching}
    (h : QueueInv (f w)) : QueueInv (w.event env g f) := by
  unfold Switching.event
  split
  · exact i
  · exact (((queueSame_refresh env g _).trans (queueSame_echoTest env g _)).inv h).react env g _

theorem QueueInv.memberEvent {w : Switching} (i : QueueInv w) (env : SwEnv) (g : GroupId) (m : Nat) (a b : Condition) :
    QueueInv (w.memberEvent env g m a b) := by
  refine i.event env g ?_
  split
  · exact i
  · next grp h =>
    split
    · exact (queueSame_setGroup (new := grp.takeStay env.now m) h rfl).inv i
    · exact i

theorem QueueInv.clearExternal {w : Switching} (i : QueueInv w) (env : SwEnv) (g : GroupId) :
    QueueInv (w.clearExternal env g) := by
  unfold Switching.clearExternal
  split
  · exact i
  · next grp h =>
    split
    · split
      · exact (queueSame_setGroup (new := grp.dropStay) h rfl).inv i
      · exact i
    · split
      · next x _ => exact (queueSame_modGroup g _ (f := fun grp => { grp with stay := some x, restoreTimer := Option.none })
          fun _ => rfl).inv (i.setExternal g _)
      · exact i.setExternal g _

theorem QueueInv.masterless {w : Switching} (i : QueueInv w) (env : SwEnv) (g : GroupId) : QueueInv (w.masterless env g) := by
  unfold Switching.masterless
  split
  · exact i
  · split
    · exact i.event env g (i.clearExternal env g)
    · exact i

theorem QueueInv.accept {w : Switching} (i : QueueInv w) (env : SwEnv) (g : GroupId) (r : Request) :
    QueueInv (w.accept env g r) := by
  unfold Switching.accept
  split
  · exact (i.event env g ((queueSame_modGroup g _ (f := Group.startTrial env.now) fun _ => rfl).inv
      (i.setExternal g _))).placeTrialRead g
  · exact i.event env g (i.setExternal g _)

/-- Entry to MAINT, or, for a group that has no entry, to FROZEN or HALTED. -/
theorem QueueInv.stand {w : Switching} (i : QueueInv w) (env : SwEnv) (g : GroupId) {st : GroupState}
    (h : (st ≠ .frozen ∧ st ≠ .halted) ∨ w.opOf g = none) : QueueInv (w.stand env g st) := by
  have key : ∀ v : Switching, QueueInv v → (w.opOf g = none → v.opOf g = none) →
      QueueInv (((v.modGroup g Group.dropStay).refresh env g).enter env g st) := fun v hi ho =>
    have same := (queueSame_modGroup g v (f := Group.dropStay) fun _ => rfl).trans (queueSame_refresh env g _)
    (same.inv hi).enter env g (h.imp id fun free => (same.opOf g).trans (ho free))
  have external : w.opOf g = none → (w.setExternal g none).opOf g = none := fun free => by
    rw [opOf_eq_none] at free ⊢
    intro op hop
    have hop : op ∈ ((w.queue.filter _).map _ : List Op) := hop
    obtain ⟨o, h1, h2⟩ := List.mem_map.mp hop
    have := free o (List.mem_filter.mp h1).1
    rw [if_neg this] at h2
    exact h2 ▸ this
  unfold Switching.stand
  dsimp only
  cases w.groups[g] with
  | none => exact key w i id
  | some grp =>
    dsimp only
    split
    · exact key _ (i.setExternal g _) external
    · exact key w i id

/-- A group that has no entry enters ADOPTING. -/
theorem QueueInv.adopt {w : Switching} (i : QueueInv w) (env : SwEnv) {g : GroupId} (free : w.opOf g = none) :
    QueueInv (w.adopt env g) := by
  unfold Switching.adopt
  split
  · exact i
  · next grp hg =>
    have hi := i.enter env g (st := .adopting) (.inl ⟨by decide, by decide⟩)
    refine hi.place (op := .new .adopt _ g) (by rw [enter_opOf]; exact free) (fun e => by cases e) ?_
    show ∃ x, (w.enter env g .adopting).groups[g] = some x ∧ _
    unfold Switching.enter
    rw [hg]
    dsimp only
    split
    · next e => exact ⟨grp, hg, by simp [e]⟩
    · have same := queueSame_note env g (some .adopting) (w.setGroup g { grp with
        state := .adopting, awaitTimer := if GroupState.adopting = .awaitFar then some (env.now + 2000000) else Option.none
        farBridgeTimeout := false })
      obtain ⟨x, hx, e⟩ := same.group (set_get_self w.groups g _)
      exact ⟨x, hx, by rw [e]; exact ⟨GroupState.noConfusion, GroupState.noConfusion⟩⟩

/-- What a group acts by is neither FROZEN nor HALTED after it has entered another state. -/
theorem enter_acts {env : SwEnv} {g : GroupId} {st : GroupState} {w : Switching} {x : Group} (hs : st ≠ .frozen ∧ st ≠ .halted)
    (h : (w.enter env g st).groups[g] = some x) : x.state ≠ .frozen ∧ x.state ≠ .halted := by
  unfold Switching.enter at h
  split at h
  · next e => rw [e] at h; cases h
  · next grp hg =>
    split at h
    · next e => rw [hg] at h; cases h; exact e ▸ hs
    · obtain ⟨y, hy, e⟩ := (queueSame_note env g _ _).group_back h
      rw [Switching.setGroup_groups, set_get_self] at hy
      cases hy
      rw [e]
      exact hs

theorem QueueInv.adoptionEnd {w : Switching} (i : QueueInv w) (env : SwEnv) {g : GroupId} (free : w.opOf g = none) :
    QueueInv (w.adoptionEnd env g) := by
  unfold Switching.adoptionEnd
  split
  · exact i
  · split
    · exact i
    · split
      · exact (i.enter env g (.inl ⟨by decide, by decide⟩)).step env (by rw [enter_opOf]; exact free)
          fun x hx => enter_acts ⟨by decide, by decide⟩ hx
      · next s _ _ =>
        have same := (queueSame_modGroup g (w.enter env g .switched)
          (f := fun x => if (x.locals env).any (·.outranks (x.stayFor s)) then x else x.takeStay env.now s)
          fun x => by split <;> rfl).trans (queueSame_refresh env g _)
        refine (same.inv (i.enter env g (.inl ⟨by decide, by decide⟩))).step env ?_ fun x hx => ?_
        · rw [same.opOf, enter_opOf]; exact free
        · obtain ⟨y, hy, e⟩ := same.group_back hx
          rw [e]
          exact enter_acts ⟨by decide, by decide⟩ hy

theorem QueueInv.judgeAdoption {w : Switching} (i : QueueInv w) (env : SwEnv) {g : GroupId} (free : w.opOf g = none)
    (acts : ∀ grp, w.groups[g] = some grp → grp.state ≠ .frozen ∧ grp.state ≠ .halted) : QueueInv (w.judgeAdoption env g) := by
  unfold Switching.judgeAdoption
  split
  · exact i
  · next grp hg =>
    split
    · exact i.adoptionEnd env free
    · exact i.place (op := .new .adopt _ g) free (fun e => by cases e) ⟨grp, hg, acts grp hg⟩

theorem QueueInv.trialOutcome {w : Switching} (i : QueueInv w) (env : SwEnv) {g : GroupId} (op : Op) (pass : Bool)
    (free : w.opOf g = none) (acts : ∀ grp, w.groups[g] = some grp → grp.state ≠ .frozen ∧ grp.state ≠ .halted) :
    QueueInv (w.trialOutcome env g op pass) := by
  unfold Switching.trialOutcome
  dsimp only
  split
  · have same := queueSame_endTrial env g (if pass = true then .pass else .fail) w
    refine (same.inv i).step env (by rw [same.opOf]; exact free) fun x hx => ?_
    obtain ⟨y, hy, e⟩ := same.group_back hx
    rw [e]
    exact acts y hy
  · exact i.step env free acts

/-- The group of an entry acts. -/
theorem QueueInv.acts {w : Switching} (i : QueueInv w) {g : GroupId} {op : Op} (h : w.opOf g = some op) :
    ∀ grp, w.groups[g] = some grp → grp.state ≠ .frozen ∧ grp.state ≠ .halted := by
  intro grp hg
  obtain ⟨hm, e⟩ := opOf_some h
  obtain ⟨x, hx, a⟩ := i.owned op hm
  rw [groups_at e, hg] at hx
  cases hx
  exact a

/-- A FROZEN or HALTED group has no entry. -/
theorem QueueInv.idle_free {w : Switching} (i : QueueInv w) {g : GroupId}
    (h : w.groups[g].any fun grp => decide (grp.state = .frozen) || decide (grp.state = .halted)) : w.opOf g = none := by
  cases ho : w.opOf g with
  | none => rfl
  | some op =>
    cases hg : w.groups[g] with
    | none => rw [hg] at h; cases h
    | some grp =>
      rw [hg] at h
      simp [i.acts ho grp hg] at h

theorem QueueInv.succeed {w : Switching} (i : QueueInv w) (env : SwEnv) (g : GroupId) : QueueInv (w.succeed env g) := by
  unfold Switching.succeed
  split
  · next grp op hg ho =>
    have hi := i.dropOp g
    have free := dropOp_opOf w g
    have acts : ∀ x, (w.dropOp g).groups[g] = some x → _ := i.acts ho
    dsimp only
    split
    · exact hi
    · split
      · exact hi.trialOutcome env op _ free acts
      · exact hi.step env free acts
      · exact hi.judgeAdoption env free acts
      · exact hi.adoptionEnd env free
      · exact hi.stand env g (.inr free)
      · exact hi
  · exact i.dropOp g

theorem QueueInv.recover {w : Switching} (i : QueueInv w) (env : SwEnv) {g : GroupId} (failed : Nat) (free : w.opOf g = none)
    (there : ∃ grp, w.groups[g] = some grp) : QueueInv (w.recover env g failed) := by
  unfold Switching.recover
  split
  · obtain ⟨grp, hg⟩ := there
    refine (i.enter env g (st := .recovering) (.inl ⟨by decide, by decide⟩)).place (op := .new .recovery _ g)
      (by rw [enter_opOf]; exact free) (fun e => by cases e) ?_
    show ∃ x, (w.enter env g .recovering).groups[g] = some x ∧ _
    cases hx : (w.enter env g .recovering).groups[g] with
    | none =>
      have h := (onlyGroup_enter env g .recovering w).record
      rw [hx, hg] at h
      cases h
    | some x => exact ⟨x, rfl, enter_acts ⟨by decide, by decide⟩ hx⟩
  · have same := queueSame_setKnown env failed Option.none w
    exact (same.inv i).stand env g (.inr (by rw [same.opOf]; exact free))

theorem QueueInv.failOp {w : Switching} (i : QueueInv w) (env : SwEnv) (g : GroupId) (failed : Nat) :
    QueueInv (w.failOp env g failed) := by
  unfold Switching.failOp
  split
  · next grp op hg ho =>
    have same : QueueSame (w.dropOp g) { w.dropOp g with settleFail := addFailure g w.settleFail } := .of_eq rfl rfl rfl rfl
    have hi := same.inv (i.dropOp g)
    have free : ({ w.dropOp g with settleFail := addFailure g w.settleFail } : Switching).opOf g = none := dropOp_opOf w g
    have acts : ∀ x, ({ w.dropOp g with settleFail := addFailure g w.settleFail } : Switching).groups[g] = some x → _ := i.acts ho
    have there : ∃ x, ({ w.dropOp g with settleFail := addFailure g w.settleFail } : Switching).groups[g] = some x := ⟨grp, hg⟩
    clear same
    dsimp only
    generalize ({ w.dropOp g with settleFail := addFailure g w.settleFail } : Switching) = v at hi free acts there ⊢
    have known := queueSame_setKnown env failed Option.none v
    have halts : QueueInv ((v.setKnown env failed Option.none).stand env g .halted) :=
      (known.inv hi).stand env g (.inr (by rw [known.opOf]; exact free))
    split
    · split
      · exact (queueSame_forget env _ v).inv hi
      · exact known.inv hi
    · split
      · split
        · exact hi.trialOutcome env op _ free acts
        · exact hi
      · exact hi.recover env failed free there
      · exact hi.stand env g (.inr free)
      · exact halts
      · exact halts
      · exact known.inv hi
  · exact i.dropOp g

/-! ### The actuator controller -/

theorem QueueInv.withdraw {w : Switching} (i : QueueInv w) (g : GroupId) : QueueInv (w.withdraw g) := i.keepOps _

theorem QueueInv.enterMaint {w : Switching} (i : QueueInv w) (env : SwEnv) (g : GroupId) : QueueInv (w.enterMaint env g) :=
  (i.withdraw g).stand env g (.inl ⟨by decide, by decide⟩)

/-- SET-MAINT LEAVE of a group with no operation in flight. -/
theorem QueueInv.leaveMaint {w : Switching} (i : QueueInv w) (env : SwEnv) {g : GroupId}
    (h : (w.opOf g).any (·.inFlight) = false) : QueueInv (w.leaveMaint env g) := by
  refine (i.withdraw g).adopt env ?_
  rw [opOf_eq_none]
  intro op hop e
  obtain ⟨hm, hk⟩ := List.mem_filter.mp hop
  cases ho : w.opOf g with
  | none => exact opOf_eq_none.mp ho op hm e
  | some o =>
    obtain ⟨hn, e'⟩ := opOf_some ho
    have : op = o := List.inj_on_of_nodup_map i.once hm hn (e.trans e'.symm)
    subst this
    rw [ho] at h
    simp [e] at hk
    simp [hk] at h

theorem QueueInv.arbitrate {w : Switching} (i : QueueInv w) : QueueInv w.arbitrate where
  once := by rw [Switching.arbitrate_queue]; exact i.once
  owned := by rw [Switching.arbitrate_queue]; simpa only [Switching.arbitrate_groups] using i.owned
  entries := by rw [Switching.arbitrate_queue]; exact i.entries
  maintenance := by rw [Switching.arbitrate_queue]; exact i.maintenance
  order := by rw [Switching.arbitrate_queue]; exact i.order
  choice := by
    unfold Switching.arbitrate
    split
    · exact i.choice
    · next h => intro hb; exact absurd (Option.isSome_iff_ne_none.mpr hb) h

/-- Groups and queue untouched, and no choice beside a transaction. -/
theorem QueueInv.of_eq {w v : Switching} (i : QueueInv w) (hg : v.groups = w.groups) (hq : v.queue = w.queue)
    (hc : v.bus ≠ none → v.chosen = none) : QueueInv v where
  once := hq ▸ i.once
  owned := by rw [hq, hg]; exact i.owned
  entries := hq ▸ i.entries
  maintenance := hq ▸ i.maintenance
  order := hq ▸ i.order
  choice := hc

theorem QueueInv.close {w : Switching} (i : QueueInv w) (now : Nat) (ok : Bool) : QueueInv (w.close now ok) :=
  i.of_eq rfl rfl fun h => absurd rfl h

theorem QueueInv.modElement {w : Switching} (i : QueueInv w) (a : Nat) (f : Element → Element) : QueueInv (w.modElement a f) :=
  (queueSame_modElement a f w).inv i

theorem QueueInv.setKnown {w : Switching} (i : QueueInv w) (env : SwEnv) (a : Nat) (pos : Option Nat) :
    QueueInv (w.setKnown env a pos) := (queueSame_setKnown env a pos w).inv i

theorem QueueInv.begin {w : Switching} (i : QueueInv w) (now : Nat) (c : Choice) : QueueInv (w.begin now c) := by
  unfold Switching.begin
  dsimp only
  split
  · next a _ =>
    exact (i.modElement a fun el => { el with moving := el.moving.map fun m => { m with poll := .onBus } }).of_eq rfl rfl
      fun _ => rfl
  · exact (i.modOp c.owner (f := fun op => { op with inFlight := true, ready := Option.none }) fun _ => ⟨rfl, rfl, fun _ => rfl⟩).of_eq
      rfl rfl fun _ => rfl

theorem QueueInv.readOn {w : Switching} (i : QueueInv w) (env : SwEnv) (g : GroupId) : QueueInv (w.readOn env g) := by
  unfold Switching.readOn
  repeat' split
  all_goals first
    | exact i
    | exact i.modOp g fun _ => ⟨rfl, rfl, id⟩
    | exact i.succeed env g
    | exact i.failOp env g _

theorem QueueInv.moveOn {w : Switching} (i : QueueInv w) (env : SwEnv) (g : GroupId) (a : Nat) : QueueInv (w.moveOn env g a) := by
  unfold Switching.moveOn
  repeat' split
  all_goals first
    | exact i
    | exact i.modOp g fun _ => ⟨rfl, rfl, id⟩
    | exact (i.modOp g (f := fun o => { o with second := true }) fun _ => ⟨rfl, rfl, id⟩).modElement _ _
    | exact i.succeed env g

theorem QueueInv.onPosition {w : Switching} (i : QueueInv w) (env : SwEnv) (run : AnswerRun) (frame : List Byte) (pos cap partner : Byte) :
    QueueInv (w.onPosition env run frame pos cap partner) := by
  unfold Switching.onPosition
  split
  · exact i
  · next t _ =>
    split
    · exact i
    · dsimp only
      split
      · exact i.close _ _
      · exact ((((i.close _ _).modElement _ _).setKnown env _ _).modOp t.owner
          (f := fun op => { op with matched := decide (w.known t.cmd.address = some pos.toNat) }) fun _ => ⟨rfl, rfl, id⟩).readOn env _

theorem QueueInv.onAccepted {w : Switching} (i : QueueInv w) (env : SwEnv) (run : AnswerRun) (frame : List Byte) :
    QueueInv (w.onAccepted env run frame) := by
  unfold Switching.onAccepted
  split
  · exact i
  · dsimp only
    split
    · exact i.close _ _
    · exact (i.close _ _).modElement _ _

theorem QueueInv.onRefused {w : Switching} (i : QueueInv w) (env : SwEnv) (run : AnswerRun) (frame : List Byte) (fault : Byte) :
    QueueInv (w.onRefused env run frame fault) := by
  unfold Switching.onRefused
  split
  · exact i
  · dsimp only
    split
    · exact i.close _ _
    · exact (((i.close _ _).modElement _ _).modElement _ _).failOp env _ _

theorem QueueInv.onSingleOnly {w : Switching} (i : QueueInv w) (env : SwEnv) (run : AnswerRun) (frame : List Byte) :
    QueueInv (w.onSingleOnly env run frame) := by
  unfold Switching.onSingleOnly
  split
  · exact i
  · dsimp only
    split
    · exact i.close _ _
    · refine QueueInv.modOp (w := _) ?_ _ fun op => ?_
      · exact (i.close env.now true).of_eq rfl rfl fun h => absurd rfl h
      · split <;> exact ⟨rfl, rfl, id⟩

theorem QueueInv.onMoving {w : Switching} (i : QueueInv w) (env : SwEnv) (run : AnswerRun) (frame : List Byte) : QueueInv (w.onMoving env run frame) := by
  unfold Switching.onMoving
  split
  · exact i
  · dsimp only
    split
    · exact i.close _ _
    · exact (i.close _ _).modElement _ _

theorem QueueInv.onSettled {w : Switching} (i : QueueInv w) (env : SwEnv) (run : AnswerRun) (frame : List Byte) (pos : Byte) :
    QueueInv (w.onSettled env run frame pos) := by
  unfold Switching.onSettled
  split
  · exact i
  · split
    · exact i
    · dsimp only
      split
      · exact i.close _ _
      · split
        · exact (((i.close _ _).modElement _ _).setKnown env _ _).moveOn env _ _
        · exact ((i.close _ _).modElement _ _).failOp env _ _

theorem QueueInv.answerFailure {w : Switching} (i : QueueInv w) (env : SwEnv) (t : Transaction) :
    QueueInv (w.answerFailure env t) := by
  unfold Switching.answerFailure
  dsimp only
  split
  · exact i.close _ _
  · split
    · have hi := (i.close env.now false).modOp t.owner (f := fun op => { op with unread := op.unread ++ [t.cmd.address] })
        fun _ => ⟨rfl, rfl, id⟩
      split
      · exact (hi.setKnown env _ _).readOn env _
      · exact hi.readOn env _
    · exact (i.close _ _).failOp env _ _
    · exact (i.close _ _).failOp env _ _
    · exact ((i.close _ _).modElement _ _).failOp env _ _

theorem QueueInv.onAnswerTimeout {w : Switching} (i : QueueInv w) (env : SwEnv) : QueueInv (w.onAnswerTimeout env) := by
  unfold Switching.onAnswerTimeout
  split
  · next t h =>
    split
    · split
      · exact i.answerFailure env t
      · exact i.of_eq rfl rfl fun _ => i.choice (by rw [h]; exact Option.some_ne_none t)
    · exact i
  · exact i

theorem QueueInv.onRepeat {w : Switching} (i : QueueInv w) (now : Nat) : QueueInv (w.onRepeat now) := by
  unfold Switching.onRepeat
  split
  · next t h =>
    split
    · exact i.of_eq rfl rfl fun _ => i.choice (by rw [h]; exact Option.some_ne_none t)
    · exact i
  · exact i

theorem QueueInv.onMoveTimeout {w : Switching} (i : QueueInv w) (env : SwEnv) (a : Nat) : QueueInv (w.onMoveTimeout env a) := by
  unfold Switching.onMoveTimeout
  have h : QueueInv (w.abandonPoll env.now a) := by
    unfold Switching.abandonPoll
    split
    · next t h =>
      split
      · split
        · exact i.of_eq rfl rfl fun _ => i.choice (by rw [h]; exact Option.some_ne_none t)
        · exact i.close _ _
      · exact i
    · exact i
  split
  · exact i
  · split
    · exact (h.modElement _ _).failOp env _ _
    · exact i

theorem queueSame_onPollDue (a : Nat) (w : Switching) : QueueSame w (w.onPollDue a) := queueSame_modElement a _ w

/-! ### The element table -/

/-- A group made where there was none. -/
theorem QueueInv.create {w : Switching} (i : QueueInv w) (env : SwEnv) {g : GroupId} (cfg : GroupConfig) (none : w.groups[g] = none) :
    QueueInv (w.create env g cfg) := by
  have free : w.opOf g = Option.none := by
    rw [opOf_eq_none]
    intro op hop e
    obtain ⟨x, hx, _⟩ := i.owned op hop
    rw [groups_at e, none] at hx
    cases hx
  have hi : QueueInv { w.setGroup g (Group.new cfg) with elements := w.elements ++ cfg.elements g } := by
    refine ⟨i.once, fun op hop => ?_, i.entries, i.maintenance, i.order, i.choice⟩
    obtain ⟨x, hx, a⟩ := i.owned op hop
    exact ⟨x, (set_get_other _ (opOf_eq_none.mp free op hop) _).trans hx, a⟩
  have same := queueSame_refresh env g { w.setGroup g (Group.new cfg) with elements := w.elements ++ cfg.elements g }
  exact (same.inv hi).adopt env (by rw [same.opOf]; exact free)

theorem QueueInv.dropWith {w : Switching} (i : QueueInv w) (g : GroupId) (dropped : List Nat) :
    QueueInv (w.dropWith g dropped) := by
  have rest : ∀ (as : List Nat) {v : Switching}, QueueInv v → QueueInv (as.foldl (fun w a => w.rests a) v) := by
    intro as
    induction as with
    | nil => exact fun h => h
    | cons a as ih => exact fun h => ih (h.modElement a _)
  unfold Switching.dropWith
  split
  · exact i
  · next op _ =>
    split
    · have h := rest op.kind.addresses (i.dropOp g)
      refine h.of_eq rfl rfl fun hb => h.choice fun e => hb ?_
      exact congrArg (Option.map _) e
    · exact i

theorem QueueInv.rebuild {w : Switching} (i : QueueInv w) (env : SwEnv) (g : GroupId) (cfg : GroupConfig) :
    QueueInv (w.rebuild env g cfg) := by
  unfold Switching.rebuild
  split
  · exact i
  · next old _ =>
    dsimp only
    refine (queueSame_refresh env g _).inv ((queueSame_modGroup g _ (f := fun grp => { grp.dropStay with cfg := cfg })
      fun _ => rfl).inv ?_)
    have h := (i.setExternal g Option.none).dropWith g (old.cfg.addresses.filter fun a => decide (a ∉ cfg.addresses))
    exact h.of_eq rfl rfl h.choice

/-- A group that has no entry deleted. -/
theorem QueueInv.delete {w : Switching} (i : QueueInv w) (env : SwEnv) {g : GroupId} (free : w.opOf g = none) :
    QueueInv (w.delete env g) := by
  refine ⟨i.once, fun op hop => ?_, i.entries, i.maintenance, i.order, i.choice⟩
  obtain ⟨x, hx, a⟩ := i.owned op hop
  exact ⟨x, (set_get_other _ (opOf_eq_none.mp free op hop) _).trans hx, a⟩

end Sys2Proof.Machine
end

