-- ==== Sys2Proof/Laws/Shared.lean ====
section
/-! SUPPORT. What the shared operations over the whole part can do: one lemma for each. -/

namespace Sys2Proof.Machine

theorem KeepsOthers.refl (s : State) : KeepsOthers s s := ⟨rfl, rfl, rfl, rfl, rfl, rfl, rfl, rfl, rfl, rfl, rfl⟩

theorem KeepsOthers.trans {r s t : State} (a : KeepsOthers r s) (b : KeepsOthers s t) : KeepsOthers r t :=
  ⟨b.now.trans a.now, b.pending.trans a.pending, b.shelf.trans a.shelf, b.slot.trans a.slot, b.ranges.trans a.ranges,
    b.conversion.trans a.conversion, b.cableTest.trans a.cableTest, b.alarms.trans a.alarms, b.notices.trans a.notices,
    b.links.trans a.links, b.raised.trans a.raised⟩

/-! ### Events at the switching block -/

theorem inSwitch_keeps (f : SwEnv → Switching → Switching) (s : State) : KeepsOthers s (inSwitch f s) :=
  ⟨rfl, rfl, rfl, rfl, rfl, rfl, rfl, rfl, rfl, rfl, rfl⟩

/-- A law kept by every event of a turn holds after the turn. -/
theorem groupsInTurn_induct {P : State → Prop} {f : GroupId → SwEnv → Switching → Switching} (gs : List GroupId) {s : State}
    (h0 : ∀ n, P { s with orderDraws := n }) (h : ∀ g t, P t → P (inSwitch (f g) t)) : P (groupsInTurn gs f s) := by
  unfold groupsInTurn
  generalize freeOrder s.orderDraws gs = xs
  have : ∀ t, P t → P (xs.foldl (fun s g => inSwitch (f g) s) t) := by
    induction xs with
    | nil => exact fun t ht => ht
    | cons x xs ih => exact fun t ht => ih _ (h x t ht)
  exact this _ (h0 _)

theorem groupsInTurn_keeps (gs : List GroupId) (f : GroupId → SwEnv → Switching → Switching) (s : State) :
    KeepsOthers s (groupsInTurn gs f s) :=
  groupsInTurn_induct (P := KeepsOthers s) gs (fun _ => ⟨rfl, rfl, rfl, rfl, rfl, rfl, rfl, rfl, rfl, rfl, rfl⟩)
    fun _ t ht => ht.trans (inSwitch_keeps _ t)

@[simp] theorem groupsInTurn_ports (gs : List GroupId) (f : GroupId → SwEnv → Switching → Switching) (s : State) :
    (groupsInTurn gs f s).ports = s.ports :=
  groupsInTurn_induct (P := fun t => t.ports = s.ports) gs (fun _ => rfl) fun _ _ ht => ht

theorem groupsInTurn_sameRecords {f : GroupId → SwEnv → Switching → Switching} (gs : List GroupId) (s : State)
    (h : ∀ g env w, SameRecords w (f g env w)) : SameRecords s.sw (groupsInTurn gs f s).sw :=
  groupsInTurn_induct (P := fun t => SameRecords s.sw t.sw) gs (fun _ => .refl _) fun g t ht => ht.trans (h g _ t.sw)

/-- No group changes when none is to. -/
theorem groupsInTurn_nil (f : GroupId → SwEnv → Switching → Switching) (s : State) : groupsInTurn [] f s = s := rfl

theorem masterless_keeps (s : State) : KeepsOthers s (masterless s) := groupsInTurn_keeps _ _ s

@[simp] theorem masterless_ports (s : State) : (masterless s).ports = s.ports := groupsInTurn_ports _ _ s

theorem masterless_sameRecords (s : State) : SameRecords s.sw (masterless s).sw :=
  groupsInTurn_sameRecords _ s fun g env w => (onlyGroup_masterless env g w).sameRecords

/-! ### Events at a port -/

/-- Everything `tellGroup` can do: nothing, or an event at the port's own group that touches that group alone. -/
theorem tellGroup_cases (p : PortId) (old : Port) (s : State) :
    tellGroup p old s = s ∨
      ∃ g m f, memberOf s.sw.groups p = some (g, m) ∧ tellGroup p old s = inSwitch f s ∧ ∀ env w, OnlyGroup g w (f env w) := by
  unfold tellGroup
  dsimp only
  split
  · exact .inl rfl
  · next g m hm =>
    split
    · exact .inr ⟨g, m, _, hm, rfl, fun env w => onlyGroup_memberEvent env g m _ _ w⟩
    · split
      · exact .inr ⟨g, m, _, hm, rfl, fun env w => onlyGroup_event env g w (.refl g w)⟩
      · exact .inl rfl

theorem tellGroup_keeps (p : PortId) (old : Port) (s : State) : KeepsOthers s (tellGroup p old s) := by
  rcases tellGroup_cases p old s with h | ⟨_, _, f, _, h, _⟩ <;> rw [h]
  · exact .refl s
  · exact inSwitch_keeps f s

@[simp] theorem tellGroup_ports (p : PortId) (old : Port) (s : State) : (tellGroup p old s).ports = s.ports := by
  rcases tellGroup_cases p old s with h | ⟨_, _, f, _, h, _⟩ <;> rw [h]
  rfl

@[simp] theorem tellGroup_orderDraws (p : PortId) (old : Port) (s : State) : (tellGroup p old s).orderDraws = s.orderDraws := by
  rcases tellGroup_cases p old s with h | ⟨_, _, f, _, h, _⟩ <;> rw [h]
  rfl

theorem tellGroup_sameRecords (p : PortId) (old : Port) (s : State) : SameRecords s.sw (tellGroup p old s).sw := by
  rcases tellGroup_cases p old s with h | ⟨g, _, f, _, h, hf⟩ <;> rw [h]
  · exact .refl _
  · exact (hf _ s.sw).sameRecords

/-- A port of no group tells no group. -/
theorem tellGroup_none {p : PortId} {s : State} (h : memberOf s.sw.groups p = none) (old : Port) : tellGroup p old s = s := by
  unfold tellGroup
  rw [h]

/-- Everything `tellTiming` can do. -/
theorem tellTiming_cases (p : PortId) (old : Port) (s : State) :
    tellTiming p old s = s ∨ tellTiming p old s = { s with timing := s.timing.portChanged s.timingEnv p } := by
  unfold tellTiming
  dsimp only
  split
  · exact .inr rfl
  · exact .inl rfl

theorem tellTiming_keeps (p : PortId) (old : Port) (s : State) : KeepsOthers s (tellTiming p old s) := by
  rcases tellTiming_cases p old s with h | h <;> rw [h]
  · exact .refl s
  · exact ⟨rfl, rfl, rfl, rfl, rfl, rfl, rfl, rfl, rfl, rfl, rfl⟩

@[simp] theorem tellTiming_ports (p : PortId) (old : Port) (s : State) : (tellTiming p old s).ports = s.ports := by
  rcases tellTiming_cases p old s with h | h <;> rw [h]

@[simp] theorem tellTiming_sw (p : PortId) (old : Port) (s : State) : (tellTiming p old s).sw = s.sw := by
  rcases tellTiming_cases p old s with h | h <;> rw [h]

@[simp] theorem tellTiming_orderDraws (p : PortId) (old : Port) (s : State) :
    (tellTiming p old s).orderDraws = s.orderDraws := by
  rcases tellTiming_cases p old s with h | h <;> rw [h]

theorem setPortTo_keeps (p : PortId) (new : Port) (s : State) : KeepsOthers s (setPortTo p new s) := by
  unfold setPortTo
  exact KeepsOthers.trans (s := { s with ports := s.ports.set p new }) ⟨rfl, rfl, rfl, rfl, rfl, rfl, rfl, rfl, rfl, rfl, rfl⟩
    ((tellGroup_keeps _ _ _).trans (tellTiming_keeps _ _ _))

@[simp] theorem setPortTo_ports (p : PortId) (new : Port) (s : State) : (setPortTo p new s).ports = s.ports.set p new := by
  unfold setPortTo
  simp

@[simp] theorem setPortTo_orderDraws (p : PortId) (new : Port) (s : State) : (setPortTo p new s).orderDraws = s.orderDraws := by
  unfold setPortTo
  simp

theorem setPortTo_sameRecords (p : PortId) (new : Port) (s : State) : SameRecords s.sw (setPortTo p new s).sw := by
  unfold setPortTo
  dsimp only
  rw [tellTiming_sw]
  exact tellGroup_sameRecords p _ { s with ports := s.ports.set p new }

/-- The port after `portEvent`: changed by `f`, its raw condition re-evaluated. -/
theorem portEvent_eq (p : PortId) (f : Port → Port) (s : State) :
    ∃ eff, portEvent p f s = setPortTo p ((f s.ports[p]).settle eff s.now) s := ⟨_, rfl⟩

theorem portEvent_keeps (p : PortId) (f : Port → Port) (s : State) : KeepsOthers s (portEvent p f s) := setPortTo_keeps _ _ s

theorem portEvent_sameRecords (p : PortId) (f : Port → Port) (s : State) : SameRecords s.sw (portEvent p f s).sw :=
  setPortTo_sameRecords _ _ s

@[simp] theorem portEvent_orderDraws (p : PortId) (f : Port → Port) (s : State) :
    (portEvent p f s).orderDraws = s.orderDraws := setPortTo_orderDraws _ _ s

theorem portEvent_other {p q : PortId} (h : q ≠ p) (f : Port → Port) (s : State) : (portEvent p f s).ports[q] = s.ports[q] := by
  unfold portEvent
  dsimp only
  rw [setPortTo_ports]
  exact set_get_other _ h _

theorem portEvent_self (p : PortId) (f : Port → Port) (s : State) :
    ∃ eff, (portEvent p f s).ports[p] = (f s.ports[p]).settle eff s.now := by
  unfold portEvent
  dsimp only
  rw [setPortTo_ports]
  exact ⟨_, set_get_self _ _ _⟩

/-- A law kept by every event of a turn of ports holds after the turn. -/
theorem portsInTurn_induct {P : State → Prop} (ps : List PortId) {s : State} (h0 : ∀ n, P { s with orderDraws := n })
    (h : ∀ p t, P t → P (portEvent p id t)) : P (portsInTurn ps s) := by
  unfold portsInTurn
  generalize freeOrder s.orderDraws ps = xs
  have : ∀ t, P t → P (xs.foldl (fun s p => portEvent p id s) t) := by
    induction xs with
    | nil => exact fun t ht => ht
    | cons x xs ih => exact fun t ht => ih _ (h x t ht)
  exact this _ (h0 _)

theorem portsInTurn_keeps (ps : List PortId) (s : State) : KeepsOthers s (portsInTurn ps s) :=
  portsInTurn_induct (P := KeepsOthers s) ps (fun _ => ⟨rfl, rfl, rfl, rfl, rfl, rfl, rfl, rfl, rfl, rfl, rfl⟩)
    fun p t ht => ht.trans (portEvent_keeps p id t)

theorem portsInTurn_sameRecords (ps : List PortId) (s : State) : SameRecords s.sw (portsInTurn ps s).sw :=
  portsInTurn_induct (P := fun t => SameRecords s.sw t.sw) ps (fun _ => .refl _)
    fun p t ht => ht.trans (portEvent_sameRecords p id t)

/-! ### Line condition (R38, R40) -/

@[simp] theorem Port.holdOffTake_cfg (eff now : Nat) (p : Port) : (p.holdOffTake eff now).cfg = p.cfg := by
  unfold Port.holdOffTake
  repeat' split
  all_goals rfl

@[simp] theorem Port.settle_cfg (eff now : Nat) (p : Port) : (p.settle eff now).cfg = p.cfg := by
  unfold Port.settle
  split
  · rfl
  · simp

/-- What settling leaves: all but the raw and the reported condition and the hold-off timer. -/
theorem Port.settle_keeps (eff now : Nat) (p : Port) :
    p.settle eff now =
      { p with
        raw := (p.settle eff now).raw, reported := (p.settle eff now).reported, holdTimer := (p.settle eff now).holdTimer } := by
  unfold Port.settle Port.holdOffTake
  repeat' split
  all_goals rfl

/-- After settling, the raw condition is the one the port's findings give. -/
theorem Port.settle_raw (eff now : Nat) (p : Port) : (p.settle eff now).raw = p.rawCondition := by
  unfold Port.settle Port.holdOffTake
  repeat' split
  all_goals simp_all

/-! ### Cable tests (R24) -/

/-- Everything the end of a test can do outside the two ports, the test record and the requesting link. -/
theorem resumeTest_none {s : State} (h : s.cableTest = none) : resumeTest s = s := by
  unfold resumeTest
  rw [h]

@[simp] theorem resumeTest_cableTest (s : State) : (resumeTest s).cableTest = none := by
  unfold resumeTest
  split
  · assumption
  · rfl

@[simp] theorem endTest_cableTest (r : TestResult) (k : Nat) (s : State) : (endTest r k s).cableTest = none := by
  unfold endTest
  split
  · assumption
  · simp

theorem resumeTest_eq {s : State} {t : CableTest} (h : s.cableTest = some t) :
    resumeTest s =
      { s with
        ports := upd (upd s.ports t.outPort (Port.resumeOut s.now)) t.inPort (Port.resumeIn s.now)
        cableTest := none } := by
  unfold resumeTest
  rw [h]

theorem endTest_eq {s : State} {t : CableTest} (h : s.cableTest = some t) (r : TestResult) (k : Nat) :
    endTest r k s = resumeTest (modLink t.link (Link.answer (testReply r k)) s) := by
  unfold endTest
  rw [h]

theorem endTest_none {s : State} (h : s.cableTest = none) (r : TestResult) (k : Nat) : endTest r k s = s := by
  unfold endTest
  rw [h]

/-- A test that is not broken goes on. -/
theorem abortBroken_cases (s : State) : abortBroken s = s ∨ abortBroken s = endTest .aborted 0 s := by
  unfold abortBroken
  split
  · exact .inr rfl
  · exact .inl rfl

/-! ### Requests (R169 to R171) -/

/-- The link as the state sees it. -/
@[simp] theorem LinkSupervisor.modLink_link (x : LinkSupervisor) (l : LinkId) (f : Link → Link) :
    (x.modLink l f).link l = f (x.link l) := by
  cases l <;> rfl

@[simp] theorem LinkSupervisor.modLink_otherLink (x : LinkSupervisor) (l : LinkId) (f : Link → Link) :
    (x.modLink l f).link (otherLink l) = x.link (otherLink l) := by
  cases l <;> rfl

theorem LinkSupervisor.modLink_link_ne (x : LinkSupervisor) {l m : LinkId} (h : m ≠ l) (f : Link → Link) :
    (x.modLink l f).link m = x.link m := by
  cases l <;> cases m <;> first | rfl | exact absurd rfl h

theorem modLink_modLink (l : LinkId) (f g : Link → Link) (s : State) : modLink l g (modLink l f s) = modLink l (g ∘ f) s := by
  cases l <;> rfl

/-- Everything a taken request can do: it is answered BUSY or discarded, answered with a refusal, or handled; in every case its frame has
been taken. -/
theorem takeRequest_cases (l : LinkId) (tag kind : Byte) (fits masterOnly : Bool) (handle : Handler) (s : State) :
    ((s.links.link l).outstanding.isSome ∧
      takeRequest l tag kind fits masterOnly handle s = modLink l (fun k => Link.busy tag kind k.frameTaken) s)
    ∨ ((s.links.link l).outstanding = none ∧ fits = false ∧
      takeRequest l tag kind fits masterOnly handle s =
        modLink l (fun k => (k.deferredTo tag kind).answer [Result.badLength.code]) s)
    ∨ ((s.links.link l).outstanding = none ∧ fits = true ∧ masterOnly = true ∧ (s.links.link l).role ≠ .master ∧
      takeRequest l tag kind fits masterOnly handle s =
        modLink l (fun k => (k.deferredTo tag kind).answer [Result.notMaster.code]) s)
    ∨ ((s.links.link l).outstanding = none ∧ fits = true ∧ (masterOnly = true → (s.links.link l).role = .master) ∧
      takeRequest l tag kind fits masterOnly handle s =
        match handle (modLink l (Link.deferredTo tag kind) s) with
        | (t, none) => t
        | (t, some payload) => modLink l (Link.answer payload) t) := by
  have hl : (modLink l Link.frameTaken s).links.link l = (s.links.link l).frameTaken := by simp
  have ht : modLink l (Link.take tag kind) (modLink l Link.frameTaken s) = modLink l (Link.deferredTo tag kind) s := by
    rw [modLink_modLink]; rfl
  have hr : ((modLink l (Link.deferredTo tag kind) s).links.link l).role = (s.links.link l).role := by simp
  unfold takeRequest
  simp only [hl, ht, Link.frameTaken_outstanding]
  cases ho : (s.links.link l).outstanding with
  | some o =>
    refine .inl ⟨rfl, ?_⟩
    rw [if_pos (by rfl), modLink_modLink]
    rfl
  | none =>
    rw [if_neg (by simp)]
    unfold examine plainly
    cases fits with
    | false =>
      refine .inr (.inl ⟨rfl, rfl, ?_⟩)
      simp only [Bool.not_false, if_true, modLink_modLink]
      rfl
    | true =>
      by_cases hm : masterOnly = true ∧ (s.links.link l).role ≠ .master
      · refine .inr (.inr (.inl ⟨rfl, rfl, hm.1, hm.2, ?_⟩))
        simp only [Bool.not_true, Bool.false_eq_true, if_false, hr, if_pos hm, modLink_modLink]
        rfl
      · refine .inr (.inr (.inr ⟨rfl, rfl, fun h => Classical.byContradiction fun n => hm ⟨h, n⟩, ?_⟩))
        simp only [Bool.not_true, Bool.false_eq_true, if_false, hr, if_neg hm]
        try rfl

/-- A request on a link that awaits a frame is taken (R167). -/
theorem request_seen {l : LinkId} {s : State} (h : (s.links.link l).rx.state = .awaitLen) (tag kind : Byte) (fits masterOnly : Bool)
    (handle : Handler) : request l tag kind fits masterOnly handle s = takeRequest l tag kind fits masterOnly handle s := by
  unfold request awaitsFrame
  rw [if_pos (decide_eq_true h)]

/-- A frame with no break before it is not seen (R167). -/
theorem request_unseen {l : LinkId} {s : State} (h : (s.links.link l).rx.state ≠ .awaitLen) (tag kind : Byte)
    (fits masterOnly : Bool) (handle : Handler) : request l tag kind fits masterOnly handle s = s := by
  unfold request awaitsFrame
  rw [if_neg (by simp [h])]

/-- An immediate reply with nothing else changed. -/
theorem request_replied {l : LinkId} {tag kind : Byte} {masterOnly : Bool} {handle : Handler} {s : State} {payload : List Byte}
    (free : FreeLink l s) (master : masterOnly = true → (s.links.link l).role = .master)
    (h : handle (modLink l (Link.deferredTo tag kind) s) = (modLink l (Link.deferredTo tag kind) s, some payload)) :
    request l tag kind true masterOnly handle s = replied l tag kind payload s := by
  rw [request_seen free.awaits]
  rcases takeRequest_cases l tag kind true masterOnly handle s with ⟨h1, _⟩ | ⟨_, h1, _⟩ | ⟨_, _, h1, h2, _⟩ | ⟨_, _, _, h3⟩
  · rw [free.outstanding] at h1; exact absurd h1 (by simp)
  · exact absurd h1 (by simp)
  · exact absurd (master h1) h2
  · rw [h3, h]
    show modLink l (Link.answer payload) (modLink l (Link.deferredTo tag kind) s) = _
    rw [modLink_modLink]
    cases l <;> rfl

/-- A master-only request from a link that is not the master link (R170). -/
theorem request_notMaster {l : LinkId} {tag kind : Byte} {handle : Handler} {s : State} (free : FreeLink l s)
    (master : (s.links.link l).role ≠ .master) : request l tag kind true true handle s = replied l tag kind [2] s := by
  rw [request_seen free.awaits]
  rcases takeRequest_cases l tag kind true true handle s with ⟨h1, _⟩ | ⟨_, h1, _⟩ | ⟨_, _, _, _, h3⟩ | ⟨_, _, h2, _⟩
  · rw [free.outstanding] at h1; exact absurd h1 (by simp)
  · exact absurd h1 (by simp)
  · rw [h3]
    cases l <;> rfl
  · exact absurd (h2 rfl) master

/-- A handled request. -/
theorem request_handled {l : LinkId} {tag kind : Byte} {masterOnly : Bool} {handle : Handler} {s t : State} {payload : List Byte}
    (free : FreeLink l s) (master : masterOnly = true → (s.links.link l).role = .master)
    (h : handle (modLink l (Link.deferredTo tag kind) s) = (t, some payload)) :
    request l tag kind true masterOnly handle s = modLink l (Link.answer payload) t := by
  rw [request_seen free.awaits]
  rcases takeRequest_cases l tag kind true masterOnly handle s with ⟨h1, _⟩ | ⟨_, h1, _⟩ | ⟨_, _, h1, h2, _⟩ | ⟨_, _, _, h3⟩
  · rw [free.outstanding] at h1; exact absurd h1 (by simp)
  · exact absurd h1 (by simp)
  · exact absurd (master h1) h2
  · rw [h3, h]

/-- A handled request whose reply is deferred. -/
theorem request_deferred {l : LinkId} {tag kind : Byte} {masterOnly : Bool} {handle : Handler} {s t : State}
    (free : FreeLink l s) (master : masterOnly = true → (s.links.link l).role = .master)
    (h : handle (modLink l (Link.deferredTo tag kind) s) = (t, none)) :
    request l tag kind true masterOnly handle s = t := by
  rw [request_seen free.awaits]
  rcases takeRequest_cases l tag kind true masterOnly handle s with ⟨h1, _⟩ | ⟨_, h1, _⟩ | ⟨_, _, h1, h2, _⟩ | ⟨_, _, _, h3⟩
  · rw [free.outstanding] at h1; exact absurd h1 (by simp)
  · exact absurd h1 (by simp)
  · exact absurd (master h1) h2
  · rw [h3, h]

/-! ### The end of an event -/

@[simp] theorem flush_threshold (s : State) : (flush s).notices.threshold = s.notices.threshold := by
  rw [flush_notices]; exact (Notices.enqueueAll _ _).1

@[simp] theorem flush_groupEnable (s : State) : (flush s).notices.groupEnable = s.notices.groupEnable := by
  rw [flush_notices]; exact (Notices.enqueueAll _ _).2.1

@[simp] theorem flush_timingEnable (s : State) : (flush s).notices.timingEnable = s.notices.timingEnable := by
  rw [flush_notices]; exact (Notices.enqueueAll _ _).2.2.1

theorem flush_bounded {s : State} (h : s.notices.queue.length ≤ 32) : (flush s).notices.queue.length ≤ 32 := by
  rw [flush_notices]; exact (Notices.enqueueAll _ _).2.2.2 h

@[simp] theorem finish_threshold (e : Expiry) (s : State) : (finish e s).notices.threshold = s.notices.threshold :=
  flush_threshold (takeAlarms e s)

@[simp] theorem finish_groupEnable (e : Expiry) (s : State) : (finish e s).notices.groupEnable = s.notices.groupEnable :=
  flush_groupEnable (takeAlarms e s)

@[simp] theorem finish_timingEnable (e : Expiry) (s : State) : (finish e s).notices.timingEnable = s.notices.timingEnable :=
  flush_timingEnable (takeAlarms e s)

/-- No event leaves a notice behind. -/
theorem finish_quiet (e : Expiry) (s : State) : Quiet (finish e s) := ⟨finish_sw_raised e s, rfl, rfl⟩

/-- Nothing to queue: nothing joins. -/
theorem flush_quiet {s : State} (h : Quiet s) : (flush s).notices = s.notices := by
  have : s.allRaised = [] := by simp [State.allRaised, h.1, h.2.1, h.2.2]
  rw [flush_notices, this]
  rfl

end Sys2Proof.Machine
end

