-- ==== Sys2Proof/Laws/Timing.lean ====
section
/-! SUPPORT. The timing unit: what each of its operations leaves, and that each keeps `TimingInv`. -/

namespace Sys2Proof.Machine

/-! ### Arithmetic (00_scope.md; R119, R120, R129) -/

theorem roundedDiv_sixteen {x : Int} (h : x.natAbs ≤ 1600000) : steerable (roundedDiv x 16) := by
  unfold roundedDiv steerable
  rcases Int.lt_trichotomy x 0 with hx | hx | hx
  · rw [Int.sign_eq_neg_one_of_neg hx]; omega
  · subst hx; decide
  · rw [Int.sign_eq_one_of_pos hx]; omega

theorem sum_bound {xs : List Int} (h : ∀ x ∈ xs, steerable x) : xs.sum.natAbs ≤ 100000 * xs.length := by
  induction xs with
  | nil => simp
  | cons x xs ih =>
    have hx := h x List.mem_cons_self
    have := ih fun y hy => h y (List.mem_cons_of_mem _ hy)
    simp only [List.sum_cons, List.length_cons]
    unfold steerable at hx
    omega

/-- The average of a window within ±100,000 ppb lies there too (R120). -/
theorem averageOf_steerable {window : List Sample} (h : ∀ v ∈ window, steerable v.ppb) {a : Int}
    (ha : averageOf window = some a) : steerable a := by
  unfold averageOf at ha
  split at ha
  · next hl =>
    cases ha
    apply roundedDiv_sixteen
    have := sum_bound (xs := window.map (·.ppb)) (by simpa using h)
    simpa [hl] using this
  · cases ha

/-- A sample of a measurement lies within ±100,000 ppb (R119). -/
theorem sampleOf_steerable (count : Nat) : steerable (sampleOf count).ppb := by
  unfold sampleOf steerable
  dsimp only
  split
  · dsimp only; split <;> omega
  · dsimp only; omega

/-- One step goes toward its target and not beyond it (R129). -/
theorem steerWord_between (slew : Nat) {target word : Int} (ht : steerable target) (hw : steerable word) :
    steerable (steerWord slew target word) := by
  unfold steerWord clampInt steerable at *
  omega

/-! ### References -/

theorem RefInv.of_eq {x y : Ref} (h : RefInv x) (hw : y.window = x.window) (ha : y.average = x.average) : RefInv y :=
  ⟨by rw [hw]; exact h.window, by rw [hw]; exact h.samples, by rw [hw, ha]; exact h.average⟩

theorem RefInv.cleared {y : Ref} (hw : y.window = []) (ha : y.average = none) : RefInv y :=
  ⟨by simp [hw], by simp [hw], by rw [ha, hw]; rfl⟩

theorem RefInv.fail {x : Ref} (h : RefInv x) : RefInv x.fail := by
  unfold Ref.fail
  split
  · exact .cleared rfl rfl
  · exact h

theorem refInv_restart (env : TimingEnv) (r : RefId) (x : Ref) : RefInv (x.restart env r) := .cleared rfl rfl

theorem RefInv.follow {x : Ref} (h : RefInv x) (env : TimingEnv) (r : RefId) (p : Option PortId) :
    RefInv (x.follow env r p) := by
  unfold Ref.follow
  dsimp only
  split
  · exact h.of_eq rfl rfl
  · exact (h.of_eq (y := { x with source := p, received := receivedQuality env.ports p, measuring := none, edgeTimer := some (env.now + 500) })
      rfl rfl).fail

theorem RefInv.regroup {x : Ref} (h : RefInv x) (env : TimingEnv) (r : RefId) (p : Option PortId) :
    RefInv (x.regroup env r p) := by
  unfold Ref.regroup
  split
  · exact refInv_restart env r x
  · exact h.fail.of_eq rfl rfl

theorem RefInv.sourceChanged {x : Ref} (h : RefInv x) (env : TimingEnv) (r : RefId) : RefInv (x.sourceChanged env r) := by
  unfold Ref.sourceChanged
  dsimp only
  split
  · exact h.of_eq rfl rfl
  · exact (h.of_eq (y := { x with received := receivedQuality env.ports x.source }) rfl rfl).fail

theorem RefInv.edge {x : Ref} (h : RefInv x) (env : TimingEnv) (r : RefId) : RefInv (x.edge env r) := by
  unfold Ref.edge
  repeat' split
  all_goals first
    | exact h
    | exact h.of_eq rfl rfl

theorem RefInv.takeSample {x : Ref} (h : RefInv x) {s : Sample} (hs : steerable s.ppb) : RefInv (x.takeSample s) := by
  refine ⟨?_, ?_, rfl⟩
  · have := h.window
    simp only [Ref.takeSample, List.length_drop, List.length_append, List.length_singleton]
    omega
  · intro v hv
    have := List.mem_of_mem_drop hv
    simp only [List.mem_append, List.mem_singleton] at this
    rcases this with this | rfl
    · exact h.samples v this
    · exact hs

theorem RefInv.judge {x : Ref} (h : RefInv x) (set : TimingSettings) (now : Nat) (s : Sample) : RefInv (x.judge set now s) := by
  unfold Ref.judge Ref.startSoak
  dsimp only
  repeat' split
  all_goals first
    | exact h
    | exact h.of_eq rfl rfl

theorem RefInv.configure {x : Ref} (h : RefInv x) (env : TimingEnv) (r : RefId) (c : RefConfig) :
    RefInv (x.configure env r c) := by
  unfold Ref.configure
  dsimp only
  split
  · exact .cleared rfl rfl
  · split
    · exact .cleared rfl rfl
    · exact h.of_eq rfl rfl

/-! ### The unit -/

/-- What no operation of the unit but its own requests and the seconds clock changes. -/
structure TimingFrame (t u : Timing) : Prop where
  settings : u.settings = t.settings
  forced : u.forced = t.forced
  nextTick : u.nextTick = t.nextTick

theorem TimingFrame.refl (t : Timing) : TimingFrame t t := ⟨rfl, rfl, rfl⟩

theorem TimingFrame.trans {t u v : Timing} (a : TimingFrame t u) (b : TimingFrame u v) : TimingFrame t v :=
  ⟨b.settings.trans a.settings, b.forced.trans a.forced, b.nextTick.trans a.nextTick⟩

/-- Sending changes the steering line alone (R188). -/
theorem Timing.send_eq (now : Nat) (t : Timing) :
    t.send now = { t with steering := (t.send now).steering, steerWaiting := (t.send now).steerWaiting } := by
  unfold Timing.send
  dsimp only
  repeat' split
  all_goals rfl

theorem Timing.stepped_eq (t : Timing) : t.stepped = { t with word := t.stepped.word } := by
  unfold Timing.stepped
  split <;> rfl

/-- An update changes the word and the steering line alone. -/
theorem Timing.stepWord_eq (now : Nat) (t : Timing) :
    t.stepWord now =
      { t with
        word := (t.stepWord now).word
        steering := (t.stepWord now).steering
        steerWaiting := (t.stepWord now).steerWaiting } := by
  unfold Timing.stepWord
  rw [Timing.send_eq, Timing.stepped_eq]

@[simp] theorem Timing.send_word (now : Nat) (t : Timing) : (t.send now).word = t.word := by rw [Timing.send_eq]

@[simp] theorem Timing.stepWord_word (now : Nat) (t : Timing) : (t.stepWord now).word = t.stepped.word := by
  unfold Timing.stepWord; simp

/-- A notice is all `note` adds. -/
theorem Timing.note_eq (env : TimingEnv) (t : Timing) : t.note env = { t with raised := (t.note env).raised } := by
  unfold Timing.note
  split <;> rfl

/-- The target of an update lies within ±100,000 ppb. -/
theorem TimingInv.target {t : Timing} (h : TimingInv t) {x : Int} (hx : t.steerTarget = some x) : steerable x := by
  unfold Timing.steerTarget at hx
  cases hs : t.state <;> simp only [hs] at hx
  · cases hx; exact ⟨by decide, by decide⟩
  all_goals try (cases hx; exact h.holdoverValue)
  all_goals
    cases hsel : t.selected with
    | none => simp [hsel] at hx
    | some r =>
      rw [hsel] at hx
      have := h.refs r
      rw [Option.bind_some, this.average] at hx
      exact averageOf_steerable this.samples hx

theorem TimingInv.steppedWord {t : Timing} (h : TimingInv t) : steerable t.stepped.word := by
  unfold Timing.stepped
  split
  · exact h.word
  · next x hx => exact steerWord_between _ (h.target hx) h.word

/-- The law depends on none of what a notice, a frame or the codes change. -/
theorem TimingInv.update {t u : Timing} (h : TimingInv t) (hw : steerable u.word)
    (e : u = { t with word := u.word, steering := u.steering, steerWaiting := u.steerWaiting, codes := u.codes, raised := u.raised }) :
    TimingInv u := by
  rw [e]
  exact ⟨h.refs, hw, h.history, h.holdoverValue, h.selecting, h.refout, h.holdover, h.acquiring, h.pushed, h.counted, h.ready⟩

theorem TimingInv.stepWord {t : Timing} (h : TimingInv t) (now : Nat) : TimingInv (t.stepWord now) :=
  h.update (by simpa using h.steppedWord) (by rw [Timing.stepWord_eq])

theorem TimingInv.note {t : Timing} (h : TimingInv t) (env : TimingEnv) : TimingInv (t.note env) :=
  h.update (by rw [Timing.note_eq]; exact h.word) (by rw [Timing.note_eq])

/-- The part of the law that a change of the selected reference leaves as it is. -/
structure TimingBody (t : Timing) : Prop where
  refs : ∀ r : RefId, RefInv t.refs[r]
  word : steerable t.word
  history : ∀ v ∈ t.history, steerable v
  holdoverValue : steerable t.holdoverValue
  pushed : t.history.length = min 4 t.lockedUpdates
  counted : t.lockedUpdates ≤ 16
  ready : t.ready = decide (t.lockedUpdates = 16)

/-- The part that it changes: state, timers and selection agree. -/
structure TimingPhase (t : Timing) : Prop where
  selecting : t.selected.isSome = (decide (t.state = .acquiring) || decide (t.state = .locked))
  holdover : t.holdoverTimer.isSome = decide (t.state = .holdover)
  acquiring : t.acquireTimer.isSome → t.state = .acquiring

theorem TimingInv.body {t : Timing} (h : TimingInv t) : TimingBody t :=
  ⟨h.refs, h.word, h.history, h.holdoverValue, h.pushed, h.counted, h.ready⟩

theorem TimingInv.phase {t : Timing} (h : TimingInv t) : TimingPhase t := ⟨h.selecting, h.holdover, h.acquiring⟩

theorem TimingInv.of {t : Timing} (b : TimingBody t) (p : TimingPhase t) (r : t.refout = t.selected) : TimingInv t :=
  ⟨b.refs, b.word, b.history, b.holdoverValue, p.selecting, r, p.holdover, p.acquiring, b.pushed, b.counted, b.ready⟩

/-- The codes and REFOUT given out afresh: with state and selection in agreement, REFOUT carries the selected reference (R130). -/
theorem giveOut_refout {t : Timing} (h : TimingPhase t) : t.giveOut.refout = t.giveOut.selected := by
  have := h.selecting
  unfold Timing.giveOut
  dsimp only
  cases hs : t.state <;> cases hsel : t.selected <;> simp_all

theorem TimingInv.giveOut {t : Timing} (b : TimingBody t) (p : TimingPhase t) : TimingInv t.giveOut :=
  .of ⟨b.refs, b.word, b.history, b.holdoverValue, b.pushed, b.counted, b.ready⟩ ⟨p.selecting, p.holdover, p.acquiring⟩
    (giveOut_refout p)

theorem TimingPhase.of_eq {t u : Timing} (h : TimingPhase t) (h1 : u.selected = t.selected) (h2 : u.state = t.state)
    (h3 : u.holdoverTimer = t.holdoverTimer) (h4 : u.acquireTimer = t.acquireTimer) : TimingPhase u :=
  ⟨by rw [h1, h2]; exact h.selecting, by rw [h3, h2]; exact h.holdover, by rw [h4, h2]; exact h.acquiring⟩

theorem TimingBody.target {t : Timing} (h : TimingBody t) {x : Int} (hx : t.steerTarget = some x) : steerable x := by
  unfold Timing.steerTarget at hx
  cases hs : t.state <;> simp only [hs] at hx
  · cases hx; exact ⟨by decide, by decide⟩
  all_goals try (cases hx; exact h.holdoverValue)
  all_goals
    cases hsel : t.selected with
    | none => simp [hsel] at hx
    | some r =>
      rw [hsel] at hx
      have := h.refs r
      rw [Option.bind_some, this.average] at hx
      exact averageOf_steerable this.samples hx

theorem TimingBody.stepWord {t : Timing} (h : TimingBody t) (now : Nat) : TimingBody (t.stepWord now) := by
  have hw : steerable t.stepped.word := by
    unfold Timing.stepped
    split
    · exact h.word
    · next x hx => exact steerWord_between _ (h.target hx) h.word
  rw [Timing.stepWord_eq]
  exact ⟨h.refs, by rw [Timing.stepWord_word]; exact hw, h.history, h.holdoverValue, h.pushed, h.counted, h.ready⟩

theorem TimingPhase.stepWord {t : Timing} (h : TimingPhase t) (now : Nat) : TimingPhase (t.stepWord now) := by
  rw [Timing.stepWord_eq]
  exact h.of_eq rfl rfl rfl rfl

/-- The state after a change of the selected reference (R126, R128). -/
theorem TimingBody.moveState {t : Timing} (h : TimingBody t) (now : Nat) : TimingBody (t.moveState now) := by
  have hv : steerable (t.history.headD 0) := by
    cases hh : t.history with
    | nil => exact ⟨by decide, by decide⟩
    | cons x xs => exact h.history x (by rw [hh]; exact List.mem_cons_self)
  unfold Timing.moveState
  repeat' split
  all_goals first
    | exact h
    | exact ⟨h.refs, h.word, h.history, h.holdoverValue, h.pushed, h.counted, h.ready⟩
    | exact ⟨h.refs, h.word, h.history, hv, h.pushed, h.counted, h.ready⟩

theorem TimingPhase.moveState {t : Timing} (h : TimingPhase t) (sel : Option RefId) (now : Nat) :
    TimingPhase ({ t with selected := sel }.moveState now) := by
  have h1 := h.holdover
  have h2 := h.acquiring
  unfold Timing.moveState
  cases sel with
  | some r => exact ⟨by simp, by simp, by simp⟩
  | none =>
    dsimp only
    cases hs : t.state <;> dsimp only
    · exact ⟨by simp, by simpa [hs] using h1, by simpa [hs] using h2⟩
    · cases t.ready <;> exact ⟨by simp, by simp_all, by simp⟩
    · cases t.ready <;> exact ⟨by simp, by simp_all, by simp⟩
    · exact ⟨by simp, by simpa [hs] using h1, by simpa [hs] using h2⟩

theorem TimingBody.of_eq {t u : Timing} (h : TimingBody t) (h1 : u.refs = t.refs) (h2 : u.word = t.word) (h3 : u.history = t.history)
    (h4 : u.holdoverValue = t.holdoverValue) (h5 : u.lockedUpdates = t.lockedUpdates) (h6 : u.ready = t.ready) : TimingBody u :=
  ⟨by rw [h1]; exact h.refs, by rw [h2]; exact h.word, by rw [h3]; exact h.history, by rw [h4]; exact h.holdoverValue,
    by rw [h3, h5]; exact h.pushed, by rw [h5]; exact h.counted, by rw [h5, h6]; exact h.ready⟩

/-- Selection re-evaluated: the law holds after it if it held before, whatever the references now are (R125, R126, R128, R130). -/
theorem timingInv_reselect {t : Timing} (env : TimingEnv) (b : TimingBody t) (p : TimingPhase t) : TimingInv (t.reselect env) := by
  unfold Timing.reselect
  dsimp only
  split
  · exact TimingInv.giveOut b p
  · have b' : TimingBody ({ t with selected := t.selection env.ports }.moveState env.now) :=
      (b.of_eq (u := { t with selected := t.selection env.ports }) rfl rfl rfl rfl rfl rfl).moveState env.now
    have p' := p.moveState (t.selection env.ports) env.now
    split
    · exact (TimingInv.giveOut b' p').note env
    · exact (TimingInv.giveOut (b'.stepWord env.now) (p'.stepWord env.now)).note env

theorem timingInv_modRef {t : Timing} (env : TimingEnv) (r : RefId) {f : Ref → Ref} (h : TimingInv t)
    (hf : ∀ x, RefInv x → RefInv (f x)) : TimingInv (t.modRef env r f) := by
  refine timingInv_reselect env ⟨fun q => ?_, h.word, h.history, h.holdoverValue, h.pushed, h.counted, h.ready⟩
    (h.phase.of_eq rfl rfl rfl rfl)
  show RefInv (upd t.refs r f)[q]
  rw [upd_get]
  split
  · exact hf _ (h.refs r)
  · exact h.refs q

theorem timingInv_modRefs {t : Timing} (env : TimingEnv) {f : RefId → Ref → Ref} (h : TimingInv t)
    (hf : ∀ r x, RefInv x → RefInv (f r x)) : TimingInv (t.modRefs env f) := by
  refine timingInv_reselect env ⟨fun q => ?_, h.word, h.history, h.holdoverValue, h.pushed, h.counted, h.ready⟩
    (h.phase.of_eq rfl rfl rfl rfl)
  show RefInv (tab 6 fun r => f r t.refs[r])[q]
  rw [tab_get]
  exact hf q _ (h.refs q)

theorem timingInv_portChanged {t : Timing} (env : TimingEnv) (p : PortId) (h : TimingInv t) : TimingInv (t.portChanged env p) :=
  timingInv_modRefs env h fun r x hx => by
    split
    · exact hx.sourceChanged env r
    · exact hx

theorem timingInv_followSelectors {t : Timing} (env : TimingEnv) (h : TimingInv t) : TimingInv (t.followSelectors env) := by
  unfold Timing.followSelectors
  dsimp only
  split
  · refine timingInv_modRefs env h fun r x hx => ?_
    split
    · exact hx.follow env r _
    · exact hx
  · exact h

theorem timingInv_regroup {t : Timing} (env : TimingEnv) (g : GroupId) (h : TimingInv t) : TimingInv (t.regroup env g) :=
  timingInv_modRefs env h fun r x hx => by
    split
    · split
      · exact hx.regroup env r _
      · exact hx
    · exact hx

theorem timingInv_sample {t : Timing} (env : TimingEnv) (r : RefId) {s : Sample} (hs : steerable s.ppb) (next : Option Nat)
    (h : TimingInv t) : TimingInv (t.sample env r s next) :=
  timingInv_modRef env r h fun x hx =>
    ((hx.takeSample hs).of_eq (y := { x.takeSample s with measuring := next }) rfl rfl).judge t.settings env.now s

/-- A locked update's average joins the history (R127). -/
theorem TimingInv.push {t : Timing} (h : TimingInv t) : TimingInv t.push := by
  unfold Timing.push
  split
  · exact h
  · next a ha =>
    have hs : steerable a := by
      cases hsel : t.selected with
      | none => simp [hsel] at ha
      | some r =>
        rw [hsel] at ha
        have := h.refs r
        rw [Option.bind_some, this.average] at ha
        exact averageOf_steerable this.samples ha
    have hp := h.pushed
    have hc := h.counted
    have hr := h.ready
    refine ⟨h.refs, h.word, fun v hv => ?_, h.holdoverValue, h.selecting, h.refout, h.holdover, h.acquiring, ?_, ?_, ?_⟩
    · have := List.mem_of_mem_drop hv
      simp only [List.mem_append, List.mem_singleton] at this
      rcases this with this | rfl
      · exact h.history v this
      · exact hs
    · simp only [List.length_drop, List.length_append, List.length_singleton]
      omega
    · dsimp only; omega
    · dsimp only
      rw [hr]
      by_cases e : t.lockedUpdates = 16 <;> simp [e]

/-- An update keeps the law, at a tick and at a state change (R126, R127, R129). -/
theorem timingInv_update {t : Timing} (env : TimingEnv) (tick : Bool) (h : TimingInv t) : TimingInv (t.update env tick) := by
  unfold Timing.update
  split
  · next hl =>
    have hst : t.state = .acquiring ∧ t.acquireTimer = none := by
      unfold Timing.locks at hl
      simp only [Bool.and_eq_true, decide_eq_true_eq, Option.isNone_iff_eq_none] at hl
      exact ⟨hl.1.1, hl.1.2⟩
    have b : TimingBody ({ t.stepped with state := TimingState.locked }.send env.now) := by
      have hw := h.steppedWord
      rw [Timing.stepped_eq, Timing.send_eq]
      exact ⟨h.refs, hw, h.history, h.holdoverValue, h.pushed, h.counted, h.ready⟩
    have p : TimingPhase ({ t.stepped with state := TimingState.locked }.send env.now) := by
      have h1 := h.selecting
      have h2 := h.holdover
      rw [Timing.stepped_eq, Timing.send_eq]
      exact ⟨by simp_all, by simp_all, by simp [hst.2]⟩
    exact (TimingInv.giveOut (b.stepWord env.now) (p.stepWord env.now)).note env
  · split
    · exact (h.stepWord env.now).push
    · exact h.stepWord env.now

/-- The end of holdover keeps the law (R128). -/
theorem timingInv_endHoldover {t : Timing} (env : TimingEnv) (h : TimingInv t) (hs : t.state = .holdover) :
    TimingInv (Timing.endHoldover env t) := by
  unfold Timing.endHoldover
  have h1 := h.selecting
  have h2 := h.acquiring
  have b : TimingBody { t with state := .freeRun, holdoverTimer := none, ready := false, history := [], lockedUpdates := 0 } :=
    ⟨h.refs, h.word, by simp, h.holdoverValue, rfl, by simp, rfl⟩
  have p : TimingPhase { t with state := .freeRun, holdoverTimer := none, ready := false, history := [], lockedUpdates := 0 } :=
    ⟨by simp_all, by simp, by simp_all⟩
  exact (TimingInv.giveOut (b.stepWord env.now) (p.stepWord env.now)).note env

/-- Settings, force and lockouts enter the law nowhere. -/
theorem timingInv_act {t : Timing} (env : TimingEnv) (a : TimingAction) (h : TimingInv t) :
    TimingInv ((t.act a).reselect env) := by
  cases a with
  | force r => exact timingInv_reselect env (h.body.of_eq rfl rfl rfl rfl rfl rfl) (h.phase.of_eq rfl rfl rfl rfl)
  | clearForce => exact timingInv_reselect env (h.body.of_eq rfl rfl rfl rfl rfl rfl) (h.phase.of_eq rfl rfl rfl rfl)
  | lockout r => exact timingInv_modRef env r h fun _ hx => hx.of_eq rfl rfl
  | unlock r => exact timingInv_modRef env r h fun _ hx => hx.of_eq rfl rfl

/-! ### What selection leaves -/

theorem timingFrame_reselect (env : TimingEnv) (t : Timing) : TimingFrame t (t.reselect env) := by
  have hm : ∀ u : Timing, TimingFrame u (u.moveState env.now) := by
    intro u
    unfold Timing.moveState
    repeat' split
    all_goals exact ⟨rfl, rfl, rfl⟩
  have hs : ∀ u : Timing, TimingFrame u (u.stepWord env.now) := fun u => by rw [Timing.stepWord_eq]; exact ⟨rfl, rfl, rfl⟩
  have hn : ∀ u : Timing, TimingFrame u (u.giveOut.note env) := fun u => by rw [Timing.note_eq]; exact ⟨rfl, rfl, rfl⟩
  unfold Timing.reselect
  dsimp only
  split
  · exact ⟨rfl, rfl, rfl⟩
  · have h0 : TimingFrame t { t with selected := t.selection env.ports } := ⟨rfl, rfl, rfl⟩
    split
    · exact (h0.trans (hm _)).trans (hn _)
    · exact ((h0.trans (hm _)).trans (hs _)).trans (hn _)

theorem timingFrame_modRef (env : TimingEnv) (r : RefId) (f : Ref → Ref) (t : Timing) : TimingFrame t (t.modRef env r f) :=
  TimingFrame.trans (u := { t with refs := upd t.refs r f }) ⟨rfl, rfl, rfl⟩ (timingFrame_reselect env _)

theorem timingFrame_modRefs (env : TimingEnv) (f : RefId → Ref → Ref) (t : Timing) : TimingFrame t (t.modRefs env f) :=
  TimingFrame.trans (u := { t with refs := tab 6 fun r => f r t.refs[r] }) ⟨rfl, rfl, rfl⟩ (timingFrame_reselect env _)

theorem timingFrame_portChanged (env : TimingEnv) (p : PortId) (t : Timing) : TimingFrame t (t.portChanged env p) :=
  timingFrame_modRefs env _ t

theorem timingFrame_followSelectors (env : TimingEnv) (t : Timing) : TimingFrame t (t.followSelectors env) := by
  unfold Timing.followSelectors
  dsimp only
  split
  · exact timingFrame_modRefs env _ t
  · exact .refl t

/-- The references a re-evaluation leaves are those it found. -/
theorem reselect_refs (env : TimingEnv) (t : Timing) : (t.reselect env).refs = t.refs := by
  have hm : ∀ u : Timing, (u.moveState env.now).refs = u.refs := by
    intro u
    unfold Timing.moveState
    repeat' split
    all_goals rfl
  have hs : ∀ u : Timing, (u.stepWord env.now).refs = u.refs := fun u => by rw [Timing.stepWord_eq]
  have hn : ∀ u : Timing, (u.giveOut.note env).refs = u.refs := fun u => by rw [Timing.note_eq]; rfl
  unfold Timing.reselect
  dsimp only
  split
  · rfl
  · split
    · rw [hn, hm]
    · rw [hn, hs, hm]

/-! ### The selected reference (R122, R123, R125, R131) -/

theorem Ref.selectable_iff (ports : Vector Port 32) (r : RefId) (x : Ref) :
    x.selectable ports r = true ↔ (x.enabled = true ∧ x.present = true ∧ x.state = .qualified ∧ x.quality r ≠ 15 ∧ x.lockedOut = false)
      ∧ (2 ≤ r.val → ∃ p, x.source = some p ∧ ports[p].raw ≠ .fail) := by
  unfold Ref.selectable isOffice
  simp only [Bool.and_eq_true, Bool.or_eq_true, decide_eq_true_eq, Bool.not_eq_true', Option.any_eq_true, and_assoc]
  by_cases h : r.val < 2
  · simp [h, show ¬ 2 ≤ r.val by omega]
  · simp [h, show 2 ≤ r.val by omega]

theorem mem_selectables {ports : Vector Port 32} {t : Timing} {r : RefId} :
    r ∈ t.selectables ports ↔ t.refs[r].selectable ports r = true := by
  unfold Timing.selectables
  simp

theorem best_selectable {ports : Vector Port 32} {t : Timing} {r : RefId} (h : t.best ports = some r) :
    t.refs[r].selectable ports r = true := by
  rw [← mem_selectables]
  have fold : ∀ (rs : List RefId) (x : RefId), rs.foldl (fun x y => if t.ranksBetter y x then y else x) x ∈ x :: rs := by
    intro rs
    induction rs with
    | nil => intro x; simp
    | cons y ys ih =>
      intro x
      rw [List.foldl_cons]
      split
      · exact List.mem_cons_of_mem _ (ih y)
      · rcases List.mem_cons.1 (ih x) with e | e
        · rw [e]; exact List.mem_cons_self
        · exact List.mem_cons_of_mem _ (List.mem_cons_of_mem _ e)
  unfold Timing.best at h
  split at h
  · cases h
  · next x xs e =>
    cases h
    rw [e]
    exact fold xs x

/-- What R123 selects is selectable. -/
theorem selection_selectable {ports : Vector Port 32} {t : Timing} {r : RefId} (h : t.selection ports = some r) :
    t.refs[r].selectable ports r = true := by
  unfold Timing.selection at h
  dsimp only at h
  split at h
  · next hf => rw [h] at hf; simpa using hf
  · split at h
    · exact best_selectable h
    · next sel _ =>
      split at h
      · exact best_selectable h
      · next hc =>
        split at h
        · exact best_selectable h
        · split at h
          · exact best_selectable h
          · cases h
            simpa using hc

theorem SelectionInv.of_eq {ports : Vector Port 32} {t u : Timing} (h : SelectionInv ports t) (h1 : u.selected = t.selected)
    (h2 : u.refs = t.refs) (h3 : u.state = t.state) (h4 : u.codes = t.codes) (h5 : u.settings = t.settings) : SelectionInv ports u :=
  ⟨by rw [h1, h2]; exact h.able, by rw [h1, h2]; exact h.healthy, by rw [h1, h2, h3, h4]; exact h.codes,
    by rw [h1, h3, h4, h5]; exact h.heldCodes, by rw [h1, h3, h4, h5]; exact h.freeCodes⟩

theorem SelectionInv.ports {ports new : Vector Port 32} {t : Timing} (h : SelectionInv ports t)
    (e : ∀ p : PortId, new[p].raw = ports[p].raw) : SelectionInv new t :=
  ⟨h.able, fun r hr h2 => (h.healthy r hr h2).imp fun p hp => ⟨hp.1, by rw [e]; exact hp.2⟩, h.codes, h.heldCodes, h.freeCodes⟩

/-- The codes given out afresh for a selection that is selectable. -/
theorem selectionInv_giveOut {ports : Vector Port 32} {t : Timing}
    (h : ∀ r, t.selected = some r → t.refs[r].selectable ports r = true) : SelectionInv ports t.giveOut where
  able := fun r hr => ((Ref.selectable_iff ports r _).1 (h r hr)).1
  healthy := fun r hr => ((Ref.selectable_iff ports r _).1 (h r hr)).2
  codes := by
    intro r p hr hs
    have hr' : t.selected = some r := hr
    have hs' : t.state = .acquiring ∨ t.state = .locked := hs
    simp only [Timing.giveOut, tab_get, hr', Option.bind_some]
    by_cases h2 : 2 ≤ r.val
    · have ho : isOffice r = false := by simp only [isOffice, decide_eq_false_iff_not]; omega
      simp only [ho, Bool.false_eq_true, if_false, h2, true_and]
      rcases hs' with e | e <;> simp only [e]
    · have ho : isOffice r = true := by simp only [isOffice, decide_eq_true_eq]; omega
      simp only [ho, if_true, h2, false_and, if_false]
      rcases hs' with e | e <;> simp [e]
  heldCodes := by
    intro p hr hs
    have hr' : t.selected = none := hr
    have hs' : t.state = .holdover := hs
    simp only [Timing.giveOut, tab_get, hr', hs', Option.bind_none, reduceCtorEq, if_false]
  freeCodes := by
    intro p hr hs
    have hr' : t.selected = none := hr
    have hs' : t.state = .freeRun := hs
    simp only [Timing.giveOut, tab_get, hr', hs', Option.bind_none, reduceCtorEq, if_false]

/-- Selection re-evaluated leaves a selectable reference selected, whatever stood before (R125). -/
theorem selectionInv_reselect (env : TimingEnv) (t : Timing) : SelectionInv env.ports (t.reselect env) := by
  unfold Timing.reselect
  dsimp only
  split
  · next e => exact selectionInv_giveOut fun r hr => selection_selectable (e.trans hr)
  · rw [Timing.note_eq]
    have hm : ∀ u : Timing, (u.moveState env.now).selected = u.selected ∧ (u.moveState env.now).refs = u.refs := by
      intro u
      unfold Timing.moveState
      repeat' split
      all_goals exact ⟨rfl, rfl⟩
    have hn : ∀ u : Timing, (u.stepWord env.now).selected = u.selected ∧ (u.stepWord env.now).refs = u.refs := by
      intro u; rw [Timing.stepWord_eq]; exact ⟨rfl, rfl⟩
    obtain ⟨h1, h2⟩ := hm { t with selected := t.selection env.ports }
    have hu : ∀ u : Timing, u.selected = t.selection env.ports → u.refs = t.refs → SelectionInv env.ports u.giveOut :=
      fun u e1 e2 => selectionInv_giveOut fun r hr => by rw [e2]; exact selection_selectable (e1.symm.trans hr)
    split
    · exact (hu _ h1 h2).of_eq rfl rfl rfl rfl rfl
    · exact (hu _ ((hn _).1.trans h1) ((hn _).2.trans h2)).of_eq rfl rfl rfl rfl rfl

theorem selectionInv_followSelectors (env : TimingEnv) {t : Timing} (h : SelectionInv env.ports t) :
    SelectionInv env.ports (t.followSelectors env) := by
  unfold Timing.followSelectors
  dsimp only
  split
  · exact selectionInv_reselect env _
  · exact h

theorem SelectionInv.stepWord {ports : Vector Port 32} {t : Timing} (h : SelectionInv ports t) (now : Nat) :
    SelectionInv ports (t.stepWord now) := by
  rw [Timing.stepWord_eq]; exact h.of_eq rfl rfl rfl rfl rfl

theorem SelectionInv.selectable {ports : Vector Port 32} {t : Timing} (h : SelectionInv ports t) {r : RefId}
    (hr : t.selected = some r) : t.refs[r].selectable ports r = true :=
  (Ref.selectable_iff ports r _).2 ⟨h.able r hr, h.healthy r hr⟩

theorem selectionInv_update (env : TimingEnv) (tick : Bool) {t : Timing} (h : SelectionInv env.ports t) :
    SelectionInv env.ports (t.update env tick) := by
  unfold Timing.update
  split
  · rw [Timing.note_eq]
    refine SelectionInv.of_eq (selectionInv_giveOut fun r hr => ?_) rfl rfl rfl rfl rfl
    rw [Timing.stepWord_eq, Timing.send_eq, Timing.stepped_eq] at hr ⊢
    exact h.selectable hr
  · split
    · unfold Timing.push
      split
      · exact h.stepWord _
      · exact (h.stepWord env.now).of_eq rfl rfl rfl rfl rfl
    · exact h.stepWord _

theorem selectionInv_endHoldover (env : TimingEnv) {t : Timing} (h : SelectionInv env.ports t) :
    SelectionInv env.ports (Timing.endHoldover env t) := by
  unfold Timing.endHoldover
  rw [Timing.note_eq]
  refine SelectionInv.of_eq (selectionInv_giveOut fun r hr => ?_) rfl rfl rfl rfl rfl
  rw [Timing.stepWord_eq] at hr ⊢
  exact h.selectable hr

end Sys2Proof.Machine
end

