-- ==== Sys2Proof/Laws/Changes.lean ====
section
/-! SUPPORT. What a step can do, said once: every command is a run of the changes below, and a law that every change keeps is kept by every
step. -/

namespace Sys2Proof.Machine

/-- A port record that SET-PORT accepts (R1, R2). -/
structure RecordOk (cfg : PortRecord) : Prop where
  thresholds : cfg.tFail < cfg.tDeg ∧ cfg.tDeg < cfg.tOver
  persistence : cfg.persistence = 1 ∨ cfg.persistence = 3

/-- A group record that SET-GROUP accepts (R45, steps 3 and 4). -/
structure ConfigOk (c : GroupConfig) : Prop where
  count : countFits c.type c.ends c.count = true
  addresses : c.addresses.Nodup

/-- What an event at an enabled port keeps: the port's record is still one SET-PORT accepts, it stays enabled, its conditions and
hold-off timer are not touched, and its noise window and Ps stay in their ranges. -/
structure PortStep (f : Port → Port) : Prop where
  record : ∀ p, RecordOk p.cfg → RecordOk (f p).cfg
  enabled : ∀ p, p.cfg.enabled = true → (f p).cfg.enabled = true
  raw : ∀ p, (f p).raw = p.raw
  reported : ∀ p, (f p).reported = p.reported
  holdTimer : ∀ p, (f p).holdTimer = p.holdTimer
  window : ∀ p, p.buckets.length = 10 → (f p).buckets.length = 10
  ps : ∀ p, (f p).ps = p.ps

/-- What pilot service changes in a port: nothing that its record, its findings or its conditions hold, and nothing at all in a
disabled port. -/
structure ServiceOnly (f : Port → Port) : Prop where
  disabled : ∀ p, p.cfg.enabled = false → p = .disabled p.cfg → f p = p
  keeps : ∀ p, (f p).cfg = p.cfg ∧ (f p).raw = p.raw ∧ (f p).rawCondition = p.rawCondition ∧ (f p).reported = p.reported
    ∧ (f p).holdTimer = p.holdTimer ∧ (f p).buckets = p.buckets ∧ (f p).ps = p.ps

/-- The changes a step is made of. -/
inductive Change : State → State → Prop
  | clock (s : State) (n : Nat) : Change s { s with now := n }
  | draws (s : State) (n : Nat) : Change s { s with orderDraws := n }
  | link (s : State) (l : LinkId) (f : Link → Link) (h : ∀ k, (f k).role = k.role) : Change s (modLink l f s)
  | finish (s : State) (e : Expiry) : Change s (finish e s)
  | identity (s : State) (a b : Byte) : Change s { s with shelf := a, slot := b }
  | ranges (s : State) (r : Vector RangeEntry 4) : Change s { s with ranges := r }
  | noticeSettings (s : State) (sev : Severity) (g t : Bool) :
      Change s { s with notices := { s.notices with threshold := sev, groupEnable := g, timingEnable := t } }
  | noticePop (s : State) (n : Notice) (rest : List Notice) (h : s.notices.queue = n :: rest) :
      Change s { s with notices := s.notices.pop rest }
  | raise (s : State) (n : Notice) : Change s (raise n s)
  | profile (s : State) (k : Fin 21) (e : ProfileEntry) : Change s (writeProfile k e s)
  | acknowledge (s : State) : Change s (acknowledge s)
  | pin (s : State) (p : AcoPin) : Change s (pinTo p s)
  | enable (s : State) (p : PortId) (cfg : PortRecord) (h0 : s.ports[p].cfg.enabled = false) (h1 : cfg.enabled = true)
      (ok : RecordOk cfg) : Change s (scanEnabled p (setPortTo p (Port.startService s.now cfg) s))
  | disable (s : State) (p : PortId) (cfg : PortRecord) (h0 : s.ports[p].cfg.enabled = true) (h1 : cfg.enabled = false)
      (free : memberOf s.sw.groups p = none) (ok : RecordOk cfg) :
      Change s (scanDisabled p (setPortTo p (Port.disabled cfg) s))
  | redefine (s : State) (p : PortId) (cfg : PortRecord) (h0 : s.ports[p].cfg.enabled = false) (h1 : cfg.enabled = false)
      (ok : RecordOk cfg) : Change s { s with ports := s.ports.set p { s.ports[p] with cfg := cfg } }
  | port (s : State) (p : PortId) (f : Port → Port) (h : s.ports[p].cfg.enabled = true ∨ s.ports[p].lossTimer.isSome)
      (hf : PortStep f) : Change s (portEvent p f s)
  | convert (s : State) (c : Conversion) (code : Nat) (h : s.conversion = some c) (used : c.used = true) :
      Change s (portEvent c.port (Port.convert code) s)
  | holdOff (s : State) (p : PortId) (t : Nat) (h : s.ports[p].holdTimer = some t) :
      Change s (setPortTo p s.ports[p].holdOffExpire s)
  | service (s : State) (p : PortId) (f : Port → Port) (hf : ServiceOnly f) : Change s { s with ports := upd s.ports p f }
  | tick (s : State) : Change s (portsInTurn (unsettled (tickPorts s)) (tickPorts s))
  | scan (s : State) (c : Option Conversion)
      (h : ∀ x, c = some x → x.used = true → s.ports[x.port].cfg.enabled = true) : Change s { s with conversion := c }
  | test (s : State) (t : Option CableTest) : Change s { s with cableTest := t }
  | switch (s : State) (f : SwEnv → Switching → Switching) (h : ∀ env w, SameRecords w (f env w))
      (hq : QueueInv s.sw → QueueInv (f s.swEnv s.sw)) : Change s (inSwitch f s)
  | switchOnly (s : State) (w : Switching) (h : SameRecords s.sw w) (hq : QueueInv s.sw → QueueInv w) :
      Change s { s with sw := w }
  | group (s : State) (g : GroupId) (c : GroupConfig) (ok : ConfigOk c) (free : groupConflict s g c = false) :
      Change s (writeGroup g c s)
  | remove (s : State) (g : GroupId) (free : s.sw.opOf g = none) : Change s (removeGroup g s)
  | timing (s : State) (f : TimingEnv → Timing → Timing) (h : ∀ env t, TimingInv t → TimingInv (f env t))
      (hs : ∀ env t, SelectionInv env.ports t → SelectionInv env.ports (f env t)) : Change s (inTiming f s)
  | steering (s : State) (a : Option (List Byte × Nat)) (b : Option (List Byte)) (n : Nat) :
      Change s { s with timing := { s.timing with steering := a, steerWaiting := b, nextTick := n } }
  | acquired (s : State) : Change s { s with timing := { s.timing with acquireTimer := none } }
  | endHoldover (s : State) (t : Nat) (h : s.timing.holdoverTimer = some t) : Change s (inTiming Timing.endHoldover s)
  | grant (s : State) (l : LinkId) (h : (s.links.link l).role = .observer) (ho : (s.links.link (otherLink l)).role ≠ .master) :
      Change s (grant l s)
  | claims (s : State) (l : LinkId) (h : (s.links.link l).role = .observer)
      (ho : (s.links.link (otherLink l)).role = .master) : Change s (modLink l (fun k => { k with role := .claimant }) s)
  | handover (s : State) (l : LinkId) (h : (s.links.link l).role = .master)
      (ho : (s.links.link (otherLink l)).role = .claimant) :
      Change s (grant (otherLink l)
        { s with links := { s.links.modLink l fun k => { k with role := .observer } with periodTimer := none } })
  | leave (s : State) (l : LinkId) (h : (s.links.link l).role = .master)
      (ho : (s.links.link (otherLink l)).role ≠ .claimant) :
      Change s { s with links := { s.links.modLink l fun k => { k with role := .observer } with periodTimer := none } }
  | lapse (s : State) : Change s { s with links := s.links.lapse }
  | keep (s : State) (l : LinkId) (h : (s.links.link l).role = .master) : Change s { s with links := s.links.keep s.now }
  | watch (s : State) (mode : WatchMode) (period limit : Nat) (hp : 200 ≤ period ∧ period ≤ 10000 ∧ period % 100 = 0)
      (hl : 1 ≤ limit ∧ limit ≤ 4) :
      Change s { s with links := ({ s.links with mode := mode, period := period, lapseLimit := limit }).judgeShf }
  | restart (s : State) : Change s (restartLinks s)
  | reset (s : State) (rate : BitVec 2) (now draws order : Nat) (q : List Instr) :
      Change s (.afterReset rate now draws order q)

/-- A run of changes. -/
abbrev Run : State → State → Prop := Relation.ReflTransGen Change

/-- A law that every change keeps is kept by a run. -/
theorem Run.induct {P : State → Prop} (hP : ∀ s t, Change s t → P s → P t) {s t : State} (h : Run s t) (hs : P s) : P t := by
  induction h with
  | refl => exact hs
  | tail _ m ih => exact hP _ _ m ih

/-! ### The move queue at a port's event and at an event's end -/

theorem tellGroup_queue {s : State} (i : QueueInv s.sw) (p : PortId) (old : Port) : QueueInv (tellGroup p old s).sw := by
  unfold tellGroup
  dsimp only
  split
  · exact i
  · split
    · rw [inSwitch_sw]; exact i.memberEvent _ _ _ _ _
    · split
      · rw [inSwitch_sw]; exact i.event _ _ i
      · exact i

theorem setPortTo_queue {s : State} (i : QueueInv s.sw) (p : PortId) (new : Port) : QueueInv (setPortTo p new s).sw := by
  unfold setPortTo
  dsimp only
  rw [tellTiming_sw]
  exact tellGroup_queue (s := { s with ports := s.ports.set p new }) i p _

theorem finish_queueInv {s : State} (i : QueueInv s.sw) (e : Expiry) : QueueInv (finish e s).sw := by
  rw [finish_sw]
  exact i.arbitrate.of_eq rfl rfl i.arbitrate.choice

/-! ### Runs of the shared operations -/

theorem run_reach (n : Nat) (s : State) : Run s (s.reach n) := .single (.clock s _)

theorem run_groupsInTurn (gs : List GroupId) {f : GroupId → SwEnv → Switching → Switching}
    (hf : ∀ g env w, SameRecords w (f g env w)) (hq : ∀ g env w, QueueInv w → QueueInv (f g env w)) (s : State) :
    Run s (groupsInTurn gs f s) :=
  groupsInTurn_induct (P := Run s) gs (fun n => .single (.draws s n)) fun g t ht => ht.tail (.switch t _ (hf g) (hq g _ _))

theorem run_masterless (s : State) : Run s (masterless s) :=
  run_groupsInTurn _ (fun g env w => (onlyGroup_masterless env g w).sameRecords) (fun g env _ i => i.masterless env g) s

theorem Link.answer_role (payload : List Byte) (k : Link) : (k.answer payload).role = k.role := by
  unfold Link.answer
  split <;> rfl

theorem Port.serviceOnly_resumeOut (now : Nat) : ServiceOnly (Port.resumeOut now) := by
  refine ⟨fun p h _ => by simp [Port.resumeOut, h], fun p => ?_⟩
  unfold Port.resumeOut
  split <;> exact ⟨rfl, rfl, rfl, rfl, rfl, rfl, rfl⟩

theorem Port.serviceOnly_resumeIn (now : Nat) : ServiceOnly (Port.resumeIn now) := by
  refine ⟨fun p h _ => by simp [Port.resumeIn, h], fun p => ?_⟩
  unfold Port.resumeIn
  split <;> exact ⟨rfl, rfl, rfl, rfl, rfl, rfl, rfl⟩

theorem run_resumeTest (s : State) : Run s (resumeTest s) := by
  unfold resumeTest
  split
  · exact .refl
  · next t _ =>
    exact ((Relation.ReflTransGen.single (Change.service s t.outPort _ (Port.serviceOnly_resumeOut s.now))).tail
      (.service _ t.inPort _ (Port.serviceOnly_resumeIn s.now))).tail (.test _ none)

theorem run_endTest (r : TestResult) (k : Nat) (s : State) : Run s (endTest r k s) := by
  unfold endTest
  split
  · exact .refl
  · exact (Relation.ReflTransGen.single (.link s _ _ (Link.answer_role _))).trans (run_resumeTest _)

theorem run_abortBroken (s : State) : Run s (abortBroken s) := by
  rcases abortBroken_cases s with e | e <;> rw [e]
  exact run_endTest _ _ s

theorem Link.settled_role (gs : List GroupId) (k : Link) : (k.settled gs).role = k.role := by
  unfold Link.settled
  split
  · exact Link.answer_role _ k
  · rfl

theorem run_settleReplies (s : State) : Run s (settleReplies s) := by
  unfold settleReplies
  split
  · exact ((Relation.ReflTransGen.single (.switchOnly s { s.sw with settleFail := [] } (.of_eq rfl rfl)
      fun i => i.of_eq rfl rfl i.choice)).tail (.link _ .b _ (Link.settled_role _))).tail
      (.link _ .a _ (Link.settled_role _))
  · exact .refl

theorem run_depart {s : State} {l : LinkId} (h : (s.links.link l).role = .master) : Run s (depart l s) := by
  unfold depart
  dsimp only
  have ho : ({ s.links.modLink l fun k => { k with role := .observer } with periodTimer := none } : LinkSupervisor).link
      (otherLink l) = s.links.link (otherLink l) := by cases l <;> rfl
  rw [ho]
  split
  · next hc => exact (Relation.ReflTransGen.single (.handover s l h hc)).tail (.raise _ _)
  · next hc => exact (Relation.ReflTransGen.single (.leave s l h hc)).trans (run_masterless _)

theorem run_lapse {s : State} {l : LinkId} (h : (s.links.link l).role = .master) : Run s (lapse l s) := by
  unfold lapse
  refine (Relation.ReflTransGen.single (.lapse s)).trans (run_depart ?_)
  cases l <;> exact h

/-- A taken request is a run if its handler is. -/
theorem run_takeRequest {l : LinkId} {tag kind : Byte} {fits masterOnly : Bool} {handle : Handler} {s : State}
    (hh : fits = true → ∀ u, (masterOnly = true → (u.links.link l).role = .master) → Run u (handle u).1) :
    Run s (takeRequest l tag kind fits masterOnly handle s) := by
  have hb : ∀ k : Link, (Link.busy tag kind k.frameTaken).role = k.role := by
    intro k; unfold Link.busy; split <;> rfl
  rcases takeRequest_cases l tag kind fits masterOnly handle s with ⟨_, e⟩ | ⟨_, _, e⟩ | ⟨_, _, _, _, e⟩ | ⟨_, hf, hm, e⟩ <;> rw [e]
  · exact .single (.link s l _ hb)
  · exact .single (.link s l _ fun k => by rw [Link.answer_role]; rfl)
  · exact .single (.link s l _ fun k => by rw [Link.answer_role]; rfl)
  · have h1 : Run s (modLink l (Link.deferredTo tag kind) s) := .single (.link s l _ fun _ => rfl)
    have h2 := hh hf (modLink l (Link.deferredTo tag kind) s) (fun h => by simpa using hm h)
    split
    · next t ht => rw [ht] at h2; exact h1.trans h2
    · next t p ht => rw [ht] at h2; exact (h1.trans h2).tail (.link _ l _ (Link.answer_role _))

/-- A request is a run if its handler is. -/
theorem run_request {l : LinkId} {tag kind : Byte} {fits masterOnly : Bool} {handle : Handler} {s : State}
    (hh : fits = true → ∀ u, (masterOnly = true → (u.links.link l).role = .master) → Run u (handle u).1) :
    Run s (request l tag kind fits masterOnly handle s) := by
  unfold request
  split
  · exact run_takeRequest hh
  · exact .refl

end Sys2Proof.Machine
end

