-- ==== Sys2Proof/Laws/Receivers.lean ====
section
/-! SUPPORT. What runs of samples do to a receiver (R10 to R13, R166 to R168): a run of 1s, a candidate start, a whole character, a break. -/

namespace Sys2Proof.Machine

/-! ### Character recovery -/

theorem CharRx.sample_one (n : Nat) : (CharRx.search n).sample true = (.search (n + 1), none) := rfl

theorem CharRx.sample_zero {n : Nat} (h : 3 ≤ n) : (CharRx.search n).sample false = (.taking n [false], none) := by
  simp [CharRx.sample, h]

/-- A 0 too soon after another (R10). -/
theorem CharRx.sample_early {n : Nat} (h : n < 3) : (CharRx.search n).sample false = (.search 0, none) := by
  simp [CharRx.sample, show ¬ 3 ≤ n by omega]

/-- A sample that neither ends the start verification as a false start nor takes the character. -/
theorem CharRx.sample_on {n : Nat} {before : List Bool} {b : Bool}
    (h5 : ¬ (before.length = 4 ∧ startVerified (before ++ [b]) = false)) (hl : before.length < 115) :
    (CharRx.taking n before).sample b = (.taking n (before ++ [b]), none) := by
  simp only [CharRx.sample, List.length_append, List.length_singleton, characterLength]
  rw [if_neg (by rintro ⟨h, v⟩; exact h5 ⟨by omega, v⟩), if_neg (by omega)]

/-- A false start (R10). -/
theorem CharRx.sample_false {n : Nat} {before : List Bool} {b : Bool} (h4 : before.length = 4)
    (hv : startVerified (before ++ [b]) = false) : (CharRx.taking n before).sample b = (.search 0, none) := by
  simp only [CharRx.sample, List.length_append, List.length_singleton]
  rw [if_pos ⟨by omega, hv⟩]

/-- The sample at which a character is taken (R11). -/
theorem CharRx.sample_last {n : Nat} {before : List Bool} {b : Bool} (h : before.length = 115) :
    (CharRx.taking n before).sample b = (.search 0, some (characterOf n (before ++ [b]))) := by
  simp only [CharRx.sample, List.length_append, List.length_singleton, characterLength]
  rw [if_neg (by rintro ⟨h', _⟩; omega), if_pos (by omega)]

/-- Only samples 1 to 5 decide whether a start is verified. -/
theorem startVerified_append {xs ys : List Bool} (h : 5 ≤ xs.length) : startVerified (xs ++ ys) = startVerified xs := by
  unfold startVerified sampleAt
  simp only [List.getD_eq_getElem?_getD]
  rw [List.getElem?_append_left (by omega), List.getElem?_append_left (by omega), List.getElem?_append_left (by omega)]

/-! ### The pilot receiver -/

/-- A run of samples taken by the receiver of a port, oldest first. -/
def Port.receive (now : Nat) (samples : List Bool) (p : Port) : Port := samples.foldl (Port.sample now) p

@[simp] theorem Port.receive_nil (now : Nat) (p : Port) : p.receive now [] = p := rfl

theorem Port.receive_cons (now : Nat) (b : Bool) (bs : List Bool) (p : Port) :
    p.receive now (b :: bs) = (p.sample now b).receive now bs := rfl

theorem Port.receive_one (now : Nat) (b : Bool) (p : Port) : p.receive now [b] = p.sample now b := rfl

theorem Port.receive_append (now : Nat) (xs ys : List Bool) (p : Port) :
    p.receive now (xs ++ ys) = (p.receive now xs).receive now ys := List.foldl_append

/-- A sample that takes no character. -/
theorem Port.sample_none {now : Nat} {b : Bool} {p : Port} {x : CharRx} (h : p.rx.chars.sample b = (x, none)) :
    p.sample now b = Port.spendAllowance { p with rx := ⟨p.rx.running, x⟩ } := by
  simp only [Port.sample, h]

/-- A sample that takes a character. -/
theorem Port.sample_some {now : Nat} {b : Bool} {p : Port} {x : CharRx} {c : RxChar} (h : p.rx.chars.sample b = (x, some c)) :
    p.sample now b = Port.takeChar now c { p with rx := ⟨p.rx.running, x⟩ } := by
  simp only [Port.sample, h]

theorem Port.spendAllowance_hunt {p : Port} (h : p.asm = .hunt) : p.spendAllowance = p := by
  unfold Port.spendAllowance; rw [h]

theorem Port.spendAllowance_more {p : Port} {chars : List RxChar} {left : Nat} (h : p.asm = .assembling chars left)
    (hl : 1 < left ∨ p.rx.chars.searching = false) : p.spendAllowance = { p with asm := .assembling chars (left - 1) } := by
  unfold Port.spendAllowance
  rw [h]
  dsimp only
  rw [if_neg (by rintro ⟨h1, h2⟩; rcases hl with h | h; · omega
                 · rw [h] at h2; cases h2)]

theorem Port.spendAllowance_out {p : Port} {chars : List RxChar} {left : Nat} (h : p.asm = .assembling chars left)
    (hl : left ≤ 1) (hs : p.rx.chars.searching = true) : p.spendAllowance = ({ p with asm := .hunt } : Port).countBad := by
  unfold Port.spendAllowance
  rw [h]
  dsimp only
  rw [if_pos ⟨hl, hs⟩]

/-- What is left of the allowance after some samples. -/
def Assembly.after (k : Nat) : Assembly → Assembly
  | .hunt => .hunt
  | .assembling chars left => .assembling chars (left - k)

/-- Whether the allowance outlasts this many samples. -/
def Assembly.outlasts (k : Nat) : Assembly → Prop
  | .hunt => True
  | .assembling _ left => k < left

theorem Port.spendAllowance_after {p : Port} (h : p.asm.outlasts 1 ∨ p.rx.chars.searching = false) :
    p.spendAllowance = { p with asm := p.asm.after 1 } := by
  cases ha : p.asm with
  | hunt => rw [Port.spendAllowance_hunt ha]; cases p; cases ha; rfl
  | assembling chars left =>
    rw [Port.spendAllowance_more ha]
    · rfl
    · rcases h with h | h
      · rw [ha] at h; exact .inl h
      · exact .inr h

theorem Assembly.after_after (j k : Nat) (a : Assembly) : (a.after j).after k = a.after (j + k) := by
  cases a with
  | hunt => rfl
  | assembling chars left => simp only [Assembly.after, Nat.sub_sub]

/-- A run of 1 samples in search (R10, R13), while the allowance lasts. -/
theorem Port.receive_ones (now : Nat) (k : Nat) : ∀ (n : Nat) (p : Port), p.rx.chars = .search n → p.asm.outlasts k →
    p.receive now (List.replicate k true) = { p with rx := ⟨p.rx.running, .search (n + k)⟩, asm := p.asm.after k } := by
  induction k with
  | zero =>
    intro n p h _
    cases p with | mk cfg rx asm => cases rx with | mk running chars => cases h; cases asm <;> rfl
  | succ k ih =>
    intro n p h ho
    rw [List.replicate_succ, Port.receive_cons, Port.sample_none (by rw [h]; rfl), Port.spendAllowance_after]
    · rw [ih (n + 1) _ rfl]
      · dsimp only
        rw [Assembly.after_after, show n + 1 + k = n + (k + 1) by omega, show 1 + k = k + 1 by omega]
      · show (p.asm.after 1).outlasts k
        cases ha : p.asm with
        | hunt => trivial
        | assembling chars left => rw [ha] at ho; simp only [Assembly.outlasts, Assembly.after] at ho ⊢; omega
    · left
      show p.asm.outlasts 1
      cases ha : p.asm with
      | hunt => trivial
      | assembling chars left => rw [ha] at ho; simp only [Assembly.outlasts] at ho ⊢; omega

/-- The allowance runs out over 1 samples: the message is truncated, and the idle count carries on (R13). -/
theorem Port.receive_truncated {now n k : Nat} {p : Port} {chars : List RxChar} (h : p.rx.chars = .search n)
    (ha : p.asm = .assembling chars (k + 1)) :
    p.receive now (List.replicate (k + 1) true)
      = Port.countBad { p with rx := ⟨p.rx.running, .search (n + (k + 1))⟩, asm := .hunt } := by
  rw [List.replicate_succ', Port.receive_append, Port.receive_ones now k n p h (by rw [ha]; exact Nat.lt_succ_self k),
    Port.receive_cons, Port.sample_none (by rfl), Port.receive_nil]
  rw [Port.spendAllowance_out (chars := chars) (left := 1)]
  · rfl
  · show p.asm.after k = _
    rw [ha]; simp [Assembly.after]
  · exact Nat.le_refl 1
  · rfl

/-- A character taken does not read what is left of the allowance. -/
theorem Port.takeChar_after (now : Nat) (c : RxChar) (k : Nat) (p : Port) :
    Port.takeChar now c { p with asm := p.asm.after k } = Port.takeChar now c p := by
  cases ha : p.asm with
  | hunt => simp only [Assembly.after, ← ha]
  | assembling chars left =>
    unfold Port.takeChar
    simp only [Assembly.after, ha]
    repeat' split
    all_goals rfl

/-- The rest of a character past its start verification (R11). -/
theorem Port.receive_rest (now n : Nat) : ∀ (l before : List Bool) (p : Port), p.rx.chars = .taking n before →
    5 ≤ before.length → before.length + l.length = 116 → l ≠ [] →
    p.receive now l = Port.takeChar now (characterOf n (before ++ l)) { p with rx := ⟨p.rx.running, .search 0⟩ } := by
  intro l
  induction l with
  | nil => intro _ _ _ _ _ hne; exact absurd rfl hne
  | cons b bs ih =>
    intro before p h h5 hl _
    rw [Port.receive_cons]
    cases bs with
    | nil =>
      rw [Port.sample_some (by rw [h]; exact CharRx.sample_last (by simpa using hl))]
      rfl
    | cons b' bs =>
      simp only [List.length_cons] at hl
      rw [Port.sample_none (by rw [h]; exact CharRx.sample_on (by omega) (by omega)), Port.spendAllowance_after (.inr rfl),
        ih (before ++ [b]) _ rfl (by simp; omega) (by simp only [List.length_append, List.length_cons, List.length_nil]; omega)
          (by simp)]
      rw [List.append_assoc]
      exact Port.takeChar_after now _ 1 { p with rx := ⟨p.rx.running, .search 0⟩ }

/-- The four samples after sample 1 of a candidate start, verified or not, up to its fifth. -/
theorem Port.receive_start {now n : Nat} {b c d : Bool} {p : Port} (h : p.rx.chars = .search n) (hn : 3 ≤ n) :
    p.receive now [false, b, c, d]
      = { p with rx := ⟨p.rx.running, .taking n [false, b, c, d]⟩, asm := p.asm.after 4 } := by
  rw [Port.receive_cons, Port.sample_none (by rw [h]; exact CharRx.sample_zero hn), Port.spendAllowance_after (.inr rfl),
    Port.receive_cons, Port.sample_none (by exact CharRx.sample_on (by simp) (by simp)), Port.spendAllowance_after (.inr rfl),
    Port.receive_cons, Port.sample_none (by exact CharRx.sample_on (by simp) (by simp)), Port.spendAllowance_after (.inr rfl),
    Port.receive_cons, Port.sample_none (by exact CharRx.sample_on (by simp) (by simp)), Port.spendAllowance_after (.inr rfl)]
  simp only [Assembly.after_after, List.cons_append, List.nil_append, Port.receive_nil]

/-- A whole character whose start is verified (R10 to R13). -/
theorem Port.receive_char {now n : Nat} {samples : List Bool} {p : Port} (h : p.rx.chars = .search n) (hn : 3 ≤ n)
    (hl : samples.length = 116) (h1 : sampleAt samples 1 = false) (hv : startVerified samples = true) :
    p.receive now samples = Port.takeChar now (characterOf n samples) { p with rx := ⟨p.rx.running, .search 0⟩ } := by
  match samples, hl, h1, hv with
  | a :: b :: c :: d :: e :: f :: rest, hl, h1, hv =>
    have ha : a = false := h1
    subst ha
    have hv5 : startVerified [false, b, c, d, e] = true := by
      rw [← startVerified_append (ys := f :: rest) (by simp)]; exact hv
    rw [show (false :: b :: c :: d :: e :: f :: rest) = [false, b, c, d] ++ ([e] ++ f :: rest) by rfl,
      Port.receive_append, Port.receive_start h hn, Port.receive_append, Port.receive_one,
      Port.sample_none (by exact CharRx.sample_on (before := [false, b, c, d]) (by simp [hv5]) (by simp)),
      Port.spendAllowance_after (.inr rfl),
      Port.receive_rest now n (f :: rest) ([false, b, c, d] ++ [e]) _ rfl (by simp)
        (by simp only [List.length_cons] at hl; simp; omega) (by simp)]
    simp only [Assembly.after_after, List.append_assoc]
    exact Port.takeChar_after now _ _ { p with rx := ⟨p.rx.running, .search 0⟩ }
  | [], hl, _, _ | [_], hl, _, _ | [_, _], hl, _, _ | [_, _, _], hl, _, _ | [_, _, _, _], hl, _, _ | [_, _, _, _, _], hl, _, _ =>
    simp at hl

/-- A false start returns the receiver to search; while the allowance lasts it leaves it running (R10, R13). -/
theorem Port.receive_falseStart {now n : Nat} {b c d e : Bool} {p : Port} (h : p.rx.chars = .search n) (hn : 3 ≤ n)
    (hv : startVerified [false, b, c, d, e] = false) (ho : p.asm.outlasts 5) :
    p.receive now [false, b, c, d, e] = { p with rx := ⟨p.rx.running, .search 0⟩, asm := p.asm.after 5 } := by
  rw [show ([false, b, c, d, e]) = [false, b, c, d] ++ [e] by rfl, Port.receive_append, Port.receive_start h hn,
    Port.receive_one, Port.sample_none (by exact CharRx.sample_false (before := [false, b, c, d]) rfl hv),
    Port.spendAllowance_after]
  · simp only [Assembly.after_after]
  · left
    show (p.asm.after 4).outlasts 1
    cases ha : p.asm with
    | hunt => trivial
    | assembling chars left => rw [ha] at ho; simp only [Assembly.outlasts, Assembly.after] at ho ⊢; omega

/-! ### What a reception leaves of the port's record -/

@[simp] theorem Port.judgeMessage_cfg (now : Nat) (body : Vector Byte 8) (noise : Bool) (p : Port) :
    (p.judgeMessage now body noise).cfg = p.cfg := by
  unfold Port.judgeMessage; dsimp only; split <;> simp

@[simp] theorem Port.wholeMessage_cfg (now : Nat) (body : Vector Byte 8) (noise : Bool) (p : Port) :
    (p.wholeMessage now body noise).cfg = p.cfg := Port.judgeMessage_cfg now body noise _

@[simp] theorem Port.takeChar_cfg (now : Nat) (c : RxChar) (p : Port) : (p.takeChar now c).cfg = p.cfg := by
  unfold Port.takeChar
  repeat' split
  all_goals first | rfl | exact Port.judgeMessage_cfg _ _ _ _

@[simp] theorem Port.spendAllowance_cfg (p : Port) : p.spendAllowance.cfg = p.cfg := by
  unfold Port.spendAllowance
  repeat' split
  all_goals rfl

@[simp] theorem Port.sample_cfg (now : Nat) (p : Port) (b : Bool) : (p.sample now b).cfg = p.cfg := by
  unfold Port.sample
  dsimp only
  split <;> simp

@[simp] theorem Port.receive_cfg (now : Nat) (samples : List Bool) : ∀ p : Port, (p.receive now samples).cfg = p.cfg := by
  induction samples with
  | nil => intro p; rfl
  | cons b bs ih => intro p; exact (ih (p.sample now b)).trans (Port.sample_cfg now p b)

/-! ### A run of samples as events at its port (R38) -/

/-- Nothing of a port has changed but its receiver and its assembly. -/
def Port.Still (x y : Port) : Prop := ({ y with rx := x.rx, asm := x.asm } : Port) = x

theorem Port.still_of {x : Port} (rx : Receiver) (a : Assembly) : x.Still { x with rx := rx, asm := a } := rfl

theorem Port.Still.eq {x y : Port} (h : x.Still y) : y = { x with rx := y.rx, asm := y.asm } := by
  cases x; cases y
  simp only [Port.Still, Port.mk.injEq] at *
  simp_all

theorem Port.Still.trans {x y z : Port} (h : x.Still y) (k : y.Still z) : x.Still z := by
  cases x; cases y; cases z
  simp only [Port.Still, Port.mk.injEq] at *
  simp_all

/-- A run of samples none of which ends a message. -/
def QuietRun (now : Nat) : List Bool → Port → Prop
  | [], _ => True
  | b :: bs, p => p.Still (p.sample now b) ∧ QuietRun now bs (p.sample now b)

theorem QuietRun.append (now : Nat) (xs ys : List Bool) : ∀ p : Port,
    QuietRun now (xs ++ ys) p ↔ QuietRun now xs p ∧ QuietRun now ys (p.receive now xs) := by
  induction xs with
  | nil => intro p; exact ⟨fun h => ⟨trivial, h⟩, fun h => h.2⟩
  | cons b bs ih => intro p; simp only [List.cons_append, QuietRun, Port.receive_cons, ih, and_assoc]

theorem QuietRun.still {now : Nat} {xs : List Bool} : ∀ {p : Port}, QuietRun now xs p → p.Still (p.receive now xs) := by
  induction xs with
  | nil => intro p _; rfl
  | cons b bs ih => intro p h; exact h.1.trans (ih h.2)

/-- A sample that takes no character and does not run out the allowance. -/
theorem Port.still_none {now : Nat} {b : Bool} {p : Port} {x : CharRx} (h : p.rx.chars.sample b = (x, none))
    (ho : p.asm.outlasts 1 ∨ x.searching = false) : p.Still (p.sample now b) := by
  rw [Port.sample_none h, Port.spendAllowance_after ho]
  rfl

theorem Assembly.outlasts_of_le {a : Assembly} {j k : Nat} (h : a.outlasts k) (hj : j ≤ k) : a.outlasts j := by
  cases a with
  | hunt => trivial
  | assembling chars left => exact Nat.lt_of_le_of_lt hj h

theorem Assembly.outlasts_after {a : Assembly} {j k : Nat} (h : a.outlasts (j + k)) : (a.after j).outlasts k := by
  cases a with
  | hunt => trivial
  | assembling chars left => simp only [Assembly.outlasts, Assembly.after] at h ⊢; omega

/-- A run of 1 samples in search, while the allowance lasts. -/
theorem QuietRun.ones (now : Nat) (k : Nat) : ∀ (n : Nat) (p : Port), p.rx.chars = .search n → p.asm.outlasts k →
    QuietRun now (List.replicate k true) p := by
  induction k with
  | zero => intro _ _ _ _; trivial
  | succ k ih =>
    intro n p h ho
    have o1 : p.asm.outlasts 1 := Assembly.outlasts_of_le ho (by omega)
    have hs : p.rx.chars.sample true = (.search (n + 1), none) := by rw [h]; rfl
    refine ⟨Port.still_none hs (.inl o1), ?_⟩
    rw [Port.sample_none hs, Port.spendAllowance_after (.inl (by exact o1))]
    exact ih (n + 1) _ rfl (Assembly.outlasts_after (by rw [Nat.add_comm]; exact ho))

/-- The samples of a candidate start or a character, up to one that ends neither. -/
theorem QuietRun.taking (now n : Nat) : ∀ (l before : List Bool) (p : Port), p.rx.chars = .taking n before →
    (∀ k, k ≤ l.length → before.length + k = 5 → startVerified (before ++ l.take k) = true) → before.length + l.length ≤ 115 →
    QuietRun now l p := by
  intro l
  induction l with
  | nil => intro _ _ _ _ _; trivial
  | cons b bs ih =>
    intro before p h hv hl
    simp only [List.length_cons] at hl
    have hs : p.rx.chars.sample b = (.taking n (before ++ [b]), none) := by
      rw [h]
      simp only [CharRx.sample, List.length_append, List.length_singleton, characterLength]
      rw [if_neg, if_neg (by omega)]
      rintro ⟨h5, hf⟩
      have := hv 1 (by simp) h5
      rw [List.take_succ_cons, List.take_zero, hf] at this
      cases this
    refine ⟨Port.still_none hs (.inr rfl), ?_⟩
    rw [Port.sample_none hs, Port.spendAllowance_after (.inr rfl)]
    refine ih (before ++ [b]) _ rfl (fun k hk h5 => ?_) (by simp; omega)
    have := hv (k + 1) (by simpa using hk) (by simp at h5; omega)
    rwa [List.take_succ_cons, List.append_cons] at this

theorem Port.still_sample_zero {now n : Nat} {p : Port} (h : p.rx.chars = .search n) (hn : 3 ≤ n) :
    p.Still (p.sample now false)
      ∧ p.sample now false = { p with rx := ⟨p.rx.running, .taking n [false]⟩, asm := p.asm.after 1 } := by
  have hs : p.rx.chars.sample false = (.taking n [false], none) := by rw [h]; exact CharRx.sample_zero hn
  exact ⟨Port.still_none hs (.inr rfl), by rw [Port.sample_none hs, Port.spendAllowance_after (.inr rfl)]⟩

/-- All samples of a character but its last, where its start is verified. -/
theorem QuietRun.char {now n : Nat} {init : List Bool} {last : Bool} {p : Port} (h : p.rx.chars = .search n) (hn : 3 ≤ n)
    (hl : init.length = 115) (h1 : sampleAt (init ++ [last]) 1 = false) (hv : startVerified (init ++ [last]) = true) :
    QuietRun now init p := by
  cases init with
  | nil => cases hl
  | cons a rest =>
    have ha : a = false := h1
    subst ha
    obtain ⟨still, e⟩ := Port.still_sample_zero (now := now) h hn
    refine ⟨still, ?_⟩
    rw [e]
    simp only [List.length_cons] at hl
    refine QuietRun.taking now n rest [false] _ rfl (fun k hk h5 => ?_) (by simp; omega)
    simp only [List.length_singleton] at h5
    obtain rfl : k = 4 := by omega
    have hsplit : (false :: rest) ++ [last] = ([false] ++ rest.take 4) ++ (rest.drop 4 ++ [last]) := by
      rw [List.append_assoc, ← List.append_assoc (rest.take 4), List.take_append_drop]; rfl
    rw [hsplit, startVerified_append (by simp; omega)] at hv
    exact hv

/-- A false start while the allowance lasts. -/
theorem QuietRun.falseStart {now n : Nat} {b c d e : Bool} {p : Port} (h : p.rx.chars = .search n) (hn : 3 ≤ n)
    (hv : startVerified [false, b, c, d, e] = false) (ho : p.asm.outlasts 5) : QuietRun now [false, b, c, d, e] p := by
  rw [show ([false, b, c, d, e]) = [false, b, c, d] ++ [e] by rfl, QuietRun.append]
  constructor
  · obtain ⟨still, e⟩ := Port.still_sample_zero (now := now) h hn
    refine ⟨still, ?_⟩
    rw [e]
    exact QuietRun.taking now n [b, c, d] [false] _ rfl (fun k hk h5 => by simp at hk h5; omega) (by simp)
  · rw [Port.receive_start h hn]
    refine ⟨Port.still_none (CharRx.sample_false (before := [false, b, c, d]) rfl hv) (.inl ?_), trivial⟩
    exact Assembly.outlasts_after (j := 4) (k := 1) ho

theorem listening_enabled {s : State} {p : PortId} (h : listening s p = true) : s.ports[p].cfg.enabled = true := by
  unfold listening at h
  simp only [Bool.and_eq_true] at h
  exact h.1

/-- A port whose receiver and assembly alone have moved on is replaced as it was replaced before. -/
theorem setPortTo_still {p : PortId} {s : State} {x : Port} (h : s.ports[p].Still x) (new : Port) :
    setPortTo p new { s with ports := s.ports.set p x } = setPortTo p new s := by
  have hx := h.eq
  unfold setPortTo
  dsimp only
  rw [set_get_self, hx]
  have hv : (s.ports.set p { s.ports[p] with rx := x.rx, asm := x.asm }).set p new = s.ports.set p new := Vector.set_set ..
  rw [hv]
  rfl

/-- What one sample does at a listening port: it moves the receiver and the assembly on, or it is an event. -/
theorem pilotSample_cases (p : PortId) (s : State) (b : Bool) :
    (s.ports[p].Still (s.ports[p].sample s.now b)
        ∧ pilotSample p s b = { s with ports := s.ports.set p (s.ports[p].sample s.now b) })
      ∨ (¬ s.ports[p].Still (s.ports[p].sample s.now b)
        ∧ pilotSample p s b = finish .none (portEvent p (fun x => x.sample s.now b) s)) := by
  unfold pilotSample
  dsimp only
  split
  · next h => exact .inl ⟨h, rfl⟩
  · next h => exact .inr ⟨h, rfl⟩

@[simp] theorem pilotSamples_nil (p : PortId) (s : State) : pilotSamples p [] s = s := rfl

theorem pilotSamples_cons (p : PortId) (b : Bool) (bs : List Bool) (s : State) :
    pilotSamples p (b :: bs) s = pilotSamples p bs (pilotSample p s b) := rfl

theorem pilotSamples_append (p : PortId) (xs ys : List Bool) (s : State) :
    pilotSamples p (xs ++ ys) s = pilotSamples p ys (pilotSamples p xs s) := List.foldl_append

theorem pilotSample_cfg (p : PortId) (s : State) (b : Bool) : (pilotSample p s b).ports[p].cfg = s.ports[p].cfg := by
  rcases pilotSample_cases p s b with ⟨_, e⟩ | ⟨_, e⟩ <;> rw [e]
  · rw [set_get_self]; exact Port.sample_cfg _ _ _
  · obtain ⟨eff, e⟩ := portEvent_self p (fun x => x.sample s.now b) s
    rw [finish_ports, e]
    simp

theorem pilotSample_cableTest (p : PortId) (s : State) (b : Bool) : (pilotSample p s b).cableTest = s.cableTest := by
  rcases pilotSample_cases p s b with ⟨_, e⟩ | ⟨_, e⟩ <;> rw [e]
  rw [finish_cableTest]
  exact (portEvent_keeps p _ s).cableTest

theorem pilotSample_now (p : PortId) (s : State) (b : Bool) : (pilotSample p s b).now = s.now := by
  rcases pilotSample_cases p s b with ⟨_, e⟩ | ⟨_, e⟩ <;> rw [e]
  rw [finish_now]
  exact (portEvent_keeps p _ s).now

/-- A port that listens goes on listening over the samples it takes. -/
theorem pilotSamples_listening (p : PortId) (samples : List Bool) : ∀ s : State,
    listening (pilotSamples p samples s) p = listening s p := by
  induction samples with
  | nil => intro s; rfl
  | cons b bs ih =>
    intro s
    rw [pilotSamples_cons, ih]
    unfold listening inTest
    rw [pilotSample_cfg, pilotSample_cableTest]

/-- Samples none of which ends a message move the receiver and the assembly on. -/
theorem pilotSamples_quiet {p : PortId} (samples : List Bool) : ∀ {s : State}, QuietRun s.now samples s.ports[p] →
    pilotSamples p samples s = { s with ports := s.ports.set p (s.ports[p].receive s.now samples) } := by
  induction samples with
  | nil =>
    intro s _
    have : s.ports.set p s.ports[p] = s.ports := table_ext fun i => by
      rw [set_get]; split
      · next h => rw [h]
      · rfl
    rw [pilotSamples_nil, Port.receive_nil, this]
  | cons b bs ih =>
    intro s h
    have e : pilotSample p s b = { s with ports := s.ports.set p (s.ports[p].sample s.now b) } := by
      rcases pilotSample_cases p s b with ⟨_, e⟩ | ⟨n, _⟩
      · exact e
      · exact absurd h.1 n
    rw [pilotSamples_cons, e, ih (by dsimp only; rw [set_get_self]; exact h.2)]
    dsimp only
    rw [set_get_self, Port.receive_cons]
    congr 1
    exact Vector.set_set ..

/-- A run of samples whose last one ends a message, and no other, is one event at the port. -/
theorem pilotSamples_event {p : PortId} {xs : List Bool} {b : Bool} {s : State} (h : QuietRun s.now xs s.ports[p])
    (hn : ¬ s.ports[p].Still (s.ports[p].receive s.now (xs ++ [b]))) :
    pilotSamples p (xs ++ [b]) s = finish .none (portEvent p (Port.receive s.now (xs ++ [b])) s) := by
  have still := QuietRun.still h
  rw [pilotSamples_append, pilotSamples_quiet xs h, pilotSamples_cons, pilotSamples_nil]
  rcases pilotSample_cases p { s with ports := s.ports.set p (s.ports[p].receive s.now xs) } b with ⟨k, _⟩ | ⟨_, e⟩
  · refine absurd ?_ hn
    rw [Port.receive_append, Port.receive_one]
    dsimp only at k
    rw [set_get_self] at k
    exact still.trans k
  · rw [e]
    unfold portEvent
    dsimp only
    rw [set_get_self, setPortTo_still still, show (s.ports[p].receive s.now xs).sample s.now b = s.ports[p].receive s.now (xs ++ [b]) by
      rw [Port.receive_append, Port.receive_one], show (s.ports.set p (s.ports[p].receive s.now xs)).set p (s.ports[p].receive s.now (xs ++ [b]))
        = s.ports.set p (s.ports[p].receive s.now (xs ++ [b])) from Vector.set_set ..]

/-! ### The marker of a cable test -/

theorem seekMarker_ones (k : Nat) (bs : List Bool) : ∀ n : Nat,
    seekMarker (List.replicate k true ++ bs) (.search n) = seekMarker bs (.search (n + k)) := by
  induction k with
  | zero => intro n; rfl
  | succ k ih =>
    intro n
    rw [List.replicate_succ, List.cons_append]
    exact (ih (n + 1)).trans (by rw [show n + 1 + k = n + (k + 1) by omega])

/-- A candidate start in AWAIT-MARKER: the marker, where it is verified and came with an idle count of at least 144, and otherwise the
receiver is back in search (R23). -/
theorem seekMarker_start {n : Nat} {b c d e : Bool} (hn : 3 ≤ n) :
    seekMarker [false, b, c, d, e] (.search n)
      = (.search 0, decide (144 ≤ n) && startVerified [false, b, c, d, e]) := by
  have h0 : ((CharRx.search n).sample false).1 = .taking n [false] := by rw [CharRx.sample_zero hn]
  have h1 : ((CharRx.taking n [false]).sample b).1 = .taking n [false, b] := by rw [CharRx.sample_on (by simp) (by simp)]; rfl
  have h2 : ((CharRx.taking n [false, b]).sample c).1 = .taking n [false, b, c] := by
    rw [CharRx.sample_on (by simp) (by simp)]; rfl
  have h3 : ((CharRx.taking n [false, b, c]).sample d).1 = .taking n [false, b, c, d] := by
    rw [CharRx.sample_on (by simp) (by simp)]; rfl
  simp only [seekMarker, h0, h1, h2, h3, CharRx.isMarker, CharRx.giveUpStart, List.length_cons, List.length_nil, Nat.reduceAdd,
    Nat.reduceEqDiff, decide_false, Bool.false_and, Bool.false_eq_true, if_false, Nat.reduceLeDiff]
  by_cases hv : startVerified [false, b, c, d, e] = true
  · rw [CharRx.sample_on (before := [false, b, c, d]) (by simp [hv]) (by simp)]
    by_cases hk : 144 ≤ n <;> simp [hk, hv]
  · rw [CharRx.sample_false (before := [false, b, c, d]) rfl (by simpa using hv)]
    simp [hv]

/-! ### The receiver of a controller link -/

theorem withRx_rx (l : LinkId) (x : LinkRx) (s : State) : ((withRx l x s).links.link l).rx = x := by cases l <;> rfl

theorem withRx_withRx (l : LinkId) (x y : LinkRx) (s : State) : withRx l y (withRx l x s) = withRx l y s := by cases l <;> rfl

theorem withRx_self (l : LinkId) (s : State) : withRx l (s.links.link l).rx s = s := by cases l <;> rfl

theorem onSamples_append (l : LinkId) (xs ys : List Bool) (s : State) :
    onSamples l (xs ++ ys) s = onSamples l ys (onSamples l xs s) := List.foldl_append

theorem onSamples_cons (l : LinkId) (b : Bool) (bs : List Bool) (s : State) :
    onSamples l (b :: bs) s = onSamples l bs (onSample l s b) := rfl

@[simp] theorem onSamples_nil (l : LinkId) (s : State) : onSamples l [] s = s := rfl

/-- A sample that completes no frame. -/
theorem onSample_none {l : LinkId} {x y : LinkRx} {b : Bool} (s : State) (h : x.sample b = (y, none)) :
    onSample l (withRx l x s) b = withRx l y s := by
  unfold onSample
  simp only [withRx_rx, h]
  exact withRx_withRx l x y s

/-- A sample that completes a frame whose CRC fits. -/
theorem onSample_some {l : LinkId} {x y : LinkRx} {b : Bool} {frame : List Byte} (s : State) (h : x.sample b = (y, some frame)) :
    onSample l (withRx l x s) b = takeFrame l frame (withRx l y s) := by
  unfold onSample
  simp only [withRx_rx, h]
  exact congrArg _ (withRx_withRx l x y s)

/-- The gap limit outlasts this many samples (R168). -/
def LinkRx.outlasts (k : Nat) (x : LinkRx) : Prop := x.state = .breakHunt ∨ x.waited + k < 360

/-- What has been counted toward the gap limit after some samples. -/
def LinkRx.waitedAfter (k : Nat) (x : LinkRx) : Nat := if x.state = .breakHunt then x.waited else x.waited + k

theorem LinkRx.spendGap_on {x : LinkRx} (h : x.outlasts 1 ∨ x.chars.searching = false) :
    x.spendGap = { x with waited := x.waitedAfter 1 } := by
  unfold LinkRx.spendGap LinkRx.waitedAfter
  by_cases hb : x.state = .breakHunt
  · simp only [if_pos hb]
  · rw [if_neg hb, if_neg, if_neg hb]
    rintro ⟨h1, h2⟩
    rcases h with h | h
    · rcases h with h | h
      · exact hb h
      · unfold gapLimit at h1; omega
    · rw [h] at h2; cases h2

/-- A sample within the gap limit, short of a break, that takes no character. -/
theorem LinkRx.sample_on {x : LinkRx} {b : Bool} {y : CharRx} (hz : x.zeros < 239) (hc : x.chars.sample b = (y, none))
    (h : x.outlasts 1 ∨ y.searching = false) :
    x.sample b = ({ x with chars := y, zeros := if b then 0 else x.zeros + 1, waited := x.waitedAfter 1 }, none) := by
  unfold LinkRx.sample breakLength
  rw [if_neg (by rintro ⟨_, h⟩; omega), if_neg (by rintro ⟨_, h⟩; omega)]
  simp only [hc]
  rw [LinkRx.spendGap_on]
  · rfl
  · exact h

/-- A sample short of a break that takes a character. -/
theorem LinkRx.sample_char {x : LinkRx} {b : Bool} {y : CharRx} {c : RxChar} (hz : x.zeros < 239)
    (hc : x.chars.sample b = (y, some c)) :
    x.sample b = LinkRx.takeChar c { x with chars := y, zeros := if b then 0 else x.zeros + 1, waited := 0 } := by
  unfold LinkRx.sample breakLength
  rw [if_neg (by rintro ⟨_, h⟩; omega), if_neg (by rintro ⟨_, h⟩; omega)]
  simp only [hc]

/-- A run of 1 samples in search, while the gap limit lasts. -/
theorem onSamples_ones (l : LinkId) (s : State) (k : Nat) : ∀ (n : Nat) (x : LinkRx), x.chars = .search n → x.zeros < 239 →
    x.outlasts k → onSamples l (List.replicate k true) (withRx l x s)
      = withRx l { x with chars := .search (n + k), zeros := if k = 0 then x.zeros else 0, waited := x.waitedAfter k } s := by
  induction k with
  | zero =>
    intro n x h hz _
    cases x with | mk st asm chars w z =>
    dsimp only at h
    subst h
    simp [LinkRx.waitedAfter]
  | succ k ih =>
    intro n x h hz ho
    have h1 : x.outlasts 1 := ho.imp id fun h => by omega
    rw [List.replicate_succ, onSamples_cons, onSample_none s (LinkRx.sample_on hz (by rw [h]; rfl) (.inl h1)),
      ih (n + 1) _ rfl (by simp) ?_]
    · have : n + 1 + k = n + (k + 1) := by omega
      simp only [LinkRx.waitedAfter, this]
      by_cases hb : x.state = .breakHunt
      · simp [hb]
      · simp [hb, show x.waited + 1 + k = x.waited + (k + 1) by omega]
    · rcases ho with ho | ho
      · exact .inl ho
      · by_cases hb : x.state = .breakHunt
        · exact .inl hb
        · right
          simp only [LinkRx.waitedAfter, if_neg hb]
          omega

/-- The gap limit runs out over 1 samples: the frame is discarded, and the idle count carries on (R168). -/
theorem onSamples_gap {l : LinkId} {s : State} {k n : Nat} {x : LinkRx} (h : x.chars = .search n) (hz : x.zeros < 239)
    (hs : x.state ≠ .breakHunt) (hw : x.waited + (k + 1) = 360) :
    onSamples l (List.replicate (k + 1) true) (withRx l x s) = withRx l ⟨.breakHunt, [], .search (n + (k + 1)), 0, 0⟩ s := by
  rw [List.replicate_succ', onSamples_append, onSamples_ones l s k n x h hz (.inr (by omega))]
  rw [onSamples_cons, onSamples_nil, onSample_none (y := ⟨.breakHunt, [], .search (n + (k + 1)), 0, 0⟩) s]
  unfold LinkRx.sample breakLength
  have hz' : (if k = 0 then x.zeros else 0) < 239 := by split <;> omega
  rw [if_neg (by rintro ⟨_, h⟩; dsimp only at h; omega), if_neg (by rintro ⟨h, _⟩; cases h)]
  simp only [CharRx.sample_one, LinkRx.spendGap, LinkRx.waitedAfter, if_neg hs, LinkRx.discard, gapLimit]
  rw [if_pos ⟨by omega, rfl⟩]
  rfl

theorem zerosAfter_append (z : Nat) (xs ys : List Bool) : zerosAfter z (xs ++ ys) = zerosAfter (zerosAfter z xs) ys :=
  List.foldl_append

theorem zerosAfter_le (z : Nat) (xs : List Bool) : zerosAfter z xs ≤ z + xs.length := by
  induction xs generalizing z with
  | nil => exact Nat.le_refl _
  | cons b bs ih =>
    have := ih (if b then 0 else z + 1)
    have hb : (if b = true then 0 else z + 1) ≤ z + 1 := by split <;> omega
    simp only [zerosAfter, List.foldl_cons, List.length_cons] at this ⊢
    omega

/-- What the last sample of a character does with it (R168, R169). -/
def takenOn (l : LinkId) (r : LinkRx × Option (List Byte)) (s : State) : State :=
  match r.2 with
  | some frame => takeFrame l frame (withRx l r.1 s)
  | none => withRx l r.1 s

/-- The rest of a character past its start verification. -/
theorem onSamples_rest (l : LinkId) (s : State) (n : Nat) : ∀ (bs before : List Bool) (x : LinkRx), x.chars = .taking n before →
    5 ≤ before.length → before.length + bs.length = 116 → bs ≠ [] → x.zeros + bs.length < 240 →
    onSamples l bs (withRx l x s) = takenOn l (LinkRx.takeChar (characterOf n (before ++ bs))
      { x with chars := .search 0, waited := 0, zeros := zerosAfter x.zeros bs }) s := by
  intro bs
  induction bs with
  | nil => intro _ _ _ _ _ hne; exact absurd rfl hne
  | cons b bs ih =>
    intro before x h h5 hl _ hz
    rw [onSamples_cons]
    cases bs with
    | nil =>
      have hc : x.sample b = LinkRx.takeChar (characterOf n (before ++ [b]))
          { x with chars := .search 0, waited := 0, zeros := zerosAfter x.zeros [b] } :=
        LinkRx.sample_char (by simp at hz; omega) (by rw [h]; exact CharRx.sample_last (by simpa using hl))
      rw [onSamples_nil, ← hc]
      unfold takenOn
      cases hr : x.sample b with
      | mk y f =>
        cases f with
        | none => exact onSample_none s hr
        | some frame => exact onSample_some s hr
    | cons b' bs =>
      simp only [List.length_cons] at hl hz
      rw [onSample_none s (LinkRx.sample_on (by omega)
          (by rw [h]; exact CharRx.sample_on (by omega) (by omega)) (.inr rfl)),
        ih (before ++ [b]) _ rfl (by simp; omega) (by simp only [List.length_append, List.length_cons, List.length_nil]; omega)
          (by simp) (by dsimp only; simp only [List.length_cons]; split <;> omega)]
      rw [List.append_assoc]
      rfl

/-- A whole character whose start is verified, taken by the receiver of a link (R166, R168). -/
theorem onSamples_char {l : LinkId} {s : State} {n : Nat} {samples : List Bool} {x : LinkRx} (h : x.chars = .search n) (hn : 3 ≤ n)
    (hl : samples.length = 116) (h1 : sampleAt samples 1 = false) (hv : startVerified samples = true) (hz : x.zeros < 120) :
    onSamples l samples (withRx l x s) = takenOn l (LinkRx.takeChar (characterOf n samples)
      { x with chars := .search 0, waited := 0, zeros := zerosAfter x.zeros samples }) s := by
  match samples, hl, h1, hv with
  | a :: b :: c :: d :: e :: f :: rest, hl, h1, hv =>
    have ha : a = false := h1
    subst ha
    have hv5 : startVerified [false, b, c, d, e] = true := by
      rw [← startVerified_append (ys := f :: rest) (by simp)]; exact hv
    have hb : ∀ (b : Bool) (z : Nat), (if b = true then 0 else z + 1) ≤ z + 1 := by intro b z; split <;> omega
    have z1 := hb b (x.zeros + 1)
    have z2 := hb c (if b = true then 0 else x.zeros + 1 + 1)
    have z3 := hb d (if c = true then 0 else (if b = true then 0 else x.zeros + 1 + 1) + 1)
    have z4 := hb e (if d = true then 0 else (if c = true then 0 else (if b = true then 0 else x.zeros + 1 + 1) + 1) + 1)
    rw [onSamples_cons, onSample_none s (LinkRx.sample_on (by omega) (by rw [h]; exact CharRx.sample_zero hn) (.inr rfl)),
      onSamples_cons, onSample_none s (LinkRx.sample_on (by simp; omega) (by exact CharRx.sample_on (by simp) (by simp)) (.inr rfl)),
      onSamples_cons, onSample_none s (LinkRx.sample_on (by simp; omega) (by exact CharRx.sample_on (by simp) (by simp)) (.inr rfl)),
      onSamples_cons, onSample_none s (LinkRx.sample_on (by simp; omega) (by exact CharRx.sample_on (by simp) (by simp)) (.inr rfl)),
      onSamples_cons, onSample_none s (LinkRx.sample_on (by simp; omega)
        (by exact CharRx.sample_on (before := [false, b, c, d]) (by simp [hv5]) (by simp)) (.inr rfl)),
      onSamples_rest l s n (f :: rest) ([false, b, c, d] ++ [e]) _ rfl (by simp)
        (by simp only [List.length_cons] at hl; simp; omega) (by simp)
        (by simp only [List.length_cons] at hl; simp; omega)]
    rfl
  | [], hl, _, _ | [_], hl, _, _ | [_, _], hl, _, _ | [_, _, _], hl, _, _ | [_, _, _, _], hl, _, _ | [_, _, _, _, _], hl, _, _ =>
    simp at hl

/-- A character with a framing error discards the frame, and is ignored in BREAK-HUNT (R167, R168). -/
theorem LinkRx.takeChar_framing {c : RxChar} {x : LinkRx} (h : c.framing = true) :
    x.takeChar c = (if x.state = .breakHunt then x else x.discard, none) := by
  unfold LinkRx.takeChar
  cases x.state <;> simp [h]

/-- A receiver whose line may be low: in search, or in a character all of whose samples are 0. -/
def LinkRx.Low (x : LinkRx) : Prop :=
  ∃ n m : Nat, x.chars = .search n ∨ (1 ≤ m ∧ m < 116 ∧ x.chars = .taking n (List.replicate m false))

theorem LinkRx.Low.sample {x : LinkRx} (h : x.Low) (hz : x.zeros < 239) :
    ∃ y : LinkRx, x.sample false = (y, none) ∧ y.Low ∧ y.zeros = x.zeros + 1 := by
  have on : ∀ (c : CharRx), x.chars.sample false = (c, none) →
      x.sample false = (({ x with chars := c, zeros := x.zeros + 1 } : LinkRx).spendGap, none) := by
    intro c hc
    unfold LinkRx.sample breakLength
    rw [if_neg (by rintro ⟨h, _⟩; cases h), if_neg (by rintro ⟨_, h⟩; omega)]
    simp only [hc]
    rfl
  have spent : ∀ y : LinkRx, y.spendGap.chars = y.chars ∧ y.spendGap.zeros = y.zeros := by
    intro y
    unfold LinkRx.spendGap
    split
    · exact ⟨rfl, rfl⟩
    · split <;> exact ⟨rfl, rfl⟩
  obtain ⟨n, m, h | ⟨h1, h2, h⟩⟩ := h
  · by_cases hn : 3 ≤ n
    · refine ⟨_, on _ (by rw [h]; exact CharRx.sample_zero hn), ⟨n, 1, .inr ⟨by omega, by omega, (spent _).1⟩⟩, (spent _).2⟩
    · refine ⟨_, on _ (by rw [h]; exact CharRx.sample_early (by omega)), ⟨0, 0, .inl (spent _).1⟩, (spent _).2⟩
  · have hr : List.replicate m false ++ [false] = List.replicate (m + 1) false := List.replicate_succ'.symm
    by_cases hm : m = 115
    · subst hm
      have hc := LinkRx.sample_char (x := x) (b := false) (y := .search 0) (c := characterOf n (List.replicate 116 false)) hz
        (by rw [h, CharRx.sample_last (by simp), hr])
      have hf : (characterOf n (List.replicate 116 false)).framing = true := by
        show characterFraming (List.replicate 116 false) = true
        decide
      rw [LinkRx.takeChar_framing hf] at hc
      simp only [Bool.false_eq_true, if_false] at hc
      refine ⟨_, hc, ?_⟩
      split <;> exact ⟨⟨0, 0, .inl rfl⟩, rfl⟩
    · refine ⟨_, on (.taking n (List.replicate (m + 1) false)) ?_, ⟨n, m + 1, .inr ⟨by omega, by omega, (spent _).1⟩⟩, (spent _).2⟩
      rw [h, CharRx.sample_on ?_ (by simp; omega), hr]
      rintro ⟨h4, hv⟩
      simp only [List.length_replicate] at h4
      subst h4
      exact absurd hv (by decide)

/-- The line low: at the 240th 0 in a row a break is recognised (R167). -/
theorem onSamples_low (l : LinkId) (s : State) (k : Nat) : ∀ x : LinkRx, x.Low → x.zeros ≤ 239 → 240 ≤ x.zeros + k →
    onSamples l (List.replicate k false) (withRx l x s) = withRx l ⟨.breakHunt, [], .search 0, 0, 240⟩ s := by
  have stays : ∀ j, onSamples l (List.replicate j false) (withRx l ⟨.breakHunt, [], .search 0, 0, 240⟩ s)
      = withRx l ⟨.breakHunt, [], .search 0, 0, 240⟩ s := by
    intro j
    induction j with
    | zero => rfl
    | succ j ih => rw [List.replicate_succ, onSamples_cons,
      onSample_none (y := ⟨.breakHunt, [], .search 0, 0, 240⟩) s rfl, ih]
  induction k with
  | zero => intro x _ h1 h2; omega
  | succ k ih =>
    intro x hx h1 h2
    rw [List.replicate_succ, onSamples_cons]
    by_cases hz : x.zeros < 239
    · obtain ⟨y, hy, hl, he⟩ := hx.sample hz
      rw [onSample_none s hy]
      exact ih y hl (by omega) (by omega)
    · rw [onSample_none (y := ⟨.breakHunt, [], .search 0, 0, 240⟩) s, stays k]
      unfold LinkRx.sample breakLength
      rw [if_neg (by rintro ⟨h, _⟩; cases h), if_pos ⟨rfl, by omega⟩]

/-- A break, and the first 1 after it: the receiver awaits LEN (R167). -/
theorem onSamples_break {l : LinkId} {s : State} {k n : Nat} {x : LinkRx} (h : x.chars = .search n) (hz : x.zeros ≤ 239)
    (hk : 240 ≤ x.zeros + k) :
    onSamples l (List.replicate k false ++ [true]) (withRx l x s) = withRx l ⟨.awaitLen, [], .search 1, 0, 0⟩ s := by
  rw [onSamples_append, onSamples_low l s k x ⟨n, 0, .inl h⟩ hz hk, onSamples_cons, onSamples_nil, onSample_none s (by rfl)]

end Sys2Proof.Machine
end

