-- ==== Sys2Proof/Laws/Runs.lean ====
section
/-! SUPPORT. Every command is a run of changes: `exec_run`. -/

namespace Sys2Proof.Machine

/-! ### Ports -/

theorem bumpNewest_length (ns : List Nat) : (bumpNewest ns).length = ns.length := by
  induction ns with
  | nil => rfl
  | cons n ns ih =>
    cases ns with
    | nil => rfl
    | cons m ms => simp only [bumpNewest, List.length_cons] at ih ⊢; rw [ih]

theorem PortStep.comp {f g : Port → Port} (hf : PortStep f) (hg : PortStep g) : PortStep (g ∘ f) :=
  ⟨fun p h => hg.record _ (hf.record p h), fun p h => hg.enabled _ (hf.enabled p h), fun p => (hg.raw _).trans (hf.raw p),
    fun p => (hg.reported _).trans (hf.reported p), fun p => (hg.holdTimer _).trans (hf.holdTimer p),
    fun p h => hg.window _ (hf.window p h), fun p => (hg.ps _).trans (hf.ps p)⟩

/-- A port step with its value chosen by the port. -/
theorem PortStep.pick {f : Port → Port} (h : ∀ p, ∃ g, PortStep g ∧ f p = g p) : PortStep f :=
  ⟨fun p r => by obtain ⟨g, hg, e⟩ := h p; rw [e]; exact hg.record p r,
    fun p r => by obtain ⟨g, hg, e⟩ := h p; rw [e]; exact hg.enabled p r,
    fun p => by obtain ⟨g, hg, e⟩ := h p; rw [e]; exact hg.raw p,
    fun p => by obtain ⟨g, hg, e⟩ := h p; rw [e]; exact hg.reported p,
    fun p => by obtain ⟨g, hg, e⟩ := h p; rw [e]; exact hg.holdTimer p,
    fun p r => by obtain ⟨g, hg, e⟩ := h p; rw [e]; exact hg.window p r,
    fun p => by obtain ⟨g, hg, e⟩ := h p; rw [e]; exact hg.ps p⟩

theorem portStep_id : PortStep id := ⟨fun _ h => h, fun _ h => h, fun _ => rfl, fun _ => rfl, fun _ => rfl, fun _ h => h, fun _ => rfl⟩

theorem portStep_countBad : PortStep Port.countBad :=
  ⟨fun _ h => h, fun _ h => h, fun _ => rfl, fun _ => rfl, fun _ => rfl, fun p h => (bumpNewest_length p.buckets).trans h, fun _ => rfl⟩

theorem portStep_acceptMessage (now : Nat) (body : Vector Byte 8) : PortStep (Port.acceptMessage now body) :=
  ⟨fun _ h => h, fun _ h => h, fun _ => rfl, fun _ => rfl, fun _ => rfl, fun _ h => h, fun _ => rfl⟩

theorem portStep_loss : PortStep Port.loss :=
  ⟨fun _ h => h, fun _ h => h, fun _ => rfl, fun _ => rfl, fun _ => rfl, fun _ h => h, fun _ => rfl⟩

theorem portStep_asm (a : Assembly) : PortStep (fun p => { p with asm := a }) :=
  ⟨fun _ h => h, fun _ h => h, fun _ => rfl, fun _ => rfl, fun _ => rfl, fun _ h => h, fun _ => rfl⟩

theorem portStep_chars (x : CharRx) : PortStep (fun p => { p with rx := ⟨p.rx.running, x⟩ }) :=
  ⟨fun _ h => h, fun _ h => h, fun _ => rfl, fun _ => rfl, fun _ => rfl, fun _ h => h, fun _ => rfl⟩

theorem portStep_judgeMessage (now : Nat) (body : Vector Byte 8) (noise : Bool) : PortStep (Port.judgeMessage now body noise) := by
  unfold Port.judgeMessage
  dsimp only
  by_cases h : messageValid body noise = true
  · simp only [h, if_true]
    exact (portStep_asm .hunt).comp (portStep_acceptMessage now body)
  · simp only [h]
    exact (portStep_asm .hunt).comp portStep_countBad

theorem portStep_wholeMessage (now : Nat) (body : Vector Byte 8) (noise : Bool) : PortStep (Port.wholeMessage now body noise) :=
  (portStep_chars (.search 0)).comp (portStep_judgeMessage now body noise)

theorem portStep_spendAllowance : PortStep Port.spendAllowance := by
  refine .pick fun p => ?_
  unfold Port.spendAllowance
  repeat' split
  · exact ⟨_, portStep_id, rfl⟩
  · exact ⟨_, (portStep_asm .hunt).comp portStep_countBad, rfl⟩
  · exact ⟨_, portStep_asm _, rfl⟩

theorem portStep_takeChar (now : Nat) (c : RxChar) : PortStep (Port.takeChar now c) := by
  refine .pick fun p => ?_
  unfold Port.takeChar
  repeat' split
  all_goals first
    | exact ⟨_, portStep_id, rfl⟩
    | exact ⟨_, portStep_countBad, rfl⟩
    | exact ⟨_, portStep_asm _, rfl⟩
    | exact ⟨_, (portStep_asm .hunt).comp portStep_countBad, rfl⟩
    | exact ⟨_, portStep_judgeMessage now _ _, rfl⟩

theorem portStep_sample (now : Nat) (b : Bool) : PortStep (fun p => Port.sample now p b) := by
  refine .pick fun p => ?_
  dsimp only [Port.sample]
  split
  · exact ⟨_, (portStep_chars _).comp (portStep_takeChar now _), rfl⟩
  · exact ⟨_, (portStep_chars _).comp portStep_spendAllowance, rfl⟩

theorem portStep_rewrite {cfg : PortRecord} (ok : RecordOk cfg) (he : cfg.enabled = true) : PortStep (Port.rewrite cfg) := by
  have h : PortStep (fun p => { p with cfg := cfg }) :=
    ⟨fun _ _ => ok, fun _ _ => he, fun _ => rfl, fun _ => rfl, fun _ => rfl, fun _ h => h, fun _ => rfl⟩
  have hr : PortStep Port.retrace :=
    ⟨fun _ h => h, fun _ h => h, fun _ => rfl, fun _ => rfl, fun _ => rfl, fun _ h => h, fun _ => rfl⟩
  have hj : PortStep Port.judgeErrors :=
    ⟨fun _ h => h, fun _ h => h, fun _ => rfl, fun _ => rfl, fun _ => rfl, fun _ h => h, fun _ => rfl⟩
  have hc : PortStep (fun p => { p with traceCand := none }) :=
    ⟨fun _ h => h, fun _ h => h, fun _ => rfl, fun _ => rfl, fun _ => rfl, fun _ h => h, fun _ => rfl⟩
  refine .pick fun p => ?_
  unfold Port.rewrite
  dsimp only
  by_cases h1 : cfg.expected = p.cfg.expected <;> by_cases h2 : cfg.persistence = p.cfg.persistence <;>
    by_cases h3 : cfg.badThreshold = p.cfg.badThreshold <;> simp only [h1, h2, h3, ne_eq, not_true_eq_false, not_false_eq_true, if_true, if_false]
  · exact ⟨_, h, rfl⟩
  · exact ⟨_, h.comp hj, rfl⟩
  · exact ⟨_, h.comp hc, rfl⟩
  · exact ⟨_, (h.comp hc).comp hj, rfl⟩
  · exact ⟨_, h.comp hr, rfl⟩
  · exact ⟨_, (h.comp hr).comp hj, rfl⟩
  · exact ⟨_, (h.comp hr).comp hc, rfl⟩
  · exact ⟨_, ((h.comp hr).comp hc).comp hj, rfl⟩

/-- A record that SET-PORT's own checks let through (R2). -/
theorem setPortArgs_ok {payload : List Byte} {p : PortId} {cfg : PortRecord} (h : setPortArgs payload = some (p, cfg)) :
    RecordOk cfg := by
  unfold setPortArgs at h
  split at h
  · dsimp only at h
    split at h
    · next hc => cases h; exact ⟨hc.2, hc.1⟩
    · cases h
  · cases h

theorem run_writePort {p : PortId} {cfg : PortRecord} {s : State} (ok : RecordOk cfg)
    (free : cfg.enabled = false → memberOf s.sw.groups p = none) : Run s (writePort p cfg s) := by
  unfold writePort
  dsimp only
  split
  · next h0 h1 => exact .single (.enable s p cfg h0 h1 ok)
  · next h0 h1 => exact (Relation.ReflTransGen.single (.disable s p cfg h0 h1 (free h1) ok)).trans (run_abortBroken _)
  · next h0 h1 => exact .single (.port s p _ (.inl h0) (portStep_rewrite ok h1))
  · next h0 h1 => exact .single (.redefine s p cfg h0 h1 ok)

theorem run_setPort (payload : List Byte) (s : State) : Run s (setPort payload s).1 := by
  unfold setPort
  split
  · exact .refl
  · next p cfg h =>
    split
    · exact .refl
    · next hn =>
      refine (run_writePort (setPortArgs_ok h) fun he => ?_).tail (.finish _ _)
      cases hm : memberOf s.sw.groups p with
      | none => rfl
      | some x => exact absurd ⟨he, by rw [hm]; rfl⟩ hn

theorem run_writeRange (i : Fin 4) (e : RangeEntry) (s : State) : Run s (writeRange i e s) := by
  unfold writeRange
  dsimp only
  exact ((Relation.ReflTransGen.single (.ranges s (s.ranges.set i e))).trans
    (run_groupsInTurn _ (fun g env w => (onlyGroup_event env g w (.refl g w)).sameRecords)
      (fun g env _ i => i.event env g i) _)).trans (run_abortBroken _)

theorem run_setRange (payload : List Byte) (s : State) : Run s (setRange payload s).1 := by
  unfold setRange
  split
  · exact .refl
  · exact (run_writeRange _ _ s).tail (.finish _ _)

theorem run_listening {p : PortId} {f : Port → Port} (hf : PortStep f) (s : State) :
    Run s (if listening s p then finish .none (portEvent p f s) else s) := by
  split
  · next h => exact (Relation.ReflTransGen.single (.port s p f (.inl (listening_enabled h)) hf)).tail (.finish _ _)
  · exact .refl

/-- A sample that changes nothing but the receiver and the assembly of a port in service. -/
theorem run_pilotSample {p : PortId} {s : State} (h : s.ports[p].cfg.enabled = true) (b : Bool) : Run s (pilotSample p s b) := by
  rcases pilotSample_cases p s b with ⟨still, e⟩ | ⟨_, e⟩ <;> rw [e]
  · let f : Port → Port := fun x =>
      if x.cfg.enabled then { x with rx := (s.ports[p].sample s.now b).rx, asm := (s.ports[p].sample s.now b).asm } else x
    have hf : ServiceOnly f := by
      refine ⟨fun x h _ => by simp [f, h], fun x => ?_⟩
      dsimp only [f]
      split <;> exact ⟨rfl, rfl, rfl, rfl, rfl, rfl, rfl⟩
    rw [show s.ports[p].sample s.now b = f s.ports[p] by simp only [f, if_pos h]; exact still.eq]
    exact .single (.service s p f hf)
  · exact (Relation.ReflTransGen.single (.port s p _ (.inl h) (portStep_sample s.now b))).tail (.finish _ _)

theorem run_pilotSamples {p : PortId} (samples : List Bool) : ∀ {s : State}, s.ports[p].cfg.enabled = true →
    Run s (pilotSamples p samples s) := by
  induction samples with
  | nil => exact fun _ => .refl
  | cons b bs ih =>
    intro s h
    exact (run_pilotSample h b).trans (ih (s := pilotSample p s b) (by rw [pilotSample_cfg]; exact h))

theorem run_listeningSamples (p : PortId) (samples : List Bool) (s : State) :
    Run s (if listening s p then pilotSamples p samples s else s) := by
  split
  · next h => exact run_pilotSamples samples (listening_enabled h)
  · exact .refl

theorem serviceOnly_testIn : ServiceOnly Port.testIn :=
  ⟨fun p _ h => by rw [h]; rfl, fun _ => ⟨rfl, rfl, rfl, rfl, rfl, rfl, rfl⟩⟩

theorem run_pilotTransmit (p : PortId) (s : State) : ∃ t, exec (.pilotTransmit p) s = .next t ∧ Run s t := by
  refine ⟨_, rfl, ?_⟩
  let send : Port → Port := fun x =>
    { x with tx := ⟨.message, (s.reach s.ports[p].tx.nextAt).now, (s.reach s.ports[p].tx.nextAt).now + messagePeriod,
        pilotBytes (s.reach s.ports[p].tx.nextAt) p⟩ }
  let f : Port → Port := fun x => if x.tx.phase = .leadIn ∨ x.tx.phase = .message then send x else x
  have hf : ServiceOnly f := by
    refine ⟨fun x _ e => ?_, fun x => ?_⟩
    · have : x.tx.phase = .off := by rw [e]; rfl
      simp [f, this]
    · dsimp only [f]
      split <;> exact ⟨rfl, rfl, rfl, rfl, rfl, rfl, rfl⟩
  have key : ∀ h : s.ports[p].tx.phase = .leadIn ∨ s.ports[p].tx.phase = .message,
      Run s { s.reach s.ports[p].tx.nextAt with ports := upd s.ports p send } := by
    intro h
    rw [upd_congr (f := send) (g := f) (by simp only [f, if_pos h])]
    exact (run_reach s.ports[p].tx.nextAt s).tail (.service (s.reach s.ports[p].tx.nextAt) p f hf)
  split
  · next h => exact key (.inl h)
  · next h => exact key (.inr h)
  · exact .refl
  · exact .refl

theorem run_startTest {l : LinkId} {a : TestArgs} {s : State} (h : s.ports[a.outPort].cfg.enabled = true) :
    Run s (startTest l a s) := by
  let f : Port → Port := fun x => if x.cfg.enabled = true then { x with tx := { x.tx with phase := .test } } else x
  have hf : ServiceOnly f := by
    refine ⟨fun x h _ => by simp [f, h], fun x => ?_⟩
    dsimp only [f]
    split <;> exact ⟨rfl, rfl, rfl, rfl, rfl, rfl, rfl⟩
  unfold startTest
  dsimp only
  rw [upd_congr (v := s.ports) (i := a.outPort) (f := fun x => { x with tx := { x.tx with phase := .test } }) (g := f)
    (by simp only [f, if_pos h])]
  exact ((Relation.ReflTransGen.single (.service s a.outPort f hf)).tail (.service _ a.inPort _ serviceOnly_testIn)).tail
    (.test _ _)

theorem run_cableTest (l : LinkId) (payload : List Byte) (s : State) : Run s (cableTest l payload s).1 := by
  unfold cableTest
  split
  · exact .refl
  · split
    · exact .refl
    · next hn =>
      split
      · exact .refl
      · split
        · exact .refl
        · refine run_startTest ?_
          simp only [not_or] at hn
          simpa using hn.1

theorem run_outOn (phase : OutPhase) (f : Nat → CableTest → CableTest) (s : State) : Run s (outOn phase f s) := by
  unfold outOn
  split
  · exact .refl
  · split
    · exact (run_reach _ s).tail (.test _ _)
    · exact .refl

theorem run_compareMore (bits : List (BitVec 12)) (s : State) : Run s (compareMore bits s) := by
  unfold compareMore
  split
  · exact .refl
  · split
    · split
      dsimp only
      split
      · exact .single (.test _ _)
      · exact (Relation.ReflTransGen.single (.test s _)).trans (run_endTest _ _ _)
    · exact .refl

/-! ### Power, line condition, seconds clock -/

theorem scanAfter_enabled {ports : Vector Port 32} {p q : PortId} (h : scanAfter ports p = some q) :
    ports[q].cfg.enabled = true := by
  unfold scanAfter at h
  rw [Option.or_eq_some_iff] at h
  rcases h with h | ⟨_, h⟩
  · have := List.find?_some h
    simp only [Bool.and_eq_true] at this
    exact this.1
  · exact List.find?_some (p := fun q : PortId => ports[q].cfg.enabled) h

theorem run_scanOn (p : PortId) (s : State) : Run s (scanOn p s) := by
  refine .single (.scan s _ fun x hx _ => ?_)
  unfold conversionOf at hx
  cases h : scanAfter s.ports p with
  | none => rw [h] at hx; cases hx
  | some q =>
    rw [h] at hx
    cases hx
    exact scanAfter_enabled h

theorem run_conversionEnd (code : BitVec 12) (s : State) : ∃ t, exec (.conversionEnd code) s = .next t ∧ Run s t := by
  refine ⟨_, rfl, ?_⟩
  split
  · exact .refl
  · next c hc =>
    dsimp only
    split
    · next hu =>
      exact (((run_reach c.endsAt s).tail (.convert _ c code.toNat hc hu)).trans (run_scanOn c.port _)).tail (.finish _ _)
    · exact (run_reach c.endsAt s).trans (run_scanOn c.port _)

theorem run_secondsTick (s : State) : ∃ t, exec .secondsTick s = .next t ∧ Run s t := by
  refine ⟨_, rfl, ?_⟩
  dsimp only
  refine .tail ?_ (.finish _ _)
  refine .tail ?_ (.timing _ (fun env t => t.update env true) (fun env t h => timingInv_update env true h)
    fun env t h => selectionInv_update env true h)
  exact ((run_reach s.timing.nextTick s).tail (.steering _ s.timing.steering s.timing.steerWaiting _)).tail (.tick _)

/-! ### Groups -/

theorem allPresent_length {α : Type} {xs : List (Option α)} {ys : List α} (h : allPresent xs = some ys) :
    ys.length = xs.length := by
  induction xs generalizing ys with
  | nil => cases h; rfl
  | cons x xs ih =>
    cases x with
    | none => cases h
    | some x =>
      simp only [allPresent, Option.map_eq_some_iff] at h
      obtain ⟨zs, hz, rfl⟩ := h
      simp [ih hz]

/-- A record that SET-GROUP's steps 3 and 4 let through (R45). -/
theorem setGroupConfig_ok {type : GroupType} {ends : Ends} {rev : Bool} {payload : List Byte} {c : GroupConfig}
    (hl : payload.length = 12 + groupCount payload) (h : setGroupConfig type ends rev payload = some c) : ConfigOk c := by
  unfold setGroupConfig at h
  dsimp only at h
  split at h
  · next prot working selector _ hw _ =>
    split at h
    · next bridge hb =>
      split at h
      · next hc =>
        cases h
        have hn : working.length = groupCount payload := by
          rw [allPresent_length hw, List.length_map, List.length_take, List.length_drop, hl]
          omega
        refine ⟨?_, ?_⟩
        · unfold GroupConfig.count
          rw [hn]
          exact hc
        · unfold GroupConfig.addresses
          unfold bridgeArg at hb
          cases type with
          | onePlusOne => cases hb; simp
          | oneForN =>
            dsimp only at hb
            split at hb
            · split at hb
              · cases hb
              · next a _ hne => cases hb; simp [Ne.symm hne]
            · cases hb
      · cases h
    · cases h
  · cases h

theorem run_setGroup {payload : List Byte} (hf : setGroupFits payload = true) (s : State) : Run s (setGroup payload s).1 := by
  have hl : payload.length = 12 + groupCount payload := by
    unfold setGroupFits at hf
    simp only [Bool.and_eq_true, decide_eq_true_eq] at hf
    exact hf.2
  unfold setGroup
  split
  · exact .refl
  · split
    · exact .refl
    · split
      · exact .refl
      · next c hc =>
        split
        · exact .refl
        · next hn =>
          exact (Relation.ReflTransGen.single (.group s _ c (setGroupConfig_ok hl hc) (by simpa using hn))).tail (.finish _ _)

/-- A group that may be deleted has no entry. -/
theorem deletable_free {w : Switching} {g : GroupId} (h : deletable w g = true) : w.opOf g = none := by
  simp only [deletable, Bool.and_eq_true] at h
  exact Option.isNone_iff_eq_none.mp h.2

theorem run_deleteGroup (payload : List Byte) (s : State) : Run s (deleteGroup payload s).1 := by
  unfold deleteGroup
  split
  · exact .refl
  · split
    · next h => exact (Relation.ReflTransGen.single (.remove s _ (deletable_free h))).tail (.finish _ _)
    · exact .refl

theorem run_getGroup (payload : List Byte) (s : State) : Run s (getGroup payload s).1 := by
  unfold getGroup
  split
  · exact .refl
  · split <;> exact .refl

theorem run_groupStatus (payload : List Byte) (s : State) : Run s (groupStatus payload s).1 := by
  unfold groupStatus
  split
  · exact .refl
  · split <;> exact .refl

/-- An event at the switching block that keeps the records, and the end of the event. -/
theorem run_switch {f : SwEnv → Switching → Switching} (h : ∀ env w, SameRecords w (f env w)) {s : State}
    (hq : QueueInv s.sw → QueueInv (f s.swEnv s.sw)) : Run s (finish .none (inSwitch f s)) :=
  (Relation.ReflTransGen.single (.switch s f h hq)).tail (.finish _ _)

theorem onlyGroup_accept (env : SwEnv) (g : GroupId) (r : Request) (w : Switching) : OnlyGroup g w (w.accept env g r) := by
  unfold Switching.accept
  split
  · exact (onlyGroup_event env g w ((onlyGroup_setExternal g _ w).trans
      (onlyGroup_modGroup g _ (f := Group.startTrial env.now) fun _ => rfl))).trans (onlyGroup_placeTrialRead g _)
  · exact onlyGroup_event env g w (onlyGroup_setExternal g _ w)

theorem onlyGroup_acceptClear (env : SwEnv) (g : GroupId) (w : Switching) : OnlyGroup g w (w.acceptClear env g) :=
  onlyGroup_event env g w (onlyGroup_clearExternal env g w)

theorem run_protRequest (payload : List Byte) (s : State) : Run s (protRequest payload s).1 := by
  unfold protRequest
  split
  · split
    · exact .refl
    · split
      · exact .refl
      · refine run_switch (fun env w => ?_) fun i => ?_
        · split
          · exact (onlyGroup_acceptClear env _ w).sameRecords
          · exact (onlyGroup_accept env _ _ w).sameRecords
        · split
          · exact i.event _ _ (i.clearExternal _ _)
          · exact i.accept _ _ _
  · exact .refl

/-! ### Actuators -/

theorem run_setMaint (payload : List Byte) (s : State) : Run s (setMaint payload s).1 := by
  unfold setMaint
  split
  · split
    · exact .refl
    · split
      · split
        · exact .refl
        · split
          · exact .refl
          · exact run_switch (fun env w => sameRecords_enterMaint env _ w) fun i => i.enterMaint _ _
      · split
        · exact .refl
        · next h =>
          exact run_switch (fun env w => sameRecords_leaveMaint env _ w) fun i => i.leaveMaint _ (by simpa using fun e => h (.inr e))
  · exact .refl

theorem run_maintMove (payload : List Byte) (s : State) : Run s (maintMove payload s).1 := by
  unfold maintMove
  split
  · exact .refl
  · split
    · exact .refl
    · next a pos _ el _ =>
      split
      · exact .refl
      · next maint =>
        split
        · exact .refl
        · next free =>
          split
          · exact .refl
          · next count =>
            refine .single (.switchOnly s _ (.of_eq (by simp) (by simp)) fun i => ?_)
            refine (i.place (show s.sw.opOf el.group = none by simpa using free) (fun _ => Nat.lt_of_not_le count) ?_).arbitrate
            cases hg : s.sw.groups[el.group] with
            | none => simp [hg] at maint
            | some grp => rw [hg] at maint; exact ⟨grp, hg, by simp at maint; simp [maint]⟩

theorem run_clearHalt (payload : List Byte) (s : State) : Run s (clearHalt payload s).1 := by
  unfold clearHalt
  repeat' split
  all_goals first
    | exact .refl
    | next h => exact run_switch (fun env w => (onlyGroup_adopt env _ w).sameRecords) fun i => i.adopt _ (i.idle_free h)

theorem run_answered {f : SwEnv → Switching → Switching} (h : ∀ env w, SameRecords w (f env w))
    (hq : ∀ env w, QueueInv w → QueueInv (f env w)) (s : State) :
    Run s (answered f s) := by
  unfold answered
  dsimp only
  split
  · exact .refl
  · exact (run_reach _ s).trans (run_switch h (hq _ _))

/-! ### Timing -/

theorem run_inTiming {f : TimingEnv → Timing → Timing} (h : ∀ env t, TimingInv t → TimingInv (f env t))
    (hs : ∀ env t, SelectionInv env.ports (f env t)) (s : State) : Run s (finish .none (inTiming f s)) :=
  (Relation.ReflTransGen.single (.timing s f h fun env t _ => hs env t)).tail (.finish _ _)

theorem run_setRef (payload : List Byte) (s : State) : Run s (setRef payload s).1 := by
  unfold setRef
  split
  · exact .refl
  · exact run_inTiming (fun env t h => timingInv_modRef env _ h fun x hx => hx.configure env _ _)
      (fun env _ => selectionInv_reselect env _) s

theorem run_setTiming (payload : List Byte) (s : State) : Run s (setTiming payload s).1 := by
  unfold setTiming
  split
  · exact .refl
  · next set _ =>
    exact run_inTiming (f := fun env t => ({ t with settings := set }).reselect env) (fun env t h =>
      timingInv_reselect env (h.body.of_eq (u := { t with settings := set }) rfl rfl rfl rfl rfl rfl)
        (h.phase.of_eq rfl rfl rfl rfl)) (fun env _ => selectionInv_reselect env _) s

theorem run_timingRequest (payload : List Byte) (s : State) : Run s (timingRequest payload s).1 := by
  unfold timingRequest
  split
  · exact .refl
  · split
    · exact .refl
    · exact run_inTiming (fun env t h => timingInv_act env _ h) (fun env _ => selectionInv_reselect env _) s

/-! ### Alarms, notices, links -/

theorem run_setProfile (payload : List Byte) (s : State) : Run s (setProfile payload s).1 := by
  unfold setProfile
  split
  · exact .refl
  · exact (Relation.ReflTransGen.single (.profile s _ _)).tail (.finish _ _)

theorem run_setNotices (payload : List Byte) (s : State) : Run s (setNotices payload s).1 := by
  unfold setNotices
  split
  · exact .refl
  · exact .single (.noticeSettings s _ _ _)

theorem run_claim (l : LinkId) (s : State) : Run s (claim l s).1 := by
  unfold claim
  split
  · exact .refl
  · exact .refl
  · next h ho => exact ((Relation.ReflTransGen.single (.claims s l h ho)).tail (.raise _ _)).tail (.finish _ _)
  · next h ho => exact (Relation.ReflTransGen.single (.grant s l h ho)).tail (.finish _ _)

theorem run_release {l : LinkId} {s : State} (h : (s.links.link l).role = .master) : Run s (release l s).1 :=
  (run_depart h).tail (.finish _ _)

theorem run_keepalive {l : LinkId} {s : State} (payload : List Byte) (h : (s.links.link l).role = .master) :
    Run s (keepalive l payload s).1 := by
  unfold keepalive
  split
  · exact (run_lapse h).tail (.finish _ _)
  · exact (Relation.ReflTransGen.single (.keep s l h)).tail (.finish _ _)

theorem run_setLinkWatch (payload : List Byte) (s : State) : Run s (setLinkWatch payload s).1 := by
  unfold setLinkWatch
  split
  · exact .refl
  · next mode period limit h =>
    refine (Relation.ReflTransGen.single (.watch s mode period limit ?_ ?_)).tail (.finish _ _)
    all_goals
      unfold setLinkWatchArgs at h
      simp only [Option.map_eq_some_iff, Prod.mk.injEq] at h
      obtain ⟨_, _, _, rfl, rfl⟩ := h
      simp only [floorTo, clampNat]
      omega

theorem master_role {x : LinkSupervisor} {l : LinkId} (h : x.master = some l) : (x.link l).role = .master := by
  unfold LinkSupervisor.master at h
  split at h
  · cases h; assumption
  · split at h
    · cases h; assumption
    · cases h

/-! ### Every command -/

theorem run_exec_fullReset (rate : BitVec 2) (s : State) :
    ∃ t, exec (.fullReset rate) s = .next t ∧ Run s t := by
  refine ⟨_, rfl, ?_⟩
  exact .single (.reset s _ _ _ _ _)

theorem run_exec_setPort (l : LinkId) (tag : Byte) (p : List Byte) (s : State) :
    ∃ t, exec (.setPort l tag p) s = .next t ∧ Run s t := by
  refine ⟨_, rfl, ?_⟩
  exact run_request fun _ u _ => run_setPort p u

theorem run_exec_getPort (l : LinkId) (tag : Byte) (p : List Byte) (s : State) :
    ∃ t, exec (.getPort l tag p) s = .next t ∧ Run s t := by
  refine ⟨_, rfl, ?_⟩
  exact run_request fun _ u _ => by unfold getPort; split <;> exact .refl

theorem run_exec_portStatus (l : LinkId) (tag : Byte) (p : List Byte) (s : State) :
    ∃ t, exec (.portStatus l tag p) s = .next t ∧ Run s t := by
  refine ⟨_, rfl, ?_⟩
  exact run_request fun _ u _ => by unfold portStatus; split <;> exact .refl

theorem run_exec_setShelfId (l : LinkId) (tag : Byte) (p : List Byte) (s : State) :
    ∃ t, exec (.setShelfId l tag p) s = .next t ∧ Run s t := by
  refine ⟨_, rfl, ?_⟩
  exact run_request fun _ u _ => .single (.identity u _ _)

theorem run_exec_setRange (l : LinkId) (tag : Byte) (p : List Byte) (s : State) :
    ∃ t, exec (.setRange l tag p) s = .next t ∧ Run s t := by
  refine ⟨_, rfl, ?_⟩
  exact run_request fun _ u _ => run_setRange p u

theorem run_exec_getRanges (l : LinkId) (tag : Byte) (payload : List Byte) (s : State) :
    ∃ t, exec (.getRanges l tag payload) s = .next t ∧ Run s t := by
  refine ⟨_, rfl, ?_⟩
  exact run_request fun _ u _ => .refl

theorem run_exec_pilotMessage (p : PortId) (body : Vector Byte 8) (noise : Bool) (s : State) :
    ∃ t, exec (.pilotMessage p body noise) s = .next t ∧ Run s t := by
  refine ⟨_, rfl, ?_⟩
  exact run_listening (portStep_wholeMessage _ body noise) s

theorem run_exec_truncatedMessage (pin : PilotSamples) (s : State) :
    ∃ t, exec (.truncatedMessage pin) s = .next t ∧ Run s t := by
  refine ⟨_, rfl, ?_⟩
  exact run_listeningSamples pin.port pin.samples s

theorem run_exec_pilotCharacterTaken (p : PortId) (search samples : List Bool) (s : State) :
    ∃ t, exec (.pilotCharacterTaken p search samples) s = .next t ∧ Run s t := by
  refine ⟨_, rfl, ?_⟩
  exact run_listeningSamples p (search ++ samples) s

theorem run_exec_lossTimerExpiry (p : PortId) (s : State) :
    ∃ t, exec (.lossTimerExpiry p) s = .next t ∧ Run s t := by
  refine ⟨_, rfl, ?_⟩
  split
  · next t h =>
    exact ((run_reach t s).tail (.port (s.reach t) p _ (.inr (by show s.ports[p].lossTimer.isSome = true; rw [h]; rfl)) portStep_loss)).tail (.finish _ _)
  · exact .refl

theorem run_exec_holdOffExpiry (p : PortId) (s : State) :
    ∃ t, exec (.holdOffExpiry p) s = .next t ∧ Run s t := by
  refine ⟨_, rfl, ?_⟩
  split
  · exact .refl
  · next t h => exact ((run_reach t s).tail (.holdOff (s.reach t) p t h)).tail (.finish _ _)

theorem run_exec_restoreWaitExpiry (g : GroupId) (s : State) :
    ∃ t, exec (.restoreWaitExpiry g) s = .next t ∧ Run s t := by
  refine ⟨_, rfl, ?_⟩
  split
  · exact .refl
  · next t _ =>
    exact (run_reach t s).trans (run_switch (fun env w =>
      (onlyGroup_event env g w (onlyGroup_modGroup g w (f := Group.dropStay) fun _ => rfl)).sameRecords)
        fun i => i.event _ g ((queueSame_modGroup g _ (f := Group.dropStay) fun _ => rfl).inv i))

theorem run_exec_awaitFarTimeout (g : GroupId) (s : State) :
    ∃ t, exec (.awaitFarTimeout g) s = .next t ∧ Run s t := by
  refine ⟨_, rfl, ?_⟩
  split
  · exact .refl
  · next t _ =>
    exact ((run_reach t s).tail (.switchOnly _ _ (onlyGroup_modGroup g s.sw
      (f := fun grp => { grp with awaitTimer := none, farBridgeTimeout := true }) fun _ => rfl).sameRecords
      (queueSame_modGroup g s.sw (f := fun grp => { grp with awaitTimer := none, farBridgeTimeout := true }) fun _ => rfl).inv)).tail
      (.finish _ _)

theorem run_exec_trialTimerExpiry (g : GroupId) (s : State) :
    ∃ t, exec (.trialTimerExpiry g) s = .next t ∧ Run s t := by
  refine ⟨_, rfl, ?_⟩
  split
  · exact .refl
  · next t _ =>
    exact (run_reach t s).trans (run_switch (fun env w =>
      (onlyGroup_event env g w (onlyGroup_endTrial env g .fail w)).sameRecords)
        fun i => i.event _ g ((queueSame_endTrial _ g .fail _).inv i))

theorem run_exec_setGroup (l : LinkId) (tag : Byte) (p : List Byte) (s : State) :
    ∃ t, exec (.setGroup l tag p) s = .next t ∧ Run s t := by
  refine ⟨_, rfl, ?_⟩
  exact run_request fun hf u _ => run_setGroup hf u

theorem run_exec_deleteGroup (l : LinkId) (tag : Byte) (p : List Byte) (s : State) :
    ∃ t, exec (.deleteGroup l tag p) s = .next t ∧ Run s t := by
  refine ⟨_, rfl, ?_⟩
  exact run_request fun _ u _ => run_deleteGroup p u

theorem run_exec_getGroup (l : LinkId) (tag : Byte) (p : List Byte) (s : State) :
    ∃ t, exec (.getGroup l tag p) s = .next t ∧ Run s t := by
  refine ⟨_, rfl, ?_⟩
  exact run_request fun _ u _ => run_getGroup p u

theorem run_exec_groupStatus (l : LinkId) (tag : Byte) (p : List Byte) (s : State) :
    ∃ t, exec (.groupStatus l tag p) s = .next t ∧ Run s t := by
  refine ⟨_, rfl, ?_⟩
  exact run_request fun _ u _ => run_groupStatus p u

theorem run_exec_protRequestBar (l : LinkId) (tag : Byte) (p : List Byte) (s : State) :
    ∃ t, exec (.protRequestBar l tag p) s = .next t ∧ Run s t := by
  refine ⟨_, rfl, ?_⟩
  exact run_request fun _ u _ => run_protRequest p u

theorem run_exec_protRequestForce (l : LinkId) (tag : Byte) (p : List Byte) (s : State) :
    ∃ t, exec (.protRequestForce l tag p) s = .next t ∧ Run s t := by
  refine ⟨_, rfl, ?_⟩
  exact run_request fun _ u _ => run_protRequest p u

theorem run_exec_protRequestManual (l : LinkId) (tag : Byte) (p : List Byte) (s : State) :
    ∃ t, exec (.protRequestManual l tag p) s = .next t ∧ Run s t := by
  refine ⟨_, rfl, ?_⟩
  exact run_request fun _ u _ => run_protRequest p u

theorem run_exec_protRequestTrial (l : LinkId) (tag : Byte) (p : List Byte) (s : State) :
    ∃ t, exec (.protRequestTrial l tag p) s = .next t ∧ Run s t := by
  refine ⟨_, rfl, ?_⟩
  exact run_request fun _ u _ => run_protRequest p u

theorem run_exec_protRequestClear (l : LinkId) (tag : Byte) (p : List Byte) (s : State) :
    ∃ t, exec (.protRequestClear l tag p) s = .next t ∧ Run s t := by
  refine ⟨_, rfl, ?_⟩
  exact run_request fun _ u _ => run_protRequest p u

theorem run_exec_setMaintEnter (l : LinkId) (tag : Byte) (p : List Byte) (s : State) :
    ∃ t, exec (.setMaintEnter l tag p) s = .next t ∧ Run s t := by
  refine ⟨_, rfl, ?_⟩
  exact run_request fun _ u _ => run_setMaint p u

theorem run_exec_setMaintLeave (l : LinkId) (tag : Byte) (p : List Byte) (s : State) :
    ∃ t, exec (.setMaintLeave l tag p) s = .next t ∧ Run s t := by
  refine ⟨_, rfl, ?_⟩
  exact run_request fun _ u _ => run_setMaint p u

theorem run_exec_maintMove (l : LinkId) (tag : Byte) (p : List Byte) (s : State) :
    ∃ t, exec (.maintMove l tag p) s = .next t ∧ Run s t := by
  refine ⟨_, rfl, ?_⟩
  exact run_request fun _ u _ => run_maintMove p u

theorem run_exec_clearHalt (l : LinkId) (tag : Byte) (p : List Byte) (s : State) :
    ∃ t, exec (.clearHalt l tag p) s = .next t ∧ Run s t := by
  refine ⟨_, rfl, ?_⟩
  exact run_request fun _ u _ => run_clearHalt p u

theorem run_exec_settle (l : LinkId) (tag : Byte) (payload : List Byte) (s : State) :
    ∃ t, exec (.settle l tag payload) s = .next t ∧ Run s t := by
  refine ⟨_, rfl, ?_⟩
  exact run_request fun _ u _ => run_settleReplies u

theorem run_exec_settleReply (s : State) :
    ∃ t, exec (.settleReply) s = .next t ∧ Run s t := by
  refine ⟨_, rfl, ?_⟩
  exact run_settleReplies s

theorem run_exec_busTransactionStart (s : State) :
    ∃ t, exec (.busTransactionStart) s = .next t ∧ Run s t := by
  refine ⟨_, rfl, ?_⟩
  split
  · next c _ _ =>
    exact (run_reach (s.sw.busFreeAt + busIdle) s).tail (.switchOnly _ _ (sameRecords_begin _ c s.sw) fun i => i.begin _ c)
  · exact .refl

theorem run_exec_commandRepeat (s : State) :
    ∃ t, exec (.commandRepeat) s = .next t ∧ Run s t := by
  refine ⟨_, rfl, ?_⟩
  split
  · next t _ => exact (run_reach t s).tail (.switchOnly _ _ (sameRecords_onRepeat _ s.sw) fun i => i.onRepeat _)
  · exact .refl

theorem run_exec_answerTimeout (s : State) :
    ∃ t, exec (.answerTimeout) s = .next t ∧ Run s t := by
  refine ⟨_, rfl, ?_⟩
  split
  · next t _ => exact (run_reach t s).trans (run_switch (fun env w => sameRecords_onAnswerTimeout env w)
      fun i => i.onAnswerTimeout _)
  · exact .refl

theorem run_exec_answerPosition (run : AnswerRun) (position : Byte) (capability : Byte) (partner : Byte) (check : Byte) (s : State) :
    ∃ t, exec (.answerPosition run position capability partner check) s = .next t ∧ Run s t := by
  refine ⟨_, rfl, ?_⟩
  exact run_answered (fun env w => sameRecords_onPosition env _ _ _ _ _ w) (fun env _ i => i.onPosition env _ _ _ _ _) s

theorem run_exec_answerAccepted (run : AnswerRun) (check : Byte) (s : State) :
    ∃ t, exec (.answerAccepted run check) s = .next t ∧ Run s t := by
  refine ⟨_, rfl, ?_⟩
  exact run_answered (fun env w => sameRecords_onAccepted env _ _ w) (fun env _ i => i.onAccepted env _ _) s

theorem run_exec_answerRefused (run : AnswerRun) (fault : Byte) (check : Byte) (s : State) :
    ∃ t, exec (.answerRefused run fault check) s = .next t ∧ Run s t := by
  refine ⟨_, rfl, ?_⟩
  exact run_answered (fun env w => sameRecords_onRefused env _ _ _ w) (fun env _ i => i.onRefused env _ _ _) s

theorem run_exec_answerSingleOnly (run : AnswerRun) (check : Byte) (s : State) :
    ∃ t, exec (.answerSingleOnly run check) s = .next t ∧ Run s t := by
  refine ⟨_, rfl, ?_⟩
  exact run_answered (fun env w => sameRecords_onSingleOnly env _ _ w) (fun env _ i => i.onSingleOnly env _ _) s

theorem run_exec_answerMoving (run : AnswerRun) (check : Byte) (s : State) :
    ∃ t, exec (.answerMoving run check) s = .next t ∧ Run s t := by
  refine ⟨_, rfl, ?_⟩
  exact run_answered (fun env w => sameRecords_onMoving env _ _ w) (fun env _ i => i.onMoving env _ _) s

theorem run_exec_answerSettled (run : AnswerRun) (position : Byte) (check : Byte) (s : State) :
    ∃ t, exec (.answerSettled run position check) s = .next t ∧ Run s t := by
  refine ⟨_, rfl, ?_⟩
  exact run_answered (fun env w => sameRecords_onSettled env _ _ _ w) (fun env _ i => i.onSettled env _ _ _) s

theorem run_exec_pollDue (a : Nat) (s : State) :
    ∃ t, exec (.pollDue a) s = .next t ∧ Run s t := by
  refine ⟨_, rfl, ?_⟩
  split
  · next due _ => exact (run_reach due s).tail (.switchOnly _ _ ((sameRecords_onPollDue a s.sw).trans (sameRecords_arbitrate _))
      fun i => (QueueSame.inv (queueSame_onPollDue a s.sw) i).arbitrate)
  · exact .refl

theorem run_exec_moveTimeout (a : Nat) (s : State) :
    ∃ t, exec (.moveTimeout a) s = .next t ∧ Run s t := by
  refine ⟨_, rfl, ?_⟩
  split
  · exact (run_reach _ s).trans (run_switch (fun env w => sameRecords_onMoveTimeout env a w)
      fun i => i.onMoveTimeout _ a)
  · exact .refl

theorem run_exec_setRef (l : LinkId) (tag : Byte) (p : List Byte) (s : State) :
    ∃ t, exec (.setRef l tag p) s = .next t ∧ Run s t := by
  refine ⟨_, rfl, ?_⟩
  exact run_request fun _ u _ => run_setRef p u

theorem run_exec_getRef (l : LinkId) (tag : Byte) (p : List Byte) (s : State) :
    ∃ t, exec (.getRef l tag p) s = .next t ∧ Run s t := by
  refine ⟨_, rfl, ?_⟩
  exact run_request fun _ u _ => by unfold getRef; split <;> exact .refl

theorem run_exec_setTiming (l : LinkId) (tag : Byte) (p : List Byte) (s : State) :
    ∃ t, exec (.setTiming l tag p) s = .next t ∧ Run s t := by
  refine ⟨_, rfl, ?_⟩
  exact run_request fun _ u _ => run_setTiming p u

theorem run_exec_forceRef (l : LinkId) (tag : Byte) (p : List Byte) (s : State) :
    ∃ t, exec (.forceRef l tag p) s = .next t ∧ Run s t := by
  refine ⟨_, rfl, ?_⟩
  exact run_request fun _ u _ => run_timingRequest p u

theorem run_exec_clearForce (l : LinkId) (tag : Byte) (p : List Byte) (s : State) :
    ∃ t, exec (.clearForce l tag p) s = .next t ∧ Run s t := by
  refine ⟨_, rfl, ?_⟩
  exact run_request fun _ u _ => run_timingRequest p u

theorem run_exec_lockout (l : LinkId) (tag : Byte) (p : List Byte) (s : State) :
    ∃ t, exec (.lockout l tag p) s = .next t ∧ Run s t := by
  refine ⟨_, rfl, ?_⟩
  exact run_request fun _ u _ => run_timingRequest p u

theorem run_exec_unlock (l : LinkId) (tag : Byte) (p : List Byte) (s : State) :
    ∃ t, exec (.unlock l tag p) s = .next t ∧ Run s t := by
  refine ⟨_, rfl, ?_⟩
  exact run_request fun _ u _ => run_timingRequest p u

theorem run_exec_timingStatus (l : LinkId) (tag : Byte) (payload : List Byte) (s : State) :
    ∃ t, exec (.timingStatus l tag payload) s = .next t ∧ Run s t := by
  refine ⟨_, rfl, ?_⟩
  exact run_request fun _ u _ => .refl

theorem run_exec_referenceEdge (r : RefId) (s : State) :
    ∃ t, exec (.referenceEdge r) s = .next t ∧ Run s t := by
  refine ⟨_, rfl, ?_⟩
  split
  · exact run_inTiming (fun env t h => timingInv_modRef env r h fun x hx => hx.edge env r)
      (fun env _ => selectionInv_reselect env _) s
  · exact .refl

theorem run_exec_edgeTimerExpiry (r : RefId) (s : State) :
    ∃ t, exec (.edgeTimerExpiry r) s = .next t ∧ Run s t := by
  refine ⟨_, rfl, ?_⟩
  split
  · exact .refl
  · next t _ =>
    exact (run_reach t s).trans (run_inTiming (fun env u h => timingInv_modRef env r h fun x hx =>
      hx.fail.of_eq (y := { x.fail with edgeTimer := none }) rfl rfl) (fun env _ => selectionInv_reselect env _) _)

theorem timingInv_lastEdge {t : Timing} (env : TimingEnv) (r : RefId) (count : Nat) (h : TimingInv t) :
    TimingInv (({ t with refs := upd t.refs r fun x => { x with edgeTimer := some (env.now + 500) } }).sample env r
      (sampleOf count) (some 0)) := by
  refine timingInv_sample env r (sampleOf_steerable count) _ ⟨fun q => ?_, h.word, h.history, h.holdoverValue, h.selecting,
    h.refout, h.holdover, h.acquiring, h.pushed, h.counted, h.ready⟩
  show RefInv (upd t.refs r _)[q]
  rw [upd_get]
  split
  · exact (h.refs r).of_eq rfl rfl
  · exact h.refs q

theorem run_exec_measurementEnd (r : RefId) (count : Nat) (s : State) :
    ∃ t, exec (.measurementEnd r count) s = .next t ∧ Run s t := by
  refine ⟨_, rfl, ?_⟩
  split
  · exact run_inTiming (fun env t h => timingInv_lastEdge env r count h) (fun env _ => selectionInv_reselect env _) s
  · exact .refl

theorem run_exec_measurementEarlyEnd (r : RefId) (s : State) :
    ∃ t, exec (.measurementEarlyEnd r) s = .next t ∧ Run s t := by
  refine ⟨_, rfl, ?_⟩
  split
  · exact run_inTiming (fun env t h => timingInv_sample env r (s := earlySample) ⟨by decide, by decide⟩ _ h)
      (fun env _ => selectionInv_reselect env _) s
  · exact .refl

theorem run_exec_soakTimerExpiry (r : RefId) (s : State) :
    ∃ t, exec (.soakTimerExpiry r) s = .next t ∧ Run s t := by
  refine ⟨_, rfl, ?_⟩
  split
  · exact .refl
  · next t _ =>
    exact (run_reach t s).trans (run_inTiming (fun env u h => timingInv_modRef env r h fun x hx =>
      hx.of_eq (y := { x with soakTimer := none, state := if x.state = .soaking then .qualified else x.state }) rfl rfl)
      (fun env _ => selectionInv_reselect env _) _)

theorem run_exec_acquireTimerExpiry (s : State) :
    ∃ t, exec (.acquireTimerExpiry) s = .next t ∧ Run s t := by
  refine ⟨_, rfl, ?_⟩
  split
  · exact .refl
  · next t _ => exact (run_reach t s).tail (.acquired _)

theorem run_exec_holdoverTimerExpiry (s : State) :
    ∃ t, exec (.holdoverTimerExpiry) s = .next t ∧ Run s t := by
  refine ⟨_, rfl, ?_⟩
  split
  · exact .refl
  · next t h => exact ((run_reach t s).tail (.endHoldover (s.reach t) t h)).tail (.finish _ _)

theorem run_exec_steerFrameStart (s : State) :
    ∃ t, exec (.steerFrameStart) s = .next t ∧ Run s t := by
  refine ⟨_, rfl, ?_⟩
  split
  · next ends f _ _ => exact (run_reach ends s).tail (.steering _ _ _ s.timing.nextTick)
  · exact .refl

theorem run_exec_setProfile (l : LinkId) (tag : Byte) (p : List Byte) (s : State) :
    ∃ t, exec (.setProfile l tag p) s = .next t ∧ Run s t := by
  refine ⟨_, rfl, ?_⟩
  exact run_request fun _ u _ => run_setProfile p u

theorem run_exec_getProfile (l : LinkId) (tag : Byte) (p : List Byte) (s : State) :
    ∃ t, exec (.getProfile l tag p) s = .next t ∧ Run s t := by
  refine ⟨_, rfl, ?_⟩
  exact run_request fun _ u _ => by unfold getProfile; split <;> exact .refl

theorem run_exec_readAlarms (l : LinkId) (tag : Byte) (p : List Byte) (s : State) :
    ∃ t, exec (.readAlarms l tag p) s = .next t ∧ Run s t := by
  refine ⟨_, rfl, ?_⟩
  exact run_request fun _ u _ => by unfold readAlarms; split <;> exact .refl

theorem run_exec_declareSoakExpiry (k : PointId) (s : State) :
    ∃ t, exec (.declareSoakExpiry k) s = .next t ∧ Run s t := by
  refine ⟨_, rfl, ?_⟩
  split
  · next t _ => exact (run_reach t s).tail (.finish _ _)
  · exact .refl

theorem run_exec_clearSoakExpiry (k : PointId) (s : State) :
    ∃ t, exec (.clearSoakExpiry k) s = .next t ∧ Run s t := by
  refine ⟨_, rfl, ?_⟩
  split
  · next t _ => exact (run_reach t s).tail (.finish _ _)
  · exact .refl

theorem run_exec_acoPress (high : Nat) (low : Nat) (s : State) :
    ∃ t, exec (.acoPress high low) s = .next t ∧ Run s t := by
  refine ⟨_, rfl, ?_⟩
  split
  · exact (Relation.ReflTransGen.single (.pin s _)).tail (.acknowledge _)
  · exact .single (.pin s _)

theorem run_exec_aco (l : LinkId) (tag : Byte) (payload : List Byte) (s : State) :
    ∃ t, exec (.aco l tag payload) s = .next t ∧ Run s t := by
  refine ⟨_, rfl, ?_⟩
  exact run_request fun _ u _ => .single (.acknowledge u)

theorem run_exec_setNotices (l : LinkId) (tag : Byte) (p : List Byte) (s : State) :
    ∃ t, exec (.setNotices l tag p) s = .next t ∧ Run s t := by
  refine ⟨_, rfl, ?_⟩
  exact run_request fun _ u _ => run_setNotices p u

theorem run_exec_noticeSend (s : State) :
    ∃ t, exec (.noticeSend) s = .next t ∧ Run s t := by
  refine ⟨_, rfl, ?_⟩
  split
  · next l n rest _ hq =>
    split
    · exact ((run_reach _ s).tail (.link _ l (Link.beginFrame n.frame _) fun _ => rfl)).tail (.noticePop _ n rest (by
        cases l <;> exact hq))
    · exact .refl
  · exact .refl

theorem run_exec_replySend (l : LinkId) (s : State) :
    ∃ t, exec (.replySend l) s = .next t ∧ Run s t := by
  refine ⟨_, rfl, ?_⟩
  split
  · exact .refl
  · next r rest _ =>
    split
    · exact .refl
    · exact (run_reach _ s).tail (.link _ l (fun k => (k.popReply r rest).beginFrame r.frame _) fun _ => rfl)

theorem run_takeBadKind (l : LinkId) (tag kind : Byte) (s : State) : Run s (takeBadKind l tag kind s) := by
  unfold takeBadKind
  dsimp only
  refine (Relation.ReflTransGen.single (.link s l Link.frameTaken fun _ => rfl)).trans ?_
  split
  · exact .single (.link _ l _ fun k => by unfold Link.busy; split <;> rfl)
  · exact .single (.link _ l _ fun _ => rfl)

theorem run_exec_requestBadKind (l : LinkId) (tag : Byte) (kind : Byte) (p : List Byte) (s : State) :
    ∃ t, exec (.requestBadKind l tag kind p) s = .next t ∧ Run s t := by
  refine ⟨_, rfl, ?_⟩
  split
  · exact .refl
  · unfold badKind
    split
    · exact run_takeBadKind l tag kind s
    · exact .refl

theorem run_exec_claim (l : LinkId) (tag : Byte) (payload : List Byte) (s : State) :
    ∃ t, exec (.claim l tag payload) s = .next t ∧ Run s t := by
  refine ⟨_, rfl, ?_⟩
  exact run_request fun _ u _ => run_claim l u

theorem run_exec_release (l : LinkId) (tag : Byte) (payload : List Byte) (s : State) :
    ∃ t, exec (.release l tag payload) s = .next t ∧ Run s t := by
  refine ⟨_, rfl, ?_⟩
  exact run_request fun _ u hm => run_release (hm rfl)

theorem run_exec_keepalive (l : LinkId) (tag : Byte) (p : List Byte) (s : State) :
    ∃ t, exec (.keepalive l tag p) s = .next t ∧ Run s t := by
  refine ⟨_, rfl, ?_⟩
  exact run_request fun _ u hm => run_keepalive p (hm rfl)

theorem run_exec_periodTimerExpiry (s : State) :
    ∃ t, exec (.periodTimerExpiry) s = .next t ∧ Run s t := by
  refine ⟨_, rfl, ?_⟩
  split
  · next t l _ hl => exact ((run_reach t.expiry s).trans (run_lapse (s := s.reach t.expiry) (master_role hl))).tail (.finish _ _)
  · exact .refl

theorem run_exec_setLinkWatch (l : LinkId) (tag : Byte) (p : List Byte) (s : State) :
    ∃ t, exec (.setLinkWatch l tag p) s = .next t ∧ Run s t := by
  refine ⟨_, rfl, ?_⟩
  exact run_request fun _ u _ => run_setLinkWatch p u

theorem run_exec_restart (l : LinkId) (tag : Byte) (payload : List Byte) (s : State) :
    ∃ t, exec (.restart l tag payload) s = .next t ∧ Run s t := by
  refine ⟨_, rfl, ?_⟩
  exact run_request fun _ u _ => .refl

theorem run_exec_restartTakesEffect (l : LinkId) (s : State) :
    ∃ t, exec (.restartTakesEffect l) s = .next t ∧ Run s t := by
  refine ⟨_, rfl, ?_⟩
  split
  · exact .refl
  · next ends _ =>
    exact (((((run_reach ends s).tail (.link _ l (fun k => { k with sending := none }) fun _ => rfl)).tail (.restart _)).trans
      (run_resumeTest _)).trans (run_masterless _)).tail (.finish _ _)

theorem run_exec_identify (l : LinkId) (tag : Byte) (payload : List Byte) (s : State) :
    ∃ t, exec (.identify l tag payload) s = .next t ∧ Run s t := by
  refine ⟨_, rfl, ?_⟩
  exact run_request fun _ u _ => .refl

theorem run_exec_cableTest (l : LinkId) (tag : Byte) (p : List Byte) (s : State) :
    ∃ t, exec (.cableTest l tag p) s = .next t ∧ Run s t := by
  refine ⟨_, rfl, ?_⟩
  exact run_request fun _ u _ => run_cableTest l p u

theorem run_exec_cableTestLead (s : State) :
    ∃ t, exec (.cableTestLead) s = .next t ∧ Run s t := by
  refine ⟨_, rfl, ?_⟩
  exact run_outOn _ _ s

theorem run_exec_cableTestMarkerSent (s : State) :
    ∃ t, exec (.cableTestMarkerSent) s = .next t ∧ Run s t := by
  refine ⟨_, rfl, ?_⟩
  split <;> exact run_outOn _ _ s

theorem run_exec_cableTestSequenceEnd (s : State) :
    ∃ t, exec (.cableTestSequenceEnd) s = .next t ∧ Run s t := by
  refine ⟨_, rfl, ?_⟩
  exact (run_outOn _ _ s).trans (run_outOn _ _ _)

theorem serviceOnly_seek (samples : List Bool) : ServiceOnly (Port.seek samples) := by
  refine ⟨fun p _ h => by rw [h]; rfl, fun p => ?_⟩
  unfold Port.seek
  split <;> exact ⟨rfl, rfl, rfl, rfl, rfl, rfl, rfl⟩

theorem run_exec_cableTestMarker (search start : List Bool) (s : State) :
    ∃ t, exec (.cableTestMarker search start) s = .next t ∧ Run s t := by
  refine ⟨_, rfl, ?_⟩
  split
  · exact .refl
  · next t _ =>
    split
    · exact (Relation.ReflTransGen.single (.service s t.inPort _ (serviceOnly_seek (search ++ start)))).tail (.test _ _)
    · exact .refl

theorem run_exec_cableTestPass (bits : List (BitVec 12)) (s : State) :
    ∃ t, exec (.cableTestPass bits) s = .next t ∧ Run s t := by
  refine ⟨_, rfl, ?_⟩
  exact run_compareMore bits s

theorem run_exec_cableTestFail (bits : List (BitVec 12)) (s : State) :
    ∃ t, exec (.cableTestFail bits) s = .next t ∧ Run s t := by
  refine ⟨_, rfl, ?_⟩
  exact run_compareMore bits s

theorem run_exec_noPath (s : State) :
    ∃ t, exec (.noPath) s = .next t ∧ Run s t := by
  refine ⟨_, rfl, ?_⟩
  split
  · exact .refl
  · split
    · exact (run_reach _ s).trans (run_endTest _ _ _)
    · exact .refl

/-- A choice between two runs is a run. -/
theorem run_ite {c : Prop} [Decidable c] {f g : State → State} {s : State} (hf : Run s (f s)) (hg : Run s (g s)) :
    Run s ((if c then f else g) s) := by
  split
  · exact hf
  · exact hg

/-- The request a frame is by its KIND is a run, as its row is. -/
theorem run_takeKind (l : LinkId) (tag kind : Byte) (payload : List Byte) (s : State) : Run s (takeKind l tag kind payload s) := by
  unfold takeKind
  refine run_ite (run_takeRequest fun _ u _ => .refl) ?_
  refine run_ite (run_takeRequest fun _ u _ => run_claim l u) ?_
  refine run_ite (run_takeRequest fun _ u hm => run_release (hm rfl)) ?_
  refine run_ite (run_takeRequest fun _ u hm => run_keepalive payload (hm rfl)) ?_
  refine run_ite (run_takeRequest fun _ u _ => run_setLinkWatch payload u) ?_
  refine run_ite (run_takeRequest fun _ u _ => .refl) ?_
  refine run_ite (run_takeRequest fun _ u _ => run_setPort payload u) ?_
  refine run_ite (run_takeRequest fun _ u _ => by unfold getPort; split <;> exact .refl) ?_
  refine run_ite (run_takeRequest fun _ u _ => by unfold portStatus; split <;> exact .refl) ?_
  refine run_ite (run_takeRequest fun _ u _ => .single (.identity u _ _)) ?_
  refine run_ite (run_takeRequest fun _ u _ => run_setRange payload u) ?_
  refine run_ite (run_takeRequest fun _ u _ => .refl) ?_
  refine run_ite (run_takeRequest fun _ u _ => run_cableTest l payload u) ?_
  refine run_ite (run_takeRequest fun hf u _ => run_setGroup hf u) ?_
  refine run_ite (run_takeRequest fun _ u _ => run_deleteGroup payload u) ?_
  refine run_ite (run_takeRequest fun _ u _ => run_getGroup payload u) ?_
  refine run_ite (run_takeRequest fun _ u _ => run_groupStatus payload u) ?_
  refine run_ite (run_takeRequest fun _ u _ => run_protRequest payload u) ?_
  refine run_ite (run_takeRequest fun _ u _ => run_setMaint payload u) ?_
  refine run_ite (run_takeRequest fun _ u _ => run_maintMove payload u) ?_
  refine run_ite (run_takeRequest fun _ u _ => run_clearHalt payload u) ?_
  refine run_ite (run_takeRequest fun _ u _ => run_settleReplies u) ?_
  refine run_ite (run_takeRequest fun _ u _ => run_setRef payload u) ?_
  refine run_ite (run_takeRequest fun _ u _ => by unfold getRef; split <;> exact .refl) ?_
  refine run_ite (run_takeRequest fun _ u _ => run_setTiming payload u) ?_
  refine run_ite (run_takeRequest fun _ u _ => run_timingRequest payload u) ?_
  refine run_ite (run_takeRequest fun _ u _ => .refl) ?_
  refine run_ite (run_takeRequest fun _ u _ => run_setProfile payload u) ?_
  refine run_ite (run_takeRequest fun _ u _ => by unfold getProfile; split <;> exact .refl) ?_
  refine run_ite (run_takeRequest fun _ u _ => by unfold readAlarms; split <;> exact .refl) ?_
  refine run_ite (run_takeRequest fun _ u _ => .single (.acknowledge u)) ?_
  refine run_ite (run_takeRequest fun _ u _ => run_setNotices payload u) ?_
  exact run_takeBadKind l tag kind s

theorem run_onSample (l : LinkId) (s : State) (b : Bool) : Run s (onSample l s b) := by
  have h : Run s (modLink l (fun k => { k with rx := ((s.links.link l).rx.sample b).1 }) s) := .single (.link s l _ fun _ => rfl)
  unfold onSample
  dsimp only
  split
  · exact h.trans (run_takeKind _ _ _ _ _)
  · exact h

theorem run_onSamples (l : LinkId) (samples : List Bool) (s : State) : Run s (onSamples l samples s) := by
  induction samples generalizing s with
  | nil => exact .refl
  | cons b bs ih => exact (run_onSample l s b).trans (ih _)

theorem run_exec_linkBreak (pin : LinkSamples) (s : State) :
    ∃ t, exec (.linkBreak pin) s = .next t ∧ Run s t := ⟨_, rfl, run_onSamples pin.link pin.samples s⟩

theorem run_exec_frameGapTimeout (pin : LinkSamples) (s : State) :
    ∃ t, exec (.frameGapTimeout pin) s = .next t ∧ Run s t := ⟨_, rfl, run_onSamples pin.link pin.samples s⟩

theorem run_exec_frameFramingError (pin : LinkSamples) (s : State) :
    ∃ t, exec (.frameFramingError pin) s = .next t ∧ Run s t := ⟨_, rfl, run_onSamples pin.link pin.samples s⟩

theorem run_exec_frameCrcError (l : LinkId) (samples : List Bool) (s : State) :
    ∃ t, exec (.frameCrcError l samples) s = .next t ∧ Run s t := ⟨_, rfl, run_onSamples l samples s⟩

theorem run_exec_frameBadLen (l : LinkId) (samples : List Bool) (s : State) :
    ∃ t, exec (.frameBadLen l samples) s = .next t ∧ Run s t := ⟨_, rfl, run_onSamples l samples s⟩

/-- Every command has a next state, and it is a run of changes. -/
theorem exec_run (c : Instr) (s : State) : ∃ t, exec c s = .next t ∧ Run s t := by
  cases c with
  | fullReset rate => exact run_exec_fullReset rate s
  | setPort l tag payload => exact run_exec_setPort l tag payload s
  | getPort l tag payload => exact run_exec_getPort l tag payload s
  | portStatus l tag payload => exact run_exec_portStatus l tag payload s
  | setShelfId l tag payload => exact run_exec_setShelfId l tag payload s
  | setRange l tag payload => exact run_exec_setRange l tag payload s
  | getRanges l tag payload => exact run_exec_getRanges l tag payload s
  | pilotMessage p body noise => exact run_exec_pilotMessage p body noise s
  | truncatedMessage pin => exact run_exec_truncatedMessage pin s
  | lossTimerExpiry p => exact run_exec_lossTimerExpiry p s
  | pilotTransmit p => exact run_pilotTransmit p s
  | secondsTick => exact run_secondsTick s
  | conversionEnd code => exact run_conversionEnd code s
  | holdOffExpiry p => exact run_exec_holdOffExpiry p s
  | restoreWaitExpiry g => exact run_exec_restoreWaitExpiry g s
  | awaitFarTimeout g => exact run_exec_awaitFarTimeout g s
  | trialTimerExpiry g => exact run_exec_trialTimerExpiry g s
  | setGroup l tag payload => exact run_exec_setGroup l tag payload s
  | deleteGroup l tag payload => exact run_exec_deleteGroup l tag payload s
  | getGroup l tag payload => exact run_exec_getGroup l tag payload s
  | groupStatus l tag payload => exact run_exec_groupStatus l tag payload s
  | protRequestBar l tag payload => exact run_exec_protRequestBar l tag payload s
  | protRequestForce l tag payload => exact run_exec_protRequestForce l tag payload s
  | protRequestManual l tag payload => exact run_exec_protRequestManual l tag payload s
  | protRequestTrial l tag payload => exact run_exec_protRequestTrial l tag payload s
  | protRequestClear l tag payload => exact run_exec_protRequestClear l tag payload s
  | setMaintEnter l tag payload => exact run_exec_setMaintEnter l tag payload s
  | setMaintLeave l tag payload => exact run_exec_setMaintLeave l tag payload s
  | maintMove l tag payload => exact run_exec_maintMove l tag payload s
  | clearHalt l tag payload => exact run_exec_clearHalt l tag payload s
  | settle l tag payload => exact run_exec_settle l tag payload s
  | settleReply => exact run_exec_settleReply s
  | busTransactionStart => exact run_exec_busTransactionStart s
  | commandRepeat => exact run_exec_commandRepeat s
  | answerTimeout => exact run_exec_answerTimeout s
  | answerPosition run position capability partner check => exact run_exec_answerPosition run position capability partner check s
  | answerAccepted run check => exact run_exec_answerAccepted run check s
  | answerRefused run fault check => exact run_exec_answerRefused run fault check s
  | answerSingleOnly run check => exact run_exec_answerSingleOnly run check s
  | answerMoving run check => exact run_exec_answerMoving run check s
  | answerSettled run position check => exact run_exec_answerSettled run position check s
  | pollDue address => exact run_exec_pollDue address s
  | moveTimeout address => exact run_exec_moveTimeout address s
  | setRef l tag payload => exact run_exec_setRef l tag payload s
  | getRef l tag payload => exact run_exec_getRef l tag payload s
  | setTiming l tag payload => exact run_exec_setTiming l tag payload s
  | forceRef l tag payload => exact run_exec_forceRef l tag payload s
  | clearForce l tag payload => exact run_exec_clearForce l tag payload s
  | lockout l tag payload => exact run_exec_lockout l tag payload s
  | unlock l tag payload => exact run_exec_unlock l tag payload s
  | timingStatus l tag payload => exact run_exec_timingStatus l tag payload s
  | referenceEdge r => exact run_exec_referenceEdge r s
  | edgeTimerExpiry r => exact run_exec_edgeTimerExpiry r s
  | measurementEnd r count => exact run_exec_measurementEnd r count s
  | measurementEarlyEnd r => exact run_exec_measurementEarlyEnd r s
  | soakTimerExpiry r => exact run_exec_soakTimerExpiry r s
  | acquireTimerExpiry => exact run_exec_acquireTimerExpiry s
  | holdoverTimerExpiry => exact run_exec_holdoverTimerExpiry s
  | steerFrameStart => exact run_exec_steerFrameStart s
  | setProfile l tag payload => exact run_exec_setProfile l tag payload s
  | getProfile l tag payload => exact run_exec_getProfile l tag payload s
  | readAlarms l tag payload => exact run_exec_readAlarms l tag payload s
  | declareSoakExpiry k => exact run_exec_declareSoakExpiry k s
  | clearSoakExpiry k => exact run_exec_clearSoakExpiry k s
  | acoPress high low => exact run_exec_acoPress high low s
  | aco l tag payload => exact run_exec_aco l tag payload s
  | setNotices l tag payload => exact run_exec_setNotices l tag payload s
  | noticeSend => exact run_exec_noticeSend s
  | replySend l => exact run_exec_replySend l s
  | linkBreak pin => exact run_exec_linkBreak pin s
  | frameGapTimeout pin => exact run_exec_frameGapTimeout pin s
  | frameCrcError l samples => exact run_exec_frameCrcError l samples s
  | requestBadKind l tag kind payload => exact run_exec_requestBadKind l tag kind payload s
  | claim l tag payload => exact run_exec_claim l tag payload s
  | release l tag payload => exact run_exec_release l tag payload s
  | keepalive l tag payload => exact run_exec_keepalive l tag payload s
  | periodTimerExpiry => exact run_exec_periodTimerExpiry s
  | setLinkWatch l tag payload => exact run_exec_setLinkWatch l tag payload s
  | restart l tag payload => exact run_exec_restart l tag payload s
  | restartTakesEffect l => exact run_exec_restartTakesEffect l s
  | identify l tag payload => exact run_exec_identify l tag payload s
  | cableTest l tag payload => exact run_exec_cableTest l tag payload s
  | cableTestLead => exact run_exec_cableTestLead s
  | cableTestMarkerSent => exact run_exec_cableTestMarkerSent s
  | cableTestSequenceEnd => exact run_exec_cableTestSequenceEnd s
  | cableTestMarker search start => exact run_exec_cableTestMarker search start s
  | cableTestPass bits => exact run_exec_cableTestPass bits s
  | cableTestFail bits => exact run_exec_cableTestFail bits s
  | noPath => exact run_exec_noPath s
  | pilotCharacterTaken p search samples => exact run_exec_pilotCharacterTaken p search samples s
  | frameFramingError pin => exact run_exec_frameFramingError pin s
  | frameBadLen l samples => exact run_exec_frameBadLen l samples s

end Sys2Proof.Machine
end

