-- ==== Sys2Proof/Laws/Cascades.lean ====
section
/-! SUPPORT. What an event at a port, at a group or at a reference hands on, said once for each shared operation. -/

namespace Sys2Proof.Machine

/-! ### L, E and T as they are formed (R57 to R60) -/

/-- Two groups that agree in all that L, E and T are formed from, and in L, E and T. -/
structure SameForm (x y : Group) : Prop where
  cfg : y.cfg = x.cfg
  external : y.external = x.external
  stay : y.stay = x.stay
  remote : y.remote = x.remote
  farEcho : y.farEcho = x.farEcho
  farBridged : y.farBridged = x.farBridged
  mismatch : y.protocolMismatch = x.protocolMismatch
  local_ : y.local_ = x.local_
  effective : y.effective = x.effective
  target : y.target = x.target

theorem Group.locals_congr {env : SwEnv} {x y : Group} (hc : y.cfg = x.cfg) (he : y.external = x.external)
    (hm : y.protocolMismatch = x.protocolMismatch) : y.locals env = x.locals env := by
  unfold Group.locals Group.conditions Group.signallingLoss
  simp only [hc, he, hm]

/-- The signal decodes from the record and the ports alone (R68). -/
theorem Group.decode_signal {env : SwEnv} {x y : Group} (hc : y.cfg = x.cfg) :
    (y.decode env).remote = (x.decode env).remote ∧ (y.decode env).farEcho = (x.decode env).farEcho
      ∧ (y.decode env).farBridged = (x.decode env).farBridged
      ∧ (y.decode env).protocolMismatch = (x.decode env).protocolMismatch := by
  cases x
  cases y
  cases hc
  unfold Group.decode
  dsimp only
  split
  · next e1 e2 e3 =>
    rw [e1, e2, e3]
    dsimp only
    split_ifs <;> exact ⟨rfl, rfl, rfl, rfl⟩
  · exact ⟨rfl, rfl, rfl, rfl⟩

/-- Decoding changes the signal only. -/
theorem Group.decode_keeps (env : SwEnv) (x : Group) :
    x.decode env = { x with
      remote := (x.decode env).remote, farEcho := (x.decode env).farEcho, farBridged := (x.decode env).farBridged
      protocolMismatch := (x.decode env).protocolMismatch } := by
  unfold Group.decode
  dsimp only
  split <;> (try split) <;> (try split) <;> rfl

/-- A group whose signal stands as decoded, after changes elsewhere in its record. -/
theorem Group.decode_congr {env : SwEnv} {x y : Group} (h : x.decode env = x) (hc : y.cfg = x.cfg) (hr : y.remote = x.remote)
    (he : y.farEcho = x.farEcho) (hb : y.farBridged = x.farBridged) (hm : y.protocolMismatch = x.protocolMismatch) :
    y.decode env = y := by
  obtain ⟨a, b, c, d⟩ := Group.decode_signal (env := env) hc
  rw [h] at a b c d
  rw [Group.decode_keeps, a, b, c, d, ← hr, ← he, ← hb, ← hm]

theorem Group.decode_decode (env : SwEnv) (x : Group) : (x.decode env).decode env = x.decode env := by
  obtain ⟨a, b, c, d⟩ := Group.decode_signal (env := env) (Group.decode_cfg env x)
  rw [Group.decode_keeps env (x.decode env), a, b, c, d]

theorem Formed.congr {env : SwEnv} {w v : Switching} {x y : Group} (h : Formed env w x) (s : SameForm x y)
    (hs : v.selected y = w.selected x) : Formed env v y :=
  ⟨Group.decode_congr h.signal s.cfg s.remote s.farEcho s.farBridged s.mismatch, by
    rw [Group.locals_congr s.cfg s.external s.mismatch, s.local_, s.stay]; exact h.local_, by
    rw [s.effective, h.effective, s.local_]
    unfold Group.effectiveOf
    rw [s.cfg, s.remote], by rw [s.target, h.target, s.effective, hs]⟩

/-- Group `g`, where it is configured, is as formed. -/
def FormedIn (env : SwEnv) (g : GroupId) (w : Switching) : Prop := ∀ grp, w.groups[g] = some grp → Formed env w grp

theorem FormedIn.congr {env : SwEnv} {g : GroupId} {w v : Switching} (h : FormedIn env g w) (he : v.elements = w.elements)
    (hg : ∀ y, v.groups[g] = some y → ∃ x, w.groups[g] = some x ∧ SameForm x y) : FormedIn env g v := by
  intro y hy
  obtain ⟨x, hx, s⟩ := hg y hy
  refine (h x hx).congr s ?_
  unfold Switching.selected Switching.known Switching.element
  rw [he, s.cfg]

theorem formed_form (env : SwEnv) (w : Switching) {x : Group} (h : x.decode env = x) :
    Formed env w (x.form env (w.selected x)) := by
  unfold Group.form
  split
  · next st hst =>
    dsimp only
    split <;> exact ⟨Group.decode_congr h rfl rfl rfl rfl rfl, rfl, rfl, rfl⟩
  · exact ⟨Group.decode_congr h rfl rfl rfl rfl rfl, rfl, rfl, rfl⟩

theorem formedIn_refresh (env : SwEnv) (g : GroupId) (w : Switching) : FormedIn env g (w.refresh env g) := by
  intro y hy
  unfold Switching.refresh at hy ⊢
  split at hy
  · next h => rw [h] at hy; cases hy
  · next grp h =>
    simp only [Switching.setGroup_groups, set_get_self, Option.some.injEq] at hy
    subst hy
    have := formed_form env w (Group.decode_decode env grp)
    have hs : w.selected (grp.decode env) = w.selected grp := by unfold Switching.selected; rw [Group.decode_cfg]
    rw [hs] at this
    exact this.congr ⟨rfl, rfl, rfl, rfl, rfl, rfl, rfl, rfl, rfl, rfl⟩ rfl

theorem formedIn_note {env : SwEnv} {g : GroupId} (st : Option GroupState) {w : Switching} (h : FormedIn env g w) :
    FormedIn env g (w.note env g st) := by
  unfold Switching.note
  split
  · exact h
  · split
    · exact h.congr rfl fun y hy => ⟨y, hy, ⟨rfl, rfl, rfl, rfl, rfl, rfl, rfl, rfl, rfl, rfl⟩⟩
    · exact h

theorem formedIn_enter {env : SwEnv} {g : GroupId} (st : GroupState) {w : Switching} (h : FormedIn env g w) :
    FormedIn env g (w.enter env g st) := by
  unfold Switching.enter
  split
  · exact h
  · next grp hg =>
    split
    · exact h
    · refine formedIn_note _ (h.congr rfl fun y hy => ⟨grp, hg, ?_⟩)
      simp only [Switching.setGroup_groups, set_get_self, Option.some.injEq] at hy
      subst hy
      exact ⟨rfl, rfl, rfl, rfl, rfl, rfl, rfl, rfl, rfl, rfl⟩

theorem formedIn_place {env : SwEnv} {g : GroupId} (op : Op) {w : Switching} (h : FormedIn env g w) : FormedIn env g (w.place op) :=
  h.congr rfl fun y hy => ⟨y, hy, ⟨rfl, rfl, rfl, rfl, rfl, rfl, rfl, rfl, rfl, rfl⟩⟩

theorem formedIn_dropOp {env : SwEnv} {g : GroupId} {w : Switching} (h : FormedIn env g w) : FormedIn env g (w.dropOp g) :=
  h.congr rfl fun y hy => ⟨y, hy, ⟨rfl, rfl, rfl, rfl, rfl, rfl, rfl, rfl, rfl, rfl⟩⟩

theorem formedIn_placeTrialRead {env : SwEnv} {g : GroupId} {w : Switching} (h : FormedIn env g w) :
    FormedIn env g (w.placeTrialRead g) := by
  unfold Switching.placeTrialRead
  split
  · exact h
  · split
    · exact formedIn_place _ h
    · exact h

theorem formedIn_step {env : SwEnv} {g : GroupId} {w : Switching} (h : FormedIn env g w) : FormedIn env g (w.step env g) := by
  unfold Switching.step
  split
  · exact h
  · split
    · exact h
    · exact formedIn_enter _ (formedIn_place _ h)
    · dsimp only
      split
      · exact formedIn_placeTrialRead (formedIn_enter _ h)
      · exact formedIn_enter _ h

theorem formedIn_echoTest {env : SwEnv} {g : GroupId} {w : Switching} (h : FormedIn env g w) :
    FormedIn env g (w.echoTest env g) := by
  unfold Switching.echoTest
  split
  · exact h
  · split
    · exact formedIn_refresh env g _
    · exact h

theorem formedIn_react {env : SwEnv} {g : GroupId} (old : Group) {w : Switching} (h : FormedIn env g w) :
    FormedIn env g (w.react env g old) := by
  unfold Switching.react
  split
  · exact h
  · dsimp only
    repeat' split
    all_goals first
      | exact h
      | exact formedIn_step (formedIn_refresh env g _)
      | exact formedIn_step (formedIn_dropOp h)
      | exact formedIn_step h

/-- After an event at a configured group its L, E and T are as formed (R60). -/
theorem formedIn_event (env : SwEnv) (g : GroupId) (f : Switching → Switching) (w : Switching) : FormedIn env g (w.event env g f) := by
  unfold Switching.event
  split
  · next h => intro y hy; rw [h] at hy; cases hy
  · exact formedIn_react _ (formedIn_echoTest (formedIn_refresh env g _))

theorem formedIn_stand (env : SwEnv) (g : GroupId) (st : GroupState) (w : Switching) : FormedIn env g (w.stand env g st) :=
  formedIn_enter _ (formedIn_refresh env g _)

/-! ### Events at a group -/

theorem inSwitch_frame (f : SwEnv → Switching → Switching) (s : State) : TimingFrame s.timing (inSwitch f s).timing :=
  timingFrame_followSelectors _ s.timing

/-- An event of one group's engine. -/
theorem inSwitch_groupCascade {g : GroupId} {f : SwEnv → Switching → Switching} {s : State} (h : OnlyGroup g s.sw (f s.swEnv s.sw)) :
    GroupCascade g s (inSwitch f s) :=
  ⟨inSwitch_keeps f s, rfl, h, (inSwitch_frame f s).settings, (inSwitch_frame f s).forced, (inSwitch_frame f s).nextTick, rfl⟩

/-- An event of the switching block. -/
theorem inSwitch_switchCascade {f : SwEnv → Switching → Switching} {s : State} (h : SameRecords s.sw (f s.swEnv s.sw)) :
    SwitchCascade s (inSwitch f s) :=
  ⟨inSwitch_keeps f s, rfl, h, (inSwitch_frame f s).settings, (inSwitch_frame f s).forced, (inSwitch_frame f s).nextTick⟩

/-- An event at the actuators. -/
theorem inSwitch_busCascade {f : SwEnv → Switching → Switching} {s : State} (h : SameRecords s.sw (f s.swEnv s.sw)) :
    BusCascade s (inSwitch f s) := ⟨inSwitch_switchCascade h, rfl⟩

theorem SwitchCascade.refl (s : State) : SwitchCascade s s := ⟨.refl s, rfl, .refl _, rfl, rfl, rfl⟩

theorem SwitchCascade.trans {r s t : State} (a : SwitchCascade r s) (b : SwitchCascade s t) : SwitchCascade r t :=
  ⟨a.others.trans b.others, b.ports.trans a.ports, a.records.trans b.records, b.settings.trans a.settings, b.forced.trans a.forced,
    b.nextTick.trans a.nextTick⟩

/-- Events at several groups. -/
theorem groupsInTurn_switchCascade {f : GroupId → SwEnv → Switching → Switching} (gs : List GroupId) (s : State)
    (h : ∀ g env w, SameRecords w (f g env w)) : SwitchCascade s (groupsInTurn gs f s) :=
  groupsInTurn_induct (P := SwitchCascade s) gs
    (fun _ => ⟨⟨rfl, rfl, rfl, rfl, rfl, rfl, rfl, rfl, rfl, rfl, rfl⟩, rfl, .refl _, rfl, rfl, rfl⟩)
    fun g _ ht => ht.trans (inSwitch_switchCascade (h g _ _))

/-! ### Events at a port -/

theorem tellGroup_formed {p : PortId} {old : Port} {s : State} {g : GroupId} {m : Nat} (hm : memberOf s.sw.groups p = some (g, m))
    (hr : Told m old s.ports[p]) : FormedIn s.swEnv g (tellGroup p old s).sw := by
  unfold tellGroup
  rw [hm]
  dsimp only
  split
  · rw [inSwitch_sw]
    unfold Switching.memberEvent
    exact formedIn_event _ _ _ _
  · next h =>
    rcases hr with e | ⟨e, hr⟩
    · exact absurd e.symm h
    · rw [if_pos ⟨e, hr.imp Ne.symm (Or.imp Ne.symm Ne.symm)⟩, inSwitch_sw]
      exact formedIn_event _ _ _ _

theorem tellTiming_told {p : PortId} {old : Port} {s u : State} (ho : s.ports[p] = old)
    (ht : u.timing = s.timing ∨ u.timing = s.timing.followSelectors u.timingEnv) : TimingTold p s (tellTiming p old u) := by
  subst ho
  unfold tellTiming
  dsimp only
  split
  · next h => exact ⟨u.timing, ht, (if_pos h).symm⟩
  · next h => exact ⟨u.timing, ht, (if_neg h).symm⟩

/-- A port replaced, and its readers told. -/
theorem setPortTo_cascade (p : PortId) (new : Port) (s : State) : PortCascade p s (setPortTo p new s) where
  others := setPortTo_keeps p new s
  ports := fun q hq => by rw [setPortTo_ports]; exact set_get_other _ hq _
  switching := by
    unfold setPortTo
    dsimp only
    rw [tellTiming_sw]
    rcases tellGroup_cases p s.ports[p] { s with ports := s.ports.set p new } with e | ⟨g, m, f, hm, e, hf⟩ <;> rw [e]
    · exact .inl rfl
    · exact .inr ⟨g, m, hm, hf _ _⟩
  formed := by
    intro g m grp hm hg hr
    have h1 : (setPortTo p new s).ports[p] = new := by rw [setPortTo_ports]; exact set_get_self _ _ _
    rw [h1] at hr
    have hf := tellGroup_formed (s := { s with ports := s.ports.set p new }) (old := s.ports[p]) hm
      (by show Told m s.ports[p] (s.ports.set p new)[p]; rw [set_get_self]; exact hr)
    have hsw : (setPortTo p new s).sw = (tellGroup p s.ports[p] { s with ports := s.ports.set p new }).sw := by
      unfold setPortTo; dsimp only; rw [tellTiming_sw]
    have henv : (setPortTo p new s).swEnv = State.swEnv { s with ports := s.ports.set p new } := by
      have k := setPortTo_keeps p new s
      unfold State.swEnv
      rw [k.now, setPortTo_ports, k.ranges, k.notices]
    rw [henv, hsw]
    rw [hsw] at hg
    exact hf grp hg
  settings := by
    unfold setPortTo
    rcases tellTiming_cases p s.ports[p] (tellGroup p s.ports[p] { s with ports := s.ports.set p new }) with e | e <;> dsimp only <;> rw [e]
    all_goals
      rcases tellGroup_cases p s.ports[p] { s with ports := s.ports.set p new } with e | ⟨g, m, f, hm, e, hf⟩ <;> rw [e]
    · exact (inSwitch_frame _ _).settings
    · exact (timingFrame_portChanged _ _ _).settings
    · exact ((timingFrame_portChanged _ _ _).settings).trans (inSwitch_frame _ _).settings
  forced := by
    unfold setPortTo
    rcases tellTiming_cases p s.ports[p] (tellGroup p s.ports[p] { s with ports := s.ports.set p new }) with e | e <;> dsimp only <;> rw [e]
    all_goals
      rcases tellGroup_cases p s.ports[p] { s with ports := s.ports.set p new } with e | ⟨g, m, f, hm, e, hf⟩ <;> rw [e]
    · exact (inSwitch_frame _ _).forced
    · exact (timingFrame_portChanged _ _ _).forced
    · exact ((timingFrame_portChanged _ _ _).forced).trans (inSwitch_frame _ _).forced
  nextTick := by
    unfold setPortTo
    rcases tellTiming_cases p s.ports[p] (tellGroup p s.ports[p] { s with ports := s.ports.set p new }) with e | e <;> dsimp only <;> rw [e]
    all_goals
      rcases tellGroup_cases p s.ports[p] { s with ports := s.ports.set p new } with e | ⟨g, m, f, hm, e, hf⟩ <;> rw [e]
    · exact (inSwitch_frame _ _).nextTick
    · exact (timingFrame_portChanged _ _ _).nextTick
    · exact ((timingFrame_portChanged _ _ _).nextTick).trans (inSwitch_frame _ _).nextTick

  timing := by
    refine tellTiming_told rfl ?_
    rcases tellGroup_cases p s.ports[p] { s with ports := s.ports.set p new } with e | ⟨g, m, f, _, e, _⟩ <;> rw [e]
    · exact .inl rfl
    · exact .inr rfl

theorem portEvent_cascade (p : PortId) (f : Port → Port) (s : State) : PortCascade p s (portEvent p f s) := setPortTo_cascade _ _ s

/-- The port after an event: all that `f` made of it, with its raw condition as its findings give it. -/
theorem portEvent_port (p : PortId) (f : Port → Port) (s : State) :
    let new := (portEvent p f s).ports[p]
    new = { f s.ports[p] with raw := new.raw, reported := new.reported, holdTimer := new.holdTimer } ∧ new.raw = new.rawCondition := by
  obtain ⟨eff, h⟩ := portEvent_self p f s
  dsimp only
  rw [h]
  refine ⟨Port.settle_keeps _ _ _, ?_⟩
  rw [Port.settle_raw]
  have := Port.settle_keeps eff s.now (f s.ports[p])
  generalize (f s.ports[p]).settle eff s.now = q at this
  rw [this]
  rfl

/-! ### Events at the timing unit -/

theorem inTiming_cascade {f : TimingEnv → Timing → Timing} {s : State} (h : (f s.timingEnv s.timing).nextTick = s.timing.nextTick) :
    TimingCascade s (inTiming f s) := ⟨⟨rfl, rfl, rfl, rfl, rfl, rfl, rfl, rfl, rfl, rfl, rfl⟩, rfl, rfl, h⟩

end Sys2Proof.Machine
end

