-- ==== Sys2Proof/Laws/Engine.lean ====
section
/-! SUPPORT. The group engine field by field: what decoding the far end's signal, forming L, E and T, entering a state, noting it and
replacing an external request leave as it stands, and what they make of their own group. -/

namespace Sys2Proof.Machine

/-! ### A group replaced -/

theorem Switching.modGroup_some {g : GroupId} {f : Group → Group} {w : Switching} {x : Group} (h : w.groups[g] = some x) :
    (w.modGroup g f).groups[g] = some (f x) := by
  simp only [Switching.modGroup_groups, upd, set_get_self, h, Option.map_some]

theorem Switching.modGroup_other {g h : GroupId} (hne : h ≠ g) (f : Group → Group) (w : Switching) :
    (w.modGroup g f).groups[h] = w.groups[h] := set_get_other _ hne _

/-! ### Decoding and forming (R57 to R60, R68) -/

@[simp] theorem Group.decode_external (env : SwEnv) (x : Group) : (x.decode env).external = x.external := by
  unfold Group.decode
  dsimp only
  repeat' split
  all_goals rfl
@[simp] theorem Group.decode_stay (env : SwEnv) (x : Group) : (x.decode env).stay = x.stay := by
  unfold Group.decode
  dsimp only
  repeat' split
  all_goals rfl
@[simp] theorem Group.decode_restoreTimer (env : SwEnv) (x : Group) : (x.decode env).restoreTimer = x.restoreTimer := by
  unfold Group.decode
  dsimp only
  repeat' split
  all_goals rfl
@[simp] theorem Group.decode_local_ (env : SwEnv) (x : Group) : (x.decode env).local_ = x.local_ := by
  unfold Group.decode
  dsimp only
  repeat' split
  all_goals rfl
@[simp] theorem Group.decode_effective (env : SwEnv) (x : Group) : (x.decode env).effective = x.effective := by
  unfold Group.decode
  dsimp only
  repeat' split
  all_goals rfl
@[simp] theorem Group.decode_target (env : SwEnv) (x : Group) : (x.decode env).target = x.target := by
  unfold Group.decode
  dsimp only
  repeat' split
  all_goals rfl
@[simp] theorem Group.decode_trialResult (env : SwEnv) (x : Group) : (x.decode env).trialResult = x.trialResult := by
  unfold Group.decode
  dsimp only
  repeat' split
  all_goals rfl
@[simp] theorem Group.decode_trialTimer (env : SwEnv) (x : Group) : (x.decode env).trialTimer = x.trialTimer := by
  unfold Group.decode
  dsimp only
  repeat' split
  all_goals rfl
@[simp] theorem Group.decode_awaitTimer (env : SwEnv) (x : Group) : (x.decode env).awaitTimer = x.awaitTimer := by
  unfold Group.decode
  dsimp only
  repeat' split
  all_goals rfl
@[simp] theorem Group.decode_farBridgeTimeout (env : SwEnv) (x : Group) : (x.decode env).farBridgeTimeout = x.farBridgeTimeout := by
  unfold Group.decode
  dsimp only
  repeat' split
  all_goals rfl

/-- What forming leaves of a group whose stay request it may have dropped. -/
theorem Group.form_cases (env : SwEnv) (sel : Option Nat) (x : Group) :
    ∃ y : Group, (y = x ∨ y = x.dropStay) ∧ x.form env sel =
      { y with
        local_ := (x.form env sel).local_
        effective := (x.form env sel).effective
        target := (x.form env sel).target } := by
  unfold Group.form
  split
  · split
    · exact ⟨x.dropStay, .inr rfl, rfl⟩
    · exact ⟨x, .inl rfl, rfl⟩
  · exact ⟨x, .inl rfl, rfl⟩

@[simp] theorem Group.form_external (env : SwEnv) (sel : Option Nat) (x : Group) : (x.form env sel).external = x.external := by
  obtain ⟨y, rfl | rfl, e⟩ := Group.form_cases env sel x
  · rw [e]
  · rw [e]; rfl
@[simp] theorem Group.form_remote (env : SwEnv) (sel : Option Nat) (x : Group) : (x.form env sel).remote = x.remote := by
  obtain ⟨y, rfl | rfl, e⟩ := Group.form_cases env sel x
  · rw [e]
  · rw [e]; rfl
@[simp] theorem Group.form_farEcho (env : SwEnv) (sel : Option Nat) (x : Group) : (x.form env sel).farEcho = x.farEcho := by
  obtain ⟨y, rfl | rfl, e⟩ := Group.form_cases env sel x
  · rw [e]
  · rw [e]; rfl
@[simp] theorem Group.form_farBridged (env : SwEnv) (sel : Option Nat) (x : Group) : (x.form env sel).farBridged = x.farBridged := by
  obtain ⟨y, rfl | rfl, e⟩ := Group.form_cases env sel x
  · rw [e]
  · rw [e]; rfl
@[simp] theorem Group.form_protocolMismatch (env : SwEnv) (sel : Option Nat) (x : Group) : (x.form env sel).protocolMismatch = x.protocolMismatch := by
  obtain ⟨y, rfl | rfl, e⟩ := Group.form_cases env sel x
  · rw [e]
  · rw [e]; rfl
@[simp] theorem Group.form_trialResult (env : SwEnv) (sel : Option Nat) (x : Group) : (x.form env sel).trialResult = x.trialResult := by
  obtain ⟨y, rfl | rfl, e⟩ := Group.form_cases env sel x
  · rw [e]
  · rw [e]; rfl
@[simp] theorem Group.form_trialTimer (env : SwEnv) (sel : Option Nat) (x : Group) : (x.form env sel).trialTimer = x.trialTimer := by
  obtain ⟨y, rfl | rfl, e⟩ := Group.form_cases env sel x
  · rw [e]
  · rw [e]; rfl
@[simp] theorem Group.form_awaitTimer (env : SwEnv) (sel : Option Nat) (x : Group) : (x.form env sel).awaitTimer = x.awaitTimer := by
  obtain ⟨y, rfl | rfl, e⟩ := Group.form_cases env sel x
  · rw [e]
  · rw [e]; rfl
@[simp] theorem Group.form_farBridgeTimeout (env : SwEnv) (sel : Option Nat) (x : Group) : (x.form env sel).farBridgeTimeout = x.farBridgeTimeout := by
  obtain ⟨y, rfl | rfl, e⟩ := Group.form_cases env sel x
  · rw [e]
  · rw [e]; rfl

theorem Group.form_noStay {env : SwEnv} {sel : Option Nat} {x : Group} (h : x.stay = none) : (x.form env sel).stay = none := by
  obtain ⟨y, rfl | rfl, e⟩ := Group.form_cases env sel x <;> rw [e]
  · exact h
  · rfl

theorem Group.form_noTimer {env : SwEnv} {sel : Option Nat} {x : Group} (h : x.restoreTimer = none) :
    (x.form env sel).restoreTimer = none := by
  obtain ⟨y, rfl | rfl, e⟩ := Group.form_cases env sel x <;> rw [e]
  · exact h
  · rfl

/-- A stay request that forming keeps is one no other local request outranks. -/
theorem Group.form_stay (env : SwEnv) (sel : Option Nat) (x : Group) :
    (x.form env sel).stay = match x.stay with
      | some st => if (x.locals env).any (·.outranks st) then none else some st
      | none => none := by
  unfold Group.form
  cases h : x.stay with
  | none => exact h
  | some st =>
    dsimp only
    split
    · rfl
    · exact h

/-! ### Notices -/

@[simp] theorem Switching.note_groups (env : SwEnv) (g : GroupId) (st : Option GroupState) (w : Switching) :
    (w.note env g st).groups = w.groups := by
  unfold Switching.note
  repeat' split
  all_goals rfl
@[simp] theorem Switching.note_elements (env : SwEnv) (g : GroupId) (st : Option GroupState) (w : Switching) :
    (w.note env g st).elements = w.elements := by
  unfold Switching.note
  repeat' split
  all_goals rfl
@[simp] theorem Switching.note_bus (env : SwEnv) (g : GroupId) (st : Option GroupState) (w : Switching) :
    (w.note env g st).bus = w.bus := by
  unfold Switching.note
  repeat' split
  all_goals rfl
@[simp] theorem Switching.note_chosen (env : SwEnv) (g : GroupId) (st : Option GroupState) (w : Switching) :
    (w.note env g st).chosen = w.chosen := by
  unfold Switching.note
  repeat' split
  all_goals rfl
@[simp] theorem Switching.note_busFreeAt (env : SwEnv) (g : GroupId) (st : Option GroupState) (w : Switching) :
    (w.note env g st).busFreeAt = w.busFreeAt := by
  unfold Switching.note
  repeat' split
  all_goals rfl
@[simp] theorem Switching.note_busDefect (env : SwEnv) (g : GroupId) (st : Option GroupState) (w : Switching) :
    (w.note env g st).busDefect = w.busDefect := by
  unfold Switching.note
  repeat' split
  all_goals rfl
@[simp] theorem Switching.note_settleFail (env : SwEnv) (g : GroupId) (st : Option GroupState) (w : Switching) :
    (w.note env g st).settleFail = w.settleFail := by
  unfold Switching.note
  repeat' split
  all_goals rfl

/-! ### Forming for a group of the block -/

@[simp] theorem Switching.refresh_elements (env : SwEnv) (g : GroupId) (w : Switching) : (w.refresh env g).elements = w.elements := by
  unfold Switching.refresh
  split <;> rfl
@[simp] theorem Switching.refresh_queue (env : SwEnv) (g : GroupId) (w : Switching) : (w.refresh env g).queue = w.queue := by
  unfold Switching.refresh
  split <;> rfl
@[simp] theorem Switching.refresh_bus (env : SwEnv) (g : GroupId) (w : Switching) : (w.refresh env g).bus = w.bus := by
  unfold Switching.refresh
  split <;> rfl
@[simp] theorem Switching.refresh_chosen (env : SwEnv) (g : GroupId) (w : Switching) : (w.refresh env g).chosen = w.chosen := by
  unfold Switching.refresh
  split <;> rfl
@[simp] theorem Switching.refresh_busFreeAt (env : SwEnv) (g : GroupId) (w : Switching) : (w.refresh env g).busFreeAt = w.busFreeAt := by
  unfold Switching.refresh
  split <;> rfl
@[simp] theorem Switching.refresh_busDefect (env : SwEnv) (g : GroupId) (w : Switching) : (w.refresh env g).busDefect = w.busDefect := by
  unfold Switching.refresh
  split <;> rfl
@[simp] theorem Switching.refresh_settleFail (env : SwEnv) (g : GroupId) (w : Switching) : (w.refresh env g).settleFail = w.settleFail := by
  unfold Switching.refresh
  split <;> rfl
@[simp] theorem Switching.refresh_raised (env : SwEnv) (g : GroupId) (w : Switching) : (w.refresh env g).raised = w.raised := by
  unfold Switching.refresh
  split <;> rfl

theorem Switching.refresh_some {env : SwEnv} {g : GroupId} {w : Switching} {x : Group} (h : w.groups[g] = some x) :
    (w.refresh env g).groups[g] = some ((x.decode env).form env (w.selected x)) := by
  unfold Switching.refresh
  rw [h]
  simp

/-! ### Entering a state (R70, R77) -/

@[simp] theorem Switching.enter_elements (env : SwEnv) (g : GroupId) (st : GroupState) (w : Switching) :
    (w.enter env g st).elements = w.elements := by
  unfold Switching.enter
  repeat' split
  all_goals simp
@[simp] theorem Switching.enter_bus (env : SwEnv) (g : GroupId) (st : GroupState) (w : Switching) :
    (w.enter env g st).bus = w.bus := by
  unfold Switching.enter
  repeat' split
  all_goals simp
@[simp] theorem Switching.enter_chosen (env : SwEnv) (g : GroupId) (st : GroupState) (w : Switching) :
    (w.enter env g st).chosen = w.chosen := by
  unfold Switching.enter
  repeat' split
  all_goals simp
@[simp] theorem Switching.enter_busFreeAt (env : SwEnv) (g : GroupId) (st : GroupState) (w : Switching) :
    (w.enter env g st).busFreeAt = w.busFreeAt := by
  unfold Switching.enter
  repeat' split
  all_goals simp
@[simp] theorem Switching.enter_busDefect (env : SwEnv) (g : GroupId) (st : GroupState) (w : Switching) :
    (w.enter env g st).busDefect = w.busDefect := by
  unfold Switching.enter
  repeat' split
  all_goals simp
@[simp] theorem Switching.enter_settleFail (env : SwEnv) (g : GroupId) (st : GroupState) (w : Switching) :
    (w.enter env g st).settleFail = w.settleFail := by
  unfold Switching.enter
  repeat' split
  all_goals simp

theorem Switching.enter_some {env : SwEnv} {g : GroupId} {st : GroupState} {w : Switching} {x : Group} (h : w.groups[g] = some x)
    (hs : x.state ≠ st) :
    (w.enter env g st).groups[g] = some { x with
      state := st
      awaitTimer := if st = .awaitFar then some (env.now + 2000000) else none
      farBridgeTimeout := false } := by
  unfold Switching.enter
  rw [h]
  dsimp only
  rw [if_neg hs]
  simp

theorem Switching.enter_same {env : SwEnv} {g : GroupId} {st : GroupState} {w : Switching} {x : Group} (h : w.groups[g] = some x)
    (hs : x.state = st) : w.enter env g st = w := by
  unfold Switching.enter
  rw [h]
  dsimp only
  rw [if_pos hs]

/-! ### The external request (R62, R63, R88) -/

@[simp] theorem Switching.stopTrial_elements (g : GroupId) (w : Switching) : (w.stopTrial g).elements = w.elements := rfl
@[simp] theorem Switching.stopTrial_bus (g : GroupId) (w : Switching) : (w.stopTrial g).bus = w.bus := rfl
@[simp] theorem Switching.stopTrial_busFreeAt (g : GroupId) (w : Switching) : (w.stopTrial g).busFreeAt = w.busFreeAt := rfl
@[simp] theorem Switching.stopTrial_busDefect (g : GroupId) (w : Switching) : (w.stopTrial g).busDefect = w.busDefect := rfl
@[simp] theorem Switching.stopTrial_settleFail (g : GroupId) (w : Switching) : (w.stopTrial g).settleFail = w.settleFail := rfl
@[simp] theorem Switching.stopTrial_raised (g : GroupId) (w : Switching) : (w.stopTrial g).raised = w.raised := rfl
@[simp] theorem Switching.setExternal_elements (g : GroupId) (ext : Option Request) (w : Switching) :
    (w.setExternal g ext).elements = w.elements := rfl
@[simp] theorem Switching.setExternal_bus (g : GroupId) (ext : Option Request) (w : Switching) :
    (w.setExternal g ext).bus = w.bus := rfl
@[simp] theorem Switching.setExternal_busFreeAt (g : GroupId) (ext : Option Request) (w : Switching) :
    (w.setExternal g ext).busFreeAt = w.busFreeAt := rfl
@[simp] theorem Switching.setExternal_busDefect (g : GroupId) (ext : Option Request) (w : Switching) :
    (w.setExternal g ext).busDefect = w.busDefect := rfl
@[simp] theorem Switching.setExternal_settleFail (g : GroupId) (ext : Option Request) (w : Switching) :
    (w.setExternal g ext).settleFail = w.settleFail := rfl
@[simp] theorem Switching.setExternal_raised (g : GroupId) (ext : Option Request) (w : Switching) :
    (w.setExternal g ext).raised = w.raised := rfl

theorem Switching.setExternal_some {g : GroupId} {ext : Option Request} {w : Switching} {x : Group} (h : w.groups[g] = some x) :
    (w.setExternal g ext).groups[g] = some { x with
      external := ext
      trialResult := if x.external.any (fun r => decide (r.kind = .trial)) then .abandoned else x.trialResult
      trialTimer := if x.external.any (fun r => decide (r.kind = .trial)) then none else x.trialTimer } := by
  unfold Switching.setExternal Switching.stopTrial
  simp only [Switching.modGroup_groups, Switching.modOp_groups, Switching.keepOps_groups, upd, set_get_self, h, Option.map_some]
  split <;> rfl

theorem Switching.setExternal_chosen {g : GroupId} {ext : Option Request} {w : Switching} (h : w.opOf g = none) :
    (w.setExternal g ext).chosen = w.chosen := by
  show w.chosen.filter _ = w.chosen
  cases hc : w.chosen with
  | none => rfl
  | some c =>
    refine Option.filter_some_pos ?_
    cases ho : w.opOf c.owner with
    | none => exact show ((w.modGroup g _).opOf c.owner).all _ = true from by rw [show (w.modGroup g _).opOf c.owner = none from ho]; rfl
    | some op =>
      have hn : op.group ≠ g := by
        intro e
        have := List.find?_eq_none.mp h op (List.mem_of_find?_eq_some ho)
        simp [e] at this
      exact show ((w.modGroup g _).opOf c.owner).all _ = true from by
        rw [show (w.modGroup g _).opOf c.owner = some op from ho]; simp [hn]

theorem Switching.setExternal_queue {g : GroupId} {ext : Option Request} {w : Switching} (h : w.opOf g = none) :
    (w.setExternal g ext).queue = w.queue := by
  have hn : ∀ op ∈ w.queue, op.group ≠ g := by
    intro op hop
    have := List.find?_eq_none.mp h op hop
    simpa using this
  show (w.queue.filter _).map _ = w.queue
  rw [List.filter_eq_self.mpr (by intro op hop; simp [hn op hop])]
  conv_rhs => rw [← List.map_id w.queue]
  exact List.map_congr_left fun op hop => if_neg (hn op hop)

/-- No queued trial read of the group is left where its external request was replaced (R88). -/
theorem Switching.setExternal_noTrialRead (g : GroupId) (ext : Option Request) (w : Switching) :
    ∀ op, (w.setExternal g ext).opOf g = some op → op.isTrialRead = true → op.inFlight = true := by
  intro op hop htr
  have hm := List.mem_of_find?_eq_some hop
  have hg := List.find?_some hop
  obtain ⟨o, ho, rfl⟩ := List.mem_map.mp (show op ∈ (w.queue.filter _).map _ from hm)
  rw [List.mem_filter] at ho
  have h2 := ho.2
  have same : (if o.group = g then if o.isTrialRead then { o with judged := false } else o else o).group = o.group
      ∧ (if o.group = g then if o.isTrialRead then { o with judged := false } else o else o).isTrialRead = o.isTrialRead
      ∧ (if o.group = g then if o.isTrialRead then { o with judged := false } else o else o).inFlight = o.inFlight := by
    repeat' split
    all_goals exact ⟨rfl, rfl, rfl⟩
  have hog : o.group = g := by simpa [same.1] using hg
  have hot : o.isTrialRead = true := same.2.1 ▸ htr
  exact same.2.2.trans (by simpa [hog, hot] using h2)

/-! ### Steps change the state of a group and nothing else of its record (R70, R72) -/

/-- Two records of a group that differ in state, AWAIT-FAR timer and FAR-BRIDGE-TIMEOUT at most. -/
structure StateOnly (x y : Group) : Prop where
  cfg : y.cfg = x.cfg
  external : y.external = x.external
  stay : y.stay = x.stay
  restoreTimer : y.restoreTimer = x.restoreTimer
  remote : y.remote = x.remote
  farEcho : y.farEcho = x.farEcho
  farBridged : y.farBridged = x.farBridged
  mismatch : y.protocolMismatch = x.protocolMismatch
  local_ : y.local_ = x.local_
  effective : y.effective = x.effective
  target : y.target = x.target
  trialResult : y.trialResult = x.trialResult
  trialTimer : y.trialTimer = x.trialTimer

theorem StateOnly.refl (x : Group) : StateOnly x x := ⟨rfl, rfl, rfl, rfl, rfl, rfl, rfl, rfl, rfl, rfl, rfl, rfl, rfl⟩

theorem StateOnly.trans {x y z : Group} (a : StateOnly x y) (b : StateOnly y z) : StateOnly x z :=
  ⟨b.cfg.trans a.cfg, b.external.trans a.external, b.stay.trans a.stay, b.restoreTimer.trans a.restoreTimer,
    b.remote.trans a.remote, b.farEcho.trans a.farEcho, b.farBridged.trans a.farBridged, b.mismatch.trans a.mismatch,
    b.local_.trans a.local_, b.effective.trans a.effective, b.target.trans a.target, b.trialResult.trans a.trialResult,
    b.trialTimer.trans a.trialTimer⟩

/-- Group `g`'s record differs in its state at most. -/
def StateOnlyIn (g : GroupId) (w v : Switching) : Prop :=
  ∀ x, w.groups[g] = some x → ∃ y, v.groups[g] = some y ∧ StateOnly x y

theorem StateOnlyIn.of_eq {g : GroupId} {w v : Switching} (h : v.groups = w.groups) : StateOnlyIn g w v :=
  fun x hx => ⟨x, by rw [h]; exact hx, .refl x⟩

theorem StateOnlyIn.trans {g : GroupId} {u v w : Switching} (a : StateOnlyIn g u v) (b : StateOnlyIn g v w) : StateOnlyIn g u w := by
  intro x hx
  obtain ⟨y, hy, hxy⟩ := a x hx
  obtain ⟨z, hz, hyz⟩ := b y hy
  exact ⟨z, hz, hxy.trans hyz⟩

theorem stateOnly_enter (env : SwEnv) (g : GroupId) (st : GroupState) (w : Switching) : StateOnlyIn g w (w.enter env g st) := by
  intro x hx
  by_cases hs : x.state = st
  · exact ⟨x, by rw [Switching.enter_same hx hs]; exact hx, .refl x⟩
  · exact ⟨_, Switching.enter_some hx hs, ⟨rfl, rfl, rfl, rfl, rfl, rfl, rfl, rfl, rfl, rfl, rfl, rfl, rfl⟩⟩

theorem stateOnly_placeTrialRead (g : GroupId) (w : Switching) : StateOnlyIn g w (w.placeTrialRead g) := by
  refine .of_eq ?_
  unfold Switching.placeTrialRead
  repeat' split
  all_goals rfl

theorem stateOnly_step (env : SwEnv) (g : GroupId) (w : Switching) : StateOnlyIn g w (w.step env g) := by
  unfold Switching.step
  split
  · exact .of_eq rfl
  · split
    · exact .of_eq rfl
    · exact .trans (.of_eq (v := w.place _) rfl) (stateOnly_enter env g _ _)
    · dsimp only
      split
      · exact .trans (stateOnly_enter env g _ _) (stateOnly_placeTrialRead g _)
      · exact stateOnly_enter env g _ _

/-- A reaction that finds no queued trial read of the group. -/
theorem stateOnly_react {env : SwEnv} {g : GroupId} {old : Group} {w : Switching}
    (h : ∀ op, w.opOf g = some op → op.isTrialRead = true → op.inFlight = true) : StateOnlyIn g w (w.react env g old) := by
  unfold Switching.react
  split
  · exact .of_eq rfl
  · dsimp only
    split
    all_goals try exact .of_eq rfl
    all_goals
      split
      · next op hop =>
        split
        · next hc =>
          first
            | exact .trans (.of_eq (v := w.dropOp g) rfl) (stateOnly_step env g _)
            | (exfalso
               have := h op hop
               simp only [Bool.and_eq_true, Bool.not_eq_true'] at hc
               rw [this hc.1.2] at hc
               exact absurd hc.1.1 (by decide))
        · exact .of_eq rfl
      · first
          | exact .of_eq rfl
          | (split
             · exact stateOnly_step env g _
             · exact .of_eq rfl)

/-- Where no trial passes and no trial read waits, an event leaves of its group what `f` made of it, with the far end's signal decoded
and L, E and T formed afresh, but for the state (R60, R72). -/
theorem event_stateOnly {env : SwEnv} {g : GroupId} {f : Switching → Switching} {w : Switching} {old x : Group}
    (ho : w.groups[g] = some old) (hx : (f w).groups[g] = some x)
    (he : ¬ (x.external.any (fun r => decide (r.kind = .trial)) ∧ x.cfg.ends = .dual ∧ x.trialTimer.isSome
      ∧ (x.decode env).farEcho = some .trial))
    (hq : ∀ op, (f w).opOf g = some op → op.isTrialRead = true → op.inFlight = true) :
    ∃ y, (w.event env g f).groups[g] = some y ∧ StateOnly ((x.decode env).form env ((f w).selected x)) y := by
  have hr := Switching.refresh_some (env := env) hx
  have hecho : ((f w).refresh env g).echoTest env g = (f w).refresh env g := by
    unfold Switching.echoTest
    rw [hr]
    dsimp only
    rw [if_neg]
    simpa using he
  unfold Switching.event
  rw [ho]
  dsimp only
  rw [hecho]
  refine stateOnly_react (fun op hop => hq op ?_) _ hr
  unfold Switching.opOf at hop ⊢
  rwa [Switching.refresh_queue] at hop

/-! ### Facts that an event keeps -/

/-- Group `g` is configured and its record satisfies `P`. -/
def Has (g : GroupId) (P : Group → Prop) (w : Switching) : Prop := ∃ x, w.groups[g] = some x ∧ P x

/-- A fact of a record that forming, stepping, and the end of a trial keep, at the event whose surroundings are `env`. -/
structure Steady (env : SwEnv) (P : Group → Prop) : Prop where
  forms : ∀ (sel : Option Nat) (x : Group), P x → P ((x.decode env).form env sel)
  states : ∀ x y : Group, StateOnly x y → P x → P y
  drops : ∀ x : Group, P x → P { x with
    external := none
    trialResult := if x.external.any (fun r => decide (r.kind = .trial)) then .abandoned else x.trialResult
    trialTimer := if x.external.any (fun r => decide (r.kind = .trial)) then none else x.trialTimer }
  ends : ∀ (x : Group) (res : TrialResult), x.external.any (fun r => decide (r.kind = .trial)) = true → P x →
    P { x with external := none, trialResult := res, trialTimer := none }

theorem has_refresh {P : Group → Prop} {env : SwEnv} (hP : Steady env P) {g : GroupId} {w : Switching} (h : Has g P w) :
    Has g P (w.refresh env g) := by
  obtain ⟨x, hx, p⟩ := h
  exact ⟨_, Switching.refresh_some hx, hP.forms _ x p⟩

theorem has_stateOnly {P : Group → Prop} {env : SwEnv} (hP : Steady env P) {g : GroupId} {w v : Switching} (hw : StateOnlyIn g w v) (h : Has g P w) :
    Has g P v := by
  obtain ⟨x, hx, p⟩ := h
  obtain ⟨y, hy, hxy⟩ := hw x hx
  exact ⟨y, hy, hP.states x y hxy p⟩

/-- The record of a group whose trial has ended with a result (R88). -/
theorem Switching.endTrial_some {env : SwEnv} {g : GroupId} {res : TrialResult} {w : Switching} {x : Group}
    (hx : w.groups[g] = some x) :
    (w.endTrial env g res).groups[g] =
      some (((({ x with external := none, trialResult := res, trialTimer := none } : Group)).decode env).form env (w.selected x)) := by
  have h1 := Switching.modGroup_some (f := fun y => { y with trialResult := res, trialTimer := none }) hx
  have h2 : ((w.modGroup g fun y => { y with trialResult := res, trialTimer := none }).note env g
      ((w.modGroup g fun y => { y with trialResult := res, trialTimer := none }).groups[g].map (·.state))).groups[g] =
      some { x with trialResult := res, trialTimer := none } := by
    rw [Switching.note_groups]; exact h1
  have h3 := Switching.modGroup_some (f := fun y => { y with external := none }) h2
  have h4 := Switching.refresh_some (env := env) h3
  have hs : ∀ v : Switching, v.elements = w.elements → v.selected { x with external := none, trialResult := res, trialTimer := none }
      = w.selected x := by
    intro v hv
    unfold Switching.selected Switching.known Switching.element
    rw [hv]
  rw [hs _ (by simp)] at h4
  exact h4

theorem has_endTrial {P : Group → Prop} {env : SwEnv} (hP : Steady env P) {g : GroupId} (res : TrialResult) {w : Switching}
    (h : Has g (fun x => x.external.any (fun r => decide (r.kind = .trial)) = true ∧ P x) w) : Has g P (w.endTrial env g res) := by
  obtain ⟨x, hx, ht, p⟩ := h
  exact ⟨_, Switching.endTrial_some hx, hP.forms _ _ (hP.ends x res ht p)⟩

theorem has_echoTest {P : Group → Prop} {env : SwEnv} (hP : Steady env P) {g : GroupId} {w : Switching} (h : Has g P w) :
    Has g P (w.echoTest env g) := by
  obtain ⟨x, hx, p⟩ := h
  unfold Switching.echoTest
  rw [hx]
  dsimp only
  split
  · next hc => exact has_endTrial hP _ ⟨x, hx, hc.1, p⟩
  · exact ⟨x, hx, p⟩

theorem has_react {P : Group → Prop} {env : SwEnv} (hP : Steady env P) {g : GroupId} (old : Group) {w : Switching} (h : Has g P w) :
    Has g P (w.react env g old) := by
  have hset : Has g P (w.setExternal g none) := by
    obtain ⟨x, hx, p⟩ := h
    exact ⟨_, Switching.setExternal_some hx, hP.drops x p⟩
  have hdrop : ∀ {v : Switching}, Has g P v → Has g P (v.dropOp g) := fun hv => hv
  unfold Switching.react
  split
  · exact h
  · dsimp only
    repeat' split
    all_goals first
      | exact h
      | exact has_stateOnly hP (stateOnly_step env g _) (has_refresh hP (hdrop hset))
      | exact has_stateOnly hP (stateOnly_step env g _) (hdrop h)

/-- A fact that the event's own change brings about and nothing after it undoes. -/
theorem has_event {P : Group → Prop} {env : SwEnv} (hP : Steady env P) {g : GroupId} {f : Switching → Switching} {w : Switching}
    {old : Group} (ho : w.groups[g] = some old) (h : Has g P (f w)) : Has g P (w.event env g f) := by
  unfold Switching.event
  rw [ho]
  exact has_react hP old (has_echoTest hP (has_refresh hP h))

/-- No stay request and no restore-wait timer (R55, R56). -/
theorem steady_noStay {env : SwEnv} : Steady env fun x => x.stay = none ∧ x.restoreTimer = none where
  forms := fun _ _ p => ⟨Group.form_noStay (by rw [Group.decode_stay]; exact p.1), Group.form_noTimer (by
    rw [Group.decode_restoreTimer]; exact p.2)⟩
  states := fun _ _ h p => ⟨h.stay.trans p.1, h.restoreTimer.trans p.2⟩
  drops := fun _ p => p
  ends := fun _ _ _ p => p

/-- No stay request, or this one with this timer (R56). -/
theorem steady_stay {env : SwEnv} (stay : Option Request) (timer : Option Nat) :
    Steady env fun x => x.stay = none ∨ (x.stay = stay ∧ x.restoreTimer = timer) where
  forms := fun sel x p => by
    obtain ⟨y, rfl | rfl, e⟩ := Group.form_cases env sel (x.decode env) <;> rw [e]
    · simpa using p
    · exact .inl rfl
  states := fun _ _ h p => by rw [h.stay, h.restoreTimer]; exact p
  drops := fun _ p => p
  ends := fun _ _ _ p => p

/-- A stay request that no other local request outranks (R56). -/
structure Stands (env : SwEnv) (st : Request) (timer : Option Nat) (x : Group) : Prop where
  stay : x.stay = some st
  timer : x.restoreTimer = timer
  decoded : (x.decode env).protocolMismatch = x.protocolMismatch
  locals : ∀ r ∈ x.locals env, r.outranks st = false

/-- What PROTOCOL-MISMATCH is decoded to (R69). -/
def mismatchIn (env : SwEnv) (cfg : GroupConfig) : Bool :=
  match cfg.ends, env.ports[cfg.prot].accProt, env.ports[cfg.prot].accFlags with
  | .dual, some pf, some fl => mismatchOf cfg pf fl
  | _, _, _ => false

theorem Group.decode_mismatch (env : SwEnv) (x : Group) : (x.decode env).protocolMismatch = mismatchIn env x.cfg := by
  unfold Group.decode mismatchIn
  dsimp only
  generalize x.cfg.ends = ends
  generalize env.ports[x.cfg.prot].accProt = prot
  generalize env.ports[x.cfg.prot].accFlags = flags
  cases ends <;> rcases prot with _ | pf <;> rcases flags with _ | fl <;> try rfl
  dsimp only
  split
  · next h => exact h.symm
  · next h => split <;> exact (Bool.eq_false_iff.2 h).symm

theorem Group.decode_mismatch_congr {env : SwEnv} {x y : Group} (h : y.cfg = x.cfg) :
    (y.decode env).protocolMismatch = (x.decode env).protocolMismatch := by
  rw [Group.decode_mismatch, Group.decode_mismatch, h]

/-- What local requests other than the external one are formed from. -/
theorem Group.conditions_congr {env : SwEnv} {x y : Group} (h : y.cfg = x.cfg) (hm : y.protocolMismatch = x.protocolMismatch) :
    y.conditions env = x.conditions env := by
  cases x
  cases y
  cases h
  cases hm
  rfl

theorem steady_stands {env : SwEnv} (st : Request) (timer : Option Nat) : Steady env (Stands env st timer) where
  forms := fun sel x p => by
    have hd := p.decoded
    have hl : (x.decode env).locals env = x.locals env := by
      unfold Group.locals
      rw [Group.decode_external, Group.conditions_congr (Group.decode_cfg env x) hd]
    have hk : (x.decode env).form env sel = { x.decode env with
        local_ := ((x.decode env).form env sel).local_, effective := ((x.decode env).form env sel).effective
        target := ((x.decode env).form env sel).target } := by
      unfold Group.form
      rw [Group.decode_stay, p.stay]
      dsimp only
      rw [hl, if_neg (by simpa using p.locals)]
    rw [hk]
    refine ⟨(Group.decode_stay env x).trans p.stay, (Group.decode_restoreTimer env x).trans p.timer, ?_, ?_⟩
    · exact Group.decode_mismatch_congr (Group.decode_cfg env x)
    · intro r hr
      exact p.locals r (by rw [← hl]; exact hr)
  states := fun x y h p => ⟨h.stay.trans p.stay, h.restoreTimer.trans p.timer,
    (Group.decode_mismatch_congr h.cfg).trans (p.decoded.trans h.mismatch.symm), by
      unfold Group.locals
      rw [h.external, Group.conditions_congr h.cfg h.mismatch]
      exact p.locals⟩
  drops := fun x p => ⟨p.stay, p.timer, by
    rw [Group.decode_mismatch]; exact (Group.decode_mismatch env x).symm.trans p.decoded, fun r hr =>
    p.locals r (List.mem_append_right _ hr)⟩
  ends := fun x res _ p => ⟨p.stay, p.timer, by
    rw [Group.decode_mismatch]; exact (Group.decode_mismatch env x).symm.trans p.decoded, fun r hr =>
    p.locals r (List.mem_append_right _ hr)⟩

/-- No external request, and this trial result and timer (R86, R88). -/
theorem steady_ended {env : SwEnv} (res : TrialResult) (timer : Option Nat) :
    Steady env fun x => x.external = none ∧ x.trialResult = res ∧ x.trialTimer = timer where
  forms := fun _ _ p => by simpa using p
  states := fun _ _ h p => ⟨h.external.trans p.1, h.trialResult.trans p.2.1, h.trialTimer.trans p.2.2⟩
  drops := fun x p => by simp [p.1, p.2.1, p.2.2]
  ends := fun x _ h p => by rw [p.1] at h; cases h

/-- No external request (R63, R88). -/
theorem steady_noExternal {env : SwEnv} : Steady env fun x => x.external = none where
  forms := fun _ _ p => by simpa using p
  states := fun _ _ h p => h.external.trans p
  drops := fun _ _ => rfl
  ends := fun _ _ _ _ => rfl

/-! ### The part without a master (R65) -/

/-- Group `g` has no external MANUAL or TRIAL. -/
def Calm (g : GroupId) (w : Switching) : Prop := ∀ grp, w.groups[g] = some grp → grp.hasTemporary = false

theorem calm_masterless (env : SwEnv) (g : GroupId) (w : Switching) : Calm g (w.masterless env g) := by
  unfold Switching.masterless
  split
  · next h => intro grp hg; rw [h] at hg; cases hg
  · next grp hg =>
    split
    · next ht =>
      have hx : Has g (fun x => x.external = none) (w.clearExternal env g) := by
        unfold Switching.clearExternal
        rw [hg]
        dsimp only
        cases he : grp.external with
        | none => unfold Group.hasTemporary at ht; rw [he] at ht; cases ht
        | some r =>
          dsimp only
          split
          · exact ⟨_, Switching.modGroup_some (Switching.setExternal_some hg), rfl⟩
          · exact ⟨_, Switching.setExternal_some hg, rfl⟩
      obtain ⟨y, hy, p⟩ := has_event steady_noExternal (env := env) hg hx
      intro z hz
      rw [hy] at hz
      cases hz
      unfold Group.hasTemporary
      rw [p]
      rfl
    · next ht => intro x hx; rw [hg] at hx; cases hx; simpa using ht

/-- After the part has become masterless no group has an external MANUAL or TRIAL (R65). -/
theorem masterless_calm (s : State) (g : GroupId) : Calm g (masterless s).sw := by
  unfold masterless groupsInTurn
  have key : ∀ (xs : List GroupId) (t : State), (g ∈ xs ∨ Calm g t.sw) →
      Calm g (xs.foldl (fun s g => inSwitch (fun env => Switching.masterless env g) s) t).sw := by
    intro xs
    induction xs with
    | nil => intro t h; exact h.resolve_left (by simp)
    | cons x xs ih =>
      intro t h
      refine ih _ ?_
      by_cases hx : g = x
      · subst hx; exact .inr (calm_masterless _ _ _)
      · rcases h with h | h
        · exact .inl ((List.mem_cons.mp h).resolve_left hx)
        · right
          intro grp hg
          rw [inSwitch_sw, (onlyGroup_masterless _ x t.sw).others g hx] at hg
          exact h grp hg
  refine key _ _ ?_
  rw [freeOrder_mem]
  by_cases h : g ∈ temporaryGroups s
  · exact .inl h
  · right
    intro grp hg
    unfold temporaryGroups at h
    simp only [List.mem_filter, List.mem_finRange, true_and] at h
    rw [show s.sw.groups[g] = some grp from hg] at h
    simpa using h

/-! ### The bus under the engine -/

/-- The bus, ACTUATOR-BUS and the settle-failure list stand as they were. -/
structure BusKept (w v : Switching) : Prop where
  bus : v.bus = w.bus
  busFreeAt : v.busFreeAt = w.busFreeAt
  busDefect : v.busDefect = w.busDefect
  settleFail : v.settleFail = w.settleFail

theorem BusKept.refl (w : Switching) : BusKept w w := ⟨rfl, rfl, rfl, rfl⟩

theorem BusKept.trans {u v w : Switching} (a : BusKept u v) (b : BusKept v w) : BusKept u w :=
  ⟨b.bus.trans a.bus, b.busFreeAt.trans a.busFreeAt, b.busDefect.trans a.busDefect, b.settleFail.trans a.settleFail⟩

theorem OnlyGroup.busKept {g : GroupId} {w v : Switching} (h : OnlyGroup g w v) : BusKept w v :=
  ⟨h.bus, h.busFreeAt, h.busDefect, h.settleFail⟩

theorem busKept_setKnown (env : SwEnv) (a : Nat) (pos : Option Nat) (w : Switching) : BusKept w (w.setKnown env a pos) := by
  unfold Switching.setKnown
  split
  · exact .refl w
  · dsimp only
    split
    · exact .trans (v := w.modElement a _) ⟨rfl, rfl, rfl, rfl⟩ (onlyGroup_selectorMoved env _ pos _).busKept
    · exact ⟨rfl, rfl, rfl, rfl⟩

theorem busKept_forget (env : SwEnv) (as : List Nat) (w : Switching) :
    BusKept w (as.foldl (fun w a => w.setKnown env a none) w) := by
  induction as generalizing w with
  | nil => exact .refl w
  | cons a as ih => exact (busKept_setKnown env a none w).trans (ih _)

theorem busKept_recover (env : SwEnv) (g : GroupId) (a : Nat) (w : Switching) : BusKept w (w.recover env g a) := by
  unfold Switching.recover
  split
  · exact (onlyGroup_enter env g _ w).busKept.trans (onlyGroup_place (g := g) _ rfl).busKept
  · exact (busKept_setKnown env a none w).trans (onlyGroup_stand env g _ _).busKept

/-- A failed operation puts its group on the settle-failure list and leaves the bus as it stands (R101, R107). -/
theorem busKept_failOp {env : SwEnv} {g : GroupId} {a : Nat} {w : Switching} {grp : Group} {op : Op} (hg : w.groups[g] = some grp)
    (ho : w.opOf g = some op) : BusKept { w with settleFail := addFailure g w.settleFail } (w.failOp env g a) := by
  have h0 : BusKept { w with settleFail := addFailure g w.settleFail } { w.dropOp g with settleFail := addFailure g w.settleFail } :=
    ⟨rfl, rfl, rfl, rfl⟩
  unfold Switching.failOp
  rw [hg, ho]
  dsimp only
  refine h0.trans ?_
  generalize ({ w.dropOp g with settleFail := addFailure g w.settleFail } : Switching) = v
  have hk := busKept_setKnown env a none v
  repeat' split
  all_goals first
    | exact busKept_forget env _ v
    | exact hk
    | exact (onlyGroup_trialOutcome env g _ _ v).busKept
    | exact .refl v
    | exact busKept_recover env g a v
    | exact (onlyGroup_stand env g _ v).busKept
    | exact hk.trans (onlyGroup_stand env g _ _).busKept

/-- What a failure leaves of the bus, whether or not its group still has an operation. -/
theorem failOp_bus (env : SwEnv) (g : GroupId) (a : Nat) (w : Switching) :
    (w.failOp env g a).bus = w.bus ∧ (w.failOp env g a).busFreeAt = w.busFreeAt ∧ (w.failOp env g a).busDefect = w.busDefect := by
  cases hg : w.groups[g] with
  | none => unfold Switching.failOp; rw [hg]; exact ⟨rfl, rfl, rfl⟩
  | some grp =>
    cases ho : w.opOf g with
    | none => unfold Switching.failOp; rw [hg, ho]; exact ⟨rfl, rfl, rfl⟩
    | some op => have h := busKept_failOp (env := env) (a := a) hg ho; exact ⟨h.bus, h.busFreeAt, h.busDefect⟩

theorem failOp_listed {env : SwEnv} {g : GroupId} {a : Nat} {w : Switching} {grp : Group} {op : Op} (hg : w.groups[g] = some grp)
    (ho : w.opOf g = some op) : g ∈ (w.failOp env g a).settleFail := by
  rw [(busKept_failOp hg ho).settleFail]
  show g ∈ addFailure g w.settleFail
  unfold addFailure
  split
  · assumption
  · simp

theorem succeed_bus (env : SwEnv) (g : GroupId) (w : Switching) :
    (w.succeed env g).bus = w.bus ∧ (w.succeed env g).busFreeAt = w.busFreeAt ∧ (w.succeed env g).busDefect = w.busDefect :=
  let h := (onlyGroup_succeed env g w).busKept
  ⟨h.bus, h.busFreeAt, h.busDefect⟩

theorem readOn_bus (env : SwEnv) (g : GroupId) (w : Switching) :
    (w.readOn env g).bus = w.bus ∧ (w.readOn env g).busFreeAt = w.busFreeAt ∧ (w.readOn env g).busDefect = w.busDefect := by
  unfold Switching.readOn
  repeat' split
  all_goals first
    | exact ⟨rfl, rfl, rfl⟩
    | exact succeed_bus env g w
    | exact failOp_bus env g _ w

theorem moveOn_bus (env : SwEnv) (g : GroupId) (a : Nat) (w : Switching) :
    (w.moveOn env g a).bus = w.bus ∧ (w.moveOn env g a).busFreeAt = w.busFreeAt ∧ (w.moveOn env g a).busDefect = w.busDefect := by
  unfold Switching.moveOn
  repeat' split
  all_goals first
    | exact ⟨rfl, rfl, rfl⟩
    | exact succeed_bus env g w

/-! ### The elements under the engine -/

/-- A known position set places and withdraws no operation (R90). -/
theorem Switching.setKnown_queue (env : SwEnv) (a : Nat) (pos : Option Nat) (w : Switching) :
    (w.setKnown env a pos).queue = w.queue := by
  have h : ∀ (g : GroupId) (v : Switching), (v.selectorMoved env g pos).queue = v.queue := fun g v => by
    unfold Switching.selectorMoved
    rw [Switching.refresh_queue]
    rfl
  unfold Switching.setKnown
  split
  · rfl
  · dsimp only
    split
    · rw [h]; rfl
    · rfl

theorem Switching.element_of_elements {w v : Switching} (h : v.elements = w.elements) (b : Nat) : v.element b = w.element b := by
  unfold Switching.element; rw [h]

/-- The element records under a change of every record that keeps the addresses. -/
theorem find_map_element {f : Element → Element} (h : ∀ x, (f x).address = x.address) (b : Nat) (els : List Element) :
    (els.map f).find? (fun x => decide (x.address = b)) = (els.find? fun x => decide (x.address = b)).map f := by
  rw [List.find?_map]
  congr 2
  funext x
  simp [h]

theorem Switching.element_modElement (a b : Nat) {f : Element → Element} (h : ∀ x, (f x).address = x.address) (w : Switching) :
    (w.modElement a f).element b = if b = a then (w.element b).map f else w.element b := by
  show ((w.elements.map fun x => if x.address = a then f x else x).find? fun x => decide (x.address = b)) = _
  rw [find_map_element (by intro x; split <;> simp [h]) b w.elements]
  unfold Switching.element
  cases hx : w.elements.find? (fun x => decide (x.address = b)) with
  | none => simp
  | some x =>
    have hxb : x.address = b := by simpa using List.find?_some hx
    simp only [Option.map_some, hxb]
    split <;> rfl

theorem Switching.element_rests (a b : Nat) (w : Switching) :
    (w.rests a).element b = if b = a then (w.element b).map (fun x => { x with moving := none }) else w.element b :=
  Switching.element_modElement a b (f := fun x => { x with moving := none }) (fun _ => rfl) w

/-- What a known position set leaves of each element record (R90). -/
theorem Switching.element_setKnown (env : SwEnv) (a b : Nat) (pos : Option Nat) (w : Switching) :
    (w.setKnown env a pos).element b =
      if b = a then (w.element b).map (fun x => { x with known := pos, lastSettled := if pos.isSome then pos else x.lastSettled })
      else w.element b := by
  have hm := Switching.element_modElement a b
    (f := fun x => { x with known := pos, lastSettled := if pos.isSome then pos else x.lastSettled }) (fun _ => rfl) w
  unfold Switching.setKnown
  split
  · next h =>
    split
    · next e => subst e; rw [h]; rfl
    · rfl
  · dsimp only
    split
    · rw [← hm]
      exact Switching.element_of_elements (onlyGroup_selectorMoved _ _ _ _).elements b
    · exact hm

theorem Switching.element_forget (env : SwEnv) (as : List Nat) (b : Nat) (w : Switching) :
    (as.foldl (fun w a => w.setKnown env a none) w).element b =
      if b ∈ as then (w.element b).map (fun x => { x with known := none }) else w.element b := by
  induction as generalizing w with
  | nil => rfl
  | cons a as ih =>
    rw [List.foldl_cons, ih, Switching.element_setKnown]
    by_cases h1 : b = a <;> by_cases h2 : b ∈ as <;> simp [h1, h2, Option.map_map]
    all_goals (try subst h1)
    all_goals simp_all [Function.comp_def]

/-- A failed operation leaves of each element record all but its known position (R101). -/
theorem failOp_element (env : SwEnv) (g : GroupId) (a b : Nat) (w : Switching) :
    (w.failOp env g a).element b = w.element b
      ∨ (w.failOp env g a).element b = (w.element b).map fun x => { x with known := none } := by
  have hk : ∀ v : Switching, v.elements = w.elements →
      (v.setKnown env a none).element b = w.element b
        ∨ (v.setKnown env a none).element b = (w.element b).map fun x => { x with known := none } := by
    intro v hv
    rw [Switching.element_setKnown, Switching.element_of_elements hv]
    split
    · exact .inr rfl
    · exact .inl rfl
  have hs : ∀ (st : GroupState) (v : Switching), v.elements = w.elements →
      ((v.setKnown env a none).stand env g st).element b = w.element b
        ∨ ((v.setKnown env a none).stand env g st).element b = (w.element b).map fun x => { x with known := none } := by
    intro st v hv
    rw [Switching.element_of_elements (onlyGroup_stand env g st _).elements]
    exact hk v hv
  unfold Switching.failOp
  dsimp only
  split
  · split
    · split
      · rw [Switching.element_forget]
        split
        · exact .inr rfl
        · exact .inl rfl
      · exact hk _ rfl
    · split
      · split
        · exact .inl (Switching.element_of_elements (onlyGroup_trialOutcome env g _ _ _).elements b)
        · exact .inl rfl
      · unfold Switching.recover
        split
        · exact .inl (Switching.element_of_elements (by
            exact (onlyGroup_place (g := g) _ rfl).elements.trans (onlyGroup_enter env g _ _).elements) b)
        · exact hs _ _ rfl
      · exact .inl (Switching.element_of_elements (onlyGroup_stand env g _ _).elements b)
      · exact hs _ _ rfl
      · exact hs _ _ rfl
      · exact hk _ rfl
  · exact .inl rfl

/-- A read of an adoption or a trial that fails leaves the elements it did not find unread as they stand (R93, R101). -/
theorem failOp_read_element (env : SwEnv) (g : GroupId) (a b : Nat) (w : Switching)
    (h : ∀ op, w.opOf g = some op → (op.cls = .adopt ∨ op.cls = .protection) ∧ b ∉ op.unread ∧ ∃ x y, op.kind = .read x y) :
    (w.failOp env g a).element b = w.element b := by
  unfold Switching.failOp
  dsimp only
  split
  · next grp op hg ho =>
    obtain ⟨hc, hu, x, y, hk⟩ := h op ho
    rw [hk]
    dsimp only
    split
    · rw [Switching.element_forget, if_neg hu]; rfl
    · rcases hc with hc | hc <;> rw [hc] <;> dsimp only
      · exact Switching.element_of_elements (onlyGroup_stand env g _ _).elements b
      · split
        · exact Switching.element_of_elements (onlyGroup_trialOutcome env g _ _ _).elements b
        · rfl
  · rfl

/-- What the next read of an adoption or a trial leaves of an element it did not find unread (R93). -/
theorem readOn_element (env : SwEnv) (g : GroupId) (b : Nat) (w : Switching)
    (h : ∀ op, w.opOf g = some op → (op.cls = .adopt ∨ op.cls = .protection) ∧ b ∉ op.unread) :
    (w.readOn env g).element b = w.element b := by
  unfold Switching.readOn
  split
  · rfl
  · next op ho =>
    split
    · rfl
    · next s _ hk _ =>
      split
      · exact Switching.element_of_elements (onlyGroup_succeed env g w).elements b
      · refine failOp_read_element env g s b w fun o hop => ?_
        rw [ho] at hop
        cases hop
        exact ⟨(h op ho).1, (h op ho).2, _, _, hk⟩
    · rfl

end Sys2Proof.Machine
end

