-- ==== Sys2Proof/WellFormed.lean ====
section
/-! DEFINITION. Which commands a sender can send: a request frame holds at most 251 payload bytes (section 9.2); a row that stands for
one kind or action of a request carries that byte (R61, R104, R124); an event carries what its rule says it carries. -/

namespace Sys2Proof

open Machine

/-- A request's payload fits a frame (section 9.2). -/
def payloadFits (payload : List Byte) : Bool := decide (payload.length ≤ 251)

/-- The payload of a row that stands for one value of byte `i`. -/
def payloadHas (i : Nat) (value : Byte) (payload : List Byte) : Bool :=
  payloadFits payload && decide (payload[i]? = some value)

/-- A driver address (section 10.5). -/
def addressFits (a : Nat) : Bool := decide (1 ≤ a) && decide (a ≤ 62)

/-- A run of `n` characters has a time between each of them and the next (R187). -/
def runFits (n : Nat) (run : AnswerRun) : Bool := decide (run.gaps.length + 1 = n)

/-- The samples hold at least those of one character (R11, R166). -/
def holdsCharacter (samples : List Bool) : Bool := decide (characterLength ≤ samples.length)

/-- The commands a sender can send. -/
def WellFormed (i : Instr) : Bool :=
  match i with
  | .setPort _ _ p | .getPort _ _ p | .portStatus _ _ p | .setShelfId _ _ p | .setRange _ _ p | .getRanges _ _ p
  | .setGroup _ _ p | .deleteGroup _ _ p | .getGroup _ _ p | .groupStatus _ _ p | .maintMove _ _ p | .clearHalt _ _ p
  | .settle _ _ p | .setRef _ _ p | .getRef _ _ p | .setTiming _ _ p | .timingStatus _ _ p | .setProfile _ _ p
  | .getProfile _ _ p | .readAlarms _ _ p | .aco _ _ p | .setNotices _ _ p | .claim _ _ p | .release _ _ p | .keepalive _ _ p
  | .setLinkWatch _ _ p | .restart _ _ p | .identify _ _ p | .cableTest _ _ p => payloadFits p
  | .protRequestBar _ _ p => payloadHas 1 14 p
  | .protRequestForce _ _ p => payloadHas 1 12 p
  | .protRequestManual _ _ p => payloadHas 1 6 p
  | .protRequestTrial _ _ p => payloadHas 1 3 p
  | .protRequestClear _ _ p => payloadHas 1 0 p
  | .setMaintEnter _ _ p => payloadHas 1 1 p
  | .setMaintLeave _ _ p => payloadHas 1 0 p
  | .forceRef _ _ p => payloadHas 0 0 p
  | .clearForce _ _ p => payloadHas 0 1 p
  | .lockout _ _ p => payloadHas 0 2 p
  | .unlock _ _ p => payloadHas 0 3 p
  | .requestBadKind _ _ kind p => payloadFits p && decide (kind ∉ requestKinds)
  | .pollDue a => addressFits a
  | .moveTimeout a => addressFits a
  | .measurementEnd _ count => decide (count ≤ 20002000)
  | .frameCrcError _ samples | .frameBadLen _ samples => holdsCharacter samples
  | .frameFramingError pin => holdsCharacter pin.samples
  | .pilotCharacterTaken _ _ samples => decide (samples.length = characterLength)
  | .linkBreak pin => decide (pin.samples.getLast? = some true)
  | .frameGapTimeout pin => decide (1 ≤ pin.samples.length)
  | .truncatedMessage pin => decide (1 ≤ pin.samples.length)
  | .cableTestPass bits => decide (1 ≤ bits.length)
  | .cableTestFail bits => decide (1 ≤ bits.length)
  | .cableTestMarker _ start => decide (start.length = 5)
  | .answerPosition run _ _ _ _ => runFits 6 run
  | .answerRefused run _ _ => runFits 4 run
  | .answerSettled run _ _ => runFits 4 run
  | .answerAccepted run _ => runFits 3 run
  | .answerSingleOnly run _ => runFits 3 run
  | .answerMoving run _ => runFits 3 run
  | .fullReset _ | .pilotMessage _ _ _ | .lossTimerExpiry _ | .pilotTransmit _ | .secondsTick
  | .conversionEnd _ | .holdOffExpiry _ | .restoreWaitExpiry _ | .awaitFarTimeout _ | .trialTimerExpiry _ | .settleReply
  | .busTransactionStart | .commandRepeat | .answerTimeout | .referenceEdge _
  | .edgeTimerExpiry _ | .measurementEarlyEnd _ | .soakTimerExpiry _ | .acquireTimerExpiry | .holdoverTimerExpiry
  | .steerFrameStart | .declareSoakExpiry _ | .clearSoakExpiry _ | .acoPress _ _ | .noticeSend | .replySend _
  | .periodTimerExpiry | .restartTakesEffect _ | .cableTestLead | .cableTestMarkerSent
  | .cableTestSequenceEnd | .noPath => true

end Sys2Proof
end

