-- ==== Sys2Proof/Tests/Slice0.lean ====
section
/-! SUPPORT. The model's own tests: the check of commands on ill-formed ones, the worked examples of the spec, and for each
obligation with hypotheses a state and operands that meet them, clause by clause, at the edges of their ranges. -/

namespace Sys2Proof.Tests

open Machine

/- One theorem after another: the kernel evaluates each test, and many at once would need many threads. -/
set_option Elab.async false

/-! ### WellFormed refuses what a sender cannot send -/

theorem test_payload_too_long : WellFormed (.getRanges .a 0 (List.replicate 252 0)) = false
    ∧ WellFormed (.getRanges .a 0 (List.replicate 251 0)) = true := by decide +kernel

theorem test_kind_rows_want_their_byte :
    ([.protRequestBar .a 0 [0, 12, 0], .protRequestForce .a 0 [0, 14, 1], .protRequestManual .a 0 [0, 3, 1],
      .protRequestTrial .a 0 [0, 6, 1], .protRequestClear .a 0 [0, 1, 0], .setMaintEnter .a 0 [0, 0], .setMaintLeave .a 0 [0, 1],
      .forceRef .a 0 [1, 0], .clearForce .a 0 [0, 0], .lockout .a 0 [3, 0], .unlock .a 0 [2, 0]] : List Instr).map WellFormed
      = List.replicate 11 false := by decide +kernel

theorem test_bad_kind_names_no_request :
    WellFormed (.requestBadKind .a 0 0x49 []) = false ∧ WellFormed (.requestBadKind .a 0 0x4A []) = true := by decide +kernel

theorem test_driver_addresses : [0, 1, 62, 63].map (fun a => WellFormed (.pollDue a) && WellFormed (.moveTimeout a))
    = [false, true, true, false] := by decide +kernel

theorem test_measurement_count_ends : WellFormed (.measurementEnd 0 20002001) = false
    ∧ WellFormed (.measurementEnd 0 20002000) = true := by decide +kernel

theorem test_rows_want_their_samples :
    (let rows := fun n : Nat => [Instr.pilotCharacterTaken 0 [true] (List.replicate n true), .frameCrcError .a (List.replicate n true),
       .frameFramingError ⟨.a, List.replicate n true⟩, .frameBadLen .a (List.replicate n true)].map WellFormed
     rows 115 = [false, false, false, false] ∧ rows 116 = [true, true, true, true])
    ∧ ([.truncatedMessage ⟨0, []⟩, .frameGapTimeout ⟨.a, []⟩, .linkBreak ⟨.a, []⟩, .linkBreak ⟨.a, [true, false]⟩,
        .cableTestMarker [] (List.replicate 4 true), .cableTestPass [], .cableTestFail []] : List Instr).map WellFormed
      = List.replicate 7 false
    ∧ ([.truncatedMessage ⟨0, [true]⟩, .frameGapTimeout ⟨.a, [true]⟩, .linkBreak ⟨.a, [false, true]⟩, .cableTestMarker [] (List.replicate 5 true),
        .cableTestPass [0], .cableTestFail [0]] : List Instr).map WellFormed = List.replicate 6 true := by decide +kernel

/-- An answer of six, four or three characters has one gap fewer. -/
theorem test_answers_want_their_gaps :
    (let rows := fun n : Nat => let run : AnswerRun := ⟨0, List.replicate n 0, false⟩
       [Instr.answerPosition run 0 0 0 0, .answerRefused run 0 0, .answerSettled run 0 0, .answerAccepted run 0,
        .answerSingleOnly run 0, .answerMoving run 0].map WellFormed
     [2, 3, 4, 5, 6].map rows
       = [[false, false, false, true, true, true], [false, true, true, false, false, false], [false, false, false, false, false, false],
          [true, false, false, false, false, false], [false, false, false, false, false, false]]) := by decide +kernel

/-- No row of the table has bits. -/
theorem test_no_word_is_a_command : decodeTableWord 8 0x10 = none := by decide

/-! ### Worked examples of the spec -/

/-- R22: the sequence starts 0, 0, 0, 0, 0, 0, 1, 0 and repeats after 127 bits. -/
theorem test_sequence_of_r22 :
    (List.range 8).map (sequenceBit 0x7F) = [false, false, false, false, false, false, true, false]
    ∧ sequenceAdvance 127 0x7F = 0x7F := by decide +kernel

/-- R169: the CRC of the characters 1 to 9. -/
theorem test_crc_check_value : crc16 [0x31, 0x32, 0x33, 0x34, 0x35, 0x36, 0x37, 0x38, 0x39] = 0x29B1 := by decide +kernel

/-- R28: the full-scale code of the reset port record. -/
theorem test_power_of_full_scale : (Port.disabled .reset).powerOf 4095 = 119 := by decide +kernel

/-- R28: two more codes, each by hand from its own intercept and slope. -/
theorem test_power_of_codes :
    (Port.disabled { PortRecord.reset with icpt := -5288, slope := 352 }).powerOf 2900 = -1300
    ∧ (Port.disabled { PortRecord.reset with icpt := -4200, slope := 300 }).powerOf 1480 = -2466 := by decide +kernel

/-- R29: Ps goes one eighth of the way, rounded half away from zero. -/
theorem test_smoothing_steps : (-2390 : Int) + roundedDiv (-2466 - -2390) 8 = -2400
    ∧ (-2400 : Int) + roundedDiv (-2466 - -2400) 8 = -2408 := by decide +kernel

/-- R119: samples, and their clamp with the out-of-range mark. -/
theorem test_samples : [19999917, 19998000, 20002000, 19997999, 20002001].map sampleOf
    = [⟨4150, false⟩, ⟨100000, false⟩, ⟨-100000, false⟩, ⟨100000, true⟩, ⟨-100000, true⟩] := by decide +kernel

/-- R120: the averages of the spec's two sums. -/
theorem test_averages : roundedDiv 66450 16 = 4153 ∧ roundedDiv (-66600) 16 = -4163 := by decide +kernel

/-- R129, R188: the word in the three bytes of a steering frame. -/
theorem test_steering_bytes : beS24 (-100000) = [0xFE, 0x79, 0x60] ∧ beS24 4153 = [0x00, 0x10, 0x39] := by decide +kernel

/-- R135: point numbers. -/
theorem test_point_numbers : (portPoint 3 5).val = 101 ∧ (groupPoint 0 2).val = 226 ∧ (refPoint 0 3).val = 299
    ∧ placeOfPoint 317 = .shelf ∧ DefectKind.ofIndex (kindOfPoint 317) = .shelfFail := by decide +kernel

/-- R50: 1, 5, 9, 11 and 15 name no request kind. -/
theorem test_unnamed_kinds : (List.range 16).filter (fun c => (ReqKind.ofCode c).isNone) = [1, 5, 9, 11, 15] := by decide +kernel

/-- R183: clamps of SET-PORT and SET-TIMING. -/
theorem test_clamps : clampPower 2000 = 1500 ∧ clampNat 1000 100000 200000 = 100000 ∧ clampHoldOff 10099 = 10000
    ∧ clampSoak 2599 = 2500 ∧ Severity.ofCode 5 = none := by decide +kernel

/-- R153: the contacts after full reset. -/
theorem test_reset_contacts : State.reset.alarms.contacts = ⟨true, true, true, true, false, false⟩ := by decide +kernel

/-! ### States for the witnesses -/

/-- A link whose receiver awaits a frame after a break. -/
def awaiting (k : Link) : Link := { k with rx := ⟨.awaitLen, [], .search 1, 0, 0⟩ }

/-- Link A is the master, granted at 1000 µs, and a break has come on both links; nothing else has happened since a full reset. -/
def base : State :=
  let s := State.afterReset 3 1000 0 0 []
  { s with
    alarms := { s.alarms with active := [316, 317] }
    notices := { s.notices with queue := [] }
    links := { s.links with
      linkA := { awaiting .reset with role := .master }, linkB := awaiting .reset
      periodTimer := some ⟨1001000, 1000000⟩, earlyStart := 1000, challenge := some 0x5A, draws := 1, everGranted := true, shf := false } }

/-- A full reset's port record, enabled. -/
def onCfg : PortRecord := { PortRecord.reset with enabled := true }

/-- A port in pilot service since time 0. -/
def live : Port := .startService 0 onCfg

/-- Ports 5 (as given), 6 and 7 in pilot service. -/
def lit (p5 : Port) : State := { base with ports := ((base.ports.set 5 p5).set 6 live).set 7 live }

def cfg1 (ends : Ends) : GroupConfig := ⟨.onePlusOne, ends, 5, [6], false, 0, 300, 10, none⟩

def cfgN : GroupConfig := ⟨.oneForN, .dual, 5, [6, 7], true, 0, 300, 10, some 11⟩

/-- Group 0 of this record, with its elements at known positions. -/
def ganged (grp : Group) (sel br : Nat) : State :=
  { lit live with sw := { Switching.reset with
      groups := Switching.reset.groups.set 0 (some grp)
      elements := { Element.new grp.cfg.selector .selector 0 with known := some sel, lastSettled := some sel }
        :: (grp.cfg.bridge.map fun b => { Element.new b .bridge 0 with known := some br, lastSettled := some br }).toList } }

/-- A state with this move queue. -/
def queued (ops : List Op) (s : State) : State := { s with sw := { s.sw with queue := ops } }

/-- A state in which the arbiter has chosen this. -/
def chose (c : Choice) (s : State) : State := { s with sw := { s.sw with chosen := some c } }

/-- A state with this transaction on the bus. -/
def onBus (t : Transaction) (s : State) : State := { s with sw := { s.sw with bus := some t } }

/-- A transaction whose answer is awaited until 3000 µs. -/
def asked (cmd : BusCmd) : Transaction := ⟨cmd, 0, .awaiting 3000, false, false, true⟩

/-- A state in which element 10 of group 0 moves. -/
def moving (poll : PollState) (s : State) : State :=
  { s with sw := s.sw.modElement 10 fun el => { el with moving := some ⟨900, poll⟩ } }

/-- A running cable test from port 6 to port 7 for link A. -/
def testing (out : OutPhase) (inn : InPhase) (compared : Nat) : State :=
  let s := lit live
  { s with
    ports := upd (upd s.ports 6 fun p => { p with tx := { p.tx with phase := .test } }) 7 fun p => { p with lossTimer := none }
    ranges := s.ranges.set 0 ⟨true, .test, 6, 7⟩
    cableTest := some ⟨6, 7, 64, false, .a, out, inn, compared, 1000, 3000, 0x7F, 0x7F⟩
    links := s.links.modLink .a fun k => { k with outstanding := some ⟨9, 0x16, false⟩ } }

/-- Reference r in this record. -/
def referred (r : RefId) (x : Ref) (s : State) : State := { s with timing := { s.timing with refs := s.timing.refs.set r x } }

theorem base_ready : MasterReady .a base ∧ FreeLink .b base := ⟨⟨⟨rfl, rfl⟩, rfl⟩, rfl, rfl⟩

theorem ready_of {s : State} (h : s.links = base.links) : MasterReady .a s ∧ FreeLink .b s := by
  refine ⟨⟨⟨?_, ?_⟩, ?_⟩, ?_, ?_⟩ <;> rw [h] <;> rfl

theorem lit_ready (p : Port) : MasterReady .a (lit p) ∧ FreeLink .b (lit p) := ready_of rfl

theorem ganged_ready (grp : Group) (sel br : Nat) : MasterReady .a (ganged grp sel br) ∧ FreeLink .b (ganged grp sel br) := ready_of rfl

/-! ### Witnesses: the block as a machine, requests in general -/

theorem witness_StepRunsFrontCommand : (State.afterReset 0 0 0 0 [.secondsTick, .noPath]).pending = [.secondsTick, .noPath] := rfl

theorem witness_IdleStepAdvancesClock : State.reset.pending = [] := rfl

theorem witness_RequestChecksComeInOrder :
    ((State.reset.links.link .a).rx.state ≠ .awaitLen ∧ (takenRequest (.identify .a 7 [])).isSome
      ∧ ((testing .done .compare 0).links.link .a).rx.state = .awaitLen ∧ ((testing .done .compare 0).links.link .a).outstanding.isSome)
    ∧ ((takenRequest (.getPort .b 7 [1, 2])).map (·.fits) = some false)
    ∧ ((takenRequest (.settle .b 7 [1])).map (·.fits) = some false)
    ∧ ((takenRequest (.setGroup .b 7 (List.replicate 12 0 ++ [0]))).map (·.fits) = some false)
    ∧ ((takenRequest (.setPort .b 7 (List.replicate 24 0))).map (fun q => (q.fits, q.masterOnly)) = some (true, true)
        ∧ (base.links.link .b).role ≠ .master)
    ∧ (FreeLink .b base ∧ (0x00 : Byte) ∉ requestKinds ∧ (0x7F : Byte) ∉ requestKinds ∧ (0x80 : Byte) ∉ requestKinds
        ∧ (0xFF : Byte) ∉ requestKinds) := by
  refine ⟨?_, ?_, ?_, ?_, ?_, base_ready.2, ?_⟩ <;> decide +kernel

/-- R184: sections 10.2 and 10.3 by hand: PORT-STATUS of a port in service, and the READ-ALARMS entry of SHELF-FAIL after full reset. -/
theorem test_status_bytes :
    portStatusBytes (lit { live with ps := some (-2390), accTrace := some ⟨1, 2, 3⟩, buckets := 300 :: List.replicate 9 0 }) 5
      = [1, 0, 0, 0, 0, 1, 0xF6, 0xAA, 1, 1, 2, 3, 0, 0, 0, 0, 0, 0xFF, 0xFF, 0, 0, 0, 0, 0, 0, 0x01, 0x2C, 0, 0, 0, 0, 0]
    ∧ alarmEntry base.alarms 317 = [0x01, 0x3D, 4, 2, 0, 19] := by decide +kernel

theorem witness_ReadsReplyAndChangeNothing :
    FreeLink .b (ganged (.new (cfg1 .dual)) 0 0) ∧ (ganged (.new (cfg1 .dual)) 0 0).sw.groups[(1 : GroupId)] = none
    ∧ (ganged (.new (cfg1 .dual)) 0 0).sw.groups[(0 : GroupId)] = some (.new (cfg1 .dual))
    ∧ u16 1 62 = 318 ∧ u16 1 63 = 319 ∧ 32 ≤ (32 : Byte).toNat ∧ 12 ≤ (12 : Byte).toNat ∧ 6 ≤ (6 : Byte).toNat
    ∧ 21 ≤ (21 : Byte).toNat := by
  refine ⟨(ganged_ready _ 0 0).2, ?_⟩; decide +kernel

/-- A group of each kind, its members 0 and 1, and the timing states whose items are sent. -/
theorem witness_ReadsReplyAndChangeNothing_items :
    cfgN.members[1]? = some 6 ∧ (cfg1 .dual).ends = .dual ∧ cfgN.members[0]? = some 5
    ∧ { base.timing with state := .holdover }.state = .holdover ∧ { base.timing with state := .acquiring }.state = .acquiring
    ∧ base.timing.state = .freeRun ∧ 2 ≤ (5 : RefId).val := by decide

/-! ### Witnesses: cable ports, ranges, pilot, cable test -/

theorem witness_ShelfIdStoresClampedSlot :
    (MasterReady .a base ∧ (63 : Byte).toNat ≤ 63 ∧ ¬ (64 : Byte).toNat ≤ 63)
    ∧ (FreeLink .b base ∧ (base.links.link .b).role ≠ .master)
    ∧ (lit live).ports[(5 : PortId)].tx.phase = .leadIn
    ∧ (lit { live with tx := ⟨.message, 1000, 13500, []⟩ }).ports[(5 : PortId)].tx.phase = .message := by
  refine ⟨⟨base_ready.1, ?_⟩, ⟨base_ready.2, ?_⟩, ?_⟩ <;> decide +kernel

/-- R7, R20: a message carries the shelf and slot as stored when it is started. -/
theorem test_message_carries_shelf_and_slot :
    (match exec (.pilotTransmit 5) { lit live with shelf := 0x9C, slot := 63 } with
     | .next t => t.ports[(5 : PortId)].tx.bytes.take 3
     | _ => []) = [0xA6, 0x9C, 63] := by decide +kernel

/-- A SET-PORT payload on port 5: enabled or not, no expected trace, the fields of the reset record. -/
def portPayload (enabled : Byte) : List Byte :=
  [5, enabled, 0, 0, 0, 0, 3, 0, 0xEC, 0x78, 1, 0x40, 0xF2, 0x54, 0xF5, 0x10, 0xFE, 0xD4, 0, 100, 0, 0, 0, 40]

theorem witness_SetPortStartsService :
    MasterReady .a base ∧ (portPayload 1).length = 24 ∧ setPortArgs (portPayload 1) = some (5, onCfg) ∧ onCfg.enabled = true
    ∧ base.ports[(5 : PortId)].cfg.enabled = false ∧ base.conversion = none := by
  refine ⟨base_ready.1, ?_⟩; decide +kernel

theorem witness_SetPortEndsService :
    MasterReady .a (lit live) ∧ setPortArgs (portPayload 0) = some (5, .reset) ∧ (lit live).ports[(5 : PortId)].cfg.enabled = true
    ∧ memberOf (lit live).sw.groups 5 = none
    ∧ (∃ t : CableTest, (testing .done .compare 0).cableTest = some t ∧ t.inPort = 7) := by
  refine ⟨(lit_ready live).1, ?_, ?_, ?_, _, rfl, ?_⟩ <;> decide +kernel

theorem witness_SetPortKeepsService :
    MasterReady .a (lit live) ∧ setPortArgs (portPayload 1) = some (5, onCfg) ∧ onCfg.enabled = true
    ∧ (lit live).ports[(5 : PortId)].cfg.enabled = true := by
  refine ⟨(lit_ready live).1, ?_⟩; decide +kernel

theorem witness_SetPortStoresRecordOrRefuses :
    (MasterReady .a base ∧ (portPayload 0).length = 24 ∧ setPortArgs (portPayload 0) = some (5, .reset)
      ∧ base.ports[(5 : PortId)].cfg.enabled = false ∧ memberOf base.sw.groups 5 = none)
    ∧ setPortArgs (portPayload 2) = none
    ∧ (MasterReady .a (ganged (.new (cfg1 .dual)) 0 0) ∧ memberOf (ganged (.new (cfg1 .dual)) 0 0).sw.groups 5 ≠ none) := by
  refine ⟨⟨base_ready.1, ?_⟩, ?_, (ganged_ready _ 0 0).1, ?_⟩ <;> decide +kernel

theorem witness_SetRangeReplacesEntry :
    (MasterReady .a (ganged (.new (cfg1 .single)) 0 0) ∧ (5 : PortId) ≤ 5
      ∧ (0 : GroupId) ∈ rangedGroups base.ranges (base.ranges.set 3 ⟨true, .test, 5, 5⟩) (ganged (.new (cfg1 .single)) 0 0).sw.groups
      ∧ (1 : GroupId) ∉ rangedGroups base.ranges (base.ranges.set 3 ⟨true, .test, 5, 5⟩) (ganged (.new (cfg1 .single)) 0 0).sw.groups)
    ∧ (testing .done .compare 0).ranges[(0 : Fin 4)] = ⟨true, .test, 6, 7⟩
    ∧ (testBroken (testing .done .compare 0) = false ∧ testBroken { testing .done .compare 0 with ranges := base.ranges } = true
        ∧ testBroken { testing .done .compare 0 with ports := base.ports } = true)
    ∧ (([[4, 1, 1, 5, 5], [3, 2, 1, 5, 5], [3, 1, 2, 5, 5], [3, 1, 1, 32, 32], [3, 1, 1, 31, 32], [3, 1, 1, 6, 5]] : List (List Byte)).all
        fun b => decide (b.length = 5 ∧ (4 ≤ (byteAt b 0).toNat ∨ 1 < (byteAt b 1).toNat ∨ 1 < (byteAt b 2).toNat
          ∨ 32 ≤ (byteAt b 3).toNat ∨ 32 ≤ (byteAt b 4).toNat ∨ (byteAt b 4).toNat < (byteAt b 3).toNat))) = true := by
  refine ⟨⟨(ganged_ready _ 0 0).1, ?_⟩, ?_⟩ <;> decide +kernel

/-- Bytes 1 to 8 of a message whose nine bytes sum to 0. -/
def goodBody : Vector Byte 8 := #v[0x12, 0x04, 0x05, 0x00, 0x0C, 0x00, 0x00, 0x33]

theorem witness_PilotMessageJudged :
    listening (lit live) 5 = true ∧ byteSum (0xA6 :: goodBody.toList) = 0 ∧ byteSum (0xA6 :: (goodBody.set 7 0).toList) ≠ 0 := by
  decide +kernel

/-- Samples of a character: start bit 0, eight data bits, least significant bit first, of twelve samples each, and eight of the stop
bit. -/
def samplesOf (byte : Nat) (stop : Bool) : List Bool :=
  List.replicate 12 false ++ (List.range 8).flatMap (fun k => List.replicate 12 (byte.testBit k)) ++ List.replicate 8 stop

theorem witness_PilotCharacterInHunt :
    (listening (lit live) 5 = true ∧ (lit live).ports[(5 : PortId)].asm = .hunt
      ∧ (lit live).ports[(5 : PortId)].rx.chars = .search 0 ∧ (lit live).ports[(5 : PortId)].buckets ≠ [])
    ∧ startVerified [false, true, false, true, true] = false
    ∧ ((samplesOf 0xA6 true).length = 116 ∧ sampleAt (samplesOf 0xA6 true) 1 = false ∧ startVerified (samplesOf 0xA6 true) = true)
    ∧ ((samplesOf 0xA6 false).length = 116 ∧ sampleAt (samplesOf 0xA6 false) 1 = false ∧ startVerified (samplesOf 0xA6 false) = true)
    ∧ (characterFraming (samplesOf 0xA6 true) = false ∧ characterByte (samplesOf 0xA6 true) = 0xA6)
    ∧ characterFraming (samplesOf 0xA6 false) = true ∧ characterByte (samplesOf 0xA7 true) ≠ 0xA6 := by
  decide +kernel

/-- A port that holds the first n characters of a message with `goodBody`. -/
def assembling (n : Nat) : Port :=
  { live with asm := .assembling ((((0xA6 : Byte) :: goodBody.toList).take n).map fun b => ⟨b, false, false, 96⟩) 40 }

theorem witness_PilotCharacterInMessage :
    (listening (lit (assembling 8)) 5 = true ∧ (lit (assembling 8)).ports[(5 : PortId)].asm = (assembling 8).asm
      ∧ ∃ chars : List RxChar, (assembling 8).asm = .assembling chars 40 ∧ chars.length = 8
        ∧ (let msg := chars ++ [(⟨0x33, false, false, 3⟩ : RxChar)]
           byteSum (0xA6 :: (bodyOf msg).toList) = 0 ∧ msg.any (·.noise) = false))
    ∧ (assembling 8).rx.chars = .search 0 ∧ (assembling 8).buckets ≠ []
    ∧ (∃ chars : List RxChar, (assembling 8).asm = .assembling chars 40
        ∧ byteSum (0xA6 :: (bodyOf (chars ++ [(⟨0x34, false, false, 3⟩ : RxChar)])).toList) ≠ 0)
    ∧ (∃ chars : List RxChar, (assembling 7).asm = .assembling chars 40 ∧ chars.length + 1 ≠ 9)
    ∧ startVerified [false, true, false, true, true] = false
    ∧ ((samplesOf 0x33 true).length = 116 ∧ sampleAt (samplesOf 0x33 true) 1 = false ∧ startVerified (samplesOf 0x33 true) = true
        ∧ characterFraming (samplesOf 0x33 true) = false
        ∧ characterByte (samplesOf 0x33 true) = 0x33 ∧ characterNoise (samplesOf 0x33 true) = false)
    ∧ characterFraming (samplesOf 0x33 false) = true := by
  refine ⟨⟨?_, ?_, _, rfl, ?_⟩, ?_, ?_, ⟨_, rfl, ?_⟩, ⟨_, rfl, ?_⟩, ?_⟩ <;> decide +kernel

theorem witness_LossTimerExpiryRaisesPilotLoss : (lit live).ports[(5 : PortId)].lossTimer = some 40000 := by decide +kernel

theorem witness_PilotTransmitBuildsMessage :
    ((lit live).ports[(5 : PortId)].tx.phase = .leadIn ∧ base.ports[(5 : PortId)].tx.phase = .off)
    ∧ (let s := ganged (.new (cfg1 .single)) 0 0
       memberOf s.sw.groups 5 = some (0, 0) ∧ s.sw.groups[(0 : GroupId)].map (·.cfg.ends) = some .single)
    ∧ (let s := ganged { Group.new (cfg1 .dual) with state := .maint } 0 0
       memberOf s.sw.groups 5 = some (0, 0) ∧ s.sw.groups[(0 : GroupId)].map (·.cfg.type) = some .onePlusOne)
    ∧ (let s := queued [{ Op.new .protection (.move 11 1) 0 with inFlight := true }] (ganged (.new cfgN) 0 0)
       memberOf s.sw.groups 5 = some (0, 0) ∧ (s.sw.opOf 0).map (fun op => (op.inFlight, op.kind)) = some (true, .move 11 1)) := by
  decide +kernel

theorem witness_CableTestBegins :
    (let s := { lit live with ranges := base.ranges.set 0 ⟨true, .test, 6, 7⟩ }
     MasterReady .a s ∧ cableTestArgs [6, 7, 0, 63, 0] = some ⟨6, 7, 64, false⟩ ∧ cableTestArgs [6, 7, 0x10, 1, 1] = some ⟨6, 7, 4096, true⟩
     ∧ s.ports[(6 : PortId)].cfg.enabled = true ∧ s.ports[(7 : PortId)].cfg.enabled = true
     ∧ rangeStatus s.ranges 6 ≠ .none ∧ rangeStatus s.ranges 7 ≠ .none ∧ s.cableTest = none
     ∧ s.ports[(7 : PortId)].powerState ≠ .lost ∧ ({ live with lostLatch := true } : Port).powerState = .lost)
    ∧ (testing .done .compare 0).cableTest.isSome
    ∧ cableTestArgs [32, 7, 0, 64, 0] = none ∧ cableTestArgs [6, 7, 0, 64, 2] = none
    ∧ base.ports[(6 : PortId)].cfg.enabled = false ∧ rangeStatus base.ranges 6 = .none := by
  refine ⟨⟨(ready_of (by rfl)).1, ?_⟩, ?_⟩ <;> decide +kernel

theorem witness_CableTestRunsToItsReply :
    ([OutPhase.finish, .lead, .marker, .sequence].all fun ph => (testing ph .awaitMarker 0).cableTest.any fun t =>
        decide (t.outPhase = ph ∧ t.inPhase = .awaitMarker)) = true
    ∧ (∃ t : CableTest, (testing .done .compare 63).cableTest = some t ∧ t.inPhase = .compare ∧ t.compared + 1 = t.length
        ∧ chosenSample t.late 0 = sequenceBit t.inReg 0)
    ∧ (∃ t : CableTest, (testing .done .compare 0).cableTest = some t ∧ t.compared + 0 < t.length
        ∧ chosenSample t.late (BitVec.allOnes 12) ≠ sequenceBit t.inReg 0)
    ∧ ((testing .lead .awaitMarker 0).ports[(7 : PortId)].rx = ⟨true, .search 0⟩
        ∧ startVerified [false, false, false, true, false] = true ∧ startVerified [false, false, true, true, false] = false)
    ∧ (∀ k < 7, (0x7F : BitVec 7).getLsbD (6 - k) = true)
    ∧ ([OutPhase.finish, .lead, .marker, .sequence, .done].all fun ph => (testing ph .awaitMarker 0).cableTest.any fun t =>
        decide (t.outPhase = ph ∧ (testing ph .awaitMarker 0).ports[t.outPort].tx.phase = .test ∧ 2999 < t.phaseEnds)) = true
    ∧ (∃ t : CableTest, (testing .sequence .awaitMarker 0).cableTest = some t ∧ 63 < t.length
        ∧ t.phaseEnds - 125 * t.length + 125 * 63 ≤ 7999 ∧ 7999 < t.phaseEnds - 125 * t.length + 125 * (63 + 1)) := by
  refine ⟨by decide +kernel, ⟨_, rfl, by decide +kernel⟩, ⟨_, rfl, by decide +kernel⟩, by decide +kernel, by decide +kernel,
    by decide +kernel, _, rfl, by decide +kernel⟩

/-- R19, R186: a character on a line: 0, its bits from the least significant, 1; and 1 after the last of them. -/
theorem test_characters_on_a_line : (List.range 11).map (levelOf (lineBits [0xA6]))
    = [false, false, true, true, false, false, true, false, true, true, true] := by decide +kernel

/-! ### Witnesses: optical power and line condition -/

theorem witness_ConversionJudgesPower :
    { lit live with conversion := some ⟨5, true, 1250⟩ }.conversion = some ⟨5, true, 1250⟩
    ∧ { lit live with conversion := some ⟨5, false, 1250⟩ }.conversion = some ⟨5, false, 1250⟩ := ⟨rfl, rfl⟩

theorem witness_HoldOffDelaysWorseConditions :
    (let p := { live with lostLatch := true }
     p.rawCondition ≠ p.raw ∧ p.reported.rank < p.rawCondition.rank ∧ p.holdTimer = none
       ∧ ({ p with holdTimer := some 5000 }).holdTimer.isSome)
    ∧ (let p := { live with raw := .fail, reported := .fail }
       p.rawCondition ≠ p.raw ∧ p.rawCondition.rank ≤ p.reported.rank)
    ∧ live.rawCondition = live.raw
    ∧ (lit { live with raw := .degrade, holdTimer := some 5000 }).ports[(5 : PortId)].holdTimer = some 5000
    ∧ (let s := ganged (.new cfgN) 0 0
       memberOf s.sw.groups 5 = some (0, 0) ∧ s.sw.groups[(0 : GroupId)] = some (.new cfgN) ∧ memberOf s.sw.groups 4 = none
       ∧ s.ports[(5 : PortId)].lossTimer = some 40000 ∧ listening s 5 = true ∧ s.ports[(5 : PortId)].cfg.enabled = true)
    ∧ { lit live with conversion := some ⟨5, true, 1250⟩ }.conversion = some ⟨5, true, 1250⟩ := by decide +kernel

/-- R38: a sample that counts idle is no event, and one that truncates a message is; a SET-PORT on a port that stays enabled. -/
theorem witness_HoldOffDelaysWorseConditions_events :
    (let next := live.sample 1000 true
     next = { live with rx := next.rx, asm := next.asm })
    ∧ (let old := { live with asm := .assembling [] 1 }
       let next := old.sample 1000 true
       next ≠ { old with rx := next.rx, asm := next.asm })
    ∧ MasterReady .a (lit live) ∧ (portPayload 1).length = 24 ∧ setPortArgs (portPayload 1) = some (5, onCfg) ∧ onCfg.enabled = true := by
  refine ⟨?_, ?_, (lit_ready live).1, ?_⟩ <;> decide +kernel

/-- The timing unit following OCA at this average, in this state, its acquire timer not running. -/
def following (average : Int) (st : TimingState) (s : State) : State :=
  { s with timing := { s.timing with
      refs := s.timing.refs.set 0 { Ref.reset 0 with average := some average }, selected := some 0, state := st } }

theorem witness_SecondsTickRollsWindowsAndSteers :
    ((∀ p : PortId, (lit live).ports[p].cfg.enabled = true → (lit live).ports[p].tick.rawCondition = (lit live).ports[p].raw)
      ∧ (lit live).ports[(5 : PortId)].cfg.enabled = true ∧ (lit live).ports[(4 : PortId)].cfg.enabled = false)
    ∧ (let s := lit { live with buckets := 0 :: List.replicate 9 40 }
       s.ports[(5 : PortId)].tick.rawCondition ≠ s.ports[(5 : PortId)].raw)
    ∧ (let t := (following 1000 .acquiring base).timing
       t.state = .acquiring ∧ t.acquireTimer = none ∧ (1000 - t.word).natAbs ≤ t.settings.slew)
    ∧ (let t := (following 1001 .acquiring base).timing
       ¬ (1001 - t.word).natAbs ≤ t.settings.slew)
    ∧ (let t := (following 16 .locked base).timing
       (t.selected.bind fun r => t.refs[r].average) = some 16 ∧ t.state = .locked)
    ∧ ({ base.timing with steering := some ([1], 1001) }.steering = some ([1], 1001) ∧ base.now < 1001) := by decide +kernel

/-! ### Witnesses: protection groups -/

/-- A SET-GROUP of group 0: ONE-PLUS-ONE, single-ended, protection port 5, working port 6, revertive clear, selector 10. -/
def groupPayload : List Byte := [0, 1, 0, 5, 1, 6, 0, 0, 0, 1, 44, 10, 0]

theorem witness_SetGroupCreatesOrRebuilds :
    (MasterReady .a (lit live) ∧ setGroupFits groupPayload = true ∧ setGroupHead groupPayload = some (0, .onePlusOne, .single, false)
      ∧ setGroupConfig .onePlusOne .single false groupPayload = some (cfg1 .single)
      ∧ groupConflict (lit live) 0 (cfg1 .single) = false ∧ (lit live).sw.groups[(0 : GroupId)] = none)
    ∧ (let old := { Group.new (cfg1 .dual) with state := .maint }
       MasterReady .a (ganged old 0 0) ∧ groupConflict (ganged old 0 0) 0 (cfg1 .single) = false
       ∧ (ganged old 0 0).sw.groups[(0 : GroupId)] = some old ∧ (ganged old 0 0).sw.opOf 0 = none)
    ∧ (setGroupFits (12 :: groupPayload.drop 1) = true ∧ setGroupHead (12 :: groupPayload.drop 1) = none
        ∧ setGroupHead (groupPayload.set 0 11) = some (11, .onePlusOne, .single, false)
        ∧ setGroupConfig .onePlusOne .single false (groupPayload.set 11 63) = none
        ∧ setGroupConfig .oneForN .dual false (groupPayload.set 12 62)
            = some ⟨.oneForN, .dual, 5, [6], false, 0, 300, 10, some 62⟩)
    ∧ (cfg1 .single).members.Nodup ∧ base.ports[(5 : PortId)].cfg.enabled = false
    ∧ (ganged (.new (cfg1 .dual)) 0 0).sw.groups[(0 : GroupId)].map (·.state) = some .idle := by
  refine ⟨⟨(lit_ready live).1, ?_⟩, ⟨(ganged_ready _ 0 0).1, ?_⟩, ?_⟩ <;> decide +kernel

theorem witness_DeleteGroupRemovesRecords :
    (MasterReady .a (ganged { Group.new cfgN with state := .halted } 0 0)
      ∧ (ganged { Group.new cfgN with state := .halted } 0 0).sw.groups[(0 : GroupId)].map (·.state) = some .halted
      ∧ (ganged { Group.new cfgN with state := .halted } 0 0).sw.opOf 0 = none)
    ∧ (ganged (.new cfgN) 0 0).sw.groups[(0 : GroupId)].map (·.state) = some .idle
    ∧ (queued [.new .maintenance (.move 10 1) 0] (ganged { Group.new cfgN with state := .maint } 0 0)).sw.opOf 0 ≠ none
    ∧ 12 ≤ (12 : Byte).toNat := by
  refine ⟨⟨(ganged_ready _ 0 0).1, ?_⟩, ?_⟩ <;> decide +kernel

theorem witness_ProtRequestSetsExternalRequest :
    (let s := ganged (.new cfgN) 0 0
     MasterReady .a s ∧ s.sw.groups[(0 : GroupId)] = some (.new cfgN)
     ∧ (1 ≤ (2 : Byte).toNat ∧ (2 : Byte).toNat ≤ (Group.new cfgN).cfg.count ∧ ¬ (3 : Byte).toNat ≤ (Group.new cfgN).cfg.count)
     ∧ (Group.new cfgN).external = none ∧ (Group.new cfgN).stay = none
     ∧ ({ Group.new cfgN with stay := some ⟨.restoreWait, 2⟩ } : Group).stay.all (fun x => decide (x.kind.code ≤ 4)) = true
     ∧ (Group.new cfgN).effective = ⟨.none, 0⟩ ∧ s.sw.selected (.new cfgN) = some 0
     ∧ (((Group.new cfgN).form s.swEnv (s.sw.selected (.new cfgN))).effective.outranks ⟨.manual, 2⟩ = false)
     ∧ ((Group.new cfgN).decode s.swEnv).farEcho ≠ some .trial)
    ∧ (let p5 := { live with accProt := some ⟨0x31, 0x30⟩, accFlags := some ⟨false, false, false, 2⟩ }
       ((Group.new cfgN).decode (lit p5).swEnv).farEcho = some .trial)
    ∧ (let grp := { Group.new (cfg1 .single) with external := some ⟨.trial, 1⟩ }
       grp.external.any (fun x => decide (x.kind = .trial)) = true ∧ grp.state = .idle) := by
  refine ⟨⟨(ganged_ready _ 0 0).1, ?_⟩, ?_⟩ <;> decide +kernel

theorem witness_ProtRequestRefusedInOrder :
    MasterReady .a (ganged (.new cfgN) 0 0) ∧ indexArg 12 ([12, 14, 0] : List Byte) = none
    ∧ indexArg 12 ([11, 14, 0] : List Byte) = some 11 ∧ (ganged (.new cfgN) 0 0).sw.groups[(11 : GroupId)] = none
    ∧ protKind 13 = none ∧ protKind 14 = some .bar ∧ ¬ (1 ≤ (0 : Byte).toNat) ∧ ¬ (3 : Byte).toNat ≤ cfgN.count
    ∧ ReqKind.trial.code < ReqKind.manual.code
    ∧ (let grp := { Group.new cfgN with effective := ⟨.failP, 0⟩ }
       grp.external = none ∧ grp.effective.kind = .failP ∧ grp.effective ≠ ⟨.none, 0⟩)
    ∧ (let s := { ganged (.new cfgN) 0 0 with ranges := base.ranges.set 0 ⟨true, .outOfService, 5, 5⟩ }
       (((Group.new cfgN).form s.swEnv (s.sw.selected (.new cfgN))).effective.outranks ⟨.manual, 1⟩ = true)) := by
  refine ⟨(ganged_ready _ 0 0).1, ?_⟩; decide +kernel

theorem witness_ProtRequestClearRemovesExternal :
    (let grp := { Group.new (cfg1 .single) with state := .switched, external := some ⟨.force, 1⟩ }
     let s := ganged grp 1 0
     MasterReady .a s ∧ s.sw.groups[(0 : GroupId)] = some grp ∧ s.sw.selected grp = some 1 ∧ grp.cfg.revertive = false
     ∧ (({ grp with external := none } : Group).locals s.swEnv).any (·.outranks ⟨.hold, 1⟩) = false)
    ∧ (let grp := { Group.new (cfg1 .single) with state := .switched, stay := some ⟨.hold, 1⟩ }
       grp.external = none ∧ grp.stay.any (fun x => decide (x.kind = .hold)) = true)
    ∧ (let grp := { Group.new { cfg1 .single with revertive := true } with state := .switched, external := some ⟨.force, 1⟩ }
       grp.external = some ⟨.force, 1⟩ ∧ grp.stay = none ∧ grp.cfg.revertive = true)
    ∧ (let grp := { Group.new (cfg1 .single) with external := some ⟨.manual, 1⟩ }
       grp.external = some ⟨.manual, 1⟩ ∧ grp.stay = none ∧ (ganged grp 0 0).sw.selected grp ≠ some 1)
    ∧ (let grp := { Group.new (cfg1 .single) with external := some ⟨.bar, 0⟩ }
       grp.external = some ⟨.bar, 0⟩ ∧ grp.stay = none)
    ∧ (let grp := { Group.new (cfg1 .single) with state := .switched, external := some ⟨.manual, 1⟩ }
       let s := { ganged grp 1 0 with ranges := base.ranges.set 0 ⟨true, .outOfService, 5, 5⟩ }
       grp.external = some ⟨.manual, 1⟩ ∧ grp.stay = none
       ∧ (({ grp with external := none } : Group).locals s.swEnv).any (·.outranks ⟨.hold, 1⟩) = true) := by
  refine ⟨⟨(ganged_ready _ 1 0).1, ?_⟩, ?_⟩ <;> decide +kernel

/-- A group switched to its member 1, whose light was lost until now, when a conversion on that member's port ends. -/
def recovered (revertive : Bool) : State :=
  let grp := { Group.new { cfg1 .single with revertive := revertive } with
    state := .switched, local_ := ⟨.fail, 1⟩, effective := ⟨.fail, 1⟩, target := 1 }
  let s := ganged grp 1 0
  { s with
    ports := upd s.ports 6 fun p => { p with lostLatch := true, raw := .fail, reported := .fail }
    conversion := some ⟨6, true, 1250⟩ }

/-- The group's stay request and the end of its restore-wait after that conversion. -/
def stayAfter (revertive : Bool) : Option (Option Request × Option Nat) :=
  match exec (.conversionEnd 2900) (recovered revertive) with
  | .next t => t.sw.groups[(0 : GroupId)].map fun grp => (grp.stay, grp.restoreTimer)
  | _ => none

/-- R54: the recovery of the selected member leaves the stay request. -/
theorem test_stay_request_arises :
    stayAfter true = some (some ⟨.restoreWait, 1⟩, some (1250 + 300000000)) ∧ stayAfter false = some (some ⟨.hold, 1⟩, none) := by
  decide +kernel

theorem witness_GroupTimersExpire_stay :
    (recovered true).conversion = some ⟨6, true, 1250⟩ ∧ memberOf (recovered true).sw.groups 6 = some (0, 1)
    ∧ (recovered true).sw.groups[(0 : GroupId)].map (fun grp => decide (grp.decode (recovered true).swEnv = grp)) = some true
    ∧ (recovered true).ports[(6 : PortId)].reported ≠ .ok ∧ listening (recovered true) 6 = true
    ∧ (recovered true).ports[(6 : PortId)].lossTimer.isSome ∧ (recovered true).ports[(6 : PortId)].cfg.enabled = true
    ∧ (∀ q ∈ (cfg1 .single).members, q ≠ 6 → (recovered true).ports[q].tick.rawCondition = (recovered true).ports[q].raw) := by
  decide +kernel

/-- The port of the group's member 1 as given, in the state before its recovery. -/
def member1 (p : Port) : State := { recovered true with ports := (recovered true).ports.set 6 p }

/-- A member that failed for want of its pilot, or of a trace that fits. -/
def silent : Port :=
  { live with cfg := { onCfg with pilotRequired := true, traceFail := true }, pilotLoss := true, raw := .fail, reported := .fail }

/-- R54: the stay request arises at a PILOT_MESSAGE that ends PILOT-LOSS, a SECONDS_TICK that ends PILOT-ERRORS, and a SET-PORT that no
longer makes PILOT-LOSS a failure. -/
theorem test_stay_request_arises_at_other_events :
    (let stays := fun (i : Instr) (s : State) => match exec i s with
       | .next t => t.sw.groups[(0 : GroupId)].map (·.stay)
       | _ => none
     let noisy := { live with pilotErrors := true, raw := .degrade, reported := .degrade }
     let degraded := { member1 noisy with sw := (member1 noisy).sw.modGroup 0 fun grp =>
       { grp with local_ := ⟨.degrade, 1⟩, effective := ⟨.degrade, 1⟩ } }
     stays (.pilotMessage 6 goodBody false) (member1 silent) = some (some ⟨.restoreWait, 1⟩)
     ∧ stays .secondsTick degraded = some (some ⟨.restoreWait, 1⟩)
     ∧ stays (.setPort .a 1 (6 :: (portPayload 1).drop 1)) (member1 silent) = some (some ⟨.restoreWait, 1⟩)) := by decide +kernel

theorem witness_GroupTimersExpire_events :
    (let old := { silent with asm := .assembling [] 1 }
     let next := old.sample 1000 true
     next ≠ { old with rx := next.rx, asm := next.asm })
    ∧ MasterReady .a (member1 silent) ∧ setPortArgs (6 :: (portPayload 1).drop 1) = some (6, onCfg)
    ∧ (member1 { silent with holdTimer := some 5000 }).ports[(6 : PortId)].holdTimer.isSome := by
  refine ⟨?_, (ready_of (by rfl)).1, ?_⟩ <;> decide +kernel

theorem witness_GroupTimersExpire :
    (let grp := { Group.new cfgN with
      state := .awaitFar, stay := some ⟨.restoreWait, 1⟩, restoreTimer := some 60000000, awaitTimer := some 2001000
      external := some ⟨.trial, 1⟩, trialTimer := some 2001000 }
     (ganged grp 0 1).sw.groups[(0 : GroupId)] = some grp ∧ grp.restoreTimer = some 60000000 ∧ grp.awaitTimer = some 2001000
       ∧ grp.trialTimer = some 2001000) := by decide +kernel

theorem witness_FarSignalDecodedAndRequestsFormed :
    (cfg1 .single).ends = .single ∧ cfgN.ends = .dual ∧ live.accProt = none
    ∧ (let env := (lit { live with accProt := some ⟨0xA2, 0xA2⟩, accFlags := some ⟨false, false, false, 2⟩ }).swEnv
       env.ports[(5 : PortId)].accProt = some ⟨0xA2, 0xA2⟩ ∧ ((Group.new cfgN).decode env).protocolMismatch = false
       ∧ env.ports[(5 : PortId)].pilotLoss = false)
    ∧ ((Group.new cfgN).decode (lit { live with accProt := some ⟨0xA3, 0xA2⟩, accFlags := some ⟨false, false, false, 2⟩ }).swEnv).protocolMismatch
      = true
    ∧ ((Group.new cfgN).decode (lit { live with accProt := some ⟨0xA0, 0xA2⟩, accFlags := some ⟨false, false, false, 2⟩ }).swEnv).protocolMismatch
      = true := by decide +kernel

/-- R56 to R59: a group as formed, and formed afresh; a displaced stay request; the far end's request above L or not. -/
theorem witness_FarSignalDecodedAndRequestsFormed_formed :
    (let s := ganged (.new cfgN) 0 0
     Formed s.swEnv s.sw (.new cfgN))
    ∧ (let grp := { Group.new cfgN with stay := some ⟨.restoreWait, 1⟩, external := some ⟨.force, 2⟩ }
       (grp.locals (lit live).swEnv).any (·.outranks ⟨.restoreWait, 1⟩) = true)
    ∧ (let grp := { Group.new cfgN with remote := some ⟨.fail, 1⟩ }
       (Request.outranks ⟨.fail, 1⟩ grp.local_ = true) ∧ grp.cfg.ends = .dual ∧ Request.outranks ⟨.none, 0⟩ grp.local_ = false) := by
  refine ⟨⟨?_, ?_, ?_, ?_⟩, ?_⟩ <;> decide +kernel

/-- R57, R58: FORCE(3) and FAIL(1) beside a DEGRADE give FORCE; at equal codes the lower member is L, and F may be E. -/
theorem test_requests_formed :
    (let env := (lit { live with reported := .degrade }).swEnv
     let failing := { env with ports := (env.ports.set 6 { live with reported := .fail }).set 7 { live with reported := .fail } }
     let grp := { Group.new cfgN with external := some ⟨.force, 2⟩, remote := some ⟨.failP, 0⟩ }
     (grp.form failing (some 0)).local_ = ⟨.force, 2⟩ ∧ (grp.form failing (some 0)).effective = ⟨.failP, 0⟩
     ∧ (grp.form failing (some 0)).target = 0
     ∧ ((Group.new cfgN).form failing (some 0)).local_ = ⟨.fail, 1⟩ ∧ ((Group.new cfgN).form failing (some 0)).target = 1) := by
  decide +kernel

theorem witness_StepsFollowTheTables :
    (∀ s : Fin 8, let grp := { Group.new cfgN with target := 2 }
      (ganged grp s.val 1).sw.groups[(0 : GroupId)] = some grp ∧ (ganged grp s.val 1).sw.selected grp = some s.val
      ∧ (ganged grp s.val 1).sw.bridgeAt grp = some 1)
    ∧ (∀ s : Fin 2, let grp := { Group.new (cfg1 .dual) with target := 1, farBridged := some 1 }
      (ganged grp s.val 0).sw.groups[(0 : GroupId)] = some grp ∧ (ganged grp s.val 0).sw.selected grp = some s.val)
    ∧ (let grp := { Group.new (cfg1 .single) with effective := ⟨.trial, 1⟩, target := 1, external := some ⟨.trial, 1⟩ }
       grp.cfg.ends = .single ∧ grp.effective.kind = .trial ∧ (ganged grp 0 0).sw.opOf 0 = none) := by
  decide +kernel

/-- R79, R80: a change steps a group at rest, withdraws a queued move, and leaves one in flight alone. -/
theorem witness_StepsFollowTheTables_react :
    let old := Group.new cfgN
    let moved := fun st : GroupState => { Group.new cfgN with state := st, effective := ⟨.manual, 2⟩, target := 2 }
    let op := Op.new .protection (.move 11 1) 0
    ((ganged (moved .idle) 0 0).sw.opOf 0 = none ∧ (moved .idle).target ≠ old.target)
    ∧ ((queued [op] (ganged (moved .bridging) 0 0)).sw.opOf 0 = some op ∧ op.inFlight = false)
    ∧ ((queued [{ op with inFlight := true }] (ganged (moved .bridging) 0 0)).sw.opOf 0 = some { op with inFlight := true })
    ∧ (let read := Op.new .protection (.read 10 none) 0
       (queued [read] (ganged (moved .idle) 0 0)).sw.opOf 0 = some read ∧ read.inFlight = false)
    ∧ ((ganged (moved .maint) 0 0).sw.groups[(0 : GroupId)] = some (moved .maint)) := by decide +kernel

/-! ### Witnesses: switch actuators -/

theorem witness_SetMaintEnterStandsGroupDown :
    MasterReady .a base ∧ base.sw.groups[(0 : GroupId)] = none
    ∧ (∀ st ∈ [GroupState.adopting, .maint, .idle, .halted],
        (ganged { Group.new cfgN with state := st } 0 0).sw.groups[(0 : GroupId)] = some { Group.new cfgN with state := st })
    ∧ MasterReady .a (ganged (.new cfgN) 0 0) ∧ 12 ≤ (12 : Byte).toNat ∧ 1 < (2 : Byte).toNat := by
  refine ⟨base_ready.1, ?_, ?_, (ganged_ready _ 0 0).1, ?_⟩ <;> decide +kernel

theorem witness_LeaveAndClearHaltAdopt :
    MasterReady .a (ganged { Group.new cfgN with state := .frozen } 0 0)
    ∧ (∀ st ∈ [GroupState.maint, .frozen, .halted, .idle],
        (ganged { Group.new cfgN with state := st } 0 0).sw.groups[(0 : GroupId)] = some { Group.new cfgN with state := st }
        ∧ (ganged { Group.new cfgN with state := st } 0 0).sw.opOf 0 = none)
    ∧ ((queued [{ Op.new .maintenance (.move 10 1) 0 with inFlight := true }]
        (ganged { Group.new cfgN with state := .maint } 0 0)).sw.opOf 0).map (·.inFlight) = some true
    ∧ 12 ≤ (12 : Byte).toNat := by
  refine ⟨(ganged_ready _ 0 0).1, ?_, ?_⟩ <;> decide +kernel

/-- R83 to R85: an adoption read that found the two elements together, apart, or both at 0. -/
theorem witness_LeaveAndClearHaltAdopt_end :
    ∀ sb ∈ [((2 : Nat), (2 : Nat)), (2, 1), (0, 1)],
      let grp := { Group.new cfgN with state := .adopting }
      let op := { Op.new .adopt (.read 10 (some 11)) 0 with inFlight := true, second := true }
      let s := queued [op] (ganged grp sb.1 sb.2)
      s.sw.groups[(0 : GroupId)] = some grp ∧ s.sw.opOf 0 = some op ∧ op.cls = .adopt ∧ s.sw.selected grp = some sb.1
        ∧ s.sw.bridgeAt grp = some sb.2 ∧ grp.decode s.swEnv = grp
        ∧ ∀ r ∈ grp.locals s.swEnv, r.outranks ⟨.restoreWait, 2⟩ = false := by decide +kernel

theorem witness_MaintMoveQueuesOneMove :
    (let s := ganged { Group.new cfgN with state := .maint } 0 0
     MasterReady .a s ∧ s.sw.element 0 = none ∧ s.sw.element 62 = none ∧ (s.sw.element 10).isSome
     ∧ s.sw.groups[(0 : GroupId)].map (·.state) = some .maint ∧ s.sw.opOf 0 = none
     ∧ s.sw.queue.countP (fun op => decide (op.cls = .maintenance)) < 4)
    ∧ ((queued [.new .maintenance (.move 10 1) 0] (ganged { Group.new cfgN with state := .maint } 0 0)).sw.opOf 0 ≠ none)
    ∧ (let s := queued [.new .maintenance (.move 1 1) 1, .new .maintenance (.move 2 1) 2, .new .maintenance (.move 3 1) 3,
         .new .maintenance (.move 4 1) 4] (ganged { Group.new cfgN with state := .maint } 0 0)
       s.sw.opOf 0 = none ∧ 4 ≤ s.sw.queue.countP (fun op => decide (op.cls = .maintenance)))
    ∧ (ganged (.new cfgN) 0 0).sw.groups[(0 : GroupId)].map (·.state) = some .idle := by
  refine ⟨⟨(ganged_ready _ 0 0).1, ?_⟩, ?_⟩ <;> decide +kernel

theorem witness_SettleAnswersWhenDrained :
    (FreeLink .b base ∧ base.sw.queue = [] ∧ base.sw.elements = [])
    ∧ (queued [.new .adopt (.read 10 (some 11)) 0] (ganged (.new cfgN) 0 0)).sw.queue ≠ []
    ∧ (base.links.modLink .b fun k => { k with outstanding := some ⟨3, 0x2B, false⟩ }).linkB.outstanding = some ⟨3, 0x2B, false⟩
    ∧ base.links.linkA.outstanding ≠ some ⟨3, 0x2B, false⟩ := by
  refine ⟨⟨base_ready.2, ?_⟩, ?_⟩ <;> decide +kernel

theorem witness_BusRunsOneTransactionAtATime :
    ((queued [.new .maintenance (.move 11 1) 0] (ganged (.new cfgN) 0 0)).sw.bus = none
      ∧ (queued [.new .maintenance (.move 11 1) 0] (ganged (.new cfgN) 0 0)).sw.choose = some ⟨0, .move 11 1, 0⟩)
    ∧ ((queued [.new .adopt (.read 10 none) 0] (ganged (.new cfgN) 0 0)).sw.choose = some ⟨0, .read 10, 0⟩)
    ∧ ((moving (.due 2000) (queued [.new .protection (.move 10 1) 0] (ganged (.new cfgN) 0 0))).sw.choose = some ⟨2000, .poll 10, 0⟩)
    ∧ ((moving (.due 2000) (queued [.new .maintenance (.move 10 1) 0] (ganged (.new cfgN) 0 0))).sw.choose = some ⟨2000, .poll 10, 0⟩)
    ∧ ((queued [{ Op.new .adopt (.read 10 (some 11)) 0 with inFlight := true, ready := some (1500, .read 11) }]
        (ganged (.new cfgN) 0 0)).sw.choose = some ⟨1500, .read 11, 0⟩)
    ∧ (onBus { asked (.read 10) with exchange := .repeating 3080 } base).sw.bus = some { asked (.read 10) with exchange := .repeating 3080 }
    ∧ (onBus (asked (.move 10 1)) (queued [.new .protection (.move 10 1) 0] (ganged (.new cfgN) 0 0))).sw.bus = some (asked (.move 10 1))
    ∧ (onBus { asked (.move 10 1) with repeated := true } base).sw.bus = some { asked (.move 10 1) with repeated := true }
    ∧ (base.sw.choose = none ∧ (onBus (asked (.move 10 1)) base).sw.bus ≠ none)
    ∧ ((queued [{ Op.new .adopt (.read 10 (some 11)) 0 with inFlight := true }] (ganged (.new cfgN) 0 0)).sw.opOf 0).map (·.kind)
        = some (.read 10 (some 11))
    ∧ (ganged (.new cfgN) 0 0).sw.groups[(0 : GroupId)].isSome :=
  ⟨⟨rfl, rfl⟩, rfl, rfl, rfl, rfl, rfl, rfl, rfl, ⟨rfl, by decide +kernel⟩, rfl, rfl⟩

/-- R97 to R100: a choice held, one that an entry of another class bars, and one of each kind of command to begin. -/
theorem witness_BusRunsOneTransactionAtATime_choice :
    let op := Op.new .maintenance (.move 11 1) 0
    let held := chose ⟨0, .move 11 1, 0⟩ (queued [op] (ganged { Group.new cfgN with state := .maint } 0 0))
    let barred := chose ⟨0, .move 11 1, 0⟩ (queued [.new .adopt (.read 12 none) 1, op] (ganged { Group.new cfgN with state := .maint } 0 0))
    (held.sw.bus = none ∧ held.sw.chosen = some ⟨0, .move 11 1, 0⟩
      ∧ ∀ x ∈ held.sw.queue, ¬ (x.inFlight = false ∧ x.cls ≠ .maintenance))
    ∧ (barred.sw.bus = none ∧ barred.sw.chosen = some ⟨0, .move 11 1, 0⟩ ∧ barred.sw.opOf 0 = some op ∧ op.cls = .maintenance
        ∧ ∃ x ∈ barred.sw.queue, x.inFlight = false ∧ x.cls ≠ .maintenance)
    ∧ (chose ⟨2000, .poll 10, 0⟩ (moving (.due 2000) (ganged (.new cfgN) 0 0))).sw.chosen = some ⟨2000, .poll 10, 0⟩
    ∧ ((Op.new .adopt (.read 12 none) 1).cls ≠ .maintenance) ∧ base.sw.chosen = none := by decide +kernel

/-- R98, R99: an entry goes ahead of the queued MAINTENANCE entries and behind the others; what was chosen is held, but for such an
entry. -/
theorem test_queue_and_choice :
    (let m := Op.new .maintenance (.move 10 1) 0
     let p := Op.new .protection (.move 12 1) 1
     placeOp [{ m with inFlight := true }, m] p = [{ m with inFlight := true }, p, m]
     ∧ (queued [p, m] (chose ⟨0, .move 10 1, 0⟩ (ganged (.new cfgN) 0 0))).sw.arbitrate.chosen = some ⟨0, .move 12 1, 1⟩
     ∧ (queued [m] (chose ⟨0, .move 10 1, 0⟩ (moving (.due 5) (ganged (.new cfgN) 0 0)))).sw.arbitrate.chosen = some ⟨0, .move 10 1, 0⟩)
    := by decide +kernel

theorem witness_AnswersEndTheTransaction :
    ((∀ gap ∈ (⟨0x8A, [40, 0, 40, 0, 40], false⟩ : AnswerRun).gaps, gap ≤ 40) ∧ (⟨0x8A, [40, 0], false⟩ : AnswerRun).framing = false)
    ∧ ((onBus (asked (.read 10)) (queued [{ Op.new .adopt (.read 10 (some 11)) 0 with inFlight := true }] (ganged (.new cfgN) 0 0))).sw.bus
        = some (asked (.read 10)) ∧ (asked (.read 10)).exchange = .awaiting 3000)
    ∧ ((0x8A : Byte) = byteOf ((asked (.read 10)).cmd.address + 0x80) ∧ (7 : Byte).toNat ≤ 7 ∧ (1 : Byte).toNat ≤ 1
        ∧ 1 ≤ (62 : Byte).toNat ∧ (62 : Byte).toNat ≤ 62 ∧ byteSum [0x8A, 0x81, 7, 1, 62, 0xAF] = 0)
    ∧ ((asked (.move 10 1)).cmd = .move 10 1 ∧ byteSum [0x8A, 0x82, 0xF4] = 0)
    ∧ ((asked (.paired 10 0 1)).cmd = .paired 10 0 1 ∧ byteSum [0x8A, 0x84, 0xF2] = 0)
    ∧ ((∀ x, (asked (.poll 10)).cmd ≠ .read x) ∧ byteSum [0x8A, 0x83, 5, 0xEE] = 0)
    ∧ (asked (.poll 10)).orphan = false ∧ ({ asked (.poll 10) with orphan := true } : Transaction).orphan = true := by
  refine ⟨by decide, ⟨rfl, rfl⟩, by decide, ⟨rfl, by decide⟩, ⟨rfl, by decide⟩, ⟨fun x => by simp [asked], by decide⟩, rfl, rfl⟩

/-- R187: an answer whose characters stand 40 µs apart ends the exchange; one with a gap of 41 µs, a framing error or a sum other than 0
is discarded, and so is a POSITION of 8. -/
theorem test_answer_runs :
    (let s := onBus (asked (.move 10 1)) (queued [{ Op.new .protection (.move 10 1) 0 with inFlight := true }] (ganged (.new cfgN) 0 0))
     let busy := fun (i : Instr) (s : State) => match exec i s with
       | .next t => t.sw.bus.isSome
       | _ => false
     busy (.answerAccepted ⟨0x8A, [40, 40], false⟩ 0xF4) s = false
     ∧ busy (.answerAccepted ⟨0x8A, [40, 41], false⟩ 0xF4) s = true ∧ busy (.answerAccepted ⟨0x8A, [40, 40], true⟩ 0xF4) s = true
     ∧ busy (.answerAccepted ⟨0x8A, [40, 40], false⟩ 0xF5) s = true
     ∧ busy (.answerPosition ⟨0x8A, [0, 0, 0, 0, 0], false⟩ 8 0 0 0xED) (onBus (asked (.read 10)) (ganged (.new cfgN) 0 0)) = true) := by
  decide +kernel

/-- R187: each test that a run can fail, and a run with no exchange open. -/
theorem witness_AnswersEndTheTransaction_discards :
    (¬ ∀ gap ∈ (⟨0x8A, [40, 41], false⟩ : AnswerRun).gaps, gap ≤ 40) ∧ (⟨0x8A, [40, 40], true⟩ : AnswerRun).framing ≠ false
    ∧ (0x8B : Byte) ≠ byteOf ((asked (.read 10)).cmd.address + 0x80) ∧ byteSum [0x8A, 0x82, 0xF5] ≠ 0
    ∧ (∀ a x y, (asked (.read 10)).cmd ≠ .paired a x y) ∧ ¬ (8 : Byte).toNat ≤ 7 ∧ ¬ (2 : Byte).toNat ≤ 1 ∧ ¬ 1 ≤ (0 : Byte).toNat
    ∧ base.sw.bus = none := by
  refine ⟨by decide, by decide, by decide, by decide, fun a x y => by simp [asked], by decide, by decide, by decide, rfl⟩

theorem witness_MovesArePolledUntilSettled :
    (let s := moving (.waiting 5900) (queued [{ Op.new .protection (.move 10 1) 0 with inFlight := true }] (ganged (.new cfgN) 0 0))
     (s.sw.element 10).map (·.moving) = some (some ⟨900, .waiting 5900⟩)
     ∧ (s.sw.opOf 0).bind (·.targetOf 10) = some 1 ∧ s.sw.groups[(0 : GroupId)].isSome)
    ∧ ((onBus (asked (.poll 10)) base).sw.bus = some (asked (.poll 10)) ∧ (asked (.poll 10)).exchange = .awaiting 3000)
    ∧ ((∀ gap ∈ (⟨0x8A, [40, 0, 40], false⟩ : AnswerRun).gaps, gap ≤ 40) ∧ (⟨0x8A, [40, 0], false⟩ : AnswerRun).framing = false)
    ∧ ((0x8A : Byte) = byteOf (10 + 0x80) ∧ byteSum [0x8A, 0x85, 0xF1] = 0 ∧ byteSum [0x8A, 0x86, 1, 0xEF] = 0
        ∧ byteSum [0x8A, 0x86, 7, 0xE9] = 0) := by
  refine ⟨by decide +kernel, ⟨rfl, rfl⟩, by decide, by decide⟩

/-- R81, R101, R102: an operation of each class at its end, with an element that has settled before and one that has not. -/
theorem witness_MovesArePolledUntilSettled_ends :
    (∀ x ∈ [(OpClass.protection, OpKind.move 10 1, GroupState.selecting), (.protection, .read 10 none, .idle),
        (.recovery, .move 10 0, .recovering), (.adopt, .move 10 0, .adopting), (.maintenance, .move 10 3, .maint)],
      let op := Op.new x.1 x.2.1 0
      let grp := { Group.new cfgN with state := x.2.2 }
      let s := queued [op] (ganged grp 0 0)
      s.sw.groups[(0 : GroupId)] = some grp ∧ s.sw.opOf 0 = some op ∧ (s.sw.element 10).bind (·.lastSettled) = some 0)
    ∧ (Element.new 10 .selector 0).lastSettled = none := by decide +kernel

/-! ### Witnesses: shelf timing -/

theorem witness_SetRefConfiguresReference :
    MasterReady .a base ∧ setRefArgs base.timing.refs [6, 1, 0, 0, 0, 0, 1, 6] = none
    ∧ setRefArgs base.timing.refs [0, 1, 3, 0, 0, 0, 1, 6] = none
    ∧ setRefArgs base.timing.refs [2, 1, 3, 1, 11, 7, 7, 6] = some (2, ⟨true, .mhz2048, .member 11 7, 6, 6⟩)
    ∧ setRefArgs base.timing.refs [1, 0, 2, 9, 9, 9, 0, 0] = some (1, ⟨false, .khz8, .port 0, 1, 1⟩)
    ∧ setRefArgs base.timing.refs [2, 1, 0, 1, 11, 8, 7, 6] = none ∧ setRefArgs base.timing.refs [2, 1, 0, 0, 32, 0, 7, 6] = none
    ∧ setRefArgs base.timing.refs [5, 1, 0, 0, 31, 0, 7, 6] = some (5, ⟨true, .mhz2048, .port 31, 6, 6⟩) := by
  refine ⟨base_ready.1, ?_⟩; decide +kernel

/-- A reference in service and qualified. -/
def healthy (r : RefId) : Ref :=
  { Ref.reset r with
    enabled := true, present := true, state := .qualified, average := some 16, edgeTimer := some 1500, measuring := some 0
    window := List.replicate 16 ⟨16, false⟩, latest := some ⟨16, false⟩ }

theorem witness_SetTimingReplacesSettings :
    MasterReady .a base ∧ setTimingArgs (List.replicate 10 0 ++ [2, 0, 0, 0]) = none
    ∧ setTimingArgs (List.replicate 10 0 ++ [1, 1, 0, 16]) = some ⟨1000, 0, 10, 1, 10, .priority, true, 1, 15⟩
    ∧ (let s := referred 0 (healthy 0) base
       ({ s.timing with selected := some 0, state := .locked } : Timing).selection s.ports = some 0)
    ∧ base.timing.selection base.ports = none := by
  refine ⟨base_ready.1, ?_⟩; decide +kernel

theorem witness_TimingRequestsSteerSelection :
    MasterReady .a base ∧ base.timing.refs[(5 : RefId)].lockedOut = false
    ∧ (referred 5 { Ref.reset 5 with lockedOut := true } base).timing.refs[(5 : RefId)].lockedOut = true
    ∧ base.timing.forced ≠ some 5 ∧ { base.timing with forced := some 5 }.forced = some 5
    ∧ (3 < (4 : Byte).toNat ∧ ∀ action ∈ ([0, 2, 3] : List Byte), action.toNat ≠ 1 ∧ 6 ≤ (6 : Byte).toNat) := by
  refine ⟨base_ready.1, ?_⟩; decide +kernel

theorem witness_SelectionMovesTimingState :
    (let s := referred 0 (healthy 0) base
     s.timing.refs[(0 : RefId)].selectable s.ports 0 = true
     ∧ (s.timing.reselect s.timingEnv).selected ≠ s.timing.selected
     ∧ ({ s.timing with selected := some 0 } : Timing).selection s.ports = some 0)
    ∧ (let t := { base.timing with selected := some 0, state := .locked, ready := true }
       (t.reselect base.timingEnv).selected ≠ t.selected ∧ (t.reselect base.timingEnv).selected = none
       ∧ ∀ y : RefId, t.refs[y].selectable base.ports y = false)
    ∧ (let s := referred 0 (healthy 0) base
       (s.timing.reselect s.timingEnv).state ≠ s.timing.state ∧ base.timing.steering = none
       ∧ { s.timing with steering := some ([1], 1001) }.steering = some ([1], 1001) ∧ s.timingEnv.now < 1001)
    ∧ (let t := { (referred 1 (healthy 1) base).timing with selected := some 0, state := .acquiring }
       (t.reselect base.timingEnv).selected = some 1 ∧ (t.reselect base.timingEnv).state = t.state) := by decide +kernel

/-- R129, R188: the loss of the last reference in LOCKED takes an update: the word steps toward 0, and its frame begins on STEER. -/
theorem test_state_change_steers :
    (let t := { base.timing with selected := some 0, state := .locked, word := 4153 }
     let u := t.reselect base.timingEnv
     u.state = .freeRun ∧ u.word = 3153 ∧ u.steering = some ([0x5A, 0x00, 0x0C, 0x51, 0x00, 0x49], 4125)) := by decide +kernel

theorem witness_EdgesAndSamplesQualify :
    (let s := referred 0 (healthy 0) base
     s.timing.refs[(0 : RefId)].enabled = true ∧ s.timing.refs[(0 : RefId)].present = true
     ∧ s.timing.refs[(0 : RefId)].edgeTimer = some 1500 ∧ s.timing.refs[(0 : RefId)].measuring.isSome)
    ∧ base.timing.refs[(0 : RefId)].enabled = false
    ∧ (sourceHealthy base.ports 0 none = true ∧ sourceHealthy base.ports 2 none = false)
    ∧ ({ healthy 0 with present := false }.present = false) := by decide +kernel

/-- R113 to R117: a line reference bound to member 1 of group 0, whose selector leaves it, and its port in raw FAIL or not. -/
theorem witness_EdgesAndSamplesQualify_follow :
    (let x := { healthy 2 with binding := .member 0 1, source := some 6 }
     x.enabled = true ∧ 2 ≤ (2 : RefId).val
     ∧ derivedSource (ganged (.new cfgN) 1 1).sw x.binding = some 5 ∧ derivedSource (ganged (.new cfgN) 0 1).sw x.binding = some 6
     ∧ derivedSource base.sw x.binding = none ∧ derivedSource (ganged (.new cfgN) 0 0).sw (.member 0 3) = none)
    ∧ (lit { live with raw := .fail }).ports[(5 : PortId)].raw = .fail ∧ (lit live).ports[(5 : PortId)].raw ≠ .fail := by
  decide +kernel

theorem witness_TimingTimersExpire :
    ((referred 0 { healthy 0 with state := .soaking, soakTimer := some 7000 } base).timing.refs[(0 : RefId)].soakTimer = some 7000)
    ∧ ({ base.timing with acquireTimer := some 7000 }.acquireTimer = some 7000)
    ∧ ({ base.timing with holdoverTimer := some 7000, state := .holdover }.holdoverTimer = some 7000)
    ∧ (let t := { base.timing with steering := some ([1], 7000), steerWaiting := some [2] }
       t.steering = some ([1], 3875 + 3125) ∧ t.steerWaiting = some [2]) ∧ base.timing.steering = none := by decide +kernel

/-! ### Witnesses: alarm points and links -/

theorem witness_SetProfileReplacesEntry :
    MasterReady .a base ∧ setProfileArgs [21, 0, 0, 0, 0, 0, 0] = none ∧ setProfileArgs [6, 4, 5, 0, 0, 0, 0] = none
    ∧ setProfileArgs [20, 5, 0, 0, 0, 0, 0] = none ∧ (20 : Fin 21).val = (byteAt [20, 4, 5, 0, 0, 0, 0] 0).toNat
    ∧ setProfileArgs [6, 4, 4, 0x75, 0x30, 0xFF, 0xFF] = some (6, ⟨.critical, .critical, 30000, 30000⟩)
    ∧ setProfileArgs [7, 4, 5, 0, 99, 0, 100] = some (7, ⟨.critical, .none, 0, 100⟩) := by
  refine ⟨base_ready.1, ?_⟩; decide +kernel

/-- LOST-LIGHT of port 5 in this state of its point, the light lost or not. -/
def pointed (pt : Point) (lost : Bool) : State :=
  let s := lit { live with lostLatch := lost }
  { s with alarms := { s.alarms with points := s.alarms.points.set 5 pt } }

theorem witness_SoakExpiryDeclaresOrClears :
    (let s := pointed { Point.reset 5 with raw := true, soak := .declare 3000 } true
     s.alarms.points[(5 : PointId)].soak = .declare 3000 ∧ s.alarms.points[(5 : PointId)].declared = false
     ∧ inService s 5 = true ∧ rawDefect s 5 = true ∧ s.alarms.profile[profileIndex 5].severity (pointGrade s 5) ≠ .none)
    ∧ (let s := pointed { Point.reset 5 with declared := true, soak := .clear 3000 } false
       s.alarms.points[(5 : PointId)].soak = .clear 3000 ∧ s.alarms.points[(5 : PointId)].declared = true
       ∧ inService s 5 = true ∧ rawDefect s 5 = false)
    ∧ (∀ d, base.alarms.points[(5 : PointId)].soak ≠ .declare d) ∧ ∀ d, base.alarms.points[(5 : PointId)].soak ≠ .clear d := by
  have idle : base.alarms.points[(5 : PointId)].soak = .stopped := by decide +kernel
  refine ⟨by decide +kernel, by decide +kernel, fun d => ?_, fun d => ?_⟩ <;> rw [idle] <;> exact fun h => nomatch h

/-- R142 to R144, R148: a point at the end of an event, out of service, not declared and declared, its defect as it was or changed, its
severity NONE or not, its soak 0 or not. -/
theorem witness_EventEndsInAlarmsAndNotices :
    let bare := fun (e : ProfileEntry) (s : State) => { s with alarms := { s.alarms with profile := s.alarms.profile.set (profileIndex 5) e } }
    let sev := fun s : State => s.alarms.profile[profileIndex 5].severity (pointGrade s 5)
    let up := Point.reset 5
    let down := { Point.reset 5 with declared := true, severity := .critical, acknowledged := true }
    let real : ProfileEntry := ⟨.critical, .critical, 0, 0⟩
    portPoint 0 5 = 5 ∧ (inService (pointed up true) 4 = false ∧ inService (pointed up true) 5 = true)
    ∧ (sev (bare ⟨.none, .none, 0, 0⟩ (pointed up true)) = .none ∧ sev (pointed up true) ≠ .none)
    ∧ (rawDefect (pointed up true) 5 = true ∧ rawDefect (pointed up false) 5 = false)
    ∧ (up.raw = false ∧ up.declared = false ∧ { up with raw := true, severity := .critical }.severity ≠ .none)
    ∧ (down.declared = true ∧ down.raw = false ∧ { down with raw := true }.raw = true)
    ∧ ((bare real (pointed up true)).alarms.profile[profileIndex 5].declareSoak = 0
        ∧ (bare real (pointed up true)).alarms.profile[profileIndex 5].clearSoak = 0
        ∧ (pointed up true).alarms.profile[profileIndex 5].declareSoak ≠ 0
        ∧ (pointed up true).alarms.profile[profileIndex 5].clearSoak ≠ 0) := by decide +kernel

/-- R142, R143: LOST-LIGHT present starts the declare soak of its profile, and declares at once where that is 0. -/
theorem test_point_soaks :
    (finish .none (pointed (.reset 5) true)).alarms.points[(5 : PointId)].soak
        = .declare ((pointed (.reset 5) true).now + (pointed (.reset 5) true).alarms.profile[profileIndex 5].declareSoak * 1000) := by
  decide +kernel

theorem witness_CutOffAcknowledgesDeclaredPoints :
    (MasterReady .a base ∧ 20 ≤ 20 ∧ 19 < 20) ∧ base.alarms.acoPin = ⟨0, 0⟩
    ∧ (let pins : List AcoPin := [⟨20, 5⟩, ⟨15, 0⟩, ⟨20, 20⟩]
       pins.map (fun pin => (decide (pin.low ≠ 0), decide (20 ≤ pin.high + 5), decide (20 ≤ pin.low)))
         = [(true, true, false), (false, true, false), (true, true, true)]) := ⟨⟨base_ready.1, by decide, by decide⟩, rfl, by decide⟩

/-- R156: whether a run of ACO_PRESS rows acknowledges the points. -/
def presses (rows : List (Nat × Nat)) (s : State) : Bool :=
  let t := rows.foldl (fun s x => match exec (.acoPress x.1 x.2) s with
    | .next t => t
    | _ => s) s
  t.alarms.points[(316 : PointId)].acknowledged

/-- R156: 20 ms of high and then of low, in one row or two, is a press; a button held through a full reset gives none, nor does a low after
a shorter high, a shorter low, or the low that goes on after its press. -/
theorem test_presses :
    presses [(20, 20)] State.reset = true ∧ presses [(20, 10), (0, 10)] State.reset = true
    ∧ presses [(0, 30)] State.reset = false ∧ presses [(0, 5), (19, 30)] State.reset = false ∧ presses [(20, 19)] State.reset = false
    ∧ (let held := { State.reset with alarms := { State.reset.alarms with acoPin := ⟨20, 20⟩ } }
       presses [(0, 30)] held = false) := by decide +kernel

theorem witness_SetNoticesStoresSettings : MasterReady .a base ∧ Severity.critical ≠ .none ∧ 4 < (5 : Byte).toNat ∧ 1 < (2 : Byte).toNat :=
  ⟨base_ready.1, by decide, by decide, by decide⟩

theorem witness_TransmittersSendRepliesThenNotices :
    ((replied .b 3 1 [0] base).links.linkB.ready = [⟨⟨3, 0x81, [0]⟩, false⟩]
      ∧ ((replied .b 3 1 [0] base).links.link .b).restarting = none)
    ∧ (base.links.master = some .a ∧ { base with notices := { base.notices with queue := [.claimPending] } }.notices.queue = [.claimPending]
      ∧ (base.links.link .a).ready = [] ∧ (base.links.link .a).restarting = none)
    ∧ (let x := base.links.modLink .a fun k => { k with sending := some (⟨9, 0x86, [0]⟩, 5000) }
       (x.link .a).sending = some (⟨9, 0x86, [0]⟩, 5000) ∧ x.master = some .a)
    ∧ (base.links.link .b).sending = none
    ∧ ((replied .a 3 1 [0] base).links.master = some .a ∧ ((replied .a 3 1 [0] base).links.link .a).ready ≠ [])
    ∧ (State.reset.links.link .a).role ≠ .master ∧ (State.reset.links.link .b).role ≠ .master := by decide +kernel

theorem witness_ReceiversDiscardBadFrames :
    ((State.reset.links.link .a).rx.chars = .search 0 ∧ (State.reset.links.link .a).rx.zeros ≤ 239
      ∧ (State.reset.links.link .a).rx.state = .breakHunt ∧ (base.links.link .a).rx.state = .awaitLen)
    ∧ ((samplesOf 4 true).length = 116 ∧ sampleAt (samplesOf 4 true) 1 = false ∧ startVerified (samplesOf 4 true) = true
        ∧ characterFraming (samplesOf 4 true) = false ∧ characterFraming (samplesOf 4 false) = true
        ∧ 4 ≤ (characterByte (samplesOf 4 true)).toNat ∧ (characterByte (samplesOf 3 true)).toNat < 4)
    ∧ (let rx : LinkRx := ⟨.inFrame, [4, 7], .search 3, 0, 0⟩
       rx.state = .inFrame ∧ (rx.assembly ++ [0x01]).length ≤ (byteAt (rx.assembly ++ [0x01]) 0).toNat)
    ∧ (crcFits [4, 7, 1, 0, 0] = false ∧ crcFits (⟨7, 1, []⟩ : Frame).bytes = true
        ∧ (byteAt (⟨7, 1, []⟩ : Frame).bytes 0).toNat < (⟨7, 1, []⟩ : Frame).bytes.length)
    ∧ ((takenRequest (.claim .a 7 [])).isSome ∧ (0x7F : Byte) ∉ requestKinds) := by decide +kernel

def aBreak : List Bool := List.replicate 240 false ++ [true]

/-- R168, R169: the last character of a CLAIM frame completes it, and the frame is taken as the request it is. -/
theorem test_frame_taken_from_samples :
    (let frame := (⟨7, 2, []⟩ : Frame).bytes
     let s : State := { State.reset with links := State.reset.links.modLink .a fun k =>
       { k with rx := ⟨.inFrame, frame.take 4, .search 3, 0, 0⟩ } }
     match exec (.frameCrcError .a (samplesOf (byteAt frame 4).toNat true)) s with
     | .next t => some ((t.links.link .a).role, (t.links.link .a).ready.map (·.frame.kind), (t.links.link .a).rx.state)
     | _ => none) = some (.master, [0x82], .breakHunt) := by decide +kernel

/-- R167, R179: RESTART discards the frame in progress, and a break under way at that moment goes on. -/
theorem test_break_over_restart :
    (let s : State := { base with links := base.links.modLink .a fun k =>
       { k with rx := ⟨.inFrame, [9, 7], .search 0, 0, 200⟩, sending := some (⟨9, 0x86, [0]⟩, 5000) } }
     match exec (.restartTakesEffect .a) s with
     | .next t => some ((t.links.link .a).rx.assembly, match exec (.linkBreak ⟨.a, List.replicate 40 false ++ [true]⟩) t with
       | .next u => some (u.links.link .a).rx.state
       | _ => none)
     | _ => none) = some ([], some .awaitLen) := by decide +kernel

/-- R65: a group with an external MANUAL whose member is selected, one with a TRIAL, and one that stands. -/
theorem witness_MasterlessGroups :
    (let grp := { Group.new (cfg1 .single) with state := .switched, external := some ⟨.manual, 1⟩ }
     let s := ganged grp 1 0
     s.sw.groups[(0 : GroupId)] = some grp ∧ s.sw.selected grp = some 1 ∧ grp.cfg.revertive = false
     ∧ (({ grp with external := none } : Group).locals s.swEnv).any (·.outranks ⟨.hold, 1⟩) = false)
    ∧ (let grp := { Group.new (cfg1 .dual) with external := some ⟨.trial, 1⟩, trialTimer := some 2001000 }
       (ganged grp 0 0).sw.groups[(0 : GroupId)] = some grp ∧ grp.stay = none)
    ∧ (let grp := { Group.new (cfg1 .dual) with external := some ⟨.force, 1⟩ }
       (ganged grp 0 0).sw.groups[(0 : GroupId)].all (fun grp => !grp.hasTemporary) = true) := by decide +kernel

/-- R65: with the RELEASE of the only master a TRIAL ends ABANDONED, and a MANUAL whose member is selected leaves HOLD. -/
theorem test_release_ends_temporary_requests :
    (let left := fun (grp : Group) (sel : Nat) => match exec (.release .a 1 []) (ganged grp sel 0) with
       | .next t => t.sw.groups[(0 : GroupId)].map fun x => (x.external, x.stay, x.trialResult, x.trialTimer)
       | _ => none
     left { Group.new (cfg1 .dual) with external := some ⟨.trial, 1⟩, trialTimer := some 2001000 } 0
       = some (none, none, .abandoned, none)
     ∧ left { Group.new (cfg1 .single) with state := .switched, external := some ⟨.manual, 1⟩ } 1
       = some (none, some ⟨.hold, 1⟩, .none, none)) := by decide +kernel

theorem witness_MastershipIsClaimedAndReleased :
    (FreeLink .a base ∧ (base.links.link .a).role = .master ∧ (base.links.link (otherLink .a)).role ≠ .claimant)
    ∧ (FreeLink .b base ∧ (base.links.link .b).role = .observer ∧ (base.links.link (otherLink .b)).role = .master)
    ∧ (let s := { State.reset with links := State.reset.links.modLink .a awaiting }
       FreeLink .a s ∧ (s.links.link .a).role = .observer ∧ (s.links.link (otherLink .a)).role ≠ .master)
    ∧ (let x := base.links.modLink .b fun k => { k with role := .claimant }
       (x.link .b).role = .claimant ∧ (x.link .a).role = .master ∧ (x.link .a).outstanding = none ∧ (x.link .b).outstanding = none) := by
  refine ⟨⟨base_ready.1.1, rfl, by decide⟩, ⟨base_ready.2, rfl, rfl⟩, ⟨⟨rfl, rfl⟩, rfl, by decide⟩, rfl, rfl, rfl, rfl⟩

theorem witness_LinkWatchCountsLapses :
    (FreeLink .a base ∧ (base.links.link .a).role = .master ∧ base.links.mode = .plain
      ∧ base.links.periodTimer = some ⟨1001000, 1000000⟩ ∧ base.links.master = some .a)
    ∧ (base.links.challenge ≠ some (~~~ (0xA4 : Byte)) ∧ base.links.challenge = some (~~~ (0xA5 : Byte)))
    ∧ ((base.now - base.links.earlyStart) * 2 < 1000000 ∧ ¬ (501000 - base.links.earlyStart) * 2 < 1000000)
    ∧ (2 < (3 : Byte).toNat ∧ WatchMode.ofCode 2 = some .challenge)
    ∧ ((base.links.modLink .b fun k => { k with role := .claimant }).link (otherLink .a)).role = .claimant
    ∧ (base.links.link (otherLink .a)).role ≠ .claimant := by
  refine ⟨⟨base_ready.1.1, ?_⟩, ?_⟩ <;> decide +kernel

theorem witness_RestartClearsLinks :
    MasterReady .a base
    ∧ (let x := base.links.modLink .a fun k => { k with sending := some (⟨9, 0x86, [0]⟩, 5000) }
       (x.link .a).sending = some (⟨9, 0x86, [0]⟩, 5000))
    ∧ (∃ t : CableTest, (testing .done .compare 0).cableTest = some t ∧ (testing .done .compare 0).ports[t.outPort].cfg.enabled = true
      ∧ (testing .done .compare 0).ports[t.inPort].cfg.enabled = true)
    ∧ (let grp := { Group.new cfgN with external := some ⟨.manual, 1⟩ }
       let s := queued [{ Op.new .protection (.move 10 1) 0 with inFlight := true }, .new .protection (.move 12 1) 1] (ganged grp 0 0)
       (s.sw.queue.map (·.group)).Nodup ∧ s.sw.groups[(0 : GroupId)] = some grp ∧ grp.hasTemporary = true
       ∧ s.sw.groups[(1 : GroupId)] = none)
    ∧ (let s := referred 2 { healthy 2 with binding := .member 0 1, source := some 6 } (ganged (.new cfgN) 0 0)
       s.timing.refs[(2 : RefId)].source = derivedSource s.sw (.member 0 1)) := by
  refine ⟨base_ready.1, by decide +kernel, ⟨_, rfl, by decide +kernel⟩, by decide +kernel, by decide +kernel⟩

/-! ### Witnesses: the laws every step keeps -/

/-- A master, two ports in service, a group of them with an operation queued, a cable test not running; the tick comes next. -/
def busy : State := { queued [.new .adopt (.read 10 (some 11)) 0] (ganged (.new cfgN) 0 1) with pending := [.secondsTick] }

theorem busy_steps : ∃ t, step busy = .next t := ⟨_, rfl⟩

theorem busy_ports (p : PortId) : busy.ports[p] = .disabled .reset ∨ busy.ports[p] = live := by
  revert p; decide +kernel

theorem witness_StepKeepsPortLaws : PortsInv busy ∧ ∃ t, step busy = .next t := by
  refine ⟨⟨fun p => ?_, fun c h => by cases h⟩, busy_steps⟩
  rcases busy_ports p with h | h <;> rw [h] <;> constructor <;> decide +kernel

theorem witness_StepKeepsMembershipLaws : MembershipInv busy ∧ ∃ t, step busy = .next t := by
  have one : ∀ g : GroupId, ∀ grp, busy.sw.groups[g] = some grp → g = 0 ∧ grp = .new cfgN := by
    intro g grp h
    have : ∀ g : GroupId, g = 0 ∨ busy.sw.groups[g] = none := by decide +kernel
    rcases this g with rfl | hn
    · exact ⟨rfl, by cases h; rfl⟩
    · rw [hn] at h; cases h
  refine ⟨⟨?_, ?_, by decide +kernel, ?_, ?_⟩, busy_steps⟩
  · intro g grp h
    obtain ⟨rfl, rfl⟩ := one g grp h
    decide +kernel
  · intro g h x y ne hx hy
    exact absurd ((one g x hx).1.trans (one h y hy).1.symm) ne
  · have : ∀ el ∈ busy.sw.elements, busy.sw.groups[el.group] = some (.new cfgN) ∧ el.address ∈ (Group.new cfgN).cfg.addresses := by
      decide +kernel
    exact fun el h => ⟨_, this el h⟩
  · intro g grp h
    obtain ⟨rfl, rfl⟩ := one g grp h
    decide +kernel

theorem witness_StepKeepsMembershipLaws_queue : QueueInv busy.sw ∧ ∃ t, step busy = .next t := by
  refine ⟨⟨by decide +kernel, ?_, by decide +kernel, by decide +kernel, by decide +kernel, fun _ => rfl⟩, busy_steps⟩
  intro op h
  have : op = .new .adopt (.read 10 (some 11)) 0 := by simpa [busy, queued] using h
  exact ⟨.new cfgN, by rw [this]; decide +kernel⟩

theorem witness_StepKeepsTimingLaws : TimingInv busy.timing ∧ ∃ t, step busy = .next t := by
  refine ⟨⟨fun r => ?_, ?_, ?_, ?_, ?_, ?_, ?_, ?_, ?_, ?_, ?_⟩, busy_steps⟩
  case refine_1 =>
    have : ∀ r : RefId, busy.timing.refs[r] = Ref.reset r := by decide +kernel
    rw [this r]; exact ⟨Nat.zero_le _, fun v h => (nomatch h), rfl⟩
  all_goals first | (unfold steerable; decide +kernel) | decide +kernel

theorem witness_StepKeepsAlarmLaws : AlarmsInv busy.alarms ∧ ∃ t, step busy = .next t := by
  have pts : ∀ k : PointId, ((busy.alarms.points[k].isDeclareSoak = true →
        busy.alarms.points[k].declared = false ∧ busy.alarms.points[k].raw = true)
      ∧ (busy.alarms.points[k].isClearSoak = true → busy.alarms.points[k].declared = true ∧ busy.alarms.points[k].raw = false))
      ∧ (busy.alarms.points[k].declared = true → busy.alarms.points[k].severity ≠ .none)
      ∧ (busy.alarms.points[k].acknowledged = true → busy.alarms.points[k].declared = true) := by decide +kernel
  exact ⟨⟨fun k => ⟨(pts k).1.1, (pts k).1.2, (pts k).2.1, (pts k).2.2⟩, by decide +kernel, by decide +kernel, by decide +kernel⟩,
    busy_steps⟩

theorem witness_StepKeepsMastershipLaws : MastershipInv busy.links ∧ ∃ t, step busy = .next t := by
  refine ⟨⟨?_, ?_, ?_, ?_, ?_, ?_, ?_, ?_⟩, busy_steps⟩
  case refine_2 => intro l; cases l <;> decide +kernel
  all_goals decide +kernel

theorem witness_StepKeepsRequestAndNoticeLaws : RequestsInv (testing .done .compare 0) ∧ NoticesInv (testing .done .compare 0)
    ∧ ∃ t, step { testing .done .compare 0 with pending := [.noPath] } = .next t := by
  refine ⟨⟨?_, ?_, ?_⟩, ⟨by decide +kernel, by unfold Quiet; decide +kernel⟩, _, rfl⟩
  · intro l; cases l <;> constructor <;> decide +kernel
  · intro l o h f
    cases l
    · cases h; exact .inr ⟨rfl, _, rfl, rfl⟩
    · cases h
  · intro t h; cases h; exact ⟨_, rfl⟩

/-! ### Steps of the operating sequences (chapter 11) -/

/-- The state a command leads to (the same state where it stops, which it never does). -/
def after (c : Instr) (s : State) : State :=
  match exec c s with
  | .next t => t
  | _ => s

/-- 11.1, step 1: the first CLAIM opens SHF and makes the link MASTER. -/
theorem test_first_claim_opens_shf :
    (let t := after (.claim .a 1 []) (after (.linkBreak ⟨.a, aBreak⟩) State.reset)
     t.links.shf = false ∧ t.links.linkA.role = .master) := by
  decide +kernel

/-- 11.2, step 2: a RELEASE hands over to the claimant and leaves the lapse count. -/
theorem test_release_hands_over :
    (let t := after (.release .a 1 []) (after (.claim .b 1 []) base)
     t.links.linkA.role = .observer ∧ t.links.linkB.role = .master ∧ t.links.lapses = 0) := by decide +kernel

/-- 11.3 before the cut: group 2 idle on ports 4 to 7, LR1 selected through its member 2, OCA qualified with average +1,300. -/
def ducts : State :=
  let cfg : GroupConfig := ⟨.oneForN, .dual, 4, [5, 6, 7], true, 0, 300, 10, some 11⟩
  let refs := (base.timing.refs.set 0 { healthy 0 with average := some 1300 }).set 3
    { healthy 3 with average := some 1250, received := 4, source := some 6, binding := .member 2 2 }
  { base with
    ports := ((((base.ports.set 4 live).set 5 live).set 6 live).set 7 live)
    conversion := some ⟨6, true, 1250⟩
    sw := { Switching.reset with
      groups := Switching.reset.groups.set 2 (some (.new cfg))
      elements := (cfg.elements 2).map fun el => { el with known := some 0, lastSettled := some 0 } }
    timing := { base.timing with
      refs := refs, selected := some 3, refout := some 3, state := .locked, ready := true, lockedUpdates := 16
      history := [1250, 1250, 1250, 1250], word := 1250, codes := (Vector.replicate 32 4).set 6 15 } }

theorem witness_StepKeepsTimingLaws_selection : SelectionInv ducts.ports ducts.timing := by
  refine ⟨?_, ?_, ?_, ?_, ?_⟩
  · intro r h; cases h; decide +kernel
  · intro r h _; cases h; exact ⟨6, by decide +kernel⟩
  · intro r p h _; cases h; revert p; decide +kernel
  · intro p h; cases h
  · intro p h; cases h

/-- 11.3 at 0 ms, the group: FAIL(2) is L and E, T is 2, and the bridge move to 2 is queued in BRIDGING. -/
theorem test_duct_cut_bridges :
    (let t := after (.conversionEnd 0) ducts
     (t.sw.groups[(2 : GroupId)].map fun grp => (grp.state, grp.local_, grp.effective, grp.target))
         = some (.bridging, ⟨.fail, 2⟩, ⟨.fail, 2⟩, 2)
       ∧ t.sw.queue = [.new .protection (.move 11 2) 2]) := by decide +kernel

/-- 11.3 at 0 ms, the timing unit: OCA is selected, the word steps to 1,300, and every port is given 6. -/
theorem test_duct_cut_reselects :
    (let t := after (.conversionEnd 0) ducts
     (t.timing.selected, t.timing.state, t.timing.word) = (some 0, .acquiring, 1300)
       ∧ t.timing.refs[(3 : RefId)].state = .unqualified ∧ ∀ p : PortId, t.timing.codes[p] = 6) := by decide +kernel

/-- 11.3 at 20 s: OCA lost with none selectable is HOLDOVER at the oldest history entry, 11 to every port. -/
theorem test_office_feed_lost_holds_over :
    (let t := after (.edgeTimerExpiry 0) { ducts with timing := (after (.conversionEnd 0) ducts).timing }
     (t.timing.selected, t.timing.state, t.timing.holdoverValue, t.timing.word) = (none, .holdover, 1250, 1250)
       ∧ ∀ p : PortId, t.timing.codes[p] = 11) := by decide +kernel

/-- 11.4: with 40 bit times of a message left the out side leads at 5 ms, marks at 7 ms and is done after 64 bits at 15.125 ms. -/
theorem test_cable_test_times :
    (let s := { lit { live with tx := ⟨.message, 1000, 13500, []⟩ } with
       now := 7250, ranges := base.ranges.set 0 ⟨true, .test, 5, 6⟩ }
     (let t := after (.cableTest .a 1 [5, 6, 0, 64, 0]) s
      (t.cableTest.map fun x => (x.outPhase, x.phaseEnds - 7250)) = some (.finish, 5000)
      ∧ ((after .cableTestLead t).cableTest.map fun x => (x.outPhase, x.phaseEnds - 7250)) = some (.lead, 7000)
      ∧ ((after .cableTestMarkerSent (after .cableTestLead t)).cableTest.map fun x => (x.outPhase, x.phaseEnds - 7250))
          = some (.marker, 7125)
      ∧ (after .cableTestSequenceEnd (after .cableTestMarkerSent (after .cableTestMarkerSent (after .cableTestLead t)))).now
          = 7250 + 15125
      ∧ (after .cableTestSequenceEnd (after .cableTestMarkerSent (after .cableTestLead t))).now = 7250 + 15125)) := by
  decide +kernel

end Sys2Proof.Tests
end

section
/-! The shelf identity (R7): it is what SET-SHELF-ID stores and what a message carries, and nothing that reception does reads it. -/

namespace Sys2Proof.Machine

/-! ### The clamped slot and the requests that leave the identity -/

/-- A slot above 63 is clamped to 63 (R7). -/
theorem byteOf_clampSlot (slot : Byte) : byteOf (clampNat 0 63 slot.toNat) = if slot.toNat ≤ 63 then slot else 63 := by
  unfold byteOf clampNat
  split
  · next h => rw [Nat.min_eq_right h, Nat.zero_max, BitVec.ofNat_toNat, BitVec.setWidth_eq]
  · next h => rw [Nat.min_eq_left (by omega)]; rfl

/-- An accepted SET-SHELF-ID (R7). -/
theorem exec_setShelfId_master {l : LinkId} {s : State} (ready : MasterReady l s) (tag shelf slot : Byte) :
    exec (.setShelfId l tag [shelf, slot]) s =
      .next { replied l tag 0x13 [0, shelf, if slot.toNat ≤ 63 then slot else 63] s with
        shelf := shelf, slot := if slot.toNat ≤ 63 then slot else 63 } := by
  obtain ⟨free, master⟩ := ready
  rw [← byteOf_clampSlot]
  show Host.Outcome.next (request l tag 0x13 true true (setShelfId [shelf, slot]) s) = _
  rw [request_handled free (fun _ => master) rfl]
  cases l <;> rfl

/-- What changes of links and the handler keep, a request keeps. -/
theorem request_induct {P : State → Prop} {l : LinkId} {handle : Handler} {s : State} (tag kind : Byte) (fits masterOnly : Bool)
    (h0 : P s) (hl : ∀ f t, P t → P (modLink l f t)) (hh : ∀ t, P t → P (handle t).1) :
    P (request l tag kind fits masterOnly handle s) := by
  unfold request
  split
  · rcases takeRequest_cases l tag kind fits masterOnly handle s with ⟨_, e⟩ | ⟨_, _, e⟩ | ⟨_, _, _, _, e⟩ | ⟨_, _, _, e⟩ <;> rw [e]
    · exact hl _ _ h0
    · exact hl _ _ h0
    · exact hl _ _ h0
    · have handled := hh _ (hl (Link.deferredTo tag kind) s h0)
      split
      · next ht => rw [ht] at handled; exact handled
      · next ht => rw [ht] at handled; exact hl _ _ handled
  · exact h0

/-- The shelf and slot of two states are the same. -/
def SameIdentity (s t : State) : Prop := t.shelf = s.shelf ∧ t.slot = s.slot

/-- RESTART's own request leaves the identity. -/
theorem exec_restart_sameIdentity (l : LinkId) (tag : Byte) (s : State) :
    ∃ t, exec (.restart l tag []) s = .next t ∧ SameIdentity s t :=
  ⟨_, rfl, request_induct (P := SameIdentity s) _ _ _ _ ⟨rfl, rfl⟩
    (fun f t ht => ⟨(modLink_shelf l f t).trans ht.1, (modLink_slot l f t).trans ht.2⟩) fun _ ht => ht⟩

theorem resumeTest_sameIdentity (s : State) : SameIdentity s (resumeTest s) := by
  unfold resumeTest
  split <;> exact ⟨rfl, rfl⟩

/-- The effects of RESTART leave the identity (R7, R179). -/
theorem exec_restartTakesEffect_sameIdentity (l : LinkId) (s : State) :
    ∃ t, exec (.restartTakesEffect l) s = .next t ∧ SameIdentity s t := by
  refine ⟨_, rfl, ?_⟩
  split
  · exact ⟨rfl, rfl⟩
  · next ends _ =>
    constructor
    · rw [finish_shelf, (masterless_keeps _).shelf, (resumeTest_sameIdentity _).1]; simp
    · rw [finish_slot, (masterless_keeps _).slot, (resumeTest_sameIdentity _).2]; simp

/-! ### The message started -/

/-- A message started carries the shelf and slot of that moment in its bytes 1 and 2 (R7, R20). -/
theorem exec_pilotTransmit_identity {p : PortId} {s : State}
    (sends : s.ports[p].tx.phase = .leadIn ∨ s.ports[p].tx.phase = .message) :
    ∃ t, exec (.pilotTransmit p) s = .next t ∧ byteAt t.ports[p].tx.bytes 1 = s.shelf ∧ byteAt t.ports[p].tx.bytes 2 = s.slot := by
  refine ⟨_, rfl, ?_⟩
  rcases sends with h | h <;> rw [h] <;> simp only [upd_get_self] <;> exact ⟨rfl, rfl⟩

/-! ### Reception does not read the identity -/

/-- The part with another shelf and slot. -/
def State.identified (shelf slot : Byte) (s : State) : State := { s with shelf := shelf, slot := slot }

section
variable (shelf slot : Byte) (s : State)

theorem listening_identified (p : PortId) : listening (s.identified shelf slot) p = listening s p := rfl

theorem inSwitch_identified (f : SwEnv → Switching → Switching) :
    inSwitch f (s.identified shelf slot) = (inSwitch f s).identified shelf slot := rfl

theorem tellGroup_identified (p : PortId) (old : Port) :
    tellGroup p old (s.identified shelf slot) = (tellGroup p old s).identified shelf slot := by
  unfold tellGroup
  dsimp only [State.identified]
  split
  · rfl
  · split
    · rfl
    · split <;> rfl

theorem tellTiming_identified (p : PortId) (old : Port) :
    tellTiming p old (s.identified shelf slot) = (tellTiming p old s).identified shelf slot := by
  unfold tellTiming
  dsimp only [State.identified]
  split <;> rfl

theorem setPortTo_identified (p : PortId) (new : Port) :
    setPortTo p new (s.identified shelf slot) = (setPortTo p new s).identified shelf slot := by
  unfold setPortTo
  dsimp only
  rw [← tellTiming_identified, ← tellGroup_identified]
  rfl

theorem portEvent_identified (p : PortId) (f : Port → Port) :
    portEvent p f (s.identified shelf slot) = (portEvent p f s).identified shelf slot := setPortTo_identified _ _ _ _ _

theorem nextPoints_identified (e : Expiry) : nextPoints (s.identified shelf slot) e = nextPoints s e := rfl

theorem takeAlarms_identified (e : Expiry) :
    takeAlarms e (s.identified shelf slot) = (takeAlarms e s).identified shelf slot := by
  unfold takeAlarms
  rw [nextPoints_identified]
  rfl

theorem flush_identified : flush (s.identified shelf slot) = (flush s).identified shelf slot := rfl

theorem finish_identified (e : Expiry) : finish e (s.identified shelf slot) = (finish e s).identified shelf slot := by
  unfold finish
  rw [takeAlarms_identified, flush_identified]
  rfl

theorem pilotSample_identified (p : PortId) (b : Bool) :
    pilotSample p (s.identified shelf slot) b = (pilotSample p s b).identified shelf slot := by
  unfold pilotSample
  dsimp only
  rw [portEvent_identified, finish_identified, apply_ite (State.identified shelf slot)]
  rfl

end

theorem pilotSamples_identified (shelf slot : Byte) (p : PortId) (samples : List Bool) :
    ∀ s : State, pilotSamples p samples (s.identified shelf slot) = (pilotSamples p samples s).identified shelf slot := by
  unfold pilotSamples
  induction samples with
  | nil => exact fun _ => rfl
  | cons b bs ih => intro s; rw [List.foldl_cons, List.foldl_cons, pilotSample_identified, ih]

/-- A whole message does the same whatever the shelf and slot are (R7). -/
theorem exec_pilotMessage_identified (p : PortId) (body : Vector Byte 8) (noise : Bool) (shelf slot : Byte) (s : State) :
    ∃ t, exec (.pilotMessage p body noise) s = .next t
      ∧ exec (.pilotMessage p body noise) (s.identified shelf slot) = .next (t.identified shelf slot) := by
  refine ⟨_, rfl, congrArg Host.Outcome.next ?_⟩
  rw [listening_identified, portEvent_identified, finish_identified]
  exact (apply_ite (State.identified shelf slot) _ _ _).symm

/-- Samples received do the same whatever the shelf and slot are (R7). -/
theorem exec_pilotCharacterTaken_identified (p : PortId) (search samples : List Bool) (shelf slot : Byte) (s : State) :
    ∃ t, exec (.pilotCharacterTaken p search samples) s = .next t
      ∧ exec (.pilotCharacterTaken p search samples) (s.identified shelf slot) = .next (t.identified shelf slot) := by
  refine ⟨_, rfl, congrArg Host.Outcome.next ?_⟩
  rw [listening_identified, pilotSamples_identified]
  exact (apply_ite (State.identified shelf slot) _ _ _).symm

/-! ### R7 -/

/-- Settles O7: SET-SHELF-ID and its refusal, the message started, the two resets, and reception, each by its own lemma. -/
theorem shelfIdStoresClampedSlot : Obligations.ShelfIdStoresClampedSlot := by
  unfold Obligations.ShelfIdStoresClampedSlot
  refine ⟨fun l tag shelf slot s => ⟨fun ready => exec_setShelfId_master ready tag shelf slot, fun free observer => ?_⟩,
    fun p s => exec_pilotTransmit_identity, fun rate s => ⟨_, rfl, rfl, rfl⟩, exec_restartTakesEffect_sameIdentity,
    exec_restart_sameIdentity, fun p body noise search samples shelf slot s i hi => ?_⟩
  · exact congrArg Host.Outcome.next (request_notMaster free observer)
  · rcases List.mem_pair.mp hi with rfl | rfl
    · exact exec_pilotMessage_identified p body noise shelf slot s
    · exact exec_pilotCharacterTaken_identified p search samples shelf slot s

end Sys2Proof.Machine
end

section
/-! The power state and the raw condition of a port, value by value (R33, R37). -/

namespace Sys2Proof.Machine

/-! ### The power state (R33) -/

theorem Port.powerState_eq_lost_iff (p : Port) : p.powerState = .lost ↔ p.lostLatch := by
  unfold Port.powerState
  split_ifs <;> simp_all

theorem Port.powerState_eq_over_iff (p : Port) : p.powerState = .over ↔ ¬ p.lostLatch ∧ p.overLatch := by
  unfold Port.powerState
  split_ifs <;> simp_all

theorem Port.powerState_eq_low_iff (p : Port) : p.powerState = .low ↔ ¬ p.lostLatch ∧ ¬ p.overLatch ∧ p.lowLatch := by
  unfold Port.powerState
  split_ifs <;> simp_all

/-! ### The raw condition (R37) -/

/-- Some row of R37's table gives FAIL, said of the latches, the findings and the option flags. -/
def Port.Fails (p : Port) : Prop :=
  p.lostLatch ∨ ((¬ p.lostLatch ∧ p.overLatch) ∧ p.cfg.overloadFail) ∨ (p.pilotLoss ∧ p.cfg.pilotRequired)
    ∨ (p.traceMismatch ∧ p.cfg.traceFail)

/-- Some row of R37's table gives DEGRADE. -/
def Port.Degrades (p : Port) : Prop :=
  (¬ p.lostLatch ∧ ¬ p.overLatch ∧ p.lowLatch) ∨ p.pilotErrors

section
variable {p : Port}

theorem Port.fails_iff : p.Fails ↔
    p.powerState = .lost ∨ (p.powerState = .over ∧ p.cfg.overloadFail) ∨ (p.pilotLoss ∧ p.cfg.pilotRequired)
      ∨ (p.traceMismatch ∧ p.cfg.traceFail) := by
  rw [powerState_eq_lost_iff, powerState_eq_over_iff, Port.Fails]

theorem Port.degrades_iff : p.Degrades ↔ p.powerState = .low ∨ p.pilotErrors := by
  rw [powerState_eq_low_iff, Port.Degrades]

theorem Port.rawCondition_of_disabled (off : p.cfg.enabled = false) : p.rawCondition = .notInService := by
  unfold Port.rawCondition
  rw [off]
  rfl

theorem Port.rawCondition_of_fails (on : p.cfg.enabled = true) (fails : p.Fails) : p.rawCondition = .fail := by
  unfold Port.rawCondition
  rw [on]
  exact if_pos (fails_iff.mp fails)

theorem Port.rawCondition_of_degrades (on : p.cfg.enabled = true) (fails : ¬ p.Fails) (degrades : p.Degrades) :
    p.rawCondition = .degrade := by
  unfold Port.rawCondition
  rw [on]
  exact (if_neg (fails_iff.not.mp fails)).trans (if_pos (degrades_iff.mp degrades))

theorem Port.rawCondition_of_clear (on : p.cfg.enabled = true) (fails : ¬ p.Fails) (degrades : ¬ p.Degrades) :
    p.rawCondition = .ok := by
  unfold Port.rawCondition
  rw [on]
  exact (if_neg (fails_iff.not.mp fails)).trans (if_neg (degrades_iff.not.mp degrades))

end

/-- Settles O21: a disabled port, then the rows of R37's table in their order; each case names the one condition it gives. -/
theorem rawConditionFollowsFindings : Obligations.RawConditionFollowsFindings := by
  unfold Obligations.RawConditionFollowsFindings
  intro p
  change (p.rawCondition = .notInService ↔ p.cfg.enabled = false)
    ∧ (p.rawCondition = .fail ↔ p.cfg.enabled = true ∧ p.Fails)
    ∧ (p.rawCondition = .degrade ↔ p.cfg.enabled = true ∧ ¬ p.Fails ∧ p.Degrades)
    ∧ (p.rawCondition = .ok ↔ p.cfg.enabled = true ∧ ¬ p.Fails ∧ ¬ p.Degrades)
  cases on : p.cfg.enabled with
  | false => simp [Port.rawCondition_of_disabled on]
  | true =>
    by_cases fails : p.Fails
    · simp [Port.rawCondition_of_fails on fails, fails]
    · by_cases degrades : p.Degrades
      · simp [Port.rawCondition_of_degrades on fails degrades, fails, degrades]
      · simp [Port.rawCondition_of_clear on fails degrades, fails, degrades]

end Sys2Proof.Machine
end

section
/-! Every step keeps the port laws (R27, R28, R35, R37 to R40, R42): each change of a step keeps them. -/

namespace Sys2Proof.Machine

/-! ### A law that every change keeps -/

/-- A law that every change keeps, and that reads neither the queue of commands nor the clock, is kept by every step. -/
theorem step_keeps {P : State → Prop} (change : ∀ s t, Change s t → P s → P t)
    (pending : ∀ (s : State) q, P s → P { s with pending := q }) {s t : State} (h : P s) (e : step s = .next t) : P t := by
  unfold step at e
  split at e
  · cases e; exact change _ _ (.clock s _) h
  · next c rest _ =>
    obtain ⟨u, hu, run⟩ := exec_run c { s with pending := rest }
    rw [hu] at e
    cases e
    exact run.induct change (pending s rest h)

/-! ### One port -/

/-- An enabled port as an event finds it before its raw condition is re-evaluated (R38): all of `PortInv` but the raw condition. -/
structure PortHeld (p : Port) : Prop where
  record : RecordOk p.cfg
  enabled : p.cfg.enabled = true
  reported : p.holdTimer = none → p.reported = p.raw
  held : p.holdTimer.isSome → p.reported.rank < p.raw.rank
  window : p.buckets.length = 10
  power : ∀ x, p.ps = some x → -6000 ≤ x ∧ x ≤ 1500

theorem PortInv.record {p : Port} (h : PortInv p) : RecordOk p.cfg := ⟨h.thresholds, h.persistence⟩

theorem PortInv.portHeld {p : Port} (h : PortInv p) (on : p.cfg.enabled = true) : PortHeld p :=
  ⟨h.record, on, h.reported, h.held, h.window, h.power⟩

theorem PortHeld.portInv {p : Port} (h : PortHeld p) (raw : p.raw = p.rawCondition) : PortInv p where
  thresholds := h.record.thresholds
  persistence := h.record.persistence
  disabled off := absurd (h.enabled.symm.trans off) Bool.noConfusion
  raw := raw
  reported := h.reported
  held := h.held
  window := h.window
  power := h.power

theorem PortInv.of_disabled {cfg : PortRecord} (ok : RecordOk cfg) (off : cfg.enabled = false) : PortInv (.disabled cfg) where
  thresholds := ok.thresholds
  persistence := ok.persistence
  disabled _ := rfl
  raw := by unfold Port.rawCondition; simp [Port.disabled, off]
  reported _ := rfl
  held := nofun
  window := rfl
  power := nofun

theorem PortInv.enabled_of_holdTimer {p : Port} (h : PortInv p) {due : Nat} (e : p.holdTimer = some due) : p.cfg.enabled = true := by
  by_contra off
  rw [h.disabled (Bool.eq_false_iff.mpr off)] at e
  cases e

theorem PortInv.enabled_of_lossTimer {p : Port} (h : PortInv p) (e : p.lossTimer.isSome) : p.cfg.enabled = true := by
  by_contra off
  rw [h.disabled (Bool.eq_false_iff.mpr off)] at e
  cases e

theorem PortInv.startService {cfg : PortRecord} (now : Nat) (ok : RecordOk cfg) (on : cfg.enabled = true) :
    PortInv (.startService now cfg) :=
  PortHeld.portInv ⟨ok, on, fun _ => rfl, nofun, rfl, nofun⟩ (by
    unfold Port.rawCondition
    simp [Port.startService, Port.disabled, Port.powerState, on])

/-- A changed raw condition, taken by the hold-off, leaves the port's laws (R40). -/
theorem PortHeld.holdOffTake {p : Port} (h : PortHeld p) (eff now : Nat) :
    PortHeld (({ p with raw := p.rawCondition } : Port).holdOffTake eff now) := by
  unfold Port.holdOffTake
  split
  · next worse =>
    split
    · next runs =>
      exact ⟨h.record, h.enabled, fun e => absurd (e ▸ runs) Bool.noConfusion, fun _ => worse, h.window, h.power⟩
    · next stopped =>
      split
      · exact ⟨h.record, h.enabled, fun _ => rfl, fun e => absurd e stopped, h.window, h.power⟩
      · exact ⟨h.record, h.enabled, nofun, fun _ => worse, h.window, h.power⟩
  · exact ⟨h.record, h.enabled, fun _ => rfl, nofun, h.window, h.power⟩

/-- After its raw condition has been re-evaluated, an enabled port meets its laws (R37 to R40). -/
theorem PortHeld.settle {p : Port} (h : PortHeld p) (eff now : Nat) : PortInv (p.settle eff now) := by
  by_cases same : p.rawCondition = p.raw
  · rw [Port.settle, if_pos same]
    exact h.portInv same.symm
  · have raw : (p.settle eff now).raw = (p.settle eff now).rawCondition :=
      (p.settle_raw eff now).trans (by rw [Port.settle_keeps]; rfl)
    rw [Port.settle, if_neg same] at raw ⊢
    exact (h.holdOffTake eff now).portInv raw

theorem PortInv.settle {p : Port} (h : PortInv p) (eff now : Nat) : PortInv (p.settle eff now) := by
  rw [Port.settle, if_pos h.raw.symm]
  exact h

theorem PortHeld.step {p : Port} (h : PortHeld p) {f : Port → Port} (hf : PortStep f) : PortHeld (f p) where
  record := hf.record p h.record
  enabled := hf.enabled p h.enabled
  reported e := by rw [hf.reported, hf.raw]; exact h.reported (hf.holdTimer p ▸ e)
  held e := by rw [hf.reported, hf.raw]; exact h.held (hf.holdTimer p ▸ e)
  window := hf.window p h.window
  power x e := h.power x (hf.ps p ▸ e)

theorem clampInt_bounds {lo hi : Int} (h : lo ≤ hi) (x : Int) : lo ≤ clampInt lo hi x ∧ clampInt lo hi x ≤ hi :=
  ⟨le_max_left _ _, max_le h (min_le_left _ _)⟩

/-- One step of the smoothing stays between Ps and the power (R29). -/
theorem smoothed_between {lo hi x y : Int} (hx : lo ≤ x ∧ x ≤ hi) (hy : lo ≤ y ∧ y ≤ hi) :
    lo ≤ x + roundedDiv (y - x) 8 ∧ x + roundedDiv (y - x) 8 ≤ hi := by
  unfold roundedDiv
  rcases Int.lt_trichotomy (y - x) 0 with d | d | d
  · rw [Int.sign_eq_neg_one_of_neg d]; omega
  · rw [d]; simpa using hx
  · rw [Int.sign_eq_one_of_pos d]; omega

/-- Ps stays in the range of the power (R28, R29). -/
theorem PortHeld.convert {p : Port} (h : PortHeld p) (code : Nat) : PortHeld (p.convert code) := by
  refine ⟨h.record, h.enabled, h.reported, h.held, h.window, fun x e => ?_⟩
  have pw := clampInt_bounds (lo := -6000) (hi := 1500) (by decide) (p.cfg.icpt + (((code * p.cfg.slope + 128) / 256 : Nat) : Int))
  change -6000 ≤ p.powerOf code ∧ p.powerOf code ≤ 1500 at pw
  cases e
  split
  · exact pw
  · next old e =>
    have smooth := smoothed_between (h.power old e) pw
    split_ifs <;> assumption

theorem PortInv.holdOffExpire {p : Port} (h : PortInv p) {due : Nat} (e : p.holdTimer = some due) : PortInv p.holdOffExpire :=
  PortHeld.portInv ⟨h.record, h.enabled_of_holdTimer e, fun _ => rfl, nofun, h.window, h.power⟩ h.raw

theorem PortInv.service {p : Port} (h : PortInv p) {f : Port → Port} (hf : ServiceOnly f) : PortInv (f p) := by
  cases on : p.cfg.enabled with
  | false => rw [hf.disabled p on (h.disabled on)]; exact h
  | true =>
    obtain ⟨hc, hr, hk, hp, ht, hb, hs⟩ := hf.keeps p
    refine PortHeld.portInv ⟨hc ▸ h.record, by rw [hc, on], ?_, ?_, hb ▸ h.window, hs ▸ h.power⟩ (hr.trans (h.raw.trans hk.symm))
    · rw [ht, hp, hr]; exact h.reported
    · rw [ht, hp, hr]; exact h.held

theorem PortHeld.tick {p : Port} (h : PortHeld p) : PortHeld p.tick :=
  ⟨by rw [Port.tick_cfg]; exact h.record, by rw [Port.tick_cfg]; exact h.enabled,
    by simpa using h.reported, by simpa using h.held, by simp [Port.tick, h.window], by simpa using h.power⟩

theorem PortInv.redefine {p : Port} (h : PortInv p) (off : p.cfg.enabled = false) {cfg : PortRecord} (ok : RecordOk cfg)
    (off' : cfg.enabled = false) : PortInv { p with cfg := cfg } := by
  have e : ({ p with cfg := cfg } : Port) = .disabled cfg := by rw [h.disabled off]; rfl
  rw [e]
  exact .of_disabled ok off'

/-! ### All ports -/

theorem PortsInv.of_eq {s t : State} (h : PortsInv s) (ports : t.ports = s.ports) (scan : t.conversion = s.conversion) :
    PortsInv t :=
  ⟨ports ▸ h.ports, ports ▸ scan ▸ h.scan⟩

/-- The laws after one port has been replaced. -/
theorem PortsInv.replace {s t : State} (h : PortsInv s) {p : PortId} {new : Port} (inv : PortInv new)
    (on : s.ports[p].cfg.enabled = true → new.cfg.enabled = true) (ports : t.ports = s.ports.set p new)
    (scan : t.conversion = s.conversion) : PortsInv t where
  ports q := by
    rw [ports, set_get]
    split
    · exact inv
    · exact h.ports q
  scan c hc hu := by
    have old := h.scan c (scan ▸ hc) hu
    rw [ports, set_get]
    split
    · next e => subst e; exact on old
    · exact old

theorem setPortTo_conversion (p : PortId) (new : Port) (s : State) : (setPortTo p new s).conversion = s.conversion :=
  (setPortTo_keeps p new s).conversion

theorem PortsInv.setPortTo {s : State} (h : PortsInv s) {p : PortId} {new : Port} (inv : PortInv new)
    (on : s.ports[p].cfg.enabled = true → new.cfg.enabled = true) : PortsInv (setPortTo p new s) :=
  h.replace inv on (setPortTo_ports p new s) (setPortTo_conversion p new s)

/-- An event at an enabled port keeps the laws (R38). -/
theorem PortsInv.portEvent {s : State} (h : PortsInv s) {p : PortId} {f : Port → Port} (held : PortHeld (f s.ports[p])) :
    PortsInv (portEvent p f s) := by
  obtain ⟨eff, e⟩ := portEvent_eq p f s
  rw [e]
  exact h.setPortTo (held.settle eff s.now) fun _ => by rw [Port.settle_cfg]; exact held.enabled

theorem PortsInv.service {s : State} (h : PortsInv s) (p : PortId) {f : Port → Port} (hf : ServiceOnly f) :
    PortsInv { s with ports := upd s.ports p f } :=
  h.replace ((h.ports p).service hf) (fun on => by rw [(hf.keeps _).1]; exact on) rfl rfl

theorem PortsInv.enable {s : State} (h : PortsInv s) (p : PortId) {cfg : PortRecord} (on : cfg.enabled = true) (ok : RecordOk cfg) :
    PortsInv (scanEnabled p (Machine.setPortTo p (Port.startService s.now cfg) s)) := by
  have told := h.setPortTo (p := p) (.startService s.now ok on) fun _ => on
  unfold scanEnabled
  split
  · refine ⟨told.ports, fun c e _ => ?_⟩
    cases e
    rw [setPortTo_ports, set_get_self]
    exact on
  · exact told

theorem PortsInv.disable {s : State} (h : PortsInv s) (p : PortId) {cfg : PortRecord} (off : cfg.enabled = false) (ok : RecordOk cfg) :
    PortsInv (scanDisabled p (Machine.setPortTo p (Port.disabled cfg) s)) where
  ports q := by
    rw [scanDisabled_ports, setPortTo_ports, set_get]
    split
    · exact .of_disabled ok off
    · exact h.ports q
  scan c hc hu := by
    rw [scanDisabled, Option.map_eq_some_iff] at hc
    obtain ⟨k, hk, e⟩ := hc
    rw [setPortTo_conversion] at hk
    split at e
    · subst e; cases hu
    · next other =>
      subst e
      rw [scanDisabled_ports, setPortTo_ports, set_get_other _ other]
      exact h.scan k hk hu

/-! ### The tick of the seconds clock (R35, R36) -/

/-- The ports while a tick takes them in turn: those still to come may hold a raw condition that their findings no longer give. -/
structure TurnInv (left : List PortId) (s : State) : Prop where
  ports : ∀ p : PortId, PortInv s.ports[p] ∨ (p ∈ left ∧ PortHeld s.ports[p])
  scan : ∀ c, s.conversion = some c → c.used = true → s.ports[c.port].cfg.enabled = true

theorem TurnInv.next {p : PortId} {left : List PortId} {s : State} (h : TurnInv (p :: left) s) :
    TurnInv left (Machine.portEvent p id s) where
  ports q := by
    by_cases e : q = p
    · subst e
      obtain ⟨eff, e⟩ := portEvent_self q id s
      rw [e]
      rcases h.ports q with inv | ⟨_, held⟩
      · exact .inl (inv.settle eff s.now)
      · exact .inl (held.settle eff s.now)
    · rw [portEvent_other e]
      rcases h.ports q with inv | ⟨mem, held⟩
      · exact .inl inv
      · exact .inr ⟨List.mem_of_ne_of_mem e mem, held⟩
  scan c hc hu := by
    rw [(portEvent_keeps p id s).conversion] at hc
    have old := h.scan c hc hu
    by_cases e : c.port = p
    · subst e
      obtain ⟨eff, e⟩ := portEvent_self c.port id s
      rw [e, Port.settle_cfg]
      exact old
    · rw [portEvent_other e]
      exact old

theorem TurnInv.turn {left : List PortId} {s : State} (h : TurnInv left s) : PortsInv (portsInTurn left s) := by
  have all : ∀ (xs : List PortId) (t : State), TurnInv xs t → PortsInv (xs.foldl (fun s p => Machine.portEvent p id s) t) := by
    intro xs
    induction xs with
    | nil => exact fun t ht => ⟨fun p => (ht.ports p).resolve_right fun no => absurd no.1 List.not_mem_nil, ht.scan⟩
    | cons p ps ih => exact fun t ht => ih _ ht.next
  exact all _ _ ⟨fun p => (h.ports p).imp_right fun ⟨mem, held⟩ => ⟨(freeOrder_mem _ _ p).mpr mem, held⟩, h.scan⟩

theorem tickPorts_get (s : State) (p : PortId) :
    (tickPorts s).ports[p] = if s.ports[p].cfg.enabled then s.ports[p].tick else s.ports[p] := tab_get _ _

theorem tickPorts_cfg (s : State) (p : PortId) : (tickPorts s).ports[p].cfg = s.ports[p].cfg := by
  rw [tickPorts_get]
  split
  · exact Port.tick_cfg _
  · rfl

theorem PortsInv.tick {s : State} (h : PortsInv s) : TurnInv (unsettled (tickPorts s)) (tickPorts s) where
  ports p := by
    cases on : s.ports[p].cfg.enabled with
    | false => left; rw [tickPorts_get, on]; exact h.ports p
    | true =>
      have held : PortHeld (tickPorts s).ports[p] := by
        rw [tickPorts_get, on]
        exact ((h.ports p).portHeld on).tick
      by_cases raw : (tickPorts s).ports[p].rawCondition = (tickPorts s).ports[p].raw
      · exact .inl (held.portInv raw.symm)
      · refine .inr ⟨?_, held⟩
        rw [unsettled, List.mem_filter, held.enabled, Bool.true_and, decide_eq_true_eq]
        exact ⟨List.mem_finRange p, raw⟩
  scan c hc hu := by
    rw [tickPorts_cfg]
    exact h.scan c hc hu

/-! ### Every change -/

theorem PortsInv.afterReset (rate : BitVec 2) (now draws order : Nat) (q : List Instr) :
    PortsInv (.afterReset rate now draws order q) where
  ports p := by
    simp only [State.afterReset, Fin.getElem_fin, Vector.getElem_replicate]
    exact .of_disabled ⟨by decide, by decide⟩ rfl
  scan := nofun

theorem PortsInv.change {s t : State} (c : Change s t) (h : PortsInv s) : PortsInv t := by
  cases c with
  | enable p cfg _ on ok => exact h.enable p on ok
  | disable p cfg _ off _ ok => exact h.disable p off ok
  | redefine p cfg off off' ok =>
    exact h.replace ((h.ports p).redefine off ok off') (fun on => absurd (off.symm.trans on) Bool.noConfusion) rfl rfl
  | port p f on hf =>
    exact h.portEvent (((h.ports p).portHeld (on.elim id (h.ports p).enabled_of_lossTimer)).step hf)
  | convert c code scan used => exact h.portEvent (((h.ports c.port).portHeld (h.scan c scan used)).convert code)
  | holdOff p due e => exact h.setPortTo ((h.ports p).holdOffExpire e) id
  | service p f hf => exact h.service p hf
  | tick => exact h.tick.turn
  | scan c used => exact ⟨h.ports, used⟩
  | reset rate now draws order q => exact .afterReset rate now draws order q
  | clock | draws | link | finish | identity | ranges | noticeSettings | noticePop | raise | profile | acknowledge | pin | test
  | switch | switchOnly | group | remove | timing | steering | acquired | endHoldover | grant | claims | handover | leave | lapse
  | keep | watch | restart => exact h.of_eq rfl rfl

/-- Settles O54: every change of a step keeps the laws of the ports and of the power scan. -/
theorem stepKeepsPortLaws : Obligations.StepKeepsPortLaws := by
  unfold Obligations.StepKeepsPortLaws
  exact fun s t h e => step_keeps (fun _ _ c => PortsInv.change c) (fun _ _ h => h.of_eq rfl rfl) h e

end Sys2Proof.Machine
end

section
/-! Every step keeps the laws of group and element records (R43, R45 to R48, R89) and of the move queue and its arbiter (R97 to R99). -/

namespace Sys2Proof.Machine

/-! ### Members of groups -/

theorem memberOf_eq_none {groups : Vector (Option Group) 12} {p : PortId} :
    memberOf groups p = none ↔ ∀ (g : GroupId) grp, groups[g] = some grp → p ∉ grp.cfg.members := by
  unfold memberOf
  rw [List.findSome?_eq_none_iff]
  constructor
  · intro h g grp hg mem
    have e := h g (List.mem_finRange g)
    simp [hg, mem] at e
  · intro h g _
    cases hg : groups[g] with
    | none => rfl
    | some grp => exact if_neg (h g grp hg)

/-! ### Records that stand as they were -/

theorem SameRecords.group_back {w v : Switching} (same : SameRecords w v) {g : GroupId} {grp : Group} (h : v.groups[g] = some grp) :
    ∃ old, w.groups[g] = some old ∧ old.cfg = grp.cfg := by
  have e := same.groups g
  rw [h] at e
  exact Option.map_eq_some_iff.mp e.symm

theorem SameRecords.group {w v : Switching} (same : SameRecords w v) {g : GroupId} {grp : Group} (h : w.groups[g] = some grp) :
    ∃ new, v.groups[g] = some new ∧ new.cfg = grp.cfg := by
  have e := same.groups g
  rw [h] at e
  exact Option.map_eq_some_iff.mp e

/-- The address and the group of an element: what the laws of the records read of it. -/
def Element.owner (el : Element) : Nat × GroupId := (el.address, el.group)

theorem SameRecords.owners {w v : Switching} (same : SameRecords w v) :
    v.elements.map Element.owner = w.elements.map Element.owner := by
  have e := congrArg (List.map fun x : Nat × Role × GroupId => (x.1, x.2.2)) same.elements
  rw [List.map_map, List.map_map] at e
  exact e

/-- The laws of the records, told by which record each group has and by the owners of the elements. -/
structure RecordLaws (ports : Vector Port 32) (cfgOf : GroupId → Option GroupConfig) (owners : List (Nat × GroupId)) : Prop where
  members : ∀ g c, cfgOf g = some c →
    c.members.Nodup ∧ (∀ p ∈ c.members, ports[p].cfg.enabled = true) ∧ countFits c.type c.ends c.count = true ∧ c.addresses.Nodup
  apart : ∀ g h c d, g ≠ h → cfgOf g = some c → cfgOf h = some d → ∀ p, p ∈ c.members → p ∉ d.members
  addresses : (owners.map Prod.fst).Nodup
  owned : ∀ x ∈ owners, ∃ c, cfgOf x.2 = some c ∧ x.1 ∈ c.addresses
  present : ∀ g c, cfgOf g = some c → ∀ a ∈ c.addresses, (a, g) ∈ owners

theorem membershipInv_iff (s : State) :
    MembershipInv s ↔ RecordLaws s.ports (fun g => s.sw.groups[g].map (·.cfg)) (s.sw.elements.map Element.owner) := by
  constructor
  · intro h
    refine ⟨fun g c e => ?_, fun g k c d ne e f => ?_, ?_, fun x mem => ?_, fun g c e a mem => ?_⟩
    · obtain ⟨grp, hg, rfl⟩ := Option.map_eq_some_iff.mp e
      exact h.members g grp hg
    · obtain ⟨x, hx, rfl⟩ := Option.map_eq_some_iff.mp e
      obtain ⟨y, hy, rfl⟩ := Option.map_eq_some_iff.mp f
      exact h.apart g k x y ne hx hy
    · rw [List.map_map]; exact h.addresses
    · obtain ⟨el, hel, rfl⟩ := List.mem_map.mp mem
      obtain ⟨grp, hg, ha⟩ := h.owned el hel
      exact ⟨grp.cfg, Option.map_eq_some_iff.mpr ⟨grp, hg, rfl⟩, ha⟩
    · obtain ⟨grp, hg, rfl⟩ := Option.map_eq_some_iff.mp e
      obtain ⟨el, hel, ea, eg⟩ := h.present g grp hg a mem
      exact List.mem_map.mpr ⟨el, hel, Prod.ext ea eg⟩
  · intro h
    have cfg : ∀ {g : GroupId} {grp : Group}, s.sw.groups[g] = some grp → s.sw.groups[g].map (·.cfg) = some grp.cfg := fun e => by rw [e]; rfl
    refine ⟨fun g grp e => h.members g _ (cfg e), fun g k x y ne e f => h.apart g k _ _ ne (cfg e) (cfg f), ?_, fun el mem => ?_,
      fun g grp e a mem => ?_⟩
    · have once := h.addresses
      rw [List.map_map] at once
      exact once
    · obtain ⟨c, e, ha⟩ := h.owned _ (List.mem_map.mpr ⟨el, mem, rfl⟩)
      obtain ⟨grp, hg, rfl⟩ := Option.map_eq_some_iff.mp e
      exact ⟨grp, hg, ha⟩
    · obtain ⟨el, hel, e'⟩ := List.mem_map.mp (h.present g _ (cfg e) a mem)
      exact ⟨el, hel, congrArg Prod.fst e', congrArg Prod.snd e'⟩

theorem SameRecords.cfgOf {w v : Switching} (same : SameRecords w v) :
    (fun g : GroupId => v.groups[g].map (·.cfg)) = fun g : GroupId => w.groups[g].map (·.cfg) := funext same.groups

/-- The laws of the records are kept where the records stand and no member is disabled. -/
theorem MembershipInv.of_same {s t : State} (h : MembershipInv s) (same : SameRecords s.sw t.sw)
    (on : ∀ p, memberOf s.sw.groups p ≠ none → s.ports[p].cfg.enabled = true → t.ports[p].cfg.enabled = true) : MembershipInv t := by
  rw [membershipInv_iff, same.cfgOf, same.owners]
  obtain ⟨members, apart, addresses, owned, present⟩ := (membershipInv_iff s).mp h
  refine ⟨fun g c e => ?_, apart, addresses, owned, present⟩
  obtain ⟨once, enabled, fits, different⟩ := members g c e
  refine ⟨once, fun p mem => on p (fun free => ?_) (enabled p mem), fits, different⟩
  obtain ⟨grp, hg, rfl⟩ := Option.map_eq_some_iff.mp e
  exact memberOf_eq_none.mp free g grp hg mem

theorem MembershipInv.of_eq {s t : State} (h : MembershipInv s) (same : SameRecords s.sw t.sw) (ports : t.ports = s.ports) :
    MembershipInv t :=
  h.of_same same fun _ _ e => ports ▸ e

/-! ### A record written -/

theorem groupConflict_eq_false {s : State} {g : GroupId} {c : GroupConfig} : groupConflict s g c = false ↔
    c.members.Nodup
      ∧ (∀ p ∈ c.members, s.ports[p].cfg.enabled = true
        ∧ ∀ h : GroupId, h ≠ g → ∀ grp, s.sw.groups[h] = some grp → p ∉ grp.cfg.members)
      ∧ ∀ a ∈ c.addresses, ∀ el ∈ s.sw.elements, el.group ≠ g → el.address ≠ a := by
  unfold groupConflict memberElsewhere elementElsewhere
  simp only [Bool.or_eq_false_iff, List.any_eq_false, decide_eq_false_iff_not, not_not, Bool.and_eq_true,
    decide_eq_true_eq, not_and, Bool.not_eq_true, Option.any_eq_false, List.mem_finRange, true_implies, Bool.not_eq_false', and_assoc, ne_eq]

/-- The owners of a group record's elements. -/
theorem elements_owners (g : GroupId) (c : GroupConfig) : (c.elements g).map Element.owner = c.addresses.map fun a => (a, g) := by
  unfold GroupConfig.elements GroupConfig.addresses
  cases c.bridge <;> rfl

/-- The laws of the records after a record that SET-GROUP accepts has been written (R45 to R47). -/
theorem RecordLaws.write {s t : State} (h : MembershipInv s) {g : GroupId} {c : GroupConfig} (ok : ConfigOk c)
    (free : groupConflict s g c = false) (ports : t.ports = s.ports)
    (others : ∀ k : GroupId, k ≠ g → t.sw.groups[k].map (·.cfg) = s.sw.groups[k].map (·.cfg))
    (own : t.sw.groups[g].map (·.cfg) = some c)
    (els : t.sw.elements.map Element.owner
      = (s.sw.elements.filter fun el => decide (el.group ≠ g)).map Element.owner ++ c.addresses.map fun a => (a, g)) :
    MembershipInv t := by
  obtain ⟨once, outside, elsewhere⟩ := groupConflict_eq_false.mp free
  obtain ⟨members, apart, addresses, owned, present⟩ := (membershipInv_iff s).mp h
  have other : ∀ {k : GroupId} {d : GroupConfig}, k ≠ g → t.sw.groups[k].map (·.cfg) = some d → s.sw.groups[k].map (·.cfg) = some d :=
    fun ne e => (others _ ne).symm.trans e
  have foreign : ∀ {k : GroupId} {d : GroupConfig}, k ≠ g → t.sw.groups[k].map (·.cfg) = some d → ∀ p ∈ c.members, p ∉ d.members := by
    intro k d ne e p mem
    obtain ⟨grp, hg, rfl⟩ := Option.map_eq_some_iff.mp (other ne e)
    exact (outside p mem).2 k ne grp hg
  rw [membershipInv_iff, ports, els]
  refine ⟨fun k d e => ?_, fun k l d e ne hk hl p mem => ?_, ?_, fun x mem => ?_, fun k d e a mem => ?_⟩
  · by_cases ne : k = g
    · subst ne
      cases own.symm.trans e
      exact ⟨once, fun p mem => (outside p mem).1, ok.count, ok.addresses⟩
    · exact members k d (other ne e)
  · by_cases kg : k = g
    · subst kg
      cases own.symm.trans hk
      exact foreign (Ne.symm ne) hl p mem
    · by_cases lg : l = g
      · subst lg
        cases own.symm.trans hl
        exact fun mem' => foreign kg hk p mem' mem
      · exact apart k l d e ne (other kg hk) (other lg hl) p mem
  · rw [List.map_append, List.nodup_append']
    refine ⟨?_, ?_, fun a kept new => ?_⟩
    · exact addresses.sublist ((List.filter_sublist.map _).map _)
    · rw [List.map_map]
      exact (List.map_id c.addresses).symm ▸ ok.addresses
    · obtain ⟨x, hx, rfl⟩ := List.mem_map.mp kept
      obtain ⟨el, hel, rfl⟩ := List.mem_map.mp hx
      obtain ⟨mem, away⟩ := List.mem_filter.mp hel
      obtain ⟨y, hy, e⟩ := List.mem_map.mp new
      obtain ⟨a, ha, rfl⟩ := List.mem_map.mp hy
      exact elsewhere a ha el mem (of_decide_eq_true away) e.symm
  · rcases List.mem_append.mp mem with kept | new
    · obtain ⟨el, hel, rfl⟩ := List.mem_map.mp kept
      obtain ⟨mem, away⟩ := List.mem_filter.mp hel
      obtain ⟨d, hd, ha⟩ := owned el.owner (List.mem_map.mpr ⟨el, mem, rfl⟩)
      exact ⟨d, (others _ (of_decide_eq_true away)).trans hd, ha⟩
    · obtain ⟨a, ha, rfl⟩ := List.mem_map.mp new
      exact ⟨c, own, ha⟩
  · refine List.mem_append.mpr ?_
    by_cases ne : k = g
    · subst ne
      cases own.symm.trans e
      exact .inr (List.mem_map.mpr ⟨a, mem, rfl⟩)
    · obtain ⟨el, hel, e'⟩ := List.mem_map.mp (present k d (other ne e) a mem)
      refine .inl (List.mem_map.mpr ⟨el, List.mem_filter.mpr ⟨hel, decide_eq_true ?_⟩, e'⟩)
      exact fun same => ne ((congrArg Prod.snd e').symm.trans same)

/-- The elements of the other groups are all there are where the group has no record. -/
theorem MembershipInv.elements_others {s : State} (h : MembershipInv s) {g : GroupId} (absent : s.sw.groups[g] = none) :
    s.sw.elements.filter (fun el => decide (el.group ≠ g)) = s.sw.elements := by
  refine List.filter_eq_self.mpr fun el mem => decide_eq_true fun e => ?_
  obtain ⟨grp, hg, _⟩ := h.owned el mem
  subst e
  exact Option.some_ne_none grp (hg.symm.trans absent)

theorem sameRecords_dropWith (g : GroupId) (dropped : List Nat) (w : Switching) : SameRecords w (w.dropWith g dropped) := by
  have rest : ∀ (as : List Nat) (v : Switching), SameRecords v (as.foldl (fun w a => w.rests a) v) := by
    intro as
    induction as with
    | nil => exact .refl
    | cons a as ih => exact fun v => (sameRecords_rests a v).trans (ih _)
  unfold Switching.dropWith
  split
  · exact .refl w
  · split
    · exact ((onlyGroup_dropOp g w).sameRecords.trans (rest _ _)).trans (.of_eq rfl rfl)
    · exact .refl w

theorem rebuiltElements_owners (g : GroupId) (c : GroupConfig) (els : List Element) :
    (rebuiltElements g c els).map Element.owner
      = (els.filter fun el => decide (el.group ≠ g)).map Element.owner ++ c.addresses.map fun a => (a, g) := by
  rw [← elements_owners, rebuiltElements, List.map_append, List.map_map]
  congr 1
  refine List.map_congr_left fun fresh mem => ?_
  have own : fresh.group = g := by
    have e := List.mem_map_of_mem (f := Element.owner) mem
    rw [elements_owners] at e
    obtain ⟨a, _, e⟩ := List.mem_map.mp e
    exact (congrArg Prod.snd e).symm
  rw [Function.comp_apply]
  split
  · next el found =>
    have ⟨ha, hg⟩ := of_decide_eq_true (List.find?_some (p := fun el : Element => decide (el.address = fresh.address ∧ el.group = g)) found)
    exact Prod.ext ha (hg.trans own.symm)
  · rfl

theorem SameRecords.owners_others {w v : Switching} (same : SameRecords w v) (g : GroupId) :
    (v.elements.filter fun el => decide (el.group ≠ g)).map Element.owner
      = (w.elements.filter fun el => decide (el.group ≠ g)).map Element.owner := by
  have e := congrArg (List.filter fun x : Nat × GroupId => decide (x.2 ≠ g)) same.owners
  rw [List.filter_map, List.filter_map] at e
  exact e

/-! ### Every change -/

theorem MembershipInv.group {s : State} (h : MembershipInv s) {g : GroupId} {c : GroupConfig} (ok : ConfigOk c)
    (free : groupConflict s g c = false) : MembershipInv (writeGroup g c s) := by
  unfold writeGroup
  dsimp only
  split
  · next absent =>
    have absent : s.sw.groups[g] = none := Option.isNone_iff_eq_none.mp absent
    have same := ((onlyGroup_refresh s.swEnv g { s.sw.setGroup g (Group.new c) with elements := s.sw.elements ++ c.elements g }).trans
      (onlyGroup_adopt s.swEnv g _)).sameRecords
    refine RecordLaws.write h ok free rfl (fun k ne => (same.groups k).trans ?_) ((same.groups g).trans ?_) (same.owners.trans ?_)
    · exact congrArg (Option.map _) (set_get_other _ ne _)
    · exact congrArg (Option.map _) (set_get_self _ g _)
    · rw [h.elements_others absent, ← elements_owners]
      exact List.map_append
  · next present =>
    obtain ⟨old, hg⟩ := Option.ne_none_iff_exists'.mp fun e => present (Option.isNone_iff_eq_none.mpr e)
    simp only [Switching.rebuild, hg]
    generalize hw : (s.sw.setExternal g none).dropWith g (old.cfg.addresses.filter fun a => decide (a ∉ c.addresses)) = w
    have start : SameRecords s.sw w := hw ▸ (onlyGroup_setExternal g none s.sw).sameRecords.trans (sameRecords_dropWith g _ _)
    generalize hv : ({ w with elements := rebuiltElements g c w.elements } : Switching).modGroup g
      (fun grp => { grp.dropStay with cfg := c }) = v
    have same := (onlyGroup_refresh s.swEnv g v).sameRecords
    refine RecordLaws.write h ok free rfl (fun k ne => (same.groups k).trans ?_) ((same.groups g).trans ?_) (same.owners.trans ?_)
    · rw [← hv, Switching.modGroup_groups, upd_get_other _ ne]
      exact start.groups k
    · obtain ⟨x, hx, _⟩ := start.group hg
      rw [← hv, Switching.modGroup_groups, upd_get_self]
      simp only [hx, Option.map_some]
    · rw [← hv, Switching.modGroup_elements, rebuiltElements_owners, start.owners_others]

theorem MembershipInv.remove {s : State} (h : MembershipInv s) (g : GroupId) : MembershipInv (removeGroup g s) := by
  have other : ∀ {k : GroupId} {grp : Group}, (removeGroup g s).sw.groups[k] = some grp → k ≠ g ∧ s.sw.groups[k] = some grp := by
    intro k grp e
    by_cases ne : k = g
    · subst ne; exact absurd ((set_get_self _ k _).symm.trans e) nofun
    · exact ⟨ne, (set_get_other _ ne _).symm.trans e⟩
  refine ⟨fun k grp e => h.members k grp (other e).2, fun k l x y ne e f => h.apart k l x y ne (other e).2 (other f).2,
    h.addresses.sublist (List.filter_sublist.map _), fun el mem => ?_, fun k grp e a mem => ?_⟩
  · obtain ⟨mem, away⟩ := List.mem_filter.mp mem
    obtain ⟨grp, hg, ha⟩ := h.owned el mem
    exact ⟨grp, (set_get_other _ (of_decide_eq_true away) _).trans hg, ha⟩
  · obtain ⟨el, hel, ea, eg⟩ := h.present k grp (other e).2 a mem
    exact ⟨el, List.mem_filter.mpr ⟨hel, decide_eq_true (eg ▸ (other e).1)⟩, ea, eg⟩

theorem MembershipInv.afterReset (rate : BitVec 2) (now draws order : Nat) (q : List Instr) :
    MembershipInv (.afterReset rate now draws order q) := by
  have none : ∀ g : GroupId, (State.afterReset rate now draws order q).sw.groups[g] = none := fun g => Vector.getElem_replicate _
  refine ⟨fun g grp e => ?_, fun g k x y _ e => ?_, .nil, nofun, fun g grp e => ?_⟩ <;> exact absurd ((none g).symm.trans e) nofun

/-- A port's event leaves every enabled port enabled and the records as they stand. -/
theorem MembershipInv.setPortTo {s : State} (h : MembershipInv s) {p : PortId} {new : Port}
    (on : memberOf s.sw.groups p ≠ none → s.ports[p].cfg.enabled = true → new.cfg.enabled = true) :
    MembershipInv (setPortTo p new s) := by
  refine h.of_same (setPortTo_sameRecords p new s) fun q mem old => ?_
  rw [setPortTo_ports, set_get]
  split
  · next e => subst e; exact on mem old
  · exact old

theorem MembershipInv.portEvent {s : State} (h : MembershipInv s) {p : PortId} {f : Port → Port}
    (on : s.ports[p].cfg.enabled = true → (f s.ports[p]).cfg.enabled = true) : MembershipInv (portEvent p f s) := by
  obtain ⟨eff, e⟩ := portEvent_eq p f s
  rw [e]
  exact h.setPortTo fun _ old => (Port.settle_cfg _ _ _).symm ▸ on old

theorem MembershipInv.replacePort {s t : State} (h : MembershipInv s) {p : PortId} {new : Port} (sw : t.sw = s.sw)
    (ports : t.ports = s.ports.set p new) (on : s.ports[p].cfg.enabled = true → new.cfg.enabled = true) : MembershipInv t := by
  refine h.of_same (sw ▸ .refl _) fun q _ old => ?_
  rw [ports, set_get]
  split
  · next e => subst e; exact on old
  · exact old

theorem MembershipInv.tick {s : State} (h : MembershipInv s) : MembershipInv (portsInTurn (unsettled (tickPorts s)) (tickPorts s)) :=
  portsInTurn_induct (P := MembershipInv) _ (fun _ => h.of_same (.refl _) fun p _ old => (tickPorts_cfg s p).symm ▸ old)
    fun _ _ ht => ht.portEvent id

theorem MembershipInv.change {s t : State} (c : Change s t) (h : MembershipInv s) : MembershipInv t := by
  cases c with
  | enable p cfg _ on _ =>
    have told := h.setPortTo (p := p) (new := Port.startService s.now cfg) fun _ _ => on
    unfold scanEnabled
    split
    · exact told.of_eq (.refl _) rfl
    · exact told
  | disable p cfg _ _ free _ => exact (h.setPortTo (p := p) (new := .disabled cfg) fun mem => absurd free mem).of_eq (.refl _) rfl
  | redefine p cfg off _ _ => exact h.replacePort rfl rfl fun on => absurd (off.symm.trans on) Bool.noConfusion
  | port p f _ hf => exact h.portEvent (hf.enabled _)
  | convert c code _ _ => exact h.portEvent id
  | holdOff p _ _ => exact h.setPortTo fun _ => id
  | service p f hf => exact h.replacePort rfl rfl fun on => (congrArg PortRecord.enabled (hf.keeps _).1).trans on
  | tick => exact h.tick
  | switch f same _ => exact h.of_eq (same _ _) rfl
  | switchOnly w same _ => exact h.of_eq same rfl
  | group g c ok free => exact h.group ok free
  | remove g _ => exact h.remove g
  | reset rate now draws order q => exact .afterReset rate now draws order q
  | finish e => exact h.of_eq (.of_eq (by simp) (by simp)) (by simp)
  | clock | draws | link | identity | ranges | noticeSettings | noticePop | raise | profile | acknowledge | pin | scan | test
  | timing | steering | acquired | endHoldover | grant | claims | handover | leave | lapse | keep | watch | restart =>
    exact h.of_eq (.refl _) rfl

theorem queueInv_afterReset (rate : BitVec 2) (now draws order : Nat) (q : List Instr) :
    QueueInv (State.afterReset rate now draws order q).sw :=
  ⟨.nil, nofun, Nat.zero_le _, Nat.zero_le _, .nil, fun _ => rfl⟩

theorem queueInv_portsInTurn (ps : List PortId) {s : State} (h : QueueInv s.sw) : QueueInv (portsInTurn ps s).sw :=
  portsInTurn_induct (P := fun t => QueueInv t.sw) ps (fun _ => h) fun p _ ht => setPortTo_queue ht p _

theorem queueInv_writeGroup {s : State} (h : QueueInv s.sw) (g : GroupId) (c : GroupConfig) : QueueInv (writeGroup g c s).sw := by
  unfold writeGroup
  dsimp only
  split
  · next absent => exact h.create _ c (Option.isNone_iff_eq_none.mp absent)
  · exact h.rebuild _ g c

theorem queueInv_change {s t : State} (c : Change s t) (h : QueueInv s.sw) : QueueInv t.sw := by
  cases c with
  | enable p cfg _ _ _ =>
    have told := setPortTo_queue h p (Port.startService s.now cfg)
    unfold scanEnabled
    split <;> exact told
  | disable p cfg _ _ _ _ => exact setPortTo_queue h p (Port.disabled cfg)
  | port p f _ _ => exact setPortTo_queue h p _
  | convert c code _ _ => exact setPortTo_queue h c.port _
  | holdOff p _ _ => exact setPortTo_queue h p _
  | tick => exact queueInv_portsInTurn _ h
  | switch f _ hq => exact hq h
  | switchOnly w _ hq => exact hq h
  | group g c _ _ => exact queueInv_writeGroup h g c
  | remove g free => exact h.delete _ free
  | reset rate now draws order q => exact queueInv_afterReset rate now draws order q
  | finish e => exact finish_queueInv h e
  | redefine | service | clock | draws | link | identity | ranges | noticeSettings | noticePop | raise | profile | acknowledge | pin
  | scan | test | timing | steering | acquired | endHoldover | grant | claims | handover | leave | lapse | keep | watch | restart =>
    exact h

/-! ### The moving set (R95) -/

theorem addresses_length (c : GroupConfig) : c.addresses.length ≤ 2 := by
  unfold GroupConfig.addresses
  cases c.bridge <;> simp

/-- At most two elements of each of the twelve groups stand in the table. -/
theorem MembershipInv.elements_length {s : State} (h : MembershipInv s) : s.sw.elements.length ≤ 24 := by
  let held : GroupId → List Nat := fun g => (s.sw.groups[g].map (·.cfg.addresses)).getD []
  have within : s.sw.elements.map (·.address) ⊆ (List.finRange 12).flatMap held := by
    intro a mem
    obtain ⟨el, hel, rfl⟩ := List.mem_map.mp mem
    obtain ⟨grp, hg, ha⟩ := h.owned el hel
    refine List.mem_flatMap.mpr ⟨el.group, List.mem_finRange _, ?_⟩
    simpa only [held, hg, Option.map_some, Option.getD_some] using ha
  have each : ∀ g ∈ List.finRange 12, (held g).length ≤ 2 := by
    intro g _
    dsimp only [held]
    cases s.sw.groups[g] with
    | none => exact Nat.zero_le 2
    | some grp => exact addresses_length grp.cfg
  calc s.sw.elements.length = (s.sw.elements.map (·.address)).length := (List.length_map _).symm
    _ ≤ ((List.finRange 12).flatMap held).length := (h.addresses.subperm within).length_le
    _ = ((List.finRange 12).map fun g => (held g).length).sum := List.length_flatMap
    _ ≤ ((List.finRange 12).map fun g => (held g).length).length • 2 :=
        List.sum_le_card_nsmul _ 2 fun n mem => by obtain ⟨g, hg, rfl⟩ := List.mem_map.mp mem; exact each g hg
    _ = 24 := by rw [List.length_map, List.length_finRange]; rfl

/-- Settles O55: every change keeps both laws, and the moving set is a part of the element table. -/
theorem stepKeepsMembershipLaws : Obligations.StepKeepsMembershipLaws := by
  unfold Obligations.StepKeepsMembershipLaws
  refine ⟨fun s t h e => ?_, fun s t h e => step_keeps (P := fun s => QueueInv s.sw) (fun _ _ => queueInv_change) (fun _ _ => id) h e⟩
  have inv := step_keeps (fun _ _ => MembershipInv.change) (fun _ _ h => h.of_eq (.refl _) rfl) h e
  exact ⟨inv, inv.addresses.sublist (List.filter_sublist.map _), List.filter_sublist.length_le.trans inv.elements_length⟩

end Sys2Proof.Machine
end

section
/-! Every step keeps the laws of the timing unit (R119, R120, R126 to R130) and of its selection (R122, R125, R131). -/

namespace Sys2Proof.Machine

/-! ### The laws of the unit -/

theorem timingInv_inSwitch (f : SwEnv → Switching → Switching) {s : State} (h : TimingInv s.timing) :
    TimingInv (inSwitch f s).timing := timingInv_followSelectors _ h

theorem timingInv_setPortTo (p : PortId) (new : Port) {s : State} (h : TimingInv s.timing) :
    TimingInv (setPortTo p new s).timing := by
  have told : TimingInv (tellGroup p s.ports[p] { s with ports := s.ports.set p new }).timing := by
    rcases tellGroup_cases p s.ports[p] { s with ports := s.ports.set p new } with e | ⟨_, _, f, _, e, _⟩ <;> rw [e]
    · exact h
    · exact timingInv_inSwitch f h
  rcases tellTiming_cases p s.ports[p] (tellGroup p s.ports[p] { s with ports := s.ports.set p new }) with e | e <;>
    rw [setPortTo, e]
  · exact told
  · exact timingInv_portChanged _ p told

theorem timingInv_portsInTurn (ps : List PortId) {s : State} (h : TimingInv s.timing) : TimingInv (portsInTurn ps s).timing :=
  portsInTurn_induct (P := fun t => TimingInv t.timing) ps (fun _ => h) fun p _ ht => timingInv_setPortTo p _ ht

/-- The end of an event leaves the timing unit but for the notices that it takes from it. -/
theorem finish_timing (e : Expiry) (s : State) : (finish e s).timing = { s.timing with raised := [] } := rfl

theorem TimingInv.of_fields {t u : Timing} (h : TimingInv t)
    (e : u = { t with steering := u.steering, steerWaiting := u.steerWaiting, nextTick := u.nextTick, raised := u.raised }) :
    TimingInv u := by
  rw [e]
  exact ⟨h.refs, h.word, h.history, h.holdoverValue, h.selecting, h.refout, h.holdover, h.acquiring, h.pushed, h.counted, h.ready⟩

theorem TimingInv.acquired {t : Timing} (h : TimingInv t) : TimingInv { t with acquireTimer := none } :=
  ⟨h.refs, h.word, h.history, h.holdoverValue, h.selecting, h.refout, h.holdover, nofun, h.pushed, h.counted, h.ready⟩

theorem TimingInv.state_of_holdoverTimer {t : Timing} (h : TimingInv t) {due : Nat} (e : t.holdoverTimer = some due) :
    t.state = .holdover := by
  have runs := h.holdover
  rw [e] at runs
  exact of_decide_eq_true runs.symm

theorem steerable_zero : steerable 0 := by unfold steerable; decide

theorem timingInv_reset (now : Nat) : TimingInv (.reset now) where
  refs r := by
    simp only [Timing.reset, tab_get]
    exact .cleared rfl rfl
  word := steerable_zero
  history := nofun
  holdoverValue := steerable_zero
  selecting := rfl
  refout := rfl
  holdover := rfl
  acquiring := nofun
  pushed := rfl
  counted := Nat.zero_le _
  ready := rfl

theorem timingInv_change {s t : State} (c : Change s t) (h : TimingInv s.timing) : TimingInv t.timing := by
  cases c with
  | finish e => exact h.of_fields (finish_timing e s)
  | enable p cfg _ _ _ =>
    have told := timingInv_setPortTo p (Port.startService s.now cfg) h
    unfold scanEnabled
    split <;> exact told
  | disable p cfg _ _ _ _ => exact timingInv_setPortTo p (.disabled cfg) h
  | port p f _ _ => exact timingInv_setPortTo p _ h
  | convert c code _ _ => exact timingInv_setPortTo c.port _ h
  | holdOff p _ _ => exact timingInv_setPortTo p _ h
  | tick => exact timingInv_portsInTurn _ h
  | switch f _ _ => exact timingInv_inSwitch f h
  | group g c _ _ => exact timingInv_regroup _ g h
  | remove g _ => exact timingInv_regroup _ g h
  | timing f keeps _ => exact keeps _ _ h
  | steering a b n => exact h.of_fields rfl
  | acquired => exact h.acquired
  | endHoldover due e => exact timingInv_endHoldover _ h (h.state_of_holdoverTimer e)
  | reset rate now draws order q => exact timingInv_reset now
  | switchOnly | redefine | service | clock | draws | link | identity | ranges | noticeSettings | noticePop | raise | profile
  | acknowledge | pin | scan | test | grant | claims | handover | leave | lapse | keep | watch | restart => exact h

/-! ### The selected reference -/

/-- The law of the selected reference, on the whole part. -/
def Selects (s : State) : Prop := SelectionInv s.ports s.timing

theorem Selects.inSwitch (f : SwEnv → Switching → Switching) {s : State} (h : Selects s) : Selects (inSwitch f s) :=
  selectionInv_followSelectors (Machine.State.timingEnv { s with sw := f s.swEnv s.sw }) h

/-- A port replaced: where its raw condition changes, selection is re-evaluated (R122, R125). -/
theorem Selects.setPortTo (p : PortId) (new : Port) {s : State} (h : Selects s) : Selects (setPortTo p new s) := by
  rw [Machine.setPortTo]
  generalize ht : tellGroup p s.ports[p] { s with ports := s.ports.set p new } = t
  have ports : t.ports = s.ports.set p new := by rw [← ht, tellGroup_ports]
  unfold tellTiming
  dsimp only
  split
  · exact selectionInv_reselect t.timingEnv _
  · next same =>
    have raw : t.ports[p].raw = s.ports[p].raw := by
      by_contra other
      exact same (.inl (Ne.symm other))
    have start : Selects { s with ports := s.ports.set p new } := by
      refine SelectionInv.ports h fun q => ?_
      change (s.ports.set p new)[q].raw = s.ports[q].raw
      rw [← ports]
      by_cases e : q = p
      · subst e; exact raw
      · rw [ports, set_get_other _ e]
    rcases tellGroup_cases p s.ports[p] { s with ports := s.ports.set p new } with e | ⟨_, _, f, _, e, _⟩ <;> rw [← ht, e]
    · exact start
    · exact start.inSwitch f

theorem Selects.raw {s t : State} (h : Selects s) (timing : t.timing = s.timing) (raw : ∀ p : PortId, t.ports[p].raw = s.ports[p].raw) :
    Selects t := by
  rw [Selects, timing]
  exact SelectionInv.ports h raw

theorem Selects.upd {s t : State} (h : Selects s) (timing : t.timing = s.timing) {p : PortId} {f : Port → Port}
    (ports : t.ports = Machine.upd s.ports p f) (raw : ∀ x, (f x).raw = x.raw) : Selects t := by
  refine h.raw timing fun q => ?_
  rw [ports, upd_get]
  split
  · next e => subst e; exact raw _
  · rfl

theorem Selects.tick {s : State} (h : Selects s) : Selects (portsInTurn (unsettled (tickPorts s)) (tickPorts s)) := by
  refine portsInTurn_induct (P := Selects) _ (fun _ => h.raw rfl fun p => ?_) fun q _ ht => ht.setPortTo q _
  change (tickPorts s).ports[p].raw = s.ports[p].raw
  rw [tickPorts_get]
  split
  · exact Port.tick_raw _
  · rfl

theorem Selects.regroup (g : GroupId) (s : State) : Selects { s with timing := s.timing.regroup s.timingEnv g } :=
  selectionInv_reselect s.timingEnv _

theorem Selects.afterReset (rate : BitVec 2) (now draws order : Nat) (q : List Instr) :
    Selects (.afterReset rate now draws order q) :=
  ⟨nofun, nofun, nofun, nofun, fun _ _ _ => Vector.getElem_replicate _⟩

theorem Selects.change {s t : State} (c : Change s t) (h : Selects s) : Selects t := by
  cases c with
  | finish e => exact SelectionInv.of_eq h rfl rfl rfl rfl rfl
  | enable p cfg _ _ _ =>
    have told := h.setPortTo p (Port.startService s.now cfg)
    unfold scanEnabled
    split <;> exact told
  | disable p cfg _ _ _ _ => exact h.setPortTo p (.disabled cfg)
  | redefine p cfg _ _ _ => exact h.upd (f := fun x => { x with cfg := cfg }) rfl rfl fun _ => rfl
  | port p f _ _ => exact h.setPortTo p _
  | convert c code _ _ => exact h.setPortTo c.port _
  | holdOff p _ _ => exact h.setPortTo p _
  | service p f hf => exact h.upd rfl rfl fun x => (hf.keeps x).2.1
  | tick => exact h.tick
  | switch f _ _ => exact h.inSwitch f
  | group g c _ _ => exact .regroup g _
  | remove g _ => exact .regroup g _
  | timing f _ keeps => exact keeps s.timingEnv _ h
  | steering a b n => exact SelectionInv.of_eq h rfl rfl rfl rfl rfl
  | acquired => exact SelectionInv.of_eq h rfl rfl rfl rfl rfl
  | endHoldover due e => exact selectionInv_endHoldover s.timingEnv h
  | reset rate now draws order q => exact .afterReset rate now draws order q
  | switchOnly | clock | draws | link | identity | ranges | noticeSettings | noticePop | raise | profile | acknowledge | pin | scan
  | test | grant | claims | handover | leave | lapse | keep | watch | restart => exact h

/-- Settles O56: every change keeps the laws of the unit and the law of the selected reference. -/
theorem stepKeepsTimingLaws : Obligations.StepKeepsTimingLaws := by
  unfold Obligations.StepKeepsTimingLaws
  exact ⟨fun s t h e => step_keeps (P := fun s => TimingInv s.timing) (fun _ _ => timingInv_change) (fun _ _ => id) h e,
    fun s t h e => step_keeps (P := Selects) (fun _ _ => Selects.change) (fun _ _ => id) h e⟩

end Sys2Proof.Machine
end

section
/-! Every step keeps the laws of the alarm unit (R136, R142, R143, R147 to R149, R154, R155). -/

namespace Sys2Proof.Machine

/-! ### One point (R136, R142 to R144, R148) -/

/-- A point as its own timer may leave it, before it takes the state of the moment. -/
structure PointReady (pt : Point) : Prop where
  declareSoak : pt.isDeclareSoak → pt.declared = false ∧ pt.raw = true
  clearSoak : pt.isClearSoak → pt.declared = true ∧ pt.raw = false
  acknowledged : pt.acknowledged → pt.declared = true

theorem Point.clearNow_inv (pt : Point) : PointInv pt.clearNow := ⟨nofun, nofun, nofun, nofun⟩

theorem PointInv.expire {pt : Point} (h : PointInv pt) (e : Expiry) (k : PointId) : PointReady (pt.expire e k) := by
  have ready : PointReady pt := ⟨h.declareSoak, h.clearSoak, h.acknowledged⟩
  unfold Point.expire
  split
  · exact ready
  · split
    · exact ⟨nofun, nofun, nofun⟩
    · exact ready
  · split
    · exact ⟨nofun, nofun, nofun⟩
    · exact ready

theorem PointReady.take {pt : Point} (h : PointReady pt) (now : Nat) (entry : ProfileEntry) (serves raw : Bool) (grade : Grade) :
    PointInv (pt.take now entry serves raw grade) := by
  unfold Point.take
  cases serves with
  | false => exact Point.clearNow_inv _
  | true =>
    simp only [Bool.not_true, Bool.false_eq_true, if_false, Bool.true_and]
    split
    · next declared =>
      split
      · exact Point.clearNow_inv _
      · next graded =>
        generalize hack : (if pt.severity.rank < (entry.severity grade).rank
          then { pt with raw := raw, grade := grade, severity := entry.severity grade, acknowledged := false }
          else { pt with raw := raw, grade := grade, severity := entry.severity grade } : Point) = new
        have fields : new.declared = true ∧ new.raw = raw ∧ new.severity ≠ .none ∧ new.soak = pt.soak := by
          subst hack
          split <;> exact ⟨declared, rfl, graded, rfl⟩
        obtain ⟨hd, hr, hs, hk⟩ := fields
        have noDeclare : ¬ pt.isDeclareSoak := fun e => Bool.noConfusion ((h.declareSoak e).1.symm.trans declared)
        split
        · exact ⟨nofun, nofun, fun _ => hs, fun _ => hd⟩
        · next absent =>
          have absent : new.raw = false := hr.trans (Bool.eq_false_iff.mpr absent)
          split
          · split
            · exact Point.clearNow_inv _
            · exact ⟨nofun, fun _ => ⟨hd, absent⟩, fun _ => hs, fun _ => hd⟩
          · refine ⟨fun e => absurd ?_ noDeclare, fun _ => ⟨hd, absent⟩, fun _ => hs, fun _ => hd⟩
            rwa [Point.isDeclareSoak, hk] at e
    · next undeclared =>
      have clear : pt.declared = false := Bool.eq_false_iff.mpr undeclared
      have quiet : ¬ pt.acknowledged := fun e => undeclared (h.acknowledged e)
      split
      · exact ⟨nofun, nofun, fun e => absurd e undeclared, fun e => absurd e quiet⟩
      · next graded =>
        split
        · next present =>
          split
          · exact ⟨fun _ => ⟨clear, present⟩, fun e => absurd (h.clearSoak e).1 undeclared, fun _ => graded, fun e => absurd e quiet⟩
          · split
            · exact ⟨nofun, nofun, fun _ => graded, nofun⟩
            · exact ⟨fun _ => ⟨clear, present⟩, nofun, fun _ => graded, fun e => absurd e quiet⟩
        · exact ⟨nofun, nofun, fun e => absurd e undeclared, fun e => absurd e quiet⟩

/-- The mask and suppression flags are not what the laws of a point read. -/
theorem PointInv.flags {pt : Point} (h : PointInv pt) (masked suppressed : Bool) :
    PointInv { pt with masked := masked, suppressed := suppressed } := ⟨h.declareSoak, h.clearSoak, h.graded, h.acknowledged⟩

theorem nextPoints_get (s : State) (e : Expiry) (k : PointId) :
    (nextPoints s e)[k] = { nextPoint s e k with
      masked := (maskers s.timing.refs k).any fun j => (nextPoint s e j).masks
      suppressed := suppressedPoint s.ranges k } := by
  simp only [nextPoints, tab_get]

theorem nextPoints_inv {s : State} (h : ∀ k : PointId, PointInv s.alarms.points[k]) (e : Expiry) (k : PointId) :
    PointInv (nextPoints s e)[k] := by
  rw [nextPoints_get]
  exact (((h k).expire e k).take _ _ _ _ _).flags _ _

/-! ### Counts and contacts (R152, R154, R155) -/

theorem toList_eq_map_finRange {α : Type} {n : Nat} (v : Vector α n) : v.toList = (List.finRange n).map fun i => v[i] := by
  refine List.ext_getElem (by simp) fun i hi _ => ?_
  simp

theorem countP_points (pts : Vector Point 319) (p : Point → Bool) :
    pts.toList.countP p = (List.finRange 319).countP fun k : PointId => p pts[k] := by
  rw [toList_eq_map_finRange, List.countP_map]
  rfl

/-- Of a severity that has contacts, the reportable points are those that R152 names. -/
theorem Point.reportable_of_severity {pt : Point} {sev : Severity} (some : 1 ≤ sev.rank) :
    (pt.reportable && decide (pt.severity = sev)) = (pt.declared && !pt.masked && !pt.suppressed && decide (pt.severity = sev)) := by
  by_cases e : pt.severity = sev
  · subst e; simp [Point.reportable, some]
  · simp [e]

theorem visualCount_eq (pts : Vector Point 319) {sev : Severity} (some : 1 ≤ sev.rank) :
    visualCount pts sev = (List.finRange 319).countP fun k : PointId =>
      pts[k].declared && !pts[k].masked && !pts[k].suppressed && decide (pts[k].severity = sev) := by
  simp only [visualCount, countP_points, Point.reportable_of_severity some]

theorem audibleCount_eq (pts : Vector Point 319) {sev : Severity} (some : 1 ≤ sev.rank) :
    audibleCount pts sev = (List.finRange 319).countP fun k : PointId =>
      pts[k].declared && !pts[k].masked && !pts[k].suppressed && decide (pts[k].severity = sev) && !pts[k].acknowledged := by
  simp only [audibleCount, countP_points, Point.reportable_of_severity some]

/-- Counts and contacts made afresh are those that the points make. -/
theorem countsFit_recount (a : AlarmUnit) : CountsFit a.recount := by
  have critical : 1 ≤ Severity.critical.rank := by decide
  have major : 1 ≤ Severity.major.rank := by decide
  have minor : 1 ≤ Severity.minor.rank := by decide
  simp only [CountsFit, AlarmUnit.recount, visualCount_eq _ critical, visualCount_eq _ major, visualCount_eq _ minor,
    audibleCount_eq _ critical, audibleCount_eq _ major, audibleCount_eq _ minor, decide_eq_true_eq, and_self]

theorem AlarmsInv.countsFit {a : AlarmUnit} (h : AlarmsInv a) : CountsFit a := h.counts ▸ countsFit_recount a

theorem AlarmUnit.recount_recount (a : AlarmUnit) : a.recount.recount = a.recount := rfl

/-! ### The active alarm list (R149) -/

/-- The points that are declared now and were not before. -/
def newlyDeclared (old new : Vector Point 319) : List PointId :=
  (List.finRange 319).filter fun k : PointId => new[k].declared && !old[k].declared

theorem mem_newlyDeclared {old new : Vector Point 319} {k : PointId} :
    k ∈ newlyDeclared old new ↔ new[k].declared = true ∧ old[k].declared = false := by
  simp [newlyDeclared]

theorem takeAlarms_alarms (e : Expiry) (s : State) : (takeAlarms e s).alarms = ({ s.alarms with
    points := nextPoints s e
    active := s.alarms.active.filter (fun k : PointId => (nextPoints s e)[k].declared)
      ++ freeOrder s.orderDraws (newlyDeclared s.alarms.points (nextPoints s e)) } : AlarmUnit).recount := rfl

theorem finish_alarms (e : Expiry) (s : State) : (finish e s).alarms = (takeAlarms e s).alarms := rfl

theorem AlarmsInv.finish {s : State} (h : AlarmsInv s.alarms) (e : Expiry) : AlarmsInv (Machine.finish e s).alarms := by
  rw [finish_alarms, takeAlarms_alarms]
  refine ⟨nextPoints_inv h.points e, fun k => ?_, ?_, rfl⟩
  · change k ∈ _ ++ _ ↔ (nextPoints s e)[k].declared = true
    rw [List.mem_append, freeOrder_mem, mem_newlyDeclared, List.mem_filter, h.active k]
    cases s.alarms.points[k].declared <;> simp
  · change List.Nodup (_ ++ _)
    refine List.nodup_append'.mpr ⟨h.once.filter _, freeOrder_nodup _ ((List.nodup_finRange 319).filter _), fun k was joins => ?_⟩
    rw [freeOrder_mem, mem_newlyDeclared, ← Bool.not_eq_true, ← h.active k] at joins
    exact joins.2 (List.mem_of_mem_filter was)

/-! ### Acknowledgement and full reset (R151, R153) -/

theorem AlarmUnit.acknowledge_get (a : AlarmUnit) (k : PointId) :
    a.acknowledge.points[k] = { a.points[k] with acknowledged := a.points[k].acknowledged || a.points[k].declared } := by
  change (tab 319 _)[k] = _
  rw [tab_get]

theorem AlarmsInv.acknowledge {a : AlarmUnit} (h : AlarmsInv a) : AlarmsInv a.acknowledge := by
  refine ⟨fun k => ?_, fun k => ?_, h.once, rfl⟩
  · rw [AlarmUnit.acknowledge_get]
    have inv := h.points k
    exact ⟨inv.declareSoak, inv.clearSoak, inv.graded, fun e => (Bool.or_eq_true_iff.mp e).elim inv.acknowledged id⟩
  · rw [AlarmUnit.acknowledge_get]
    exact h.active k

theorem declaredAtReset_iff (k : PointId) : declaredAtReset k = true ↔ k = 316 ∨ k = 317 := by
  simp [declaredAtReset, Fin.ext_iff]

theorem reset_severity_of_declared {k : PointId} (h : declaredAtReset k = true) : profileReset[profileIndex k].sa ≠ .none := by
  rcases (declaredAtReset_iff k).mp h with rfl | rfl <;> decide

theorem AlarmUnit.reset_get (draw : Nat) (k : PointId) : (AlarmUnit.reset draw).points[k] = Point.reset k := tab_get _ _

/-- The points that are declared at the first moment after full reset are reportable, and no other is. -/
theorem countP_reset (p : Point → Bool) (h : ∀ pt, p pt = true → pt.declared = true) :
    (tab 319 Point.reset).toList.countP p = ([316, 317] : List PointId).countP fun k => p (Point.reset k) := by
  rw [countP_points]
  simp only [tab_get]
  have among : ∀ k ∈ List.finRange 319, p (Point.reset k) = true → (decide (k = 316 ∨ k = 317)) = true := fun k _ e =>
    decide_eq_true ((declaredAtReset_iff k).mp (h _ e))
  have both : (List.finRange 319).filter (fun k => decide (k = 316 ∨ k = 317)) = [316, 317] := by decide +kernel
  rw [← both, List.countP_filter]
  refine List.countP_congr fun k mem => ?_
  simp only [Bool.and_eq_true]
  exact ⟨fun e => ⟨e, among k mem e⟩, And.left⟩

theorem Point.declared_of_reportable {pt : Point} (h : pt.reportable = true) : pt.declared = true := by
  simp only [Point.reportable, Bool.and_eq_true] at h
  exact h.1.1.1

theorem recount_reset (draw : Nat) : (AlarmUnit.reset draw).recount = AlarmUnit.reset draw := by
  have visual : ∀ sev, visualCount (tab 319 Point.reset) sev
      = ([316, 317] : List PointId).countP fun k => (Point.reset k).reportable && decide ((Point.reset k).severity = sev) :=
    fun sev => countP_reset _ fun pt e => pt.declared_of_reportable (Bool.and_eq_true_iff.mp e).1
  have audible : ∀ sev, audibleCount (tab 319 Point.reset) sev = ([316, 317] : List PointId).countP fun k =>
      (Point.reset k).reportable && decide ((Point.reset k).severity = sev) && !(Point.reset k).acknowledged :=
    fun sev => countP_reset _ fun pt e =>
      pt.declared_of_reportable (Bool.and_eq_true_iff.mp (Bool.and_eq_true_iff.mp e).1).1
  unfold AlarmUnit.recount AlarmUnit.reset
  simp only [visual, audible]
  rfl

theorem AlarmsInv.reset (draw : Nat) : AlarmsInv (.reset draw) := by
  refine ⟨fun k => ?_, fun k => ?_, freeOrder_nodup _ (by decide), recount_reset draw⟩
  · rw [AlarmUnit.reset_get]
    exact ⟨nofun, nofun, reset_severity_of_declared, nofun⟩
  · rw [AlarmUnit.reset_get]
    change k ∈ freeOrder draw [316, 317] ↔ declaredAtReset k = true
    rw [freeOrder_mem, declaredAtReset_iff, List.mem_pair]

theorem portsInTurn_alarms (ps : List PortId) (s : State) : (portsInTurn ps s).alarms = s.alarms :=
  (portsInTurn_keeps ps s).alarms

theorem AlarmsInv.change {s t : State} (c : Change s t) (h : AlarmsInv s.alarms) : AlarmsInv t.alarms := by
  cases c with
  | finish e => exact h.finish e
  | acknowledge => exact h.acknowledge
  | profile k e => exact ⟨h.points, h.active, h.once, congrArg (fun a : AlarmUnit => { a with profile := s.alarms.profile.set k e }) h.counts⟩
  | pin p => exact ⟨h.points, h.active, h.once, congrArg (fun a : AlarmUnit => { a with acoPin := p }) h.counts⟩
  | reset rate now draws order q => exact .reset order
  | enable p cfg _ _ _ =>
    have told : AlarmsInv (setPortTo p (Port.startService s.now cfg) s).alarms := (setPortTo_keeps p _ s).alarms ▸ h
    unfold scanEnabled
    split <;> exact told
  | disable p cfg _ _ _ _ => exact (setPortTo_keeps p (.disabled cfg) s).alarms ▸ h
  | port p f _ _ => exact (portEvent_keeps p f s).alarms ▸ h
  | convert c code _ _ => exact (portEvent_keeps c.port _ s).alarms ▸ h
  | holdOff p _ _ => exact (setPortTo_keeps p _ s).alarms ▸ h
  | tick => rw [portsInTurn_alarms]; exact h
  | switch | group | remove | timing | steering | acquired | endHoldover | switchOnly | redefine | service | clock | draws | link
  | identity | ranges | noticeSettings | noticePop | raise | scan | test | grant | claims | handover | leave | lapse | keep | watch
  | restart => exact h

/-- Settles O57: every change keeps the laws of the alarm unit, and its counts are those that the points make. -/
theorem stepKeepsAlarmLaws : Obligations.StepKeepsAlarmLaws := by
  unfold Obligations.StepKeepsAlarmLaws
  intro s t h e
  have inv := step_keeps (P := fun s => AlarmsInv s.alarms) (fun _ _ => AlarmsInv.change) (fun _ _ => id) h e
  exact ⟨inv, inv.countsFit⟩

end Sys2Proof.Machine
end

section
/-! Every step keeps the laws of mastership and the link-watch (R158, R173 to R178). -/

namespace Sys2Proof.Machine

/-- The roles of the two links and the period timer, as R173 and R174 allow them together. -/
def rolesFit (a b : LinkRole) (runs : Bool) : Prop :=
  ¬ (a = .master ∧ b = .master) ∧ (a = .claimant → b = .master) ∧ (b = .claimant → a = .master)
    ∧ runs = (decide (a = .master) || decide (b = .master))

theorem rolesFit_comm {a b : LinkRole} {runs : Bool} (h : rolesFit a b runs) : rolesFit b a runs := by
  obtain ⟨one, ca, cb, watched⟩ := h
  exact ⟨fun e => one e.symm, cb, ca, watched.trans (Bool.or_comm _ _)⟩

/-- The counts and settings of the link-watch (R158, R175 to R178). -/
structure WatchInv (x : LinkSupervisor) : Prop where
  limit : 1 ≤ x.lapseLimit ∧ x.lapseLimit ≤ 4
  lapses : x.lapses ≤ 4
  run : x.run ≤ 3
  period : 200 ≤ x.period ∧ x.period ≤ 10000 ∧ x.period % 100 = 0
  shf : x.shf = (!x.everGranted || decide (x.lapseLimit ≤ x.lapses))

/-- The roles and the period timer of the link supervisor. -/
def RolesInv (x : LinkSupervisor) : Prop := rolesFit x.linkA.role x.linkB.role x.periodTimer.isSome

theorem mastershipInv_iff (x : LinkSupervisor) : MastershipInv x ↔ RolesInv x ∧ WatchInv x := by
  constructor
  · intro h
    exact ⟨⟨h.oneMaster, h.claims .a, h.claims .b, h.watched⟩, h.limit, h.lapses, h.run, h.period, h.shf⟩
  · rintro ⟨⟨one, ca, cb, watched⟩, limit, lapses, run, period, shf⟩
    exact ⟨one, fun l => by cases l; exacts [ca, cb], watched, limit, lapses, run, period, shf⟩

theorem RolesInv.of_eq {x y : LinkSupervisor} (h : RolesInv x) (a : y.linkA.role = x.linkA.role) (b : y.linkB.role = x.linkB.role)
    (timer : y.periodTimer.isSome = x.periodTimer.isSome) : RolesInv y := by
  rw [RolesInv, a, b, timer]
  exact h

/-! ### Roles -/

theorem rolesFit_grant {a b : LinkRole} {runs : Bool} (h : rolesFit a b runs) (free : a = .observer) (other : b ≠ .master) :
    rolesFit .master b true := by
  subst free
  exact ⟨fun e => other e.2, nofun, fun _ => rfl, rfl⟩

theorem rolesFit_handover : rolesFit .observer .master true := ⟨nofun, nofun, nofun, rfl⟩

theorem rolesFit_claims {a b : LinkRole} {runs : Bool} (h : rolesFit a b runs) (other : b = .master) : rolesFit .claimant b runs := by
  subst other
  exact ⟨nofun, fun _ => rfl, nofun, h.2.2.2.trans (by simp)⟩

theorem rolesFit_leave {a b : LinkRole} {runs : Bool} (h : rolesFit a b runs) (was : a = .master) (other : b ≠ .claimant) :
    rolesFit .observer b false := by
  subst was
  have silent : b = .observer := by
    cases b with
    | observer => rfl
    | claimant => exact absurd rfl other
    | master => exact absurd ⟨rfl, rfl⟩ h.1
  subst silent
  exact ⟨nofun, nofun, nofun, rfl⟩

theorem RolesInv.grant {x : LinkSupervisor} (h : RolesInv x) {l : LinkId} (free : (x.link l).role = .observer)
    (other : (x.link (otherLink l)).role ≠ .master) (now : Nat) : RolesInv (x.grant l now) := by
  cases l with
  | a => exact rolesFit_grant h free other
  | b => exact rolesFit_comm (rolesFit_grant (rolesFit_comm h) free other)

theorem RolesInv.claims {x : LinkSupervisor} {l : LinkId} (h : RolesInv x) (other : (x.link (otherLink l)).role = .master) :
    RolesInv (x.modLink l fun k => { k with role := .claimant }) := by
  cases l with
  | a => exact rolesFit_claims h other
  | b => exact rolesFit_comm (rolesFit_claims (rolesFit_comm h) other)

theorem RolesInv.handover (x : LinkSupervisor) (l : LinkId) (now : Nat) :
    RolesInv (({ x.modLink l fun k => { k with role := .observer } with periodTimer := none } : LinkSupervisor).grant (otherLink l) now) := by
  cases l with
  | a => exact rolesFit_handover
  | b => exact rolesFit_comm rolesFit_handover

theorem RolesInv.leave {x : LinkSupervisor} (h : RolesInv x) {l : LinkId} (was : (x.link l).role = .master)
    (other : (x.link (otherLink l)).role ≠ .claimant) :
    RolesInv { x.modLink l fun k => { k with role := .observer } with periodTimer := none } := by
  cases l with
  | a => exact rolesFit_leave h was other
  | b => exact rolesFit_comm (rolesFit_leave (rolesFit_comm h) was other)

/-- The period timer runs while a link is MASTER, so that a KEEPALIVE restarts it. -/
theorem RolesInv.keep {x : LinkSupervisor} (h : RolesInv x) {l : LinkId} (master : (x.link l).role = .master) (now : Nat) :
    RolesInv (x.keep now) := by
  refine h.of_eq rfl rfl (h.2.2.2.trans ?_).symm
  cases l with
  | a => simp [show x.linkA.role = .master from master]; rfl
  | b => simp [show x.linkB.role = .master from master]; rfl

theorem rolesInv_observers {x : LinkSupervisor} (a : x.linkA.role = .observer) (b : x.linkB.role = .observer)
    (timer : x.periodTimer = none) : RolesInv x := by
  rw [RolesInv, a, b, timer]
  exact ⟨nofun, nofun, nofun, rfl⟩

theorem RolesInv.modLink {x : LinkSupervisor} (h : RolesInv x) (l : LinkId) {f : Link → Link} (role : ∀ k, (f k).role = k.role) :
    RolesInv (x.modLink l f) := by
  cases l with
  | a => exact h.of_eq (role _) rfl rfl
  | b => exact h.of_eq rfl (role _) rfl

/-! ### The link-watch -/

theorem WatchInv.modLink {x : LinkSupervisor} (h : WatchInv x) (l : LinkId) (f : Link → Link) : WatchInv (x.modLink l f) := by
  cases l <;> exact ⟨h.limit, h.lapses, h.run, h.period, h.shf⟩

theorem WatchInv.periodTimer {x : LinkSupervisor} (h : WatchInv x) (timer : Option PeriodTimer) :
    WatchInv { x with periodTimer := timer } := ⟨h.limit, h.lapses, h.run, h.period, h.shf⟩

theorem WatchInv.grant {x : LinkSupervisor} (h : WatchInv x) (l : LinkId) (now : Nat) : WatchInv (x.grant l now) := by
  have y := h.modLink l fun k => { k with role := .master }
  exact ⟨y.limit, y.lapses, Nat.zero_le 3, y.period, rfl⟩

theorem WatchInv.lapse {x : LinkSupervisor} (h : WatchInv x) : WatchInv x.lapse :=
  ⟨h.limit, min_le_left 4 _, Nat.zero_le 3, h.period, rfl⟩

theorem WatchInv.keep {x : LinkSupervisor} (h : WatchInv x) (now : Nat) : WatchInv (x.keep now) := by
  refine ⟨h.limit, ?_, min_le_left 3 _, h.period, rfl⟩
  rw [LinkSupervisor.keep_lapses]
  split
  · exact Nat.zero_le 4
  · exact h.lapses

theorem mastershipInv_reset (rate : BitVec 2) (draws : Nat) : MastershipInv (.reset rate draws) :=
  (mastershipInv_iff _).mpr ⟨rolesInv_observers rfl rfl rfl,
    (by decide : 1 ≤ 2 ∧ 2 ≤ 4), Nat.zero_le 4, Nat.zero_le 3, (by decide : 200 ≤ 1000 ∧ 1000 ≤ 10000 ∧ 1000 % 100 = 0), rfl⟩

/-! ### Every change -/

theorem mastershipInv_change {s t : State} (c : Change s t) (h : MastershipInv s.links) : MastershipInv t.links := by
  obtain ⟨roles, watch⟩ := (mastershipInv_iff _).mp h
  cases c with
  | link l f role => exact (mastershipInv_iff _).mpr ⟨roles.modLink l role, watch.modLink l f⟩
  | grant l free other => exact (mastershipInv_iff _).mpr ⟨roles.grant free other s.now, watch.grant l s.now⟩
  | claims l _ other => exact (mastershipInv_iff _).mpr ⟨roles.claims other, watch.modLink l fun k => { k with role := .claimant }⟩
  | handover l _ _ =>
    exact (mastershipInv_iff _).mpr ⟨.handover s.links l s.now, ((watch.modLink l _).periodTimer none).grant (otherLink l) s.now⟩
  | leave l was other => exact (mastershipInv_iff _).mpr ⟨roles.leave was other, (watch.modLink l _).periodTimer none⟩
  | lapse => exact (mastershipInv_iff _).mpr ⟨roles.of_eq rfl rfl rfl, watch.lapse⟩
  | keep l master => exact (mastershipInv_iff _).mpr ⟨roles.keep master s.now, watch.keep s.now⟩
  | watch mode period limit hp hl =>
    exact (mastershipInv_iff _).mpr ⟨roles.of_eq rfl rfl rfl, hl, watch.lapses, watch.run, hp, rfl⟩
  | restart => exact (mastershipInv_iff _).mpr ⟨rolesInv_observers rfl rfl rfl, watch.limit, watch.lapses, watch.run, watch.period, watch.shf⟩
  | reset rate now draws order q => exact mastershipInv_reset rate draws
  | enable p cfg _ _ _ =>
    have told : MastershipInv (setPortTo p (Port.startService s.now cfg) s).links := (setPortTo_keeps p _ s).links ▸ h
    unfold scanEnabled
    split <;> exact told
  | disable p cfg _ _ _ _ => exact (setPortTo_keeps p (.disabled cfg) s).links ▸ h
  | port p f _ _ => exact (portEvent_keeps p f s).links ▸ h
  | convert c code _ _ => exact (portEvent_keeps c.port _ s).links ▸ h
  | holdOff p _ _ => exact (setPortTo_keeps p _ s).links ▸ h
  | tick => rw [(portsInTurn_keeps _ _).links]; exact h
  | finish e => rw [finish_links]; exact h
  | switch | group | remove | timing | steering | acquired | endHoldover | switchOnly | redefine | service | clock | draws
  | identity | ranges | noticeSettings | noticePop | raise | scan | test | profile | acknowledge | pin => exact h

/-- Settles O58: every change keeps the roles and the counts of the link-watch as R173 to R178 have them. -/
theorem stepKeepsMastershipLaws : Obligations.StepKeepsMastershipLaws := by
  unfold Obligations.StepKeepsMastershipLaws
  exact fun s t h e => step_keeps (P := fun s => MastershipInv s.links) (fun _ _ => mastershipInv_change) (fun _ _ => id) h e

end Sys2Proof.Machine
end

section
/-! Every request command is the request that a frame of its KIND is (R168 to R171, R182). -/

namespace Sys2Proof.Machine

/-- A request command on a receiver that awaits a frame is the frame of its KIND; on any other it is not seen (R167, R168). -/
theorem exec_takenRequest {i : Instr} {q : Taken} (h : takenRequest i = some q) (s : State) :
    exec i s = .next (if (s.links.link q.link).rx.state = .awaitLen then takeKind q.link q.tag q.kind q.payload s else s) := by
  have seen : ∀ l : LinkId, (awaitsFrame l s = true) = ((s.links.link l).rx.state = .awaitLen) := fun l => decide_eq_true_eq
  cases i <;> cases h
  all_goals
    refine congrArg Host.Outcome.next ?_
    simp only [request, takeProtRequest, takeSetMaint, takeTimingRequest, seen]
    rfl

end Sys2Proof.Machine
end

section
/-! Every step keeps the laws of requests in progress (R21, R107, R171) and of the notice queue (R159). -/

namespace Sys2Proof.Machine

/-! ### What the laws read -/

/-- On every link the outstanding request and the ready replies stand, and so does the link that a running test is for. -/
structure SameRequests (s t : State) : Prop where
  outstanding : ∀ l, (t.links.link l).outstanding = (s.links.link l).outstanding
  ready : ∀ l, (t.links.link l).ready = (s.links.link l).ready
  test : t.cableTest.map (·.link) = s.cableTest.map (·.link)

theorem SameRequests.refl (s : State) : SameRequests s s := ⟨fun _ => rfl, fun _ => rfl, rfl⟩

theorem SameRequests.trans {s t u : State} (a : SameRequests s t) (b : SameRequests t u) : SameRequests s u :=
  ⟨fun l => (b.outstanding l).trans (a.outstanding l), fun l => (b.ready l).trans (a.ready l), b.test.trans a.test⟩

theorem SameRequests.of_eq {s t : State} (links : t.links = s.links) (test : t.cableTest = s.cableTest) : SameRequests s t :=
  ⟨fun _ => by rw [links], fun _ => by rw [links], by rw [test]⟩

theorem SameRequests.of_keeps {s t : State} (h : KeepsOthers s t) : SameRequests s t := .of_eq h.links h.cableTest

theorem SameRequests.modLink (l : LinkId) {f : Link → Link} (s : State)
    (h : ∀ k, (f k).outstanding = k.outstanding ∧ (f k).ready = k.ready) : SameRequests s (modLink l f s) := by
  have at_ : ∀ m, (Machine.modLink l f s).links.link m = if m = l then f (s.links.link m) else s.links.link m := by
    intro m
    split
    · next e => subst e; exact LinkSupervisor.modLink_link _ _ _
    · next e => exact LinkSupervisor.modLink_link_ne _ e _
  refine ⟨fun m => ?_, fun m => ?_, rfl⟩ <;> rw [at_] <;> split
  exacts [(h _).1, rfl, (h _).2, rfl]

/-- Nothing that the laws read has changed but for the notices queued at the end of an event. -/
structure Unmoved (s t : State) : Prop where
  requests : SameRequests s t
  quiet : Quiet s → Quiet t

theorem Unmoved.refl (s : State) : Unmoved s s := ⟨.refl s, id⟩

theorem Unmoved.trans {s t u : State} (a : Unmoved s t) (b : Unmoved t u) : Unmoved s u := ⟨a.requests.trans b.requests, b.quiet ∘ a.quiet⟩

/-- The end of an event leaves no notice behind, whatever came about in it. -/
theorem Unmoved.event {s u : State} (h : SameRequests s u) (e : Expiry) : Unmoved s (finish e u) :=
  ⟨h.trans (.of_eq (finish_links e u) (finish_cableTest e u)), fun _ => finish_quiet e u⟩

theorem Unmoved.of_eq {s t : State} (links : t.links = s.links) (test : t.cableTest = s.cableTest) (sw : t.sw.raised = s.sw.raised)
    (timing : t.timing.raised = s.timing.raised) (raised : t.raised = s.raised) : Unmoved s t :=
  ⟨.of_eq links test, fun ⟨a, b, c⟩ => ⟨sw.trans a, timing.trans b, raised.trans c⟩⟩

/-- The requests in progress, but that a link of `ex` may have any request waiting for its reply, which is no running test's. -/
structure RequestsBut (ex : LinkId → Prop) (s : State) : Prop where
  replies : ∀ l, RepliesInv (s.links.link l)
  waiting : ∀ l, ¬ ex l → ∀ o : Outstanding, (s.links.link l).outstanding = some o → o.formed = false →
    o.kind = 0x2B ∨ (o.kind = 0x16 ∧ ∃ t, s.cableTest = some t ∧ t.link = l)
  test : ∀ t, s.cableTest = some t → ∃ tag, (s.links.link t.link).outstanding = some ⟨tag, 0x16, false⟩
  apart : ∀ l t, ex l → s.cableTest = some t → t.link ≠ l

theorem requestsInv_iff (s : State) : RequestsInv s ↔ RequestsBut (fun _ => False) s :=
  ⟨fun h => ⟨h.replies, fun l _ => h.waiting l, h.test, nofun⟩, fun h => ⟨h.replies, fun l => h.waiting l id, h.test⟩⟩

/-- A request on a link is being handled: it is outstanding, with no reply formed yet. -/
structure OpenRequest (l : LinkId) (tag kind : Byte) (s : State) : Prop where
  others : RequestsBut (· = l) s
  own : (s.links.link l).outstanding = some ⟨tag, kind, false⟩

theorem RepliesInv.of_eq {k m : Link} (h : RepliesInv k) (outstanding : m.outstanding = k.outstanding) (ready : m.ready = k.ready) :
    RepliesInv m := ⟨by rw [ready, outstanding]; exact h.own, by rw [ready]; exact h.busy⟩

theorem RequestsBut.calm {ex : LinkId → Prop} {s t : State} (h : RequestsBut ex s) (c : SameRequests s t) : RequestsBut ex t := by
  have test : ∀ {x : CableTest}, t.cableTest = some x → ∃ y, s.cableTest = some y ∧ y.link = x.link := fun e =>
    Option.map_eq_some_iff.mp (c.test.symm.trans (congrArg (Option.map _) e))
  refine ⟨fun l => (h.replies l).of_eq (c.outstanding l) (c.ready l), fun l free o e unformed => ?_, fun x e => ?_, fun l x hl e => ?_⟩
  · rcases h.waiting l free o (c.outstanding l ▸ e) unformed with settle | ⟨kind, y, hy, own⟩
    · exact .inl settle
    · obtain ⟨x, hx, same⟩ := Option.map_eq_some_iff.mp (c.test.trans (congrArg (Option.map _) hy))
      exact .inr ⟨kind, x, hx, same.trans own⟩
  · obtain ⟨y, hy, same⟩ := test e
    obtain ⟨tag, own⟩ := h.test y hy
    exact ⟨tag, by rw [c.outstanding, ← same]; exact own⟩
  · obtain ⟨y, hy, same⟩ := test e
    exact same ▸ h.apart l y hl hy

theorem RequestsInv.calm {s t : State} (h : RequestsInv s) (c : SameRequests s t) : RequestsInv t :=
  (requestsInv_iff t).mpr (((requestsInv_iff s).mp h).calm c)

theorem OpenRequest.calm {l : LinkId} {tag kind : Byte} {s t : State} (h : OpenRequest l tag kind s) (c : SameRequests s t) :
    OpenRequest l tag kind t := ⟨h.others.calm c, (c.outstanding l).trans h.own⟩

/-! ### One link replaced -/

/-- The laws after one link has taken another outstanding request and other replies, the test standing. -/
theorem RequestsBut.link {ex ex' : LinkId → Prop} {s t : State} (h : RequestsBut ex s) {l : LinkId} {k : Link}
    (new : t.links.link l = k) (old : ∀ m, m ≠ l → t.links.link m = s.links.link m) (test : t.cableTest = s.cableTest)
    (replies : RepliesInv k)
    (waiting : ¬ ex' l → ∀ o : Outstanding, k.outstanding = some o → o.formed = false →
      o.kind = 0x2B ∨ (o.kind = 0x16 ∧ ∃ t, s.cableTest = some t ∧ t.link = l))
    (own : ∀ x, s.cableTest = some x → x.link = l → ∃ tag, k.outstanding = some ⟨tag, 0x16, false⟩)
    (same : ∀ m, m ≠ l → (ex' m ↔ ex m)) (apart : ∀ x, ex' l → s.cableTest = some x → x.link ≠ l) : RequestsBut ex' t := by
  refine ⟨fun m => ?_, fun m free => ?_, fun x e => ?_, fun m x hm e => ?_⟩
  · by_cases e : m = l
    · subst e; rw [new]; exact replies
    · rw [old m e]; exact h.replies m
  · rw [test]
    by_cases e : m = l
    · subst e; rw [new]; exact waiting free
    · rw [old m e]; exact h.waiting m fun hm => free ((same m e).mpr hm)
  · rw [test] at e
    by_cases el : x.link = l
    · rw [el, new]; exact own x e el
    · rw [old _ el]; exact h.test x e
  · rw [test] at e
    by_cases em : m = l
    · subst em; exact apart x hm e
    · exact h.apart m x ((same m em).mp hm) e

theorem modLink_link (l : LinkId) (f : Link → Link) (s : State) : (modLink l f s).links.link l = f (s.links.link l) :=
  LinkSupervisor.modLink_link _ _ _

theorem modLink_link_ne {l m : LinkId} (ne : m ≠ l) (f : Link → Link) (s : State) :
    (modLink l f s).links.link m = s.links.link m := LinkSupervisor.modLink_link_ne _ ne _

theorem countP_append_reply (p : Reply → Bool) (rs : List Reply) (r : Reply) :
    (rs ++ [r]).countP p = rs.countP p + if p r then 1 else 0 := by
  rw [List.countP_append, List.countP_singleton]

theorem RepliesInv.waiting {k : Link} (h : RepliesInv k) {o : Outstanding} (e : k.outstanding = some o) (unformed : o.formed = false) :
    (k.ready.countP fun r => !r.busy) = 0 := by
  rw [h.own, e]
  simp [unformed]

theorem RepliesInv.answer {k : Link} (h : RepliesInv k) {tag kind : Byte} (e : k.outstanding = some ⟨tag, kind, false⟩)
    (payload : List Byte) : RepliesInv (k.answer payload) := by
  have none := h.waiting e rfl
  unfold Link.answer
  rw [e]
  refine ⟨?_, ?_⟩
  · rw [countP_append_reply, none]; rfl
  · rw [countP_append_reply]; exact h.busy

theorem Link.answer_outstanding {k : Link} {tag kind : Byte} (e : k.outstanding = some ⟨tag, kind, false⟩) (payload : List Byte) :
    (k.answer payload).outstanding = some ⟨tag, kind, true⟩ := by
  unfold Link.answer
  rw [e]

/-! ### A request taken -/

theorem RequestsInv.take {s : State} (h : RequestsInv s) {l : LinkId} (free : (s.links.link l).outstanding = none) (tag kind : Byte) :
    OpenRequest l tag kind (modLink l (Link.deferredTo tag kind) s) := by
  have noTest : ∀ x, s.cableTest = some x → x.link ≠ l := by
    rintro x e rfl
    obtain ⟨tag, own⟩ := h.test x e
    exact absurd (free.symm.trans own) nofun
  refine ⟨((requestsInv_iff s).mp h).link (modLink_link l _ s) (fun _ ne => modLink_link_ne ne _ s) rfl ?_
    (fun no => absurd rfl no) (fun x e el => absurd el (noTest x e)) (fun m ne => iff_of_false ne id) (fun x _ => noTest x), ?_⟩
  · refine ⟨?_, (h.replies l).busy⟩
    have own := (h.replies l).own
    rw [free] at own
    exact own
  · rw [modLink_link]; rfl

theorem OpenRequest.answer {l : LinkId} {tag kind : Byte} {s : State} (h : OpenRequest l tag kind s) (payload : List Byte) :
    RequestsInv (modLink l (Link.answer payload) s) := by
  refine (requestsInv_iff _).mpr (h.others.link (modLink_link l _ s) (fun _ ne => modLink_link_ne ne _ s) rfl
    ((h.others.replies l).answer h.own payload) (fun _ o e unformed => ?_) (fun x e el => absurd el (h.others.apart l x rfl e))
    (fun m ne => iff_of_false id ne) nofun)
  rw [Link.answer_outstanding h.own] at e
  cases e
  cases unformed

theorem RequestsInv.busy {s : State} (h : RequestsInv s) (l : LinkId) (tag kind : Byte) :
    RequestsInv (modLink l (fun k => Link.busy tag kind k.frameTaken) s) := by
  have outstanding : (Link.busy tag kind (s.links.link l).frameTaken).outstanding = (s.links.link l).outstanding := by
    unfold Link.busy; split <;> rfl
  refine (requestsInv_iff _).mpr (((requestsInv_iff s).mp h).link (modLink_link l _ s) (fun _ ne => modLink_link_ne ne _ s) rfl ?_
    (fun _ o e => h.waiting l o (outstanding ▸ e)) (fun x e el => outstanding ▸ el ▸ h.test x e) (fun _ _ => .rfl) nofun)
  have inv := h.replies l
  unfold Link.busy
  split
  · exact inv.of_eq rfl rfl
  · next none =>
    have none : ((s.links.link l).ready.countP fun r => r.busy) = 0 := List.countP_eq_zero.mpr (by simpa using none)
    refine ⟨?_, ?_⟩
    · rw [countP_append_reply]; exact inv.own
    · rw [countP_append_reply, Link.frameTaken_ready, none]; exact Nat.le_refl 1

/-! ### Tests that end, and SETTLE -/

theorem RequestsBut.resumeTest {ex : LinkId → Prop} {s : State} (replies : ∀ l, RepliesInv (s.links.link l))
    (waiting : ∀ l, ¬ ex l → ∀ o : Outstanding, (s.links.link l).outstanding = some o → o.formed = false → o.kind = 0x2B) :
    RequestsBut ex (resumeTest s) := by
  have links : (Machine.resumeTest s).links = s.links := by unfold Machine.resumeTest; split <;> rfl
  exact ⟨links ▸ replies, fun l free o e unformed => .inl (waiting l free o (links ▸ e) unformed),
    fun t e => absurd ((resumeTest_cableTest s).symm.trans e) nofun, fun _ t _ e => absurd ((resumeTest_cableTest s).symm.trans e) nofun⟩

theorem endTest_link {s : State} {t : CableTest} (e : s.cableTest = some t) {m : LinkId} (ne : t.link ≠ m) (r : TestResult) (n : Nat) :
    (endTest r n s).links.link m = s.links.link m := by
  have links : ∀ u : State, (resumeTest u).links = u.links := fun u => by unfold resumeTest; split <;> rfl
  rw [endTest_eq e, links, modLink_link_ne (Ne.symm ne)]

theorem RequestsBut.endTest {ex : LinkId → Prop} {s : State} (h : RequestsBut ex s) (r : TestResult) (n : Nat) :
    RequestsBut ex (endTest r n s) := by
  cases e : s.cableTest with
  | none => rw [endTest_none e]; exact h
  | some t =>
    obtain ⟨tag, own⟩ := h.test t e
    rw [endTest_eq e]
    refine .resumeTest (fun l => ?_) fun l free o eo unformed => ?_
    · by_cases el : l = t.link
      · subst el; rw [modLink_link]; exact (h.replies _).answer own _
      · rw [modLink_link_ne el]; exact h.replies l
    · by_cases el : l = t.link
      · subst el
        rw [modLink_link, Link.answer_outstanding own] at eo
        cases eo
        cases unformed
      · rw [modLink_link_ne el] at eo
        rcases h.waiting l free o eo unformed with settle | ⟨_, x, hx, rfl⟩
        · exact settle
        · rw [e] at hx
          cases hx
          exact absurd rfl el

theorem RequestsInv.endTest {s : State} (h : RequestsInv s) (r : TestResult) (n : Nat) : RequestsInv (endTest r n s) :=
  (requestsInv_iff _).mpr (((requestsInv_iff s).mp h).endTest r n)

theorem OpenRequest.endTest {l : LinkId} {tag kind : Byte} {s : State} (h : OpenRequest l tag kind s) (r : TestResult) (n : Nat) :
    OpenRequest l tag kind (endTest r n s) := by
  refine ⟨h.others.endTest r n, ?_⟩
  cases e : s.cableTest with
  | none => rw [endTest_none e]; exact h.own
  | some t => rw [endTest_link e (h.others.apart l t rfl e)]; exact h.own

theorem OpenRequest.abortBroken {l : LinkId} {tag kind : Byte} {s : State} (h : OpenRequest l tag kind s) :
    OpenRequest l tag kind (abortBroken s) := by
  rcases abortBroken_cases s with e | e <;> rw [e]
  · exact h
  · exact h.endTest .aborted 0

theorem endTest_raised (r : TestResult) (n : Nat) (s : State) :
    (endTest r n s).sw.raised = s.sw.raised ∧ (endTest r n s).timing.raised = s.timing.raised ∧ (endTest r n s).raised = s.raised := by
  cases e : s.cableTest with
  | none => rw [endTest_none e]; exact ⟨rfl, rfl, rfl⟩
  | some t => rw [endTest_eq e, resumeTest_eq (s := modLink t.link _ s) (t := t) e]; exact ⟨rfl, rfl, rfl⟩

theorem endTest_quiet {s : State} (h : Quiet s) (r : TestResult) (n : Nat) : Quiet (endTest r n s) := by
  obtain ⟨sw, timing, raised⟩ := endTest_raised r n s
  obtain ⟨a, b, c⟩ := h
  exact ⟨sw.trans a, timing.trans b, raised.trans c⟩

/-- A SETTLE that waits is outstanding with no reply formed. -/
theorem Link.settling_iff (k : Link) : k.settling = true ↔ ∃ tag, k.outstanding = some ⟨tag, 0x2B, false⟩ := by
  unfold Link.settling
  cases k.outstanding with
  | none => simp
  | some o =>
    obtain ⟨tag, kind, formed⟩ := o
    simp

theorem RequestsInv.settled {s : State} (h : RequestsInv s) (l : LinkId) (gs : List GroupId) :
    RequestsInv (modLink l (Link.settled gs) s) := by
  by_cases e : (s.links.link l).settling = true
  · obtain ⟨tag, own⟩ := (Link.settling_iff _).mp e
    have new : Link.settled gs (s.links.link l) = (s.links.link l).answer (okWith (settleBytes gs)) := if_pos e
    refine (requestsInv_iff _).mpr (((requestsInv_iff s).mp h).link ((modLink_link l _ s).trans new)
      (fun _ ne => modLink_link_ne ne _ s) rfl ((h.replies l).answer own _) (fun _ o eo unformed => ?_) (fun x ex el => ?_)
      (fun _ _ => .rfl) nofun)
    · rw [Link.answer_outstanding own] at eo
      cases eo
      cases unformed
    · obtain ⟨tag', own'⟩ := h.test x ex
      rw [el, own] at own'
      cases own'
  · have same : Link.settled gs (s.links.link l) = s.links.link l := if_neg e
    exact (requestsInv_iff _).mpr (((requestsInv_iff s).mp h).link ((modLink_link l _ s).trans same)
      (fun _ ne => modLink_link_ne ne _ s) rfl (h.replies l) (fun _ => h.waiting l) (fun x ex el => el ▸ h.test x ex)
      (fun _ _ => .rfl) nofun)

theorem RequestsInv.settleReplies {s : State} (h : RequestsInv s) : RequestsInv (settleReplies s) := by
  unfold Machine.settleReplies
  split
  · exact ((h.calm (t := { s with sw := { s.sw with settleFail := [] } }) (.of_eq rfl rfl)).settled .b _).settled .a _
  · exact h

theorem settleReplies_quiet {s : State} (h : Quiet s) : Quiet (settleReplies s) := by
  obtain ⟨a, b, c⟩ := h
  unfold Machine.settleReplies
  split <;> exact ⟨a, b, c⟩

/-- A SETTLE that is being handled may wait (R107). -/
theorem OpenRequest.settles {l : LinkId} {tag : Byte} {s : State} (h : OpenRequest l tag 0x2B s) : RequestsInv s := by
  refine (requestsInv_iff s).mpr (h.others.link rfl (fun _ _ => rfl) rfl (h.others.replies l) (fun _ o e _ => ?_)
    (fun x e el => absurd el (h.others.apart l x rfl e)) (fun m ne => iff_of_false id ne) nofun)
  rw [h.own] at e
  cases e
  exact .inl rfl

/-- A CABLE-TEST whose test begins may wait (R21). -/
theorem OpenRequest.startTest {l : LinkId} {tag : Byte} {s : State} (h : OpenRequest l tag 0x16 s) (a : TestArgs)
    (idle : s.cableTest = none) : RequestsInv (startTest l a s) := by
  refine ⟨h.others.replies, fun m o e unformed => ?_, fun t e => ?_⟩
  · by_cases em : m = l
    · subst em
      rw [startTest_links, h.own] at e
      cases e
      exact .inr ⟨rfl, _, rfl, rfl⟩
    · rcases h.others.waiting m em o e unformed with settle | ⟨_, x, hx, _⟩
      · exact .inl settle
      · exact absurd (idle.symm.trans hx) nofun
  · cases e
    exact ⟨tag, h.own⟩

/-! ### Mastership leaves the requests as they stand -/

theorem sameRequests_masterless (s : State) : SameRequests s (masterless s) := .of_keeps (masterless_keeps s)

theorem sameRequests_role (l : LinkId) (r : LinkRole) (timer : Option PeriodTimer) (s : State) : SameRequests s
    { s with links := { s.links.modLink l fun k => { k with role := r } with periodTimer := timer } } := by
  cases l <;> exact ⟨fun m => by cases m <;> rfl, fun m => by cases m <;> rfl, rfl⟩

theorem sameRequests_grant (l : LinkId) (s : State) : SameRequests s (grant l s) := by
  cases l <;> exact ⟨fun m => by cases m <;> rfl, fun m => by cases m <;> rfl, rfl⟩

theorem sameRequests_depart (l : LinkId) (s : State) : SameRequests s (depart l s) := by
  have leave := sameRequests_role l .observer none s
  unfold depart
  dsimp only
  split
  · exact (leave.trans (sameRequests_grant _ _)).trans (.of_eq rfl rfl)
  · exact leave.trans (sameRequests_masterless _)

theorem sameRequests_supervisor {s : State} {x : LinkSupervisor} (a : x.linkA = s.links.linkA) (b : x.linkB = s.links.linkB) :
    SameRequests s { s with links := x } :=
  ⟨fun m => by cases m; exacts [congrArg _ a, congrArg _ b], fun m => by cases m; exacts [congrArg _ a, congrArg _ b], rfl⟩

theorem sameRequests_lapse (l : LinkId) (s : State) : SameRequests s (lapse l s) :=
  (sameRequests_supervisor (s := s) (x := s.links.lapse) rfl rfl).trans (sameRequests_depart l _)

/-! ### The requests of section 10.1 -/

/-- A request's own rule leaves the laws: with its request waiting for the reply it forms, or, where it forms none, waiting rightly. -/
def Serves (l : LinkId) (kind : Byte) (h : Handler) : Prop := ∀ (tag : Byte) (s : State), OpenRequest l tag kind s → Quiet s →
  Quiet (h s).1 ∧ match (h s).2 with
    | some _ => OpenRequest l tag kind (h s).1
    | none => RequestsInv (h s).1

theorem Serves.of_calm {l : LinkId} {kind : Byte} {h : Handler} (c : ∀ s, Unmoved s (h s).1) (replies : ∀ s, (h s).2.isSome) :
    Serves l kind h := fun tag s o q => by
  refine ⟨(c s).quiet q, ?_⟩
  obtain ⟨payload, e⟩ := Option.isSome_iff_exists.mp (replies s)
  rw [e]
  exact o.calm (c s).requests

/-- The laws between two events: the requests in progress, and no notice left behind. -/
structure Orderly (s : State) : Prop where
  requests : RequestsInv s
  quiet : Quiet s

theorem Orderly.calm {s t : State} (h : Orderly s) (c : Unmoved s t) : Orderly t := ⟨h.requests.calm c.requests, c.quiet h.quiet⟩

theorem orderly_takeRequest {l : LinkId} {tag kind : Byte} {fits masterOnly : Bool} {handle : Handler} {s : State} (h : Orderly s)
    (serves : Serves l kind handle) : Orderly (takeRequest l tag kind fits masterOnly handle s) := by
  have answered : ∀ payload, (s.links.link l).outstanding = none →
      Orderly (modLink l (fun k => (k.deferredTo tag kind).answer payload) s) := fun payload free => by
    rw [show (fun k : Link => (k.deferredTo tag kind).answer payload) = Link.answer payload ∘ Link.deferredTo tag kind from rfl,
      ← modLink_modLink]
    exact ⟨(h.requests.take free tag kind).answer payload, h.quiet⟩
  rcases takeRequest_cases l tag kind fits masterOnly handle s with ⟨_, e⟩ | ⟨free, _, e⟩ | ⟨free, _, _, _, e⟩ | ⟨free, _, _, e⟩ <;> rw [e]
  · exact ⟨h.requests.busy l tag kind, h.quiet⟩
  · exact answered _ free
  · exact answered _ free
  · obtain ⟨quiet, done⟩ := serves tag _ (h.requests.take free tag kind) h.quiet
    split
    · next t et => rw [et] at quiet done; exact ⟨done, quiet⟩
    · next t payload et => rw [et] at quiet done; exact ⟨done.answer payload, quiet⟩

theorem orderly_takeBadKind (l : LinkId) (tag kind : Byte) {s : State} (h : Orderly s) : Orderly (takeBadKind l tag kind s) := by
  unfold takeBadKind
  dsimp only
  split
  · rw [modLink_modLink]
    exact ⟨h.requests.busy l tag kind, h.quiet⟩
  · next free =>
    have free : (s.links.link l).outstanding = none := by
      rw [modLink_link, Link.frameTaken_outstanding, Option.isSome_iff_ne_none, not_not] at free
      exact free
    rw [modLink_modLink]
    refine ⟨(requestsInv_iff _).mpr (((requestsInv_iff s).mp h.requests).link (modLink_link l _ s)
      (fun _ ne => modLink_link_ne ne _ s) rfl ?_ (fun _ o e unformed => ?_) (fun x e el => ?_) (fun _ _ => .rfl) nofun), h.quiet⟩
    · have inv := h.requests.replies l
      refine ⟨?_, ?_⟩
      · have own := inv.own
        rw [free] at own
        exact (countP_append_reply _ _ _).trans (congrArg (· + 1) own)
      · exact (countP_append_reply _ _ _).le.trans inv.busy
    · cases e
      cases unformed
    · obtain ⟨tag, own⟩ := h.requests.test x e
      rw [el, free] at own
      cases own

/-- A handler that ends its event, or leaves the part as it stands, is calm. -/
theorem calm_inSwitch (f : SwEnv → Switching → Switching) (s : State) : Unmoved s (finish .none (inSwitch f s)) :=
  .event (.of_keeps (inSwitch_keeps f s)) .none

theorem calm_inTiming (f : TimingEnv → Timing → Timing) (s : State) : Unmoved s (finish .none (inTiming f s)) :=
  .event (s := s) (u := inTiming f s) (.of_eq rfl rfl) .none

theorem serves_claim (l : LinkId) : Serves l 0x02 (claim l) := by
  refine .of_calm (fun s => ?_) fun s => ?_ <;> unfold claim <;> split
  · exact .refl s
  · exact .refl s
  · refine .event ?_ .none
    exact (SameRequests.modLink l s (f := fun k => { k with role := .claimant }) fun _ => ⟨rfl, rfl⟩).trans (.of_eq rfl rfl)
  · exact .event (sameRequests_grant l s) .none
  all_goals rfl

theorem serves_release (l : LinkId) : Serves l 0x03 (release l) :=
  .of_calm (fun s => .event (sameRequests_depart l s) .none) fun _ => rfl

theorem serves_keepalive (l : LinkId) (payload : List Byte) : Serves l 0x04 (keepalive l payload) := by
  refine .of_calm (fun s => ?_) fun s => ?_ <;> unfold keepalive <;> split
  · exact .event (sameRequests_lapse l s) .none
  · exact .event (sameRequests_supervisor (s := s) (x := s.links.keep s.now) rfl rfl) .none
  all_goals rfl

theorem serves_setLinkWatch (l : LinkId) (payload : List Byte) : Serves l 0x05 (setLinkWatch payload) := by
  refine .of_calm (fun s => ?_) fun s => ?_ <;> unfold setLinkWatch <;> split
  · exact .refl s
  · next mode period limit _ =>
    exact .event (sameRequests_supervisor (s := s)
      (x := ({ s.links with mode := mode, period := period, lapseLimit := limit } : LinkSupervisor).judgeShf) rfl rfl) .none
  all_goals rfl

theorem OpenRequest.writePort {l : LinkId} {tag kind : Byte} {s : State} (h : OpenRequest l tag kind s) (p : PortId) (cfg : PortRecord) :
    OpenRequest l tag kind (writePort p cfg s) := by
  have told := fun new => SameRequests.of_keeps (setPortTo_keeps p new s)
  unfold Machine.writePort
  dsimp only
  split
  · refine h.calm ((told (Port.startService s.now cfg)).trans ?_)
    unfold scanEnabled
    split <;> exact .of_eq rfl rfl
  · exact (h.calm ((told (.disabled cfg)).trans (u := scanDisabled p (setPortTo p (.disabled cfg) s)) (.of_eq rfl rfl))).abortBroken
  · exact h.calm (.of_keeps (portEvent_keeps _ _ s))
  · exact h.calm (.of_eq rfl rfl)

theorem serves_setPort (l : LinkId) (payload : List Byte) : Serves l 0x10 (setPort payload) := fun tag s o q => by
  unfold setPort
  split
  · exact ⟨q, o⟩
  · split
    · exact ⟨q, o⟩
    · exact ⟨finish_quiet _ _, (o.writePort _ _).calm (.of_eq (finish_links _ _) (finish_cableTest _ _))⟩

theorem serves_setRange (l : LinkId) (payload : List Byte) : Serves l 0x14 (setRange payload) := fun tag s o q => by
  unfold setRange
  split
  · exact ⟨q, o⟩
  · next i e _ =>
    refine ⟨finish_quiet _ _, OpenRequest.calm ?_ (.of_eq (finish_links _ _) (finish_cableTest _ _))⟩
    have ranged : SameRequests s { s with ranges := s.ranges.set i e } := .of_eq rfl rfl
    exact (o.calm (ranged.trans (.of_keeps (groupsInTurn_keeps _ _ _)))).abortBroken

theorem serves_cableTest (l : LinkId) (payload : List Byte) : Serves l 0x16 (cableTest l payload) := fun tag s o q => by
  unfold cableTest
  split
  · exact ⟨q, o⟩
  · split
    · exact ⟨q, o⟩
    · split
      · exact ⟨q, o⟩
      · next idle =>
        split
        · exact ⟨q, o⟩
        · exact ⟨q, o.startTest _ (Option.not_isSome_iff_eq_none.mp idle)⟩

theorem serves_setGroup (l : LinkId) (payload : List Byte) : Serves l 0x20 (setGroup payload) := by
  refine .of_calm (fun s => ?_) fun s => ?_ <;> unfold setGroup <;> split
  · exact .refl s
  · split
    · exact .refl s
    · split
      · exact .refl s
      · split
        · exact .refl s
        · next g _ _ _ _ _ _ c _ _ => exact .event (s := s) (u := writeGroup g c s) (.of_eq rfl rfl) .none
  · rfl
  · split
    · rfl
    · split
      · rfl
      · split <;> rfl

theorem serves_deleteGroup (l : LinkId) (payload : List Byte) : Serves l 0x21 (deleteGroup payload) := by
  refine .of_calm (fun s => ?_) fun s => ?_ <;> unfold deleteGroup <;> split
  · exact .refl s
  · split
    · next g _ _ => exact .event (s := s) (u := removeGroup g s) (.of_eq rfl rfl) .none
    · exact .refl s
  · rfl
  · split <;> rfl

/-- A request that only reads leaves the part as it stands. -/
theorem Serves.reads {l : LinkId} {kind : Byte} {h : Handler} (reads : ∀ s, (h s).1 = s ∧ (h s).2.isSome) : Serves l kind h :=
  .of_calm (fun s => by rw [(reads s).1]; exact .refl s) fun s => (reads s).2

theorem serves_protRequest (l : LinkId) (payload : List Byte) : Serves l 0x24 (protRequest payload) := by
  refine .of_calm (fun s => ?_) fun s => ?_ <;> unfold protRequest <;> split
  · split
    · exact .refl s
    · split
      · exact .refl s
      · exact calm_inSwitch _ s
  · exact .refl s
  · split
    · rfl
    · split <;> rfl
  · rfl

theorem serves_setMaint (l : LinkId) (payload : List Byte) : Serves l 0x28 (setMaint payload) := by
  refine .of_calm (fun s => ?_) fun s => ?_ <;> unfold setMaint <;> split
  · split
    · exact .refl s
    · split
      · split
        · exact .refl s
        · split
          · exact .refl s
          · exact calm_inSwitch _ s
      · split
        · exact .refl s
        · exact calm_inSwitch _ s
  · exact .refl s
  · split
    · rfl
    · split
      · split
        · rfl
        · split <;> rfl
      · split <;> rfl
  · rfl

theorem serves_maintMove (l : LinkId) (payload : List Byte) : Serves l 0x29 (maintMove payload) := by
  refine .of_calm (fun s => ?_) fun s => ?_ <;> unfold maintMove <;> split
  · exact .refl s
  · split
    · exact .refl s
    · split
      · exact .refl s
      · split
        · exact .refl s
        · split
          · exact .refl s
          · exact .of_eq rfl rfl (by simp) rfl rfl
  · rfl
  · split
    · rfl
    · split
      · rfl
      · split
        · rfl
        · split <;> rfl

theorem serves_clearHalt (l : LinkId) (payload : List Byte) : Serves l 0x2A (clearHalt payload) := by
  refine .of_calm (fun s => ?_) fun s => ?_ <;> unfold clearHalt <;> split
  · exact .refl s
  · split
    · exact calm_inSwitch _ s
    · exact .refl s
  · rfl
  · split <;> rfl

theorem serves_settle (l : LinkId) : Serves l 0x2B settle := fun _ _ o q => ⟨settleReplies_quiet q, o.settles.settleReplies⟩

theorem serves_setRef (l : LinkId) (payload : List Byte) : Serves l 0x30 (setRef payload) := by
  refine .of_calm (fun s => ?_) fun s => ?_ <;> unfold setRef <;> split
  · exact .refl s
  · exact calm_inTiming _ s
  all_goals rfl

theorem serves_setTiming (l : LinkId) (payload : List Byte) : Serves l 0x32 (setTiming payload) := by
  refine .of_calm (fun s => ?_) fun s => ?_ <;> unfold setTiming <;> split
  · exact .refl s
  · exact calm_inTiming _ s
  all_goals rfl

theorem serves_timingRequest (l : LinkId) (payload : List Byte) : Serves l 0x33 (timingRequest payload) := by
  refine .of_calm (fun s => ?_) fun s => ?_ <;> unfold timingRequest <;> split
  · exact .refl s
  · split
    · exact .refl s
    · exact calm_inTiming _ s
  · rfl
  · split <;> rfl

theorem serves_setProfile (l : LinkId) (payload : List Byte) : Serves l 0x40 (setProfile payload) := by
  refine .of_calm (fun s => ?_) fun s => ?_ <;> unfold setProfile <;> split
  · exact .refl s
  · next k e _ =>
    exact .event (s := s) (u := writeProfile k e s) (.of_eq rfl rfl) .none
  all_goals rfl

theorem serves_setNotices (l : LinkId) (payload : List Byte) : Serves l 0x49 (setNotices payload) := by
  refine .of_calm (fun s => ?_) fun s => ?_ <;> unfold setNotices <;> split
  · exact .refl s
  · exact .of_eq rfl rfl rfl rfl rfl
  all_goals rfl

theorem reads_getPort (payload : List Byte) (s : State) : (getPort payload s).1 = s ∧ (getPort payload s).2.isSome := by
  unfold getPort
  split <;> exact ⟨rfl, rfl⟩

theorem reads_portStatus (payload : List Byte) (s : State) : (portStatus payload s).1 = s ∧ (portStatus payload s).2.isSome := by
  unfold portStatus
  split <;> exact ⟨rfl, rfl⟩

theorem reads_getRef (payload : List Byte) (s : State) : (getRef payload s).1 = s ∧ (getRef payload s).2.isSome := by
  unfold getRef
  split <;> exact ⟨rfl, rfl⟩

theorem reads_getProfile (payload : List Byte) (s : State) : (getProfile payload s).1 = s ∧ (getProfile payload s).2.isSome := by
  unfold getProfile
  split <;> exact ⟨rfl, rfl⟩

theorem reads_getGroup (payload : List Byte) (s : State) : (getGroup payload s).1 = s ∧ (getGroup payload s).2.isSome := by
  unfold getGroup
  split
  · exact ⟨rfl, rfl⟩
  · split <;> exact ⟨rfl, rfl⟩

theorem reads_groupStatus (payload : List Byte) (s : State) : (groupStatus payload s).1 = s ∧ (groupStatus payload s).2.isSome := by
  unfold groupStatus
  split
  · exact ⟨rfl, rfl⟩
  · split <;> exact ⟨rfl, rfl⟩

theorem reads_readAlarms (payload : List Byte) (s : State) : (readAlarms payload s).1 = s ∧ (readAlarms payload s).2.isSome := by
  unfold readAlarms
  split <;> exact ⟨rfl, rfl⟩

theorem orderly_ite {c : Prop} [Decidable c] {f g : State → State} {s : State} (hf : Orderly (f s)) (hg : Orderly (g s)) :
    Orderly ((if c then f else g) s) := by
  split
  · exact hf
  · exact hg

/-- A frame whose CRC fits leaves the laws, whatever its KIND (R169 to R171). -/
theorem orderly_takeKind (l : LinkId) (tag kind : Byte) (payload : List Byte) {s : State} (h : Orderly s) :
    Orderly (takeKind l tag kind payload s) := by
  have reads : ∀ {tag kind : Byte} {fits masterOnly : Bool} {handle : Handler}, (∀ s, (handle s).1 = s ∧ (handle s).2.isSome) →
      Orderly (takeRequest l tag kind fits masterOnly handle s) := fun r => orderly_takeRequest h (.reads r)
  unfold takeKind
  refine orderly_ite (reads fun _ => ⟨rfl, rfl⟩) ?_
  refine orderly_ite (orderly_takeRequest h (serves_claim l)) ?_
  refine orderly_ite (orderly_takeRequest h (serves_release l)) ?_
  refine orderly_ite (orderly_takeRequest h (serves_keepalive l payload)) ?_
  refine orderly_ite (orderly_takeRequest h (serves_setLinkWatch l payload)) ?_
  refine orderly_ite (reads fun _ => ⟨rfl, rfl⟩) ?_
  refine orderly_ite (orderly_takeRequest h (serves_setPort l payload)) ?_
  refine orderly_ite (reads (reads_getPort payload)) ?_
  refine orderly_ite (reads (reads_portStatus payload)) ?_
  refine orderly_ite (orderly_takeRequest h (.of_calm (fun s => .of_eq rfl rfl rfl rfl rfl) fun _ => rfl)) ?_
  refine orderly_ite (orderly_takeRequest h (serves_setRange l payload)) ?_
  refine orderly_ite (reads fun _ => ⟨rfl, rfl⟩) ?_
  refine orderly_ite (orderly_takeRequest h (serves_cableTest l payload)) ?_
  refine orderly_ite (orderly_takeRequest h (serves_setGroup l payload)) ?_
  refine orderly_ite (orderly_takeRequest h (serves_deleteGroup l payload)) ?_
  refine orderly_ite (reads (reads_getGroup payload)) ?_
  refine orderly_ite (reads (reads_groupStatus payload)) ?_
  refine orderly_ite (orderly_takeRequest h (serves_protRequest l payload)) ?_
  refine orderly_ite (orderly_takeRequest h (serves_setMaint l payload)) ?_
  refine orderly_ite (orderly_takeRequest h (serves_maintMove l payload)) ?_
  refine orderly_ite (orderly_takeRequest h (serves_clearHalt l payload)) ?_
  refine orderly_ite (orderly_takeRequest h (serves_settle l)) ?_
  refine orderly_ite (orderly_takeRequest h (serves_setRef l payload)) ?_
  refine orderly_ite (reads (reads_getRef payload)) ?_
  refine orderly_ite (orderly_takeRequest h (serves_setTiming l payload)) ?_
  refine orderly_ite (orderly_takeRequest h (serves_timingRequest l payload)) ?_
  refine orderly_ite (reads fun _ => ⟨rfl, rfl⟩) ?_
  refine orderly_ite (orderly_takeRequest h (serves_setProfile l payload)) ?_
  refine orderly_ite (reads (reads_getProfile payload)) ?_
  refine orderly_ite (reads (reads_readAlarms payload)) ?_
  refine orderly_ite (orderly_takeRequest h (.of_calm (fun s => .of_eq rfl rfl rfl rfl rfl) fun _ => rfl)) ?_
  refine orderly_ite (orderly_takeRequest h (serves_setNotices l payload)) ?_
  exact orderly_takeBadKind l tag kind h

/-! ### Operations and events -/

theorem orderly_onSamples (l : LinkId) (samples : List Bool) : ∀ {s : State}, Orderly s → Orderly (onSamples l samples s) := by
  unfold onSamples
  induction samples with
  | nil => exact id
  | cons b bs ih =>
    intro s h
    refine ih ?_
    have moved : Orderly (modLink l (fun k => { k with rx := ((s.links.link l).rx.sample b).1 }) s) :=
      h.calm ⟨.modLink l s fun _ => ⟨rfl, rfl⟩, id⟩
    unfold onSample
    dsimp only
    split
    · exact orderly_takeKind _ _ _ _ moved
    · exact moved

theorem calm_reach (n : Nat) (s : State) : Unmoved s (s.reach n) := .of_eq rfl rfl rfl rfl rfl

theorem calm_portEvent (p : PortId) (f : Port → Port) (s : State) : Unmoved s (finish .none (portEvent p f s)) :=
  .event (.of_keeps (portEvent_keeps p f s)) .none

theorem calm_pilotSamples (p : PortId) (samples : List Bool) : ∀ s, Unmoved s (pilotSamples p samples s) := by
  unfold pilotSamples
  induction samples with
  | nil => exact .refl
  | cons b bs ih =>
    refine fun s => Unmoved.trans ?_ (ih _)
    unfold pilotSample
    dsimp only
    split
    · exact .of_eq rfl rfl rfl rfl rfl
    · exact calm_portEvent _ _ _

theorem calm_outOn (phase : OutPhase) {f : Nat → CableTest → CableTest} (link : ∀ n t, (f n t).link = t.link) (s : State) :
    Unmoved s (outOn phase f s) := by
  unfold outOn
  split
  · exact .refl s
  · next t e =>
    split
    · exact ⟨⟨fun _ => rfl, fun _ => rfl, by rw [e]; exact congrArg some (link _ t)⟩, id⟩
    · exact .refl s

theorem orderly_compareMore (bits : List (BitVec 12)) {s : State} (h : Orderly s) : Orderly (compareMore bits s) := by
  unfold compareMore
  split
  · exact h
  · next t e =>
    split
    · have kept : ∀ n reg, Orderly { s with cableTest := some { t with compared := n, inReg := reg } } := fun n reg =>
        h.calm ⟨⟨fun _ => rfl, fun _ => rfl, by rw [e]; rfl⟩, id⟩
      dsimp only
      split
      · exact kept _ _
      · exact ⟨(kept _ _).requests.endTest _ _, endTest_quiet (kept _ _).quiet _ _⟩
    · exact h

theorem calm_answered (f : SwEnv → Switching → Switching) (s : State) : Unmoved s (answered f s) := by
  unfold answered
  dsimp only
  split
  · exact .refl s
  · exact (calm_reach _ s).trans (calm_inSwitch f _)

theorem RequestsInv.popReply {s : State} (h : RequestsInv s) {l : LinkId} {r : Reply} {rest : List Reply}
    (ready : (s.links.link l).ready = r :: rest) (f : Frame) (ends : Nat) :
    RequestsInv (modLink l (fun k => (k.popReply r rest).beginFrame f ends) s) := by
  have inv := h.replies l
  obtain ⟨own, busy⟩ := inv
  rw [ready, List.countP_cons] at own busy
  refine (requestsInv_iff _).mpr (((requestsInv_iff s).mp h).link (modLink_link l _ s) (fun _ ne => modLink_link_ne ne _ s) rfl
    ⟨?_, ?_⟩ (fun _ o e => ?_) (fun x e el => ?_) (fun _ _ => .rfl) nofun) <;> cases rb : r.busy <;> rw [rb] at own busy
  case refine_1.false =>
    have done : (rest.countP fun r => !r.busy) = 0 := by
      replace own : (rest.countP fun r => !r.busy) + 1 = _ := own
      split at own <;> omega
    simpa [Link.popReply, Link.beginFrame, rb] using done
  case refine_1.true => simpa [Link.popReply, Link.beginFrame, rb] using own
  case refine_2.false => exact busy
  case refine_2.true => exact (Nat.le_succ _).trans busy
  case refine_3.false => simp [Link.popReply, Link.beginFrame, rb] at e
  case refine_3.true => exact h.waiting l o (by simpa [Link.popReply, Link.beginFrame, rb] using e)
  case refine_4.false =>
    obtain ⟨tag, waits⟩ := h.test x e
    rw [el] at waits
    rw [waits] at own
    exact absurd own (Nat.succ_ne_zero _)
  case refine_4.true =>
    obtain ⟨tag, waits⟩ := h.test x e
    rw [el] at waits
    exact ⟨tag, by simpa [Link.popReply, Link.beginFrame, rb] using waits⟩

theorem Orderly.restarted (s : State) : Orderly (finish .none (masterless (resumeTest (restartLinks s)))) := by
  have start : RequestsBut (fun _ => False) (resumeTest (restartLinks s)) :=
    .resumeTest (fun l => by cases l <;> exact ⟨rfl, Nat.zero_le 1⟩) fun l _ o e => by cases l <;> cases e
  have cleared := (requestsInv_iff _).mpr start
  exact ⟨(cleared.calm (sameRequests_masterless _)).calm (.of_eq (finish_links _ _) (finish_cableTest _ _)), finish_quiet _ _⟩

theorem Orderly.afterReset (rate : BitVec 2) (now draws order : Nat) (q : List Instr) :
    Orderly (.afterReset rate now draws order q) :=
  ⟨⟨fun l => by cases l <;> exact ⟨rfl, Nat.zero_le 1⟩, fun l o e => (by cases l <;> cases e), nofun⟩, rfl, rfl, rfl⟩

/-! ### Every command -/

theorem calm_inSwitch_reach (n : Nat) (f : SwEnv → Switching → Switching) (s : State) :
    Unmoved s (finish .none (inSwitch f (s.reach n))) := (calm_reach n s).trans (calm_inSwitch f _)

theorem calm_inTiming_reach (n : Nat) (f : TimingEnv → Timing → Timing) (s : State) :
    Unmoved s (finish .none (inTiming f (s.reach n))) := (calm_reach n s).trans (calm_inTiming f _)

theorem calm_portEvent_reach (n : Nat) (p : PortId) (f : Port → Port) (s : State) :
    Unmoved s (finish .none (portEvent p f (s.reach n))) := (calm_reach n s).trans (calm_portEvent p f _)

theorem sameRequests_tick (s : State) : SameRequests s (tickTiming (portsInTurn (unsettled (tickPorts s)) (tickPorts s))) :=
  (SameRequests.of_eq (s := s) (t := tickPorts s) rfl rfl).trans
    ((SameRequests.of_keeps (portsInTurn_keeps (unsettled (tickPorts s)) (tickPorts s))).trans (.of_eq rfl rfl))

theorem sameRequests_convert (c : Conversion) (code : Nat) (s : State) :
    SameRequests s (scanOn c.port (portEvent c.port (Port.convert code) s)) :=
  (SameRequests.of_keeps (portEvent_keeps c.port _ s)).trans (.of_eq rfl rfl)

theorem Orderly.replySend {s : State} (h : Orderly s) {l : LinkId} {r : Reply} {rest : List Reply}
    (ready : (s.links.link l).ready = r :: rest) (n : Nat) (f : Frame) (ends : Nat) :
    Orderly (modLink l (fun k => (k.popReply r rest).beginFrame f ends) (s.reach n)) :=
  ⟨(h.calm (calm_reach n s)).requests.popReply ready f ends, h.quiet⟩

theorem Orderly.noticeSend {s : State} (h : Orderly s) (l : LinkId) (f : Frame) (n : Nat) (rest : List Notice) (ends : Nat) :
    Orderly { modLink l (Link.beginFrame f ends) (s.reach n) with notices := s.notices.pop rest } :=
  ⟨(h.requests.calm (.modLink l (f := Link.beginFrame f ends) s fun _ => ⟨rfl, rfl⟩)).calm (.of_eq rfl rfl), h.quiet⟩

/-- The laws through a command that is no request: a receiver's row, an event of a block, a timer or a transmitter. -/
theorem orderly_event {i : Instr} (no : takenRequest i = none) {s t : State} (h : Orderly s) (e : exec i s = .next t) : Orderly t := by
  have calm : ∀ {u : State}, Unmoved s u → Orderly u := h.calm
  cases i <;> cases no <;> cases e
  case fullReset rate => exact .afterReset rate _ _ _ _
  case settleReply => exact ⟨h.requests.settleReplies, settleReplies_quiet h.quiet⟩
  case linkBreak pin | frameGapTimeout pin | frameFramingError pin => exact orderly_onSamples pin.link pin.samples h
  case frameCrcError l samples | frameBadLen l samples => exact orderly_onSamples l samples h
  case requestBadKind l tag kind payload =>
    split
    · exact h
    · unfold badKind
      split
      · exact orderly_takeBadKind l tag kind h
      · exact h
  case replySend l =>
    split
    · exact h
    · next r rest ready =>
      split
      · exact h
      · exact h.replySend ready _ _ _
  case noticeSend =>
    split
    · split
      · exact h.noticeSend _ _ _ _ _
      · exact h
    · exact h
  case restartTakesEffect l =>
    split
    · exact h
    · exact .restarted _
  case cableTestPass bits | cableTestFail bits => exact orderly_compareMore bits h
  case noPath =>
    split
    · exact h
    · next t _ =>
      split
      · have later := h.calm (calm_reach (t.acceptedAt + 50000) s)
        exact ⟨later.requests.endTest _ _, endTest_quiet later.quiet _ _⟩
      · exact h
  all_goals refine calm ?_
  case cableTestLead => exact calm_outOn _ (fun _ _ => by rfl) s
  case cableTestMarkerSent => split <;> exact calm_outOn _ (fun _ _ => by rfl) s
  case cableTestSequenceEnd => exact (calm_outOn _ (fun _ _ => by rfl) s).trans (calm_outOn _ (fun _ _ => by rfl) _)
  case cableTestMarker search start =>
    split
    · exact .refl s
    · next t e =>
      split
      · exact ⟨⟨fun _ => rfl, fun _ => rfl, by rw [e]; rfl⟩, id⟩
      · exact .refl s
  case pilotMessage p body noise =>
    split
    · exact calm_portEvent _ _ s
    · exact .refl s
  case truncatedMessage pin =>
    split
    · exact calm_pilotSamples _ _ s
    · exact .refl s
  case pilotCharacterTaken p search samples =>
    split
    · exact calm_pilotSamples _ _ s
    · exact .refl s
  case lossTimerExpiry p =>
    split
    · exact calm_portEvent_reach _ _ _ s
    · exact .refl s
  case pilotTransmit p =>
    split
    · exact .of_eq rfl rfl rfl rfl rfl
    · exact .of_eq rfl rfl rfl rfl rfl
    all_goals exact .refl s
  case secondsTick =>
    refine .event (SameRequests.trans ?_ (sameRequests_tick _)) .none
    exact .of_eq rfl rfl
  case conversionEnd code =>
    split
    · exact .refl s
    · next c _ =>
      dsimp only
      split
      · exact (calm_reach c.endsAt s).trans (.event (sameRequests_convert c _ _) .none)
      · exact .of_eq rfl rfl rfl rfl rfl
  case holdOffExpiry p =>
    split
    · exact .refl s
    · exact (calm_reach _ s).trans (.event (.of_keeps (setPortTo_keeps _ _ _)) .none)
  case restoreWaitExpiry g | trialTimerExpiry g =>
    split
    · exact .refl s
    · exact calm_inSwitch_reach _ _ s
  case awaitFarTimeout g =>
    split
    · exact .refl s
    · next t _ =>
      refine (calm_reach t s).trans (.event (SameRequests.of_eq ?_ ?_) .none) <;> rfl
  case busTransactionStart =>
    split
    · next c _ _ =>
      refine .of_eq rfl rfl ?_ rfl rfl
      unfold Switching.begin
      dsimp only
      split <;> rfl
    · exact .refl s
  case commandRepeat =>
    split
    · refine .of_eq rfl rfl ?_ rfl rfl
      simp only [Switching.onRepeat]
      split
      · split <;> rfl
      · rfl
    · exact .refl s
  case answerTimeout =>
    split
    · exact calm_inSwitch_reach _ _ s
    · exact .refl s
  case answerPosition | answerAccepted | answerRefused | answerSingleOnly | answerMoving | answerSettled => exact calm_answered _ s
  case pollDue address =>
    split
    · exact .of_eq rfl rfl (by simp) rfl rfl
    · exact .refl s
  case moveTimeout address =>
    split
    · exact calm_inSwitch_reach _ _ s
    · exact .refl s
  case referenceEdge r =>
    split
    · exact calm_inTiming _ s
    · exact .refl s
  case measurementEnd r count | measurementEarlyEnd r =>
    split
    · exact calm_inTiming _ s
    · exact .refl s
  case edgeTimerExpiry r | soakTimerExpiry r | holdoverTimerExpiry =>
    split
    · exact .refl s
    · exact calm_inTiming_reach _ _ s
  case acquireTimerExpiry =>
    split
    · exact .refl s
    · exact .of_eq rfl rfl rfl rfl rfl
  case steerFrameStart =>
    split
    · exact .of_eq rfl rfl rfl rfl rfl
    · exact .refl s
  case declareSoakExpiry k | clearSoakExpiry k =>
    split
    · exact .event (s := s) (u := s.reach _) (.of_eq rfl rfl) _
    · exact .refl s
  case acoPress high low => split <;> exact .of_eq rfl rfl rfl rfl rfl
  case periodTimerExpiry =>
    split
    · exact (calm_reach _ s).trans (.event (sameRequests_lapse _ _) .none)
    · exact .refl s

theorem orderly_exec (i : Instr) {s t : State} (h : Orderly s) (e : exec i s = .next t) : Orderly t := by
  cases q : takenRequest i with
  | none => exact orderly_event q h e
  | some q =>
    rw [exec_takenRequest ‹_›] at e
    cases e
    split
    · exact orderly_takeKind _ _ _ _ h
    · exact h

/-! ### The notice queue -/

theorem queue_bounded_change {s t : State} (c : Change s t) (h : s.notices.queue.length ≤ 32) : t.notices.queue.length ≤ 32 := by
  cases c with
  | finish e => exact flush_bounded (s := takeAlarms e s) h
  | noticePop n rest queue =>
    refine Notices.tellOverflow_bounded (Nat.le_trans ?_ h)
    rw [queue]
    exact Nat.le_succ _
  | grant | handover => exact Notices.tellOverflow_bounded h
  | restart => exact Nat.zero_le _
  | reset => exact (freeOrder_perm _ _).length_eq.trans_le (by decide : 2 ≤ 32)
  | enable p cfg _ _ _ =>
    have told : (setPortTo p (Port.startService s.now cfg) s).notices.queue.length ≤ 32 := (setPortTo_keeps p _ s).notices ▸ h
    unfold scanEnabled
    split <;> exact told
  | disable p cfg _ _ _ _ => exact (setPortTo_keeps p (.disabled cfg) s).notices ▸ h
  | port p f _ _ => exact (portEvent_keeps p f s).notices ▸ h
  | convert c code _ _ => exact (portEvent_keeps c.port _ s).notices ▸ h
  | holdOff p _ _ => exact (setPortTo_keeps p _ s).notices ▸ h
  | tick => rw [(portsInTurn_keeps _ _).notices]; exact h
  | switch | group | remove | timing | steering | acquired | endHoldover | switchOnly | redefine | service | clock | draws
  | identity | ranges | noticeSettings | raise | scan | test | profile | acknowledge | pin | link | claims | leave | lapse | keep
  | watch => exact h

/-- Settles O59: a taken request waits for one reply, a test ends with its own, and every event queues the notices it raised. -/
theorem stepKeepsRequestAndNoticeLaws : Obligations.StepKeepsRequestAndNoticeLaws := by
  unfold Obligations.StepKeepsRequestAndNoticeLaws
  intro s t requests notices e
  have bounded := step_keeps (P := fun s => s.notices.queue.length ≤ 32) (fun _ _ => queue_bounded_change) (fun _ _ => id)
    notices.bounded e
  have orderly : Orderly t := by
    unfold step at e
    split at e
    · cases e
      exact Orderly.calm ⟨requests, notices.quiet⟩ (.of_eq rfl rfl rfl rfl rfl)
    · next c rest _ =>
      exact orderly_exec c (Orderly.calm (t := { s with pending := rest }) ⟨requests, notices.quiet⟩ (.of_eq rfl rfl rfl rfl rfl)) e
  exact ⟨orderly.requests, bounded, orderly.quiet⟩

end Sys2Proof.Machine
end

section
/-! Bytes and the code sets of section 10.1, as payloads carry them (R183). -/

namespace Sys2Proof.Machine

/-! ### Bytes -/

theorem byteOf_toNat (b : Byte) : byteOf b.toNat = b := BitVec.eq_of_toNat_eq (Nat.mod_eq_of_lt b.isLt)

theorem toNat_byteOf {n : Nat} (h : n < 256) : (byteOf n).toNat = n := Nat.mod_eq_of_lt h

theorem byte_eq_iff {b : Byte} {n : Nat} (h : n < 256) : b = byteOf n ↔ b.toNat = n :=
  ⟨fun e => e ▸ toNat_byteOf h, fun e => e ▸ (byteOf_toNat b).symm⟩

/-! ### Indices and flags -/

theorem finOf_eq_some_iff {n : Nat} {b : Byte} {i : Fin n} : finOf n b = some i ↔ b.toNat = i.val := by
  unfold finOf
  split
  · exact ⟨fun e => by cases e; rfl, fun e => congrArg some (Fin.ext e)⟩
  · next h => exact ⟨nofun, fun e => absurd (e ▸ i.isLt) h⟩

theorem finOf_eq_none_iff {n : Nat} {b : Byte} : finOf n b = none ↔ n ≤ b.toNat := by
  unfold finOf
  split
  · next h => exact ⟨nofun, fun le => absurd h (Nat.not_lt.mpr le)⟩
  · next h => exact iff_of_true rfl (Nat.not_lt.mp h)

theorem finOf_byteOf {n : Nat} (le : n ≤ 256) (i : Fin n) : finOf n (byteOf i.val) = some i :=
  finOf_eq_some_iff.mpr (toNat_byteOf (Nat.lt_of_lt_of_le i.isLt le))

theorem flagOf_eq (b : Byte) : flagOf b = if 1 < b.toNat then none else some (decide (b.toNat = 1)) := by
  have zero : b = 0 ↔ b.toNat = 0 := byte_eq_iff (by decide)
  have one : b = 1 ↔ b.toNat = 1 := byte_eq_iff (by decide)
  unfold flagOf
  rw [if_congr zero rfl (if_congr one rfl rfl)]
  split
  · next h => simp [h]
  · split
    · next h => simp [h]
    · next h0 h1 => rw [if_pos (by omega)]

theorem flagOf_eq_none_iff {b : Byte} : flagOf b = none ↔ 1 < b.toNat := by
  rw [flagOf_eq]
  split
  · next h => exact iff_of_true rfl h
  · next h => exact iff_of_false nofun h

theorem flagOf_eq_some_iff {b : Byte} {f : Bool} : flagOf b = some f ↔ b.toNat ≤ 1 ∧ f = decide (b.toNat = 1) := by
  rw [flagOf_eq]
  split
  · next h => exact iff_of_false nofun fun e => absurd e.1 (Nat.not_le.mpr h)
  · next h => rw [Option.some_inj, eq_comm, and_iff_right (Nat.not_lt.mp h)]

theorem flagOf_flagByte (f : Bool) : flagOf (flagByte f) = some f := by cases f <;> rfl

/-! ### Severities -/

theorem Severity.ofCode_rank (sev : Severity) : Severity.ofCode (byteOf sev.rank) = some sev := by cases sev <;> rfl

theorem Severity.ofCode_eq_some_iff {b : Byte} {sev : Severity} : Severity.ofCode b = some sev ↔ b.toNat = sev.rank := by
  unfold Severity.ofCode
  split <;> cases sev <;> simp_all [Severity.rank]

theorem Severity.ofCode_eq_none_iff {b : Byte} : Severity.ofCode b = Option.none ↔ 4 < b.toNat := by
  unfold Severity.ofCode
  split
  case h_6 h0 h1 h2 h3 h4 =>
    simp only [imp_false] at h0 h1 h2 h3 h4
    exact iff_of_true rfl (by omega)
  all_goals exact iff_of_false nofun (by omega)

end Sys2Proof.Machine
end

section
/-! The step, full reset, and the requests in general (R168, R170, R171, R181, R182). -/

namespace Sys2Proof.Machine

/-- Settles O1. -/
theorem stepRunsFrontCommand : Obligations.StepRunsFrontCommand := by
  unfold Obligations.StepRunsFrontCommand
  intro c rest s h
  unfold step
  rw [h]

/-- Settles O2. -/
theorem idleStepAdvancesClock : Obligations.IdleStepAdvancesClock := by
  unfold Obligations.IdleStepAdvancesClock
  intro s h
  unfold step
  split
  · rfl
  · next e => exact absurd (h.symm.trans e) nofun

/-! ### Full reset -/

theorem replicate_get {α : Type} {n : Nat} (x : α) (i : Fin n) : (Vector.replicate n x)[i] = x := by
  simp [Fin.getElem_fin]

theorem Point.reset_eq (k : PointId) :
    Point.reset k = ⟨decide (k = 316 ∨ k = 317), decide (k = 316 ∨ k = 317), .stopped, if k.val < 224 then .sa else .ungraded,
      profileReset[profileIndex k].sa, false, false, false⟩ := by
  have declared : declaredAtReset k = decide (k = 316 ∨ k = 317) := by
    rw [Bool.eq_iff_iff, declaredAtReset_iff, decide_eq_true_iff]
  rw [← declared]
  rfl

/-- Settles O3: the part after FULL_RESET is `State.afterReset`, block by block at its reset values. -/
theorem fullResetLeavesResetValues : Obligations.FullResetLeavesResetValues := by
  unfold Obligations.FullResetLeavesResetValues
  intro rate s
  have point (k : PointId) : (AlarmUnit.reset s.orderDraws).points[k] = Point.reset k := tab_get _ k
  have code (p : PortId) : (Timing.reset s.now).codes[p] = 12 := replicate_get 12 p
  refine ⟨.afterReset rate s.now s.links.draws s.orderDraws s.pending, rfl, rfl, rfl, rfl, rfl, fun i => replicate_get _ i,
    fun p => replicate_get _ p, rfl, rfl, fun g => replicate_get _ g, rfl, rfl, rfl, rfl, rfl, rfl, fun r => tab_get _ r, rfl, rfl,
    rfl, rfl, rfl, rfl, rfl, rfl, code, rfl, rfl, rfl, rfl, rfl, rfl, fun k => (point k).trans (Point.reset_eq k),
    freeOrder_perm _ _, rfl, rfl, rfl, rfl, freeOrder_perm _ _, rfl, rfl, rfl, rfl, fun l => by cases l <;> rfl, rfl, rfl, rfl, rfl,
    rfl, rfl, rfl, rfl, rfl, rfl⟩

/-- Settles O60: `State.reset` is an `afterReset`, of which every law has been shown. -/
theorem resetMeetsEveryLaw : Obligations.ResetMeetsEveryLaw := by
  unfold Obligations.ResetMeetsEveryLaw
  have orderly : Orderly State.reset := .afterReset 0 0 0 0 []
  exact ⟨.afterReset 0 0 0 0 [], .afterReset 0 0 0 0 [], queueInv_afterReset 0 0 0 0 [], timingInv_reset 0,
    Selects.afterReset 0 0 0 0 [], .reset 0, mastershipInv_reset 0 0, orderly.requests,
    (freeOrder_length _ _).trans_le (by decide : 2 ≤ 32), orderly.quiet⟩

/-! ### The checks of a request in their order -/

/-- Every request command is a request with its own KIND, length test and handler (section 10.1). -/
theorem exec_request {i : Instr} {q : Taken} (h : takenRequest i = some q) (s : State) :
    ∃ handle : Handler, exec i s = .next (request q.link q.tag q.kind q.fits q.masterOnly handle s) := by
  cases i <;> cases h <;> exact ⟨_, rfl⟩

theorem Link.frameTaken_eq {k : Link} (awaits : k.rx.state = .awaitLen) : k.frameTaken = { k with rx := .hunting } := by
  unfold Link.frameTaken
  rw [awaits]
  rfl

theorem Link.busy_frameTaken {k : Link} (awaits : k.rx.state = .awaitLen) (tag : Byte) {kind : Byte} (low : kind.toNat < 128) :
    Link.busy tag kind k.frameTaken =
      { k with rx := .hunting, ready := if k.ready.any (·.busy) then k.ready else k.ready ++ [⟨⟨tag, kind + 0x80, [3]⟩, true⟩] } := by
  rw [Link.frameTaken_eq awaits]
  unfold Link.busy busyReplyKind
  rw [if_pos low]
  dsimp only
  split <;> rfl

theorem replied_eq (l : LinkId) (tag kind : Byte) (payload : List Byte) (s : State) :
    modLink l (fun k => (k.deferredTo tag kind).answer payload) s = replied l tag kind payload s := by cases l <;> rfl

theorem request_busy {l : LinkId} {s : State} (awaits : (s.links.link l).rx.state = .awaitLen)
    (taken : (s.links.link l).outstanding.isSome) (tag kind : Byte) (fits masterOnly : Bool) (handle : Handler) :
    request l tag kind fits masterOnly handle s = modLink l (fun k => Link.busy tag kind k.frameTaken) s := by
  rw [request_seen awaits]
  rcases takeRequest_cases l tag kind fits masterOnly handle s with ⟨_, e⟩ | ⟨free, _⟩ | ⟨free, _⟩ | ⟨free, _⟩
  · exact e
  all_goals rw [free] at taken; cases taken

theorem request_badLength {l : LinkId} {s : State} (free : FreeLink l s) (tag kind : Byte) (masterOnly : Bool) (handle : Handler) :
    request l tag kind false masterOnly handle s = replied l tag kind [5] s := by
  rw [request_seen free.awaits, ← replied_eq]
  rcases takeRequest_cases l tag kind false masterOnly handle s with ⟨taken, _⟩ | ⟨_, _, e⟩ | ⟨_, fits, _⟩ | ⟨_, fits, _⟩
  · rw [free.outstanding] at taken; cases taken
  · exact e
  all_goals cases fits

/-- What a link-wise change does, said of the two records of the links. -/
theorem modLink_congr {l : LinkId} {s : State} {f g : Link → Link} (h : f (s.links.link l) = g (s.links.link l)) :
    modLink l f s = modLink l g s := by
  cases l
  · exact congrArg (fun k => { s with links := { s.links with linkA := k } }) h
  · exact congrArg (fun k => { s with links := { s.links with linkB := k } }) h

theorem takenRequest_kind {i : Instr} {q : Taken} (h : takenRequest i = some q) : q.kind.toNat < 128 := by
  cases i <;> cases h <;> exact Nat.le_of_ble_eq_true rfl

theorem exec_requestBadKind {kind : Byte} (no : kind ∉ requestKinds) (l : LinkId) (tag : Byte) (payload : List Byte) (s : State) :
    exec (.requestBadKind l tag kind payload) s = .next (badKind l tag kind s) := congrArg _ (if_neg no)

/-- Settles O5: R170's checks, by `takeRequest_cases`. -/
theorem requestChecksComeInOrder : Obligations.RequestChecksComeInOrder := by
  unfold Obligations.RequestChecksComeInOrder
  refine ⟨fun i q s e => ?_, fun l tag kind payload s unseen => ?_, fun l tag kind payload s no free => ?_⟩
  · obtain ⟨handle, run⟩ := exec_request e s
    rw [run]
    refine ⟨fun unseen => ?_, fun awaits taken => ?_, fun free fits => ?_, fun free fits only other => ?_⟩
    · rw [request_unseen unseen]
    · rw [request_busy awaits taken]
      exact congrArg _ (modLink_congr (Link.busy_frameTaken awaits q.tag (takenRequest_kind e)))
    · rw [fits, request_badLength free]
    · rw [fits, only, request_notMaster free other]
  · by_cases no : kind ∈ requestKinds
    · exact congrArg _ (if_pos no)
    · rw [exec_requestBadKind no, badKind, awaitsFrame, if_neg (by simpa using unseen)]
  · have taken : ((modLink l Link.frameTaken s).links.link l).outstanding = none := by
      rw [modLink_link, Link.frameTaken_outstanding, free.outstanding]
    rw [exec_requestBadKind no, badKind, awaitsFrame, if_pos (by simpa using free.awaits), takeBadKind,
      if_neg (Option.not_isSome_iff_eq_none.mpr taken), modLink_modLink]
    refine congrArg _ (modLink_congr ?_)
    rw [Function.comp_apply, Link.frameTaken_eq free.awaits]
    rfl

/-! ### SET-NOTICES -/

theorem setNoticesArgs_codes {sev : Severity} (named : sev ≠ .none) (grp tim : Bool) :
    setNoticesArgs [byteOf sev.rank, flagByte grp, flagByte tim] = some (sev, grp, tim) := by
  unfold setNoticesArgs
  show (match Severity.ofCode (byteOf sev.rank), flagOf (flagByte grp), flagOf (flagByte tim) with
    | some .none, _, _ => none
    | some sev, some grp, some tim => some (sev, grp, tim)
    | _, _, _ => none) = _
  rw [Severity.ofCode_rank, flagOf_flagByte, flagOf_flagByte]
  cases sev <;> trivial

theorem setNoticesArgs_bad {a b c : Byte} (bad : a = 0 ∨ 4 < a.toNat ∨ 1 < b.toNat ∨ 1 < c.toNat) : setNoticesArgs [a, b, c] = none := by
  unfold setNoticesArgs
  show (match Severity.ofCode a, flagOf b, flagOf c with
    | some .none, _, _ => none
    | some sev, some grp, some tim => some (sev, grp, tim)
    | _, _, _ => none) = none
  rcases bad with rfl | high | high | high
  · rfl
  · rw [Severity.ofCode_eq_none_iff.mpr high]
  · rw [flagOf_eq_none_iff.mpr high]
    split <;> simp_all
  · rw [flagOf_eq_none_iff.mpr high]
    split <;> simp_all

/-- Settles O48. -/
theorem setNoticesStoresSettings : Obligations.SetNoticesStoresSettings := by
  unfold Obligations.SetNoticesStoresSettings
  intro l tag s ⟨free, master⟩
  refine ⟨fun sev grp tim named => ?_, fun a b c bad => ?_⟩
  · show Host.Outcome.next (request l tag 0x49 true true (setNotices _) s) = _
    rw [request_handled free (fun _ => master) (by unfold setNotices; rw [setNoticesArgs_codes named])]
    cases l <;> rfl
  · show Host.Outcome.next (request l tag 0x49 true true (setNotices _) s) = _
    rw [request_replied free (fun _ => master) (by unfold setNotices; rw [setNoticesArgs_bad bad]; rfl)]
    rfl

end Sys2Proof.Machine
end

section
/-! The requests that only read (R6, R8, R49, R112, R133, R141, R150, R180), and the layouts of their replies (R184). -/

namespace Sys2Proof.Machine

/-! ### Replies -/

/-- A request that only reads, on a link with nothing outstanding. -/
theorem read_replied {l : LinkId} {s : State} (free : FreeLink l s) (tag kind : Byte) {handle : Handler} {payload : List Byte}
    (h : handle (taken l tag kind s) = (taken l tag kind s, some payload)) :
    Host.Outcome.next (φ := Fault) (ρ := Refusal) (request l tag kind true false handle s) =
      Host.Outcome.next (replied l tag kind payload s) :=
  congrArg _ (request_replied free nofun h)

theorem indexArg_byteOf {n : Nat} (le : n ≤ 256) (i : Fin n) : indexArg n [byteOf i.val] = some i := finOf_byteOf le i

theorem indexArg_eq_none {n : Nat} {b : Byte} (h : n ≤ b.toNat) : indexArg n [b] = none := finOf_eq_none_iff.mpr h

theorem be16_u16 (hi lo : Byte) : be16 (u16 hi lo) = [hi, lo] := by
  have low := lo.isLt
  have quotient : u16 hi lo / 256 = hi.toNat := by unfold u16; omega
  have remainder : byteOf (u16 hi lo) = lo := by
    refine BitVec.eq_of_toNat_eq ?_
    show (hi.toNat * 256 + lo.toNat) % 256 = lo.toNat
    omega
  unfold be16
  rw [quotient, byteOf_toNat, remainder]

section
variable {l : LinkId} {s : State} (free : FreeLink l s) (tag : Byte)
include free

theorem exec_getPort (p : PortId) :
    exec (.getPort l tag [byteOf p.val]) s = .next (replied l tag 0x11 (0 :: portRecordBytes p s.ports[p].cfg) s) :=
  read_replied free tag 0x11 (by unfold getPort; rw [indexArg_byteOf (by decide)]; rfl)

theorem exec_portStatus (p : PortId) :
    exec (.portStatus l tag [byteOf p.val]) s = .next (replied l tag 0x12 (0 :: portStatusBytes s p) s) :=
  read_replied free tag 0x12 (by unfold portStatus; rw [indexArg_byteOf (by decide)]; rfl)

theorem exec_getGroup (g : GroupId) : exec (.getGroup l tag [byteOf g.val]) s = .next (replied l tag 0x22
    (match s.sw.groups[g] with | none => [0, 0] | some grp => 0 :: groupBytes g grp.cfg) s) := by
  refine read_replied free tag 0x22 ?_
  unfold getGroup
  rw [indexArg_byteOf (by decide)]
  show (match s.sw.groups[g] with | none => _ | some grp => _) = _
  split <;> rfl

theorem exec_groupStatus (g : GroupId) : exec (.groupStatus l tag [byteOf g.val]) s = .next (replied l tag 0x23
    (match s.sw.groups[g] with | none => [0, 0] | some grp => 0 :: groupStatusBytes s grp) s) := by
  refine read_replied free tag 0x23 ?_
  unfold groupStatus
  rw [indexArg_byteOf (by decide)]
  show (match s.sw.groups[g] with | none => _ | some grp => _) = _
  split <;> rfl

theorem exec_getRef (r : RefId) : exec (.getRef l tag [byteOf r.val]) s =
    .next (replied l tag 0x31 (0 :: refBytes r s.timing.refs[r] ++ [flagByte s.timing.refs[r].lockedOut]) s) :=
  read_replied free tag 0x31 (by unfold getRef; rw [indexArg_byteOf (by decide)]; rfl)

theorem exec_getProfile (k : Fin 21) : exec (.getProfile l tag [byteOf k.val]) s =
    .next (replied l tag 0x41 (0 :: profileBytes k s.alarms.profile[k]) s) :=
  read_replied free tag 0x41 (by unfold getProfile; rw [indexArg_byteOf (by decide)]; rfl)

theorem exec_readAlarms (hi lo : Byte) (h : u16 hi lo ≤ 318) : exec (.readAlarms l tag [hi, lo]) s =
    .next (replied l tag 0x42 (0 :: be16 s.alarms.active.length ++ [hi, lo]
      ++ ((s.alarms.active.drop (u16 hi lo)).take 41).flatMap (alarmEntry s.alarms)) s) := by
  refine read_replied free tag 0x42 ?_
  unfold readAlarms
  rw [if_neg (show ¬ 318 < wordAt [hi, lo] 0 from Nat.not_lt.mpr h)]
  show (_, some (okWith (be16 _ ++ be16 (u16 hi lo) ++ _))) = _
  rw [be16_u16]
  rfl

theorem exec_identify :
    exec (.identify l tag []) s = .next (replied l tag 0x01 [0, 0x41, 0x32, 0x01, 32, 12, 6, byteOf s.links.rate.toNat] s) :=
  read_replied free tag 0x01 (by cases l <;> rfl)

theorem exec_timingStatus : exec (.timingStatus l tag []) s = .next (replied l tag 0x34 (0 :: timingStatusBytes s) s) :=
  read_replied free tag 0x34 (by unfold timingStatus; rfl)

theorem exec_badIndex (b : Byte) :
    (32 ≤ b.toNat → exec (.getPort l tag [b]) s = .next (replied l tag 0x11 [6] s)
      ∧ exec (.portStatus l tag [b]) s = .next (replied l tag 0x12 [6] s))
    ∧ (12 ≤ b.toNat → exec (.getGroup l tag [b]) s = .next (replied l tag 0x22 [6] s)
      ∧ exec (.groupStatus l tag [b]) s = .next (replied l tag 0x23 [6] s))
    ∧ (6 ≤ b.toNat → exec (.getRef l tag [b]) s = .next (replied l tag 0x31 [6] s))
    ∧ (21 ≤ b.toNat → exec (.getProfile l tag [b]) s = .next (replied l tag 0x41 [6] s)) := by
  refine ⟨fun h => ⟨?_, ?_⟩, fun h => ⟨?_, ?_⟩, fun h => ?_, fun h => ?_⟩ <;> have bad := indexArg_eq_none h
  · exact read_replied free tag 0x11 (by unfold getPort; rw [bad]; rfl)
  · exact read_replied free tag 0x12 (by unfold portStatus; rw [bad]; rfl)
  · exact read_replied free tag 0x22 (by unfold getGroup; rw [bad]; rfl)
  · exact read_replied free tag 0x23 (by unfold groupStatus; rw [bad]; rfl)
  · exact read_replied free tag 0x31 (by unfold getRef; rw [bad]; rfl)
  · exact read_replied free tag 0x41 (by unfold getProfile; rw [bad]; rfl)

theorem exec_readAlarms_beyond (hi lo : Byte) (h : 318 < u16 hi lo) :
    exec (.readAlarms l tag [hi, lo]) s = .next (replied l tag 0x42 [6] s) :=
  read_replied free tag 0x42 (by unfold readAlarms; rw [if_pos (show 318 < wordAt [hi, lo] 0 from h)]; rfl)

end

/-! ### Parts of a layout -/

/-- A run of bytes of a payload. -/
def part (bytes : List Byte) (start count : Nat) : List Byte := (bytes.drop start).take count

/-- A piece of a layout stands where the pieces before it end. -/
theorem part_flatten {pieces : List (List Byte)} {i start count : Nat} {piece : List Byte} (piece_at : pieces[i]? = some piece)
    (starts : ((pieces.take i).map List.length).sum = start) (length : piece.length = count) : part pieces.flatten start count = piece := by
  subst starts length
  unfold part
  induction pieces generalizing i with
  | nil => cases piece_at
  | cons p ps ih =>
    cases i with
    | zero => cases piece_at; simp
    | succ i => simpa [List.drop_append, List.drop_eq_nil_of_le] using ih piece_at

theorem present_length {width : Nat} {x : Option (List Byte)} (h : ∀ v ∈ x, v.length = width) : (present width x).length = width + 1 := by
  unfold present
  split
  · next v => simp [h v rfl]
  · simp

theorem present_map_length {α : Type} {width : Nat} {f : α → List Byte} (h : ∀ a, (f a).length = width) (x : Option α) :
    (present width (x.map f)).length = width + 1 := present_length fun v hv => by
  obtain ⟨a, _, rfl⟩ := Option.map_eq_some_iff.mp hv
  exact h a

theorem remaining_length (now : Nat) (timer : Option Nat) : (remaining now timer).length = 5 := present_map_length (f := fun t => be32 (secondsLeft now t)) (fun _ => rfl) timer

theorem requestOrFF_length (r : Option Request) : (requestOrFF r).length = 2 := by cases r <;> rfl

theorem elementBytes_length (el : Option Element) : (elementBytes el).length = 3 := by cases el <;> rfl

/-! ### PORT-STATUS -/

/-- The pieces of a PORT-STATUS reply (R6). -/
def portStatusPieces (s : State) (p : PortId) : List (List Byte) :=
  let x := s.ports[p]
  [[flagByte x.cfg.enabled, byteOf (rangeStatus s.ranges p).code, condByte x.raw, condByte x.reported], [byteOf x.powerState.code],
    present 2 (x.ps.map beS16), present 3 (x.accTrace.map traceBytes),
    present 4 (x.traceCand.map fun c => traceBytes c.value ++ [byteOf c.count]),
    [(x.accFlags.map flagsByte).getD 0xFF, orFF x.accQuality], present 2 (x.accProt.map fun f => [f.request, f.effect]),
    [flagByte x.pilotLoss, flagByte x.traceMismatch, flagByte x.pilotErrors],
    be16 x.windowSum ++ be16 x.lastValid ++ be16 x.lastBad, [testRole s p]]

theorem portStatusBytes_eq (s : State) (p : PortId) : portStatusBytes s p = (portStatusPieces s p).flatten := by
  simp [portStatusBytes, portStatusPieces]

theorem portStatusPieces_lengths (s : State) (p : PortId) :
    (portStatusPieces s p).map List.length = [4, 1, 3, 4, 5, 2, 3, 3, 6, 1] := by
  have ps := present_map_length (width := 2) (f := beS16) (fun _ => rfl) s.ports[p].ps
  have trace := present_map_length (width := 3) (f := traceBytes) (fun _ => rfl) s.ports[p].accTrace
  have cand :=
    present_map_length (width := 4) (f := fun c : Cand Trace => traceBytes c.value ++ [byteOf c.count]) (fun _ => rfl) s.ports[p].traceCand
  have prot := present_map_length (width := 2) (f := fun f : ProtFields => [f.request, f.effect]) (fun _ => rfl) s.ports[p].accProt
  unfold portStatusPieces
  simp only [List.map_cons, List.map_nil, ps, trace, cand, prot]
  rfl

theorem portStatusBytes_part {s : State} {p : PortId} {i : Nat} {piece : List Byte} (piece_at : (portStatusPieces s p)[i]? = some piece)
    {start count : Nat} (starts : (([4, 1, 3, 4, 5, 2, 3, 3, 6, 1] : List Nat).take i).sum = start)
    (length : ([4, 1, 3, 4, 5, 2, 3, 3, 6, 1] : List Nat)[i]? = some count) : part (portStatusBytes s p) start count = piece := by
  rw [portStatusBytes_eq]
  rw [← portStatusPieces_lengths s p, List.getElem?_map, piece_at] at length
  rw [← portStatusPieces_lengths s p, ← List.map_take] at starts
  exact part_flatten piece_at starts (Option.some.inj length)

theorem portStatusBytes_length (s : State) (p : PortId) : (portStatusBytes s p).length = 32 := by
  rw [portStatusBytes_eq, List.length_flatten, portStatusPieces_lengths]
  rfl

/-! ### GROUP-STATUS -/

/-- The record of each member of a group, in member order. -/
def memberRecords (s : State) (c : GroupConfig) : List (List Byte) := c.members.zipIdx.map fun pm => memberBytes s.swEnv c pm.2 pm.1

/-- What a GROUP-STATUS reply carries after the members' records. -/
def groupStatusTail (s : State) (grp : Group) : List (List Byte) :=
  [requestOrFF grp.external, requestBytes (grp.stay.getD Request.none) ++ remaining s.now grp.restoreTimer,
    requestBytes grp.local_ ++ requestOrFF grp.remote ++ requestBytes grp.effective ++ [byteOf grp.target, orFF (s.sw.selected grp)],
    elementBytes (grp.cfg.bridge.bind s.sw.element) ++ elementBytes (s.sw.element grp.cfg.selector),
    match grp.cfg.ends with
    | .dual => [flagByte grp.protocolMismatch, orFF grp.farBridged]
    | .single => []]

/-- The pieces of a GROUP-STATUS reply (R49). -/
def groupStatusPieces (s : State) (grp : Group) : List (List Byte) :=
  [byteOf (GroupState.code (some grp.state)), byteOf grp.trialResult.code, byteOf (grp.cfg.count + 1)]
    :: (memberRecords s grp.cfg ++ groupStatusTail s grp)

theorem groupStatusBytes_eq (s : State) (grp : Group) : groupStatusBytes s grp = (groupStatusPieces s grp).flatten := by
  simp [groupStatusBytes, groupStatusPieces, groupStatusTail, memberRecords, List.flatMap_def] <;> rfl

theorem memberRecords_length (s : State) (c : GroupConfig) : (memberRecords s c).map List.length = List.replicate (c.count + 1) 5 := by
  have record : ∀ (m : Nat) (p : PortId), (memberBytes s.swEnv c m p).length = 5 := fun m p => by
    unfold memberBytes
    rw [List.length_append, requestOrFF_length]
    rfl
  rw [List.eq_replicate_iff]
  refine ⟨by simp [memberRecords, GroupConfig.members, GroupConfig.count], fun n hn => ?_⟩
  simp only [memberRecords, List.map_map, List.mem_map, Function.comp_apply] at hn
  obtain ⟨pm, _, rfl⟩ := hn
  exact record _ _

theorem groupStatusTail_length (s : State) (grp : Group) :
    (groupStatusTail s grp).map List.length = [2, 7, 8, 6, match grp.cfg.ends with | .dual => 2 | .single => 0] := by
  unfold groupStatusTail
  simp only [List.map_cons, List.map_nil, List.length_append, remaining_length, requestOrFF_length, elementBytes_length]
  cases grp.cfg.ends <;> rfl

/-- Where a piece of the tail stands: after the head and 5 bytes for each member. -/
theorem groupStatusBytes_tail {s : State} {grp : Group} {i : Nat} {piece : List Byte} (piece_at : (groupStatusTail s grp)[i]? = some piece)
    {start count : Nat} (starts : 8 + 5 * grp.cfg.count + (([2, 7, 8, 6] : List Nat).take i).sum = start) (early : i ≤ 4)
    (length : piece.length = count) : part (groupStatusBytes s grp) start count = piece := by
  rw [groupStatusBytes_eq]
  have records : (memberRecords s grp.cfg).length = grp.cfg.count + 1 := by
    have := congrArg List.length (memberRecords_length s grp.cfg)
    simpa using this
  refine part_flatten (i := 1 + ((memberRecords s grp.cfg).length + i)) ?_ ?_ length
  · rw [Nat.add_comm 1]
    simpa [groupStatusPieces, List.getElem?_append_right] using piece_at
  · have tail : ((groupStatusTail s grp).map List.length).take i = ([2, 7, 8, 6] : List Nat).take i := by
      rw [groupStatusTail_length]
      match i, early with
      | 0, _ | 1, _ | 2, _ | 3, _ | 4, _ => rfl
    rw [Nat.add_comm 1, groupStatusPieces, List.take_succ_cons, List.map_cons, List.sum_cons, List.take_length_add_append, List.map_append,
      List.sum_append, List.map_take, memberRecords_length, tail, List.sum_replicate, ← starts]
    simp
    omega

theorem groupStatusBytes_member {s : State} {grp : Group} {m : Nat} {p : PortId} (member : grp.cfg.members[m]? = some p) :
    part (groupStatusBytes s grp) (3 + 5 * m) 5 = memberBytes s.swEnv grp.cfg m p := by
  rw [groupStatusBytes_eq]
  have at_ : (memberRecords s grp.cfg)[m]? = some (memberBytes s.swEnv grp.cfg m p) := by
    simp [memberRecords, List.getElem?_zipIdx, member]
  obtain ⟨lt, get⟩ := List.getElem?_eq_some_iff.mp at_
  have lengths := memberRecords_length s grp.cfg
  refine part_flatten (i := m + 1) ?_ ?_ ?_
  · rw [groupStatusPieces, List.getElem?_cons_succ, List.getElem?_append_left lt, at_]
  · have le : m ≤ grp.cfg.count + 1 := by
      have := congrArg List.length lengths
      simp at this
      omega
    rw [groupStatusPieces, List.take_succ_cons, List.map_cons, List.sum_cons, List.take_append_of_le_length lt.le, List.map_take, lengths,
      List.take_replicate, Nat.min_eq_left le, List.sum_replicate]
    simp
    omega
  · have h := congrArg (·[m]?) lengths
    simp only [List.getElem?_map, at_, Option.map_some] at h
    exact List.eq_of_mem_replicate (List.mem_of_getElem? h.symm)

theorem groupStatusBytes_length (s : State) (grp : Group) :
    (groupStatusBytes s grp).length = 8 + 5 * grp.cfg.count + (match grp.cfg.ends with | .single => 23 | .dual => 25) := by
  rw [groupStatusBytes_eq, List.length_flatten, groupStatusPieces, List.map_cons, List.map_append, memberRecords_length,
    groupStatusTail_length, List.sum_cons, List.sum_append, List.sum_replicate]
  cases grp.cfg.ends <;> simp <;> omega

/-! ### TIMING-STATUS -/

/-- A reference's status without its source port: 21 bytes. -/
def refStatusHead (s : State) (r : RefId) : List Byte :=
  let x := s.timing.refs[r]
  [flagByte x.enabled, flagByte x.lockedOut, flagByte x.present, byteOf x.state.code, byteOf x.window.length]
    ++ present 4 (x.latest.map fun v => beS24 v.ppb ++ [flagByte v.outOfRange])
    ++ present 3 (x.average.map beS24)
    ++ remaining s.now (if x.state = .soaking then x.soakTimer else none)
    ++ [byteOf (x.quality r), flagByte (x.selectable s.ports r)]

/-- The source port of a line reference, its last byte. -/
def refStatusSource (s : State) (r : RefId) : List Byte := if isOffice r then [] else [orFF (s.timing.refs[r].source.map Fin.val)]

theorem refStatusBytes_eq (s : State) (r : RefId) : refStatusBytes s r = refStatusHead s r ++ refStatusSource s r := rfl

theorem refStatusHead_length (s : State) (r : RefId) : (refStatusHead s r).length = 21 := by
  have latest := present_map_length (width := 4) (f := fun v : Sample => beS24 v.ppb ++ [flagByte v.outOfRange]) (fun _ => rfl)
    s.timing.refs[r].latest
  have average := present_map_length (width := 3) (f := beS24) (fun _ => rfl) s.timing.refs[r].average
  unfold refStatusHead
  simp only [List.length_append, latest, average, remaining_length]
  rfl

theorem refStatusSource_length (s : State) (r : RefId) : (refStatusSource s r).length = if isOffice r then 0 else 1 := by
  unfold refStatusSource
  split <;> rfl

/-- The head and the source port of each reference, in order. -/
def refStatusPieces (s : State) : List (List Byte) :=
  (List.finRange 6).flatMap fun r => [refStatusHead s r, refStatusSource s r]

/-- The items of a TIMING-STATUS reply before the references (R133). -/
def timingStatusHead (s : State) : List (List Byte) :=
  let t := s.timing
  [[byteOf t.state.code, orFF (t.selected.map Fin.val), orFF (t.forced.map Fin.val)], beS24 t.word,
    [flagByte t.ready, byteOf t.lockedUpdates] ++ counted beS24 t.history,
    present 3 (if t.state = .holdover then some (beS24 t.holdoverValue) else none)
      ++ remaining s.now (if t.state = .holdover then t.holdoverTimer else none),
    present 4 (if t.state = .acquiring then some (be32 ((t.acquireTimer.map (secondsLeft s.now)).getD 0)) else none)]

theorem timingStatusBytes_eq (s : State) : timingStatusBytes s = (timingStatusHead s ++ refStatusPieces s).flatten := by
  have refs : (List.finRange 6).flatMap (refStatusBytes s) = (refStatusPieces s).flatten := by
    rw [refStatusPieces, List.flatMap_def, List.flatMap_def, List.flatten_flatten, List.map_map]
    refine congrArg List.flatten (List.map_congr_left fun r _ => ?_)
    rw [refStatusBytes_eq]
    simp
  unfold timingStatusBytes
  rw [refs, List.flatten_append]
  simp [timingStatusHead]

theorem flatMap_beS24_length (xs : List Int) : (xs.flatMap beS24).length = 3 * xs.length := by
  induction xs with
  | nil => rfl
  | cons x xs ih => rw [List.flatMap_cons, List.length_append, ih, List.length_cons]; show 3 + _ = _; omega

theorem timingStatusHead_lengths (s : State) :
    (timingStatusHead s).map List.length = [3, 3, 3 * s.timing.history.length + 3, 9, 5] := by
  have holdover : (present 3 (if s.timing.state = .holdover then some (beS24 s.timing.holdoverValue) else none)).length = 4 :=
    present_length fun v hv => by split at hv <;> cases hv; rfl
  have acquire : (present 4 (if s.timing.state = .acquiring then
      some (be32 ((s.timing.acquireTimer.map (secondsLeft s.now)).getD 0)) else none)).length = 5 :=
    present_length fun v hv => by split at hv <;> cases hv; rfl
  unfold timingStatusHead
  simp only [List.map_cons, List.map_nil, List.length_append, holdover, acquire, remaining_length, counted, List.length_cons,
    flatMap_beS24_length]
  simp [beS24, be24]
  omega

theorem refStatusPieces_lengths (s : State) :
    (refStatusPieces s).map List.length = [21, 0, 21, 0, 21, 1, 21, 1, 21, 1, 21, 1] := by
  have each : ∀ r, ([refStatusHead s r, refStatusSource s r] : List (List Byte)).map List.length = [21, if isOffice r then 0 else 1] :=
    fun r => by rw [List.map_cons, List.map_cons, refStatusHead_length, refStatusSource_length]; rfl
  rw [refStatusPieces, List.map_flatMap]
  simp only [each]
  decide

theorem timingStatusBytes_head {s : State} {i start count : Nat} {piece : List Byte} (piece_at : (timingStatusHead s)[i]? = some piece)
    (starts : (([3, 3, 3 * s.timing.history.length + 3, 9, 5] : List Nat).take i).sum = start) (length : piece.length = count) :
    part (timingStatusBytes s) start count = piece := by
  obtain ⟨lt, _⟩ := List.getElem?_eq_some_iff.mp piece_at
  rw [timingStatusBytes_eq]
  refine part_flatten (i := i) ?_ ?_ length
  · rw [List.getElem?_append_left lt, piece_at]
  · rw [List.take_append_of_le_length lt.le, List.map_take, timingStatusHead_lengths, starts]

theorem timingStatusBytes_ref {s : State} {i start count : Nat} {piece : List Byte} (piece_at : (refStatusPieces s)[i]? = some piece)
    (starts : 9 + 3 * s.timing.history.length + 14 + (([21, 0, 21, 0, 21, 1, 21, 1, 21, 1, 21, 1] : List Nat).take i).sum = start)
    (length : piece.length = count) : part (timingStatusBytes s) start count = piece := by
  rw [timingStatusBytes_eq]
  have five : (timingStatusHead s).length = 5 := rfl
  refine part_flatten (i := (timingStatusHead s).length + i) ?_ ?_ length
  · rw [List.getElem?_append_right (Nat.le_add_right _ _), Nat.add_sub_cancel_left, piece_at]
  · rw [List.take_length_add_append, List.map_append, List.sum_append, timingStatusHead_lengths, List.map_take, refStatusPieces_lengths,
      ← starts]
    simp
    omega

theorem timingStatusBytes_length (s : State) : (timingStatusBytes s).length = 9 + 3 * s.timing.history.length + 144 := by
  rw [timingStatusBytes_eq, List.length_flatten, List.map_append, timingStatusHead_lengths, refStatusPieces_lengths]
  simp
  omega

theorem timingStatusBytes_refHead (s : State) (r : RefId) :
    part (timingStatusBytes s) (9 + 3 * s.timing.history.length + 14 + 21 * r.val + (r.val - 2)) 21 = refStatusHead s r := by
  have starts : ∀ r : RefId, (([21, 0, 21, 0, 21, 1, 21, 1, 21, 1, 21, 1] : List Nat).take (2 * r.val)).sum = 21 * r.val + (r.val - 2) := by
    decide
  have at_ : (refStatusPieces s)[2 * r.val]? = some (refStatusHead s r) := by fin_cases r <;> rfl
  exact timingStatusBytes_ref at_ (by rw [starts]; omega) (refStatusHead_length s r)

theorem timingStatusBytes_refSource (s : State) {r : RefId} (line : 2 ≤ r.val) :
    part (timingStatusBytes s) (9 + 3 * s.timing.history.length + 14 + 22 * r.val + 19) 1 =
      [orFF (s.timing.refs[r].source.map Fin.val)] := by
  have starts : ∀ r : RefId, 2 ≤ r.val →
      (([21, 0, 21, 0, 21, 1, 21, 1, 21, 1, 21, 1] : List Nat).take (2 * r.val + 1)).sum = 22 * r.val + 19 := by decide
  have at_ : (refStatusPieces s)[2 * r.val + 1]? = some (refStatusSource s r) := by fin_cases r <;> rfl
  have office : isOffice r = false := decide_eq_false (Nat.not_lt.mpr line)
  have source : refStatusSource s r = [orFF (s.timing.refs[r].source.map Fin.val)] := by
    unfold refStatusSource
    rw [office]
    rfl
  exact timingStatusBytes_ref (source ▸ at_) (by rw [starts r line]; omega) rfl

/-! ### READ-ALARMS -/

theorem profileIndex_val (k : PointId) : (profileIndex k).val =
    if k.val < 224 then k.val / 32 else if k.val < 296 then 7 + (k.val - 224) / 12
      else if k.val < 314 then 13 + (k.val - 296) / 6 else k.val - 298 := by
  have bound := k.isLt
  unfold profileIndex
  split
  · exact Nat.mod_eq_of_lt (by omega)
  · split
    · exact Nat.mod_eq_of_lt (by omega)
    · split
      · exact Nat.mod_eq_of_lt (by omega)
      · show (16 + (k.val - 314)) % 21 = _
        rw [Nat.mod_eq_of_lt (by omega)]
        omega

/-! ### The layouts in the code sets of section 10.1 -/

theorem condByte_eq : condByte = fun | .ok => 0 | .degrade => 1 | .fail => 2 | .notInService => 3 := by funext x; cases x <;> rfl

theorem rangeStatusByte_eq :
    (fun x : RangeStatus => byteOf x.code) = fun | .none => 0 | .test => 1 | .outOfService => 2 := by funext x; cases x <;> rfl

theorem orFF_eq : orFF = fun x => match x with | some n => byteOf n | none => 0xFF := by funext x; cases x <;> rfl

theorem present_eq :
    present = fun width x => match x with | some v => 1 :: v | none => List.replicate (width + 1) 0 := by
  funext width x; cases x <;> rfl

theorem requestOrFF_eq : requestOrFF = fun r => match r with | some r => requestBytes r | none => [0xFF, 0] := by
  funext r; cases r <;> rfl

theorem powerStateByte_eq (p : Port) :
    byteOf p.powerState.code = if p.lostLatch then 3 else if p.overLatch then 2 else if p.lowLatch then 1 else 0 := by
  unfold Port.powerState
  repeat' split
  all_goals rfl

/-- A member's record, with its condition request as R51 and R52 give it. -/
theorem memberBytes_eq {s : State} {c : GroupConfig} {m : Nat} {p : PortId} (member : c.members[m]? = some p) :
    memberBytes s.swEnv c m p = [byteOf p.val, condByte s.ports[p].reported, byteOf (rangeStatus s.ranges p).code]
      ++ (if 1 ≤ m ∧ rangeStatus s.ranges p = .outOfService then [0xFF, 0] else match s.ports[p].reported with
        | .degrade => if m = 0 then [7, 0] else [8, byteOf m]
        | .fail => if m = 0 then [13, 0] else [10, byteOf m]
        | _ => [0xFF, 0]) := by
  refine congrArg (([byteOf p.val, condByte s.ports[p].reported, byteOf (rangeStatus s.ranges p).code] : List Byte) ++ ·) ?_
  cases m with
  | zero =>
    cases member
    show requestOrFF (match s.ports[c.prot].reported with
      | .degrade => some ⟨.degradeP, 0⟩ | .fail => some ⟨.failP, 0⟩ | _ => none) = _
    cases s.ports[c.prot].reported <;> rfl
  | succ m =>
    have working : c.working[m]? = some p := member
    unfold condRequest
    rw [if_neg (Nat.succ_ne_zero m), Nat.add_sub_cancel, working]
    show requestOrFF (if rangeStatus s.ranges p = .outOfService then none else match s.ports[p].reported with
      | .degrade => some ⟨.degrade, m + 1⟩ | .fail => some ⟨.fail, m + 1⟩ | _ => none) = _
    rw [if_congr (and_iff_right (Nat.le_add_left 1 m)) rfl rfl]
    split
    · rfl
    · cases s.ports[p].reported <;> rfl

theorem remaining_acquire (now : Nat) (timer : Option Nat) :
    present 4 (some (be32 ((timer.map (secondsLeft now)).getD 0))) = remaining now (some (timer.getD now)) := by
  have due : secondsLeft now now = 0 := by unfold secondsLeft; omega
  unfold remaining
  cases timer with
  | none => rw [Option.map_none, Option.getD_none, Option.getD_none, Option.map_some, due]
  | some t => rw [Option.map_some, Option.getD_some, Option.getD_some, Option.map_some]

theorem portStatus_layout (s : State) (p : PortId) :
    let x := s.ports[p]
    let b := portStatusBytes s p
    b.length = 32
    ∧ part b 0 4 = [flagByte x.cfg.enabled, byteOf (rangeStatus s.ranges p).code, condByte x.raw, condByte x.reported]
    ∧ part b 4 1 = [byteOf x.powerState.code]
    ∧ part b 5 3 = present 2 (x.ps.map beS16)
    ∧ part b 8 4 = present 3 (x.accTrace.map traceBytes)
    ∧ part b 12 5 = present 4 (x.traceCand.map fun c => traceBytes c.value ++ [byteOf c.count])
    ∧ part b 17 2 = [(x.accFlags.map flagsByte).getD 0xFF, orFF x.accQuality]
    ∧ part b 19 3 = present 2 (x.accProt.map fun f => [f.request, f.effect])
    ∧ part b 22 3 = [flagByte x.pilotLoss, flagByte x.traceMismatch, flagByte x.pilotErrors]
    ∧ part b 25 6 = be16 x.windowSum ++ be16 x.lastValid ++ be16 x.lastBad
    ∧ part b 31 1 = [testRole s p] :=
  ⟨portStatusBytes_length s p, portStatusBytes_part (i := 0) rfl rfl rfl, portStatusBytes_part (i := 1) rfl rfl rfl,
    portStatusBytes_part (i := 2) rfl rfl rfl, portStatusBytes_part (i := 3) rfl rfl rfl, portStatusBytes_part (i := 4) rfl rfl rfl,
    portStatusBytes_part (i := 5) rfl rfl rfl, portStatusBytes_part (i := 6) rfl rfl rfl, portStatusBytes_part (i := 7) rfl rfl rfl,
    portStatusBytes_part (i := 8) rfl rfl rfl, portStatusBytes_part (i := 9) rfl rfl rfl⟩


theorem groupStatus_layout (s : State) (grp : Group) :
    let b := groupStatusBytes s grp
    let k := 8 + 5 * grp.cfg.count
    part b 0 3 = [byteOf (GroupState.code (some grp.state)), byteOf grp.trialResult.code, byteOf (grp.cfg.count + 1)]
    ∧ (∀ (m : Nat) (p : PortId), grp.cfg.members[m]? = some p → part b (3 + 5 * m) 5 = memberBytes s.swEnv grp.cfg m p)
    ∧ part b k 2 = requestOrFF grp.external
    ∧ part b (k + 2) 7 = requestBytes (grp.stay.getD Request.none) ++ remaining s.now grp.restoreTimer
    ∧ part b (k + 9) 8 = requestBytes grp.local_ ++ requestOrFF grp.remote ++ requestBytes grp.effective
        ++ [byteOf grp.target, orFF (s.sw.selected grp)]
    ∧ part b (k + 17) 6 = elementBytes (grp.cfg.bridge.bind s.sw.element) ++ elementBytes (s.sw.element grp.cfg.selector)
    ∧ (grp.cfg.ends = .dual → part b (k + 23) 2 = [flagByte grp.protocolMismatch, orFF grp.farBridged]) := by
  refine ⟨?_, fun m p => groupStatusBytes_member, groupStatusBytes_tail (i := 0) rfl rfl (by decide) (requestOrFF_length _),
    groupStatusBytes_tail (i := 1) rfl rfl (by decide) ?_, groupStatusBytes_tail (i := 2) rfl rfl (by decide) ?_,
    groupStatusBytes_tail (i := 3) rfl rfl (by decide) ?_, fun dual => groupStatusBytes_tail (i := 4) ?_ rfl (by decide) rfl⟩
  · rw [groupStatusBytes_eq]
    exact part_flatten (i := 0) rfl rfl rfl
  · rw [List.length_append, remaining_length]
    rfl
  · simp only [List.length_append, requestOrFF_length]
    rfl
  · rw [List.length_append, elementBytes_length, elementBytes_length]
  · unfold groupStatusTail
    rw [dual]
    rfl

theorem counted_history_length (s : State) :
    ([flagByte s.timing.ready, byteOf s.timing.lockedUpdates] ++ counted beS24 s.timing.history).length = 3 * s.timing.history.length + 3 := by
  simp only [List.length_append, counted, List.length_cons, List.length_nil, flatMap_beS24_length]
  omega

theorem timingStatus_layout (s : State) :
    let t := s.timing
    let b := timingStatusBytes s
    let k := 9 + 3 * t.history.length
    part b 0 3 = [byteOf t.state.code, orFF (t.selected.map Fin.val), orFF (t.forced.map Fin.val)]
    ∧ part b 3 3 = beS24 t.word
    ∧ part b 6 (3 * t.history.length + 3) = [flagByte t.ready, byteOf t.lockedUpdates] ++ counted beS24 t.history
    ∧ (t.state = .holdover → part b k 9 = present 3 (some (beS24 t.holdoverValue)) ++ remaining s.now t.holdoverTimer)
    ∧ (t.state ≠ .holdover → part b k 9 = List.replicate 9 0)
    ∧ (t.state = .acquiring → part b (k + 9) 5 = remaining s.now (some (t.acquireTimer.getD s.now)))
    ∧ (t.state ≠ .acquiring → part b (k + 9) 5 = List.replicate 5 0) := by
  have holdover : part (timingStatusBytes s) (9 + 3 * s.timing.history.length) 9 =
      present 3 (if s.timing.state = .holdover then some (beS24 s.timing.holdoverValue) else none)
        ++ remaining s.now (if s.timing.state = .holdover then s.timing.holdoverTimer else none) := by
    refine timingStatusBytes_head (i := 3) rfl (by simp; omega) ?_
    rw [List.length_append, remaining_length, present_length (width := 3) fun v hv => by split at hv <;> cases hv; rfl]
  have acquire : part (timingStatusBytes s) (9 + 3 * s.timing.history.length + 9) 5 =
      present 4 (if s.timing.state = .acquiring then some (be32 ((s.timing.acquireTimer.map (secondsLeft s.now)).getD 0)) else none) := by
    refine timingStatusBytes_head (i := 4) rfl (by simp; omega) ?_
    rw [present_length (width := 4) fun v hv => by split at hv <;> cases hv; rfl]
  refine ⟨timingStatusBytes_head (i := 0) rfl rfl rfl, timingStatusBytes_head (i := 1) rfl rfl rfl,
    timingStatusBytes_head (i := 2) rfl rfl (counted_history_length s), fun e => ?_, fun ne => ?_, fun e => ?_, fun ne => ?_⟩
  · rw [holdover, if_pos e, if_pos e]
  · rw [holdover, if_neg ne, if_neg ne]
    rfl
  · rw [acquire, if_pos e, remaining_acquire]
  · rw [acquire, if_neg ne]
    rfl

theorem orFF_map {α : Type} (f : α → Nat) (x : Option α) : orFF (x.map f) = (x.map fun a => byteOf (f a)).getD 0xFF := by
  cases x <;> rfl

theorem elementBytes_eq (s : State) (address : Option Nat) :
    elementBytes (address.bind s.sw.element) =
      orFF (address.bind s.sw.known) :: present 1 ((address.bind s.sw.element).map fun el => [el.lastFault]) := by
  cases address <;> rfl

/-- Settles O6: each reading request's handler gives the state back, and the layouts are their pieces in order. -/
theorem readsReplyAndChangeNothing : Obligations.ReadsReplyAndChangeNothing := by
  unfold Obligations.ReadsReplyAndChangeNothing
  refine ⟨fun l tag s free => ?_, fun s => ?_⟩
  · refine ⟨fun p => ⟨exec_getPort free tag p, exec_portStatus free tag p⟩, read_replied free tag 0x15 rfl,
      fun g => ⟨fun e => ?_, fun grp e => ?_⟩, exec_getRef free tag, exec_timingStatus free tag, exec_getProfile free tag,
      exec_readAlarms free tag, exec_identify free tag, exec_badIndex free tag, exec_readAlarms_beyond free tag⟩
    all_goals
      have get := exec_getGroup free tag g
      have status := exec_groupStatus free tag g
      rw [e] at get status
      exact ⟨get, status⟩
  · intro part yes one two three maybe left condition range request requestOrNone
    have one_eq : one = orFF := orFF_eq.symm
    have maybe_eq : maybe = present := present_eq.symm
    have condition_eq : condition = condByte := condByte_eq.symm
    have range_eq : range = fun x => byteOf x.code := rangeStatusByte_eq.symm
    have request_eq : requestOrNone = requestOrFF := requestOrFF_eq.symm
    have left_eq : left = remaining s.now := by
      funext timer
      show maybe 4 _ = _
      rw [maybe_eq]
      rfl
    rw [one_eq, maybe_eq, condition_eq, range_eq, request_eq, left_eq]
    refine ⟨fun p => ?_, fun grp => ?_, ?_, fun k => ?_⟩
    · intro x b
      rw [orFF_map, ← powerStateByte_eq]
      exact portStatus_layout s p
    · intro b k element state trial
      have element_eq : element = fun address => elementBytes (address.bind s.sw.element) := by
        funext address
        rw [elementBytes_eq]
      have state_eq : state = fun x => byteOf (GroupState.code (some x)) := by funext x; cases x <;> rfl
      have trial_eq : trial = fun x => byteOf x.code := by funext x; cases x <;> rfl
      rw [element_eq, state_eq, trial_eq]
      obtain ⟨head, members, rest⟩ := groupStatus_layout s grp
      exact ⟨groupStatusBytes_length s grp, head, fun m p member => (members m p member).trans (memberBytes_eq member), rest⟩
    · intro t b k state quality
      have state_eq : state = fun x => byteOf x.code := by funext x; cases x <;> rfl
      have quality_eq : quality = fun x => byteOf x.code := by funext x; cases x <;> rfl
      rw [state_eq, quality_eq]
      obtain ⟨head, word, counts, held, notHeld, acquiring, notAcquiring⟩ := timingStatus_layout s
      exact ⟨timingStatusBytes_length s, head, word, counts, held, notHeld, acquiring, notAcquiring,
        fun r => ⟨timingStatusBytes_refHead s r, timingStatusBytes_refSource s⟩⟩
    · intro pt n kind severity grade
      have severity_eq : severity = fun x => byteOf x.rank := by funext x; cases x <;> rfl
      have grade_eq : grade = fun x => byteOf x.code := by funext x; cases x <;> rfl
      have kind_eq : kind = (kindOfPoint k).val := (profileIndex_val k).symm
      rw [severity_eq, grade_eq, kind_eq]
      rfl


end Sys2Proof.Machine
end

section
/-! SET-PORT (R1 to R5): service started, ended and kept, and the record stored or refused. -/

namespace Sys2Proof.Machine

/-! ### Requests that a master link has accepted or refused -/

/-- An accepted request: its event ends in `u`, and then its reply becomes ready. -/
theorem request_accepts {l : LinkId} {s : State} (ready : MasterReady l s) (tag kind : Byte) {handle : Handler} {u : State}
    {payload : List Byte} (h : handle (taken l tag kind s) = (finish .none u, some payload)) :
    request l tag kind true true handle s = accepts l payload u := request_handled ready.1 (fun _ => ready.2) h

/-- A request that its own rule refuses, or answers with nothing changed. -/
theorem request_answers {l : LinkId} {s : State} (ready : MasterReady l s) (tag kind : Byte) {handle : Handler}
    {payload : List Byte} (h : handle (taken l tag kind s) = (taken l tag kind s, some payload)) :
    request l tag kind true true handle s = replied l tag kind payload s := request_replied ready.1 (fun _ => ready.2) h

/-! ### A test aborted (R24) -/

theorem testBroken_iff (s : State) : testBroken s = true ↔ ∃ t, s.cableTest = some t ∧
    (s.ports[t.outPort].cfg.enabled = false ∨ s.ports[t.inPort].cfg.enabled = false
      ∨ rangeStatus s.ranges t.outPort = .none ∨ rangeStatus s.ranges t.inPort = .none) := by
  unfold testBroken
  rw [Option.any_eq_true]
  refine exists_congr fun t => and_congr_right fun _ => ?_
  simp only [Bool.or_eq_true, Bool.not_eq_true', Bool.and_eq_false_iff, decide_eq_true_eq, or_assoc]

theorem abortBroken_intact {s : State} (h : testBroken s = false) : abortBroken s = s := by
  unfold abortBroken
  rw [if_neg (by simp [h])]

theorem endTest_ended {s : State} {t : CableTest} (e : s.cableTest = some t) (r : TestResult) (k : Nat) :
    endTest r k s = testEnded t (testReply r k) s.now s := by
  rw [endTest_eq e, resumeTest_eq (s := modLink t.link _ s) (t := t) e]
  rfl

theorem abortBroken_broken {s : State} (h : testBroken s = true) :
    ∃ t, s.cableTest = some t ∧ abortBroken s = testEnded t [0, 4, 0, 0] s.now s := by
  obtain ⟨t, e, _⟩ := (testBroken_iff s).mp h
  refine ⟨t, e, ?_⟩
  unfold abortBroken
  rw [if_pos h, endTest_ended e]
  rfl

/-! ### An accepted SET-PORT -/

theorem exec_setPort {payload : List Byte} (length : payload.length = 24) (l : LinkId) (tag : Byte) (s : State) :
    exec (.setPort l tag payload) s = .next (request l tag 0x10 true true (setPort payload) s) := by
  show Host.Outcome.next (request l tag 0x10 (decide (payload.length = 24)) true (setPort payload) s) = _
  rw [decide_eq_true length]

/-- A SET-PORT in range that would not disable a member port is accepted. -/
theorem exec_setPort_accepts {l : LinkId} {payload : List Byte} {p : PortId} {cfg : PortRecord} {s : State} (ready : MasterReady l s)
    (length : payload.length = 24) (args : setPortArgs payload = some (p, cfg))
    (free : cfg.enabled = true ∨ memberOf s.sw.groups p = none) (tag : Byte) :
    exec (.setPort l tag payload) s =
      .next (accepts l (0 :: portRecordBytes p cfg) (writePort p cfg (taken l tag 0x10 s))) := by
  rw [exec_setPort length]
  refine congrArg _ (request_accepts ready tag 0x10 ?_)
  unfold setPort
  rw [args]
  refine if_neg fun ⟨off, member⟩ => ?_
  rcases free with on | none
  · exact absurd (off.symm.trans on) Bool.noConfusion
  · exact absurd (member.symm.trans (congrArg Option.isSome none)) Bool.noConfusion

theorem writePort_starts {p : PortId} {cfg : PortRecord} {s : State} (off : s.ports[p].cfg.enabled = false) (on : cfg.enabled = true) :
    writePort p cfg s = scanEnabled p (setPortTo p (Port.startService s.now cfg) s) := by
  unfold writePort
  dsimp only
  rw [off, on]

theorem writePort_ends {p : PortId} {cfg : PortRecord} {s : State} (on : s.ports[p].cfg.enabled = true) (off : cfg.enabled = false) :
    writePort p cfg s = abortBroken (scanDisabled p (setPortTo p (Port.disabled cfg) s)) := by
  unfold writePort
  dsimp only
  rw [off, on]

theorem writePort_keeps {p : PortId} {cfg : PortRecord} {s : State} (was : s.ports[p].cfg.enabled = true) (on : cfg.enabled = true) :
    writePort p cfg s = portEvent p (Port.rewrite cfg) s := by
  unfold writePort
  dsimp only
  rw [was, on]

theorem writePort_stores {p : PortId} {cfg : PortRecord} {s : State} (was : s.ports[p].cfg.enabled = false) (off : cfg.enabled = false) :
    writePort p cfg s = { s with ports := s.ports.set p { s.ports[p] with cfg := cfg } } := by
  unfold writePort
  dsimp only
  rw [was, off]

theorem setPortTo_self (p : PortId) (new : Port) (s : State) : (setPortTo p new s).ports[p] = new := by
  rw [setPortTo_ports, set_get_self]

theorem setPortTo_conversion_back (p : PortId) (new : Port) (s : State) :
    { setPortTo p new s with conversion := s.conversion } = setPortTo p new s := by
  rw [← setPortTo_conversion p new s]

theorem scanEnabled_eq (p : PortId) (s : State) : scanEnabled p s = { s with conversion := (scanEnabled p s).conversion } := by
  unfold scanEnabled
  split <;> rfl

theorem scanEnabled_conversion (p : PortId) (s : State) :
    (scanEnabled p s).conversion = if s.conversion = none then some ⟨p, true, s.now + 250⟩ else s.conversion := by
  unfold scanEnabled
  split
  · next e => rw [if_pos e]; rfl
  · next c e => rw [if_neg (by simp [e])]

/-- Settles O8: the port starts its service, and the ADC at rest begins on it. -/
theorem setPortStartsService : Obligations.SetPortStartsService := by
  unfold Obligations.SetPortStartsService
  intro l tag payload p cfg s ready length args on off
  let told := setPortTo p (Port.startService s.now cfg) (taken l tag 0x10 s)
  have scan := scanEnabled_eq p told
  have still : told.conversion = s.conversion := setPortTo_conversion p _ _
  refine ⟨scanEnabled p told, ?_, ?_, ?_, ?_⟩
  · rw [exec_setPort_accepts ready length args (.inl on) tag, writePort_starts (s := taken l tag 0x10 s) off on]
    rfl
  · rw [scan]
    exact setPortTo_self p _ _
  · rw [scanEnabled_conversion, still, (setPortTo_keeps p _ _).now]
    rfl
  · rw [scan]
    exact setPortTo_conversion_back p (Port.startService s.now cfg) (taken l tag 0x10 s) ▸ setPortTo_cascade p _ _

theorem setPortTo_sw_of_free {p : PortId} {s : State} (free : memberOf s.sw.groups p = none) (new : Port) :
    (setPortTo p new s).sw = s.sw := by
  unfold setPortTo
  dsimp only
  rw [tellTiming_sw, tellGroup_none (s := { s with ports := s.ports.set p new }) free]

/-- Settles O9: the port is left with its record, and a test on it is aborted. -/
theorem setPortEndsService : Obligations.SetPortEndsService := by
  unfold Obligations.SetPortEndsService
  intro l tag payload p cfg s ready length args off on free
  have keeps := setPortTo_keeps p (.disabled cfg) (taken l tag 0x10 s)
  let v := scanDisabled p (setPortTo p (.disabled cfg) (taken l tag 0x10 s))
  have cableTest : v.cableTest = s.cableTest := keeps.cableTest
  have now : v.now = s.now := keeps.now
  have self : v.ports[p] = .disabled cfg := setPortTo_self p _ _
  refine ⟨abortBroken v, v, ?_, self, ?_, ?_, ?_, abortBroken_intact, fun broken => ?_, fun t e uses => ?_⟩
  · rw [exec_setPort_accepts ready length args (.inr free) tag, writePort_ends (s := taken l tag 0x10 s) on off]
  · exact congrArg (Option.map _) (setPortTo_conversion p _ _)
  · exact setPortTo_sw_of_free (s := taken l tag 0x10 s) free _
  · exact setPortTo_conversion_back p (.disabled cfg) (taken l tag 0x10 s) ▸ setPortTo_cascade p _ _
  · rw [← now, ← cableTest]
    exact abortBroken_broken broken
  · have out : v.ports[p].cfg.enabled = false := by rw [self]; exact off
    refine (testBroken_iff v).mpr ⟨t, cableTest.trans e, ?_⟩
    rcases uses with rfl | rfl
    · exact .inl out
    · exact .inr (.inl out)

/-! ### Re-evaluations of a changed record -/

theorem Port.retrace_mismatch {p : Port} (on : p.cfg.enabled = true) : p.retrace.traceMismatch =
    (p.cfg.expected.isSome && p.accTrace.isSome && decide (p.cfg.expected ≠ p.accTrace) && !p.pilotLoss) := by
  unfold Port.retrace
  dsimp only
  cases p.cfg.expected <;> cases p.accTrace <;> simp [on]

theorem Port.judgeErrors_errors (p : Port) : p.judgeErrors.pilotErrors =
    (decide (p.cfg.badThreshold ≤ p.buckets.sum) || (decide (p.cfg.badThreshold / 2 < p.buckets.sum) && p.pilotErrors)) := by
  show (if p.cfg.badThreshold ≤ p.buckets.sum then true else if p.buckets.sum ≤ p.cfg.badThreshold / 2 then false else p.pilotErrors) = _
  split
  · next h => simp [h]
  · next h =>
    split
    · next le => simp [h, Nat.not_lt.mpr le]
    · next gt => simp [h, Nat.lt_of_not_le gt]

/-- What a SET-PORT on a port that stays enabled makes of it, before its raw condition is re-evaluated (R5). -/
theorem Port.rewrite_eq (cfg : PortRecord) (p : Port) :
    p.rewrite cfg = { p with
      cfg := cfg, traceCand := if cfg.persistence ≠ p.cfg.persistence then none else p.traceCand
      traceMismatch := if cfg.expected ≠ p.cfg.expected then ({ p with cfg := cfg } : Port).retrace.traceMismatch else p.traceMismatch
      pilotErrors := if cfg.badThreshold ≠ p.cfg.badThreshold then ({ p with cfg := cfg } : Port).judgeErrors.pilotErrors
        else p.pilotErrors } := by
  unfold Port.rewrite
  dsimp only
  repeat' split
  all_goals rfl

/-- Settles O10: the event is `Port.rewrite`, after which the raw condition is taken afresh. -/
theorem setPortKeepsService : Obligations.SetPortKeepsService := by
  unfold Obligations.SetPortKeepsService
  intro l tag payload p cfg s ready length args on was
  refine ⟨portEvent p (Port.rewrite cfg) (taken l tag 0x10 s), ?_, portEvent_cascade p _ _, ?_⟩
  · rw [exec_setPort_accepts ready length args (.inl on) tag, writePort_keeps (s := taken l tag 0x10 s) was on]
  · obtain ⟨port, raw⟩ := portEvent_port p (Port.rewrite cfg) (taken l tag 0x10 s)
    intro old new
    have made : new = { old.rewrite cfg with raw := new.raw, reported := new.reported, holdTimer := new.holdTimer } := port
    rw [Port.rewrite_eq] at made
    have cand := congrArg Port.traceCand made
    have mismatch := congrArg Port.traceMismatch made
    have errors := congrArg Port.pilotErrors made
    dsimp only at cand mismatch errors
    rw [Port.retrace_mismatch on] at mismatch
    rw [Port.judgeErrors_errors] at errors
    refine ⟨?_, cand, mismatch, errors, raw⟩
    rw [cand, mismatch, errors]
    conv_lhs => rw [made]
    rw [Port.retrace_mismatch on, Port.judgeErrors_errors]

/-! ### The payload of SET-PORT (R2, section 10.2) -/

theorem wordAt_eq (payload : List Byte) (i : Nat) :
    wordAt payload i = 256 * (byteAt payload i).toNat + (byteAt payload (i + 1)).toNat := by
  unfold wordAt u16
  rw [Nat.mul_comm]

theorem signedAt_eq (payload : List Byte) (i : Nat) :
    signedAt payload i = if wordAt payload i < 32768 then (wordAt payload i : Int) else (wordAt payload i : Int) - 65536 := rfl

theorem clampNat_zero (hi x : Nat) : clampNat 0 hi x = min hi x := Nat.zero_max _

theorem expectedArg_eq (payload : List Byte) : expectedArg payload =
    if 1 < (byteAt payload 2).toNat then none
    else some (if (byteAt payload 2).toNat = 1 then some ⟨byteAt payload 3, byteOf (min 63 (byteAt payload 4).toNat),
      byteOf (min 31 (byteAt payload 5).toNat)⟩ else none) := by
  unfold expectedArg
  rw [flagOf_eq]
  by_cases high : 1 < (byteAt payload 2).toNat
  · rw [if_pos high, if_pos high]
  · rw [if_neg high, if_neg high, clampNat_zero, clampNat_zero]
    by_cases one : (byteAt payload 2).toNat = 1
    · rw [decide_eq_true one, if_pos one]
    · rw [decide_eq_false one, if_neg one]

/-- The record that a SET-PORT asks for, before its tests (R2). -/
def askedRecord (payload : List Byte) : PortRecord where
  enabled := decide ((byteAt payload 1).toNat = 1)
  expected := if (byteAt payload 2).toNat = 1 then
      some ⟨byteAt payload 3, byteOf (min 63 (byteAt payload 4).toNat), byteOf (min 31 (byteAt payload 5).toNat)⟩
    else none
  persistence := (byteAt payload 6).toNat
  pilotRequired := (byteAt payload 7).getLsbD 0
  traceFail := (byteAt payload 7).getLsbD 1
  overloadFail := (byteAt payload 7).getLsbD 2
  icpt := clampPower (signedAt payload 8)
  slope := min 4095 (wordAt payload 10)
  tFail := clampPower (signedAt payload 12)
  tDeg := clampPower (signedAt payload 14)
  tOver := clampPower (signedAt payload 16)
  hysteresis := min 500 (wordAt payload 18)
  holdOff := min 10000 (wordAt payload 20) / 100 * 100
  badThreshold := max 1 (min 800 (wordAt payload 22))

/-- The tests of R2 on the payload of a SET-PORT. -/
structure PortPayloadFits (payload : List Byte) : Prop where
  port : (byteAt payload 0).toNat < 32
  enable : (byteAt payload 1).toNat ≤ 1
  expected : (byteAt payload 2).toNat ≤ 1
  persistence : (askedRecord payload).persistence = 1 ∨ (askedRecord payload).persistence = 3
  thresholds : (askedRecord payload).tFail < (askedRecord payload).tDeg ∧ (askedRecord payload).tDeg < (askedRecord payload).tOver

theorem setPortArgs_fits {payload : List Byte} (fits : PortPayloadFits payload) :
    setPortArgs payload = some (⟨(byteAt payload 0).toNat, fits.port⟩, askedRecord payload) := by
  unfold setPortArgs
  have port : finOf 32 (byteAt payload 0) = some ⟨(byteAt payload 0).toNat, fits.port⟩ := finOf_eq_some_iff.mpr rfl
  rw [port, flagOf_eq_some_iff.mpr ⟨fits.enable, rfl⟩, expectedArg_eq,
    if_neg (Nat.not_lt.mpr fits.expected)]
  simp only [clampHoldOff, floorTo, clampNat_zero]
  exact if_pos ⟨fits.persistence, fits.thresholds⟩

theorem setPortArgs_bad {payload : List Byte} (bad : ¬ PortPayloadFits payload) : setPortArgs payload = none := by
  unfold setPortArgs
  split
  · next p enabled expected hp hf he =>
    have high : ¬ 1 < (byteAt payload 2).toNat := fun h => by rw [expectedArg_eq, if_pos h] at he; cases he
    have port : (byteAt payload 0).toNat < 32 := finOf_eq_some_iff.mp hp ▸ p.isLt
    exact if_neg fun ⟨persistence, thresholds⟩ =>
      bad ⟨port, (flagOf_eq_some_iff.mp hf).1, Nat.not_lt.mp high, persistence, thresholds⟩
  · rfl

theorem portPayloadFits_of_args {payload : List Byte} {p : PortId} {cfg : PortRecord} (h : setPortArgs payload = some (p, cfg)) :
    PortPayloadFits payload ∧ p.val = (byteAt payload 0).toNat ∧ cfg = askedRecord payload := by
  by_cases fits : PortPayloadFits payload
  · rw [setPortArgs_fits fits] at h
    cases h
    exact ⟨fits, rfl, rfl⟩
  · rw [setPortArgs_bad fits] at h
    cases h

theorem setPortArgs_eq_none_iff {payload : List Byte} : setPortArgs payload = none ↔ ¬ PortPayloadFits payload :=
  ⟨fun h fits => absurd ((setPortArgs_fits fits).symm.trans h) nofun, setPortArgs_bad⟩

theorem toNat_byteOf_min {hi : Nat} (small : hi < 256) (x : Nat) : (byteOf (min hi x)).toNat ≤ hi := by
  rw [toNat_byteOf (by omega)]
  exact Nat.min_le_left _ _

theorem askedRecord_trace {payload : List Byte} {t : Trace} (h : (askedRecord payload).expected = some t) :
    t.slot.toNat ≤ 63 ∧ t.port.toNat ≤ 31 := by
  replace h : (if (byteAt payload 2).toNat = 1 then some _ else none) = some t := h
  split at h
  · cases h
    exact ⟨toNat_byteOf_min (by decide) _, toNat_byteOf_min (by decide) _⟩
  · cases h

/-- Settles O11: `writePort` on a disabled port, the two refusals of `setPort`, and its payload read field by field. -/
theorem setPortStoresRecordOrRefuses : Obligations.SetPortStoresRecordOrRefuses := by
  unfold Obligations.SetPortStoresRecordOrRefuses
  intro l tag payload s ready length
  refine ⟨fun p cfg args off was free => ?_, fun args => ?_, fun p cfg args off member => ?_, ?_⟩
  · rw [exec_setPort_accepts ready length args (.inr free) tag, writePort_stores (s := taken l tag 0x10 s) was off]
    rfl
  · rw [exec_setPort length]
    refine congrArg _ (request_answers ready tag 0x10 ?_)
    unfold setPort
    rw [args]
    rfl
  · rw [exec_setPort length]
    refine congrArg _ (request_answers ready tag 0x10 ?_)
    unfold setPort
    rw [args]
    exact if_pos ⟨off, Option.isSome_iff_ne_none.mpr member⟩
  · intro b word signed power
    have word_eq : ∀ i, wordAt payload i = word i := wordAt_eq payload
    have power_eq : ∀ i, clampPower (signedAt payload i) = power i := fun i => by
      show max (-6000) (min 1500 (signedAt payload i)) = _
      rw [signedAt_eq, word_eq]
    refine ⟨?_, fun p cfg args => ?_⟩
    · rw [setPortArgs_eq_none_iff, ← power_eq, ← power_eq, ← power_eq]
      refine ⟨fun bad => ?_, fun bad fits => ?_⟩
      · by_contra within
        simp only [not_or, not_not, not_and_or, not_le, not_lt] at within
        obtain ⟨port, enable, expected, persistence, thresholds⟩ := within
        exact bad ⟨port, enable, expected, persistence, thresholds⟩
      · obtain ⟨port, enable, expected, persistence, thresholds⟩ := fits
        rcases bad with h | h | h | ⟨h1, h3⟩ | h
        · exact absurd port (Nat.not_lt.mpr h)
        · exact absurd enable (Nat.not_le.mpr h)
        · exact absurd expected (Nat.not_le.mpr h)
        · exact persistence.elim h1 h3
        · exact h thresholds
    · obtain ⟨fits, port, rfl⟩ := portPayloadFits_of_args args
      have bounds : ∀ x : Int, -6000 ≤ clampPower x ∧ clampPower x ≤ 1500 := clampInt_bounds (by decide)
      refine ⟨port, ?_, fun t => askedRecord_trace, fits.persistence, (bounds _).1, fits.thresholds.1, fits.thresholds.2, (bounds _).2,
        (bounds _).1, (bounds _).2, Nat.min_le_left _ _, Nat.min_le_left _ _, ?_, Nat.mul_mod_left _ _, Nat.le_max_left _ _, ?_⟩
      · rw [← power_eq, ← power_eq, ← power_eq, ← power_eq, ← word_eq, ← word_eq, ← word_eq, ← word_eq]
        rfl
      · exact (Nat.div_mul_le_self _ _).trans (Nat.min_le_left _ _)
      · exact Nat.max_le.mpr ⟨by decide, Nat.min_le_left _ _⟩

end Sys2Proof.Machine
end

section
/-! SET-RANGE (R8, R9), and events taken at several groups one after the other. -/

namespace Sys2Proof.Machine

/-! ### Groups in turn -/

section
variable {f : GroupId → SwEnv → Switching → Switching} {gs : List GroupId} {s : State}

/-- A law kept by the event of every group of the turn holds after the turn. -/
theorem groupsInTurn_mem_induct {P : State → Prop} (h0 : ∀ n, P { s with orderDraws := n })
    (h : ∀ g ∈ gs, ∀ t, P t → P (inSwitch (f g) t)) : P (groupsInTurn gs f s) := by
  have each : ∀ g ∈ freeOrder s.orderDraws gs, ∀ t, P t → P (inSwitch (f g) t) := fun g hg => h g ((freeOrder_mem _ _ _).mp hg)
  unfold groupsInTurn
  generalize freeOrder s.orderDraws gs = xs at each
  have start := h0 (s.orderDraws + gs.length)
  generalize ({ s with orderDraws := s.orderDraws + gs.length } : State) = t at start
  induction xs generalizing t with
  | nil => exact start
  | cons x xs ih => exact ih (fun g hg => each g (List.mem_cons_of_mem x hg)) _ (each x List.mem_cons_self t start)

/-- What a turn makes of one of its groups: the event at it, with the events at the others before and after. -/
theorem groupsInTurn_at {g : GroupId} {Before After : State → Prop} (mem : g ∈ gs) (nodup : gs.Nodup)
    (h0 : ∀ n, Before { s with orderDraws := n }) (before : ∀ h, h ≠ g → ∀ t, Before t → Before (inSwitch (f h) t))
    (at_ : ∀ t, Before t → After (inSwitch (f g) t)) (after : ∀ h, h ≠ g → ∀ t, After t → After (inSwitch (f h) t)) :
    After (groupsInTurn gs f s) := by
  replace mem := (freeOrder_mem s.orderDraws gs g).mpr mem
  replace nodup := freeOrder_nodup s.orderDraws nodup
  unfold groupsInTurn
  generalize freeOrder s.orderDraws gs = xs at mem nodup
  have start := h0 (s.orderDraws + gs.length)
  generalize ({ s with orderDraws := s.orderDraws + gs.length } : State) = t at start
  have rest : ∀ (ys : List GroupId), g ∉ ys → ∀ t, After t → After (ys.foldl (fun s h => inSwitch (f h) s) t) := by
    intro ys
    induction ys with
    | nil => exact fun _ _ => id
    | cons y ys ih =>
      intro no t ht
      exact ih (fun hg => no (List.mem_cons_of_mem y hg)) _ (after y (fun e => no (e ▸ List.mem_cons_self)) t ht)
  induction xs generalizing t with
  | nil => cases mem
  | cons x xs ih =>
    obtain ⟨new, tail⟩ := List.nodup_cons.mp nodup
    by_cases e : x = g
    · subst e
      exact rest xs new _ (at_ t start)
    · exact ih ((List.mem_cons.mp mem).resolve_left (Ne.symm e)) tail _ (before x e t start)

theorem groupsInTurn_untouched (only : ∀ g env w, OnlyGroup g w (f g env w)) {g : GroupId} (no : g ∉ gs) :
    (groupsInTurn gs f s).sw.groups[g] = s.sw.groups[g] :=
  groupsInTurn_mem_induct (P := fun t => t.sw.groups[g] = s.sw.groups[g]) (fun _ => rfl) fun h mem t ht =>
    ((only h _ t.sw).others g fun e => no (e ▸ mem)).trans ht

theorem groupsInTurn_elements (only : ∀ g env w, OnlyGroup g w (f g env w)) :
    (groupsInTurn gs f s).sw.elements = s.sw.elements :=
  groupsInTurn_induct (P := fun t => t.sw.elements = s.sw.elements) gs (fun _ => rfl) fun g t ht => (only g _ t.sw).elements.trans ht

theorem groupsInTurn_bus (only : ∀ g env w, OnlyGroup g w (f g env w)) : (groupsInTurn gs f s).sw.bus = s.sw.bus :=
  groupsInTurn_induct (P := fun t => t.sw.bus = s.sw.bus) gs (fun _ => rfl) fun g t ht => (only g _ t.sw).bus.trans ht

/-- A group's forming stands through an event at another group. -/
theorem FormedIn.other {env : SwEnv} {g h : GroupId} {w v : Switching} (formed : FormedIn env g w) (only : OnlyGroup h w v) (ne : g ≠ h) :
    FormedIn env g v :=
  formed.congr only.elements fun y hy => ⟨y, (only.others g ne).symm.trans hy, ⟨rfl, rfl, rfl, rfl, rfl, rfl, rfl, rfl, rfl, rfl⟩⟩

/-- Every group of the turn forms L, E and T afresh where its own event does. -/
theorem groupsInTurn_formed (only : ∀ g env w, OnlyGroup g w (f g env w)) (forms : ∀ g env w, FormedIn env g (f g env w))
    (nodup : gs.Nodup) {g : GroupId} (mem : g ∈ gs) :
    FormedIn (groupsInTurn gs f s).swEnv g (groupsInTurn gs f s).sw :=
  groupsInTurn_at (Before := fun _ => True) (After := fun t => FormedIn t.swEnv g t.sw) mem nodup (fun _ => trivial)
    (fun _ _ _ _ => trivial) (fun t _ => forms g t.swEnv t.sw)
    fun h ne t ht => ht.other (v := f h t.swEnv t.sw) (only h _ _) (Ne.symm ne)

end

/-! ### The range status of a port (R9) -/

theorem any_covers_iff (ranges : Vector RangeEntry 4) (kind : RangeKind) (p : PortId) :
    ranges.toList.any (RangeEntry.covers kind p) = true ↔
      ∃ i : Fin 4, ranges[i].enabled = true ∧ ranges[i].kind = kind ∧ ranges[i].lower ≤ p ∧ p ≤ ranges[i].upper := by
  have covers : ∀ e : RangeEntry, e.covers kind p = true ↔ e.enabled = true ∧ e.kind = kind ∧ e.lower ≤ p ∧ p ≤ e.upper := fun e => by
    unfold RangeEntry.covers
    simp only [Bool.and_eq_true, decide_eq_true_eq, and_assoc]
  rw [List.any_eq_true]
  constructor
  · rintro ⟨e, mem, h⟩
    obtain ⟨i, lt, rfl⟩ := List.mem_iff_getElem.mp mem
    rw [Vector.length_toList] at lt
    exact ⟨⟨i, lt⟩, (covers _).mp (by simpa using h)⟩
  · rintro ⟨i, h⟩
    exact ⟨ranges[i], by simp, (covers _).mpr h⟩

section
variable {ranges : Vector RangeEntry 4} {p : PortId}

theorem rangeStatus_eq_outOfService_iff :
    rangeStatus ranges p = .outOfService ↔ ranges.toList.any (RangeEntry.covers .outOfService p) = true := by
  unfold rangeStatus
  repeat' split
  all_goals simp_all

theorem rangeStatus_eq_test_iff : rangeStatus ranges p = .test ↔
    ¬ ranges.toList.any (RangeEntry.covers .outOfService p) = true ∧ ranges.toList.any (RangeEntry.covers .test p) = true := by
  unfold rangeStatus
  repeat' split
  all_goals simp_all

theorem rangeStatus_eq_none_iff : rangeStatus ranges p = .none ↔
    ¬ ranges.toList.any (RangeEntry.covers .outOfService p) = true ∧ ¬ ranges.toList.any (RangeEntry.covers .test p) = true := by
  unfold rangeStatus
  repeat' split
  all_goals simp_all

end

/-! ### The payload of SET-RANGE -/

theorem RangeKind.ofCode_code (k : RangeKind) : RangeKind.ofCode (byteOf k.code) = some k := by cases k <;> rfl

theorem RangeKind.ofCode_eq_none {b : Byte} (h : 1 < b.toNat) : RangeKind.ofCode b = none := by
  unfold RangeKind.ofCode
  rw [if_neg (by rintro rfl; simp at h), if_neg (by rintro rfl; simp at h)]

theorem setRangeArgs_codes (i : Fin 4) {e : RangeEntry} (order : e.lower ≤ e.upper) :
    setRangeArgs [byteOf i.val, flagByte e.enabled, byteOf e.kind.code, byteOf e.lower.val, byteOf e.upper.val] = some (i, e) := by
  unfold setRangeArgs
  have index : finOf 4 (byteAt [byteOf i.val, flagByte e.enabled, byteOf e.kind.code, byteOf e.lower.val, byteOf e.upper.val] 0) = some i :=
    finOf_byteOf (by decide) i
  have lower : finOf 32 (byteAt [byteOf i.val, flagByte e.enabled, byteOf e.kind.code, byteOf e.lower.val, byteOf e.upper.val] 3)
      = some e.lower := finOf_byteOf (by decide) e.lower
  have upper : finOf 32 (byteAt [byteOf i.val, flagByte e.enabled, byteOf e.kind.code, byteOf e.lower.val, byteOf e.upper.val] 4)
      = some e.upper := finOf_byteOf (by decide) e.upper
  have enabled : flagOf (byteAt [byteOf i.val, flagByte e.enabled, byteOf e.kind.code, byteOf e.lower.val, byteOf e.upper.val] 1)
      = some e.enabled := flagOf_flagByte e.enabled
  have kind : RangeKind.ofCode (byteAt [byteOf i.val, flagByte e.enabled, byteOf e.kind.code, byteOf e.lower.val, byteOf e.upper.val] 2)
      = some e.kind := RangeKind.ofCode_code e.kind
  rw [index, enabled, kind, lower, upper]
  exact if_pos order

theorem setRangeArgs_bad {payload : List Byte}
    (bad : 4 ≤ (byteAt payload 0).toNat ∨ 1 < (byteAt payload 1).toNat ∨ 1 < (byteAt payload 2).toNat ∨ 32 ≤ (byteAt payload 3).toNat
      ∨ 32 ≤ (byteAt payload 4).toNat ∨ (byteAt payload 4).toNat < (byteAt payload 3).toNat) : setRangeArgs payload = none := by
  unfold setRangeArgs
  split
  · next i enabled kind lower upper hi he hk hl hu =>
    rw [finOf_eq_some_iff] at hi hl hu
    refine if_neg fun (order : lower.val ≤ upper.val) => ?_
    rcases bad with h | h | h | h | h | h
    · omega
    · rw [flagOf_eq_none_iff.mpr h] at he; cases he
    · rw [RangeKind.ofCode_eq_none h] at hk; cases hk
    · omega
    · omega
    · omega
  · rfl

theorem exec_setRange {payload : List Byte} (length : payload.length = 5) (l : LinkId) (tag : Byte) (s : State) :
    exec (.setRange l tag payload) s = .next (request l tag 0x14 true true (setRange payload) s) := by
  show Host.Outcome.next (request l tag 0x14 (decide (payload.length = 5)) true (setRange payload) s) = _
  rw [decide_eq_true length]

/-- Settles O12: the entry, an event at each group of a port whose status changed, and the test's abort. -/
theorem setRangeReplacesEntry : Obligations.SetRangeReplacesEntry := by
  unfold Obligations.SetRangeReplacesEntry
  refine ⟨fun l tag i e s ready order => ?_, testBroken_iff, fun l tag payload s ready length => ?_, fun ranges p => ?_⟩
  · let start : State := { taken l tag 0x14 s with ranges := s.ranges.set i e }
    let gs := rangedGroups s.ranges (s.ranges.set i e) s.sw.groups
    let v := groupsInTurn gs (fun g env => Switching.event env g id) start
    have only : ∀ (g : GroupId) (env : SwEnv) (w : Switching), OnlyGroup g w (w.event env g id) := fun g env w =>
      onlyGroup_event env g w (.refl g w)
    have keeps : KeepsOthers start v := groupsInTurn_keeps _ _ _
    have ranges : v.ranges = s.ranges.set i e := keeps.ranges
    refine ⟨abortBroken v, v, ?_, ranges, ?_, fun g no => ?_, fun g mem => ?_, groupsInTurn_elements only, groupsInTurn_bus only,
      abortBroken_intact, fun broken => ?_⟩
    · rw [exec_setRange rfl]
      refine congrArg _ (request_accepts ready tag 0x14 ?_)
      unfold setRange
      rw [setRangeArgs_codes i order]
      rfl
    · rw [ranges]
      exact groupsInTurn_switchCascade _ _ fun g env w => (only g env w).sameRecords
    · rw [ranges] at no
      exact groupsInTurn_untouched only no
    · rw [ranges] at mem
      exact groupsInTurn_formed only (fun g env w => formedIn_event env g id w) ((List.nodup_finRange 12).filter _) mem
    · rw [← show v.now = s.now from keeps.now, ← show v.cableTest = s.cableTest from keeps.cableTest]
      exact abortBroken_broken broken
  · intro b bad
    rw [exec_setRange length]
    refine congrArg _ (request_answers ready tag 0x14 ?_)
    unfold setRange
    rw [setRangeArgs_bad bad]
    rfl
  · intro covered
    have covered_iff : ∀ kind, ranges.toList.any (RangeEntry.covers kind p) = true ↔ covered kind := fun kind => any_covers_iff ranges kind p
    rw [rangeStatus_eq_outOfService_iff, rangeStatus_eq_test_iff, rangeStatus_eq_none_iff, covered_iff, covered_iff]
    exact ⟨.rfl, .rfl, .rfl⟩

end Sys2Proof.Machine
end

section
/-! Pilot reception (R10 to R18): messages given whole, samples in HUNT and in ASSEMBLING, and the loss timer. -/

namespace Sys2Proof.Machine

/-! ### An event at a port, with the port it leaves -/

/-- What an event leaves of its port: all that `f` made of it but the conditions and the hold-off timer. -/
theorem portEvent_made (p : PortId) (f : Port → Port) (s : State) :
    ∃ raw reported timer, (portEvent p f s).ports[p] = { f s.ports[p] with raw := raw, reported := reported, holdTimer := timer } :=
  ⟨_, _, _, (portEvent_port p f s).1⟩

/-! ### Messages given whole -/

theorem messageValid_iff {body : Vector Byte 8} {noise : Bool} :
    messageValid body noise = true ↔ byteSum (0xA6 :: body.toList) = 0 ∧ noise = false := by
  unfold messageValid
  simp

/-- The port that a message is judged on: its receiver in search, its assembly in HUNT. -/
def Port.cleared (p : Port) : Port := { p with rx := ⟨p.rx.running, .search 0⟩, asm := .hunt }

theorem Port.wholeMessage_valid {body : Vector Byte 8} {noise : Bool} (h : messageValid body noise = true) (now : Nat) (p : Port) :
    p.wholeMessage now body noise = p.cleared.acceptMessage now body := by
  unfold Port.wholeMessage Port.judgeMessage
  dsimp only
  rw [if_pos h]
  rfl

theorem Port.wholeMessage_bad {body : Vector Byte 8} {noise : Bool} (h : ¬ messageValid body noise = true) (now : Nat) (p : Port) :
    p.wholeMessage now body noise = p.cleared.countBad := by
  unfold Port.wholeMessage Port.judgeMessage
  dsimp only
  rw [if_neg h]
  rfl

/-- Settles O13: a whole message is an event at its port, which judges it by its sum and its noise mark. -/
theorem pilotMessageJudged : Obligations.PilotMessageJudged := by
  unfold Obligations.PilotMessageJudged
  intro p body noise s listens
  have on := listening_enabled listens
  refine ⟨portEvent p (Port.wholeMessage s.now body noise) s, congrArg _ (if_pos listens), portEvent_cascade _ _ _, ?_⟩
  intro old new
  have raw : new.raw = new.rawCondition := (portEvent_port p (Port.wholeMessage s.now body noise) s).2
  obtain ⟨r, reported, timer, made⟩ := portEvent_made p (Port.wholeMessage s.now body noise) s
  replace made : new = { old.wholeMessage s.now body noise with raw := r, reported := reported, holdTimer := timer } := made
  clear_value new
  by_cases valid : messageValid body noise = true
  · rw [Port.wholeMessage_valid valid] at made
    have mismatch : new.traceMismatch = (old.cfg.expected.isSome && new.accTrace.isSome && decide (old.cfg.expected ≠ new.accTrace)) := by
      rw [made]
      show (Port.retrace _).traceMismatch = _
      rw [Port.retrace_mismatch (by exact on)]
      exact Bool.and_true _
    subst made
    refine ⟨rfl, rfl, raw, rfl, rfl, rfl, rfl, fun _ => ⟨rfl, rfl, rfl, rfl, rfl, rfl, rfl, rfl, ?_, ?_, ?_, ?_, mismatch, rfl⟩,
      fun bad => absurd (messageValid_iff.mp valid) bad⟩
    all_goals
      intro c hc
      cases hc
      rfl
  · rw [Port.wholeMessage_bad valid] at made
    have errors : new.pilotErrors = (decide (old.cfg.badThreshold ≤ new.buckets.sum)
        || (decide (old.cfg.badThreshold / 2 < new.buckets.sum) && old.pilotErrors)) := by
      rw [made]
      exact Port.judgeErrors_errors _
    subst made
    exact ⟨rfl, rfl, raw, rfl, rfl, rfl, rfl, fun good => absurd (messageValid_iff.mpr good) valid,
      fun _ => ⟨rfl, rfl, rfl, rfl, rfl, rfl, rfl, rfl, rfl, rfl, rfl, rfl, rfl, errors⟩⟩

/-! ### The loss timer -/

theorem Port.loss_eq (p : Port) : p.loss =
    { p with
      lossTimer := none, pilotLoss := true, traceMismatch := false, accFlags := none, accQuality := none, accProt := none
      traceCand := none, flagsCand := none, qualityCand := none, protCand := none } := by
  unfold Port.loss Port.retrace
  dsimp only
  split <;> simp

/-- Settles O16: the expiry is the event `Port.loss` at the timer's due time. -/
theorem lossTimerExpiryRaisesPilotLoss : Obligations.LossTimerExpiryRaisesPilotLoss := by
  unfold Obligations.LossTimerExpiryRaisesPilotLoss
  intro p due s running
  refine ⟨portEvent p Port.loss (s.reach due), ?_, portEvent_cascade _ _ _, ?_⟩
  · show Host.Outcome.next (match s.ports[p].lossTimer with
      | some t => finish .none (portEvent p Port.loss (s.reach t)) | none => s) = _
    rw [running]
  · obtain ⟨made, raw⟩ := portEvent_port p Port.loss (s.reach due)
    rw [Port.loss_eq] at made
    exact ⟨made, raw⟩

/-! ### Samples at a listening port -/

section
variable {p : PortId} {s : State}

theorem exec_pilotCharacterTaken (listens : listening s p = true) (search samples : List Bool) :
    exec (.pilotCharacterTaken p search samples) s = .next (pilotSamples p (search ++ samples) s) := congrArg _ (if_pos listens)

theorem exec_truncatedMessage (listens : listening s p = true) (samples : List Bool) :
    exec (.truncatedMessage ⟨p, samples⟩) s = .next (pilotSamples p samples s) := congrArg _ (if_pos listens)

theorem Port.Still.of_common {x y z : Port} (h : x.Still y) (k : x.Still z) : y.Still z := by
  rw [h.eq, k.eq]
  exact Port.still_of _ _

/-- A run of 1 samples and a whole character, its start verified, up to its last sample: nothing but the receiver and the assembly moves. -/
theorem quietRun_char {now before ones : Nat} {init : List Bool} {last : Bool} {x : Port} (search : x.rx.chars = .search before)
    (lasts : x.asm.outlasts ones) (idle : 3 ≤ before + ones) (length : init.length = 115)
    (start : sampleAt (init ++ [last]) 1 = false) (verified : startVerified (init ++ [last]) = true) :
    QuietRun now (List.replicate ones true ++ init) x := by
  refine (QuietRun.append now _ _ x).mpr ⟨.ones now ones before x search lasts, ?_⟩
  rw [Port.receive_ones now ones before x search lasts]
  exact .char (n := before + ones) rfl idle length start verified

/-- A run of 1 samples and a whole character: the character is taken. -/
theorem receive_ones_char {now before ones : Nat} {samples : List Bool} {x : Port} (search : x.rx.chars = .search before)
    (lasts : x.asm.outlasts ones) (idle : 3 ≤ before + ones) (length : samples.length = 116) (start : sampleAt samples 1 = false)
    (verified : startVerified samples = true) :
    x.receive now (List.replicate ones true ++ samples) =
      Port.takeChar now (characterOf (before + ones) samples) { x with rx := ⟨x.rx.running, .search 0⟩ } := by
  rw [Port.receive_append, Port.receive_ones now ones before x search lasts,
    Port.receive_char (n := before + ones) rfl idle length start verified]
  exact Port.takeChar_after now _ ones { x with rx := ⟨x.rx.running, .search 0⟩ }

section
variable {before ones : Nat} {samples : List Bool} (search : s.ports[p].rx.chars = .search before) (lasts : s.ports[p].asm.outlasts ones)
  (idle : 3 ≤ before + ones) (length : samples.length = 116) (start : sampleAt samples 1 = false)
  (verified : startVerified samples = true)
include search lasts idle length start verified

/-- A character that ends no message moves the receiver and the assembly on. -/
theorem pilotSamples_char_quiet {made : Port}
    (takes : Port.takeChar s.now (characterOf (before + ones) samples) { s.ports[p] with rx := ⟨s.ports[p].rx.running, .search 0⟩ } = made)
    (still : s.ports[p].Still made) :
    pilotSamples p (List.replicate ones true ++ samples) s = { s with ports := s.ports.set p made } := by
  obtain ⟨init, last, rfl⟩ := List.eq_nil_or_concat samples |>.resolve_left fun e => by rw [e] at length; cases length
  rw [List.concat_eq_append] at *
  have before_last : QuietRun s.now (List.replicate ones true ++ init) s.ports[p] :=
    quietRun_char search lasts idle (by simpa using length) start verified
  have all := (receive_ones_char (now := s.now) search lasts idle length start verified).trans takes
  have quiet : QuietRun s.now (List.replicate ones true ++ (init ++ [last])) s.ports[p] := by
    rw [← List.append_assoc, QuietRun.append]
    refine ⟨before_last, ?_, trivial⟩
    refine before_last.still.of_common ?_
    rw [← Port.receive_one, ← Port.receive_append, List.append_assoc, all]
    exact still
  rw [pilotSamples_quiet _ quiet, all]

/-- A character that ends a message is an event at its port. -/
theorem pilotSamples_char_event {made : Port}
    (takes : Port.takeChar s.now (characterOf (before + ones) samples) { s.ports[p] with rx := ⟨s.ports[p].rx.running, .search 0⟩ } = made)
    (moved : ¬ s.ports[p].Still made) :
    ∃ f : Port → Port, f s.ports[p] = made
      ∧ pilotSamples p (List.replicate ones true ++ samples) s = finish .none (portEvent p f s) := by
  obtain ⟨init, last, rfl⟩ := List.eq_nil_or_concat samples |>.resolve_left fun e => by rw [e] at length; cases length
  rw [List.concat_eq_append] at *
  have all := (receive_ones_char (now := s.now) search lasts idle length start verified).trans takes
  refine ⟨Port.receive s.now (List.replicate ones true ++ (init ++ [last])), all, ?_⟩
  rw [← List.append_assoc] at all ⊢
  exact pilotSamples_event (quietRun_char search lasts idle (by simpa using length) start verified) (all ▸ moved)

end

end

theorem bumpNewest_ne {xs : List Nat} (some : xs ≠ []) : bumpNewest xs ≠ xs := by
  intro e
  have sum : ∀ ys : List Nat, ys ≠ [] → (bumpNewest ys).sum = ys.sum + 1 := by
    intro ys
    induction ys with
    | nil => exact fun h => absurd rfl h
    | cons y ys ih =>
      intro _
      cases ys with
      | nil => simp [bumpNewest]
      | cons z zs =>
        show y + (bumpNewest (z :: zs)).sum = _
        rw [ih (List.cons_ne_nil z zs), List.sum_cons (a := y), Nat.add_assoc]
  have := sum xs some
  rw [e] at this
  omega

/-- A bad message is an event: the noise window is no longer what it was. -/
theorem not_still_countBad {x y : Port} (buckets : y.buckets = x.buckets) (some : x.buckets ≠ []) : ¬ x.Still y.countBad := fun still => by
  have same : y.countBad.buckets = x.buckets := by rw [still.eq]
  exact bumpNewest_ne some (buckets ▸ same)

/-- Settles O14: what `receive` makes of a port in HUNT, and the event where the character is a bad message. -/
theorem pilotCharacterInHunt : Obligations.PilotCharacterInHunt := by
  unfold Obligations.PilotCharacterInHunt
  refine ⟨fun p before ones s listens hunts search => ?_, fun p first second samples s => ?_⟩
  · intro idle old run quiet
    have lasts : ∀ k, old.asm.outlasts k := fun k => by rw [show old.asm = .hunt from hunts]; trivial
    have after : ∀ k, old.asm.after k = .hunt := fun k => by rw [show old.asm = .hunt from hunts]; rfl
    have ones_quiet : QuietRun s.now (List.replicate ones true) old := .ones s.now ones before old search (lasts ones)
    have ones_receive : old.receive s.now (List.replicate ones true) = { old with rx := ⟨old.rx.running, .search idle⟩, asm := .hunt } :=
      (Port.receive_ones s.now ones before old search (lasts ones)).trans (by rw [after])
    have more_quiet : ∀ {more : List Bool} {n : Nat} {asm : Assembly},
        QuietRun s.now more { old with rx := ⟨old.rx.running, .search idle⟩, asm := .hunt } →
        Port.receive s.now more { old with rx := ⟨old.rx.running, .search idle⟩, asm := .hunt }
          = { old with rx := ⟨old.rx.running, .search n⟩, asm := asm } → quiet more n asm := fun q e => by
      have all : QuietRun s.now (List.replicate ones true ++ _) old := (QuietRun.append _ _ _ _).mpr ⟨ones_quiet, ones_receive ▸ q⟩
      show exec _ s = _
      rw [exec_pilotCharacterTaken listens, pilotSamples_quiet _ all, Port.receive_append]
      rw [show s.ports[p] = old from rfl, ones_receive, e]
    refine ⟨more_quiet trivial rfl, fun early => ?_, fun enough b c d e false_ => ?_, fun enough samples length start verified => ?_⟩
    · refine more_quiet ⟨?_, trivial⟩ ?_
      · exact Port.still_none (CharRx.sample_early early) (.inl trivial)
      · rw [Port.receive_one, Port.sample_none (CharRx.sample_early early)]
        rfl
    · refine more_quiet (.falseStart rfl enough false_ trivial) ?_
      rw [Port.receive_falseStart (n := idle) (p := { old with rx := ⟨old.rx.running, .search idle⟩, asm := .hunt }) rfl enough false_ trivial]
      rfl
    · have takes : ∀ {made : Port}, Port.takeChar s.now (characterOf idle samples) { old with rx := ⟨old.rx.running, .search 0⟩ } = made →
          old.Still made → exec (.pilotCharacterTaken p (List.replicate ones true) samples) s = .next { s with ports := s.ports.set p made } :=
        fun t still => (exec_pilotCharacterTaken listens _ _).trans
          (congrArg _ (pilotSamples_char_quiet search (lasts ones) enough length start verified t still))
      have hunt : ({ old with rx := ⟨old.rx.running, .search 0⟩ } : Port).asm = .hunt := hunts
      have take : Port.takeChar s.now (characterOf idle samples) { old with rx := ⟨old.rx.running, .search 0⟩ } =
          if idle < 96 then { old with rx := ⟨old.rx.running, .search 0⟩ }
          else if characterFraming samples = true ∨ characterByte samples ≠ 0xA6 then
            Port.countBad { old with rx := ⟨old.rx.running, .search 0⟩ }
          else { old with rx := ⟨old.rx.running, .search 0⟩,
                          asm := .assembling [⟨characterByte samples, characterNoise samples, characterFraming samples, idle⟩] 40 } := by
        unfold Port.takeChar
        rw [hunt]
        rfl
      refine ⟨fun short => ?_, fun long fits header => ?_, fun long bad some => ?_⟩
      · refine takes (take.trans ((if_pos short).trans ?_)) (Port.still_of _ _)
        rw [← hunts]
      · refine takes (take.trans ?_) (Port.still_of _ _)
        rw [if_neg (Nat.not_lt.mpr long), if_neg (by simp [fits, header]), fits, header]
      · rw [if_neg (Nat.not_lt.mpr long), if_pos bad] at take
        obtain ⟨f, made, event⟩ := pilotSamples_char_event search (lasts ones) enough length start verified take
          (not_still_countBad rfl some)
        refine ⟨portEvent p f s, (exec_pilotCharacterTaken listens _ _).trans (congrArg _ event), portEvent_cascade _ _ _, ?_⟩
        obtain ⟨port, raw⟩ := portEvent_port p f s
        intro new
        rw [made] at port
        have buckets : new.buckets = bumpNewest old.buckets := congrArg Port.buckets port
        refine ⟨port.trans ?_, raw, ?_⟩
        · show { Port.countBad _ with raw := new.raw, reported := new.reported, holdTimer := new.holdTimer } = _
          rw [show new.pilotErrors = _ from congrArg Port.pilotErrors port]
          rfl
        · rw [buckets]
          exact (congrArg Port.pilotErrors port).trans (Port.judgeErrors_errors _)
  · by_cases listens : listening s p = true
    · have still : listening (pilotSamples p first s) p = true := (pilotSamples_listening p first s).trans listens
      refine ⟨pilotSamples p first s, exec_truncatedMessage listens first, ?_, ?_⟩
      · rw [exec_truncatedMessage listens, exec_truncatedMessage still, pilotSamples_append]
      · rw [exec_pilotCharacterTaken listens, exec_pilotCharacterTaken still, List.append_assoc, pilotSamples_append]
    · refine ⟨s, congrArg _ (if_neg listens), ?_, ?_⟩
      · exact congrArg _ ((if_neg listens).trans (if_neg listens).symm)
      · exact congrArg _ ((if_neg listens).trans (if_neg listens).symm)

/-! ### Samples in ASSEMBLING -/

/-- The end of a message as an event at its port: what holds of the port as the event made it, the conditions and the hold-off timer aside. -/
theorem portEvent_ends {p : PortId} {s : State} {f : Port → Port} {made : Port} (makes : f s.ports[p] = made) {now : Port → Prop}
    (blind : ∀ raw reported timer, now { made with raw := raw, reported := reported, holdTimer := timer }) :
    ∃ u, finish .none (portEvent p f s) = finish .none u ∧ PortCascade p s u ∧ u.ports[p].asm = made.asm ∧ u.ports[p].rx = made.rx
      ∧ u.ports[p].raw = u.ports[p].rawCondition ∧ u.ports[p].cfg = made.cfg ∧ now u.ports[p] := by
  obtain ⟨raw, reported, timer, e⟩ := portEvent_made p f s
  rw [makes] at e
  exact ⟨portEvent p f s, rfl, portEvent_cascade _ _ _, by rw [e], by rw [e], (portEvent_port p f s).2, by rw [e], by rw [e]; exact blind _ _ _⟩

/-- A valid message is an event: the number of valid messages is no longer what it was. -/
theorem not_still_acceptMessage {x y : Port} {now : Nat} {body : Vector Byte 8} (count : y.validCount = x.validCount) :
    ¬ x.Still (y.acceptMessage now body) := fun still => by
  have same : (y.acceptMessage now body).validCount = x.validCount := by rw [still.eq]
  have one : (y.acceptMessage now body).validCount = y.validCount + 1 := rfl
  omega

/-- A character in ASSEMBLING (R13, R14). -/
theorem takeChar_assembling {p : Port} {chars : List RxChar} {left : Nat} (assembling : p.asm = .assembling chars left) (now : Nat)
    (c : RxChar) : p.takeChar now c =
      if c.framing then ({ p with asm := .hunt } : Port).countBad
      else if (chars ++ [c]).length = 9 then
        (if messageValid (bodyOf (chars ++ [c])) ((chars ++ [c]).any (·.noise)) then
          ({ p with asm := .hunt } : Port).acceptMessage now (bodyOf (chars ++ [c]))
        else ({ p with asm := .hunt } : Port).countBad)
      else { p with asm := .assembling (chars ++ [c]) 40 } := by
  unfold Port.takeChar
  rw [assembling]
  rfl

/-- Settles O15: what `receive` makes of a port in ASSEMBLING, with an event where the message ends. -/
theorem pilotCharacterInMessage : Obligations.PilotCharacterInMessage := by
  unfold Obligations.PilotCharacterInMessage
  intro p chars left before s listens assembling search some_left old quiet ends bad
  have lasts : ∀ {k}, k < left → old.asm.outlasts k := fun h => by rw [show old.asm = _ from assembling]; exact h
  have after : ∀ k, old.asm.after k = .assembling chars (left - k) := fun k => by rw [show old.asm = _ from assembling]; rfl
  refine ⟨fun some => ?_, fun ones few idle b c d e false_ => ?_, fun ones samples few idle length start verified => ?_⟩
  · obtain ⟨k, rfl⟩ : ∃ k, left = k + 1 := ⟨left - 1, by omega⟩
    have all := Port.receive_truncated (now := s.now) search assembling
    have moved : ¬ old.Still (old.receive s.now (List.replicate (k + 1) true)) :=
      all ▸ not_still_countBad (x := old) rfl some
    have run := List.replicate_succ' (n := k) (a := true)
    rw [run] at moved all
    have event := pilotSamples_event (.ones s.now k before old search (lasts (Nat.lt_succ_self k))) moved
    obtain ⟨u, e, rest⟩ := portEvent_ends all (now := bad) fun _ _ _ => ⟨rfl, rfl, rfl, rfl⟩
    exact ⟨u, (exec_truncatedMessage listens _).trans (congrArg _ (run ▸ event.trans e)), rest⟩
  · have ones_receive := Port.receive_ones s.now ones before old search (lasts (by omega))
    have tail : (old.asm.after ones).outlasts 5 := Assembly.outlasts_after (lasts (by omega))
    have run : QuietRun s.now (List.replicate ones true ++ [false, b, c, d, e]) old := by
      refine (QuietRun.append _ _ _ _).mpr ⟨.ones s.now ones before old search (lasts (by omega)), ?_⟩
      rw [ones_receive]
      exact .falseStart (n := before + ones) rfl idle false_ tail
    rw [exec_pilotCharacterTaken listens, pilotSamples_quiet _ run, Port.receive_append, show s.ports[p] = old from rfl,
      ones_receive, Port.receive_falseStart (n := before + ones) rfl idle false_ tail, Assembly.after_after, after (ones + 5)]
  · intro msg run
    have take := takeChar_assembling (p := { old with rx := ⟨old.rx.running, .search 0⟩ }) assembling s.now
      (characterOf (before + ones) samples)
    have event : ∀ {made : Port} {now : Port → Prop}, Port.takeChar s.now (characterOf (before + ones) samples)
        { old with rx := ⟨old.rx.running, .search 0⟩ } = made → ¬ old.Still made → made.asm = .hunt →
        made.rx = ⟨old.rx.running, .search 0⟩ → made.cfg = old.cfg →
        (∀ raw reported timer, now { made with raw := raw, reported := reported, holdTimer := timer }) → ends run 0 now := by
      intro made now takes moved hunt rx cfg blind
      obtain ⟨f, makes, event⟩ := pilotSamples_char_event search (lasts few) idle length start verified takes moved
      obtain ⟨u, e, cascade, asm, rx', raw, cfg', holds⟩ := portEvent_ends makes blind
      exact ⟨u, (exec_pilotCharacterTaken listens _ _).trans (congrArg _ (event.trans e)), cascade, asm.trans hunt, rx'.trans rx, raw,
        cfg'.trans cfg, holds⟩
    have ends_bad : ∀ {made : Port}, made = ({ old with rx := ⟨old.rx.running, .search 0⟩, asm := .hunt } : Port) →
        Port.takeChar s.now (characterOf (before + ones) samples) { old with rx := ⟨old.rx.running, .search 0⟩ } = made.countBad →
        old.buckets ≠ [] → ends run 0 bad := by
      intro made e takes some
      subst e
      exact event takes (not_still_countBad rfl some) rfl rfl rfl fun _ _ _ => ⟨rfl, rfl, rfl, rfl⟩
    have joined : characterFraming samples = false → chars ++ [characterOf (before + ones) samples] = msg := fun fits => by
      show chars ++ [⟨_, _, characterFraming samples, _⟩] = msg
      rw [fits]
    refine ⟨fun framing some => ?_, fun fits short => ?_, fun fits nine => ⟨fun good => ?_, fun not_good some => ?_⟩⟩
    · exact ends_bad rfl (take.trans (if_pos framing)) some
    · have join := take.trans (if_neg (by rw [show (characterOf _ samples).framing = _ from fits]; simp))
      rw [joined fits, if_neg short] at join
      exact (exec_pilotCharacterTaken listens _ _).trans (congrArg _
        (pilotSamples_char_quiet search (lasts few) idle length start verified join (Port.still_of _ _)))
    · have whole := take.trans (if_neg (by rw [show (characterOf _ samples).framing = _ from fits]; simp))
      rw [joined fits, if_pos nine, if_pos (messageValid_iff.mpr good)] at whole
      exact event (now := fun new => new.validCount = old.validCount + 1 ∧ new.buckets = old.buckets ∧ new.pilotLoss = false
        ∧ new.lossTimer = some (s.now + 40000)) whole (not_still_acceptMessage rfl) rfl rfl rfl fun _ _ _ => ⟨rfl, rfl, rfl, rfl⟩
    · have whole := take.trans (if_neg (by rw [show (characterOf _ samples).framing = _ from fits]; simp))
      rw [joined fits, if_pos nine, if_neg fun v => not_good (messageValid_iff.mp v)] at whole
      exact ends_bad rfl whole some

end Sys2Proof.Machine
end

section
/-! The pilot transmitter (R19, R20, R66, R67). -/

namespace Sys2Proof.Machine

/-! ### Characters on a line -/

/-- The ten bits of a character (R19). -/
theorem characterBits_get (b : Byte) {i : Nat} (h : i < 10) :
    (characterBits b)[i]? = some (if i = 0 then false else if i = 9 then true else b.getLsbD (i - 1)) := by
  match i, h with
  | 0, _ | 1, _ | 2, _ | 3, _ | 4, _ | 5, _ | 6, _ | 7, _ | 8, _ | 9, _ => rfl

theorem characterBits_length (b : Byte) : (characterBits b).length = 10 := rfl

/-- The level of a line that sends characters back to back and then rests at 1. -/
theorem levelOf_lineBits (bytes : List Byte) : ∀ i : Nat, levelOf (lineBits bytes) i =
    if 10 * bytes.length ≤ i then true else if i % 10 = 0 then false else if i % 10 = 9 then true
    else (byteAt bytes (i / 10)).getLsbD (i % 10 - 1) := by
  induction bytes with
  | nil => intro i; exact (if_pos (Nat.zero_le i)).symm
  | cons b bs ih =>
    intro i
    have split : lineBits (b :: bs) = characterBits b ++ lineBits bs := rfl
    unfold levelOf at ih ⊢
    rw [split, List.getD_eq_getElem?_getD]
    by_cases first : i < 10
    · rw [List.getElem?_append_left (by rw [characterBits_length]; exact first), characterBits_get b first, Option.getD_some,
        Nat.mod_eq_of_lt first, Nat.div_eq_of_lt first, if_neg (c := 10 * _ ≤ i) (by rw [List.length_cons]; omega)]
      rfl
    · obtain ⟨j, rfl⟩ : ∃ j, i = j + 10 := ⟨i - 10, by omega⟩
      rw [List.getElem?_append_right (by rw [characterBits_length]; omega), characterBits_length, Nat.add_sub_cancel,
        ← List.getD_eq_getElem?_getD, ih j, Nat.add_mod_right, Nat.add_div_right j (by omega)]
      simp only [List.length_cons, Nat.mul_add, Nat.mul_one, Nat.add_le_add_iff_right]
      rfl

/-- On the pilot one bit takes 125 µs (R19). -/
theorem bitAt_pilot (begun time : Nat) : bitAt pilotRate begun time = (time - begun) / 125 := by
  unfold bitAt pilotRate
  omega

/-! ### The bytes of a message -/

theorem byteSum_checked (bytes : List Byte) : byteSum (bytes ++ [checkByte bytes]) = 0 := by
  unfold checkByte byteSum
  rw [List.foldl_append]
  exact BitVec.add_right_neg _

/-- The flags byte of a message (R20, R185). -/
theorem flagsByte_bits (f : Flags) : (flagsByte f).getLsbD 0 = f.farFail ∧ (flagsByte f).getLsbD 1 = f.farDegrade
    ∧ (flagsByte f).getLsbD 2 = f.testRange ∧ (flagsByte f).toNat / 8 = f.groupType.toNat := by
  obtain ⟨fail, degrade, test, type⟩ := f
  revert fail degrade test type
  decide

/-- A port that is no protection port of a dual-ended group sends no group type and no protection fields (R20). -/
theorem pilotSignal_none {s : State} {p : PortId}
    (single : ∀ g grp, memberOf s.sw.groups p = some (g, 0) → s.sw.groups[g] = some grp → grp.cfg.ends = .single) :
    pilotSignal s p = (0, ⟨0, 0⟩) := by
  unfold pilotSignal
  split
  · next g at_ =>
    split
    · next grp there =>
      rw [if_neg (by rw [single g grp at_ there]; decide)]
    · rfl
  · rfl

theorem pilotSignal_dual {s : State} {p : PortId} {g : GroupId} {grp : Group} (at_ : memberOf s.sw.groups p = some (g, 0))
    (there : s.sw.groups[g] = some grp) (dual : grp.cfg.ends = .dual) :
    pilotSignal s p = (grp.cfg.type.code, s.sw.outgoing g grp) := by
  unfold pilotSignal
  simp only [at_, there, if_pos dual]

/-- A group that stands aside sends BAR, and any other its L and E (R66). -/
theorem outgoing_stands {w : Switching} {g : GroupId} {grp : Group}
    (stands : grp.state = .maint ∨ grp.state = .frozen ∨ grp.state = .halted) :
    w.outgoing g grp = ⟨byteOf (16 * 14 + 0), byteOf (16 * 14 + w.bridgedMember g grp)⟩ := by
  unfold Switching.outgoing
  rcases stands with h | h | h <;> rw [h] <;> rfl

theorem outgoing_signals {w : Switching} {g : GroupId} {grp : Group}
    (signals : ¬ (grp.state = .maint ∨ grp.state = .frozen ∨ grp.state = .halted)) :
    w.outgoing g grp = ⟨byteOf (16 * grp.local_.kind.code + grp.local_.member),
      byteOf (16 * grp.effective.kind.code + w.bridgedMember g grp)⟩ := by
  unfold Switching.outgoing
  cases h : grp.state <;> first | rfl | exact absurd (by simp [h]) signals

/-- The bridge of a group moves while an operation that moves it is in flight (R67). -/
theorem bridgeMoving_iff {w : Switching} {g : GroupId} {grp : Group} : w.bridgeMoving g grp = true ↔
    ∃ op, w.opOf g = some op ∧ op.inFlight = true
      ∧ ((∃ a x, op.kind = .move a x ∧ grp.cfg.bridge = some a) ∨ ∃ a x b y, op.kind = .paired a x b y) := by
  unfold Switching.bridgeMoving
  cases w.opOf g with
  | none => simp
  | some op => cases kind : op.kind <;> simp [kind]

theorem bridgedMember_onePlusOne {w : Switching} {g : GroupId} {grp : Group} (type : grp.cfg.type = .onePlusOne) :
    w.bridgedMember g grp = if grp.state = .maint ∨ grp.state = .frozen ∨ grp.state = .halted then 0 else grp.target := by
  unfold Switching.bridgedMember
  rw [type]
  cases grp.state <;> rfl

theorem bridgedMember_oneForN {w : Switching} {g : GroupId} {grp : Group} (type : grp.cfg.type = .oneForN) :
    w.bridgedMember g grp = if w.bridgeMoving g grp then 0 else (w.bridgeAt grp).getD 0 := by
  unfold Switching.bridgedMember
  rw [type]

/-- Settles O17: the message is `pilotBytes` of the moment, read byte by byte. -/
theorem pilotTransmitBuildsMessage : Obligations.PilotTransmitBuildsMessage := by
  unfold Obligations.PilotTransmitBuildsMessage
  refine ⟨fun p s time rests => ?_, levelOf_lineBits, fun p s sends => ?_⟩
  · unfold pilotOut
    rcases rests with h | h <;> rw [h]
  · have run : exec (.pilotTransmit p) s = .next { s with
        now := max s.now s.ports[p].tx.nextAt
        ports := s.ports.set p { s.ports[p] with tx :=
          ⟨.message, max s.now s.ports[p].tx.nextAt, max s.now s.ports[p].tx.nextAt + 12500, pilotBytes s p⟩ } } := by
      show execPilotTransmit p s = _
      unfold execPilotTransmit
      rcases sends with h | h <;> rw [h] <;> rfl
    obtain ⟨fail, degrade, test, type⟩ := flagsByte_bits (pilotFlags s p)
    refine ⟨pilotBytes s p, _, rfl, run, ?_, rfl, byteSum_checked _, rfl, fail, degrade, test, rfl, fun single => ?_,
      fun g grp at_ there dual => ?_⟩
    · intro t time ran
      rw [run] at ran
      cases ran
      unfold pilotOut
      dsimp only
      rw [set_get_self]
      exact congrArg (levelOf _) (bitAt_pilot _ _)
    · have signal := pilotSignal_none single
      refine ⟨type.trans ?_, ?_, ?_⟩
      · show (BitVec.ofNat 2 (pilotSignal s p).1).toNat = 0
        rw [signal]
        rfl
      · exact congrArg (fun x => x.2.request) signal
      · exact congrArg (fun x => x.2.effect) signal
    · intro stands bridgeMoves carries sends
      have signal := pilotSignal_dual at_ there dual
      replace type : (byteAt (pilotBytes s p) 4).toNat / 8 = grp.cfg.type.code % 4 := by
        refine type.trans ?_
        show (BitVec.ofNat 2 (pilotSignal s p).1).toNat = _
        rw [signal]
        rfl
      have sends_bridged : sends (s.sw.bridgedMember g grp) := by
        refine ⟨fun h => ?_, fun h => ?_⟩
        · rw [outgoing_stands h] at signal
          exact ⟨congrArg (fun x => x.2.request) signal, congrArg (fun x => x.2.effect) signal⟩
        · rw [outgoing_signals h] at signal
          exact ⟨congrArg (fun x => x.2.request) signal, congrArg (fun x => x.2.effect) signal⟩
      refine ⟨fun one => ⟨type.trans (by rw [one]; rfl), fun h => ?_, fun h => ?_⟩,
        fun many => ⟨type.trans (by rw [many]; rfl), fun h => ?_, fun h => ?_⟩⟩
      · rwa [bridgedMember_onePlusOne one, if_pos h] at sends_bridged
      · rwa [bridgedMember_onePlusOne one, if_neg h] at sends_bridged
      · rwa [bridgedMember_oneForN many, if_pos (bridgeMoving_iff.mpr h)] at sends_bridged
      · rwa [bridgedMember_oneForN many, if_neg (fun m => h (bridgeMoving_iff.mp m))] at sends_bridged

end Sys2Proof.Machine
end

section
/-! The cable test (R21 to R24): its acceptance, its phases, its comparison and its end. -/

namespace Sys2Proof.Machine

/-! ### Acceptance -/

theorem cableTestArgs_eq_none_iff {payload : List Byte} : cableTestArgs payload = none ↔
    32 ≤ (byteAt payload 0).toNat ∨ 32 ≤ (byteAt payload 1).toNat ∨ 1 < (byteAt payload 4).toNat := by
  rw [← finOf_eq_none_iff, ← finOf_eq_none_iff, ← flagOf_eq_none_iff]
  unfold cableTestArgs
  cases finOf 32 (byteAt payload 0) <;> cases finOf 32 (byteAt payload 1) <;> cases flagOf (byteAt payload 4) <;> simp

theorem cableTestArgs_eq_some {payload : List Byte} {a : TestArgs} (h : cableTestArgs payload = some a) :
    a.outPort.val = (byteAt payload 0).toNat ∧ a.inPort.val = (byteAt payload 1).toNat
      ∧ a.length = clampNat 64 4096 (wordAt payload 2) ∧ flagOf (byteAt payload 4) = some a.late := by
  unfold cableTestArgs at h
  split at h
  · next x y late hx hy hlate =>
    cases h
    exact ⟨(finOf_eq_some_iff.mp hx).symm, (finOf_eq_some_iff.mp hy).symm, rfl, hlate⟩
  · cases h

section
variable {l : LinkId} {payload : List Byte} {s : State}

theorem exec_cableTest (length : payload.length = 5) (l : LinkId) (tag : Byte) (s : State) :
    exec (.cableTest l tag payload) s = .next (request l tag 0x16 true true (cableTest l payload) s) := by
  show Host.Outcome.next (request l tag 0x16 (decide (payload.length = 5)) true (cableTest l payload) s) = _
  rw [decide_eq_true length]

/-- A CABLE-TEST that passes the tests of its fields and of its two ports. -/
theorem cableTest_passes {a : TestArgs} (args : cableTestArgs payload = some a) (out : s.ports[a.outPort].cfg.enabled = true)
    (in_ : s.ports[a.inPort].cfg.enabled = true) (outRange : rangeStatus s.ranges a.outPort ≠ .none)
    (inRange : rangeStatus s.ranges a.inPort ≠ .none) (l : LinkId) :
    cableTest l payload s = if s.cableTest.isSome then plainly .busy s
      else if s.ports[a.inPort].powerState = .lost then (s, some (testReply .noLight 0)) else (startTest l a s, none) := by
  unfold cableTest
  rw [args]
  exact if_neg (by rw [out, in_]; simp [outRange, inRange])

theorem cableTest_badArg (bad : cableTestArgs payload = none ∨ ∃ a, cableTestArgs payload = some a ∧
      (s.ports[a.outPort].cfg.enabled = false ∨ s.ports[a.inPort].cfg.enabled = false
        ∨ rangeStatus s.ranges a.outPort = .none ∨ rangeStatus s.ranges a.inPort = .none)) (l : LinkId) :
    cableTest l payload s = (s, some [6]) := by
  unfold cableTest
  rcases bad with e | ⟨a, e, unfit⟩ <;> rw [e]
  · rfl
  · exact if_pos unfit

end

/-- The out port of a test sends for it (R22). -/
theorem startTest_out (l : LinkId) (a : TestArgs) (s : State) : (startTest l a s).ports[a.outPort].tx.phase = .test := by
  obtain ⟨out, in_, length, late⟩ := a
  show ((upd (upd s.ports out fun x => { x with tx := { x.tx with phase := .test } }) in_ Port.testIn)[out]).tx.phase = _
  by_cases same : in_ = out
  · subst same
    rw [upd_get_self, upd_get_self]
    rfl
  · rw [upd_get, if_neg same, upd_get_self]

/-- The in port of a test receives for it (R23); a port that is neither stands. -/
theorem startTest_ports (l : LinkId) (a : TestArgs) (s : State) :
    (startTest l a s).ports[a.inPort]
        = Port.testIn (upd s.ports a.outPort fun x => { x with tx := { x.tx with phase := .test } })[a.inPort]
      ∧ ∀ q : PortId, q ≠ a.outPort → q ≠ a.inPort → (startTest l a s).ports[q] = s.ports[q] :=
  ⟨upd_get_self _ _ _, fun _ out in_ => (upd_get_other _ in_ _).trans (upd_get_other _ out _)⟩

/-- Settles O18: the handler of CABLE-TEST, check by check, and what `startTest` makes of the part. -/
theorem cableTestBegins : Obligations.CableTestBegins := by
  unfold Obligations.CableTestBegins
  refine ⟨fun l tag payload a s ready length args out in_ outRange inRange => ?_, fun l tag payload s ready length => ?_,
    fun payload => ?_⟩
  · have passes := cableTest_passes (s := taken l tag 0x16 s) args out in_ outRange inRange l
    rw [exec_cableTest length]
    refine ⟨fun runs => ?_, fun rests dark => ?_, fun rests light => ?_⟩
    · exact congrArg _ (request_answers ready tag 0x16 (passes.trans (if_pos runs)))
    · exact congrArg _ (request_answers ready tag 0x16 ((passes.trans (if_neg (by show ¬ s.cableTest.isSome = true; simp [rests]))).trans (if_pos dark)))
    · have begins := (passes.trans (if_neg (by show ¬ s.cableTest.isSome = true; simp [rests]))).trans (if_neg light)
      obtain ⟨in_port, others⟩ := startTest_ports l a (taken l tag 0x16 s)
      refine ⟨_, congrArg _ (request_deferred ready.1 (fun _ => ready.2) begins),
        ⟨_, rfl, rfl, rfl, rfl, rfl, rfl, rfl, rfl, rfl, rfl, rfl, rfl⟩, startTest_out l a _, ?_⟩
      rw [in_port]
      refine ⟨rfl, rfl, rfl, rfl, rfl, rfl, rfl, ?_, others, ?_⟩
      · show ((upd s.ports a.outPort _)[a.inPort]).accTrace = _
        rw [upd_get]
        split
        · next same => exact congrArg (fun p : PortId => s.ports[p].accTrace) same
        · rfl
      · show { taken l tag 0x16 s with cableTest := none } = taken l tag 0x16 s
        rw [← rests]
        rfl
  · rw [exec_cableTest length]
    refine ⟨fun bad => congrArg _ (request_answers ready tag 0x16 (cableTest_badArg (.inl bad) l)),
      fun a args unfit => congrArg _ (request_answers ready tag 0x16 (cableTest_badArg (s := taken l tag 0x16 s) (.inr ⟨a, args, unfit⟩) l))⟩
  · intro b
    refine ⟨cableTestArgs_eq_none_iff, fun a args => ?_⟩
    obtain ⟨out, in_, length, late⟩ := cableTestArgs_eq_some args
    rw [wordAt_eq] at length
    have bounds : a.length = max 64 (min 4096 (256 * b 2 + b 3)) := length
    exact ⟨out, in_, bounds, (flagOf_eq_some_iff.mp late).2, by omega, by omega⟩

/-! ### The sequence (R22) -/

theorem sequenceAdvance_succ (n : Nat) : ∀ reg : BitVec 7, sequenceAdvance (n + 1) reg = (sequenceNext (sequenceAdvance n reg)).2 := by
  induction n with
  | zero => exact fun _ => rfl
  | succ n ih => exact fun reg => ih (sequenceNext reg).2

theorem sequenceAdvance_add (n : Nat) : ∀ (m : Nat) (reg : BitVec 7), sequenceAdvance (m + n) reg = sequenceAdvance n (sequenceAdvance m reg)
  | 0, reg => by rw [Nat.zero_add]; rfl
  | m + 1, reg => by
    rw [Nat.add_right_comm]
    exact sequenceAdvance_add n m (sequenceNext reg).2

/-- The bit shifted in is the newest, and the others have moved up one place. -/
theorem sequenceNext_bits (reg : BitVec 7) : (sequenceNext reg).2.getLsbD 0 = (sequenceNext reg).1
    ∧ ∀ k, k < 6 → (sequenceNext reg).2.getLsbD (k + 1) = reg.getLsbD k := by
  revert reg
  decide

/-- A bit of the sequence stands in the register until seven more have come. -/
theorem sequenceAdvance_holds (reg : BitVec 7) (i : Nat) : ∀ k, k ≤ 6 → (sequenceAdvance (i + k + 1) reg).getLsbD k = sequenceBit reg i
  | 0, _ => by rw [sequenceAdvance_succ]; exact (sequenceNext_bits _).1
  | k + 1, h => by
    rw [sequenceAdvance_succ, (sequenceNext_bits _).2 k (by omega)]
    exact sequenceAdvance_holds reg i k (by omega)

/-- Each bit is the exclusive-or of the two oldest of the register. -/
theorem sequenceBit_add (reg : BitVec 7) (i : Nat) : sequenceBit reg (i + 7) = (sequenceBit reg (i + 1) != sequenceBit reg i) := by
  have older := sequenceAdvance_holds reg i 6 (by omega)
  have newer := sequenceAdvance_holds reg (i + 1) 5 (by omega)
  show ((sequenceAdvance (i + 7) reg).getLsbD 6 ^^ (sequenceAdvance (i + 7) reg).getLsbD 5) = _
  rw [show i + 1 + 5 + 1 = i + 7 by omega] at newer
  rw [older, newer]
  exact Bool.xor_comm _ _

theorem sequenceBit_ones (n : Nat) : sequenceBit 0x7F n =
    match n with
    | 0 | 1 | 2 | 3 | 4 | 5 | 7 => false
    | 6 => true
    | n + 1 => sequenceBit 0x7F (n - 5) != sequenceBit 0x7F (n - 6) := by
  match n with
  | 0 | 1 | 2 | 3 | 4 | 5 | 6 | 7 => decide
  | i + 8 => exact sequenceBit_add 0x7F (i + 1)

/-! ### The comparison (R23) -/

/-- Bits that match, short of bit L. -/
theorem compareBits_match {late : Bool} {length : Nat} (more : List (BitVec 12)) : ∀ (bits : List (BitVec 12)) (compared : Nat)
    (reg : BitVec 7), compared + bits.length < length → (∀ i : Fin bits.length, chosenSample late bits[i] = sequenceBit reg i.val) →
    compareBits late length (bits ++ more) compared reg
      = compareBits late length more (compared + bits.length) (sequenceAdvance bits.length reg) := by
  intro bits
  induction bits with
  | nil => exact fun _ _ _ _ => rfl
  | cons bit bits ih =>
    intro compared reg short match_
    rw [List.length_cons] at short
    have first : chosenSample late bit = (sequenceNext reg).1 := match_ ⟨0, Nat.zero_lt_succ _⟩
    show compareBits late length (bit :: (bits ++ more)) compared reg = _
    rw [compareBits, if_neg (by rw [first]; exact fun h => h rfl), if_neg (by omega),
      ih (compared + 1) _ (by omega) fun i => match_ i.succ, List.length_cons, Nat.add_assoc, Nat.add_comm 1]
    rfl

theorem compareBits_pass {late : Bool} {length : Nat} {bits : List (BitVec 12)} {compared : Nat} {reg : BitVec 7}
    (whole : compared + bits.length = length) (some_ : bits ≠ [])
    (match_ : ∀ i : Fin bits.length, chosenSample late bits[i] = sequenceBit reg i.val) :
    ∃ n r, compareBits late length bits compared reg = (n, r, some (.pass, 0)) := by
  obtain ⟨init, last, rfl⟩ := List.eq_nil_or_concat bits |>.resolve_left some_
  rw [List.concat_eq_append] at *
  rw [List.length_append, List.length_singleton] at whole
  have inits : ∀ i : Fin init.length, chosenSample late init[i] = sequenceBit reg i.val := fun i => by
    have := match_ ⟨i.val, by simp⟩
    simpa [List.getElem_append_left i.isLt] using this
  have lasts : chosenSample late last = sequenceBit reg init.length := by
    have := match_ ⟨init.length, by simp⟩
    simpa using this
  rw [compareBits_match [last] init compared reg (by omega) inits, compareBits,
    if_neg (by rw [lasts]; exact fun h => h rfl), if_pos (by omega)]
  exact ⟨_, _, rfl⟩

theorem compareBits_fail {late : Bool} {length : Nat} {bits : List (BitVec 12)} {last : BitVec 12} {compared : Nat} {reg : BitVec 7}
    (short : compared + bits.length < length) (match_ : ∀ i : Fin bits.length, chosenSample late bits[i] = sequenceBit reg i.val)
    (differs : chosenSample late last ≠ sequenceBit reg bits.length) :
    ∃ r, compareBits late length (bits ++ [last]) compared reg
      = (compared + bits.length, r, some (.fail, compared + bits.length + 1)) := by
  rw [compareBits_match [last] bits compared reg short match_, compareBits]
  exact ⟨_, if_pos differs⟩

/-- A comparison that has come to its outcome ends the test. -/
theorem compareMore_ends {t : CableTest} {s : State} (runs : s.cableTest = some t) (compares : t.inPhase = .compare)
    {bits : List (BitVec 12)} {n : Nat} {r : BitVec 7} {result : TestResult} {k : Nat}
    (out : compareBits t.late t.length bits t.compared t.inReg = (n, r, some (result, k))) :
    compareMore bits s = testEnded t (testReply result k) s.now s := by
  unfold compareMore
  rw [runs]
  dsimp only
  rw [if_pos compares, out]
  dsimp only
  rw [endTest_ended rfl]
  rfl

/-! ### The out side (R22) -/

theorem outOn_reached {t : CableTest} {s : State} (runs : s.cableTest = some t) {phase : OutPhase} (at_ : t.outPhase = phase)
    (f : Nat → CableTest → CableTest) : outOn phase f s =
      { s with now := max s.now t.phaseEnds, cableTest := some (f (max s.now t.phaseEnds) t) } := by
  unfold outOn
  rw [runs]
  exact if_pos at_

theorem outOn_elsewhere {t : CableTest} {s : State} (runs : s.cableTest = some t) {phase : OutPhase} (off : t.outPhase ≠ phase)
    (f : Nat → CableTest → CableTest) : outOn phase f s = s := by
  unfold outOn
  rw [runs]
  exact if_neg off

/-- PILOT-OUT of the out port of a running test (R22). -/
theorem pilotOut_test {t : CableTest} {s : State} (runs : s.cableTest = some t) (tests : s.ports[t.outPort].tx.phase = .test)
    (time : Nat) : pilotOut time s t.outPort = t.outLevel time s.ports[t.outPort].tx := by
  unfold pilotOut
  rw [tests, runs]
  rfl

/-- The bit of the sequence that is sent at a time. -/
theorem sequenceLevel_bit {t : CableTest} {begun time i : Nat} (inside : i < t.length) (from_ : begun + 125 * i ≤ time)
    (until_ : time < begun + 125 * (i + 1)) : t.sequenceLevel begun time = sequenceBit t.outReg i := by
  have bit : bitAt pilotRate begun time = i := by
    rw [bitAt_pilot]
    omega
  unfold CableTest.sequenceLevel
  rw [bit, if_pos inside]

/-! ### The in side (R23) -/

theorem exec_cableTestMarker {t : CableTest} {s : State} (runs : s.cableTest = some t) (awaits : t.inPhase = .awaitMarker)
    {before ones : Nat} {b c d e : Bool} (rx : s.ports[t.inPort].rx = ⟨true, .search before⟩) (idle : 3 ≤ before + ones) :
    exec (.cableTestMarker (List.replicate ones true) [false, b, c, d, e]) s = .next { s with
      ports := s.ports.set t.inPort { s.ports[t.inPort] with rx := ⟨true, .search 0⟩ }
      cableTest := some { t with inPhase :=
        if 144 ≤ before + ones ∧ startVerified [false, b, c, d, e] = true then .compare else .awaitMarker } } := by
  have seeks : seekMarker (List.replicate ones true ++ [false, b, c, d, e]) s.ports[t.inPort].rx.chars
      = (.search 0, decide (144 ≤ before + ones) && startVerified [false, b, c, d, e]) := by
    rw [rx]
    exact (seekMarker_ones ones _ before).trans (seekMarker_start idle)
  have running : s.ports[t.inPort].rx.running = true := congrArg Receiver.running rx
  have seek : Port.seek (List.replicate ones true ++ [false, b, c, d, e]) s.ports[t.inPort]
      = { s.ports[t.inPort] with rx := ⟨true, .search 0⟩ } := by
    unfold Port.seek
    rw [if_pos running, seeks, running]
  have finds : s.ports[t.inPort].finds (List.replicate ones true ++ [false, b, c, d, e])
      = decide (144 ≤ before + ones ∧ startVerified [false, b, c, d, e] = true) := by
    unfold Port.finds
    rw [running, seeks, Bool.true_and, Bool.decide_and, Bool.decide_eq_true]
  show execCableTestMarker _ _ s = _
  unfold execCableTestMarker
  rw [runs]
  dsimp only
  rw [if_pos awaits, finds]
  unfold upd
  rw [seek]
  simp only [decide_eq_true_eq]

/-- Settles O19: each phase by its lemma, with the sequence, the marker and the comparison apart. -/
theorem cableTestRunsToItsReply : Obligations.CableTestRunsToItsReply := by
  unfold Obligations.CableTestRunsToItsReply
  refine ⟨fun reg n ones => ?_, fun t s runs => ⟨fun tests time => ?_, fun at_ => ?_, fun at_ => ?_, fun at_ => ?_, fun at_ => ?_,
    fun at_ => ?_, fun _ _ _ _ _ _ awaits rx idle => exec_cableTestMarker runs awaits rx idle, fun awaits => ?_,
    fun bits compares whole some_ match_ => ?_, fun bits last compares short match_ differs => ?_⟩⟩
  · have all_ones : reg = 0x7F := by
      refine BitVec.eq_of_getLsbD_eq fun i hi => ?_
      have := ones (6 - i) (by omega)
      rw [show 6 - (6 - i) = i by omega] at this
      rw [this]
      match i, hi with
      | 0, _ | 1, _ | 2, _ | 3, _ | 4, _ | 5, _ | 6, _ => rfl
    rw [all_ones]
    exact sequenceBit_ones n
  · intro level
    have level_eq : level = t.outLevel time s.ports[t.outPort].tx := pilotOut_test runs tests time
    refine ⟨fun at_ => ?_, fun at_ => ?_, fun at_ early => ?_, fun at_ i inside from_ until_ => ?_⟩
    · rw [level_eq, CableTest.outLevel, at_]
      exact congrArg (levelOf _) (bitAt_pilot _ _)
    · rw [level_eq, CableTest.outLevel]
      rcases at_ with h | h <;> rw [h]
    · rw [level_eq, CableTest.outLevel, at_]
      exact if_pos early
    · rw [level_eq, CableTest.outLevel, at_]
      exact sequenceLevel_bit inside from_ until_
  · exact congrArg _ (outOn_reached runs at_ _)
  · refine congrArg _ ((if_neg ?_).trans (outOn_reached runs at_ _))
    rw [runs]
    simp [at_]
  · refine congrArg _ ((if_pos ?_).trans (outOn_reached runs at_ _))
    rw [runs]
    simp [at_]
  · refine congrArg _ ((congrArg _ (outOn_elsewhere runs ?_ _)).trans (outOn_reached runs at_ _))
    rw [at_]
    exact nofun
  · refine congrArg _ ((congrArg _ (outOn_reached runs at_ _)).trans ((outOn_reached (t := t.beginSequence _) rfl rfl _).trans ?_))
    have later : max (max s.now t.phaseEnds) (max s.now t.phaseEnds + 125 * t.length) = max s.now t.phaseEnds + 125 * t.length :=
      Nat.max_eq_right (Nat.le_add_right _ _)
    exact congrArg (fun now => ({ s with now := now, cableTest := some { t with
      outPhase := .done, phaseEnds := max s.now t.phaseEnds + 125 * t.length, outReg := sequenceAdvance t.length t.outReg } } : State)) later
  · refine ⟨_, rfl, ?_⟩
    rw [runs]
    exact (if_pos awaits).trans (endTest_ended (s := s.reach _) runs _ _)
  · obtain ⟨n, r, out⟩ := compareBits_pass whole some_ match_
    exact congrArg _ (compareMore_ends runs compares out)
  · obtain ⟨r, out⟩ := compareBits_fail short match_ differs
    exact congrArg _ (compareMore_ends runs compares out)

end Sys2Proof.Machine
end

section
/-! Optical power and line condition: the power scan (R26 to R33) and the hold-off (R38 to R40). -/

namespace Sys2Proof.Machine

/-! ### The power scan (R26) -/

/-- The first index that a test finds. -/
theorem find_finRange {n : Nat} {test : Fin n → Bool} {q : Fin n} (h : (List.finRange n).find? test = some q) :
    test q = true ∧ ∀ r, test r = true → q ≤ r := by
  obtain ⟨found, i, hi, at_, before⟩ := List.find?_eq_some_iff_getElem.mp h
  rw [List.getElem_finRange] at at_
  subst at_
  refine ⟨found, fun r hr => Nat.le_of_not_lt fun lt => ?_⟩
  have := before r.val (by simpa using lt)
  rw [List.getElem_finRange] at this
  simp [hr] at this

theorem find_finRange_none {n : Nat} {test : Fin n → Bool} (h : (List.finRange n).find? test = none) (r : Fin n) : test r = false := by
  have := List.find?_eq_none.mp h r (List.mem_finRange r)
  simpa using this

theorem scannedNext_of_scanAfter {ports : Vector Port 32} {p q : PortId} (h : scanAfter ports p = some q) : ScannedNext ports p q := by
  refine ⟨scanAfter_enabled h, fun r on => ?_⟩
  unfold scanAfter at h
  rw [Option.or_eq_some_iff] at h
  rcases h with above | ⟨none_above, first⟩
  · obtain ⟨found, least⟩ := find_finRange above
    simp only [Bool.and_eq_true, decide_eq_true_eq] at found least
    have lt : p.val < q.val := found.2
    by_cases after : p.val < r.val
    · have le : q.val ≤ r.val := least r ⟨on, after⟩
      omega
    · omega
  · have none_r := find_finRange_none none_above r
    obtain ⟨found, least⟩ := find_finRange first
    have le : q.val ≤ r.val := least r on
    have none_q := find_finRange_none none_above q
    simp only [on, found, Bool.true_and, decide_eq_false_iff_not, Fin.lt_def] at none_r none_q
    omega

theorem disabled_of_scanAfter {ports : Vector Port 32} {p : PortId} (h : scanAfter ports p = none) (q : PortId) :
    ports[q].cfg.enabled = false := by
  unfold scanAfter at h
  rw [Option.or_eq_none_iff] at h
  exact find_finRange_none h.2 q

/-- The scan goes by the ports' records alone. -/
theorem scanAfter_congr {ports new : Vector Port 32} (same : ∀ q : PortId, new[q].cfg = ports[q].cfg) (p : PortId) :
    scanAfter new p = scanAfter ports p := by
  unfold scanAfter
  simp only [same]

/-! ### A used conversion (R28 to R33) -/

theorem Port.convert_lost (code : Nat) (p : Port) : (p.convert code).lostLatch = true ↔
    if p.lostLatch = true then ¬ (p.cfg.tFail + p.cfg.hysteresis ≤ p.powerOf code ∧ code ≠ 0)
    else p.powerOf code < p.cfg.tFail ∨ code = 0 := by
  show (if p.lostLatch then _ else _) = true ↔ _
  cases p.lostLatch <;> simp [or_iff_not_imp_left]

/-- Ps after a used conversion (R30): the power itself where there was none or the lost latch has cleared, and an eighth of the way there
otherwise. -/
def Port.smoothed (code : Nat) (p : Port) : Int :=
  match p.ps with
  | none => p.powerOf code
  | some x => if p.lostLatch = true ∧ (p.convert code).lostLatch = false then p.powerOf code
    else x + (p.powerOf code - x).sign * ((((p.powerOf code - x).natAbs + 4) / 8 : Nat) : Int)

theorem Port.convert_ps (code : Nat) (p : Port) : (p.convert code).ps = some (p.smoothed code) := by
  unfold Port.smoothed
  cases ps : p.ps with
  | none =>
    show some (match p.ps with | none => _ | some old => _) = _
    rw [ps]
  | some x =>
    show some (match p.ps with | none => _ | some old => if p.lostLatch && !(p.convert code).lostLatch then _ else _) = _
    rw [ps]
    simp only [Bool.and_eq_true, Bool.not_eq_true']
    rfl

theorem Port.convert_over {code : Nat} {p : Port} {ps : Int} (h : (p.convert code).ps = some ps) :
    (p.convert code).overLatch = true ↔ if p.overLatch = true then ¬ (ps ≤ p.cfg.tOver - p.cfg.hysteresis ∧ code ≠ 4095)
      else p.cfg.tOver < ps ∨ code = 4095 := by
  obtain rfl : _ = ps := Option.some_inj.mp h
  show (if p.overLatch then _ else _) = true ↔ _
  cases p.overLatch <;> simp [or_iff_not_imp_left]

theorem Port.convert_low {code : Nat} {p : Port} {ps : Int} (h : (p.convert code).ps = some ps) :
    (p.convert code).lowLatch = true ↔ if p.lowLatch = true then ¬ p.cfg.tDeg + p.cfg.hysteresis ≤ ps else ps < p.cfg.tDeg := by
  obtain rfl : _ = ps := Option.some_inj.mp h
  show (if p.lowLatch then _ else _) = true ↔ _
  cases p.lowLatch <;> simp

/-- Settles O20: a used conversion is the event `Port.convert` at its end, and the scan goes on from its port. -/
theorem conversionJudgesPower : Obligations.ConversionJudgesPower := by
  unfold Obligations.ConversionJudgesPower
  intro code c s scans
  have run : exec (.conversionEnd code) s = .next (if c.used then finish .none (scanOn c.port
      (portEvent c.port (Port.convert code.toNat) (s.reach c.endsAt))) else scanOn c.port (s.reach c.endsAt)) := by
    show Host.Outcome.next _ = _
    rw [scans]
  refine ⟨conversionOf (max s.now c.endsAt) (scanAfter s.ports c.port), fun k hk => ?_, fun rests p => ?_, fun unused => ?_, fun used => ?_⟩
  · obtain ⟨q, scan, e⟩ := Option.map_eq_some_iff.mp hk
    subst e
    exact ⟨scannedNext_of_scanAfter scan, rfl, rfl⟩
  · exact disabled_of_scanAfter (Option.map_eq_none_iff.mp rests) p
  · rw [run, if_neg (by simp [unused])]
    rfl
  · rw [if_pos used] at run
    have keeps := portEvent_keeps c.port (Port.convert code.toNat) (s.reach c.endsAt)
    have same : ∀ q : PortId, (portEvent c.port (Port.convert code.toNat) (s.reach c.endsAt)).ports[q].cfg = s.ports[q].cfg := by
      intro q
      by_cases e : q = c.port
      · subst e
        obtain ⟨eff, e⟩ := portEvent_self c.port (Port.convert code.toNat) (s.reach c.endsAt)
        rw [e, Port.settle_cfg]
        rfl
      · rw [portEvent_other e]
        rfl
    refine ⟨_, run, ?_, ?_, ?_⟩
    · show conversionOf _ (scanAfter _ c.port) = _
      rw [scanAfter_congr same, keeps.now]
      rfl
    · have held : { scanOn c.port (portEvent c.port (Port.convert code.toNat) (s.reach c.endsAt)) with conversion := s.conversion }
          = portEvent c.port (Port.convert code.toNat) (s.reach c.endsAt) := by
        rw [show s.conversion = (portEvent c.port (Port.convert code.toNat) (s.reach c.endsAt)).conversion from keeps.conversion.symm]
        rfl
      rw [held]
      exact portEvent_cascade _ _ _
    · obtain ⟨raw, reported, timer, made⟩ := portEvent_made c.port (Port.convert code.toNat) (s.reach c.endsAt)
      have settled := (portEvent_port c.port (Port.convert code.toNat) (s.reach c.endsAt)).2
      have zero : code.toNat = 0 ↔ code = 0 := BitVec.toNat_inj (y := 0)
      have full : code.toNat = 4095 ↔ code = 4095 := BitVec.toNat_inj (y := 4095)
      intro old new pw lost
      replace made : new = { old.convert code.toNat with raw := raw, reported := reported, holdTimer := timer } := made
      replace settled : new.raw = new.rawCondition := settled
      clear_value new
      subst made
      have lost_iff : (old.convert code.toNat).lostLatch = true ↔ lost := by
        refine (Port.convert_lost _ _).trans ?_
        rw [zero, Ne, zero]
        rfl
      refine ⟨lost_iff, ⟨old.smoothed code.toNat, Port.convert_ps _ _, ?_, ?_, Port.convert_low (Port.convert_ps _ _)⟩, ?_, settled⟩
      · have cleared : (old.convert code.toNat).lostLatch = false ↔ ¬ lost := by
          rw [← lost_iff, Bool.not_eq_true]
        unfold Port.smoothed
        simp only [cleared]
        rfl
      · refine (Port.convert_over (Port.convert_ps _ _)).trans ?_
        rw [full, Ne, full]
      · have marks : decide (code.toNat = 0) = decide (code = 0) ∧ decide (code.toNat = 4095) = decide (code = 4095) :=
          ⟨decide_eq_decide.mpr zero, decide_eq_decide.mpr full⟩
        rw [← marks.1, ← marks.2]
        rfl

/-! ### The hold-off (R38 to R40) -/

theorem Port.settle_same {p : Port} (h : p.rawCondition = p.raw) (eff now : Nat) : p.settle eff now = p := if_pos h

theorem Port.settle_changed {p : Port} (h : p.rawCondition ≠ p.raw) (eff now : Nat) :
    p.settle eff now = ({ p with raw := p.rawCondition } : Port).holdOffTake eff now := if_neg h

theorem effectiveHoldOff_lone {groups : Vector (Option Group) 12} {p : PortId} (lone : memberOf groups p = none) (ports : Vector Port 32) :
    effectiveHoldOff groups ports p = ports[p].cfg.holdOff := by
  unfold effectiveHoldOff
  rw [lone]
  rfl

theorem effectiveHoldOff_member {groups : Vector (Option Group) 12} {p : PortId} {g : GroupId} {m : Nat} {grp : Group}
    (member : memberOf groups p = some (g, m)) (there : groups[g] = some grp) (ports : Vector Port 32) :
    effectiveHoldOff groups ports p = max ports[p].cfg.holdOff grp.cfg.holdOff := by
  unfold effectiveHoldOff
  rw [member, Option.bind_some, there]

/-- A port's membership goes by the groups' records. -/
theorem memberOf_sameRecords {w v : Switching} (same : SameRecords w v) (p : PortId) : memberOf v.groups p = memberOf w.groups p := by
  have by_record : ∀ (g : GroupId) (o : Option Group),
      (o.bind fun grp => if p ∈ grp.cfg.members then some (g, grp.cfg.members.idxOf p) else none)
        = (o.map (·.cfg)).bind fun cfg => if p ∈ cfg.members then some (g, cfg.members.idxOf p) else none := fun _ o => by
    cases o <;> rfl
  unfold memberOf
  simp only [by_record, same.groups]

/-- So does its effective hold-off, and by its own record (R39). -/
theorem effectiveHoldOff_sameRecords {w v : Switching} (same : SameRecords w v) {p : PortId} {ports new : Vector Port 32}
    (cfg : new[p].cfg = ports[p].cfg) : effectiveHoldOff v.groups new p = effectiveHoldOff w.groups ports p := by
  have by_record : ∀ (groups : Vector (Option Group) 12) (ports : Vector Port 32), effectiveHoldOff groups ports p =
      match ((memberOf groups p).bind fun gm => groups[gm.1].map (·.cfg)) with
      | some rec => max ports[p].cfg.holdOff rec.holdOff
      | none => ports[p].cfg.holdOff := fun groups ports => by
    unfold effectiveHoldOff
    cases memberOf groups p with
    | none => rfl
    | some gm =>
      simp only [Option.bind_some]
      cases groups[gm.1] <;> rfl
  rw [by_record, by_record, memberOf_sameRecords same, cfg]
  simp only [same.groups]

theorem Port.still_of_eq {x y : Port} (h : y = { x with rx := y.rx, asm := y.asm }) : x.Still y := by
  rw [h]
  exact Port.still_of _ _

/-- What an event makes of its port: the effective hold-off is that of the port as the event changes it and of its group (R39). -/
theorem portEvent_settles (p : PortId) (f : Port → Port) (s : State) :
    (portEvent p f s).ports[p]
      = (f s.ports[p]).settle (effectiveHoldOff s.sw.groups (s.ports.set p (f s.ports[p])) p) s.now := by
  unfold portEvent
  dsimp only
  rw [setPortTo_ports, set_get_self]

/-- In a turn of ports each is taken once, as it stood and by the hold-off that stood. -/
theorem turn_settles {p : PortId} (xs : List PortId) : ∀ {s : State}, xs.Nodup → (p ∉ xs → s.ports[p].rawCondition = s.ports[p].raw) →
    (xs.foldl (fun s p => portEvent p id s) s).ports[p] = s.ports[p].settle (effectiveHoldOff s.sw.groups s.ports p) s.now := by
  induction xs with
  | nil => exact fun _ out => (Port.settle_same (out List.not_mem_nil) _ _).symm
  | cons x xs ih =>
    intro s once out
    have rest := (List.nodup_cons.mp once).2
    rw [List.foldl_cons]
    by_cases e : p = x
    · subst e
      have settled := (portEvent_port p id s).2.symm
      rw [ih rest fun _ => settled, Port.settle_same settled, portEvent_settles]
      rw [effectiveHoldOff_sameRecords (.refl _) (ports := s.ports) (by rw [set_get_self]; rfl)]
      rfl
    · have stands : (portEvent x id s).ports[p] = s.ports[p] := portEvent_other e _ _
      rw [ih rest fun no => by rw [stands]; exact out fun mem => (List.mem_cons.mp mem).elim e no, stands,
        effectiveHoldOff_sameRecords (portEvent_sameRecords x id s) (congrArg Port.cfg stands), (portEvent_keeps x id s).now]

/-- An enabled port at a tick: its window rolls, and its conditions are judged anew (R35, R38). -/
theorem secondsTick_settles {s : State} {p : PortId} (on : s.ports[p].cfg.enabled = true) :
    (portsInTurn (unsettled (tickPorts s)) (tickPorts s)).ports[p]
      = s.ports[p].tick.settle (effectiveHoldOff s.sw.groups s.ports p) s.now := by
  have ticked : (tickPorts s).ports[p] = s.ports[p].tick := by rw [tickPorts_get, if_pos on]
  have once : (unsettled (tickPorts s)).Nodup := List.Nodup.filter _ (List.nodup_finRange 32)
  unfold portsInTurn
  rw [turn_settles (s := { tickPorts s with orderDraws := _ }) _ (freeOrder_nodup _ once) fun out => ?_]
  · show (tickPorts s).ports[p].settle (effectiveHoldOff s.sw.groups (tickPorts s).ports p) s.now = _
    rw [ticked, effectiveHoldOff_sameRecords (.refl _) (tickPorts_cfg s p)]
  · rw [freeOrder_mem, unsettled, List.mem_filter, tickPorts_cfg, on] at out
    simpa using out

/-- Settles O22: `Port.settle` by its cases, and for each kind of event the effective hold-off that it goes by. -/
theorem holdOffDelaysWorseConditions : Obligations.HoldOffDelaysWorseConditions := by
  unfold Obligations.HoldOffDelaysWorseConditions
  refine ⟨fun eff now p => ?_, fun p due s runs => ?_, fun p s => ?_⟩
  · intro q
    refine ⟨(Port.settle_keeps eff now p).trans (by rw [Port.settle_raw]), fun same => Port.settle_same same _ _, fun changed worse runs => ?_,
      fun changed worse rests zero => ?_, fun changed worse rests some => ?_, fun changed better => ?_⟩
    all_goals
      have settled : q = _ := Port.settle_changed changed eff now
      unfold Port.holdOffTake at settled
      dsimp only at settled
    · rw [if_pos worse, if_pos runs] at settled
      rw [settled]
      exact ⟨rfl, rfl⟩
    · rw [if_pos worse, if_neg (by simp [rests]), if_pos zero] at settled
      rw [settled]
      exact ⟨rfl, rests⟩
    · rw [if_pos worse, if_neg (by simp [rests]), if_neg some] at settled
      rw [settled]
      exact ⟨rfl, rfl⟩
    · rw [if_neg (Nat.not_lt.mpr better)] at settled
      rw [settled]
      exact ⟨rfl, rfl⟩
  · refine ⟨setPortTo p s.ports[p].holdOffExpire (s.reach due), ?_, setPortTo_cascade _ _ _, ?_⟩
    · show Host.Outcome.next _ = _
      rw [runs]
      rfl
    · rw [setPortTo_ports, set_get_self]
      rfl
  · intro old judged judges
    have judged_by : ∀ {u : State} {now : Nat} {changed : Port} {ports : Vector Port 32}, ports[p] = changed →
        u.ports[p] = changed.settle (effectiveHoldOff s.sw.groups ports p) now → judged u now changed := by
      intro u now changed ports at_ settled
      refine ⟨_, settled, fun lone => ?_, fun g m grp member there => ?_⟩
      · rw [effectiveHoldOff_lone lone, at_]
      · rw [effectiveHoldOff_member member there, at_]
    have event : ∀ (v : State) (f : Port → Port), v.ports = s.ports → v.sw = s.sw → judged (portEvent p f v) v.now (f old) := by
      intro v f ports sw
      have settled := portEvent_settles p f v
      rw [ports, sw] at settled
      exact judged_by (set_get_self _ _ _) settled
    refine ⟨fun due runs => ⟨_, ?_, event (s.reach due) Port.loss rfl rfl⟩,
      fun body noise listens => ⟨_, congrArg _ (if_pos listens), event s (Port.wholeMessage s.now body noise) rfl rfl⟩,
      fun b listens => ?_, fun code endsAt scans => ?_, fun l tag payload cfg ready length args on was => ?_, fun on => ?_⟩
    · show Host.Outcome.next _ = _
      rw [show s.ports[p].lossTimer = some due from runs]
    · intro next quiet
      have run : exec (.truncatedMessage ⟨p, [b]⟩) s = .next (pilotSample p s b) := exec_truncatedMessage listens [b]
      rcases pilotSample_cases p s b with ⟨still, e⟩ | ⟨moved, e⟩
      · exact ⟨fun _ => run.trans (congrArg _ e), fun loud => absurd still.eq loud⟩
      · exact ⟨fun calm => absurd (Port.still_of_eq calm) moved,
          fun _ => ⟨_, run.trans (congrArg _ e), event s (fun x => x.sample s.now b) rfl rfl⟩⟩
    · refine ⟨scanOn p (portEvent p (Port.convert code.toNat) (s.reach endsAt)), ?_, event (s.reach endsAt) (Port.convert code.toNat) rfl rfl⟩
      show Host.Outcome.next _ = _
      rw [scans]
      rfl
    · refine ⟨_, exec_setPort_accepts ready length args (.inl on) tag, ?_⟩
      rw [writePort_keeps (s := taken l tag 0x10 s) was on]
      exact event (taken l tag 0x10 s) (Port.rewrite cfg) rfl rfl
    · refine ⟨_, rfl, judged_by (ports := s.ports.set p old.tick) (set_get_self _ _ _) ?_⟩
      rw [effectiveHoldOff_sameRecords (.refl s.sw) (ports := s.ports) (by rw [set_get_self]; exact Port.tick_cfg _)]
      exact secondsTick_settles (s := { s.reach s.timing.nextTick with timing := _ }) on

end Sys2Proof.Machine
end

section
/-! A tick of the seconds clock (R35, R36, R126, R127, R129). -/

namespace Sys2Proof.Machine

/-! ### The steering line (R188) -/

theorem Timing.send_taken {now ends : Nat} {f : List Byte} {t : Timing} (steering : t.steering = some (f, ends)) (busy : now < ends) :
    t.send now = { t with steerWaiting := some (steerFrame t.word t.state) } := by
  unfold Timing.send
  rw [steering]
  exact if_pos busy

theorem Timing.send_idle {now : Nat} {t : Timing} (idle : ¬ ∃ f ends, t.steering = some (f, ends) ∧ now < ends) :
    t.send now = { t with steering := some (steerFrame t.word t.state, now + 3125), steerWaiting := none } := by
  unfold Timing.send
  cases steering : t.steering with
  | none => rfl
  | some frame => exact if_neg fun busy => idle ⟨frame.1, frame.2, steering, busy⟩

/-! ### The word (R129) -/

theorem Timing.stepped_some {t : Timing} {x : Int} (target : t.steerTarget = some x) :
    t.stepped = { t with word := t.word + clampInt (-(t.settings.slew : Int)) t.settings.slew (x - t.word) } := by
  unfold Timing.stepped
  rw [target]
  rfl

theorem Timing.stepped_none {t : Timing} (target : t.steerTarget = none) : t.stepped = t := by
  unfold Timing.stepped
  rw [target]

/-- A step that is not clamped reaches its target. -/
theorem clampInt_within {slew : Nat} {x : Int} (h : x.natAbs ≤ slew) : clampInt (-(slew : Int)) slew x = x := by
  unfold clampInt
  omega

theorem Timing.locks_iff {t : Timing} : t.locks = true ↔
    t.state = .acquiring ∧ t.acquireTimer = none ∧ ∃ x, t.steerTarget = some x ∧ (x - t.word).natAbs ≤ t.settings.slew := by
  unfold Timing.locks steerClamped
  simp [Option.any_eq_true, Option.isNone_iff_eq_none, and_assoc]

/-- The average of the selected reference. -/
def Timing.selectedAverage (t : Timing) : Option Int := t.selected.bind fun r => t.refs[r].average

/-! ### The update of a tick -/

/-- Whether a frame is in transmission on the steering line. -/
def Timing.steers (now : Nat) (t : Timing) : Prop := ∃ f ends, t.steering = some (f, ends) ∧ now < ends

theorem Timing.send_steering (now : Nat) (t : Timing) :
    (t.steers now → (t.send now).steering = t.steering ∧ (t.send now).steerWaiting = some (steerFrame t.word t.state))
      ∧ (¬ t.steers now → (t.send now).steering = some (steerFrame t.word t.state, now + 3125) ∧ (t.send now).steerWaiting = none) := by
  refine ⟨fun ⟨f, ends, steering, busy⟩ => ?_, fun idle => ?_⟩
  · rw [Timing.send_taken steering busy]
    exact ⟨rfl, rfl⟩
  · rw [Timing.send_idle idle]
    exact ⟨rfl, rfl⟩

/-- After a frame is sent one is in transmission. -/
theorem Timing.send_steers (now : Nat) (t : Timing) : (t.send now).steers now := by
  by_cases steers : t.steers now
  · obtain ⟨f, ends, steering, busy⟩ := steers
    exact ⟨f, ends, (((Timing.send_steering now t).1 ⟨f, ends, steering, busy⟩).1).trans steering, busy⟩
  · exact ⟨_, _, ((Timing.send_steering now t).2 steers).1, by omega⟩

/-- The two updates of the moment at which the state becomes LOCKED: the word is at its target, and the second frame waits behind the
first, or behind the one in transmission. -/
theorem Timing.update_locks {env : TimingEnv} {t : Timing} {x : Int} (acquires : t.state = .acquiring) (expired : t.acquireTimer = none)
    (target : t.steerTarget = some x) (near : (x - t.word).natAbs ≤ t.settings.slew) (tick : Bool) :
    let u := t.update env tick
    u = { t with
        state := .locked, word := x, codes := u.codes, refout := t.selected
        raised := if env.notify then t.raised ++ [.timing .locked t.selected] else t.raised
        steering := u.steering, steerWaiting := some (steerFrame x .locked) }
      ∧ (t.steers env.now → u.steering = t.steering)
      ∧ (¬ t.steers env.now → u.steering = some (steerFrame x .locked, env.now + 3125)) := by
  intro u
  have first : t.stepped = { t with word := x } := by
    rw [Timing.stepped_some target, clampInt_within near, show t.word + (x - t.word) = x by omega]
  have sends := Timing.send_steering env.now { t with word := x, state := .locked }
  have busy := Timing.send_steers env.now { t with word := x, state := .locked }
  have sent := Timing.send_eq env.now { t with word := x, state := .locked }
  generalize e : ({ t with word := x, state := .locked } : Timing).send env.now = v at sends busy sent
  have again : v.stepped = v := by
    have same : v.steerTarget = some x := by
      rw [sent, ← target]
      unfold Timing.steerTarget
      rw [acquires]
    have there : v.word = x := by rw [sent]
    rw [Timing.stepped_some same, there, Int.sub_self, clampInt_within (by simp), Int.add_zero, ← there]
  obtain ⟨f, ends, steering, before⟩ := busy
  have second : v.stepWord env.now = { v with steerWaiting := some (steerFrame x .locked) } := by
    unfold Timing.stepWord
    rw [again, Timing.send_taken steering before]
    rw [sent]
  have locks : u = ({ v with steerWaiting := some (steerFrame x .locked) } : Timing).giveOut.note env := by
    show t.update env tick = _
    unfold Timing.update
    rw [if_pos (Timing.locks_iff.mpr ⟨acquires, expired, x, target, near⟩), first, e, second]
  have at_ : u.steering = v.steering := by
    rw [locks, Timing.note_eq]
    rfl
  refine ⟨?_, fun taken => at_.trans (sends.1 taken).1, fun idle => at_.trans (sends.2 idle).1⟩
  rw [at_, locks, sent]
  unfold Timing.note Timing.giveOut
  cases env.notify <;> rfl

/-- An update that does not lock: one step, one frame, and at a tick in LOCKED a push onto the history (R127, R129). -/
theorem Timing.update_steps {env : TimingEnv} {t : Timing} (steps : ¬ t.locks = true) :
    (t.state ≠ .locked ∨ t.selectedAverage = none → t.update env true = t.stepWord env.now)
      ∧ (∀ avg, t.state = .locked → t.selectedAverage = some avg → t.update env true =
          { t.stepWord env.now with
            history := (t.history ++ [avg]).drop ((t.history ++ [avg]).length - 4)
            lockedUpdates := min 16 (t.lockedUpdates + 1)
            ready := t.ready || decide (min 16 (t.lockedUpdates + 1) = 16) }) := by
  have stepped := Timing.stepWord_eq env.now t
  have push : t.state = .locked → t.update env true = (t.stepWord env.now).push := fun locked => by
    unfold Timing.update
    rw [if_neg steps, if_pos (by simp [locked])]
  have average : (t.stepWord env.now).selectedAverage = t.selectedAverage := by
    rw [stepped]
    rfl
  refine ⟨fun still => ?_, fun avg locked some_ => ?_⟩
  · by_cases locked : t.state = .locked
    · rw [push locked]
      have none_ := still.resolve_left (not_not_intro locked)
      rw [← average] at none_
      unfold Timing.selectedAverage at none_
      unfold Timing.push
      rw [none_]
    · unfold Timing.update
      rw [if_neg steps, if_neg (by simp [locked])]
  · rw [push locked]
    rw [← average] at some_
    unfold Timing.selectedAverage at some_
    unfold Timing.push
    rw [some_, stepped]

/-! ### The ports of a tick (R35) -/

section
variable {s : State}

/-- The ports that a tick takes are those whose findings after it no longer give the raw condition. -/
theorem mem_unsettled_tick {p : PortId} : p ∈ unsettled (tickPorts s) ↔
    s.ports[p].cfg.enabled = true ∧ s.ports[p].tick.rawCondition ≠ s.ports[p].raw := by
  rw [unsettled, List.mem_filter, tickPorts_cfg, tickPorts_get, and_iff_right (List.mem_finRange p), Bool.and_eq_true, decide_eq_true_eq]
  refine and_congr_right fun on => ?_
  rw [if_pos on]
  rfl

theorem mem_turn_induct {P : State → Prop} {ps : List PortId} (start : ∀ n, P { s with orderDraws := n })
    (next : ∀ p t, p ∈ ps → P t → P (portEvent p id t)) : P (portsInTurn ps s) := by
  have all : ∀ (xs : List PortId) (t : State), (∀ x ∈ xs, x ∈ ps) → P t → P (xs.foldl (fun s p => portEvent p id s) t) := by
    intro xs
    induction xs with
    | nil => exact fun _ _ ht => ht
    | cons x xs ih =>
      exact fun t sub ht => ih _ (fun y hy => sub y (List.mem_cons_of_mem x hy)) (next x t (sub x List.mem_cons_self) ht)
  exact all _ _ (fun x hx => (freeOrder_mem _ _ x).mp hx) (start _)

/-- A group none of whose members a turn takes stands as it was. -/
theorem portsInTurn_group {ps : List PortId} {g : GroupId} (apart : ∀ p ∈ ps, ∀ x, memberOf s.sw.groups p ≠ some (g, x)) :
    (portsInTurn ps s).sw.groups[g] = s.sw.groups[g] := by
  suffices SameRecords s.sw (portsInTurn ps s).sw ∧ (portsInTurn ps s).sw.groups[g] = s.sw.groups[g] from this.2
  refine mem_turn_induct (P := fun t => SameRecords s.sw t.sw ∧ t.sw.groups[g] = s.sw.groups[g]) (fun _ => ⟨.refl _, rfl⟩) ?_
  rintro p t mem ⟨same, stands⟩
  refine ⟨same.trans (portEvent_sameRecords p id t), ?_⟩
  rcases (portEvent_cascade p id t).switching with none_ | ⟨h, x, member, only⟩
  · rw [none_, stands]
  · rw [memberOf_sameRecords same] at member
    rw [only.others g fun e => apart p mem x (e ▸ member), stands]

/-- The timing unit's settings, force and tick do not follow a port. -/
theorem portsInTurn_timing (ps : List PortId) (s : State) : (portsInTurn ps s).timing.nextTick = s.timing.nextTick
    ∧ (portsInTurn ps s).timing.settings = s.timing.settings ∧ (portsInTurn ps s).timing.forced = s.timing.forced := by
  refine mem_turn_induct (P := fun t => t.timing.nextTick = s.timing.nextTick ∧ t.timing.settings = s.timing.settings
    ∧ t.timing.forced = s.timing.forced) (fun _ => ⟨rfl, rfl, rfl⟩) ?_
  rintro p t - ⟨tick, settings, forced⟩
  have told := portEvent_cascade p id t
  exact ⟨told.nextTick.trans tick, told.settings.trans settings, told.forced.trans forced⟩

/-- A port that a turn does not take stands as it was. -/
theorem portsInTurn_other {ps : List PortId} {p : PortId} (apart : p ∉ ps) : (portsInTurn ps s).ports[p] = s.ports[p] :=
  mem_turn_induct (P := fun t => t.ports[p] = s.ports[p]) (fun _ => rfl) fun q t mem ht =>
    (portEvent_other (fun e => apart (by rw [e]; exact mem)) _ _).trans ht

end

/-- PILOT-ERRORS after a tick (R36). -/
theorem Port.tick_eq (p : Port) : p.tick = { p with
    lastValid := p.validCount, lastBad := p.buckets.getLastD 0, validCount := 0, buckets := p.buckets.drop 1 ++ [0]
    pilotErrors := p.tick.pilotErrors } := rfl

theorem Port.tick_errors (p : Port) : p.tick.pilotErrors = true ↔ p.cfg.badThreshold ≤ (p.buckets.drop 1 ++ [0]).sum
    ∨ (p.cfg.badThreshold / 2 < (p.buckets.drop 1 ++ [0]).sum ∧ p.pilotErrors = true) := by
  refine (Bool.eq_iff_iff.mp (Port.judgeErrors_errors _)).trans ?_
  simp

/-- Settles O23: the ports are taken in their turn, and then the timing unit updates, with two updates where it locks. -/
theorem secondsTickRollsWindowsAndSteers : Obligations.SecondsTickRollsWindowsAndSteers := by
  unfold Obligations.SecondsTickRollsWindowsAndSteers
  intro s changes
  let v : State := { s.reach s.timing.nextTick with timing := { s.timing with nextTick := s.timing.nextTick + 1000000 } }
  have keeps := portsInTurn_keeps (unsettled (tickPorts v)) (tickPorts v)
  have taken : ∀ p, p ∈ unsettled (tickPorts v) ↔ changes p := fun p => mem_unsettled_tick (s := v)
  obtain ⟨tick, settings, forced⟩ := portsInTurn_timing (unsettled (tickPorts v)) (tickPorts v)
  refine ⟨portsInTurn (unsettled (tickPorts v)) (tickPorts v), tickTiming (portsInTurn (unsettled (tickPorts v)) (tickPorts v)), rfl, rfl,
    ⟨keeps.now, keeps.pending, keeps.shelf, keeps.slot, keeps.ranges, keeps.conversion, keeps.cableTest, keeps.alarms, keeps.notices,
      keeps.links, keeps.raised⟩, tick, settings, forced, fun calm => ?_, fun g apart => ?_, fun p off => ?_, fun p on => ?_, ?_⟩
  · have none_ : unsettled (tickPorts v) = [] := List.eq_nil_iff_forall_not_mem.mpr fun p mem => calm p ((taken p).mp mem)
    rw [none_]
    exact ⟨rfl, rfl⟩
  · exact portsInTurn_group (s := tickPorts v) fun p mem x => apart p x ((taken p).mp mem)
  · refine (portsInTurn_other (s := tickPorts v) fun mem => ?_).trans ((tickPorts_get v p).trans (if_neg (by show ¬ s.ports[p].cfg.enabled = true; rw [off]; exact Bool.false_ne_true)))
    rw [((taken p).mp mem).1] at off
    cases off
  · have settled := secondsTick_settles (s := v) on
    intro old new
    replace settled : new = old.tick.settle _ v.now := settled
    have raw := Port.settle_raw (effectiveHoldOff v.sw.groups v.ports p) v.now old.tick
    have made := Port.settle_keeps (effectiveHoldOff v.sw.groups v.ports p) v.now old.tick
    rw [← settled] at made raw
    clear_value new
    have fields : new = { old with
        lastValid := old.validCount, lastBad := old.buckets.getLastD 0, validCount := 0, buckets := old.buckets.drop 1 ++ [0]
        pilotErrors := old.tick.pilotErrors, raw := new.raw, reported := new.reported, holdTimer := new.holdTimer } := made
    have errors : new.pilotErrors = old.tick.pilotErrors := by rw [fields]
    have buckets : new.buckets = old.buckets.drop 1 ++ [0] := by rw [fields]
    refine ⟨by rw [errors]; exact fields, by rw [errors, buckets]; exact Port.tick_errors old, raw.trans ?_⟩
    rw [made]
    rfl
  · generalize portsInTurn (unsettled (tickPorts v)) (tickPorts v) = m
    intro old new slew average target locks frame taken
    have target_eq : target = old.steerTarget := by
      show (match old.state with | .freeRun => _ | .holdover => _ | .acquiring | .locked => _) = _
      unfold Timing.steerTarget
      cases old.state <;> rfl
    have locks_iff : locks ↔ old.locks = true := by
      rw [Timing.locks_iff, ← target_eq]
    by_cases lock : locks
    · obtain ⟨acquires, expired, x, reaches, near⟩ := lock
      rw [target_eq] at reaches
      obtain ⟨made, busy, idle⟩ := Timing.update_locks (env := m.timingEnv) acquires expired reaches near true
      replace made : new = { old with
        state := .locked, word := x, codes := new.codes, refout := old.selected
        raised := if m.notices.timingEnable then old.raised ++ [.timing .locked old.selected] else old.raised
        steering := new.steering, steerWaiting := some (steerFrame x .locked) } := made
      have word : new.word = x := by rw [made]
      have frame_eq : frame = steerFrame x .locked := by
        show steerFrame new.word new.state = _
        rw [word, show new.state = .locked by rw [made]]
      have waits : new.steerWaiting = some frame := by rw [frame_eq, made]
      refine ⟨fun t => ⟨busy t, waits⟩, fun t => ⟨(idle t).trans (by rw [frame_eq]; rfl), fun no => ?_⟩, fun no => ?_, fun _ => ⟨?_, waits, ?_⟩⟩
      · exact absurd ⟨acquires, expired, x, target_eq.trans reaches, near⟩ no
      · exact absurd ⟨acquires, expired, x, target_eq.trans reaches, near⟩ no
      · rw [word]
        exact target_eq.trans reaches
      · rw [word, waits, frame_eq]
        exact made
    · obtain ⟨still, pushes⟩ := Timing.update_steps (env := m.timingEnv) (t := old) fun h => lock (locks_iff.mpr h)
      have made : new = { old.stepWord m.now with history := new.history, lockedUpdates := new.lockedUpdates, ready := new.ready } := by
        by_cases h : old.state ≠ .locked ∨ old.selectedAverage = none
        · rw [show new = old.stepWord m.now from still h]
        · obtain ⟨locked, some_⟩ := not_or.mp h
          obtain ⟨avg, some_⟩ := Option.ne_none_iff_exists'.mp some_
          rw [show new = _ from pushes avg (not_ne_iff.mp locked) some_]
          rfl
      have stepped := Timing.stepped_eq old
      have steers : old.stepped.steers m.now ↔ taken := by
        rw [stepped]
        rfl
      obtain ⟨busy, idle⟩ := Timing.send_steering m.now old.stepped
      have sent := Timing.stepWord_eq m.now old
      have word : new.word = old.stepped.word := (congrArg Timing.word made).trans (Timing.stepWord_word _ _)
      have state : new.state = old.state := (congrArg Timing.state made).trans (by rw [sent])
      have frame_eq : frame = steerFrame old.stepped.word old.stepped.state := by
        show steerFrame new.word new.state = _
        rw [word, state, stepped]
      have steering : new.steering = (old.stepped.send m.now).steering := (congrArg Timing.steering made).trans rfl
      have waiting : new.steerWaiting = (old.stepped.send m.now).steerWaiting := (congrArg Timing.steerWaiting made).trans rfl
      rw [steers, ← steering, ← waiting, ← frame_eq] at busy idle
      refine ⟨fun t => ⟨(busy t).1.trans (by rw [stepped]), (busy t).2⟩, fun t => ⟨(idle t).1, fun _ => (idle t).2⟩,
        fun _ => ⟨?_, fun none_ => ?_, fun x some_ => ?_, fun avg locked some_ => ?_, fun h => ?_⟩, fun l => absurd l lock⟩
      · refine made.trans ?_
        rw [word, steering, waiting, sent, Timing.stepWord_word]
        rfl
      · rw [word, Timing.stepped_none (target_eq ▸ none_)]
      · rw [word, Timing.stepped_some (target_eq ▸ some_)]
      · have pushed : new = _ := pushes avg locked some_
        have count : new.lockedUpdates = min 16 (old.lockedUpdates + 1) := by rw [pushed]
        refine ⟨by rw [pushed], count, ?_⟩
        rw [count, pushed]
      · have stands : new = old.stepWord m.now := still h
        rw [stands, sent]
        exact ⟨rfl, rfl, rfl⟩

end Sys2Proof.Machine
end

section
/-! The severity profile (R140, R141), the soaks (R142 to R144, R148) and alarm cut-off (R151, R155 to R157). -/

namespace Sys2Proof.Machine

/-! ### SET-PROFILE -/

theorem setProfileArgs_eq_none_iff {payload : List Byte} : setProfileArgs payload = none ↔
    21 ≤ (byteAt payload 0).toNat ∨ 4 < (byteAt payload 1).toNat
      ∨ ((byteAt payload 0).toNat < 7 ∧ 4 < (byteAt payload 2).toNat) := by
  unfold setProfileArgs
  cases kind : finOf 21 (byteAt payload 0) with
  | none => simp [finOf_eq_none_iff.mp kind]
  | some k =>
    have at_ := finOf_eq_some_iff.mp kind
    cases sa : Severity.ofCode (byteAt payload 1) with
    | none => simp [Severity.ofCode_eq_none_iff.mp sa]
    | some sev =>
      have sa_fits : ¬ 4 < (byteAt payload 1).toNat := fun h => by rw [Severity.ofCode_eq_none_iff.mpr h] at sa; cases sa
      simp only [sa_fits, false_or, at_]
      split
      · next port =>
        have fits : ¬ 21 ≤ k.val := Nat.not_le.mpr k.isLt
        rw [Option.map_eq_none_iff, Severity.ofCode_eq_none_iff, and_iff_right port, or_iff_right fits]
      · next other => simp [other]

theorem setProfileArgs_eq_some {payload : List Byte} {k : Fin 21} {e : ProfileEntry} (h : setProfileArgs payload = some (k, e)) :
    (byteAt payload 0).toNat = k.val ∧ e.sa.rank = (byteAt payload 1).toNat ∧ (k.val < 7 → e.nsa.rank = (byteAt payload 2).toNat)
      ∧ (7 ≤ k.val → e.nsa = .none) ∧ e.declareSoak = clampSoak (wordAt payload 3) ∧ e.clearSoak = clampSoak (wordAt payload 5) := by
  unfold setProfileArgs at h
  split at h
  · next j sa kind severity =>
    have at_ := finOf_eq_some_iff.mp kind
    have rank := (Severity.ofCode_eq_some_iff.mp severity).symm
    split at h
    · next port =>
      obtain ⟨nsa, code, e⟩ := Option.map_eq_some_iff.mp h
      cases e
      exact ⟨at_, rank, fun _ => (Severity.ofCode_eq_some_iff.mp code).symm, fun no => absurd port (Nat.not_lt.mpr no), rfl, rfl⟩
    · next other =>
      cases h
      exact ⟨at_, rank, fun no => absurd no other, fun _ => rfl, rfl, rfl⟩
  · cases h

/-- Settles O45: the payload read field by field, and the entry replaced before the end of the event. -/
theorem setProfileReplacesEntry : Obligations.SetProfileReplacesEntry := by
  unfold Obligations.SetProfileReplacesEntry
  intro l tag payload s ready length b soak refused
  have run : exec (.setProfile l tag payload) s = .next (request l tag 0x40 true true (setProfile payload) s) := by
    show Host.Outcome.next (request l tag 0x40 (decide (payload.length = 7)) true (setProfile payload) s) = _
    rw [decide_eq_true length]
  have bad : setProfileArgs payload = none ↔ refused := setProfileArgs_eq_none_iff
  have soak_eq : ∀ i, clampSoak (wordAt payload i) = soak i := fun i => by
    rw [clampSoak, clampNat_zero, wordAt_eq]
    rfl
  refine ⟨bad, fun h => ?_, fun k at_ fits => ?_⟩
  · rw [run]
    refine congrArg _ (request_answers ready tag 0x40 ?_)
    unfold setProfile
    rw [bad.mpr h]
    rfl
  · obtain ⟨⟨j, e⟩, args⟩ := Option.ne_none_iff_exists'.mp fun no => fits (bad.mp no)
    obtain ⟨kind, sa, port, other, declare, clear⟩ := setProfileArgs_eq_some args
    obtain rfl : k = j := Fin.ext (at_.trans kind)
    refine ⟨e, sa, port, other, declare.trans (soak_eq 3), clear.trans (soak_eq 5), ?_⟩
    rw [run]
    refine congrArg _ (request_accepts ready tag 0x40 (u := writeProfile k e (taken l tag 0x40 s)) ?_)
    unfold setProfile
    rw [args]
    rfl

/-! ### A point takes its moment (R142 to R144, R148) -/

section
variable (now : Nat) (entry : ProfileEntry) (raw : Bool) (grade : Grade) (pt : Point)

/-- A point takes its raw defect, its severity and its grade whatever it held. -/
theorem Point.take_reads (serves : Bool) :
    (pt.take now entry serves raw grade).raw = (serves && raw) ∧ (pt.take now entry serves raw grade).severity = entry.severity grade
      ∧ (pt.take now entry serves raw grade).grade = grade := by
  unfold Point.take Point.clearNow Point.declareNow
  dsimp only
  repeat' split
  all_goals exact ⟨rfl, rfl, rfl⟩

/-- What a point's state machine holds: whether it is declared, its timer, and whether it is acknowledged. -/
def Point.holds (declared : Bool) (soak : Soak) (acknowledged : Bool) (pt : Point) : Prop :=
  pt.declared = declared ∧ pt.soak = soak ∧ pt.acknowledged = acknowledged

/-- A point whose object is out of service is CLEAR (R144). -/
theorem Point.take_unserved : (pt.take now entry false raw grade).holds false .stopped false := ⟨rfl, rfl, rfl⟩

variable {now entry raw grade pt}

/-- A point that is CLEAR, and has no severity or no defect, runs no soak (R142, R148). -/
theorem Point.take_clear_rests (clear : pt.declared = false) (rests : entry.severity grade = .none ∨ raw = false) :
    (pt.take now entry true raw grade).holds false .stopped pt.acknowledged := by
  unfold Point.take
  rw [clear]
  by_cases none_ : entry.severity grade = .none
  · simp [Point.holds, none_]
  · simp [Point.holds, none_, rests.resolve_left none_]

/-- A defect that goes on leaves the declare soak running (R142). -/
theorem Point.take_clear_soaks (clear : pt.declared = false) (some_ : entry.severity grade ≠ .none) (present : raw = true)
    (was : pt.raw = true) (had : pt.severity ≠ .none) : (pt.take now entry true raw grade).holds false pt.soak pt.acknowledged := by
  unfold Point.take
  simp [Point.holds, clear, some_, present, was, had]

/-- A defect that arises starts the declare soak, or declares the point where that is 0 (R142). -/
theorem Point.take_clear_arises (clear : pt.declared = false) (some_ : entry.severity grade ≠ .none) (present : raw = true)
    (new : pt.raw = false ∨ pt.severity = .none) :
    (entry.declareSoak = 0 → (pt.take now entry true raw grade).holds true .stopped false)
      ∧ (entry.declareSoak ≠ 0 →
          (pt.take now entry true raw grade).holds false (.declare (now + entry.declareSoak * 1000)) pt.acknowledged) := by
  have fresh : ¬ (pt.raw = true ∧ pt.severity ≠ .none) := fun ⟨was, had⟩ =>
    new.elim (fun no => by rw [no] at was; cases was) had
  unfold Point.take
  refine ⟨fun zero => ?_, fun waits => ?_⟩
  · simp [Point.holds, Point.declareNow, clear, some_, present, fresh, zero]
  · simp [Point.holds, clear, some_, present, fresh, waits]

/-- A declared point that has no severity is CLEAR (R148). -/
theorem Point.take_declared_none (declared : pt.declared = true) (none_ : entry.severity grade = .none) :
    (pt.take now entry true raw grade).holds false .stopped false := by
  unfold Point.take
  simp [Point.holds, Point.clearNow, declared, none_]

/-- A rise of severity takes the acknowledgement away (R148). -/
def Point.keptAck (sev : Severity) (pt : Point) : Bool := if pt.severity.rank < sev.rank then false else pt.acknowledged

theorem Point.take_declared_present (declared : pt.declared = true) (some_ : entry.severity grade ≠ .none) (present : raw = true) :
    (pt.take now entry true raw grade).holds true .stopped (pt.keptAck (entry.severity grade)) := by
  unfold Point.take Point.keptAck
  by_cases rise : pt.severity.rank < (entry.severity grade).rank <;> simp [Point.holds, declared, some_, present, rise]

theorem Point.take_declared_absent (declared : pt.declared = true) (some_ : entry.severity grade ≠ .none) (absent : raw = false)
    (was : pt.raw = false) : (pt.take now entry true raw grade).holds true pt.soak (pt.keptAck (entry.severity grade)) := by
  unfold Point.take Point.keptAck
  by_cases rise : pt.severity.rank < (entry.severity grade).rank <;> simp [Point.holds, declared, some_, absent, was, rise]

/-- A defect that goes starts the clear soak, or clears the point where that is 0 (R143). -/
theorem Point.take_declared_goes (declared : pt.declared = true) (some_ : entry.severity grade ≠ .none) (absent : raw = false)
    (was : pt.raw = true) :
    (entry.clearSoak = 0 → (pt.take now entry true raw grade).holds false .stopped false)
      ∧ (entry.clearSoak ≠ 0 → (pt.take now entry true raw grade).holds true (.clear (now + entry.clearSoak * 1000))
          (pt.keptAck (entry.severity grade))) := by
  unfold Point.take Point.keptAck
  refine ⟨fun zero => ?_, fun waits => ?_⟩ <;> by_cases rise : pt.severity.rank < (entry.severity grade).rank
  · simp [Point.holds, Point.clearNow, declared, some_, absent, was, rise, zero]
  · simp [Point.holds, Point.clearNow, declared, some_, absent, was, rise, zero]
  · simp [Point.holds, declared, some_, absent, was, rise, waits]
  · simp [Point.holds, declared, some_, absent, was, rise, waits]

end

/-! ### Soak timers -/

theorem exec_declareSoakExpiry {k : PointId} {s : State} {due : Nat} (runs : s.alarms.points[k].soak = .declare due) :
    exec (.declareSoakExpiry k) s = .next (finish (.declare k) (s.reach due)) := by
  show Host.Outcome.next _ = _
  rw [runs]

theorem exec_clearSoakExpiry {k : PointId} {s : State} {due : Nat} (runs : s.alarms.points[k].soak = .clear due) :
    exec (.clearSoakExpiry k) s = .next (finish (.clear k) (s.reach due)) := by
  show Host.Outcome.next _ = _
  rw [runs]

section
variable (e : Expiry) (s : State) (k : PointId)

/-- What the end of an event leaves of a point's state machine is what the point took. -/
theorem finish_point : (finish e s).alarms.points[k] = { nextPoint s e k with
    masked := (maskers s.timing.refs k).any fun j => (nextPoint s e j).masks
    suppressed := suppressedPoint s.ranges k } := by
  rw [finish_points, nextPoints_get]

theorem finish_point_holds {declared : Bool} {soak : Soak} {acknowledged : Bool} :
    ((finish e s).alarms.points[k]).holds declared soak acknowledged ↔ (nextPoint s e k).holds declared soak acknowledged := by
  rw [finish_point]
  rfl

theorem finish_point_raw : (finish e s).alarms.points[k].raw = (inService s k && rawDefect s k) := by
  rw [finish_point]
  exact (Point.take_reads _ _ _ _ _ _).1

theorem finish_point_severity :
    (finish e s).alarms.points[k].severity = s.alarms.profile[profileIndex k].severity (pointGrade s k) := by
  rw [finish_point]
  exact (Point.take_reads _ _ _ _ _ _).2.1

/-- The active list after the end of an event (R149). -/
theorem finish_active : (finish e s).alarms.active = s.alarms.active.filter (fun k : PointId => (nextPoints s e)[k].declared)
    ++ freeOrder s.orderDraws (newlyDeclared s.alarms.points (nextPoints s e)) := rfl

theorem mem_finish_active : k ∈ (finish e s).alarms.active ↔ (finish e s).alarms.points[k].declared = true
    ∧ (k ∈ s.alarms.active ∨ s.alarms.points[k].declared = false) := by
  rw [finish_active, List.mem_append, List.mem_filter, freeOrder_mem, mem_newlyDeclared, finish_points,
    and_comm (a := k ∈ s.alarms.active), ← and_or_left]

end

/-- Settles O46: at its own expiry a point is declared or cleared, and then takes its moment. -/
theorem soakExpiryDeclaresOrClears : Obligations.SoakExpiryDeclaresOrClears := by
  unfold Obligations.SoakExpiryDeclaresOrClears
  intro k due s pt
  refine ⟨fun no => ?_, fun no => ?_, fun runs => ⟨_, exec_declareSoakExpiry runs, rfl, ?_⟩,
    fun runs => ⟨_, exec_clearSoakExpiry runs, rfl, ?_⟩⟩
  · show Host.Outcome.next (match pt.soak with | .declare t => finish (.declare k) (s.reach t) | _ => s) = _
    cases soak : pt.soak with
    | declare d => exact absurd soak (no d)
    | stopped | clear _ => rfl
  · show Host.Outcome.next (match pt.soak with | .clear t => finish (.clear k) (s.reach t) | _ => s) = _
    cases soak : pt.soak with
    | clear d => exact absurd soak (no d)
    | stopped | declare _ => rfl
  · intro new clear present some_
    have expired : pt.expire (.declare k) k = pt.declareNow := by
      unfold Point.expire Point.isDeclareSoak
      rw [runs]
      exact if_pos ⟨rfl, clear, rfl⟩
    obtain ⟨serves, raw⟩ := Bool.and_eq_true_iff.mp ((finish_point_raw _ _ _).symm.trans present)
    rw [finish_point_severity] at some_
    have took : (nextPoint (s.reach due) (.declare k) k).holds true .stopped false := by
      unfold nextPoint
      rw [show (s.reach due).alarms.points[k].expire (.declare k) k = _ from expired, serves]
      have := Point.take_declared_present (now := (s.reach due).now) (pt := pt.declareNow) rfl some_ raw
      unfold Point.keptAck at this
      rwa [show pt.declareNow.acknowledged = false from rfl, ite_self] at this
    obtain ⟨declared, soak, acknowledged⟩ := (finish_point_holds _ _ _).mpr took
    exact ⟨declared, soak, acknowledged, (mem_finish_active _ _ _).mpr ⟨declared, .inr clear⟩⟩
  · intro new declared absent
    have expired : pt.expire (.clear k) k = pt.clearNow := by
      unfold Point.expire Point.isClearSoak
      rw [runs]
      exact if_pos ⟨rfl, declared, rfl⟩
    have gone := (finish_point_raw _ _ _).symm.trans absent
    have took : (nextPoint (s.reach due) (.clear k) k).holds false .stopped false := by
      unfold nextPoint
      rw [show (s.reach due).alarms.points[k].expire (.clear k) k = _ from expired]
      cases serves : inService (s.reach due) k with
      | false => exact Point.take_unserved _ _ _ _ _
      | true =>
        rw [serves, Bool.true_and] at gone
        exact Point.take_clear_rests (pt := pt.clearNow) rfl (.inr gone)
    obtain ⟨clear, soak, acknowledged⟩ := (finish_point_holds _ _ _).mpr took
    refine ⟨clear, soak, acknowledged, fun mem => ?_⟩
    rw [((mem_finish_active _ _ _).mp mem).1] at clear
    cases clear

/-! ### Alarm cut-off -/

/-- No acknowledged point sounds (R155). -/
theorem AlarmUnit.acknowledge_audible (a : AlarmUnit) : a.acknowledge.audible = ⟨0, 0, 0⟩ := by
  have silent : ∀ sev, audibleCount a.acknowledge.points sev = 0 := fun sev => by
    unfold audibleCount
    rw [countP_points, List.countP_eq_zero]
    rintro k -
    rw [AlarmUnit.acknowledge_get]
    simp [Point.reportable]
    tauto
  show (⟨audibleCount a.acknowledge.points .critical, audibleCount a.acknowledge.points .major,
    audibleCount a.acknowledge.points .minor⟩ : SeverityCounts) = _
  rw [silent, silent, silent]

section
variable {high low : Nat} {s : State}

theorem exec_acoPress_taken {pin : AcoPin} (after : s.alarms.acoPin.after high low = pin) (presses : s.alarms.acoPin.presses high pin = true) :
    exec (.acoPress high low) s = .next (acknowledge (pinTo pin s)) := by
  subst after
  exact congrArg _ (if_pos presses)

theorem exec_acoPress_ignored {pin : AcoPin} (after : s.alarms.acoPin.after high low = pin)
    (no : s.alarms.acoPin.presses high pin = false) : exec (.acoPress high low) s = .next (pinTo pin s) := by
  subst after
  exact congrArg _ (if_neg (by rw [no]; exact Bool.false_ne_true))

/-- A press is a low of 20 ms after a high of 20 ms that has given none before (R156). -/
theorem AcoPin.presses_iff {x y : AcoPin} : x.presses high y = true ↔ 20 ≤ y.high ∧ 20 ≤ y.low ∧ ¬ (high = 0 ∧ 20 ≤ x.low) := by
  unfold AcoPin.presses acoHold
  simp [and_assoc, imp_iff_not_or]

theorem AcoPin.presses_eq_false_iff {x y : AcoPin} :
    x.presses high y = false ↔ y.high < 20 ∨ y.low < 20 ∨ (high = 0 ∧ 20 ≤ x.low) := by
  rw [← Bool.not_eq_true, AcoPin.presses_iff]
  omega

theorem AcoPin.after_low {x : AcoPin} : x.after 0 low = ⟨x.high, min 20 (x.low + low)⟩ := rfl

theorem AcoPin.after_high {x : AcoPin} (some_ : 1 ≤ high) :
    x.after high low = ⟨min 20 (if x.low = 0 then x.high + high else high), min 20 low⟩ := if_neg (by omega)

end

/-- Settles O47: an acknowledgement silences every declared point, and each press by the input's times. -/
theorem cutOffAcknowledgesDeclaredPoints : Obligations.CutOffAcknowledgesDeclaredPoints := by
  unfold Obligations.CutOffAcknowledgesDeclaredPoints
  refine ⟨fun l tag high low s => ?_, fun rate low s => ⟨_, rfl, ?_⟩⟩
  · intro acknowledges pin pressed ignored
    have acks : ∀ a : AlarmUnit, a.points = s.alarms.points → a.profile = s.alarms.profile → a.active = s.alarms.active →
        acknowledges a.acknowledge := fun a points profile active => by
      have silent := a.acknowledge_audible
      refine ⟨fun k => ?_, profile, active, countsFit_recount _, silent, congrArg (fun d : SeverityCounts => decide (1 ≤ d.critical)) silent,
        congrArg (fun d : SeverityCounts => decide (1 ≤ d.major)) silent, congrArg (fun d : SeverityCounts => decide (1 ≤ d.minor)) silent⟩
      rw [AlarmUnit.acknowledge_get, points]
    have press : ∀ after : AcoPin, pin.after high low = after → pin.presses high after = true → pressed after :=
      fun after e p => ⟨_, acks { s.alarms with acoPin := after } rfl rfl rfl, rfl, exec_acoPress_taken e p⟩
    have ignore : ∀ after : AcoPin, pin.after high low = after → pin.presses high after = false → ignored after :=
      fun after e p => exec_acoPress_ignored e p
    have rises : ∀ {x y : Nat}, 1 ≤ high → min 20 (if pin.low = 0 then pin.high + high else high) = x → min 20 low = y →
        pin.after high low = ⟨x, y⟩ := fun some_ hx hy => by rw [AcoPin.after_high some_, hx, hy]
    refine ⟨fun ready => ⟨_, acks s.alarms rfl rfl rfl, rfl, ?_⟩,
      fun hi lo => press _ (rises (by omega) (by split <;> omega) (by omega)) (AcoPin.presses_iff.mpr ⟨Nat.le_refl _, Nat.le_refl _, by omega⟩),
      fun some_ short was => ignore _ (rises some_ (by rw [if_neg was]; omega) rfl) (AcoPin.presses_eq_false_iff.mpr (.inl short)),
      fun some_ short => ignore _ (rises some_ rfl (by omega)) (AcoPin.presses_eq_false_iff.mpr (.inr (.inl short))),
      fun some_ was short => ignore _ (rises some_ (by rw [if_pos was]; omega) rfl) (AcoPin.presses_eq_false_iff.mpr (.inl short)),
      fun some_ was hi lo => press _ (rises some_ (by rw [if_pos was]; omega) (by omega))
        (AcoPin.presses_iff.mpr ⟨Nat.le_refl _, Nat.le_refl _, by omega⟩),
      fun none_ hi was lo => press _ ?_ (AcoPin.presses_iff.mpr ⟨hi, Nat.le_refl _, by omega⟩), fun none_ no => ignore _ ?_ ?_⟩
    · have handled : aco (taken l tag 0x48 s) = (acknowledge (taken l tag 0x48 s), some (0 :: be16 s.alarms.unacknowledged)) := rfl
      exact (congrArg _ (request_handled ready.1 (fun _ => ready.2) handled)).trans
        (congrArg _ (by cases l <;> rfl))
    · rw [none_, AcoPin.after_low, Nat.min_eq_left lo]
    · rw [none_, AcoPin.after_low]
    · rw [AcoPin.presses_eq_false_iff]
      rcases no with no | no | no
      · exact .inl no
      · exact .inr (.inr ⟨none_, no⟩)
      · exact .inr (.inl (by show min 20 (pin.low + low) < 20; omega))
  · refine exec_acoPress_ignored ?_ (AcoPin.presses_eq_false_iff.mpr (.inl (show 0 < 20 by decide)))
    exact AcoPin.after_low.trans (congrArg (fun low => (⟨0, min 20 low⟩ : AcoPin)) (Nat.zero_add low))

end Sys2Proof.Machine
end

section
/-! The end of an event (R99, R137 to R149, R152, R154, R155, R159, R160): every point takes its moment, and what follows from that. -/

namespace Sys2Proof.Machine

/-! ### The points by their places (section 10.1) -/

theorem placeOfPoint_port (i : Fin 7) (p : PortId) : placeOfPoint (portPoint i p) = .port p := by
  unfold placeOfPoint portPoint
  rw [if_pos (by show 32 * i.val + p.val < 224; omega)]
  exact congrArg Place.port (Fin.ext (by simp [Fin.ofNat]))

theorem placeOfPoint_group (i : Fin 6) (g : GroupId) : placeOfPoint (groupPoint i g) = .group g := by
  unfold placeOfPoint groupPoint
  rw [if_neg (by show ¬ 224 + 12 * i.val + g.val < 224; omega), if_pos (by show 224 + 12 * i.val + g.val < 296; omega)]
  exact congrArg Place.group (Fin.ext (by simp [Fin.ofNat]; omega))

theorem placeOfPoint_ref (i : Fin 3) (r : RefId) : placeOfPoint (refPoint i r) = .ref r := by
  unfold placeOfPoint refPoint
  rw [if_neg (by show ¬ 296 + 6 * i.val + r.val < 224; omega), if_neg (by show ¬ 296 + 6 * i.val + r.val < 296; omega),
    if_pos (by show 296 + 6 * i.val + r.val < 314; omega)]
  exact congrArg Place.ref (Fin.ext (by simp [Fin.ofNat]; omega))

theorem placeOfPoint_shelf {k : PointId} (h : 314 ≤ k.val) : placeOfPoint k = .shelf := by
  unfold placeOfPoint
  rw [if_neg (by omega), if_neg (by omega), if_neg (by omega)]

theorem kindOfPoint_port (i : Fin 7) (p : PortId) : (kindOfPoint (portPoint i p)).val = i.val := by
  refine (profileIndex_val _).trans ?_
  show (if 32 * i.val + p.val < 224 then (32 * i.val + p.val) / 32 else _) = _
  rw [if_pos (by omega)]
  omega

theorem kindOfPoint_group (i : Fin 6) (g : GroupId) : (kindOfPoint (groupPoint i g)).val = 7 + i.val := by
  refine (profileIndex_val _).trans ?_
  show (if 224 + 12 * i.val + g.val < 224 then _ else if 224 + 12 * i.val + g.val < 296 then 7 + (224 + 12 * i.val + g.val - 224) / 12 else _) = _
  rw [if_neg (by omega), if_pos (by omega)]
  omega

theorem kindOfPoint_ref (i : Fin 3) (r : RefId) : (kindOfPoint (refPoint i r)).val = 13 + i.val := by
  refine (profileIndex_val _).trans ?_
  show (if 296 + 6 * i.val + r.val < 224 then _ else if 296 + 6 * i.val + r.val < 296 then _
    else if 296 + 6 * i.val + r.val < 314 then 13 + (296 + 6 * i.val + r.val - 296) / 6 else _) = _
  rw [if_neg (by omega), if_neg (by omega), if_pos (by omega)]
  omega

theorem ofIndex_congr {j k : Fin 21} (h : j.val = k.val) : DefectKind.ofIndex j = DefectKind.ofIndex k := by rw [Fin.ext h]

/-! ### Raw defects and service by place (R137 to R139, R144) -/

section
variable (s : State)

theorem inService_port (i : Fin 7) (p : PortId) : inService s (portPoint i p) = s.ports[p].cfg.enabled := by
  unfold inService
  rw [placeOfPoint_port]

theorem inService_group (i : Fin 6) (g : GroupId) : inService s (groupPoint i g) = s.sw.groups[g].isSome := by
  unfold inService
  rw [placeOfPoint_group]

theorem inService_ref (i : Fin 3) (r : RefId) : inService s (refPoint i r) = s.timing.refs[r].enabled := by
  unfold inService
  rw [placeOfPoint_ref]

theorem inService_shelf {k : PointId} (h : 314 ≤ k.val) : inService s k = true := by
  unfold inService
  rw [placeOfPoint_shelf h]

variable (e : Expiry)

theorem finish_raw_port (i : Fin 7) (p : PortId) : (finish e s).alarms.points[portPoint i p].raw =
    (s.ports[p].cfg.enabled && portDefect s.ports[p] (.ofIndex ⟨i.val, by omega⟩)) := by
  rw [finish_point_raw, inService_port]
  unfold rawDefect
  rw [placeOfPoint_port, ofIndex_congr (k := ⟨i.val, by omega⟩) (kindOfPoint_port i p)]
  dsimp only
  rw [← Bool.and_assoc, Bool.and_self]

theorem finish_raw_group (i : Fin 6) (g : GroupId) : (finish e s).alarms.points[groupPoint i g].raw =
    s.sw.groups[g].any fun grp => groupDefect grp (.ofIndex ⟨7 + i.val, by omega⟩) := by
  rw [finish_point_raw, inService_group]
  unfold rawDefect
  rw [placeOfPoint_group, ofIndex_congr (k := ⟨7 + i.val, by omega⟩) (kindOfPoint_group i g)]
  dsimp only
  cases s.sw.groups[g] <;> rfl

theorem finish_raw_ref (i : Fin 3) (r : RefId) : (finish e s).alarms.points[refPoint i r].raw =
    refDefect r s.timing.refs[r] (.ofIndex ⟨13 + i.val, by omega⟩) := by
  rw [finish_point_raw, inService_ref]
  unfold rawDefect
  rw [placeOfPoint_ref, ofIndex_congr (k := ⟨13 + i.val, by omega⟩) (kindOfPoint_ref i r)]
  show (_ && (_ && _)) = (_ && _)
  rw [← Bool.and_assoc, Bool.and_self]

theorem finish_raw_shelf {k : PointId} (h : 314 ≤ k.val) : (finish e s).alarms.points[k].raw =
    shelfDefect s (.ofIndex (kindOfPoint k)) := by
  rw [finish_point_raw, inService_shelf s h]
  unfold rawDefect
  rw [placeOfPoint_shelf h]
  rfl

/-! ### The defects of a place in the order of their kinds (R137 to R139) -/

theorem Port.powerState_latches (x : Port) : decide (x.powerState = .lost) = x.lostLatch
    ∧ decide (x.powerState = .low) = (!x.lostLatch && !x.overLatch && x.lowLatch)
    ∧ decide (x.powerState = .over) = (!x.lostLatch && x.overLatch) := by
  unfold Port.powerState
  cases x.lostLatch <;> cases x.overLatch <;> cases x.lowLatch <;> decide

theorem portDefects (x : Port) :
    (List.finRange 7).map (fun i : Fin 7 => x.cfg.enabled && portDefect x (.ofIndex ⟨i.val, by omega⟩)) =
      if x.cfg.enabled then
        [x.lostLatch, !x.lostLatch && !x.overLatch && x.lowLatch, !x.lostLatch && x.overLatch, x.pilotLoss, x.traceMismatch,
          x.pilotErrors, x.accFlags.any (·.farFail)]
      else [false, false, false, false, false, false, false] := by
  obtain ⟨lost, low, overload⟩ := x.powerState_latches
  cases x.cfg.enabled with
  | false => rfl
  | true =>
    rw [if_pos rfl, ← low, ← overload, ← lost]
    rfl

theorem groupDefects (x : Group) :
    (List.finRange 6).map (fun i : Fin 6 => (some x).any fun grp => groupDefect grp (.ofIndex ⟨7 + i.val, by omega⟩)) =
      [decide (x.effective.kind = .bar ∨ x.effective.kind = .failP), x.protocolMismatch, x.farBridgeTimeout,
        decide (x.state = .frozen), decide (x.state = .halted),
        x.external.any fun r => decide (r.kind = .force ∨ r.kind = .manual ∨ r.kind = .bar)] := by
  simp only [Bool.decide_or, ← Bool.or_assoc]
  rfl

theorem refDefects (r : RefId) (x : Ref) :
    (List.finRange 3).map (fun i : Fin 3 => refDefect r x (.ofIndex ⟨13 + i.val, by omega⟩)) =
      if x.enabled then [!x.present, decide (x.state = .rejected), decide (x.quality r = 15)] else [false, false, false] := by
  unfold refDefect
  cases x.enabled <;> rfl

theorem shelfDefects (s : State) : [314, 315, 316, 317, 318].map (fun k : PointId => shelfDefect s (.ofIndex (kindOfPoint k))) =
    [decide (s.timing.state = .holdover), decide (s.timing.state = .freeRun ∧ ∃ r : RefId, s.timing.refs[r].enabled = true),
      decide (s.links.linkA.role ≠ .master ∧ s.links.linkB.role ≠ .master), s.links.shf, s.sw.busDefect] := by
  have some_ref : s.timing.refs.toList.any (·.enabled) = decide (∃ r : RefId, s.timing.refs[r].enabled = true) := by
    rw [toList_eq_map_finRange, List.any_map, Bool.eq_iff_iff, List.any_eq_true, decide_eq_true_eq]
    simp
  have free : shelfDefect s .freeRun = decide (s.timing.state = .freeRun ∧ ∃ r : RefId, s.timing.refs[r].enabled = true) := by
    rw [Bool.decide_and, ← some_ref]
    rfl
  have masters : shelfDefect s .noMaster = decide (s.links.linkA.role ≠ .master ∧ s.links.linkB.role ≠ .master) := by
    rw [Bool.decide_and, decide_not, decide_not, ← Bool.not_or]
    rfl
  rw [← free, ← masters]
  rfl

/-! ### Masking, suppression and grade (R145 to R147) -/

/-- Masked is a point one of whose maskers holds (R145). -/
theorem finish_masked (k : PointId) : (finish e s).alarms.points[k].masked = (maskers s.timing.refs k).any fun j =>
    (finish e s).alarms.points[j].raw || (finish e s).alarms.points[j].declared := by
  simp only [finish_point]
  rfl

theorem maskers_port (refs : Vector Ref 6) (p : PortId) : ([0, 1, 2, 3, 4, 5, 6] : List (Fin 7)).map (fun i => maskers refs (portPoint i p)) =
    [[], [portPoint 0 p], [], [portPoint 0 p], [portPoint 0 p, portPoint 3 p], [portPoint 0 p, portPoint 3 p],
      [portPoint 0 p, portPoint 3 p]] := by
  have at_ : ∀ i : Fin 7, DefectKind.ofIndex (kindOfPoint (portPoint i p)) = .ofIndex ⟨i.val, by omega⟩ := fun i =>
    ofIndex_congr (kindOfPoint_port i p)
  unfold maskers
  simp only [List.map_cons, List.map_nil, placeOfPoint_port, at_]
  rfl

theorem maskers_group (refs : Vector Ref 6) (g : GroupId) : ([0, 1, 2, 3, 4, 5] : List (Fin 6)).map (fun i => maskers refs (groupPoint i g)) =
    [[], [], [], [groupPoint 4 g], [], []] := by
  have at_ : ∀ i : Fin 6, DefectKind.ofIndex (kindOfPoint (groupPoint i g)) = .ofIndex ⟨7 + i.val, by omega⟩ := fun i =>
    ofIndex_congr (kindOfPoint_group i g)
  unfold maskers
  simp only [List.map_cons, List.map_nil, placeOfPoint_group, at_]
  rfl

theorem maskers_ref (refs : Vector Ref 6) (r : RefId) : ([0, 1, 2] : List (Fin 3)).map (fun i => maskers refs (refPoint i r)) =
    [if isOffice r then [] else (refs[r].source.map (portPoint 0)).toList, [refPoint 0 r], [refPoint 0 r]] := by
  have at_ : ∀ i : Fin 3, DefectKind.ofIndex (kindOfPoint (refPoint i r)) = .ofIndex ⟨13 + i.val, by omega⟩ := fun i =>
    ofIndex_congr (kindOfPoint_ref i r)
  unfold maskers
  simp only [List.map_cons, List.map_nil, placeOfPoint_ref, at_]
  rfl

theorem maskers_shelf (refs : Vector Ref 6) {k : PointId} (h : 314 ≤ k.val) : maskers refs k = [] := by
  unfold maskers
  rw [placeOfPoint_shelf h]

theorem finish_grade (k : PointId) : (finish e s).alarms.points[k].grade = pointGrade s k := by
  rw [finish_point]
  exact (Point.take_reads _ _ _ _ _ _).2.2

theorem finish_suppressed (k : PointId) : (finish e s).alarms.points[k].suppressed = suppressedPoint s.ranges k := by
  rw [finish_point]

theorem portGrade_lone {sw : Switching} {p : PortId} (lone : memberOf sw.groups p = none) : portGrade sw p = .sa := by
  unfold portGrade
  rw [lone]

theorem portGrade_member {sw : Switching} {p : PortId} {g : GroupId} {m : Nat} {grp : Group} (member : memberOf sw.groups p = some (g, m))
    (there : sw.groups[g] = some grp) :
    portGrade sw p = if sw.selected grp = some m ∧ (m = 0 ∨ grp.state ≠ .halted) then .nsa else .sa := by
  unfold portGrade
  simp only [member, there]
  by_cases zero : m = 0
  · subst zero
    simp
  · simp [zero]

theorem ProfileEntry.severity_eq (entry : ProfileEntry) (grade : Grade) :
    entry.severity grade = if grade = .nsa then entry.nsa else entry.sa := by cases grade <;> rfl

theorem placeOfPoint_not_port {k : PointId} (h : 224 ≤ k.val) (p : PortId) : placeOfPoint k ≠ .port p := by
  unfold placeOfPoint
  rw [if_neg (by omega)]
  repeat' split
  all_goals exact nofun

/-! ### A point's own timer (R142, R143) -/

theorem Point.expire_eq (e : Expiry) (k : PointId) (pt : Point) : pt.expire e k =
    if e = .declare k ∧ pt.declared = false ∧ pt.isDeclareSoak = true then pt.declareNow
    else if e = .clear k ∧ pt.declared = true ∧ pt.isClearSoak = true then pt.clearNow else pt := by
  cases e <;> simp [Point.expire]

/-! ### Notices (R160) -/

theorem Point.reportable_eq (pt : Point) :
    pt.reportable = (pt.declared && !pt.masked && !pt.suppressed && decide (pt.severity ≠ .none)) := by
  unfold Point.reportable
  cases pt.severity <;> rfl

theorem alarmNotice_eq (threshold : Severity) (k : PointId) (old new : Point) : alarmNotice threshold k old new =
    (let passes := fun sev : Severity => decide (threshold.rank ≤ sev.rank)
     if old.reportable && new.reportable then
       if old.severity ≠ new.severity ∧ (passes old.severity || passes new.severity) then
         some (.alarm k .severity new.severity new.grade) else none
     else if old.reportable && new.declared then
       if passes new.severity then some (.alarm k .hidden new.severity new.grade) else none
     else if old.reportable then if passes old.severity then some (.alarm k .cleared old.severity new.grade) else none
     else if new.reportable && passes new.severity then some (.alarm k .raised new.severity new.grade)
     else none) := by
  unfold alarmNotice
  cases old.reportable <;> cases new.reportable <;> simp

end

/-- What the end of an event hands to the notice queue: what the blocks have raised, and the points' own changes. -/
theorem finish_notices (e : Expiry) (s : State) : (finish e s).notices = (freeOrder (takeAlarms e s).orderDraws
    (s.sw.raised ++ s.timing.raised ++ s.raised ++ (List.finRange 319).filterMap fun k : PointId =>
      alarmNotice s.notices.threshold k s.alarms.points[k] (finish e s).alarms.points[k])).foldl Notices.enqueue s.notices := by
  rw [List.append_assoc _ s.raised]
  rfl

/-- Settles O4: the end of an event block by block, each point through `Point.take` and each table row by its place. -/
theorem eventEndsInAlarmsAndNotices : Obligations.EventEndsInAlarmsAndNotices := by
  unfold Obligations.EventEndsInAlarmsAndNotices
  intro e s t
  have settings : KeepsSettings s t :=
    ⟨finish_pending e s, finish_shelf e s, finish_slot e s, finish_ranges e s, rfl, finish_threshold e s, finish_groupEnable e s,
      finish_timingEnable e s, rfl, rfl, rfl, rfl, rfl, rfl, rfl⟩
  have switching : KeepsSwitching s t := by
    show (finish e s).sw = { s.sw.arbitrate with raised := (finish e s).sw.raised }
    rw [finish_sw_raised, finish_sw]
  refine ⟨finish_now e s, settings, ⟨finish_ports e s, finish_conversion e s, finish_cableTest e s⟩, switching, rfl, finish_links e s,
    finish_quiet e s, ?_, ?_, ⟨_, freeOrder_perm s.orderDraws _, ?_⟩, countsFit_recount _, rfl, ?_, ?_, fun i p => ?_, fun k other => ?_⟩
  · intro raws
    refine ⟨fun p => ?_, fun g => ?_, fun r => ?_, ?_⟩
    · intro x
      show (List.finRange 7).map (fun i => t.alarms.points[portPoint i p].raw) = _
      simp only [t, finish_raw_port]
      exact portDefects x
    · show (List.finRange 6).map (fun i => t.alarms.points[groupPoint i g].raw) = _
      simp only [t, finish_raw_group]
      cases s.sw.groups[g] with
      | none => rfl
      | some grp => exact groupDefects grp
    · intro x
      show (List.finRange 3).map (fun i => t.alarms.points[refPoint i r].raw) = _
      simp only [t, finish_raw_ref]
      exact refDefects r x
    · have shelf : ∀ k ∈ ([314, 315, 316, 317, 318] : List PointId), 314 ≤ k.val := by simp
      exact (List.map_congr_left fun k mem => finish_raw_shelf s e (shelf k mem)).trans (shelfDefects s)
  · intro runs
    have all : ∀ k serves, inService s k = serves → runs k serves := by
      intro k serves served
      unfold runs
      intro old new entry was comes kept
      have was_eq : was = old.expire e k := (Point.expire_eq e k old).symm
      have severity : new.severity = entry.severity (pointGrade s k) := finish_point_severity e s k
      have raw : new.raw = (serves && rawDefect s k) := served ▸ finish_point_raw e s k
      have took : ∀ {declared soak acknowledged},
          (was.take s.now entry serves (rawDefect s k) (pointGrade s k)).holds declared soak acknowledged → comes declared soak acknowledged := by
        intro declared soak acknowledged h
        rw [was_eq, ← served] at h
        exact (finish_point_holds e s k).mpr h
      have kept_eq : kept = was.keptAck (entry.severity (pointGrade s k)) := by
        rw [← severity]
        rfl
      rw [severity, raw, kept_eq]
      cases serves with
      | false => exact ⟨fun _ => took (Point.take_unserved _ _ _ _ _), nofun, nofun⟩
      | true =>
        rw [Bool.true_and]
        refine ⟨nofun, fun _ clear => ⟨fun rests => took (Point.take_clear_rests clear rests),
          fun some_ present had sev => took (Point.take_clear_soaks clear some_ present had sev), fun some_ present fresh => ?_⟩,
          fun _ declared => ⟨fun none_ => took (Point.take_declared_none declared none_),
            fun some_ present => took (Point.take_declared_present declared some_ present),
            fun some_ absent had => took (Point.take_declared_absent declared some_ absent had), fun some_ absent had => ?_⟩⟩
        · exact (Point.take_clear_arises clear some_ present fresh).imp (fun h z => took (h z)) fun h z => took (h z)
        · exact (Point.take_declared_goes declared some_ absent had).imp (fun h z => took (h z)) fun h z => took (h z)
    exact ⟨fun i p => all _ _ (inService_port s i p), fun i g => all _ _ (inService_group s i g), fun i r => all _ _ (inService_ref s i r),
      fun k h => all _ _ (inService_shelf s h)⟩
  · exact finish_active e s
  · intro shows passes
    refine ⟨_, freeOrder_perm (takeAlarms e s).orderDraws _, (finish_notices e s).trans ?_⟩
    simp only [alarmNotice_eq, Point.reportable_eq]
    rfl
  · intro holds
    have masked : ∀ k, t.alarms.points[k].masked = (maskers s.timing.refs k).any holds := finish_masked s e
    have masks : ∀ {α : Type} (f : α → PointId) (xs : List α),
        xs.map (fun i => t.alarms.points[f i].masked) = (xs.map fun i => maskers s.timing.refs (f i)).map fun l => l.any holds := by
      intro α f xs
      rw [List.map_map]
      exact List.map_congr_left fun i _ => masked (f i)
    refine ⟨fun p => ?_, fun g => ?_, fun r => ?_, fun k h => ?_⟩
    · intro light loss
      rw [masks (portPoint · p), maskers_port]
      simp [light, loss]
    · rw [masks (groupPoint · g), maskers_group]
      simp
    · rw [masks (refPoint · r), maskers_ref]
      have line : isOffice r = !decide (2 ≤ r.val) := by
        rw [isOffice, ← decide_not, decide_eq_decide]
        omega
      cases h : decide (2 ≤ r.val) <;> cases source : s.timing.refs[r].source <;> simp [line, h]
    · rw [masked, maskers_shelf _ h]
      rfl
  · intro pt
    have grade : pt.grade = portGrade s.sw p := (finish_grade s e _).trans (by unfold pointGrade; rw [placeOfPoint_port])
    refine ⟨fun lone => grade.trans (portGrade_lone lone), fun g grp m member there => grade.trans (portGrade_member member there), ?_, ?_⟩
    · have severity : pt.severity = _ := finish_point_severity e s _
      have kind : profileIndex (portPoint i p) = ⟨i.val, by omega⟩ := Fin.ext (kindOfPoint_port i p)
      rw [← finish_grade s e, show (finish e s).alarms.points[portPoint i p].grade = pt.grade from rfl] at severity
      refine (severity.trans (ProfileEntry.severity_eq _ _)).trans ?_
      exact congrArg (fun j : Fin 21 => if pt.grade = .nsa then s.alarms.profile[j].nsa else s.alarms.profile[j].sa) kind
    · rw [show pt.suppressed = _ from finish_suppressed s e _]
      unfold suppressedPoint
      rw [placeOfPoint_port]
      exact decide_eq_true_iff
  · have grade : pointGrade s k = .ungraded := by
      unfold pointGrade
      split
      · next p port => exact absurd port (placeOfPoint_not_port other p)
      · rfl
    refine ⟨(finish_grade s e k).trans grade, (finish_suppressed s e k).trans ?_, ?_⟩
    · unfold suppressedPoint
      split
      · next p port => exact absurd port (placeOfPoint_not_port other p)
      · rfl
    · exact (finish_point_severity e s k).trans (by rw [grade]; rfl)

end Sys2Proof.Machine
end

section
/-! The transmitters of the links (R162, R163, R166, R169 to R172): what leaves, in which order, and for how long. -/

namespace Sys2Proof.Machine

/-! ### Frames -/

/-- A frame ends in the CRC of the bytes before it (R169). -/
theorem Frame.crcFits_bytes (f : Frame) : crcFits f.bytes = true := by
  have split : ∀ (body crc : List Byte), crc.length = 2 →
      (body ++ crc).drop ((body ++ crc).length - 2) = crc ∧ (body ++ crc).take ((body ++ crc).length - 2) = body := fun body crc two => by
    rw [List.length_append, two, Nat.add_sub_cancel]
    exact ⟨List.drop_left, List.take_left⟩
  obtain ⟨tail, init⟩ := split (byteOf (f.payload.length + 4) :: f.tag :: f.kind :: f.payload)
    (be16 (crc16 (byteOf (f.payload.length + 4) :: f.tag :: f.kind :: f.payload)).toNat) rfl
  unfold crcFits Frame.bytes
  rw [decide_eq_true_eq, tail, init]

theorem Frame.bytes_length (f : Frame) : f.bytes.length = f.payload.length + 5 := by
  unfold Frame.bytes
  rw [List.length_append]
  rfl

theorem linkRate_pos (code : BitVec 2) : 0 < linkRate code := by
  unfold linkRate
  split <;> decide

/-- The duration of a frame is that of its bits, rounded up to a whole microsecond (R172). -/
theorem frameTime_bounds (code : BitVec 2) (f : Frame) :
    (28 + 10 * f.bytes.length) * 1000000 ≤ frameTime code f * linkRate code
      ∧ frameTime code f * linkRate code < (28 + 10 * f.bytes.length) * 1000000 + linkRate code := by
  have pos := linkRate_pos code
  have bits : frameBits f.bytes.length = 28 + 10 * f.bytes.length := by
    unfold frameBits
    omega
  unfold frameTime
  rw [bits]
  generalize (28 + 10 * f.bytes.length) * 1000000 = total
  generalize linkRate code = rate at pos
  have below := Nat.div_mul_le_self (total + rate - 1) rate
  have above := Nat.lt_div_mul_add (a := total + rate - 1) pos
  omega

/-- What TXD carries of a frame that has begun at a time (R166, R172). -/
theorem txd_sending {l : LinkId} {s : State} {f : Frame} {begun : Nat} {code : BitVec 2} (rate : s.links.rate = code)
    (sending : (s.links.link l).sending = some (f, begun + frameTime code f)) (time : Nat) :
    txd time l s = levelOf f.lineBits ((time - begun) * linkRate code / 1000000) := by
  unfold txd
  rw [sending]
  dsimp only
  rw [rate, Nat.add_sub_cancel]
  rfl

theorem modLink_rate (x : LinkSupervisor) (l : LinkId) (f : Link → Link) : (x.modLink l f).rate = x.rate := by cases l <;> rfl

/-! ### What leaves -/

/-- A transmitter that sends the reply of a RESTART begins nothing else (R179). -/
theorem Link.restarting_of_sending {k : Link} {f : Frame} {ends : Nat} (sending : k.sending = some (f, ends)) (kind : f.kind = 0x86)
    (payload : f.payload = [0]) : k.restarting = some ends := by
  unfold Link.restarting Frame.isRestartReply
  rw [sending]
  dsimp only
  rw [kind, payload]
  rfl

theorem exec_replySend {l : LinkId} {r : Reply} {rest : List Reply} {s : State} (ready : (s.links.link l).ready = r :: rest)
    (free : (s.links.link l).restarting = none) : exec (.replySend l) s =
      .next (modLink l (fun k => (k.popReply r rest).beginFrame r.frame
        (max s.now ((s.links.link l).freeAt s.now) + frameTime s.links.rate r.frame)) (s.reach ((s.links.link l).freeAt s.now))) := by
  show Host.Outcome.next _ = _
  rw [ready]
  dsimp only
  rw [if_neg (by rw [free]; exact Bool.false_ne_true)]
  rfl

theorem exec_noticeSend {l : LinkId} {n : Notice} {rest : List Notice} {s : State} (master : s.links.master = some l)
    (queue : s.notices.queue = n :: rest) (none_ : (s.links.link l).ready = []) (free : (s.links.link l).restarting = none) :
    exec .noticeSend s = .next { modLink l (Link.beginFrame n.frame
      (max s.now ((s.links.link l).freeAt s.now) + frameTime s.links.rate n.frame)) (s.reach ((s.links.link l).freeAt s.now)) with
        notices := s.notices.pop rest } := by
  show Host.Outcome.next _ = _
  rw [master, queue]
  dsimp only
  rw [if_pos ⟨none_, by rw [free]; rfl⟩]
  cases l <;> rfl

/-- No notice leaves while a reply is ready on the master link, or RESTART is about to take effect there. -/
theorem exec_noticeSend_holds {s : State} (holds : ∀ l, s.links.master = some l → (s.links.link l).ready ≠ []
    ∨ (s.links.link l).restarting.isSome = true) : exec .noticeSend s = .next s := by
  refine congrArg Host.Outcome.next ?_
  split
  · next l n rest master queue =>
    refine if_neg ?_
    rintro ⟨none_, free⟩
    rcases holds l master with h | h
    · exact h none_
    · rw [Option.isNone_iff_eq_none.mp free] at h
      cases h
  · rfl

/-- Settles O49: the transmitters frame by frame, with the bits and the duration of a frame. -/
theorem transmittersSendRepliesThenNotices : Obligations.TransmittersSendRepliesThenNotices := by
  unfold Obligations.TransmittersSendRepliesThenNotices
  refine ⟨fun l f ends s sending kind payload => ?_, fun l r rest s ready free => ?_, fun l n rest s master queue none_ free => ?_,
    fun s => ⟨fun l master some_ => exec_noticeSend_holds fun k at_ => .inl ?_, fun lone => exec_noticeSend_holds fun k at_ => ?_⟩,
    fun l s time idle => ?_, fun f => rfl, fun f => ⟨f.crcFits_bytes, f.bytes_length⟩, frameTime_bounds⟩
  · have restarts := Link.restarting_of_sending sending kind payload
    refine ⟨congrArg Host.Outcome.next ?_, fun master => exec_noticeSend_holds fun k at_ => .inr ?_⟩
    · split
      · rfl
      · exact if_pos (by rw [restarts]; rfl)
    · rw [master] at at_
      cases at_
      rw [restarts]
      rfl
  · intro now
    have run := exec_replySend ready free
    refine ⟨run, fun t time ran _ => ?_⟩
    rw [run] at ran
    cases ran
    exact txd_sending (modLink_rate _ _ _) (congrArg Link.sending (modLink_link _ _ _)) time
  · intro now
    have run := exec_noticeSend master queue none_ free
    refine ⟨run, fun t time ran _ => ?_⟩
    rw [run] at ran
    cases ran
    exact txd_sending (modLink_rate _ _ _) (congrArg Link.sending (modLink_link l _ (s.reach _))) time
  · rw [master] at at_
    cases at_
    exact some_
  · exact absurd (master_role at_) (lone k)
  · unfold txd
    rw [idle]

/-! ### The receivers (R166 to R169) -/

section
variable {c : RxChar} {x : LinkRx}

theorem LinkRx.takeChar_hunt (hunts : x.state = .breakHunt) : x.takeChar c = (x, none) := by
  unfold LinkRx.takeChar
  rw [hunts]

theorem LinkRx.takeChar_len (awaits : x.state = .awaitLen) : x.takeChar c =
    if c.framing ∨ c.byte.toNat < 4 then (x.discard, none) else ({ x with state := .inFrame, assembly := [c.byte] }, none) := by
  unfold LinkRx.takeChar
  rw [awaits]

theorem LinkRx.takeChar_frame (inside : x.state = .inFrame) : x.takeChar c =
    if c.framing then (x.discard, none)
    else if (x.assembly ++ [c.byte]).length ≤ (byteAt (x.assembly ++ [c.byte]) 0).toNat then
      ({ x with assembly := x.assembly ++ [c.byte] }, none)
    else (x.discard, if crcFits (x.assembly ++ [c.byte]) then some (x.assembly ++ [c.byte]) else none) := by
  unfold LinkRx.takeChar
  rw [inside]

end

/-- The rows of the receivers, which all run the samples they carry. -/
theorem exec_receiver_rows {l : LinkId} {samples : List Bool} {i : Instr}
    (row : i ∈ [Instr.linkBreak ⟨l, samples⟩, .frameGapTimeout ⟨l, samples⟩, .frameFramingError ⟨l, samples⟩, .frameBadLen l samples,
      .frameCrcError l samples]) (s : State) : exec i s = .next (onSamples l samples s) := by
  simp only [List.mem_cons, List.not_mem_nil, or_false] at row
  rcases row with rfl | rfl | rfl | rfl | rfl <;> rfl

/-- A KIND that names no request (R170, R182). -/
theorem takeKind_unknown {kind : Byte} (unknown : kind ∉ requestKinds) (l : LinkId) (tag : Byte) (payload : List Byte) (s : State) :
    takeKind l tag kind payload s = takeBadKind l tag kind s := by
  simp only [requestKinds, List.mem_cons, List.not_mem_nil, or_false, not_or] at unknown
  unfold takeKind
  simp only [unknown, if_false]

/-- Settles O50: the runs of samples of the library, and a character by the state it comes in. -/
theorem receiversDiscardBadFrames : Obligations.ReceiversDiscardBadFrames := by
  unfold Obligations.ReceiversDiscardBadFrames
  refine ⟨fun l s idle => ?_, fun i q s taken => exec_takenRequest taken s, fun l tag kind payload s unknown => ?_⟩
  · intro rx rows becomes search
    have runs : ∀ {samples : List Bool} {t : State}, onSamples l samples (withRx l rx s) = t → ∀ i ∈ rows samples, exec i s = .next t := by
      intro samples t run i row
      rw [exec_receiver_rows row, ← run, withRx_self]
    refine ⟨fun zeros low enough => runs (onSamples_break search low enough), fun ones low inside some_ gap => ?_,
      fun ones samples low lasts starts length first verified => ?_⟩
    · obtain ⟨k, rfl⟩ : ∃ k, ones = k + 1 := ⟨ones - 1, by omega⟩
      exact runs (onSamples_gap search (by omega) inside gap)
    · intro line byte framing frame after
      have taken : onSamples l line (withRx l rx s) = takenOn l (LinkRx.takeChar (characterOf (idle + ones) samples)
          ⟨rx.state, rx.assembly, .search 0, 0, zerosAfter (if ones = 0 then rx.zeros else 0) samples⟩) s := by
        rw [onSamples_append, onSamples_ones l s ones idle rx search (by omega) lasts,
          onSamples_char (n := idle + ones) rfl starts length first verified (by dsimp only; split <;> omega)]
      have quiet : ∀ {x : LinkRx}, LinkRx.takeChar (characterOf (idle + ones) samples)
          ⟨rx.state, rx.assembly, .search 0, 0, zerosAfter (if ones = 0 then rx.zeros else 0) samples⟩ = (x, none) → becomes line x := by
        intro x takes
        refine runs (taken.trans ?_)
        rw [takes]
        rfl
      have fitting : framing = false → ¬ (characterOf (idle + ones) samples).framing = true := fun fits => by
        rw [show (characterOf (idle + ones) samples).framing = false from fits]
        exact Bool.false_ne_true
      have in_frame := fun inside : rx.state = .inFrame =>
        LinkRx.takeChar_frame (c := characterOf (idle + ones) samples) (x := after rx.state rx.assembly) inside
      have at_len := fun awaits : rx.state = .awaitLen =>
        LinkRx.takeChar_len (c := characterOf (idle + ones) samples) (x := after rx.state rx.assembly) awaits
      refine ⟨fun hunts => quiet ?_, fun awake bad => quiet ?_, fun awaits short => quiet ?_, fun awaits fits some_ => quiet ?_,
        fun inside fits more => quiet ?_, fun inside fits whole bad => quiet ?_, fun inside fits whole good => runs (taken.trans ?_)⟩
      · rw [← hunts]
        exact LinkRx.takeChar_hunt (x := after rx.state rx.assembly) hunts
      · rw [LinkRx.takeChar_framing bad, if_neg awake]
        rfl
      · exact (at_len awaits).trans (if_pos (.inr short))
      · exact (at_len awaits).trans (if_neg fun h => h.elim (fitting fits) (Nat.not_lt.mpr some_))
      · refine (in_frame inside).trans ((if_neg (fitting fits)).trans ((if_pos more).trans ?_))
        rw [inside]
        rfl
      · exact (in_frame inside).trans ((if_neg (fitting fits)).trans ((if_neg (Nat.not_le.mpr whole)).trans
          (congrArg (Prod.mk _) (if_neg fun good => Bool.false_ne_true (bad.symm.trans good)))))
      · have takes := (in_frame inside).trans ((if_neg (fitting fits)).trans ((if_neg (Nat.not_le.mpr whole)).trans
          (congrArg (Prod.mk _) (if_pos good))))
        exact congrArg (fun r => takenOn l r s) takes
  · show Host.Outcome.next (if kind ∈ requestKinds then s else badKind l tag kind s) = _
    rw [if_neg unknown, takeKind_unknown unknown]
    exact congrArg _ (if_congr decide_eq_true_iff rfl rfl)

end Sys2Proof.Machine
end

section
/-! The removal of an external request (R63, R65), at one group and at every group as the part becomes masterless. -/

namespace Sys2Proof.Machine

/-! ### CLEAR at a group -/

/-- Whether the removal of the request `r` leaves HOLD (R63): a FORCE or MANUAL whose member is selected, in a non-revertive group, which no
other local request outranks. -/
def LeavesHold (env : SwEnv) (selected : Option Nat) (grp : Group) (r : Request) : Prop :=
  (r.kind = .force ∨ r.kind = .manual) ∧ selected = some r.member ∧ grp.cfg.revertive = false
    ∧ (({ grp with external := none } : Group).locals env).any (·.outranks ⟨.hold, r.member⟩) = false

/-- What the removal of the external request `r` leaves of a group after its event (R63, R88). -/
structure Cleared (env : SwEnv) (selected : Option Nat) (grp : Group) (r : Request) (new : Group) : Prop where
  cfg : new.cfg = grp.cfg
  external : new.external = none
  result : new.trialResult = if r.kind = .trial then .abandoned else grp.trialResult
  timer : new.trialTimer = if r.kind = .trial then none else grp.trialTimer
  holds : LeavesHold env selected grp r → new.restoreTimer = none
    ∧ (new.stay = some ⟨.hold, r.member⟩ ∨ (new.stay = none ∧ (new.locals env).any (·.outranks ⟨.hold, r.member⟩) = true))
  goes : ¬ LeavesHold env selected grp r → (grp.stay = none → new.stay = none)
    ∧ (new.stay = none ∨ (new.stay = grp.stay ∧ new.restoreTimer = grp.restoreTimer))

section
variable {env : SwEnv} {g : GroupId} {w : Switching} {grp : Group} {r : Request}

theorem clearHold_of_leavesHold (held : grp.external = some r) (h : LeavesHold env (w.selected grp) grp r) :
    w.clearHold env grp = some ⟨.hold, r.member⟩ := by
  obtain ⟨kind, member⟩ := r
  unfold Switching.clearHold
  rw [held]
  obtain ⟨rfl | rfl, rest⟩ : (kind = .force ∨ kind = .manual) ∧ _ := h
  · exact if_pos rest
  · exact if_pos rest

theorem clearHold_of_not_leavesHold (held : grp.external = some r) (h : ¬ LeavesHold env (w.selected grp) grp r) :
    w.clearHold env grp = none := by
  obtain ⟨kind, member⟩ := r
  unfold Switching.clearHold
  rw [held]
  cases kind
  case force => exact if_neg fun rest => h ⟨.inl rfl, rest⟩
  case manual => exact if_neg fun rest => h ⟨.inr rfl, rest⟩
  all_goals rfl

/-- A CLEAR that leaves HOLD is the removal of the request, with the stay request set (R63). -/
theorem clearExternal_holds (hg : w.groups[g] = some grp) (held : grp.external = some r) (h : LeavesHold env (w.selected grp) grp r) :
    w.clearExternal env g =
      (w.setExternal g none).modGroup g fun x => { x with stay := some ⟨.hold, r.member⟩, restoreTimer := none } := by
  unfold Switching.clearExternal
  rw [hg]
  dsimp only
  rw [held]
  dsimp only
  rw [clearHold_of_leavesHold held h]

theorem clearExternal_goes (hg : w.groups[g] = some grp) (held : grp.external = some r)
    (h : ¬ LeavesHold env (w.selected grp) grp r) : w.clearExternal env g = w.setExternal g none := by
  unfold Switching.clearExternal
  rw [hg]
  dsimp only
  rw [held]
  dsimp only
  rw [clearHold_of_not_leavesHold held h]

/-- The queue after a CLEAR is that after the removal of the request. -/
theorem clearExternal_queue (hg : w.groups[g] = some grp) (held : grp.external = some r) :
    (w.clearExternal env g).queue = (w.setExternal g none).queue := by
  by_cases h : LeavesHold env (w.selected grp) grp r
  · rw [clearExternal_holds hg held h]
    rfl
  · rw [clearExternal_goes hg held h]

/-- A stay request of a group without an external request, until a local request outranks it (R56, R63). -/
structure StayUntilOutranked (env : SwEnv) (st : Request) (x : Group) : Prop where
  external : x.external = none
  timer : x.restoreTimer = none
  stay : x.stay = some st ∨ (x.stay = none ∧ x.protocolMismatch = mismatchIn env x.cfg ∧ (x.locals env).any (·.outranks st) = true)

theorem steady_stayUntilOutranked (st : Request) : Steady env (StayUntilOutranked env st) where
  forms := fun sel x p => by
    have record : ((x.decode env).form env sel).cfg = x.cfg := by simp
    have mismatch : ((x.decode env).form env sel).protocolMismatch = mismatchIn env x.cfg := by
      rw [Group.form_protocolMismatch, Group.decode_mismatch]
    have locals : ((x.decode env).form env sel).locals env = (x.decode env).locals env :=
      Group.locals_congr (by simp) (by simp) (by simp)
    refine ⟨by simpa using p.external, Group.form_noTimer ((Group.decode_restoreTimer env x).trans p.timer), ?_⟩
    rw [record, mismatch, locals, Group.form_stay, Group.decode_stay]
    rcases p.stay with stay | ⟨stay, decoded, outranked⟩
    · rw [stay]
      dsimp only
      split
      · next h => exact .inr ⟨rfl, rfl, h⟩
      · exact .inl rfl
    · rw [stay]
      refine .inr ⟨rfl, rfl, ?_⟩
      rwa [Group.locals_congr (Group.decode_cfg env x) (Group.decode_external env x)
        ((Group.decode_mismatch env x).trans decoded.symm)]
  states := fun x y h p => by
    refine ⟨h.external.trans p.external, h.restoreTimer.trans p.timer, ?_⟩
    rw [h.stay, h.mismatch, h.cfg, Group.locals_congr h.cfg h.external h.mismatch]
    exact p.stay
  drops := fun x p => ⟨rfl, p.timer, by
    rw [show ∀ result timer, ({ x with external := none, trialResult := result, trialTimer := timer } : Group).locals env = x.locals env from
      fun _ _ => Group.locals_congr rfl p.external.symm rfl]
    exact p.stay⟩
  ends := fun x _ trial p => by
    rw [p.external] at trial
    cases trial

theorem cleared_event (hg : w.groups[g] = some grp) (held : grp.external = some r) :
    ∃ new, (w.event env g (Switching.clearExternal env g)).groups[g] = some new ∧ Cleared env (w.selected grp) grp r new := by
  have removed := Switching.setExternal_some (ext := none) hg
  have trial : grp.external.any (fun x => decide (x.kind = .trial)) = decide (r.kind = .trial) := by rw [held]; rfl
  rw [trial] at removed
  have record : ∀ new, (w.event env g (Switching.clearExternal env g)).groups[g] = some new → new.cfg = grp.cfg := fun new hn => by
    have h := (onlyGroup_event env g w (onlyGroup_clearExternal env g w)).record
    rw [hn, hg] at h
    exact Option.some.inj h
  have ended : ∀ {x : Group}, (w.clearExternal env g).groups[g] = some x → x.external = none →
      x.trialResult = (if r.kind = .trial then .abandoned else grp.trialResult) →
      x.trialTimer = (if r.kind = .trial then none else grp.trialTimer) →
      Has g (fun x => x.external = none ∧ x.trialResult = (if r.kind = .trial then .abandoned else grp.trialResult)
        ∧ x.trialTimer = (if r.kind = .trial then none else grp.trialTimer)) (w.event env g (Switching.clearExternal env g)) :=
    fun hx ext result timer => has_event (steady_ended _ _) hg ⟨_, hx, ext, result, timer⟩
  by_cases h : LeavesHold env (w.selected grp) grp r
  · have made := Switching.modGroup_some
      (f := fun x => { x with stay := some ⟨.hold, r.member⟩, restoreTimer := none }) removed
    rw [← clearExternal_holds hg held h] at made
    obtain ⟨new, hn, ext, result, timer⟩ := ended made rfl (by simp) (by simp)
    obtain ⟨new', hn', until_⟩ := has_event (steady_stayUntilOutranked ⟨.hold, r.member⟩) (env := env) hg
      ⟨_, made, ⟨rfl, rfl, .inl rfl⟩⟩
    obtain rfl : new' = new := Option.some.inj (hn'.symm.trans hn)
    exact ⟨new', hn, record _ hn, ext, result, timer,
      fun _ => ⟨until_.timer, until_.stay.imp id fun ⟨gone, _, outranked⟩ => ⟨gone, outranked⟩⟩, fun no => absurd h no⟩
  · have made := removed
    rw [← clearExternal_goes hg held h] at made
    obtain ⟨new, hn, ext, result, timer⟩ := ended made rfl (by simp) (by simp)
    obtain ⟨new', hn', stays⟩ := has_event (steady_stay grp.stay grp.restoreTimer) (env := env) hg ⟨_, made, .inr ⟨rfl, rfl⟩⟩
    obtain rfl : new' = new := Option.some.inj (hn'.symm.trans hn)
    exact ⟨new', hn, record _ hn, ext, result, timer, fun yes => absurd yes h,
      fun _ => ⟨fun none => stays.elim id fun same => same.1.trans none, stays⟩⟩

end

/-! ### The part without a master -/

/-- The selected member goes by the known positions of the elements. -/
theorem Switching.selected_congr {w v : Switching} (elements : v.elements = w.elements) (grp : Group) :
    v.selected grp = w.selected grp := by
  unfold Switching.selected Switching.known Switching.element
  rw [elements]

theorem mem_temporaryGroups {s : State} {g : GroupId} :
    g ∈ temporaryGroups s ↔ ∃ grp, s.sw.groups[g] = some grp ∧ grp.hasTemporary = true := by
  unfold temporaryGroups
  rw [List.mem_filter, Option.any_eq_true]
  exact ⟨And.right, fun h => ⟨List.mem_finRange g, h⟩⟩

theorem temporaryGroups_nodup (s : State) : (temporaryGroups s).Nodup := (List.nodup_finRange 12).filter _

theorem hasTemporary_iff {grp : Group} :
    grp.hasTemporary = true ↔ ∃ r, grp.external = some r ∧ (r.kind = .manual ∨ r.kind = .trial) := by
  unfold Group.hasTemporary
  simp only [Option.any_eq_true, Bool.or_eq_true, decide_eq_true_eq]

theorem masterless_temporary {env : SwEnv} {g : GroupId} {w : Switching} {grp : Group} (hg : w.groups[g] = some grp)
    (temporary : grp.hasTemporary = true) : w.masterless env g = w.event env g (Switching.clearExternal env g) := by
  unfold Switching.masterless
  rw [hg]
  exact if_pos temporary

/-- What the loss of the master leaves of a group with a MANUAL or TRIAL. -/
theorem masterless_cleared {s : State} {g : GroupId} {grp : Group} {r : Request} (hg : s.sw.groups[g] = some grp)
    (held : grp.external = some r) (kind : r.kind = .manual ∨ r.kind = .trial) :
    FormedIn s.swEnv g (masterless s).sw
      ∧ ∃ new, (masterless s).sw.groups[g] = some new ∧ Cleared s.swEnv (s.sw.selected grp) grp r new := by
  have temporary : grp.hasTemporary = true := hasTemporary_iff.mpr ⟨r, held, kind⟩
  suffices h : (masterless s).swEnv = s.swEnv ∧ FormedIn s.swEnv g (masterless s).sw
      ∧ ∃ new, (masterless s).sw.groups[g] = some new ∧ Cleared s.swEnv (s.sw.selected grp) grp r new from h.2
  refine groupsInTurn_at
    (Before := fun t => t.swEnv = s.swEnv ∧ t.sw.groups[g] = some grp ∧ t.sw.elements = s.sw.elements)
    (After := fun t => t.swEnv = s.swEnv ∧ FormedIn s.swEnv g t.sw
      ∧ ∃ new, t.sw.groups[g] = some new ∧ Cleared s.swEnv (s.sw.selected grp) grp r new)
    (mem_temporaryGroups.mpr ⟨grp, hg, temporary⟩) (temporaryGroups_nodup s) (fun _ => ⟨rfl, hg, rfl⟩) ?_ ?_ ?_
  · rintro h ne t ⟨env, group, elements⟩
    have only := onlyGroup_masterless t.swEnv h t.sw
    exact ⟨env, (only.others g (Ne.symm ne)).trans group, only.elements.trans elements⟩
  · rintro t ⟨env, group, elements⟩
    have selected : t.sw.selected grp = s.sw.selected grp := Switching.selected_congr elements grp
    have made : (inSwitch (fun env => Switching.masterless env g) t).sw = t.sw.event s.swEnv g (Switching.clearExternal s.swEnv g) := by
      rw [← env]
      exact masterless_temporary group temporary
    rw [made, ← selected]
    exact ⟨env, formedIn_event _ _ _ _, cleared_event group held⟩
  · rintro h ne t ⟨env, formed, new, group, cleared⟩
    have only := onlyGroup_masterless t.swEnv h t.sw
    exact ⟨env, formed.other only (Ne.symm ne), new, (only.others g (Ne.symm ne)).trans group, cleared⟩

theorem masterless_masterlessGroups (s : State) : MasterlessGroups s.sw (masterless s) where
  kept := fun g all => groupsInTurn_untouched (fun g env w => onlyGroup_masterless env g w) fun mem => by
    obtain ⟨grp, hg, temporary⟩ := mem_temporaryGroups.mp mem
    rw [hg] at all
    simp [temporary] at all
  cleared := fun g grp r hg held kind => by
    obtain ⟨formed, new, hn, cleared⟩ := masterless_cleared hg held kind
    have env : (masterless s).swEnv = s.swEnv := by
      unfold State.swEnv
      rw [(masterless_keeps s).now, masterless_ports, (masterless_keeps s).ranges, (masterless_keeps s).notices]
    have leaves : LeavesHold s.swEnv (s.sw.selected grp) grp r ↔ r.kind = .manual ∧ s.sw.selected grp = some r.member
        ∧ grp.cfg.revertive = false ∧ (({ grp with external := none } : Group).locals s.swEnv).any (·.outranks ⟨.hold, r.member⟩) = false := by
      refine and_congr_left fun _ => ⟨fun h => ?_, .inr⟩
      rcases h with force | manual
      · rcases kind with e | e <;> rw [e] at force <;> cases force
      · exact manual
    rw [env]
    refine ⟨new, hn, formed new hn, cleared.cfg, cleared.external, fun trial => ?_, fun manual => ?_, ?_, ?_⟩
    · exact ⟨by rw [cleared.result, if_pos trial], by rw [cleared.timer, if_pos trial]⟩
    · have no : r.kind ≠ .trial := by rw [manual]; decide
      exact ⟨by rw [cleared.result, if_neg no], by rw [cleared.timer, if_neg no]⟩
    · exact fun holds => cleared.holds (leaves.mpr holds)
    · exact fun no => cleared.goes fun h => no (leaves.mp h)

theorem masterless_cascade (s : State) : SwitchCascade s (masterless s) :=
  groupsInTurn_switchCascade _ s fun g env w => (onlyGroup_masterless env g w).sameRecords

/-- Where no group has a MANUAL or TRIAL nothing happens. -/
theorem masterless_calm_same {s : State} (calm : ∀ (g : GroupId) (grp : Group), s.sw.groups[g] = some grp → grp.hasTemporary ≠ true) :
    (masterless s).sw = s.sw ∧ (masterless s).timing = s.timing := by
  have none : temporaryGroups s = [] := List.eq_nil_iff_forall_not_mem.mpr fun g mem => by
    obtain ⟨grp, hg, temporary⟩ := mem_temporaryGroups.mp mem
    exact calm g grp hg temporary
  unfold masterless
  rw [none, groupsInTurn_nil]
  exact ⟨rfl, rfl⟩

/-! ### The move queue as the part becomes masterless -/

/-- The entries of a group on the move queue. -/
def Switching.opsOf (w : Switching) (g : GroupId) : List Op := w.queue.filter fun op => decide (op.group = g)

section
variable {env : SwEnv} {g : GroupId} {w : Switching} {op : Op}

theorem opOf_of_opsOf (alone : w.opsOf g = [op]) : w.opOf g = some op := by
  unfold Switching.opOf
  rw [← List.head?_filter]
  exact congrArg List.head? alone

theorem mem_of_opsOf (alone : w.opsOf g = [op]) : op ∈ w.queue := (opOf_some (opOf_of_opsOf alone)).1

/-- An operation in flight runs on through a change of E, T or the far-bridged value (R80). -/
theorem react_inFlight (ho : w.opOf g = some op) (flies : op.inFlight = true) (old : Group) : w.react env g old = w := by
  unfold Switching.react
  split
  · rfl
  · dsimp only
    split <;> try rfl
    all_goals
      rw [ho]
      dsimp only
      rw [flies]
      exact if_neg (by simp)

theorem event_queue_of_inFlight {f : Switching → Switching} {grp : Group} (hg : w.groups[g] = some grp) (ho : (f w).opOf g = some op)
    (flies : op.inFlight = true) : (w.event env g f).queue = (f w).queue := by
  have same := (queueSame_refresh env g (f w)).trans (queueSame_echoTest env g _)
  unfold Switching.event
  rw [hg]
  dsimp only
  rw [react_inFlight ((same.opOf g).trans ho) flies, same.queue]

/-- The removal of the external request leaves an operation in flight, though a trial's read is no longer judged (R88). -/
theorem setExternal_opsOf (alone : w.opsOf g = [op]) (flies : op.inFlight = true) (ext : Option Request) :
    (w.setExternal g ext).opsOf g = [if op.isTrialRead then { op with judged := false } else op] := by
  have own : op.group = g := (opOf_some (opOf_of_opsOf alone)).2
  show (((w.queue.filter _).map _).filter _) = _
  rw [List.filter_map, List.filter_filter]
  have keep : ∀ o : Op, ((fun x : Op => decide (x.group = g)) ∘ fun x : Op =>
      if x.group = g then if x.isTrialRead then { x with judged := false } else x else x) o = decide (o.group = g) := fun o => by
    show decide ((ite _ _ _ : Op).group = g) = _
    repeat' split
    all_goals rfl
  rw [List.filter_congr (fun o _ => by rw [keep, Bool.and_comm]), ← List.filter_filter,
    show w.queue.filter (fun o => decide (o.group = g)) = [op] from alone]
  simp [flies, own]

theorem masterless_opsOf (alone : w.opsOf g = [op]) (flies : op.inFlight = true) :
    ∃ op' ∈ (w.masterless env g).queue, op' = { op with judged := op'.judged } := by
  unfold Switching.masterless
  split
  · exact ⟨op, mem_of_opsOf alone, rfl⟩
  · next grp hg =>
    split
    · next temporary =>
      obtain ⟨r, held, -⟩ := hasTemporary_iff.mp temporary
      have left := setExternal_opsOf alone flies none
      have queue := clearExternal_queue (env := env) hg held
      have ho := opOf_of_opsOf (w := w.clearExternal env g) ((congrArg (List.filter _) queue).trans left)
      rw [event_queue_of_inFlight hg ho (by split <;> exact flies), queue]
      refine ⟨_, mem_of_opsOf left, ?_⟩
      split <;> rfl
    · exact ⟨op, mem_of_opsOf alone, rfl⟩

/-- The entries of other groups stand through an event at one group. -/
theorem OnlyGroup.opsOf {h : GroupId} {v : Switching} (only : OnlyGroup h w v) (ne : g ≠ h) : v.opsOf g = w.opsOf g := by
  have at_ : ∀ x : Switching, x.opsOf g = (x.queue.filter fun op => decide (op.group ≠ h)).filter fun op => decide (op.group = g) := fun x => by
    unfold Switching.opsOf
    rw [List.filter_filter]
    refine List.filter_congr fun o _ => ?_
    by_cases e : o.group = g
    · simp [e, ne]
    · simp [e]
  rw [at_, at_, only.queue]

theorem OnlyGroup.mem_queue {h : GroupId} {v : Switching} (only : OnlyGroup h w v) {o : Op} (ne : o.group ≠ h) :
    o ∈ v.queue ↔ o ∈ w.queue := by
  have at_ : ∀ x : Switching, o ∈ x.queue ↔ o ∈ x.queue.filter fun op => decide (op.group ≠ h) := fun x => by
    simp [ne]
  rw [at_, at_ w, only.queue]

/-- Of the switching block only groups, queue, choice and notices change at an event at one group. -/
theorem OnlyGroup.frame {v : Switching} (only : OnlyGroup g w v) :
    v = { w with groups := v.groups, queue := v.queue, chosen := v.chosen, raised := v.raised } := by
  obtain ⟨groups, elements, queue, bus, free, chosen, defect, fails, raised⟩ := v
  obtain ⟨-, -, rfl, -, rfl, rfl, rfl, rfl, -⟩ := only
  rfl

theorem opsOf_of_nodup (once : (w.queue.map (·.group)).Nodup) (mem : op ∈ w.queue) : w.opsOf op.group = [op] := by
  unfold Switching.opsOf
  induction hq : w.queue generalizing w with
  | nil => rw [hq] at mem; cases mem
  | cons o rest ih =>
    rw [hq] at once mem
    obtain ⟨new, once'⟩ := List.nodup_cons.mp once
    rcases List.mem_cons.mp mem with rfl | mem
    · rw [List.filter_cons_of_pos (by simp), List.filter_eq_nil_iff.mpr]
      intro x hx e
      exact new (List.mem_map.mpr ⟨x, hx, by simpa using e⟩)
    · rw [List.filter_cons_of_neg]
      · exact ih (w := { w with queue := rest }) once' mem rfl
      · intro e
        exact new (List.mem_map.mpr ⟨op, mem, by simpa using (of_decide_eq_true e).symm⟩)

end

/-- An entry of a group that held no MANUAL or TRIAL stands as the part becomes masterless. -/
theorem masterless_mem_queue {s : State} {op : Op} (other : op.group ∉ temporaryGroups s) (mem : op ∈ s.sw.queue) :
    op ∈ (masterless s).sw.queue :=
  groupsInTurn_mem_induct (P := fun t => op ∈ t.sw.queue) (fun _ => mem) fun g hg t ht =>
    ((onlyGroup_masterless t.swEnv g t.sw).mem_queue fun e => other (e ▸ hg)).mpr ht

/-- An operation in flight runs on as the part becomes masterless (R65, R88). -/
theorem masterless_flies {s : State} {op : Op} (once : (s.sw.queue.map (·.group)).Nodup) (mem : op ∈ s.sw.queue)
    (flies : op.inFlight = true) : ∃ op' ∈ (masterless s).sw.queue, op' = { op with judged := op'.judged } := by
  by_cases at_ : op.group ∈ temporaryGroups s
  · refine groupsInTurn_at (Before := fun t => t.sw.opsOf op.group = [op])
      (After := fun t => ∃ op' ∈ t.sw.queue, op' = { op with judged := op'.judged }) at_ (temporaryGroups_nodup s)
      (fun _ => opsOf_of_nodup once mem) (fun h ne t alone => ?_) (fun t alone => masterless_opsOf alone flies) fun h ne t there => ?_
    · exact ((onlyGroup_masterless t.swEnv h t.sw).opsOf (Ne.symm ne)).trans alone
    · obtain ⟨op', mem', same⟩ := there
      have group : op'.group = op.group := by rw [same]
      exact ⟨op', ((onlyGroup_masterless t.swEnv h t.sw).mem_queue (by rw [group]; exact Ne.symm ne)).mpr mem', same⟩
  · exact ⟨op, masterless_mem_queue at_ mem, rfl⟩

/-- The arbiter's choice stands as the part becomes masterless, unless it leaves with an operation of a group that held a MANUAL or TRIAL
(R100). -/
theorem masterless_chosen (s : State) :
    (masterless s).sw.chosen = s.sw.chosen
      ∨ ∃ c, s.sw.chosen = some c ∧ c.owner ∈ temporaryGroups s ∧ (masterless s).sw.chosen = none :=
  groupsInTurn_mem_induct
    (P := fun t => t.sw.chosen = s.sw.chosen ∨ ∃ c, s.sw.chosen = some c ∧ c.owner ∈ temporaryGroups s ∧ t.sw.chosen = none)
    (fun _ => .inl rfl) fun g hg t ht => by
      rcases (onlyGroup_masterless t.swEnv g t.sw).chosen with same | ⟨c, held, owner, gone⟩
      · exact ht.imp same.trans fun ⟨c, held, owner, gone⟩ => ⟨c, held, owner, same.trans gone⟩
      · rcases ht with old | ⟨c', -, -, gone'⟩
        · exact .inr ⟨c, old.symm.trans held, owner ▸ hg, gone⟩
        · rw [held] at gone'
          cases gone'

/-- Of the switching block only groups, queue, choice and notices change as the part becomes masterless. -/
theorem masterless_frame (s : State) : (masterless s).sw = { s.sw with
    groups := (masterless s).sw.groups, queue := (masterless s).sw.queue, chosen := (masterless s).sw.chosen
    raised := (masterless s).sw.raised } :=
  groupsInTurn_induct (P := fun t => t.sw = { s.sw with
    groups := t.sw.groups, queue := t.sw.queue, chosen := t.sw.chosen, raised := t.sw.raised }) _ (fun _ => rfl) fun g t ht => by
      have only := onlyGroup_masterless t.swEnv g t.sw
      rw [inSwitch_sw]
      generalize t.sw.masterless t.swEnv g = v at only
      rw [only.frame, ht]

/-! ### The timing unit as the part becomes masterless -/

theorem derivedSource_congr {w v : Switching} (records : ∀ g : GroupId, v.groups[g].map (·.cfg) = w.groups[g].map (·.cfg))
    (elements : v.elements = w.elements) (b : Binding) : derivedSource v b = derivedSource w b := by
  have by_record : ∀ (x : Switching) (g : GroupId) (m : Nat), x.elements = w.elements → derivedSource x (.member g m) =
      (x.groups[g].map (·.cfg)).bind fun cfg =>
        if m = 0 ∨ cfg.count < m then none else if w.selected (.new cfg) = some m then some cfg.prot else cfg.working[m - 1]? :=
    fun x g m same => by
      unfold derivedSource
      dsimp only
      cases x.groups[g] with
      | none => rfl
      | some grp =>
        dsimp only
        rw [Switching.selected_congr same]
        rfl
  cases b with
  | port p => rfl
  | member g m => rw [by_record v g m elements, by_record w g m rfl, records]

/-- Where every enabled line reference of a group's member follows its selector already, nothing moves (R113). -/
theorem followSelectors_same {env : TimingEnv} {t : Timing}
    (follows : ∀ (r : RefId) g m, 2 ≤ r.val → t.refs[r].enabled = true → t.refs[r].binding = .member g m →
      t.refs[r].source = derivedSource env.sw (.member g m)) : t.followSelectors env = t := by
  unfold Timing.followSelectors
  refine if_neg fun moved => ?_
  obtain ⟨r, -, h⟩ := List.any_eq_true.mp moved
  dsimp only at h
  split at h
  · next g m bound =>
    rw [bound] at h
    simp only [Bool.and_eq_true, Bool.not_eq_true', decide_eq_true_eq] at h
    obtain ⟨⟨enabled, line⟩, differs⟩ := h
    refine differs (follows r g m ?_ enabled bound).symm
    unfold isOffice at line
    exact Nat.not_lt.mp (of_decide_eq_false line)
  · cases h

theorem masterless_timing {s : State}
    (follows : ∀ (r : RefId) g m, 2 ≤ r.val → s.timing.refs[r].enabled = true → s.timing.refs[r].binding = .member g m →
      s.timing.refs[r].source = derivedSource s.sw (.member g m)) : (masterless s).timing = s.timing := by
  suffices h : SameRecords s.sw (masterless s).sw ∧ (masterless s).sw.elements = s.sw.elements ∧ (masterless s).timing = s.timing from h.2.2
  refine groupsInTurn_induct (P := fun t => SameRecords s.sw t.sw ∧ t.sw.elements = s.sw.elements ∧ t.timing = s.timing) _
    (fun _ => ⟨.refl _, rfl, rfl⟩) fun g t ⟨records, elements, timing⟩ => ?_
  have only := onlyGroup_masterless t.swEnv g t.sw
  have records' := records.trans only.sameRecords
  have elements' := only.elements.trans elements
  refine ⟨records', elements', ?_⟩
  show t.timing.followSelectors _ = s.timing
  rw [timing]
  refine followSelectors_same fun r h m line enabled bound => ?_
  rw [follows r h m line enabled bound]
  exact (derivedSource_congr records'.groups elements' _).symm

end Sys2Proof.Machine
end

section
/-! Mastership, the link-watch and RESTART (R173 to R179). -/

namespace Sys2Proof.Machine

/-! ### Grants and the departure of the master -/

/-- The link supervisor as its master has left and nothing follows yet (R174). -/
def LinkSupervisor.departing (l : LinkId) (x : LinkSupervisor) : LinkSupervisor :=
  { x.modLink l fun k => { k with role := .observer } with periodTimer := none }

/-- A link that became MASTER, with its challenge and its period (R174). -/
structure Granted (x : LinkSupervisor) (l : LinkId) (now : Nat) (y : LinkSupervisor) : Prop where
  role : (y.link l).role = .master
  challenge : y.challenge = some (Config.challenge x.draws)
  draws : y.draws = x.draws + 1
  timer : y.periodTimer = some ⟨now + x.period * 1000, x.period * 1000⟩
  early : y.earlyStart = now
  run : y.run = 0
  ever : y.everGranted = true
  lapses : y.lapses = x.lapses
  shf : y.shf = decide (x.lapseLimit ≤ x.lapses)

theorem LinkSupervisor.grant_granted (l : LinkId) (now : Nat) (x : LinkSupervisor) : Granted x l now (x.grant l now) := by
  cases l <;> exact ⟨rfl, rfl, rfl, rfl, rfl, rfl, rfl, rfl, rfl⟩

theorem Granted.of_eq {x x' y : LinkSupervisor} {l : LinkId} {now : Nat} (h : Granted x l now y) (draws : x'.draws = x.draws)
    (period : x'.period = x.period) (lapses : x'.lapses = x.lapses) (limit : x'.lapseLimit = x.lapseLimit) : Granted x' l now y := by
  refine ⟨h.role, ?_, ?_, ?_, h.early, h.run, h.ever, lapses ▸ h.lapses, ?_⟩
  · rw [draws, h.challenge]
  · rw [draws, h.draws]
  · rw [period, h.timer]
  · rw [limit, lapses, h.shf]

theorem LinkSupervisor.grant_other (l : LinkId) (now : Nat) (x : LinkSupervisor) :
    (x.grant l now).link (otherLink l) = x.link (otherLink l) := by cases l <;> rfl

theorem LinkSupervisor.departing_link (l : LinkId) (x : LinkSupervisor) : ((x.departing l).link l).role = .observer := by cases l <;> rfl

theorem LinkSupervisor.departing_other (l : LinkId) (x : LinkSupervisor) :
    (x.departing l).link (otherLink l) = x.link (otherLink l) := by cases l <;> rfl

section
variable {l : LinkId} {s : State}

theorem depart_handover (claims : (s.links.link (otherLink l)).role = .claimant) :
    depart l s = raise (.granted (Config.challenge s.links.draws)) (grant (otherLink l) { s with links := s.links.departing l }) := by
  unfold depart
  rw [if_pos (by cases l <;> exact claims)]
  cases l <;> rfl

theorem depart_leaves (no : (s.links.link (otherLink l)).role ≠ .claimant) :
    depart l s = masterless { s with links := s.links.departing l } := by
  unfold depart
  rw [if_neg (by cases l <;> exact no)]
  rfl

end

/-! ### CLAIM and RELEASE -/

section
variable {l : LinkId} {tag : Byte} {s : State}

theorem exec_claim (free : FreeLink l s) {t : State} {payload : List Byte}
    (h : claim l (taken l tag 0x02 s) = (t, some payload)) :
    exec (.claim l tag []) s = .next (modLink l (Link.answer payload) t) :=
  congrArg Host.Outcome.next (request_handled free nofun h)

theorem exec_claim_answered (free : FreeLink l s) {payload : List Byte}
    (h : claim l (taken l tag 0x02 s) = (taken l tag 0x02 s, some payload)) :
    exec (.claim l tag []) s = .next (replied l tag 0x02 payload s) :=
  congrArg Host.Outcome.next (request_replied free nofun h)

theorem claim_master (role : (s.links.link l).role = .master) : claim l s = (s, some [0, s.links.challenge.getD 0]) := by
  unfold claim
  rw [role]
  rfl

theorem claim_claimant (role : (s.links.link l).role = .claimant) : claim l s = (s, some [1, 0]) := by
  unfold claim
  rw [role]
  rfl

theorem claim_pending (role : (s.links.link l).role = .observer) (other : (s.links.link (otherLink l)).role = .master) :
    claim l s = (finish .none (raise .claimPending (modLink l (fun k => { k with role := .claimant }) s)), some [1, 0]) := by
  unfold claim
  rw [role, other]
  rfl

theorem claim_granted (role : (s.links.link l).role = .observer) (other : (s.links.link (otherLink l)).role ≠ .master) :
    claim l s = (finish .none (grant l s), some [0, Config.challenge s.links.draws]) := by
  unfold claim
  rw [role]
  generalize (s.links.link (otherLink l)).role = r at other
  cases r
  case master => exact absurd rfl other
  all_goals cases l <;> rfl

theorem exec_release (ready : MasterReady l s) :
    exec (.release l tag []) s = .next (accepts l [0] (depart l (taken l tag 0x03 s))) :=
  congrArg Host.Outcome.next (request_accepts ready tag 0x03 rfl)

end

/-- The part without a master that `depart` leaves: the cascade over the switching block, and the groups as R65 leaves them. -/
theorem masterless_links (s : State) (x : LinkSupervisor) :
    (masterless { s with links := x }).links = x ∧ SwitchCascade { s with links := x } (masterless { s with links := x })
      ∧ MasterlessGroups s.sw (masterless { s with links := x }) :=
  ⟨(masterless_keeps _).links, masterless_cascade _, masterless_masterlessGroups { s with links := x }⟩

/-- Settles O51: `claim` by the two roles, and RELEASE as the departure of the master. -/
theorem mastershipIsClaimedAndReleased : Obligations.MastershipIsClaimedAndReleased := by
  unfold Obligations.MastershipIsClaimedAndReleased
  intro l tag s free role granted
  refine ⟨fun master => ?_, fun claimant => ?_, fun observer other => ?_, fun observer other => ?_, fun master other => ?_,
    fun master other => ?_⟩
  · rw [exec_claim_answered free (claim_master (by cases l <;> exact master))]
    cases l <;> rfl
  · exact exec_claim_answered free (claim_claimant (by cases l <;> exact claimant))
  · exact exec_claim free (claim_pending (by cases l <;> exact observer) (by cases l <;> exact other))
  · have made := exec_claim (tag := tag) free (claim_granted (by cases l <;> exact observer) (by cases l <;> exact other))
    have h : Granted s.links l s.now ((taken l tag 0x02 s).links.grant l s.now) :=
      (LinkSupervisor.grant_granted _ _ _).of_eq (by cases l <;> rfl) (by cases l <;> rfl) (by cases l <;> rfl) (by cases l <;> rfl)
    exact ⟨grant l (taken l tag 0x02 s), made.trans (by cases l <;> rfl),
      ⟨h.role, h.challenge, h.draws, h.timer, h.early, h.run, h.ever, h.lapses, h.shf⟩, rfl, by cases l <;> rfl, rfl⟩
  · refine ⟨depart l (taken l tag 0x03 s), exec_release ⟨free, master⟩, ?_⟩
    rw [depart_handover (by cases l <;> exact other)]
    have h : Granted s.links (otherLink l) s.now (((taken l tag 0x03 s).links.departing l).grant (otherLink l) s.now) :=
      (LinkSupervisor.grant_granted _ _ _).of_eq (by cases l <;> rfl) (by cases l <;> rfl) (by cases l <;> rfl) (by cases l <;> rfl)
    refine ⟨⟨h.role, h.challenge, ?_, h.timer, h.early, h.run, h.ever, h.lapses, h.shf⟩, by cases l <;> rfl, rfl, ?_⟩
    · exact h.draws
    · cases l <;> rfl
  · refine ⟨depart l (taken l tag 0x03 s), exec_release ⟨free, master⟩, ?_⟩
    rw [depart_leaves (by cases l <;> exact other)]
    obtain ⟨links, cascade, groups⟩ := masterless_links (taken l tag 0x03 s) ((taken l tag 0x03 s).links.departing l)
    rw [links]
    exact ⟨by cases l <;> rfl, by cases l <;> rfl, by cases l <;> rfl, cascade, groups⟩

/-! ### The link-watch -/

/-- What a lapse of the master link `l` leaves (R174, R176, R177). -/
structure Lapsed (l : LinkId) (s u : State) : Prop where
  lapses : u.links.lapses = min 4 (s.links.lapses + 1)
  run : u.links.run = 0
  role : (u.links.link l).role = .observer
  shf : u.links.shf = (!u.links.everGranted || decide (s.links.lapseLimit ≤ min 4 (s.links.lapses + 1)))
  ports : u.ports = s.ports
  records : SameRecords s.sw u.sw
  handover : (s.links.link (otherLink l)).role = .claimant →
    (u.links.link (otherLink l)).role = .master ∧ u.links.challenge = some (Config.challenge s.links.draws)
      ∧ u.links.draws = s.links.draws + 1
      ∧ u.links.periodTimer = some ⟨u.now + s.links.period * 1000, s.links.period * 1000⟩ ∧ u.links.earlyStart = u.now
      ∧ u.sw = s.sw ∧ u.notices = s.notices.tellOverflow ∧ u.raised = s.raised ++ [.granted (Config.challenge s.links.draws)]
  leaves : (s.links.link (otherLink l)).role ≠ .claimant →
    u.links.link (otherLink l) = s.links.link (otherLink l) ∧ u.links.periodTimer = none ∧ MasterlessGroups s.sw u
      ∧ u.notices = s.notices ∧ u.raised = s.raised

theorem lapse_lapsed (l : LinkId) (s : State) : Lapsed l s (lapse l s) := by
  unfold lapse
  by_cases claims : (s.links.link (otherLink l)).role = .claimant
  · rw [depart_handover (s := { s with links := s.links.lapse }) (by cases l <;> exact claims)]
    have h := (s.links.lapse.departing l).grant_granted (otherLink l) s.now
    refine ⟨?_, h.run, by cases l <;> rfl, ?_, rfl, .refl _, fun _ => ?_, fun no => absurd claims no⟩
    · exact h.lapses.trans (by cases l <;> rfl)
    · cases l <;> rfl
    · cases l <;> exact ⟨h.role, h.challenge, h.draws, h.timer, h.early, rfl, rfl, rfl⟩
  · rw [depart_leaves (s := { s with links := s.links.lapse }) (by cases l <;> exact claims)]
    obtain ⟨links, cascade, groups⟩ := masterless_links { s with links := s.links.lapse } (s.links.lapse.departing l)
    have keeps := cascade.others
    refine ⟨?_, ?_, ?_, ?_, cascade.ports, cascade.records, fun yes => absurd yes claims,
      fun _ => ⟨?_, ?_, groups, keeps.notices, keeps.raised⟩⟩
    all_goals
      rw [links]
      cases l <;> rfl

/-- What a lapse leaves does not go by the frame that brought it, nor by the moment. -/
theorem Lapsed.of_taken {l : LinkId} {tag kind : Byte} {s u : State} (h : Lapsed l (taken l tag kind s) u) : Lapsed l s u := by
  have other : (taken l tag kind s).links.link (otherLink l) = s.links.link (otherLink l) := by cases l <;> rfl
  have links : (taken l tag kind s).links.lapses = s.links.lapses ∧ (taken l tag kind s).links.lapseLimit = s.links.lapseLimit
      ∧ (taken l tag kind s).links.draws = s.links.draws ∧ (taken l tag kind s).links.period = s.links.period := by
    cases l <;> exact ⟨rfl, rfl, rfl, rfl⟩
  obtain ⟨lapses, limit, draws, period⟩ := links
  have handover := h.handover
  have leaves := h.leaves
  rw [other, draws, period] at handover
  rw [other] at leaves
  exact ⟨lapses ▸ h.lapses, h.run, h.role, by rw [h.shf, limit, lapses], h.ports, h.records, handover, leaves⟩

theorem Lapsed.of_reach {l : LinkId} {n : Nat} {s u : State} (h : Lapsed l (s.reach n) u) : Lapsed l s u :=
  ⟨h.lapses, h.run, h.role, h.shf, h.ports, h.records, h.handover, h.leaves⟩

theorem lapse_now (l : LinkId) (s : State) : (lapse l s).now = s.now := by
  unfold lapse
  by_cases claims : (s.links.link (otherLink l)).role = .claimant
  · rw [depart_handover (s := { s with links := s.links.lapse }) (by cases l <;> exact claims)]
    rfl
  · rw [depart_leaves (s := { s with links := s.links.lapse }) (by cases l <;> exact claims)]
    exact (masterless_keeps _).now

theorem watchFails_iff {x : LinkSupervisor} {now : Nat} {response : Byte} : x.watchFails now response = true ↔
    (x.mode = .window ∧ ∃ t, x.periodTimer = some t ∧ (now - x.earlyStart) * 2 < t.length)
      ∨ (x.mode = .challenge ∧ ((∃ t, x.periodTimer = some t ∧ (now - x.earlyStart) * 2 < t.length)
        ∨ x.challenge ≠ some (~~~ response))) := by
  have early : x.early now = true ↔ ∃ t, x.periodTimer = some t ∧ (now - x.earlyStart) * 2 < t.length := by
    unfold LinkSupervisor.early
    simp only [Option.any_eq_true, decide_eq_true_eq]
  unfold LinkSupervisor.watchFails
  cases x.mode with
  | plain => simp
  | window => simp [early]
  | challenge => simp [early]

section
variable {l : LinkId} {tag response : Byte} {s : State}

theorem exec_keepalive_kept (ready : MasterReady l s) (keeps : ¬ s.links.watchFails s.now response = true) :
    exec (.keepalive l tag [response]) s =
      .next (accepts l [0, Config.challenge s.links.draws, byteOf (s.links.keep s.now).lapses]
        { taken l tag 0x04 s with links := (taken l tag 0x04 s).links.keep s.now }) := by
  refine congrArg Host.Outcome.next (request_accepts ready tag 0x04 ?_)
  unfold keepalive
  have same : (taken l tag 0x04 s).links.watchFails (taken l tag 0x04 s).now (byteAt [response] 0) = s.links.watchFails s.now response := by
    cases l <;> rfl
  rw [same, if_neg keeps]
  cases l <;> rfl

theorem exec_keepalive_lapse (ready : MasterReady l s) (fails : s.links.watchFails s.now response = true) :
    exec (.keepalive l tag [response]) s =
      .next (accepts l [7, 0, byteOf (min 4 (s.links.lapses + 1))] (lapse l (taken l tag 0x04 s))) := by
  refine congrArg Host.Outcome.next (request_accepts ready tag 0x04 ?_)
  unfold keepalive
  have same : (taken l tag 0x04 s).links.watchFails (taken l tag 0x04 s).now (byteAt [response] 0) = s.links.watchFails s.now response := by
    cases l <;> rfl
  have lapses : (taken l tag 0x04 s).links.lapses = s.links.lapses := by cases l <;> rfl
  rw [same, if_pos fails, ← lapses, ← (lapse_lapsed l (taken l tag 0x04 s)).lapses]
  rfl

theorem exec_setLinkWatch {payload : List Byte} (length : payload.length = 4) :
    exec (.setLinkWatch l tag payload) s = .next (request l tag 0x05 true true (setLinkWatch payload) s) := by
  show Host.Outcome.next (request l tag 0x05 (decide (payload.length = 4)) true (setLinkWatch payload) s) = _
  rw [decide_eq_true length]

end

theorem WatchMode.ofCode_eq_none {b : Byte} (h : 2 < b.toNat) : WatchMode.ofCode b = none := by
  unfold WatchMode.ofCode
  rw [if_neg (by rintro rfl; simp at h), if_neg (by rintro rfl; simp at h), if_neg (by rintro rfl; simp at h)]

/-- Settles O52: KEEPALIVE by whether the link-watch fails, the expiry as a lapse, and the settings of SET-LINK-WATCH. -/
theorem linkWatchCountsLapses : Obligations.LinkWatchCountsLapses := by
  unfold Obligations.LinkWatchCountsLapses
  intro l tag response s master early fails lapsed
  have shows : ∀ u, Lapsed l s u → lapsed u := fun u h =>
    ⟨h.lapses, h.run, h.role, h.shf, h.ports, h.records, h.handover, h.leaves⟩
  refine ⟨fun free keeps => ?_, fun free fails => ?_, fun t timer link => ?_, fun payload free length => ⟨fun bad => ?_, fun mode code => ?_⟩⟩
  · rw [exec_keepalive_kept ⟨free, master⟩ fun h => keeps (watchFails_iff.mp h)]
    cases l <;> rfl
  · exact ⟨_, exec_keepalive_lapse ⟨free, master⟩ (watchFails_iff.mpr fails), lapse_now _ _, shows _ (lapse_lapsed l _).of_taken⟩
  · refine ⟨lapse l (s.reach t.expiry), ?_, lapse_now _ _, shows _ (lapse_lapsed l _).of_reach⟩
    show Host.Outcome.next _ = _
    rw [timer, link]
  · rw [exec_setLinkWatch length]
    refine congrArg _ (request_answers ⟨free, master⟩ tag 0x05 ?_)
    unfold setLinkWatch setLinkWatchArgs
    rw [WatchMode.ofCode_eq_none bad]
    rfl
  · intro period limit
    rw [exec_setLinkWatch length]
    refine congrArg _ (request_accepts ⟨free, master⟩ tag 0x05 ?_)
    unfold setLinkWatch setLinkWatchArgs
    rw [code]
    cases l <;> rfl

end Sys2Proof.Machine
end

section
/-! RESTART (R179). -/

namespace Sys2Proof.Machine

/-- The end of a cable test changes ports and the test record alone. -/
theorem resumeTest_frame (s : State) : resumeTest s = { s with ports := (resumeTest s).ports, cableTest := none } := by
  cases e : s.cableTest with
  | none =>
    rw [resumeTest_none e]
    obtain ⟨⟩ := s
    cases e
    rfl
  | some t => rw [resumeTest_eq e]

/-- What is left of a port at the end of a cable test that used it, or not, as its out port and as its in port (R24). -/
structure Resumed (now : Nat) (out in_ : Prop) (old new : Port) : Prop where
  frame : new = { old with tx := new.tx, rx := new.rx, asm := new.asm, lossTimer := new.lossTimer }
  disabled : old.cfg.enabled = false → new = old
  notOut : ¬ out → new.tx = old.tx
  notIn : ¬ in_ → new.rx = old.rx ∧ new.asm = old.asm ∧ new.lossTimer = old.lossTimer
  out : old.cfg.enabled = true → out → new.tx = ⟨.leadIn, now, now + 2500, []⟩

/-- The in port resumes its reception (R24). -/
def Receives (now : Nat) (p : Port) : Prop :=
  p.lossTimer = some (now + 40000) ∧ p.rx = ⟨true, .search 0⟩ ∧ p.asm = .hunt

theorem resumed_untouched (now : Nat) {out in_ : Prop} (no : ¬ out) (old : Port) : Resumed now out in_ old old :=
  ⟨rfl, fun _ => rfl, fun _ => rfl, fun _ => ⟨rfl, rfl, rfl⟩, fun _ yes => absurd yes no⟩

theorem resumed_out (now : Nat) {out in_ : Prop} (yes : out) (old : Port) : Resumed now out in_ old (old.resumeOut now) := by
  unfold Port.resumeOut
  split
  · next h => exact ⟨rfl, fun no => absurd (h.symm.trans no) (by decide), fun no => absurd yes no, fun _ => ⟨rfl, rfl, rfl⟩, fun _ _ => rfl⟩
  · next h => exact ⟨rfl, fun _ => rfl, fun no => absurd yes no, fun _ => ⟨rfl, rfl, rfl⟩, fun enabled => absurd enabled h⟩

theorem Resumed.in_ {now : Nat} {out in_ : Prop} {old new : Port} (h : Resumed now out in_ old new) (yes : in_) :
    Resumed now out in_ old (new.resumeIn now) := by
  have same : new.cfg.enabled = old.cfg.enabled := by rw [h.frame]
  unfold Port.resumeIn
  split
  · next on =>
    rw [same] at on
    refine ⟨?_, fun no => absurd (on.symm.trans no) (by decide), h.notOut, fun no => absurd yes no, h.out⟩
    rw [h.frame]
  · exact ⟨h.frame, h.disabled, h.notOut, h.notIn, h.out⟩

/-- The in port of a dropped test, where it is enabled, resumes its reception (R24). -/
theorem resumeTest_receives {s : State} {t : CableTest} (e : s.cableTest = some t) (enabled : s.ports[t.inPort].cfg.enabled = true) :
    Receives s.now (resumeTest s).ports[t.inPort] := by
  have still : (upd s.ports t.outPort (Port.resumeOut s.now))[t.inPort].cfg.enabled = true := by
    rw [upd_get]
    split
    · next same =>
      rw [(resumed_out (in_ := True) s.now (out := True) trivial s.ports[t.outPort]).frame]
      exact (congrArg (fun p : PortId => s.ports[p].cfg.enabled) same).trans enabled
    · exact enabled
  rw [resumeTest_eq e]
  show Receives s.now (upd _ t.inPort _)[t.inPort]
  rw [upd_get_self]
  unfold Port.resumeIn
  rw [if_pos still]
  exact ⟨rfl, rfl, rfl⟩

theorem resumeTest_resumed {s : State} {t : CableTest} (e : s.cableTest = some t) (p : PortId) :
    Resumed s.now (p = t.outPort) (p = t.inPort) s.ports[p] (resumeTest s).ports[p] := by
  have out : Resumed s.now (p = t.outPort) (p = t.inPort) s.ports[p] (upd s.ports t.outPort (Port.resumeOut s.now))[p] := by
    by_cases h : p = t.outPort
    · subst h
      rw [upd_get_self]
      exact resumed_out s.now rfl _
    · rw [upd_get_other _ h]
      exact resumed_untouched s.now h _
  rw [resumeTest_eq e]
  by_cases h : p = t.inPort
  · subst h
    rw [upd_get_self]
    exact out.in_ rfl
  · rw [upd_get_other _ h]
    exact out

/-- The part as RESTART takes effect on it, before the loss of the master (R165, R179). -/
def restarted (l : LinkId) (ends : Nat) (s : State) : State :=
  resumeTest (restartLinks (modLink l (fun k => { k with sending := none }) (s.reach ends)))

theorem exec_restartTakesEffect {l : LinkId} {ends : Nat} {s : State} (h : (s.links.link l).restarting = some ends) :
    exec (.restartTakesEffect l) s = .next (finish .none (masterless (restarted l ends s))) := by
  show Host.Outcome.next _ = _
  rw [h]
  rfl

theorem restarted_frame (l : LinkId) (ends : Nat) (s : State) : restarted l ends s = { s with
    now := max s.now ends, ports := (restarted l ends s).ports, links := (restarted l ends s).links, cableTest := none
    notices := { s.notices with queue := [], overflow := true } } := by
  unfold restarted
  rw [resumeTest_frame]
  rfl

theorem restarted_links (l : LinkId) (ends : Nat) (s : State) :
    (∀ k, (restarted l ends s).links.link k = { (s.links.link k) with
      rx := { (s.links.link k).rx with state := .breakHunt, assembly := [] }
      outstanding := none, ready := [], role := .observer
      sending := if k = l then none else (s.links.link k).sending })
    ∧ (restarted l ends s).links = { s.links with
        linkA := (restarted l ends s).links.linkA, linkB := (restarted l ends s).links.linkB, periodTimer := none } := by
  have links : (restarted l ends s).links =
      (restartLinks (modLink l (fun k => { k with sending := none }) (s.reach ends))).links := by
    unfold restarted
    rw [resumeTest_frame]
  rw [links]
  refine ⟨fun k => ?_, ?_⟩
  · cases l <;> cases k <;> rfl
  · cases l <;> rfl

theorem restarted_keepsSettings (l : LinkId) (ends : Nat) (s : State) : KeepsSettings s (restarted l ends s) := by
  have links := (restarted_links l ends s).2
  rw [restarted_frame]
  exact ⟨rfl, rfl, rfl, rfl, rfl, rfl, rfl, rfl, rfl, rfl, by rw [links], by rw [links], by rw [links], by rw [links], rfl⟩

theorem KeepsSettings.masterless {s t : State} (h : KeepsSettings s t) : KeepsSettings s (Machine.masterless t) := by
  have cascade := masterless_cascade t
  have keeps := cascade.others
  exact ⟨keeps.pending.trans h.pending, keeps.shelf.trans h.shelf, keeps.slot.trans h.slot, keeps.ranges.trans h.ranges,
    keeps.alarms ▸ h.profile, keeps.notices ▸ h.threshold, keeps.notices ▸ h.groupEnable, keeps.notices ▸ h.timingEnable,
    cascade.settings.trans h.timing, cascade.forced.trans h.forced, keeps.links ▸ h.rate, keeps.links ▸ h.mode, keeps.links ▸ h.period,
    keeps.links ▸ h.lapseLimit, keeps.alarms ▸ h.acoPin⟩

/-- Settles O53: RESTART is answered OK; its effect is that on links and notices, the end of a cable test, and the loss of the master. -/
theorem restartClearsLinks : Obligations.RestartClearsLinks := by
  unfold Obligations.RestartClearsLinks
  refine fun l s => ⟨fun tag ready => congrArg Host.Outcome.next (request_answers ready tag 0x06 rfl), fun f ends sending kind payload => ?_⟩
  have frame := restarted_frame l ends s
  have links := restarted_links l ends s
  have settings := (restarted_keepsSettings l ends s).masterless
  have now : (restarted l ends s).now = max s.now ends := by rw [frame]
  have sw : (restarted l ends s).sw = s.sw := by rw [frame]
  have timing : (restarted l ends s).timing = s.timing := by rw [frame]
  have temporary : ∀ g, g ∈ temporaryGroups (restarted l ends s) ↔ ∃ grp, s.sw.groups[g] = some grp ∧ grp.hasTemporary = true := fun g => by
    rw [mem_temporaryGroups, sw]
  have cascade := masterless_cascade (restarted l ends s)
  have keeps := cascade.others
  have records := cascade.records
  have groups := masterless_masterlessGroups (restarted l ends s)
  have switching := masterless_frame (restarted l ends s)
  have chosen := masterless_chosen (restarted l ends s)
  rw [sw] at records groups switching chosen
  refine ⟨masterless (restarted l ends s), exec_restartTakesEffect (Link.restarting_of_sending sending kind payload), keeps.now.trans now,
    fun k => ?_, ?_, ?_, ?_, ?_, settings, ?_, ?_, records, groups, switching, ?_, fun follows => ?_, fun none => ?_, fun t test p => ?_⟩
  · rw [keeps.links]
    exact links.1 k
  · rw [keeps.links]
    exact links.2
  · rw [keeps.notices, frame]
  · rw [keeps.raised, frame]
  · rw [keeps.cableTest, frame]
  · rw [keeps.alarms, frame]
  · rw [keeps.conversion, frame]
  · intro temp
    refine ⟨fun calm => ?_, ?_, fun once op mem => ⟨fun other => ?_, fun flies => ?_⟩⟩
    · obtain ⟨same, still⟩ := masterless_calm_same (s := restarted l ends s) fun g grp hg held => calm g ⟨grp, sw ▸ hg, held⟩
      exact ⟨same.trans sw, still.trans timing⟩
    · exact chosen.imp id fun ⟨c, held, owner, gone⟩ => ⟨c, held, (temporary _).mp owner, gone⟩
    · exact masterless_mem_queue (fun h => other ((temporary _).mp h)) (sw ▸ mem)
    · exact masterless_flies (sw ▸ once) (sw ▸ mem) flies
  · refine (masterless_timing ?_).trans timing
    rw [sw, timing]
    exact follows
  · rw [masterless_ports, restarted, resumeTest_none]
    · rfl
    · exact none
  · rw [masterless_ports, keeps.now, now]
    have h := resumeTest_resumed (s := restartLinks (modLink l (fun k => { k with sending := .none }) (s.reach ends))) test p
    refine ⟨h.frame, h.disabled, h.notOut, h.notIn, h.out, fun enabled at_ => ?_⟩
    subst at_
    exact resumeTest_receives (s := restartLinks (modLink l (fun k => { k with sending := .none }) (s.reach ends))) test enabled

end Sys2Proof.Machine
end

section
/-! MAINT-MOVE (R106), SETTLE (R107) and DELETE-GROUP (R48). -/

namespace Sys2Proof.Machine

/-! ### MAINT-MOVE -/

theorem addressOf_eq_none {b : Byte} (h : b.toNat = 0 ∨ 62 < b.toNat) : addressOf b = none := by
  unfold addressOf
  exact if_neg (by omega)

theorem addressOf_eq_some {b : Byte} (low : 1 ≤ b.toNat) (high : b.toNat ≤ 62) : addressOf b = some b.toNat := by
  unfold addressOf
  exact if_pos ⟨low, high⟩

section
variable {payload : List Byte} {s : State}

theorem maintMoveArgs_some (low : 1 ≤ (byteAt payload 0).toNat) (high : (byteAt payload 0).toNat ≤ 62)
    (pos : (byteAt payload 1).toNat ≤ 7) : maintMoveArgs payload = some ((byteAt payload 0).toNat, (byteAt payload 1).toNat) := by
  unfold maintMoveArgs
  rw [addressOf_eq_some low high, (finOf_eq_some_iff (i := ⟨_, Nat.lt_succ_of_le pos⟩)).mpr rfl]

theorem maintMove_badArg (bad : (byteAt payload 0).toNat = 0 ∨ 62 < (byteAt payload 0).toNat ∨ 7 < (byteAt payload 1).toNat
    ∨ s.sw.element (byteAt payload 0).toNat = none) : maintMove payload s = (s, some [6]) := by
  unfold maintMove
  split
  · rfl
  · next a pos args =>
    have fits := args
    unfold maintMoveArgs at fits
    split at fits
    · next a' pos' ha hpos =>
      cases fits
      by_cases address : (byteAt payload 0).toNat = 0 ∨ 62 < (byteAt payload 0).toNat
      · rw [addressOf_eq_none address] at ha
        cases ha
      · rw [addressOf_eq_some (by omega) (by omega)] at ha
        cases ha
        have := finOf_eq_some_iff.mp hpos
        rw [(bad.resolve_left (by omega)).resolve_left (by omega) |>.resolve_left (by omega)]
        rfl
    · cases fits

variable {el : Element} (args : maintMoveArgs payload = some ((byteAt payload 0).toNat, (byteAt payload 1).toNat))
  (element : s.sw.element (byteAt payload 0).toNat = some el)
include args element

theorem maintMove_notMaint (no : ¬ ∃ grp, s.sw.groups[el.group] = some grp ∧ grp.state = .maint) :
    maintMove payload s = (s, some [7]) := by
  have away : (s.sw.groups[el.group].any fun grp => decide (grp.state = .maint)) = false := by
    rw [← Bool.not_eq_true, Option.any_eq_true]
    simpa using no
  unfold maintMove
  rw [args]
  dsimp only
  rw [element]
  dsimp only
  rw [away]
  rfl

variable (maint : ∃ grp, s.sw.groups[el.group] = some grp ∧ grp.state = .maint)
include maint

/-- A MAINT-MOVE for an element of a group in MAINT, its further checks. -/
theorem maintMove_eq : maintMove payload s =
    if (s.sw.opOf el.group).isSome then plainly .busy s
    else if 4 ≤ maintenanceCount s.sw then plainly .full s
    else ({ s with sw := (s.sw.place (.new .maintenance (.move (byteAt payload 0).toNat (byteAt payload 1).toNat) el.group)).arbitrate },
      some [Result.ok.code]) := by
  have there : (s.sw.groups[el.group].any fun grp => decide (grp.state = .maint)) = true := by
    obtain ⟨grp, hg, state⟩ := maint
    rw [hg]
    exact decide_eq_true state
  unfold maintMove
  rw [args]
  dsimp only
  rw [element]
  dsimp only
  rw [there]
  rfl

end

/-- A MAINTENANCE entry joins the end of the queue (R98). -/
theorem place_maintenance (kind : OpKind) (g : GroupId) (w : Switching) :
    w.place (.new .maintenance kind g) = { w with queue := w.queue ++ [.new .maintenance kind g] } := by
  unfold Switching.place placeOp
  rw [if_pos (show (Op.new .maintenance kind g).cls = .maintenance from rfl)]

/-- A MAINT-MOVE changes the switching block at most. -/
theorem exec_maintMove {l : LinkId} {payload : List Byte} {s : State} (ready : MasterReady l s) (tag : Byte) (length : payload.length = 2)
    {r : Byte} {w : Switching}
    (h : maintMove payload (taken l tag 0x29 s) = ({ taken l tag 0x29 s with sw := w }, some [r])) :
    exec (.maintMove l tag payload) s = .next (replied l tag 0x29 [r] { s with sw := w }) := by
  show Host.Outcome.next (request l tag 0x29 (decide (payload.length = 2)) true (maintMove payload) s) = _
  rw [decide_eq_true length]
  refine congrArg _ ((request_handled ready.1 (fun _ => ready.2) h).trans ?_)
  cases l <;> rfl

/-- Settles O34: the checks of R106 in their order, and the entry at the queue's end. -/
theorem maintMoveQueuesOneMove : Obligations.MaintMoveQueuesOneMove := by
  unfold Obligations.MaintMoveQueuesOneMove
  intro l tag payload s ready length answer a pos
  have same : ∀ r, maintMove payload (taken l tag 0x29 s) = (taken l tag 0x29 s, some [r]) → answer r s.sw := fun r h =>
    exec_maintMove ready tag length h
  refine ⟨fun bad => same 6 (maintMove_badArg bad), fun el low high position element => ?_⟩
  have args := maintMoveArgs_some low high position
  intro inMaint
  refine ⟨fun no => same 7 (maintMove_notMaint args element no), fun maint busy => same 3 ?_, fun maint free full => same 10 ?_,
    fun maint free room => exec_maintMove ready tag length ?_⟩
  · exact (maintMove_eq (s := taken l tag 0x29 s) args element maint).trans (if_pos (Option.isSome_iff_ne_none.mpr busy))
  · refine (maintMove_eq (s := taken l tag 0x29 s) args element maint).trans ((if_neg ?_).trans (if_pos full))
    rw [show (taken l tag 0x29 s).sw.opOf el.group = none from free]
    decide
  · refine (maintMove_eq (s := taken l tag 0x29 s) args element maint).trans ((if_neg ?_).trans ((if_neg ?_).trans ?_))
    · rw [show (taken l tag 0x29 s).sw.opOf el.group = none from free]
      decide
    · exact Nat.not_le.mpr room
    · rw [place_maintenance]
      rfl

/-! ### SETTLE -/

theorem drained_iff (w : Switching) : drained w = true ↔ w.queue = [] ∧ ∀ el ∈ w.elements, el.moving = none := by
  unfold drained
  simp only [Bool.and_eq_true, List.isEmpty_iff, List.all_eq_true, Option.isNone_iff_eq_none]

/-- The two SETTLE replies are formed at once, each on a link that waits for one (R107). -/
theorem settleReplies_replied {s : State} (empty : drained s.sw = true) {l : LinkId} (waits : (s.links.link l).settling = true) :
    (∀ k, (settleReplies s).links.link k = Link.settled s.sw.settleFail (s.links.link k))
      ∧ { settleReplies s with links := s.links } = { s with sw := { s.sw with settleFail := [] } } := by
  unfold settleReplies
  rw [if_pos ⟨empty, by cases l; exacts [.inl waits, .inr waits]⟩]
  exact ⟨fun k => by cases k <;> rfl, rfl⟩

theorem settleReplies_waits {s : State} (h : ¬ (drained s.sw = true ∧ ∃ l, (s.links.link l).settling = true)) : settleReplies s = s := by
  unfold settleReplies
  exact if_neg fun ⟨empty, waits⟩ => h ⟨empty, waits.elim (fun a => ⟨.a, a⟩) fun b => ⟨.b, b⟩⟩

theorem settleBytes_eq (gs : List GroupId) : settleBytes gs = byteOf gs.length :: gs.map fun g => byteOf g.val := by
  unfold settleBytes counted
  rw [List.map_eq_flatMap]

theorem Link.settled_of_settling {k : Link} {tag : Byte} (own : k.outstanding = some ⟨tag, 0x2B, false⟩) (gs : List GroupId) :
    Link.settled gs k = { k with
      outstanding := some ⟨tag, 0x2B, true⟩
      ready := k.ready ++ [⟨⟨tag, 0xAB, 0 :: byteOf gs.length :: gs.map fun g => byteOf g.val⟩, false⟩] } := by
  unfold Link.settled Link.answer
  rw [if_pos ((Link.settling_iff k).mpr ⟨tag, own⟩), own, settleBytes_eq]
  rfl

theorem Link.settled_of_not_settling {k : Link} (no : ¬ ∃ tag, k.outstanding = some ⟨tag, 0x2B, false⟩) (gs : List GroupId) :
    Link.settled gs k = k := if_neg fun h => no ((Link.settling_iff k).mp h)

/-- Settles O35: SETTLE and SETTLE_REPLY by whether queue and moving set are empty and a link waits. -/
theorem settleAnswersWhenDrained : Obligations.SettleAnswersWhenDrained := by
  unfold Obligations.SettleAnswersWhenDrained
  intro l tag s empty waits settled
  have shows : ∀ old new, new = Link.settled s.sw.settleFail old → settled old new := fun old new e =>
    ⟨fun t own => e.trans (Link.settled_of_settling own _), fun no => e.trans (Link.settled_of_not_settling no _)⟩
  have own : ((taken l tag 0x2B s).links.link l).settling = true :=
    (Link.settling_iff _).mpr ⟨tag, by cases l <;> rfl⟩
  refine ⟨fun free no => ?_, fun free yes => ?_, fun no => ?_, fun ⟨yes, k, waiting⟩ => ?_⟩
  · refine congrArg Host.Outcome.next (request_deferred free nofun ?_)
    exact congrArg (·, none) (settleReplies_waits fun h => no ((drained_iff _).mp h.1))
  · refine ⟨_, congrArg Host.Outcome.next (request_deferred free nofun rfl), ?_⟩
    obtain ⟨links, rest⟩ := settleReplies_replied (s := taken l tag 0x2B s) ((drained_iff _).mpr yes) own
    refine ⟨fun k => shows _ _ (links k), ?_⟩
    exact congrArg (fun t : State => { t with links := s.links }) rest
  · exact congrArg Host.Outcome.next (settleReplies_waits fun ⟨d, k, w⟩ => no ⟨(drained_iff _).mp d, k, (Link.settling_iff _).mp w⟩)
  · obtain ⟨links, rest⟩ := settleReplies_replied ((drained_iff _).mpr yes) ((Link.settling_iff _).mpr waiting)
    exact ⟨_, rfl, fun k => shows _ _ (links k), rest⟩

/-! ### DELETE-GROUP -/

theorem timingFrame_regroup (env : TimingEnv) (g : GroupId) (t : Timing) : TimingFrame t (t.regroup env g) := timingFrame_modRefs env _ t

theorem deletable_iff (w : Switching) (g : GroupId) : deletable w g = true ↔
    (∃ grp, w.groups[g] = some grp ∧ (grp.state = .maint ∨ grp.state = .frozen ∨ grp.state = .halted)) ∧ w.opOf g = none := by
  unfold deletable
  simp only [Bool.and_eq_true, Option.any_eq_true, Bool.or_eq_true, decide_eq_true_eq, Option.isNone_iff_eq_none, or_assoc]

/-- Settles O25: the removal of the records, and the refusals. -/
theorem deleteGroupRemovesRecords : Obligations.DeleteGroupRemovesRecords := by
  unfold Obligations.DeleteGroupRemovesRecords
  refine fun l tag g s ready => ⟨fun grp hg state free => ?_, fun no => ?_, fun b bad => ?_⟩
  · refine ⟨removeGroup g (taken l tag 0x21 s), congrArg Host.Outcome.next (request_accepts ready tag 0x21 ?_),
      ⟨rfl, rfl, rfl, rfl, rfl, rfl, rfl, rfl, rfl, rfl, rfl⟩, rfl, ?_, ?_, ?_, ?_⟩
    · unfold deleteGroup
      rw [indexArg_byteOf (by decide)]
      exact if_pos ((deletable_iff _ g).mpr ⟨⟨grp, hg, state⟩, free⟩)
    · exact (timingFrame_regroup _ g s.timing).settings
    · exact (timingFrame_regroup _ g s.timing).forced
    · rfl
    · rfl
  · refine congrArg Host.Outcome.next (request_answers ready tag 0x21 ?_)
    unfold deleteGroup
    rw [indexArg_byteOf (by decide)]
    refine if_neg fun h => ?_
    obtain ⟨⟨grp, hg, state⟩, free⟩ := (deletable_iff _ g).mp h
    rcases no with other | busy
    · obtain ⟨m, f, h⟩ := other grp hg
      exact state.elim m (fun x => x.elim f h)
    · exact busy free
  · refine congrArg Host.Outcome.next (request_answers ready tag 0x21 ?_)
    unfold deleteGroup
    rw [indexArg_eq_none bad]
    rfl

end Sys2Proof.Machine
end

section
/-! The selection of a reference and what follows from it (R122, R123, R125, R126, R128, R129). -/

namespace Sys2Proof.Machine

/-! ### Ranks (R123) -/

/-- Of a list, the element no other one comes before is left at the end of a fold that takes the better of two. -/
theorem foldl_better {α : Type} {before : α → α → Bool} (irrefl : ∀ x, before x x = false)
    (asymm : ∀ x y, before x y = true → before y x = false)
    (trans : ∀ x y z, before y x = false → before z y = false → before z x = false) (ys : List α) (x : α) :
    ∀ y ∈ x :: ys, before y (ys.foldl (fun x y => if before y x then y else x) x) = false := by
  induction ys generalizing x with
  | nil =>
    intro y mem
    rw [List.mem_singleton.mp mem]
    exact irrefl x
  | cons z zs ih =>
    have head := ih (if before z x then z else x)
    rw [List.foldl_cons]
    have first := head _ List.mem_cons_self
    intro y mem
    rcases List.mem_cons.mp mem with rfl | mem
    · refine trans _ _ _ first ?_
      split
      · next h => exact asymm _ _ h
      · exact irrefl _
    · rcases List.mem_cons.mp mem with rfl | mem
      · refine trans _ _ _ first ?_
        split
        · exact irrefl _
        · next h => simpa using h
      · exact head y (List.mem_cons_of_mem _ mem)

/-- Whether a rank of quality, priority and index comes before another one (R123). -/
def ranksBefore (byQuality : Prop) (qx px x qy py y : Nat) : Prop :=
  (byQuality ∧ qx < qy) ∨ ((¬ byQuality ∨ qx = qy) ∧ (px < py ∨ (px = py ∧ x < y)))

theorem Timing.ranksBetter_iff (t : Timing) (x y : RefId) : t.ranksBetter x y = true ↔
    ranksBefore (t.settings.mode = .quality) (t.refs[x].quality x) t.refs[x].priority x.val (t.refs[y].quality y) t.refs[y].priority
      y.val := by
  unfold Timing.ranksBetter ranksBefore
  cases t.settings.mode <;> simp

theorem Timing.ranksBetter_false (t : Timing) (x y : RefId) : t.ranksBetter x y = false ↔ ¬
    ranksBefore (t.settings.mode = .quality) (t.refs[x].quality x) t.refs[x].priority x.val (t.refs[y].quality y) t.refs[y].priority
      y.val := by
  rw [← Timing.ranksBetter_iff, Bool.not_eq_true]

theorem Timing.ranksBetter_irrefl (t : Timing) (x : RefId) : t.ranksBetter x x = false := by
  rw [Timing.ranksBetter_false]
  unfold ranksBefore
  omega

theorem Timing.ranksBetter_asymm (t : Timing) (x y : RefId) (h : t.ranksBetter x y = true) : t.ranksBetter y x = false := by
  rw [Timing.ranksBetter_iff] at h
  rw [Timing.ranksBetter_false]
  unfold ranksBefore at h ⊢
  by_cases m : t.settings.mode = .quality
  · simp only [m, true_and, not_true_eq_false, false_or] at h ⊢
    omega
  · simp only [m, false_and, not_false_eq_true, true_or, true_and, false_or] at h ⊢
    omega

theorem Timing.ranksBetter_trans (t : Timing) (x y z : RefId) (a : t.ranksBetter y x = false) (b : t.ranksBetter z y = false) :
    t.ranksBetter z x = false := by
  rw [Timing.ranksBetter_false] at a b ⊢
  unfold ranksBefore at a b ⊢
  by_cases m : t.settings.mode = .quality
  · simp only [m, true_and, not_true_eq_false, false_or] at a b ⊢
    omega
  · simp only [m, false_and, not_false_eq_true, true_or, true_and, false_or] at a b ⊢
    omega

section
variable {ports : Vector Port 32} {t : Timing}

theorem best_none_iff : t.best ports = none ↔ ∀ r : RefId, ¬ t.refs[r].selectable ports r = true := by
  unfold Timing.best
  split
  · next e =>
    refine iff_of_true rfl fun r can => ?_
    have := mem_selectables.mpr can
    rw [e] at this
    cases this
  · next r rs e =>
    refine iff_of_false nofun fun none => none r (mem_selectables.mp ?_)
    rw [e]
    exact List.mem_cons_self

/-- No selectable reference ranks better than the best one (R123). -/
theorem best_best {x : RefId} (best : t.best ports = some x) {y : RefId} (can : t.refs[y].selectable ports y = true) :
    t.ranksBetter y x = false := by
  unfold Timing.best at best
  have mem := mem_selectables.mpr can
  split at best
  · cases best
  · next r rs e =>
    cases best
    rw [e] at mem
    exact foldl_better t.ranksBetter_irrefl t.ranksBetter_asymm t.ranksBetter_trans rs r y mem

/-- Whether the selected reference stays (R123). -/
def Timing.stays (ports : Vector Port 32) (t : Timing) : Prop :=
  ∃ x, t.selected = some x ∧ t.refs[x].selectable ports x = true
    ∧ (t.settings.mode = .quality → ∀ y : RefId, t.refs[y].selectable ports y = true → t.refs[x].quality x ≤ t.refs[y].quality y)
    ∧ (t.settings.revertive = true → ∀ y : RefId, t.refs[y].selectable ports y = true → t.ranksBetter y x = false)

/-- Whether the forced reference is selected (R123). -/
def Timing.forces (ports : Vector Port 32) (t : Timing) : Prop := ∃ f, t.forced = some f ∧ t.refs[f].selectable ports f = true

theorem forces_iff : t.forces ports ↔ (t.forced.any fun r => t.refs[r].selectable ports r) = true := by
  unfold Timing.forces
  rw [Option.any_eq_true]

theorem selection_forced (h : t.forces ports) : t.selection ports = t.forced := by
  unfold Timing.selection
  exact if_pos (forces_iff.mp h)

theorem selection_stays (no : ¬ t.forces ports) (h : t.stays ports) : t.selection ports = t.selected := by
  obtain ⟨x, selected, can, quality, revertive⟩ := h
  unfold Timing.selection
  dsimp only
  rw [if_neg (fun h => no (forces_iff.mpr h)), selected]
  dsimp only
  rw [if_neg (fun no => by rw [can] at no; cases no), if_neg, if_neg]
  · intro h
    simp only [Bool.and_eq_true, Option.any_eq_true] at h
    obtain ⟨rev, b, hb, better⟩ := h
    exact absurd (revertive rev b (best_selectable hb)) (by rw [better]; decide)
  · intro h
    simp only [Bool.and_eq_true, decide_eq_true_eq, List.any_eq_true] at h
    obtain ⟨mode, y, mem, better⟩ := h
    exact absurd (quality mode y (mem_selectables.mp mem)) (Nat.not_le.mpr better)

theorem selection_best (no : ¬ t.forces ports) (leaves : ¬ t.stays ports) : t.selection ports = t.best ports := by
  unfold Timing.selection
  dsimp only
  rw [if_neg (fun h => no (forces_iff.mpr h))]
  split
  · rfl
  · next x selected =>
    split
    · rfl
    · next can =>
      split
      · rfl
      · next quality =>
        split
        · rfl
        · next revertive =>
          refine absurd ⟨x, selected, by simpa using can, fun mode y hy => ?_, fun rev y hy => ?_⟩ leaves
          · refine Nat.not_lt.mp fun lt => quality ?_
            simp only [Bool.and_eq_true, decide_eq_true_eq, List.any_eq_true]
            exact ⟨mode, y, mem_selectables.mpr hy, lt⟩
          · rw [← Bool.not_eq_true]
            refine fun better => revertive ?_
            rw [rev, Bool.true_and, Option.any_eq_true]
            rcases hb : t.best ports with _ | b
            · exact absurd hy (best_none_iff.mp hb y)
            · refine ⟨b, rfl, ?_⟩
              rw [← Bool.not_eq_false]
              exact fun none => absurd (t.ranksBetter_trans x b y none (best_best hb hy)) (by rw [better]; decide)

theorem Timing.stays_selecting {x : RefId} (can : t.refs[x].selectable ports x = true)
    (best : ∀ y : RefId, t.refs[y].selectable ports y = true → t.ranksBetter y x = false) :
    Timing.stays ports { t with selected := some x } := by
  refine ⟨x, rfl, can, fun mode y hy => ?_, fun _ => best⟩
  have h := best y hy
  rw [Timing.ranksBetter_false] at h
  exact Nat.not_lt.mp fun lt => h (.inl ⟨mode, lt⟩)

/-- Selection formed again from what it selected selects the same (R125). -/
theorem selection_again : Timing.selection ports { t with selected := t.selection ports } = t.selection ports := by
  by_cases forces : t.forces ports
  · rw [selection_forced (t := { t with selected := t.selection ports }) forces, selection_forced forces]
  · by_cases stays : t.stays ports
    · rw [selection_stays forces stays]
      exact (selection_stays (t := { t with selected := t.selected }) forces stays).trans rfl
    · rw [selection_best forces stays]
      cases hb : t.best ports with
      | none =>
        rw [selection_best (t := { t with selected := none }) forces nofun]
        exact hb
      | some x =>
        exact selection_stays (t := { t with selected := some x }) forces
          (Timing.stays_selecting (best_selectable hb) fun y hy => best_best hb hy)

end

/-! ### Selection re-evaluated (R125) -/

section
variable {env : TimingEnv} {t : Timing}

theorem reselect_same (h : t.selection env.ports = t.selected) : t.reselect env = t.giveOut := by
  unfold Timing.reselect
  exact if_pos h

/-- The timing unit as the selected reference has changed, with the timing state that follows (R126, R128). -/
def Timing.moved (env : TimingEnv) (t : Timing) : Timing := ({ t with selected := t.selection env.ports }).moveState env.now

theorem reselect_changed (h : t.selection env.ports ≠ t.selected) : t.reselect env =
    (if (t.moved env).state = t.state then t.moved env else (t.moved env).stepWord env.now).giveOut.note env := by
  unfold Timing.reselect
  exact if_neg h

/-- What a change of the selected reference leaves: state, timers and holdover value at most. -/
theorem moved_frame (env : TimingEnv) (t : Timing) : t.moved env = { t with
    selected := t.selection env.ports, state := (t.moved env).state, acquireTimer := (t.moved env).acquireTimer
    holdoverTimer := (t.moved env).holdoverTimer, holdoverValue := (t.moved env).holdoverValue } := by
  unfold Timing.moved Timing.moveState
  repeat' split
  all_goals rfl

/-- What a re-evaluation of selection leaves of the timing unit. -/
theorem reselect_frame (env : TimingEnv) (t : Timing) : t.reselect env = { t with
    selected := t.selection env.ports, state := (t.reselect env).state, acquireTimer := (t.reselect env).acquireTimer
    holdoverTimer := (t.reselect env).holdoverTimer, holdoverValue := (t.reselect env).holdoverValue, word := (t.reselect env).word
    steering := (t.reselect env).steering, steerWaiting := (t.reselect env).steerWaiting, codes := (t.reselect env).codes
    refout := (t.reselect env).refout, raised := (t.reselect env).raised } := by
  by_cases h : t.selection env.ports = t.selected
  · rw [reselect_same h, h]
    rfl
  · have frame := moved_frame env t
    rw [reselect_changed h]
    generalize t.moved env = m at frame
    split
    · rw [Timing.note_eq]
      unfold Timing.giveOut
      rw [frame]
    · rw [Timing.note_eq, Timing.stepWord_eq]
      unfold Timing.giveOut
      rw [frame]

theorem reselect_selected (env : TimingEnv) (t : Timing) : (t.reselect env).selected = t.selection env.ports := by
  rw [reselect_frame]

/-- Of the timing unit, selection goes by references, settings, force and the selected reference. -/
theorem selection_congr {u : Timing} (ports : Vector Port 32) (refs : u.refs = t.refs) (settings : u.settings = t.settings)
    (forced : u.forced = t.forced) (selected : u.selected = t.selected) : u.selection ports = t.selection ports := by
  have ranks : ∀ x y, u.ranksBetter x y = t.ranksBetter x y := fun x y => by
    unfold Timing.ranksBetter
    rw [refs, settings]
  have best : u.best ports = t.best ports := by
    unfold Timing.best Timing.selectables
    simp only [refs, ranks]
  unfold Timing.selection Timing.selectables
  simp only [refs, settings, forced, selected, best, ranks]

/-- After a re-evaluation the selected reference is the one that R123 forms. -/
theorem reselect_settled (env : TimingEnv) (t : Timing) : (t.reselect env).selected = (t.reselect env).selection env.ports := by
  rw [reselect_selected]
  refine selection_again.symm.trans (selection_congr env.ports (t := t.reselect env) ?_ ?_ ?_ ?_)
  · exact (reselect_refs env t).symm
  · exact (timingFrame_reselect env t).settings.symm
  · exact (timingFrame_reselect env t).forced.symm
  · exact (reselect_selected env t).symm

/-- The codes of the ports are those the unit gives out as it stands (R131). -/
theorem reselect_codes (env : TimingEnv) (t : Timing) : (t.reselect env).codes = (t.reselect env).giveOut.codes := by
  by_cases h : t.selection env.ports = t.selected
  · rw [reselect_same h]
    rfl
  · rw [reselect_changed h, Timing.note_eq]
    rfl

end

end Sys2Proof.Machine
end

section
/-! The timing state as the selected reference changes (R126, R128, R129). -/

namespace Sys2Proof.Machine

section
variable {env : TimingEnv} {t : Timing}

theorem moved_some {r : RefId} (h : t.selection env.ports = some r) : t.moved env = { t with
    selected := some r, state := .acquiring, acquireTimer := some (env.now + t.settings.acquireTime * 1000000), holdoverTimer := none } := by
  unfold Timing.moved
  rw [h]
  rfl

theorem moved_none_ready (h : t.selection env.ports = none) (state : t.state = .acquiring ∨ t.state = .locked) (ready : t.ready = true) :
    t.moved env = { t with
      selected := none, state := .holdover, acquireTimer := none, holdoverValue := t.history.headD 0
      holdoverTimer := some (env.now + t.settings.holdoverLimit * 3600000000) } := by
  unfold Timing.moved Timing.moveState
  rw [h]
  dsimp only
  rcases state with e | e <;> rw [e] <;> exact if_pos ready

theorem moved_none_unready (h : t.selection env.ports = none) (state : t.state = .acquiring ∨ t.state = .locked) (no : t.ready = false) :
    t.moved env = { t with selected := none, state := .freeRun, acquireTimer := none } := by
  unfold Timing.moved Timing.moveState
  rw [h]
  dsimp only
  rcases state with e | e <;> rw [e] <;> exact if_neg (by rw [no]; decide)

/-- What follows the change of the timing state: the notice, the codes and, where the state has changed, an update. -/
theorem reselect_moved (h : t.selection env.ports ≠ t.selected) : t.reselect env = { t.moved env with
    word := (t.reselect env).word, steering := (t.reselect env).steering, steerWaiting := (t.reselect env).steerWaiting
    codes := (t.reselect env).codes, refout := (t.reselect env).refout
    raised := if env.notify then t.raised ++ [.timing (t.moved env).state (t.selection env.ports)] else t.raised } := by
  have raised : (t.moved env).raised = t.raised := by rw [moved_frame]
  have selected : (t.moved env).selected = t.selection env.ports := by rw [moved_frame]
  rw [reselect_changed h]
  generalize t.moved env = m at raised selected
  rw [← raised, ← selected]
  split
  · unfold Timing.note Timing.giveOut
    cases env.notify <;> rfl
  · rw [Timing.stepWord_eq]
    unfold Timing.note Timing.giveOut
    cases env.notify <;> rfl

/-- Where the state stands, word and STEER stand. -/
theorem reselect_stands (h : (t.reselect env).state = t.state) : (t.reselect env).word = t.word
    ∧ (t.reselect env).steering = t.steering ∧ (t.reselect env).steerWaiting = t.steerWaiting := by
  by_cases same : t.selection env.ports = t.selected
  · rw [reselect_same same]
    exact ⟨rfl, rfl, rfl⟩
  · have state : (t.moved env).state = t.state := by
      rw [reselect_moved same] at h
      exact h
    rw [reselect_changed same, if_pos state, Timing.note_eq]
    exact ⟨by show (t.moved env).word = _; rw [moved_frame], by show (t.moved env).steering = _; rw [moved_frame],
      by show (t.moved env).steerWaiting = _; rw [moved_frame]⟩

/-- A change of the state takes an update (R129). -/
theorem reselect_updates (h : (t.reselect env).state ≠ t.state) :
    (t.reselect env).word = (t.moved env).stepped.word
      ∧ (t.reselect env).steering = ((t.moved env).stepped.send env.now).steering
      ∧ (t.reselect env).steerWaiting = ((t.moved env).stepped.send env.now).steerWaiting
      ∧ (t.reselect env).state = (t.moved env).state ∧ t.selection env.ports ≠ t.selected := by
  have changed : t.selection env.ports ≠ t.selected := fun same => h (by rw [reselect_same same]; rfl)
  have state : (t.reselect env).state = (t.moved env).state := by rw [reselect_moved changed]
  rw [reselect_changed changed, if_neg (state ▸ h), Timing.note_eq]
  refine ⟨Timing.stepWord_word _ _, rfl, rfl, ?_, changed⟩
  show ((t.moved env).stepWord env.now).state = _
  rw [Timing.stepWord_eq]

end

/-- Settles O42: the selection by the three rules of R123, and the timing state, the update and the notice that follow. -/
theorem selectionMovesTimingState : Obligations.SelectionMovesTimingState := by
  unfold Obligations.SelectionMovesTimingState
  intro env t can q prio better forces stays u
  have quality : ∀ r : RefId, t.refs[r].quality r = q r := fun r => by
    show Ref.quality r t.refs[r] = if r.val < 2 then _ else _
    unfold Ref.quality isOffice
    simp only [decide_eq_true_eq]
  have ranks : ∀ x y, t.ranksBetter x y = true ↔ better x y := fun x y => by
    rw [Timing.ranksBetter_iff, quality, quality]
    unfold ranksBefore
    have mode : ¬ t.settings.mode = .quality ↔ t.settings.mode = .priority := by cases t.settings.mode <;> simp
    rw [mode]
    rfl
  have notBetter : ∀ {x y}, t.ranksBetter x y = false ↔ ¬ better x y := fun {x y} => by rw [← ranks, Bool.not_eq_true]
  have stays_iff : t.stays env.ports ↔ stays := by
    unfold Timing.stays
    simp only [quality, notBetter]
    rfl
  have selected : u.selected = t.selection env.ports := reselect_selected env t
  have frame := reselect_frame env t
  refine ⟨fun r => ?_, fun h => selected.trans (selection_forced h),
    fun no h => selected.trans (selection_stays no (stays_iff.mpr h)), fun no leaves none => ?_, fun no leaves ⟨y, hy⟩ => ?_,
    fun same => ?_, fun changed some => ?_, fun changed none state => ?_, ?_⟩
  · show Ref.selectable env.ports r t.refs[r] = true ↔ _
    rw [Ref.selectable_iff, quality]
    simp only [and_assoc]
  · rw [selected, selection_best no fun h => leaves (stays_iff.mp h)]
    exact best_none_iff.mpr none
  · rw [selected, selection_best no fun h => leaves (stays_iff.mp h)]
    cases hb : t.best env.ports with
    | none => exact absurd hy (best_none_iff.mp hb y)
    | some x => exact ⟨x, rfl, best_selectable hb, fun z hz => notBetter.mp (best_best hb hz)⟩
  · have made : u = t.giveOut := reselect_same (selected.symm.trans same)
    rw [made]
    exact ⟨rfl, rfl, rfl⟩
  · have made : u = _ := reselect_moved (env := env) (t := t) (selected ▸ changed)
    obtain ⟨r, hr⟩ := Option.isSome_iff_exists.mp some
    rw [made, moved_some (selected.symm.trans hr)]
    exact ⟨rfl, rfl, rfl⟩
  · have made : u = _ := reselect_moved (env := env) (t := t) (selected ▸ changed)
    rw [made]
    by_cases ready : t.ready = true
    · rw [moved_none_ready (selected.symm.trans none) state ready]
      exact ⟨rfl, fun _ => ⟨rfl, rfl, rfl⟩, fun no => absurd (ready.symm.trans no) (by decide)⟩
    · rw [moved_none_unready (selected.symm.trans none) state (by simpa using ready)]
      exact ⟨rfl, fun yes => absurd yes ready, fun _ => rfl⟩
  · refine ⟨reselect_refs env t, ?_, ?_, ?_, ?_, ?_, ?_, ?_, reselect_stands, fun changed => ?_⟩
    · exact (timingFrame_reselect env t).settings
    · exact (timingFrame_reselect env t).forced
    · exact (timingFrame_reselect env t).nextTick
    · rw [show u = _ from frame]
    · rw [show u = _ from frame]
    · rw [show u = _ from frame]
    · by_cases same : t.selection env.ports = t.selected
      · rw [if_neg (fun h => h.1 (selected.trans same)), show u = t.giveOut from reselect_same same]
        rfl
      · have state : u.state = (t.moved env).state := by rw [show u = _ from reselect_moved same]
        rw [selected, state, show u = _ from reselect_moved same]
        show (if env.notify = true then _ else _) = _
        cases env.notify
        · rw [if_neg nofun, if_neg (fun h => nomatch h.2)]
        · rw [if_pos rfl, if_pos ⟨same, rfl⟩]
    · intro slew target frame' taken
      obtain ⟨word, steering, waiting, state, moved⟩ := reselect_updates changed
      have target_eq : (t.moved env).steerTarget = target := by
        show _ = u.steerTarget
        rw [show u = _ from reselect_moved moved]
        rfl
      have before : (t.moved env).word = t.word ∧ (t.moved env).settings = t.settings := by
        rw [moved_frame]
        exact ⟨rfl, rfl⟩
      have sends := Timing.send_steering env.now (t.moved env).stepped
      have stepped : (t.moved env).stepped.steering = t.steering ∧ (t.moved env).stepped.state = u.state := by
        rw [Timing.stepped_eq, show u.state = _ from state]
        refine ⟨?_, rfl⟩
        show (t.moved env).steering = _
        rw [moved_frame]
      unfold Timing.steers at sends
      rw [stepped.1, stepped.2, ← word, ← steering, ← waiting] at sends
      refine ⟨fun none => ?_, fun x some => ?_, fun busy => sends.1 busy, fun idle => sends.2 idle⟩
      · rw [show u.word = _ from word, Timing.stepped_none (target_eq.trans none)]
        exact before.1
      · rw [show u.word = _ from word, Timing.stepped_some (target_eq.trans some)]
        show (t.moved env).word + clampInt (-((t.moved env).settings.slew : Int)) _ _ = _
        rw [before.1, before.2]

end Sys2Proof.Machine
end

section
/-! SET-REF, SET-TIMING and TIMING-REQUEST (R109 to R111, R124, R125, R131, R132). -/

namespace Sys2Proof.Machine

/-! ### A change of the timing unit and the selection after it -/

/-- What a change of the timing unit leaves, where selection is re-evaluated after it (R125). -/
theorem reselected (s : State) (t : Timing) (tick : t.nextTick = s.timing.nextTick) :
    let u : State := { s with timing := t.reselect s.timingEnv }
    TimingCascade s u ∧ u.timing.refs = t.refs ∧ u.timing.settings = t.settings ∧ u.timing.forced = t.forced
      ∧ u.timing.selected = u.timing.selection s.ports := by
  have frame := timingFrame_reselect s.timingEnv t
  exact ⟨inTiming_cascade (f := fun env _ => t.reselect env) (frame.nextTick.trans tick), reselect_refs _ t, frame.settings, frame.forced,
    reselect_settled s.timingEnv t⟩

/-! ### SET-REF -/

theorem NominalRate.ofCode_eq_none_iff {b : Byte} : NominalRate.ofCode b = none ↔ 2 < b.toNat := by
  unfold NominalRate.ofCode
  have at_ : ∀ n : Nat, n < 256 → (b = BitVec.ofNat 8 n ↔ b.toNat = n) := fun n lt => by
    rw [BitVec.toNat_eq, BitVec.toNat_ofNat, Nat.mod_eq_of_lt lt]
  simp only [show (0 : Byte) = BitVec.ofNat 8 0 from rfl, show (1 : Byte) = BitVec.ofNat 8 1 from rfl,
    show (2 : Byte) = BitVec.ofNat 8 2 from rfl, at_ 0 (by decide), at_ 1 (by decide), at_ 2 (by decide)]
  split
  · simp; omega
  · split
    · simp; omega
    · split
      · simp; omega
      · simp; omega

theorem NominalRate.ofCode_code {b : Byte} {rate : NominalRate} (h : NominalRate.ofCode b = some rate) : rate.code = b.toNat := by
  unfold NominalRate.ofCode at h
  split at h
  · next e => cases h; rw [e]; rfl
  · split at h
    · next e => cases h; rw [e]; rfl
    · split at h
      · next e => cases h; rw [e]; rfl
      · cases h

section
variable {refs : Vector Ref 6} {payload : List Byte}

theorem bindingArg_eq_none_iff : bindingArg payload = none ↔ 1 < (byteAt payload 3).toNat
    ∨ ((byteAt payload 3).toNat = 0 ∧ 32 ≤ (byteAt payload 4).toNat)
    ∨ ((byteAt payload 3).toNat = 1 ∧ (12 ≤ (byteAt payload 4).toNat ∨ (byteAt payload 5).toNat < 1 ∨ 7 < (byteAt payload 5).toNat)) := by
  unfold bindingArg
  split
  · next h =>
    obtain ⟨low, zero⟩ := flagOf_eq_some_iff.mp h
    have := of_decide_eq_false zero.symm
    rw [Option.map_eq_none_iff, finOf_eq_none_iff]
    omega
  · next h =>
    obtain ⟨low, one⟩ := flagOf_eq_some_iff.mp h
    have := of_decide_eq_true one.symm
    split
    · next g hg =>
      have := finOf_eq_some_iff.mp hg
      have := g.isLt
      split
      · simp only [reduceCtorEq, false_iff]; omega
      · simp only [true_iff]; omega
    · next hg =>
      have := finOf_eq_none_iff.mp hg
      simp only [true_iff]; omega
  · next h =>
    have := flagOf_eq_none_iff.mp h
    simp only [true_iff]; omega

theorem bindingArg_some {binding : Binding} (h : bindingArg payload = some binding) :
    ((byteAt payload 3).toNat = 0 → ∃ p : PortId, binding = .port p ∧ p.val = (byteAt payload 4).toNat)
      ∧ ((byteAt payload 3).toNat = 1 → ∃ g : GroupId, binding = .member g (byteAt payload 5).toNat ∧ g.val = (byteAt payload 4).toNat) := by
  unfold bindingArg at h
  split at h
  · next flag =>
    obtain ⟨low, zero⟩ := flagOf_eq_some_iff.mp flag
    have := of_decide_eq_false zero.symm
    obtain ⟨p, hp, rfl⟩ := Option.map_eq_some_iff.mp h
    exact ⟨fun _ => ⟨p, rfl, (finOf_eq_some_iff.mp hp).symm⟩, fun one => absurd one this⟩
  · next flag =>
    obtain ⟨low, one⟩ := flagOf_eq_some_iff.mp flag
    have := of_decide_eq_true one.symm
    split at h
    · next g hg =>
      split at h
      · cases h
        exact ⟨fun zero => by omega, fun _ => ⟨g, rfl, (finOf_eq_some_iff.mp hg).symm⟩⟩
      · cases h
    · cases h
  · cases h

variable {r : RefId} {enabled : Bool} (index : finOf 6 (byteAt payload 0) = some r) (flag : flagOf (byteAt payload 1) = some enabled)
include index flag

theorem setRefArgs_office (office : r.val < 2) : setRefArgs refs payload = (NominalRate.ofCode (byteAt payload 2)).map fun rate =>
    (r, ⟨enabled, rate, refs[r].binding, clampNat 1 6 (byteAt payload 6).toNat, clampNat 1 15 (byteAt payload 7).toNat⟩) := by
  unfold setRefArgs isOffice
  rw [index, flag]
  dsimp only
  rw [if_pos (decide_eq_true office)]
  cases NominalRate.ofCode (byteAt payload 2) <;> rfl

theorem setRefArgs_line (line : 2 ≤ r.val) : setRefArgs refs payload = (bindingArg payload).map fun binding =>
    (r, ⟨enabled, refs[r].rate, binding, clampNat 1 6 (byteAt payload 6).toNat, refs[r].provisioned⟩) := by
  unfold setRefArgs isOffice
  rw [index, flag]
  dsimp only
  rw [if_neg (by simpa using Nat.not_lt.mpr line)]
  cases bindingArg payload <;> rfl

end

section
variable {refs : Vector Ref 6} {payload : List Byte}

theorem setRefArgs_indexed : (∃ r enabled, finOf 6 (byteAt payload 0) = some r ∧ flagOf (byteAt payload 1) = some enabled)
    ∨ ((6 ≤ (byteAt payload 0).toNat ∨ 1 < (byteAt payload 1).toNat) ∧ setRefArgs refs payload = none) := by
  unfold setRefArgs
  rcases index : finOf 6 (byteAt payload 0) with _ | r
  · exact .inr ⟨.inl (finOf_eq_none_iff.mp index), rfl⟩
  · rcases flag : flagOf (byteAt payload 1) with _ | enabled
    · exact .inr ⟨.inr (flagOf_eq_none_iff.mp flag), rfl⟩
    · exact .inl ⟨r, enabled, rfl, rfl⟩

theorem setRefArgs_eq_none_iff : setRefArgs refs payload = none ↔
    6 ≤ (byteAt payload 0).toNat ∨ 1 < (byteAt payload 1).toNat ∨ ((byteAt payload 0).toNat < 2 ∧ 2 < (byteAt payload 2).toNat)
      ∨ (2 ≤ (byteAt payload 0).toNat ∧ (1 < (byteAt payload 3).toNat ∨ ((byteAt payload 3).toNat = 0 ∧ 32 ≤ (byteAt payload 4).toNat)
        ∨ ((byteAt payload 3).toNat = 1 ∧ (12 ≤ (byteAt payload 4).toNat ∨ (byteAt payload 5).toNat < 1 ∨ 7 < (byteAt payload 5).toNat)))) := by
  rcases setRefArgs_indexed (refs := refs) (payload := payload) with ⟨r, enabled, index, flag⟩ | ⟨bad, none⟩
  · have at_ := finOf_eq_some_iff.mp index
    have lt := r.isLt
    have low := (flagOf_eq_some_iff.mp flag).1
    by_cases office : r.val < 2
    · rw [setRefArgs_office index flag office, Option.map_eq_none_iff, NominalRate.ofCode_eq_none_iff]
      omega
    · rw [setRefArgs_line index flag (by omega), Option.map_eq_none_iff, bindingArg_eq_none_iff]
      omega
  · rw [none]
    simp only [true_iff]
    omega

theorem setRefArgs_some {r : RefId} {c : RefConfig} (h : setRefArgs refs payload = some (r, c)) :
    r.val = (byteAt payload 0).toNat ∧ c.enabled = decide ((byteAt payload 1).toNat = 1) ∧ c.priority = max 1 (min 6 (byteAt payload 6).toNat)
      ∧ (r.val < 2 → c.rate.code = (byteAt payload 2).toNat ∧ c.provisioned = max 1 (min 15 (byteAt payload 7).toNat)
          ∧ c.binding = refs[r].binding)
      ∧ (2 ≤ r.val → c.rate = refs[r].rate ∧ c.provisioned = refs[r].provisioned
          ∧ ((byteAt payload 3).toNat = 0 → ∃ p : PortId, c.binding = .port p ∧ p.val = (byteAt payload 4).toNat)
          ∧ ((byteAt payload 3).toNat = 1 → ∃ g : GroupId, c.binding = .member g (byteAt payload 5).toNat
              ∧ g.val = (byteAt payload 4).toNat)) := by
  rcases setRefArgs_indexed (refs := refs) (payload := payload) with ⟨x, enabled, index, flag⟩ | ⟨_, none⟩
  · have at_ := finOf_eq_some_iff.mp index
    have one := (flagOf_eq_some_iff.mp flag).2
    by_cases office : x.val < 2
    · rw [setRefArgs_office index flag office] at h
      obtain ⟨rate, code, made⟩ := Option.map_eq_some_iff.mp h
      cases made
      exact ⟨at_.symm, one, rfl, fun _ => ⟨NominalRate.ofCode_code code, rfl, rfl⟩, fun line => by omega⟩
    · rw [setRefArgs_line index flag (by omega)] at h
      obtain ⟨binding, bound, made⟩ := Option.map_eq_some_iff.mp h
      cases made
      exact ⟨at_.symm, one, rfl, fun yes => absurd yes office, fun _ => ⟨rfl, rfl, bindingArg_some bound⟩⟩
  · rw [none] at h
    cases h

end

theorem exec_setRef {l : LinkId} {tag : Byte} {payload : List Byte} {s : State} (length : payload.length = 8) :
    exec (.setRef l tag payload) s = .next (request l tag 0x30 true true (setRef payload) s) := by
  show Host.Outcome.next (request l tag 0x30 (decide (payload.length = 8)) true (setRef payload) s) = _
  rw [decide_eq_true length]

/-- Settles O39: the configuration, the selection after it, and the decode. -/
theorem setRefConfiguresReference : Obligations.SetRefConfiguresReference := by
  unfold Obligations.SetRefConfiguresReference
  refine ⟨fun l tag payload s ready length => ⟨fun none => ?_, fun r c args => ?_⟩, fun refs payload =>
    ⟨setRefArgs_eq_none_iff, fun r c args => setRefArgs_some args⟩⟩
  · rw [exec_setRef length]
    refine congrArg _ (request_answers ready tag 0x30 ?_)
    unfold setRef
    rw [show (taken l tag 0x30 s).timing.refs = s.timing.refs from rfl, none]
    rfl
  · have priority := (setRefArgs_some args).2.2.1
    refine ⟨by omega, by omega, ?_⟩
    let env := (taken l tag 0x30 s).timingEnv
    obtain ⟨cascade, refs, settings, forced, selected⟩ := reselected (taken l tag 0x30 s)
      { s.timing with refs := upd s.timing.refs r (Ref.configure env r c) } rfl
    refine ⟨_, ?_, cascade, fun q ne => ?_, settings, forced, selected, ?_⟩
    · rw [exec_setRef length]
      refine congrArg _ (request_accepts ready tag 0x30 ?_)
      unfold setRef
      rw [show (taken l tag 0x30 s).timing.refs = s.timing.refs from rfl, args]
      rfl
    · rw [refs]
      exact upd_get_other _ ne _
    · intro old source
      rw [refs]
      refine (upd_get_self _ r _).trans ?_
      have sourced : (if isOffice r then none else derivedSource env.sw c.binding) = source := by
        unfold isOffice
        simp only [decide_eq_true_eq]
        rfl
      unfold Ref.configure Ref.restart Ref.clearMeasures
      cases he : c.enabled
      · rw [if_neg Bool.false_ne_true, if_neg Bool.false_ne_true]
      · rw [if_pos rfl, if_pos rfl]
        dsimp only
        rw [sourced]
        rfl

/-! ### SET-TIMING -/

theorem TimingMode.ofCode_eq (b : Byte) : TimingMode.ofCode b =
    if 1 < b.toNat then none else some (if b.toNat = 0 then .quality else .priority) := by
  unfold TimingMode.ofCode
  by_cases zero : b = 0
  · subst zero
    rfl
  · by_cases one : b = 1
    · subst one
      rfl
    · have two : 1 < b.toNat := by
        rw [BitVec.toNat_eq] at zero one
        have : (0 : Byte).toNat = 0 := rfl
        have : (1 : Byte).toNat = 1 := rfl
        omega
      rw [if_neg zero, if_neg one, if_pos two]

section
variable {payload : List Byte}

theorem setTimingArgs_eq : setTimingArgs payload =
    if 1 < (byteAt payload 10).toNat ∨ 1 < (byteAt payload 11).toNat then none
    else some {
      accept := clampNat 1000 100000 (u24 (byteAt payload 0) (byteAt payload 1) (byteAt payload 2))
      requalifySoak := clampNat 0 600 (wordAt payload 3), acquireTime := clampNat 10 300 (wordAt payload 5)
      holdoverLimit := clampNat 1 72 (byteAt payload 7).toNat, slew := clampNat 10 10000 (wordAt payload 8)
      mode := if (byteAt payload 10).toNat = 0 then .quality else .priority, revertive := decide ((byteAt payload 11).toNat = 1)
      holdoverQuality := clampNat 1 15 (byteAt payload 12).toNat, freeRunQuality := clampNat 1 15 (byteAt payload 13).toNat } := by
  unfold setTimingArgs
  rw [TimingMode.ofCode_eq, flagOf_eq]
  by_cases mode : 1 < (byteAt payload 10).toNat
  · simp only [mode, if_true, true_or]
  · by_cases flag : 1 < (byteAt payload 11).toNat
    · simp only [mode, flag, if_true, or_true, if_false]
    · simp only [mode, flag, if_false, or_self]

theorem setTimingArgs_eq_none_iff : setTimingArgs payload = none ↔ 1 < (byteAt payload 10).toNat ∨ 1 < (byteAt payload 11).toNat := by
  rw [setTimingArgs_eq]
  split
  · next h => exact iff_of_true rfl h
  · next h => exact iff_of_false nofun h

end

/-- The common code that `giveOut` gives, where a reference is selected and its state goes by it (R131). -/
theorem giveOut_codes_selected {t : Timing} {r : RefId} (selected : t.selected = some r) (state : t.state = .acquiring ∨ t.state = .locked)
    (p : PortId) : t.giveOut.codes[p] =
      if r.val < 2 then t.refs[r].provisioned else if t.refs[r].source = some p then 15 else t.refs[r].received := by
  have quality : t.refs[r].quality r = if r.val < 2 then t.refs[r].provisioned else t.refs[r].received := by
    unfold Ref.quality isOffice
    simp only [decide_eq_true_eq]
  have common : t.giveOut.codes[p] =
      if (if isOffice r then none else t.refs[r].source) = some p then 15 else t.refs[r].quality r := by
    unfold Timing.giveOut
    rw [selected]
    dsimp only
    rw [tab_get]
    rcases state with e | e <;> rw [e] <;> rfl
  rw [common, quality]
  unfold isOffice
  by_cases office : r.val < 2
  · simp only [office, decide_true, if_true, reduceCtorEq, if_false]
  · simp only [office, decide_false, Bool.false_eq_true, if_false]

theorem giveOut_codes_unselected {t : Timing} (selected : t.selected = none) (p : PortId) :
    t.giveOut.codes[p] = if t.state = .holdover then t.settings.holdoverQuality else t.settings.freeRunQuality := by
  unfold Timing.giveOut
  rw [selected]
  dsimp only
  rw [tab_get]
  cases t.state <;> rfl

theorem exec_setTiming {l : LinkId} {tag : Byte} {payload : List Byte} {s : State} (length : payload.length = 14) :
    exec (.setTiming l tag payload) s = .next (request l tag 0x32 true true (setTiming payload) s) := by
  show Host.Outcome.next (request l tag 0x32 (decide (payload.length = 14)) true (setTiming payload) s) = _
  rw [decide_eq_true length]

/-- Settles O40: the settings, the selection and the codes after them, and the decode. -/
theorem setTimingReplacesSettings : Obligations.SetTimingReplacesSettings := by
  unfold Obligations.SetTimingReplacesSettings
  have decode : ∀ (payload : List Byte) set, setTimingArgs payload = some set → _ := fun payload set h => by
    rw [setTimingArgs_eq] at h
    split at h
    · cases h
    · exact (Option.some.inj h).symm
  refine ⟨fun l tag payload s ready length => ⟨fun none => ?_, fun set args => ?_⟩, fun payload => ?_⟩
  · rw [exec_setTiming length]
    refine congrArg _ (request_answers ready tag 0x32 ?_)
    unfold setTiming
    rw [none]
    rfl
  · have ranges : 1000 ≤ set.accept ∧ set.accept ≤ 100000 ∧ set.requalifySoak ≤ 600 ∧ 10 ≤ set.acquireTime ∧ set.acquireTime ≤ 300
        ∧ 1 ≤ set.holdoverLimit ∧ set.holdoverLimit ≤ 72 ∧ 10 ≤ set.slew ∧ set.slew ≤ 10000
        ∧ 1 ≤ set.holdoverQuality ∧ set.holdoverQuality ≤ 15 ∧ 1 ≤ set.freeRunQuality ∧ set.freeRunQuality ≤ 15 := by
      rw [decode payload set args]
      simp only [clampNat]
      omega
    obtain ⟨cascade, refs, settings, forced, selected⟩ := reselected (taken l tag 0x32 s) { s.timing with settings := set } rfl
    obtain ⟨a1, a2, a3, a4, a5, a6, a7, a8, a9, a10, a11, a12, a13⟩ := ranges
    refine ⟨a1, a2, a3, a4, a5, a6, a7, a8, a9, a10, a11, a12, a13, _, ?_, cascade, settings, refs, forced, selected,
      fun p r sel state => ?_, fun p sel => ?_⟩
    · rw [exec_setTiming length]
      refine congrArg _ (request_accepts ready tag 0x32 ?_)
      unfold setTiming
      rw [args]
      rfl
    · rw [reselect_codes, giveOut_codes_selected sel state, refs]
    · rw [reselect_codes, giveOut_codes_unselected sel, settings]
  · intro b word
    refine ⟨setTimingArgs_eq_none_iff, fun set args => (decode payload set args).trans ?_⟩
    have words : ∀ i, wordAt payload i = word i := fun i => by
      show (byteAt payload i).toNat * 256 + (byteAt payload (i + 1)).toNat = 256 * (byteAt payload i).toNat + (byteAt payload (i + 1)).toNat
      rw [Nat.mul_comm]
    have long : u24 (byteAt payload 0) (byteAt payload 1) (byteAt payload 2) = 65536 * b 0 + 256 * b 1 + b 2 := by
      show ((b 0) * 256 + b 1) * 256 + b 2 = _
      omega
    rw [words, words, words, long, clampNat_zero]
    rfl

/-! ### TIMING-REQUEST -/

theorem exec_timingRequests {l : LinkId} {tag b action : Byte} {s : State} {i : Instr}
    (mem : i ∈ [Instr.forceRef l tag [action, b], .clearForce l tag [action, b], .lockout l tag [action, b], .unlock l tag [action, b]]) :
    exec i s = .next (request l tag 0x33 true true (timingRequest [action, b]) s) := by
  simp only [List.mem_cons, List.not_mem_nil, or_false] at mem
  rcases mem with rfl | rfl | rfl | rfl <;> rfl

theorem timingRequest_runs {l : LinkId} {tag : Byte} {payload : List Byte} {s : State} {a : TimingAction} (ready : MasterReady l s)
    (args : timingRequestArgs payload = some a) (free : timingConflict s.timing a = false) (tick : (s.timing.act a).nextTick = s.timing.nextTick) :
    ∃ u, request l tag 0x33 true true (timingRequest payload) s = accepts l (0 :: timingRequestBytes u.timing) u
      ∧ TimingCascade (taken l tag 0x33 s) u ∧ u.timing.settings = (s.timing.act a).settings
      ∧ u.timing.selected = u.timing.selection s.ports ∧ u.timing.forced = (s.timing.act a).forced
      ∧ u.timing.refs = (s.timing.act a).refs := by
  obtain ⟨cascade, refs, settings, forced, selected⟩ := reselected (taken l tag 0x33 s) (s.timing.act a) tick
  refine ⟨_, request_accepts ready tag 0x33 ?_, cascade, settings, selected, forced, refs⟩
  unfold timingRequest
  rw [args]
  dsimp only
  rw [show timingConflict (taken l tag 0x33 s).timing a = false from free, if_neg Bool.false_ne_true]
  rfl

theorem timingRequest_conflicts {l : LinkId} {tag : Byte} {payload : List Byte} {s : State} {a : TimingAction} (ready : MasterReady l s)
    (args : timingRequestArgs payload = some a) (conflict : timingConflict s.timing a = true) :
    request l tag 0x33 true true (timingRequest payload) s = replied l tag 0x33 [9] s := by
  refine request_answers ready tag 0x33 ?_
  unfold timingRequest
  rw [args]
  exact if_pos conflict

theorem timingRequestArgs_indexed {r : RefId} : timingRequestArgs [0, byteOf r.val] = some (.force r)
    ∧ timingRequestArgs [2, byteOf r.val] = some (.lockout r) ∧ timingRequestArgs [3, byteOf r.val] = some (.unlock r) := by
  have index : finOf 6 (byteOf r.val) = some r := finOf_byteOf (by decide) r
  refine ⟨?_, ?_, ?_⟩
  all_goals
    show (finOf 6 (byteOf r.val)).map _ = _
    rw [index]
    rfl

theorem timingRequestArgs_bad {action b : Byte} (bad : 3 < action.toNat ∨ (action.toNat ≠ 1 ∧ 6 ≤ b.toNat)) :
    timingRequestArgs [action, b] = none := by
  unfold timingRequestArgs
  have index : 6 ≤ b.toNat → finOf 6 (byteAt [action, b] 1) = none := fun h => finOf_eq_none_iff.mpr h
  show (match action.toNat with | 0 => _ | 1 => _ | 2 => _ | 3 => _ | _ => _) = _
  generalize action.toNat = n at bad
  rcases bad with beyond | ⟨named, outside⟩
  · match n, beyond with
    | n + 4, _ => rfl
  · rw [index outside]
    match n, named with
    | 0, _ => rfl
    | 2, _ => rfl
    | 3, _ => rfl
    | n + 4, _ => rfl

/-- Settles O41: each action as a change of the force or of one flag with the selection after it, and the refusals. -/
theorem timingRequestsSteerSelection : Obligations.TimingRequestsSteerSelection := by
  unfold Obligations.TimingRequestsSteerSelection
  intro l tag b r s ready runs
  obtain ⟨force, lockout, unlock⟩ := timingRequestArgs_indexed (r := r)
  have accepted : ∀ {payload : List Byte} {a : TimingAction}, timingRequestArgs payload = some a → timingConflict s.timing a = false →
      (s.timing.act a).nextTick = s.timing.nextTick → (s.timing.act a).settings = s.timing.settings → ∀ i : Instr,
      exec i s = .next (request l tag 0x33 true true (timingRequest payload) s) →
      runs i fun t => t.forced = (s.timing.act a).forced ∧ t.refs = (s.timing.act a).refs :=
    fun args free tick settings i row => by
      obtain ⟨u, made, cascade, set, selected, result⟩ := timingRequest_runs ready args free tick
      exact ⟨u, row.trans (congrArg _ made), cascade, set.trans settings, selected, result⟩
  refine ⟨fun open_ => ?_, fun locked => ?_, ?_, fun other => ?_, fun forced => ?_, ?_, fun action bad i mem => ?_⟩
  · exact accepted force open_ rfl rfl _ rfl
  · exact congrArg Host.Outcome.next (timingRequest_conflicts ready force locked)
  · exact accepted (payload := [1, b]) (a := .clearForce) rfl rfl rfl rfl _ rfl
  · exact accepted lockout (decide_eq_false other) rfl rfl _ rfl
  · exact congrArg Host.Outcome.next (timingRequest_conflicts ready lockout (decide_eq_true forced))
  · exact accepted unlock rfl rfl rfl _ rfl
  · rw [exec_timingRequests mem]
    refine congrArg _ (request_answers ready tag 0x33 ?_)
    unfold timingRequest
    rw [timingRequestArgs_bad bad]
    rfl

end Sys2Proof.Machine
end

section
/-! Edges, measurements and qualification of a reference, and what a line reference takes from its source port (R113 to R121). -/

namespace Sys2Proof.Machine

/-! ### One reference changed by its own event -/

/-- The event of one reference: the references as they are left, and the selection after it. -/
theorem ref_event (s at_ : State) {r : RefId} {refs : Vector Ref 6} (only : ∀ q : RefId, q ≠ r → refs[q] = s.timing.refs[q])
    (timing : at_.timing = s.timing) (ports : at_.ports = s.ports) :
    let u : State := { at_ with timing := ({ s.timing with refs := refs }).reselect at_.timingEnv }
    TimingCascade at_ u ∧ OnlyRef r s.timing u.timing ∧ u.timing.settings = s.timing.settings ∧ u.timing.forced = s.timing.forced
      ∧ u.timing.selected = u.timing.selection s.ports ∧ u.timing.refs[r] = refs[r] := by
  intro u
  obtain ⟨cascade, made, settings, forced, selected⟩ := reselected at_ { s.timing with refs := refs } (by rw [timing])
  have at_r : u.timing.refs = refs := made
  exact ⟨cascade, fun q ne => by rw [at_r]; exact only q ne, settings, forced, ports ▸ selected, by rw [at_r]⟩

theorem exec_referenceEdge {r : RefId} {s : State} (enabled : s.timing.refs[r].enabled = true) : exec (.referenceEdge r) s =
    .next (finish .none { s with
      timing := ({ s.timing with refs := upd s.timing.refs r (Ref.edge s.timingEnv r) }).reselect s.timingEnv }) :=
  congrArg Host.Outcome.next (if_pos enabled)

theorem exec_edgeTimerExpiry {r : RefId} {s : State} {due : Nat} (timer : s.timing.refs[r].edgeTimer = some due) :
    exec (.edgeTimerExpiry r) s = .next (finish .none { s.reach due with
      timing := ({ s.timing with refs := upd s.timing.refs r fun x => { x.fail with edgeTimer := none } }).reselect (s.reach due).timingEnv }) := by
  show Host.Outcome.next _ = _
  rw [timer]
  rfl

theorem exec_measurementEnd {r : RefId} {s : State} {count : Nat} (measuring : s.timing.refs[r].measuring.isSome) (low : count ≤ 20002000) :
    exec (.measurementEnd r count) s = .next (finish .none { s with
      timing := ({ s.timing with
        refs := upd (upd s.timing.refs r fun x => { x with edgeTimer := some (s.now + 500) }) r fun x =>
          ({ x.takeSample (sampleOf count) with measuring := some 0 }).judge s.timing.settings s.now (sampleOf count) }).reselect
            s.timingEnv }) :=
  congrArg Host.Outcome.next (if_pos ⟨measuring, Nat.lt_succ_of_le low⟩)

theorem exec_measurementEarlyEnd {r : RefId} {s : State} (measuring : s.timing.refs[r].measuring.isSome) :
    exec (.measurementEarlyEnd r) s = .next (finish .none { s with
      timing := ({ s.timing with
        refs := upd s.timing.refs r fun x =>
          ({ x.takeSample earlySample with measuring := none }).judge s.timing.settings s.now earlySample }).reselect s.timingEnv }) :=
  congrArg Host.Outcome.next (if_pos measuring)

/-! ### The qualification judged (R121) -/

/-- Whether the average lies within a limit. -/
def Ref.within (x : Ref) (limit : Nat) : Prop := ∃ a, x.average = some a ∧ a.natAbs ≤ limit

/-- Whether a sample, or the average, rejects a reference (R121). -/
def Ref.spoiled (accept : Nat) (smp : Sample) (x : Ref) : Prop :=
  (smp.outOfRange = true ∨ 2 * accept < smp.ppb.natAbs) ∨ ∃ a, x.average = some a ∧ accept < a.natAbs

section
variable {set : TimingSettings} {now : Nat} {smp : Sample} {x : Ref}

theorem Sample.rejecting_iff (accept : Nat) (smp : Sample) :
    smp.rejecting accept = true ↔ smp.outOfRange = true ∨ 2 * accept < smp.ppb.natAbs := by
  unfold Sample.rejecting
  simp only [Bool.or_eq_true, decide_eq_true_eq]

theorem within_iff (x : Ref) (limit : Nat) : x.average.any (fun a => decide (a.natAbs ≤ limit)) = true ↔ x.within limit := by
  unfold Ref.within
  simp only [Option.any_eq_true, decide_eq_true_eq]

/-- A soak started (R121). -/
def Soaks (set : TimingSettings) (now : Nat) (new : Ref) : Prop :=
  if set.requalifySoak = 0 then new.state = .qualified ∧ new.soakTimer = none
  else new.state = .soaking ∧ new.soakTimer = some (now + set.requalifySoak * 1000000)

theorem startSoak_soaks (set : TimingSettings) (now : Nat) (x : Ref) : Soaks set now (x.startSoak set now) := by
  unfold Soaks Ref.startSoak
  split <;> exact ⟨rfl, rfl⟩

/-- A judgement changes state and soak timer alone. -/
theorem judge_frame (set : TimingSettings) (now : Nat) (smp : Sample) (x : Ref) : x.judge set now smp = { x with
    state := (x.judge set now smp).state, soakTimer := (x.judge set now smp).soakTimer } := by
  unfold Ref.judge Ref.startSoak
  dsimp only
  repeat' split
  all_goals rfl

/-- The limit within which the average of a reference out of service starts its soak (R121). -/
def Ref.soakLimit (set : TimingSettings) (x : Ref) : Nat := if x.state = .rejected then set.accept * 3 / 4 else set.accept

theorem judge_out (out : x.state = .unqualified ∨ x.state = .rejected) : x.judge set now smp =
    if x.average.any (fun a => decide (a.natAbs ≤ x.soakLimit set)) && !smp.rejecting set.accept then x.startSoak set now else x := by
  unfold Ref.judge Ref.soakLimit
  rcases out with e | e <;> rw [e] <;> rfl

theorem judge_starts (out : x.state = .unqualified ∨ x.state = .rejected) (near : x.within (x.soakLimit set))
    (good : ¬ (smp.outOfRange = true ∨ 2 * set.accept < smp.ppb.natAbs)) : Soaks set now (x.judge set now smp) := by
  rw [judge_out out, if_pos]
  · exact startSoak_soaks set now x
  · rw [Bool.and_eq_true, within_iff, Bool.not_eq_true', ← Bool.not_eq_true, Sample.rejecting_iff]
    exact ⟨near, good⟩

theorem judge_waits (out : x.state = .unqualified ∨ x.state = .rejected)
    (no : ¬ (x.within (x.soakLimit set) ∧ ¬ (smp.outOfRange = true ∨ 2 * set.accept < smp.ppb.natAbs))) : x.judge set now smp = x := by
  rw [judge_out out, if_neg]
  rw [Bool.and_eq_true, within_iff, Bool.not_eq_true', ← Bool.not_eq_true, Sample.rejecting_iff]
  exact no

theorem judge_in (in_ : x.state = .soaking ∨ x.state = .qualified) : x.judge set now smp =
    if x.average.any (fun a => decide (set.accept < a.natAbs)) || smp.rejecting set.accept then
      { x with state := .rejected, soakTimer := none } else x := by
  unfold Ref.judge
  rcases in_ with e | e <;> rw [e]

theorem spoiled_iff (accept : Nat) (smp : Sample) (x : Ref) :
    (x.average.any (fun a => decide (accept < a.natAbs)) || smp.rejecting accept) = true ↔ x.spoiled accept smp := by
  unfold Ref.spoiled
  rw [Bool.or_eq_true, Sample.rejecting_iff]
  simp only [Option.any_eq_true, decide_eq_true_eq]
  exact or_comm

end

/-- The sample of a measurement that ends with a count (R119). -/
theorem sampleOf_eq (count : Nat) :
    let d : Int := 20000000 - count
    sampleOf count = if d.natAbs ≤ 2000 then ⟨50 * d, false⟩ else if 0 < d then ⟨100000, true⟩ else ⟨-100000, true⟩ := by
  intro d
  show (if 2000 < d.natAbs then (⟨if 0 < d then 100000 else -100000, true⟩ : Sample) else ⟨d * 50, false⟩) = _
  by_cases near : d.natAbs ≤ 2000
  · rw [if_neg (Nat.not_lt.mpr near), if_pos near, Int.mul_comm]
  · rw [if_pos (Nat.not_le.mp near), if_neg near]
    split <;> rfl

/-! ### Source, quality and health (R113, R116) -/

section
variable {env : TimingEnv} {r : RefId}

theorem receivedQuality_eq (ports : Vector Port 32) (source : Option PortId) : receivedQuality ports source =
    match source.bind (fun p => if ports[p].cfg.enabled then ports[p].accQuality else none) with
    | none => 15
    | some q => if q = 0 then 15 else q := by
  unfold receivedQuality
  cases source with
  | none => rfl
  | some p =>
    rw [Option.bind_some]
    dsimp only
    split
    · rfl
    · rfl

theorem sourceHealthy_line (ports : Vector Port 32) (line : 2 ≤ r.val) (source : Option PortId) : sourceHealthy ports r source =
    source.any fun p => ports[p].cfg.enabled && decide (ports[p].raw ≠ .fail) := by
  unfold sourceHealthy isOffice
  rw [if_neg (by simpa using Nat.not_lt.mpr line)]
  cases source <;> rfl

theorem modRefs_ref (env : TimingEnv) (f : RefId → Ref → Ref) (t : Timing) (r : RefId) : (t.modRefs env f).refs[r] = f r t.refs[r] := by
  unfold Timing.modRefs
  rw [reselect_refs]
  exact tab_get _ r

end

/-- Whether a line reference of a group's member has another source port than the one it follows (R113, R114). -/
def Ref.movesSource (sw : Switching) (r : RefId) (x : Ref) : Prop :=
  (x.enabled = true ∧ 2 ≤ r.val) ∧ (∃ g m, x.binding = .member g m) ∧ derivedSource sw x.binding ≠ x.source

section
variable {env : TimingEnv} {t : Timing} {r : RefId}

theorem isOffice_eq_false_iff : isOffice r = false ↔ 2 ≤ r.val := by
  unfold isOffice
  rw [decide_eq_false_iff_not, Nat.not_lt]

/-- What `followSelectors` takes as a moved source. -/
theorem movesSource_iff (sw : Switching) (r : RefId) (x : Ref) : x.movesSource sw r ↔
    (match x.binding with
      | .member _ _ => x.enabled && !isOffice r && decide (derivedSource sw x.binding ≠ x.source)
      | .port _ => false) = true := by
  unfold Ref.movesSource
  rcases hb : x.binding with p | ⟨g, m⟩
  · exact iff_of_false (fun h => by obtain ⟨_, ⟨_, _, e⟩, _⟩ := h; cases e) nofun
  · simp only [Bool.and_eq_true, Bool.not_eq_true', decide_eq_true_eq, isOffice_eq_false_iff]
    exact ⟨fun h => ⟨h.1, h.2.2⟩, fun h => ⟨h.1, ⟨g, m, rfl⟩, h.2⟩⟩

theorem followSelectors_ref (env : TimingEnv) (t : Timing) (r : RefId) :
    (t.refs[r].movesSource env.sw r →
        (t.followSelectors env).refs[r] = t.refs[r].follow env r (derivedSource env.sw t.refs[r].binding))
      ∧ (¬ t.refs[r].movesSource env.sw r → (t.followSelectors env).refs[r] = t.refs[r]) := by
  rw [movesSource_iff]
  unfold Timing.followSelectors
  dsimp only
  refine ⟨fun moves => ?_, fun stays => ?_⟩
  · rw [if_pos (List.any_eq_true.mpr ⟨r, List.mem_finRange r, moves⟩), modRefs_ref]
    exact if_pos moves
  · split
    · rw [modRefs_ref]
      exact if_neg stays
    · rfl

theorem regroup_ref (env : TimingEnv) (g : GroupId) (t : Timing) (r : RefId) :
    (∀ m, t.refs[r].binding = .member g m → t.refs[r].movesSource env.sw r →
        (t.regroup env g).refs[r] = t.refs[r].regroup env r (derivedSource env.sw t.refs[r].binding))
      ∧ ((∀ m, t.refs[r].binding ≠ .member g m) ∨ ¬ t.refs[r].movesSource env.sw r → (t.regroup env g).refs[r] = t.refs[r]) := by
  unfold Timing.regroup
  rw [modRefs_ref]
  generalize t.refs[r] = x
  rcases hb : x.binding with p | ⟨h, k⟩
  · exact ⟨fun m e => (nomatch e), fun _ => rfl⟩
  · dsimp only
    refine ⟨fun m e moves => ?_, fun no => ?_⟩
    · obtain ⟨⟨enabled, line⟩, -, differs⟩ := moves
      cases e
      rw [if_pos ⟨enabled, isOffice_eq_false_iff.mpr line, rfl, hb ▸ differs⟩]
    · refine if_neg fun ⟨enabled, line, same, differs⟩ => ?_
      rcases no with other | stays
      · exact other k (by rw [same])
      · exact stays ⟨⟨enabled, isOffice_eq_false_iff.mp line⟩, ⟨h, k, hb⟩, hb ▸ differs⟩

end

/-- Settles O43: the events of one reference, and the source port that a line reference follows. -/
theorem edgesAndSamplesQualify : Obligations.EdgesAndSamplesQualify := by
  unfold Obligations.EdgesAndSamplesQualify
  refine ⟨fun r s => ?_, fun env t r => ?_⟩
  · intro old set runs sampled
    have judged : ∀ {given smp : Sample} (_ : smp = given) (edge next : Option Nat),
        sampled given (Ref.judge set s.now smp { ({ old with edgeTimer := edge } : Ref).takeSample smp with measuring := next }) := by
      rintro given smp rfl edge next
      let y : Ref := { ({ old with edgeTimer := edge } : Ref).takeSample smp with measuring := next }
      have unqualified : old.state = .unqualified → y.soakLimit set = set.accept := fun e =>
        if_neg (by rw [show y.state = .unqualified from e]; decide)
      have rejected : old.state = .rejected → y.soakLimit set = set.accept * 3 / 4 := fun e => if_pos e
      have same : Ref.judge set s.now smp y = y → (Ref.judge set s.now smp y).state = old.state
          ∧ (Ref.judge set s.now smp y).soakTimer = old.soakTimer := fun e => by
        rw [e]
        exact ⟨rfl, rfl⟩
      refine ⟨?_, fun out h => ?_, fun out h => ?_, fun in_ h => ?_, fun stands => ?_⟩
      · have frame := judge_frame set s.now smp y
        generalize Ref.judge set s.now smp y = new at frame
        rw [frame]
        rfl
      · exact judge_starts (.inl out) (unqualified out ▸ h.1) h.2
      · exact judge_starts (.inr out) (rejected out ▸ h.1) h.2
      · have made := judge_in (set := set) (now := s.now) (smp := smp) (x := y) in_
        rw [if_pos ((spoiled_iff set.accept smp y).mpr h)] at made
        show (Ref.judge set s.now smp y).state = _ ∧ (Ref.judge set s.now smp y).soakTimer = _
        rw [made]
        exact ⟨rfl, rfl⟩
      · rcases stands with ⟨out, no⟩ | ⟨out, no⟩ | ⟨in_, no⟩
        · exact same (judge_waits (.inl out) (unqualified out ▸ no))
        · exact same (judge_waits (.inr out) (rejected out ▸ no))
        · exact same ((judge_in (x := y) in_).trans (if_neg fun h => no ((spoiled_iff set.accept smp y).mp h)))
    have shape : ∀ (smp : Sample) (edge next : Option Nat),
        let new := Ref.judge set s.now smp { ({ old with edgeTimer := edge } : Ref).takeSample smp with measuring := next }
        new.measuring = next ∧ new.edgeTimer = edge := fun smp edge next => by
      intro new
      rw [show new = _ from judge_frame _ _ _ _]
      exact ⟨rfl, rfl⟩
    refine ⟨fun off => ?_, fun on => ?_, fun due timer => ?_, fun count measuring low => ?_, fun measuring => ?_⟩
    · exact congrArg Host.Outcome.next (if_neg (by rw [show s.timing.refs[r].enabled = false from off]; decide))
    · obtain ⟨cascade, only, settings, forced, selected, made⟩ :=
        ref_event s s (r := r) (fun q ne => upd_get_other _ ne (Ref.edge s.timingEnv r)) rfl rfl
      refine ⟨_, exec_referenceEdge on, cascade, only, settings, forced, selected, ?_⟩
      rw [made, upd_get_self]
      refine ⟨fun present => if_pos present, fun lost healthy => ?_, fun lost sick => ?_⟩
      · exact (if_neg (by rw [lost]; decide)).trans (if_pos healthy)
      · exact (if_neg (by rw [lost]; decide)).trans (if_neg (by rw [show sourceHealthy s.timingEnv.ports r old.source = false from sick]; decide))
    · obtain ⟨cascade, only, settings, forced, selected, made⟩ :=
        ref_event s (s.reach due) (r := r) (fun q ne => upd_get_other _ ne fun x : Ref => { x.fail with edgeTimer := none }) rfl rfl
      refine ⟨_, exec_edgeTimerExpiry timer, cascade, only, settings, forced, selected, ?_⟩
      rw [made, upd_get_self]
      unfold Ref.fail
      refine ⟨fun present => ?_, fun lost => ?_⟩
      · rw [if_pos present]
        rfl
      · rw [if_neg (by rw [lost]; decide)]
    · obtain ⟨cascade, only, settings, forced, selected, made⟩ :=
        ref_event s s (r := r) (fun q ne => (upd_get_other _ ne fun x : Ref =>
          ({ x.takeSample (sampleOf count) with measuring := some 0 } : Ref).judge s.timing.settings s.now (sampleOf count)).trans
            (upd_get_other _ ne fun x : Ref => { x with edgeTimer := some (s.now + 500) })) rfl rfl
      refine ⟨_, exec_measurementEnd measuring low, cascade, only, settings, forced, selected, ?_⟩
      rw [made, upd_get_self, upd_get_self]
      exact ⟨judged (sampleOf_eq count) (some (s.now + 500)) (some 0), shape (sampleOf count) (some (s.now + 500)) (some 0)⟩
    · obtain ⟨cascade, only, settings, forced, selected, made⟩ :=
        ref_event s s (r := r) (fun q ne => upd_get_other _ ne fun x : Ref =>
          ({ x.takeSample earlySample with measuring := none } : Ref).judge s.timing.settings s.now earlySample) rfl rfl
      refine ⟨_, exec_measurementEarlyEnd measuring, cascade, only, settings, forced, selected, ?_⟩
      rw [made, upd_get_self]
      exact ⟨judged rfl old.edgeTimer none, shape earlySample old.edgeTimer none⟩
  · intro old follows quality healthy failed source moves
    have received : ∀ p, receivedQuality env.ports p = quality p := fun p => receivedQuality_eq env.ports p
    refine ⟨fun p bound => ?_, fun g m bound => ?_, fun p => ?_, ?_, fun g => ?_⟩
    · show derivedSource env.sw old.binding = some p
      rw [bound]
      rfl
    · have at_ : source = derivedSource env.sw (.member g m) := congrArg (derivedSource env.sw) bound
      rw [at_]
      unfold derivedSource
      dsimp only
      refine ⟨fun none => by rw [none], fun grp hg => ?_⟩
      rw [hg]
      refine ⟨fun outside => if_pos outside, fun low high selected => ?_, fun low high other => ?_⟩
      · exact (if_neg (by omega)).trans (if_pos selected)
      · exact (if_neg (by omega)).trans (if_neg other)
    · intro new
      have made : new = if old.enabled ∧ isOffice r = false ∧ old.source = some p then old.sourceChanged env r else old :=
        modRefs_ref env _ t r
      rw [made]
      refine ⟨fun ⟨⟨enabled, line⟩, from_⟩ => ?_, fun no => if_neg fun ⟨enabled, line, from_⟩ =>
        no ⟨⟨enabled, isOffice_eq_false_iff.mp line⟩, from_⟩⟩
      rw [if_pos ⟨enabled, isOffice_eq_false_iff.mpr line, from_⟩]
      unfold Ref.sourceChanged
      rw [sourceHealthy_line env.ports line, received]
      rfl
    · intro new moved
      obtain ⟨moves_, stays⟩ := followSelectors_ref env t r
      refine ⟨fun h => (moves_ h).trans ?_, fun no => stays no⟩
      unfold Ref.follow
      rw [sourceHealthy_line env.ports h.1.2, received]
      rfl
    · intro new
      obtain ⟨moves_, stays⟩ := regroup_ref env g t r
      refine ⟨fun m bound h => (moves_ m bound h).trans ?_, stays⟩
      unfold Ref.regroup Ref.restart
      rw [isOffice_eq_false_iff.mpr h.1.2]
      simp only [Bool.false_eq_true, if_false]
      rw [sourceHealthy_line env.ports h.1.2, received]
      rfl

end Sys2Proof.Machine
end

section
/-! The timers of the timing unit and the steering line (R121, R126, R128, R129, R188). -/

namespace Sys2Proof.Machine

theorem exec_soakTimerExpiry {r : RefId} {s : State} {due : Nat} (timer : s.timing.refs[r].soakTimer = some due) :
    exec (.soakTimerExpiry r) s = .next (finish .none { s.reach due with
      timing := ({ s.timing with refs := upd s.timing.refs r fun x : Ref =>
        { x with soakTimer := none, state := if x.state = QualState.soaking then .qualified else x.state } }).reselect (s.reach due).timingEnv }) := by
  show Host.Outcome.next _ = _
  rw [timer]
  rfl

theorem exec_holdoverTimerExpiry {s : State} {due : Nat} (timer : s.timing.holdoverTimer = some due) :
    exec .holdoverTimerExpiry s = .next (finish .none (inTiming Timing.endHoldover (s.reach due))) := by
  show Host.Outcome.next _ = _
  rw [timer]

/-- The timing unit as holdover ends, before its update (R128). -/
def Timing.lapsed (t : Timing) : Timing :=
  { t with state := .freeRun, holdoverTimer := none, ready := false, history := [], lockedUpdates := 0 }

theorem Timing.endHoldover_eq (env : TimingEnv) (t : Timing) :
    let u := t.endHoldover env
    u = { t.lapsed with
        word := t.word + clampInt (-(t.settings.slew : Int)) t.settings.slew (0 - t.word), codes := u.codes, refout := none
        raised := if env.notify then t.raised ++ [.timing .freeRun t.selected] else t.raised
        steering := (t.lapsed.stepped.send env.now).steering, steerWaiting := (t.lapsed.stepped.send env.now).steerWaiting } := by
  intro u
  have stepped := Timing.stepped_some (t := t.lapsed) (x := 0) rfl
  show t.endHoldover env = _
  have made : t.endHoldover env = (t.lapsed.stepWord env.now).giveOut.note env := rfl
  have codes : u.codes = (t.lapsed.stepWord env.now).giveOut.codes := by
    show (t.endHoldover env).codes = _
    rw [made, Timing.note_eq]
  rw [codes, made, Timing.stepWord_eq, Timing.stepWord_word, stepped]
  unfold Timing.note Timing.giveOut Timing.stepWord
  rw [stepped]
  cases env.notify <;> rfl

/-- Settles O44: each timer by its row, and STEER as the characters of its frame. -/
theorem timingTimersExpire : Obligations.TimingTimersExpire := by
  unfold Obligations.TimingTimersExpire
  refine fun s due => ⟨fun r timer => ?_, fun timer => ?_, fun timer => ?_, fun sent waiting sends waits => ?_, fun t time idle => ?_,
    fun t bytes begun time sends began => ?_⟩
  · obtain ⟨cascade, only, settings, forced, selected, made⟩ := ref_event s (s.reach due) (r := r)
      (fun q ne => upd_get_other _ ne fun x : Ref =>
        { x with soakTimer := none, state := if x.state = QualState.soaking then .qualified else x.state }) rfl rfl
    exact ⟨_, exec_soakTimerExpiry timer, cascade, settings, forced, reselect_refs _ _, selected⟩
  · show Host.Outcome.next _ = _
    rw [timer]
    rfl
  · refine ⟨_, exec_holdoverTimerExpiry timer, inTiming_cascade (s := s.reach due) ?_, ?_⟩
    · rw [Timing.endHoldover_eq]
      rfl
    · have ends := Timing.endHoldover_eq (s.reach due).timingEnv s.timing
      have stepped := Timing.stepped_some (t := s.timing.lapsed) (x := 0) rfl
      have sends := Timing.send_steering (max s.now due) s.timing.lapsed.stepped
      rw [stepped] at ends sends
      have at_ : (inTiming Timing.endHoldover (s.reach due)).timing = s.timing.endHoldover (s.reach due).timingEnv := rfl
      rw [at_]
      generalize s.timing.endHoldover (s.reach due).timingEnv = u at ends
      rw [ends]
      exact ⟨rfl, rfl, rfl, rfl, rfl, rfl, rfl, rfl, rfl, rfl, ⟨sends.1, sends.2⟩, rfl⟩
  · show Host.Outcome.next _ = _
    rw [sends, waits]
    rfl
  · unfold steer
    rw [idle]
  · unfold steer
    rw [sends]
    dsimp only
    rw [show begun + 3125 - steerTime = begun from Nat.add_sub_cancel _ _]
    rfl

end Sys2Proof.Machine
end

section
/-! PROT-REQUEST (R61 to R63, R86 to R88). -/

namespace Sys2Proof.Machine

/-! ### Its checks -/

section
variable {s : State} {grp : Group} {r : Request}

theorem deaf_iff (st : GroupState) : st.deaf = true ↔ st = .adopting ∨ st = .maint ∨ st = .frozen ∨ st = .halted := by
  cases st <;> simp [GroupState.deaf]

theorem memberBad_eq_false_iff (k : ReqKind) (m : Nat) :
    memberBad grp k m = false ↔ (k.hasMember = true → 1 ≤ m ∧ m ≤ grp.cfg.count) := by
  unfold memberBad
  cases k.hasMember <;> simp

theorem externalOutranks_eq_true_iff (k : ReqKind) :
    externalOutranks grp k = true ↔ k.hasMember = true ∧ ∃ x, grp.external = some x ∧ k.code < x.kind.code := by
  unfold externalOutranks
  simp only [Bool.and_eq_true, Option.any_eq_true, decide_eq_true_eq]

theorem protRefusal_deaf (deaf : grp.state.deaf = true) : protRefusal s grp r = some .state := if_pos deaf

theorem protRefusal_member (hears : ¬ grp.state.deaf = true) (bad : memberBad grp r.kind r.member = true) :
    protRefusal s grp r = some .badArg := (if_neg hears).trans (if_pos bad)

theorem protRefusal_stronger (hears : ¬ grp.state.deaf = true) (good : memberBad grp r.kind r.member = false)
    (stronger : externalOutranks grp r.kind = true) : protRefusal s grp r = some .priority :=
  (if_neg hears).trans ((if_neg (by rw [good]; decide)).trans (if_pos stronger))

theorem protRefusal_kind (hears : ¬ grp.state.deaf = true) (good : memberBad grp r.kind r.member = false)
    (no : ¬ externalOutranks grp r.kind = true) : protRefusal s grp r = kindRefusal s grp r :=
  (if_neg hears).trans ((if_neg (by rw [good]; decide)).trans (if_neg no))

end

/-! ### The request as its handler takes it -/

section
variable {l : LinkId} {tag : Byte} {payload : List Byte} {s : State} {g : GroupId} {grp : Group} {k : ReqKind}

theorem exec_protRequests (length : payload.length = 3) {i : Instr}
    (mem : i ∈ [Instr.protRequestBar l tag payload, .protRequestForce l tag payload, .protRequestManual l tag payload,
        .protRequestTrial l tag payload, .protRequestClear l tag payload]) :
    exec i s = .next (request l tag 0x24 true true (protRequest payload) s) := by
  have same : exec i s = .next (request l tag 0x24 (decide (payload.length = 3)) true (protRequest payload) s) := by
    simp only [List.mem_cons, List.not_mem_nil, or_false] at mem
    rcases mem with rfl | rfl | rfl | rfl | rfl <;> rfl
  rw [same, decide_eq_true length]

theorem protRequest_refuses (index : indexArg 12 payload = some g) (kind : protKind (byteAt payload 1) = some k)
    (hg : s.sw.groups[g] = some grp) {res : Result} (refused : protRefusal s grp (protRequestOf k payload) = some res) :
    protRequest payload s = (s, some (res.code :: protFields (some grp))) := by
  unfold protRequest
  rw [index, kind]
  dsimp only
  rw [hg]
  dsimp only
  rw [refused]
  unfold protReply
  rw [Option.bind_some, hg]

theorem protRequest_accepts (index : indexArg 12 payload = some g) (kind : protKind (byteAt payload 1) = some k)
    (hg : s.sw.groups[g] = some grp) (accepted : protRefusal s grp (protRequestOf k payload) = none) :
    protRequest payload s =
      (protAccepted g (protRequestOf k payload) s,
        some (0 :: protFields ((protAccepted g (protRequestOf k payload) s).sw.groups[g]))) := by
  unfold protRequest
  rw [index, kind]
  dsimp only
  rw [hg]
  dsimp only
  rw [accepted]
  rfl

/-- The part as an accepted PROT-REQUEST leaves it, before the event's end. -/
def protEvent (g : GroupId) (r : Request) (s : State) : State :=
  inSwitch (fun env w => if r.kind = .none then w.acceptClear env g else w.accept env g r) s

theorem exec_protRequest_accepts (ready : MasterReady l s) {i : Instr}
    (row : exec i s = .next (request l tag 0x24 true true (protRequest payload) s)) (index : indexArg 12 payload = some g)
    (kind : protKind (byteAt payload 1) = some k) (hg : s.sw.groups[g] = some grp)
    (accepted : protRefusal s grp (protRequestOf k payload) = none) :
    exec i s = .next (accepts l (0 :: protFields (protEvent g (protRequestOf k payload) (taken l tag 0x24 s)).sw.groups[g])
      (protEvent g (protRequestOf k payload) (taken l tag 0x24 s))) := by
  rw [row]
  have handled := protRequest_accepts (s := taken l tag 0x24 s) index kind hg accepted
  have groups : (protAccepted g (protRequestOf k payload) (taken l tag 0x24 s)).sw.groups =
      (protEvent g (protRequestOf k payload) (taken l tag 0x24 s)).sw.groups := finish_sw_groups _ _
  rw [groups] at handled
  exact congrArg _ (request_accepts ready tag 0x24 handled)

end

theorem protKind_hasMember {b : Byte} {k : ReqKind} (h : protKind b = some k) :
    k.hasMember = true ↔ k = .force ∨ k = .manual ∨ k = .trial := by
  unfold protKind at h
  split at h <;> cases h <;> simp [ReqKind.hasMember]

/-- Settles O27: the checks of R61 and R62 in their order. -/
theorem protRequestRefusedInOrder : Obligations.ProtRequestRefusedInOrder := by
  unfold Obligations.ProtRequestRefusedInOrder
  intro l tag payload s ready length i mem refused
  have answers : ∀ {r : Byte} {grp : Option Group},
      protRequest payload (taken l tag 0x24 s) = (taken l tag 0x24 s, some (r :: protFields grp)) → refused r grp := fun h =>
    (exec_protRequests length mem).trans (congrArg _ (request_answers ready tag 0x24 h))
  refine ⟨fun none => answers ?_, fun g index => ⟨fun none => answers ?_, fun k kind => ⟨fun none => answers ?_, fun grp hg => ?_⟩⟩⟩
  · unfold protRequest
    rw [none]
    rfl
  · unfold protRequest
    rw [index, none]
    rfl
  · unfold protRequest
    rw [index, kind]
    dsimp only
    rw [show (taken l tag 0x24 s).sw.groups[g] = .none from none]
    unfold protReply
    rw [Option.bind_some, show (taken l tag 0x24 s).sw.groups[g] = .none from none]
    rfl
  · intro deaf m named takes stronger
    have refuses : ∀ {res : Result}, protRefusal (taken l tag 0x24 s) grp (protRequestOf k payload) = some res →
        refused res.code (some grp) := fun h => answers (protRequest_refuses (s := taken l tag 0x24 s) index kind hg h)
    have kindOf : (protRequestOf k payload).kind = k := rfl
    have member : takes → (protRequestOf k payload).member = m := fun h => if_pos ((protKind_hasMember kind).mpr h)
    have good : takes → named → memberBad grp (protRequestOf k payload).kind (protRequestOf k payload).member = false := fun t n =>
      (memberBad_eq_false_iff _ _).mpr fun _ => (member t).symm ▸ n
    have weaker : ¬ stronger → ¬ externalOutranks grp (protRequestOf k payload).kind = true := fun no h =>
      no ((externalOutranks_eq_true_iff _).mp h).2
    have hears : ¬ deaf → ¬ grp.state.deaf = true := fun no h => no ((deaf_iff _).mp h)
    refine ⟨fun h => refuses (protRefusal_deaf ((deaf_iff _).mpr h)), fun no t bad => ?_, fun no t n str => ?_, fun no e n str h => ?_,
      fun no e n str h => ?_, fun no e n str h => ?_⟩
    · refine refuses (protRefusal_member (hears no) ?_)
      rw [← Bool.not_eq_false, memberBad_eq_false_iff]
      exact fun h => bad (member t ▸ h ((protKind_hasMember kind).mpr t) : 1 ≤ m ∧ m ≤ grp.cfg.count)
    · exact refuses (protRefusal_stronger (hears no) (good t n)
        ((externalOutranks_eq_true_iff _).mpr ⟨(protKind_hasMember kind).mpr t, str⟩))
    · refine refuses (res := .priority) ((protRefusal_kind (hears no) (good (.inl e) n) (weaker str)).trans ?_)
      subst e
      exact if_pos h
    · refine refuses (res := .priority) ((protRefusal_kind (hears no) (good (.inr (.inl e)) n) (weaker str)).trans ?_)
      subst e
      exact if_pos h
    · refine refuses (res := .state) ((protRefusal_kind (hears no) (good (.inr (.inr e)) n) (weaker str)).trans ?_)
      subst e
      exact if_pos h

/-! ### CLEAR -/

section
variable {env : SwEnv} {g : GroupId} {w : Switching} {grp : Group}

/-- A CLEAR in a group without an external request discards a HOLD (R61, R63). -/
theorem clearExternal_none (hg : w.groups[g] = some grp) (held : grp.external = none) : w.clearExternal env g =
    if grp.stay.any (fun r => decide (r.kind = .hold)) then w.setGroup g grp.dropStay else w := by
  unfold Switching.clearExternal
  rw [hg]
  dsimp only
  rw [held]

theorem cleared_none (hg : w.groups[g] = some grp) (held : grp.external = none) :
    ∃ new, (w.event env g (Switching.clearExternal env g)).groups[g] = some new ∧ new.external = none
      ∧ new.trialResult = grp.trialResult ∧ new.trialTimer = grp.trialTimer
      ∧ (grp.stay.any (fun x => decide (x.kind = .hold)) = true → new.stay = none ∧ new.restoreTimer = none) := by
  by_cases hold : grp.stay.any (fun r => decide (r.kind = .hold)) = true
  · have made : (w.clearExternal env g).groups[g] = some grp.dropStay := by
      rw [clearExternal_none hg held, if_pos hold]
      exact set_get_self _ g _
    obtain ⟨new, hn, external, result, timer⟩ := has_event (steady_ended grp.trialResult grp.trialTimer) (env := env) hg
      ⟨_, made, held, rfl, rfl⟩
    obtain ⟨new', hn', gone⟩ := has_event steady_noStay (env := env) hg ⟨_, made, rfl, rfl⟩
    obtain rfl : new' = new := Option.some.inj (hn'.symm.trans hn)
    exact ⟨new', hn, external, result, timer, fun _ => gone⟩
  · have made : (w.clearExternal env g).groups[g] = some grp := by
      rw [clearExternal_none hg held, if_neg hold]
      exact hg
    obtain ⟨new, hn, external, result, timer⟩ := has_event (steady_ended grp.trialResult grp.trialTimer) (env := env) hg
      ⟨_, made, held, rfl, rfl⟩
    exact ⟨new, hn, external, result, timer, fun yes => absurd yes hold⟩

end

/-- Settles O28: CLEAR as the event that removes the external request, or a HOLD. -/
theorem protRequestClearRemovesExternal : Obligations.ProtRequestClearRemovesExternal := by
  unfold Obligations.ProtRequestClearRemovesExternal
  intro l tag b g grp s ready hg adopting maint frozen halted
  have hears : ¬ grp.state.deaf = true := fun h => by
    rcases (deaf_iff _).mp h with e | e | e | e
    exacts [adopting e, maint e, frozen e, halted e]
  have made := exec_protRequest_accepts (tag := tag) (payload := [byteOf g.val, 0, b]) (k := .none)
    (i := .protRequestClear l tag [byteOf g.val, 0, b]) ready rfl (indexArg_byteOf (by decide) g)
    rfl hg ((if_neg hears).trans rfl)
  let u := protEvent g ⟨.none, 0⟩ (taken l tag 0x24 s)
  have sw : u.sw = s.sw.event s.swEnv g (Switching.clearExternal s.swEnv g) := rfl
  have env : u.swEnv = s.swEnv := rfl
  have only : OnlyGroup g s.sw u.sw := onlyGroup_acceptClear s.swEnv g s.sw
  have formed : FormedIn u.swEnv g u.sw := formedIn_event _ _ _ _
  have cascade : GroupCascade g (taken l tag 0x24 s) u := inSwitch_groupCascade only
  rw [show protEvent g (protRequestOf .none [byteOf g.val, 0, b]) (taken l tag 0x24 s) = u from rfl] at made
  cases held : grp.external with
  | none =>
    obtain ⟨new, hn, external, result, timer, hold⟩ := cleared_none (env := s.swEnv) hg held
    rw [← sw] at hn
    rw [hn] at made
    exact ⟨u, new, made, cascade, hn, formed new hn, external, ⟨result, timer⟩, fun _ => hold, fun m h => (nomatch h), fun r h => (nomatch h)⟩
  | some r =>
    obtain ⟨new, hn, cleared⟩ := cleared_event (env := s.swEnv) hg held
    rw [← sw] at hn
    rw [hn] at made
    refine ⟨u, new, made, cascade, hn, formed new hn, cleared.external, ?_, nofun, fun m h selected revertive free => ?_, fun r' h no => ?_⟩
    · rw [cleared.result, cleared.timer]
      by_cases trial : r.kind = .trial <;> simp [trial]
    · rcases h with e | e
      · obtain rfl : r = ⟨.force, m⟩ := Option.some.inj e
        exact (cleared.holds ⟨.inl rfl, selected, revertive, free⟩).2
      · obtain rfl : r = ⟨.manual, m⟩ := Option.some.inj e
        exact (cleared.holds ⟨.inr rfl, selected, revertive, free⟩).2
    · cases h
      exact cleared.goes no

end Sys2Proof.Machine
end

section
/-! Steps by the tables, and what a group does of a change (R72 to R80, R87). -/

namespace Sys2Proof.Machine

/-! ### The record and the notices of a group that enters a state (R70, R77, R161) -/

/-- A group's record as it enters a state: the AWAIT-FAR timer starts at entry to AWAIT-FAR and stops, with FAR-BRIDGE-TIMEOUT, at leaving
it; a group already in the state enters nothing. -/
def Group.entered (now : Nat) (st : GroupState) (grp : Group) : Group :=
  if grp.state = st then grp
  else { grp with state := st, awaitTimer := if st = .awaitFar then some (now + 2000000) else none, farBridgeTimeout := false }

section
variable {env : SwEnv} {g : GroupId} {st : GroupState} {w : Switching} {grp : Group}

theorem enter_groups (hg : w.groups[g] = some grp) : (w.enter env g st).groups[g] = some (grp.entered env.now st) := by
  unfold Group.entered
  split
  · next same =>
    rw [Switching.enter_same hg same]
    exact hg
  · next moves => exact Switching.enter_some hg moves

theorem entered_kept (now : Nat) :
    (grp.entered now st).cfg = grp.cfg ∧ (grp.entered now st).external = grp.external ∧ (grp.entered now st).state = st := by
  unfold Group.entered
  split
  · next same => exact ⟨rfl, rfl, same⟩
  · exact ⟨rfl, rfl, rfl⟩

/-! ### The rows of the tables (R73 to R76) -/

theorem stepRow_oneForN {s br b : Nat} (type : grp.cfg.type = .oneForN) (selected : w.selected grp = some s)
    (bridge : grp.cfg.bridge = some br) (position : w.bridgeAt grp = some b) :
    w.stepRow grp =
      if 1 ≤ s ∧ s ≠ grp.stepTarget then
        if 1 ≤ grp.stepTarget ∧ b ≠ grp.stepTarget ∧ w.onePairedCard grp.cfg.selector br then
          some (some (.paired grp.cfg.selector 0 br grp.stepTarget), .releasing)
        else some (some (.move grp.cfg.selector 0), .releasing)
      else if s = 0 ∧ 1 ≤ grp.stepTarget ∧ b ≠ grp.stepTarget then some (some (.move br grp.stepTarget), .bridging)
      else if s = 0 ∧ 1 ≤ grp.stepTarget then
        if grp.farBridged = some grp.stepTarget then some (some (.move grp.cfg.selector grp.stepTarget), .selecting)
        else some (none, .awaitFar)
      else if s = 0 ∧ b ≠ 0 then some (some (.move br 0), .releasing)
      else if s = 0 then some (none, .idle)
      else some (none, .switched) := by
  unfold Switching.stepRow
  dsimp only
  rw [type, selected]
  dsimp only
  rw [bridge, position]

theorem stepRow_onePlusOne {s : Nat} (type : grp.cfg.type = .onePlusOne) (selected : w.selected grp = some s) :
    w.stepRow grp =
      if s = 0 ∧ grp.stepTarget = 1 then
        if grp.cfg.ends = .single ∨ grp.farBridged = some 1 then some (some (.move grp.cfg.selector 1), .selecting)
        else some (none, .awaitFar)
      else if s = 1 ∧ grp.stepTarget = 0 then some (some (.move grp.cfg.selector 0), .releasing)
      else if s = 0 ∧ grp.stepTarget = 0 then some (none, .idle)
      else if s = 1 ∧ grp.stepTarget = 1 then some (none, .switched)
      else none := by
  unfold Switching.stepRow
  dsimp only
  rw [type, selected]

theorem onePairedCard_iff {sel br : Nat} :
    w.onePairedCard sel br = true ↔ ∃ x y, w.element sel = some x ∧ w.element br = some y ∧ x.paired = true ∧ y.paired = true
      ∧ x.partner = some br ∧ y.partner = some sel := by
  unfold Switching.onePairedCard
  cases w.element sel with
  | none => simp
  | some x =>
    cases w.element br with
    | none => simp
    | some y => simp [and_assoc]

/-! ### A step (R72) -/

theorem step_issues {kind : OpKind} (hg : w.groups[g] = some grp) (row : w.stepRow grp = some (some kind, st)) :
    (w.step env g).groups[g] = some (grp.entered env.now st)
      ∧ (w.step env g).queue = placeOp w.queue (.new .protection kind g) := by
  have made : w.step env g = (w.place (.new .protection kind g)).enter env g st := by
    unfold Switching.step
    rw [hg]
    dsimp only
    rw [row]
  rw [made]
  exact ⟨enter_groups hg, Switching.enter_queue _ _ _ _⟩

/-- Whether a group that enters IDLE has a single-ended trial to read for (R87). -/
def WaitsToRead (w : Switching) (g : GroupId) (grp : Group) : Prop :=
  grp.state ≠ .idle ∧ grp.external.any (fun r => decide (r.kind = .trial)) = true ∧ grp.cfg.ends = .single ∧ w.opOf g = none

theorem placeTrialRead_places (hg : w.groups[g] = some grp)
    (reads : grp.external.any (fun r => decide (r.kind = .trial)) = true ∧ grp.cfg.ends = .single ∧ grp.state = .idle
      ∧ w.opOf g = none) : w.placeTrialRead g = w.place (.new .protection (.read grp.cfg.selector none) g) := by
  obtain ⟨trial, single, idle, free⟩ := reads
  unfold Switching.placeTrialRead
  rw [hg]
  exact if_pos ⟨trial, single, idle, by rw [free]; rfl⟩

theorem placeTrialRead_same (hg : w.groups[g] = some grp)
    (no : ¬ (grp.external.any (fun r => decide (r.kind = .trial)) = true ∧ grp.cfg.ends = .single ∧ grp.state = .idle
      ∧ w.opOf g = none)) : w.placeTrialRead g = w := by
  unfold Switching.placeTrialRead
  rw [hg]
  exact if_neg fun h => no ⟨h.1, h.2.1, h.2.2.1, Option.isNone_iff_eq_none.mp h.2.2.2⟩

/-- A step to a rest state: it enters it, and a single-ended trial that waits for IDLE places its read (R72, R87). -/
theorem step_rests (hg : w.groups[g] = some grp) (row : w.stepRow grp = some (none, st)) :
    (w.step env g).groups[g] = some (grp.entered env.now st)
      ∧ (¬ (st = .idle ∧ WaitsToRead w g grp) → (w.step env g).queue = w.queue)
      ∧ (st = .idle ∧ WaitsToRead w g grp →
          (w.step env g).queue = placeOp w.queue (.new .protection (.read grp.cfg.selector none) g)) := by
  have made : w.step env g =
      if grp.state ≠ .idle ∧ st = .idle then (w.enter env g st).placeTrialRead g else w.enter env g st := by
    unfold Switching.step
    rw [hg]
    dsimp only
    rw [row]
  have hn : (w.enter env g st).groups[g] = some (grp.entered env.now st) := enter_groups hg
  have queue : (w.enter env g st).queue = w.queue := Switching.enter_queue _ _ _ _
  have free : (w.enter env g st).opOf g = w.opOf g := by
    unfold Switching.opOf
    rw [queue]
  obtain ⟨cfg, external, state⟩ := entered_kept (grp := grp) (st := st) env.now
  by_cases enters : grp.state ≠ .idle ∧ st = .idle
  · rw [made, if_pos enters]
    by_cases reads : grp.external.any (fun r => decide (r.kind = .trial)) = true ∧ grp.cfg.ends = .single ∧ w.opOf g = none
    · rw [placeTrialRead_places hn ⟨by rw [external]; exact reads.1, by rw [cfg]; exact reads.2.1, state.trans enters.2,
        free.trans reads.2.2⟩]
      refine ⟨hn, fun no => absurd ⟨enters.2, enters.1, reads⟩ no, fun _ => ?_⟩
      unfold Switching.place
      dsimp only
      rw [queue, cfg]
    · rw [placeTrialRead_same hn fun h => reads ⟨by rw [← external]; exact h.1, by rw [← cfg]; exact h.2.1, free.symm.trans h.2.2.2⟩]
      exact ⟨hn, fun _ => queue, fun h => absurd h.2.2 reads⟩
  · rw [made, if_neg enters]
    exact ⟨hn, fun _ => queue, fun h => absurd ⟨h.2.1, h.1⟩ enters⟩

/-- A step that finds its group in the rest state of its row changes nothing. -/
theorem step_same (hg : w.groups[g] = some grp) (row : w.stepRow grp = some (none, st)) (rests : grp.state = st) : w.step env g = w := by
  unfold Switching.step
  rw [hg]
  dsimp only
  rw [row]
  dsimp only
  rw [Switching.enter_same hg rests]
  exact if_neg fun h => h.1 (rests.trans h.2)

end

/-! ### What a group does of a change (R79, R80, R87) -/

section
variable {env : SwEnv} {g : GroupId} {w : Switching} {old grp : Group} {op : Op}

/-- Whether L, E and T of a group differ in what a step goes by. -/
def Changed (old grp : Group) : Prop := grp.effective ≠ old.effective ∨ grp.target ≠ old.target

/-- Whether a queued selection has lost the far end's bridge it waited for (R79). -/
def LeavesTarget (old grp : Group) : Prop :=
  grp.farBridged ≠ old.farBridged ∧ grp.state = .selecting ∧ grp.cfg.ends = .dual ∧ grp.farBridged ≠ some grp.target

theorem changed_iff : (decide (grp.effective ≠ old.effective) || decide (grp.target ≠ old.target)) = true ↔ Changed old grp := by
  rw [Bool.or_eq_true, decide_eq_true_eq, decide_eq_true_eq]
  rfl

theorem isTrialRead_iff : op.isTrialRead = true ↔ op.cls = .protection ∧ ∃ a b, op.kind = .read a b := by
  obtain ⟨cls, kind⟩ := op
  unfold Op.isTrialRead
  cases cls <;> cases kind <;> simp

theorem react_rests_free (hg : w.groups[g] = some grp) (rests : grp.state = .idle ∨ grp.state = .switched ∨ grp.state = .awaitFar)
    (free : w.opOf g = none) [Decidable (Changed old grp ∨ grp.farBridged ≠ old.farBridged)] :
    w.react env g old = if Changed old grp ∨ grp.farBridged ≠ old.farBridged then w.step env g else w := by
  unfold Switching.react
  rw [hg]
  rcases rests with e | e | e <;>
  · dsimp only
    rw [e, free]
    refine if_congr ?_ rfl rfl
    rw [Bool.or_eq_true, changed_iff, decide_eq_true_eq]

theorem react_rests_queued (hg : w.groups[g] = some grp) (rests : grp.state = .idle ∨ grp.state = .switched ∨ grp.state = .awaitFar)
    (held : w.opOf g = some op) (queued : op.inFlight = false) [Decidable (Changed old grp ∧ op.isTrialRead = true)] :
    w.react env g old =
      if Changed old grp ∧ op.isTrialRead = true then (((w.setExternal g none).dropOp g).refresh env g).step env g else w := by
  unfold Switching.react
  rw [hg]
  rcases rests with e | e | e <;>
  · dsimp only
    rw [e, held]
    refine if_congr ?_ rfl rfl
    rw [Bool.and_eq_true, Bool.and_eq_true, changed_iff, queued]
    simp [and_comm]

theorem react_moves_free (hg : w.groups[g] = some grp)
    (moves : grp.state = .bridging ∨ grp.state = .selecting ∨ grp.state = .releasing) (free : w.opOf g = none) :
    w.react env g old = w := by
  unfold Switching.react
  rw [hg]
  rcases moves with e | e | e <;>
  · dsimp only
    rw [e, free]

theorem react_moves_queued (hg : w.groups[g] = some grp)
    (moves : grp.state = .bridging ∨ grp.state = .selecting ∨ grp.state = .releasing)
    (held : w.opOf g = some op) (queued : op.inFlight = false) [Decidable (Changed old grp ∨ LeavesTarget old grp)] :
    w.react env g old = if Changed old grp ∨ LeavesTarget old grp then (w.dropOp g).step env g else w := by
  unfold Switching.react
  rw [hg]
  rcases moves with e | e | e <;>
  · dsimp only
    rw [e, held]
    refine if_congr ?_ rfl rfl
    rw [Bool.and_eq_true, Bool.or_eq_true, changed_iff, queued]
    simp [LeavesTarget, e, and_assoc]

theorem react_other (hg : w.groups[g] = some grp)
    (rests : ¬ (grp.state = .idle ∨ grp.state = .switched ∨ grp.state = .awaitFar))
    (moves : ¬ (grp.state = .bridging ∨ grp.state = .selecting ∨ grp.state = .releasing)) : w.react env g old = w := by
  unfold Switching.react
  rw [hg]
  dsimp only
  split
  all_goals first
    | rfl
    | (next e => simp [e] at rests)
    | (next e => simp [e] at moves)

/-- The entries other than a group's own stand as its external request is removed and its operation withdrawn (R87, R100). -/
theorem stopped_queue : ((w.setExternal g none).dropOp g).queue = w.queue.filter fun op => decide (op.group ≠ g) := by
  show ((w.queue.filter _).map _).filter _ = _
  rw [List.filter_map, List.filter_filter]
  have keep : ∀ o ∈ w.queue, (((fun x : Op => decide (x.group ≠ g)) ∘ fun x : Op =>
      if x.group = g then if x.isTrialRead then { x with judged := false } else x else x) o
        && !(decide (o.group = g) && o.isTrialRead && !o.inFlight)) = decide (o.group ≠ g) := fun o _ => by
    have group : (if o.group = g then if o.isTrialRead then { o with judged := false } else o else o).group = o.group := by
      repeat' split
      all_goals rfl
    show (decide (_ ≠ g) && _) = _
    rw [group]
    by_cases e : o.group = g <;> simp [e]
  rw [List.filter_congr keep]
  conv_rhs => rw [← List.map_id (w.queue.filter fun op => decide (op.group ≠ g))]
  exact List.map_congr_left fun o ho => if_neg (of_decide_eq_true (List.mem_filter.mp ho).2)

/-- The arbiter's choice leaves with a queued trial read that stops (R87, R100). -/
theorem stopped_chosen (held : w.opOf g = some op) (queued : op.inFlight = false) (reads : op.isTrialRead = true) :
    ((w.setExternal g none).dropOp g).chosen = w.chosen.filter fun c => decide (c.owner ≠ g) := by
  show (w.chosen.filter fun c => (w.opOf c.owner).all _).filter (fun c => ((w.setExternal g none).opOf c.owner).all _) = _
  have other : ∀ (v : Switching) (p : Op → Bool) (h : GroupId), (∀ o, o.group = h → p o = true) → (v.opOf h).all p = true :=
    fun v p h all => by
      cases ho : v.opOf h with
      | none => rfl
      | some o => exact all o (opOf_some ho).2
  cases hc : w.chosen with
  | none => rfl
  | some c =>
    by_cases own : c.owner = g
    · rw [Option.filter_some_neg (by rw [own, held]; simp [(opOf_some held).2, queued, reads]), Option.filter_some_neg (by simp [own])]
      rfl
    · refine ((congrArg _ (Option.filter_some_pos ?_)).trans (Option.filter_some_pos ?_)).trans (Option.filter_some_pos ?_).symm
      · exact other _ _ _ fun o e => by simp [e, own]
      · exact other _ _ _ fun o e => by simp [e, own]
      · exact decide_eq_true own

end

/-- Settles O31: the rows of the tables, and the cases of a group's reaction. -/
theorem stepsFollowTheTables : Obligations.StepsFollowTheTables := by
  unfold Obligations.StepsFollowTheTables
  refine ⟨?_, ?_⟩
  · intro env g grp w sel s hg selector selected t v entered issues waitsToRead rests
    subst selector
    have issue : ∀ {kind : OpKind} {st : GroupState}, w.stepRow grp = some (some kind, st) → issues kind st := fun row =>
      step_issues hg row
    have rest : ∀ {st : GroupState}, w.stepRow grp = some (none, st) → rests st := fun row => step_rests hg row
    have target : grp.stepTarget = t := rfl
    refine ⟨onlyGroup_step env g w, fun br b type bridge position => ?_, fun type => ?_⟩
    · intro oneCard
      have row := stepRow_oneForN type selected bridge position
      rw [target] at row
      have card : w.onePairedCard grp.cfg.selector br = true ↔ oneCard := onePairedCard_iff
      refine ⟨fun h1 h2 h3 h4 one => issue ?_, fun h1 h2 no => issue ?_, fun h1 h2 h3 => issue ?_, fun h1 h2 h3 h4 => issue ?_,
        fun h1 h2 h3 h4 => rest ?_, fun h1 h2 h3 => issue ?_, fun h1 h2 h3 => rest ?_, fun h1 h2 => rest ?_⟩
      · rw [row, if_pos ⟨h1, h2⟩, if_pos ⟨h3, h4, card.mpr one⟩]
      · rw [row, if_pos ⟨h1, h2⟩, if_neg fun h => no ⟨h.1, h.2.1, card.mp h.2.2⟩]
      · rw [row, if_neg (by omega), if_pos ⟨h1, h2, h3⟩]
      · rw [row, if_neg (by omega), if_neg (by omega), if_pos ⟨h1, h2⟩, if_pos h4]
      · rw [row, if_neg (by omega), if_neg (by omega), if_pos ⟨h1, h2⟩, if_neg h4]
      · rw [row, if_neg (by omega), if_neg (by omega), if_neg (by omega), if_pos ⟨h1, h3⟩]
      · rw [row, if_neg (by omega), if_neg (by omega), if_neg (by omega), if_neg (by omega), if_pos h1]
      · rw [row, if_neg (by omega), if_neg (by omega), if_neg (by omega), if_neg (by omega), if_neg (by omega)]
    · have row := stepRow_onePlusOne type selected
      rw [target] at row
      refine ⟨fun h1 h2 h3 => issue ?_, fun h1 h2 h3 h4 => rest ?_, fun h1 h2 => issue ?_, fun h1 h2 => rest ?_, fun h1 h2 => rest ?_⟩
      · rw [row, if_pos ⟨h1, h2⟩, if_pos h3]
      · rw [row, if_pos ⟨h1, h2⟩, if_neg fun h => h.elim (fun e => by rw [h3] at e; cases e) h4]
      · rw [row, if_neg (by omega), if_pos ⟨h1, h2⟩]
      · rw [row, if_neg (by omega), if_neg (by omega), if_pos ⟨h1, h2⟩]
      · rw [row, if_neg (by omega), if_neg (by omega), if_neg (by omega), if_pos ⟨h1, h2⟩]
  · intro env g old grp w hg v changed rests moves leavesTarget trialRead withdrawn
    classical
    refine ⟨fun no no' => react_other hg no no', fun r free h => ?_, fun r free no no' => ?_, fun m free => react_moves_free hg m free,
      fun op held => ⟨fun flies => react_inFlight held flies old, fun queued m h => ?_, fun queued m no => ?_, fun queued r no => ?_,
        fun queued r h reads => ?_⟩⟩
    · exact (react_rests_free hg r free).trans (if_pos h)
    · exact (react_rests_free hg r free).trans (if_neg fun h => h.elim no fun h => h no')
    · rw [show withdrawn = w.dropOp g from (dropOp_eq held).symm]
      exact (react_moves_queued hg m held queued).trans (if_pos h)
    · exact (react_moves_queued hg m held queued).trans (if_neg no)
    · exact (react_rests_queued hg r held queued).trans (if_neg fun h => no ⟨h.1, isTrialRead_iff.mp h.2⟩)
    · have isRead := isTrialRead_iff.mpr reads
      have removed := Switching.setExternal_some (ext := none) hg
      have made := Switching.refresh_some (env := env) (w := (w.setExternal g none).dropOp g) removed
      refine ⟨((w.setExternal g none).dropOp g).refresh env g, _, (react_rests_queued hg r held queued).trans (if_pos ⟨h, isRead⟩), made,
        formedIn_refresh env g _ _ made, (Switching.refresh_queue _ _ _).trans stopped_queue,
        (Switching.refresh_chosen _ _ _).trans (stopped_chosen held queued isRead), Switching.refresh_elements _ _ _, by simp,
        by simp, fun trial => by simp [trial]⟩

end Sys2Proof.Machine
end

section
/-! An accepted PROT-REQUEST (R61, R62, R86 to R88). -/

namespace Sys2Proof.Machine

section
variable {env : SwEnv} {g : GroupId} {w : Switching} {grp : Group} {r : Request}

theorem accept_plain (kind : r.kind ≠ .trial) : w.accept env g r = w.event env g (Switching.setExternal g (some r)) := by
  obtain ⟨kind', member⟩ := r
  cases kind'
  case trial => exact absurd rfl kind
  all_goals rfl

/-- What a BAR, FORCE or MANUAL makes of its group (R62). -/
theorem accept_plain_group (hg : w.groups[g] = some grp) (kind : r.kind = .bar ∨ r.kind = .force ∨ r.kind = .manual) :
    ∃ new, (w.accept env g r).groups[g] = some new ∧ new.external = some r
      ∧ ((∀ x, grp.stay = some x → x.kind.code ≤ 4) → new.stay = none)
      ∧ (if grp.external.any (fun x => decide (x.kind = .trial)) then new.trialResult = .abandoned ∧ new.trialTimer = none
         else new.trialResult = grp.trialResult ∧ new.trialTimer = grp.trialTimer) := by
  have plain : r.kind ≠ .trial := by rcases kind with e | e | e <;> rw [e] <;> decide
  have high : 4 < r.kind.code := by rcases kind with e | e | e <;> rw [e] <;> decide
  have made := Switching.setExternal_some (ext := some r) hg
  obtain ⟨new, hn, same⟩ := event_stateOnly (env := env) (f := Switching.setExternal g (some r)) hg made
    (fun h => absurd (of_decide_eq_true h.1) plain) (Switching.setExternal_noTrialRead g (some r) w)
  rw [accept_plain plain]
  refine ⟨new, hn, same.external.trans (by simp), fun low => ?_, ?_⟩
  · rw [same.stay, Group.form_stay, Group.decode_stay]
    cases stays : grp.stay with
    | none => rfl
    | some st =>
      refine if_pos (List.any_eq_true.mpr ⟨r, ?_, ?_⟩)
      · unfold Group.locals
        rw [Group.decode_external]
        exact List.mem_append_left _ (List.mem_singleton_self r)
      · unfold Request.outranks
        rw [decide_eq_true ((low st stays).trans_lt high)]
        rfl
  · rw [same.trialResult, same.trialTimer]
    simp only [Group.form_trialResult, Group.form_trialTimer, Group.decode_trialResult, Group.decode_trialTimer]
    split
    · exact ⟨rfl, rfl⟩
    · exact ⟨rfl, rfl⟩

/-- The group as its TRIAL starts, before the event's own changes. -/
def Group.trialled (now : Nat) (r : Request) (grp : Group) : Group :=
  { grp with external := some r, trialResult := .none, trialTimer := if grp.cfg.ends = .dual then some (now + 2000000) else none }

theorem startTrial_some (hg : w.groups[g] = some grp) :
    ((w.setExternal g (some r)).modGroup g (Group.startTrial env.now)).groups[g] = some (grp.trialled env.now r) :=
  Switching.modGroup_some (Switching.setExternal_some hg)

theorem accept_trial (kind : r.kind = .trial) : w.accept env g r =
    (w.event env g fun w => (w.setExternal g (some r)).modGroup g (Group.startTrial env.now)).placeTrialRead g := by
  obtain ⟨kind', member⟩ := r
  subst kind
  rfl

theorem trialled_trial (now : Nat) (kind : r.kind = .trial) :
    (grp.trialled now r).external.any (fun x => decide (x.kind = .trial)) = true := decide_eq_true kind

theorem trialled_farEcho (now : Nat) : ((grp.trialled now r).decode env).farEcho = (grp.decode env).farEcho := by
  unfold Group.decode Group.trialled
  dsimp only
  cases grp.cfg.ends <;> cases env.ports[grp.cfg.prot].accProt <;> cases env.ports[grp.cfg.prot].accFlags <;> try rfl
  dsimp only
  split
  · rfl
  · split <;> rfl

theorem placeTrialRead_groups (w : Switching) : (w.placeTrialRead g).groups = w.groups := by
  unfold Switching.placeTrialRead
  repeat' split
  all_goals rfl

/-- A TRIAL whose far echo is TRIAL already passes at its acceptance (R86). -/
theorem accept_trial_passes (hg : w.groups[g] = some grp) (kind : r.kind = .trial) (dual : grp.cfg.ends = .dual)
    (echo : (grp.decode env).farEcho = some .trial) :
    ∃ new, (w.accept env g r).groups[g] = some new ∧ new.external = none ∧ new.trialResult = .pass ∧ new.trialTimer = none := by
  have formed := Switching.refresh_some (env := env) (startTrial_some (env := env) (r := r) hg)
  have passes := has_react (steady_ended .pass none) (env := env) grp ⟨_, Switching.endTrial_some (env := env) (res := .pass) formed,
    by simp, by simp, by simp⟩
  have tested : (((w.setExternal g (some r)).modGroup g (Group.startTrial env.now)).refresh env g).echoTest env g =
      (((w.setExternal g (some r)).modGroup g (Group.startTrial env.now)).refresh env g).endTrial env g .pass := by
    unfold Switching.echoTest
    rw [formed]
    refine if_pos ⟨?_, ?_, ?_, ?_⟩
    · rw [Group.form_external, Group.decode_external]
      exact trialled_trial _ kind
    · rw [Group.form_cfg, Group.decode_cfg]
      exact dual
    · rw [Group.form_trialTimer, Group.decode_trialTimer]
      unfold Group.trialled
      rw [if_pos dual]
      rfl
    · rw [Group.form_farEcho, trialled_farEcho]
      exact echo
  rw [accept_trial kind, placeTrialRead_groups]
  unfold Switching.event
  rw [hg]
  dsimp only
  rw [tested]
  exact passes

/-- A TRIAL that does not pass at its acceptance runs (R62, R86, R87). -/
theorem accept_trial_runs (hg : w.groups[g] = some grp) (kind : r.kind = .trial)
    (no : ¬ (grp.cfg.ends = .dual ∧ (grp.decode env).farEcho = some .trial)) :
    ∃ new, (w.accept env g r).groups[g] = some new ∧ StateOnly (((grp.trialled env.now r).decode env).form env (w.selected grp)) new := by
  rw [accept_trial kind, placeTrialRead_groups]
  exact event_stateOnly (f := fun w => (w.setExternal g (some r)).modGroup g (Group.startTrial env.now)) hg (startTrial_some hg)
    (fun h => no ⟨h.2.1, (trialled_farEcho _).symm.trans h.2.2.2⟩) (Switching.setExternal_noTrialRead g (some r) w)

/-- In a ONE-PLUS-ONE single-ended group at rest a TRIAL that is E queues its read (R87). -/
theorem accept_trial_reads (hg : w.groups[g] = some grp) (kind : r.kind = .trial) (single : grp.cfg.ends = .single)
    (type : grp.cfg.type = .onePlusOne) (idle : grp.state = .idle) (selected : w.selected grp = some 0) (free : w.opOf g = none)
    (effective : (((grp.trialled env.now r).decode env).form env (w.selected grp)).effective = r) :
    ∃ new, (w.accept env g r).groups[g] = some new ∧ new.state = .idle
      ∧ (w.accept env g r).queue = placeOp w.queue (.new .protection (.read grp.cfg.selector none) g) := by
  let x := ((grp.trialled env.now r).decode env).form env (w.selected grp)
  let v := ((w.setExternal g (some r)).modGroup g (Group.startTrial env.now)).refresh env g
  have hx : v.groups[g] = some x := Switching.refresh_some (env := env) (startTrial_some (env := env) (r := r) hg)
  have cfg : x.cfg = grp.cfg := by
    rw [Group.form_cfg, Group.decode_cfg]
    rfl
  have rests : x.state = .idle := by
    rw [Group.form_state, Group.decode_state]
    exact idle
  have queue : v.queue = w.queue := (Switching.refresh_queue _ _ _).trans (Switching.setExternal_queue (ext := some r) free)
  have free' : v.opOf g = none := by
    rw [← free]
    unfold Switching.opOf
    rw [queue]
  have selected' : v.selected x = some 0 := by
    have known : v.selected x = w.selected x := Switching.selected_congr (Switching.refresh_elements _ _ _) x
    rw [known, ← selected]
    unfold Switching.selected
    rw [cfg]
  have row : v.stepRow x = some (none, .idle) := by
    have target : x.stepTarget = 0 := if_pos ⟨by rw [cfg, single], by rw [effective, kind]⟩
    rw [stepRow_onePlusOne (by rw [cfg, type]) selected', target]
    rfl
  have tested : v.echoTest env g = v := by
    unfold Switching.echoTest
    rw [hx]
    exact if_neg fun h => by
      have ends := h.2.1
      rw [cfg, single] at ends
      cases ends
  have event : w.event env g (fun w => (w.setExternal g (some r)).modGroup g (Group.startTrial env.now)) = v := by
    classical
    unfold Switching.event
    rw [hg]
    show (v.echoTest env g).react env g grp = v
    rw [tested, react_rests_free hx (.inl rests) free']
    split
    · exact step_same hx row rests
    · rfl
  rw [accept_trial kind, event, placeTrialRead_places hx ⟨?_, by rw [cfg, single], rests, free'⟩]
  · refine ⟨x, hx, rests, ?_⟩
    unfold Switching.place
    rw [queue, cfg]
  · rw [Group.form_external, Group.decode_external]
    exact trialled_trial _ kind

end

section
variable {l : LinkId} {tag : Byte} {g : GroupId} {grp : Group} {s : State}

theorem protRefusal_none {r : Request} (hears : ¬ grp.state.deaf = true) (named : r.kind.hasMember = true → 1 ≤ r.member ∧ r.member ≤ grp.cfg.count)
    (weaker : ∀ x, grp.external = some x → x.kind.code ≤ r.kind.code) (good : kindRefusal s grp r = none) : protRefusal s grp r = none := by
  refine (protRefusal_kind hears ((memberBad_eq_false_iff _ _).mpr named) fun h => ?_).trans good
  obtain ⟨-, x, held, stronger⟩ := (externalOutranks_eq_true_iff _).mp h
  exact absurd stronger (Nat.not_lt.mpr (weaker x held))

/-- An accepted PROT-REQUEST that sets an external request is an event at its group. -/
theorem exec_protRequest_sets (ready : MasterReady l s) (hg : s.sw.groups[g] = some grp) {i : Instr} {payload : List Byte} {r : Request}
    (row : exec i s = .next (request l tag 0x24 true true (protRequest payload) s)) (index : indexArg 12 payload = some g)
    (kind : protKind (byteAt payload 1) = some r.kind) (isRequest : protRequestOf r.kind payload = r) (sets : r.kind ≠ .none)
    (accepted : protRefusal (taken l tag 0x24 s) grp r = none) :
    ∃ u, exec i s = .next (accepts l (0 :: protFields u.sw.groups[g]) u) ∧ GroupCascade g (taken l tag 0x24 s) u
      ∧ FormedIn u.swEnv g u.sw ∧ u.swEnv = s.swEnv ∧ u.sw = s.sw.accept s.swEnv g r := by
  have made := exec_protRequest_accepts (tag := tag) ready row index kind hg (isRequest.symm ▸ accepted)
  have sw : (protEvent g r (taken l tag 0x24 s)).sw = s.sw.accept s.swEnv g r := if_neg sets
  have env : (protEvent g r (taken l tag 0x24 s)).swEnv = s.swEnv := rfl
  rw [isRequest] at made
  refine ⟨_, made, ?_, ?_, env, sw⟩
  · refine inSwitch_groupCascade ?_
    have only : OnlyGroup g s.sw (s.sw.accept s.swEnv g r) := onlyGroup_accept s.swEnv g r s.sw
    rwa [← sw] at only
  · rw [env, sw]
    by_cases trial : r.kind = .trial
    · rw [accept_trial trial]
      exact formedIn_placeTrialRead (formedIn_event _ _ _ _)
    · rw [accept_plain trial]
      exact formedIn_event _ _ _ _

end

/-- Settles O26: each acceptance as the event that sets the external request. -/
theorem protRequestSetsExternalRequest : Obligations.ProtRequestSetsExternalRequest := by
  unfold Obligations.ProtRequestSetsExternalRequest
  intro l tag b m g grp s ready hg adopting maint frozen halted runs plain named
  have hears : ¬ grp.state.deaf = true := fun h => by
    rcases (deaf_iff _).mp h with e | e | e | e
    exacts [adopting e, maint e, frozen e, halted e]
  have index : ∀ x y : Byte, indexArg 12 [byteOf g.val, x, y] = some g := fun _ _ => indexArg_byteOf (by decide) g
  have sets : ∀ {i : Instr} {payload : List Byte} {r : Request}, exec i s = .next (request l tag 0x24 true true (protRequest payload) s) →
      indexArg 12 payload = some g → protKind (byteAt payload 1) = some r.kind → protRequestOf r.kind payload = r →
      r.kind = .bar ∨ r.kind = .force ∨ r.kind = .manual → protRefusal (taken l tag 0x24 s) grp r = none → runs i (plain r) :=
    fun row index kind is plainly accepted => by
      obtain ⟨u, made, cascade, formed, -, sw⟩ := exec_protRequest_sets ready hg row index kind is
        (by rcases plainly with e | e | e <;> rw [e] <;> decide) accepted
      obtain ⟨new, hn, made'⟩ := accept_plain_group (env := s.swEnv) hg plainly
      rw [← sw] at hn
      exact ⟨u, new, made, cascade, hn, formed new hn, made'⟩
  refine ⟨?_, fun n weaker no no' => ?_, fun n weaker low => ?_, fun n weaker free selected => ?_⟩
  · refine sets (payload := [byteOf g.val, 14, b]) rfl (index _ _) rfl rfl (.inl rfl) ?_
    exact (protRefusal_kind (r := ⟨.bar, 0⟩) hears rfl Bool.false_ne_true).trans rfl
  · refine sets (payload := [byteOf g.val, 12, m]) rfl (index _ _) rfl rfl (.inr (.inl rfl))
      (protRefusal_none hears (fun _ => n) weaker (if_neg ?_))
    exact fun h => h.elim no no'
  · exact sets (payload := [byteOf g.val, 6, m]) rfl (index _ _) rfl rfl (.inr (.inr rfl))
      (protRefusal_none hears (fun _ => n) weaker (if_neg (Bool.eq_false_iff.mp low)))
  · obtain ⟨u, made, cascade, formed, env, sw⟩ := exec_protRequest_sets (r := ⟨.trial, m.toNat⟩) (tag := tag) ready hg
      (i := .protRequestTrial l tag [byteOf g.val, 3, m]) rfl (index _ _) rfl rfl nofun
      (protRefusal_none hears (fun _ => n) weaker (if_neg fun h => h.elim (absurd free) (absurd selected)))
    by_cases passes : grp.cfg.ends = .dual ∧ (grp.decode s.swEnv).farEcho = some .trial
    · obtain ⟨new, hn, ended⟩ := accept_trial_passes (r := ⟨.trial, m.toNat⟩) hg rfl passes.1 passes.2
      rw [← sw] at hn
      refine ⟨u, new, made, cascade, hn, formed new hn, fun _ _ => ended, fun _ no => absurd passes.2 no, fun single => ?_⟩
      rw [passes.1] at single
      cases single
    · obtain ⟨new, hn, same⟩ := accept_trial_runs (env := s.swEnv) (r := ⟨.trial, m.toNat⟩) hg rfl passes
      rw [← sw] at hn
      have external : new.external = some ⟨.trial, m.toNat⟩ := same.external.trans (by simp [Group.trialled])
      have result : new.trialResult = .none := same.trialResult.trans (by simp [Group.trialled])
      have timer : new.trialTimer = if grp.cfg.ends = .dual then some (s.now + 2000000) else none :=
        same.trialTimer.trans (by simp only [Group.form_trialTimer, Group.decode_trialTimer]; rfl)
      refine ⟨u, new, made, cascade, hn, formed new hn, fun dual echo => absurd ⟨dual, echo⟩ passes, fun dual _ => ?_, fun single => ?_⟩
      · exact ⟨external, result, timer.trans (if_pos dual)⟩
      · refine ⟨external, result, timer.trans (if_neg (by rw [single]; decide)), fun type idle free effective => ?_⟩
        obtain ⟨new', hn', rests, queue⟩ := accept_trial_reads (env := s.swEnv) (r := ⟨.trial, m.toNat⟩) hg rfl single type idle selected free
          (same.effective.symm.trans effective)
        rw [← sw] at hn' queue
        obtain rfl : new' = new := Option.some.inj (hn'.symm.trans hn)
        exact ⟨rests, queue⟩

end Sys2Proof.Machine
end

section
/-! The far end's signal and the formation of L, E and T (R50 to R53, R56 to R59, R68, R69). -/

namespace Sys2Proof.Machine

/-! ### Codes of requests (R50) -/

theorem ofCode_isNone : ∀ c : Fin 16, (ReqKind.ofCode c).isNone = true ↔
    c.val = 1 ∨ c.val = 5 ∨ c.val = 9 ∨ c.val = 11 ∨ c.val = 15 := by decide

theorem ofCode_all_hasMember : ∀ c : Fin 16, (ReqKind.ofCode c).all ReqKind.hasMember = true ↔
    ¬ (c.val = 0 ∨ c.val = 7 ∨ c.val = 13 ∨ c.val = 14) := by decide

theorem ofCode_any_hasMember : ∀ c : Fin 16, (ReqKind.ofCode c).any ReqKind.hasMember = true ↔
    ¬ (c.val = 0 ∨ c.val = 7 ∨ c.val = 13 ∨ c.val = 14) ∧ ¬ (c.val = 1 ∨ c.val = 5 ∨ c.val = 9 ∨ c.val = 11 ∨ c.val = 15) := by decide

theorem ofCode_code {c : Nat} {k : ReqKind} (h : ReqKind.ofCode c = some k) : k.code = c := by
  unfold ReqKind.ofCode at h
  split at h <;> cases h <;> rfl

theorem ReqKind.code_inj {k k' : ReqKind} (h : k.code = k'.code) : k = k' := by
  have back : ∀ x : ReqKind, ReqKind.ofCode x.code = some x := fun x => by cases x <;> rfl
  exact Option.some.inj ((back k).symm.trans ((congrArg ReqKind.ofCode h).trans (back k')))

theorem highNibble_lt (b : Byte) : highNibble b < 16 := by
  unfold highNibble
  have := b.isLt
  omega

theorem requestedMember_eq (b : Byte) :
    requestedMember b =
      if b.toNat / 16 = 0 ∨ b.toNat / 16 = 7 ∨ b.toNat / 16 = 13 ∨ b.toNat / 16 = 14 then 0 else b.toNat % 16 := by
  have read : requestedMember b = if (ReqKind.ofCode (highNibble b)).all ReqKind.hasMember then lowNibble b else 0 := by
    unfold requestedMember
    cases ReqKind.ofCode (highNibble b) <;> rfl
  have all := ofCode_all_hasMember ⟨highNibble b, highNibble_lt b⟩
  rw [read]
  split
  · next h => exact (if_neg (all.mp h)).symm
  · next h => exact (if_pos (not_not.mp fun no => h (all.mpr no))).symm

/-- The tests of PROTOCOL-MISMATCH on the bytes as they are received (R69). -/
theorem mismatchOf_iff (cfg : GroupConfig) (pf : ProtFields) (fl : Flags) :
    mismatchOf cfg pf fl = true ↔
      fl.groupType.toNat ≠ cfg.type.code ∨ (ReqKind.ofCode (pf.request.toNat / 16)).isNone = true
        ∨ (ReqKind.ofCode (pf.effect.toNat / 16)).isNone = true ∨ cfg.count < requestedMember pf.request
        ∨ cfg.count < pf.effect.toNat % 16
        ∨ ((ReqKind.ofCode (pf.request.toNat / 16)).any ReqKind.hasMember = true ∧ pf.request.toNat % 16 = 0) := by
  unfold mismatchOf highNibble lowNibble
  simp only [Bool.or_eq_true, Bool.and_eq_true, decide_eq_true_eq, or_assoc]

/-! ### Decoding (R68) -/

section
variable {env : SwEnv} {grp : Group}

theorem decode_absent (no : grp.cfg.ends = .single ∨ env.ports[grp.cfg.prot].accProt = none ∨ env.ports[grp.cfg.prot].accFlags = none) :
    grp.decode env = { grp with protocolMismatch := false, remote := none, farEcho := none, farBridged := none } := by
  unfold Group.decode
  dsimp only
  split
  · next pf fl dual prot flags => rw [dual, prot, flags] at no; simp at no
  · rfl

theorem decode_dual {pf : ProtFields} {fl : Flags} (dual : grp.cfg.ends = .dual) (prot : env.ports[grp.cfg.prot].accProt = some pf)
    (flags : env.ports[grp.cfg.prot].accFlags = some fl) :
    grp.decode env =
      if mismatchOf grp.cfg pf fl then
        { grp with protocolMismatch := true, remote := none, farEcho := none, farBridged := none }
      else if env.ports[grp.cfg.prot].pilotLoss then
        { grp with protocolMismatch := false, remote := none, farEcho := none, farBridged := none }
      else
        { grp with
          protocolMismatch := false
          remote := (ReqKind.ofCode (highNibble pf.request)).map fun k => ⟨k, requestedMember pf.request⟩
          farEcho := ReqKind.ofCode (highNibble pf.effect)
          farBridged := some (lowNibble pf.effect) } := by
  unfold Group.decode
  dsimp only
  rw [dual, prot, flags]

end

/-! ### The highest request (R50, R57) -/

theorem Request.outranks_iff (x y : Request) :
    x.outranks y = true ↔ y.kind.code < x.kind.code ∨ (x.kind.code = y.kind.code ∧ x.member < y.member) := by
  unfold Request.outranks
  simp only [Bool.or_eq_true, Bool.and_eq_true, decide_eq_true_eq]

theorem Request.not_outranks_iff (x y : Request) :
    x.outranks y = false ↔ ¬ (y.kind.code < x.kind.code ∨ (x.kind.code = y.kind.code ∧ x.member < y.member)) := by
  rw [← Request.outranks_iff, Bool.not_eq_true]

theorem Request.eq_of_not_outranks {x y : Request} (a : x.outranks y = false) (b : ¬ y.outranks x = true) : x = y := by
  rw [Request.not_outranks_iff] at a
  rw [Request.outranks_iff] at b
  obtain ⟨k, m⟩ := x
  obtain ⟨k', m'⟩ := y
  dsimp only at a b
  obtain rfl : k = k' := ReqKind.code_inj (by omega)
  obtain rfl : m = m' := by omega
  rfl

theorem topRequest_le (rs : List Request) : ∀ r ∈ rs, r.outranks (topRequest rs) = false := fun r mem =>
  foldl_better (before := Request.outranks) (fun x => by rw [Request.not_outranks_iff]; omega)
    (fun x y h => by rw [Request.outranks_iff] at h; rw [Request.not_outranks_iff]; omega)
    (fun x y z a b => by rw [Request.not_outranks_iff] at a b ⊢; omega) rs Request.none r (List.mem_cons_of_mem _ mem)

/-- A fold that takes one of two leaves one of them all. -/
theorem foldl_mem {α : Type} {f : α → α → α} (one : ∀ x y, f x y = x ∨ f x y = y) (ys : List α) (x : α) : ys.foldl f x ∈ x :: ys := by
  induction ys generalizing x with
  | nil => exact List.mem_singleton_self x
  | cons y ys ih =>
    rcases List.mem_cons.mp (ih (f x y)) with e | mem
    · rw [List.foldl_cons, e]
      rcases one x y with e | e <;> rw [e] <;> simp
    · exact List.mem_cons_of_mem _ (List.mem_cons_of_mem _ mem)

theorem topRequest_mem (rs : List Request) : topRequest rs ∈ rs ∨ topRequest rs = Request.none := by
  have one : ∀ x y : Request, x.higher y = x ∨ x.higher y = y := fun x y => by
    unfold Request.higher
    split
    · exact .inr rfl
    · exact .inl rfl
  exact (List.mem_cons.mp (foldl_mem one rs Request.none)).symm

/-! ### The requests present (R51 to R53) -/

section
variable {env : SwEnv} {grp : Group} {r : Request}

theorem mem_condRequest_zero (cfg : GroupConfig) : condRequest env cfg 0 = some r ↔
    (r = ⟨.degradeP, 0⟩ ∧ env.ports[cfg.prot].reported = .degrade) ∨ (r = ⟨.failP, 0⟩ ∧ env.ports[cfg.prot].reported = .fail) := by
  unfold condRequest
  rw [if_pos rfl]
  cases env.ports[cfg.prot].reported <;> simp [eq_comm]

theorem mem_condRequest_succ (cfg : GroupConfig) (m : Nat) : condRequest env cfg (m + 1) = some r ↔
    ∃ p, cfg.working[m]? = some p ∧ rangeStatus env.ranges p ≠ .outOfService
      ∧ ((r = ⟨.degrade, m + 1⟩ ∧ env.ports[p].reported = .degrade) ∨ (r = ⟨.fail, m + 1⟩ ∧ env.ports[p].reported = .fail)) := by
  unfold condRequest
  rw [if_neg (Nat.succ_ne_zero m), Nat.add_sub_cancel]
  cases cfg.working[m]? with
  | none => simp
  | some p =>
    by_cases out : rangeStatus env.ranges p = .outOfService
    · simp [out]
    · simp only [out, Option.some.injEq, exists_eq_left', if_false, ne_eq, not_false_eq_true, true_and]
      cases env.ports[p].reported <;> simp [eq_comm]

/-- A local request other than the stay request is present (R51 to R53). -/
def Present (env : SwEnv) (grp : Group) (r : Request) : Prop :=
  grp.external = some r
  ∨ (r = ⟨.bar, 0⟩ ∧ rangeStatus env.ranges grp.cfg.prot = .outOfService)
  ∨ (r = ⟨.degradeP, 0⟩ ∧ env.ports[grp.cfg.prot].reported = .degrade)
  ∨ (r = ⟨.failP, 0⟩ ∧ (env.ports[grp.cfg.prot].reported = .fail
      ∨ (grp.cfg.ends = .dual ∧ (env.ports[grp.cfg.prot].pilotLoss = true ∨ grp.protocolMismatch = true))))
  ∨ (∃ m p, grp.cfg.working[m]? = some p ∧ rangeStatus env.ranges p ≠ .outOfService
      ∧ ((r = ⟨.degrade, m + 1⟩ ∧ env.ports[p].reported = .degrade) ∨ (r = ⟨.fail, m + 1⟩ ∧ env.ports[p].reported = .fail)))

theorem signallingLoss_iff : grp.signallingLoss env = true ↔
    grp.cfg.ends = .dual ∧ (env.ports[grp.cfg.prot].pilotLoss = true ∨ grp.protocolMismatch = true) := by
  unfold Group.signallingLoss
  rw [Bool.and_eq_true, Bool.or_eq_true, decide_eq_true_eq]

theorem mem_locals : r ∈ grp.locals env ↔ Present env grp r := by
  have single : ∀ (p : Prop) [Decidable p] (x : Request), (r ∈ if p then [x] else []) ↔ r = x ∧ p := fun p _ x => by
    split <;> simp [*]
  have working : (∃ m ∈ List.range grp.cfg.count, condRequest env grp.cfg (m + 1) = some r) ↔
      ∃ m p, grp.cfg.working[m]? = some p ∧ rangeStatus env.ranges p ≠ .outOfService
        ∧ ((r = ⟨.degrade, m + 1⟩ ∧ env.ports[p].reported = .degrade) ∨ (r = ⟨.fail, m + 1⟩ ∧ env.ports[p].reported = .fail)) := by
    refine exists_congr fun m => ?_
    rw [mem_condRequest_succ]
    refine and_iff_right_of_imp fun ⟨p, at_, _⟩ => List.mem_range.mpr ?_
    exact (List.getElem?_eq_some_iff.mp at_).1
  unfold Group.locals Group.conditions Present
  simp only [List.mem_append, List.mem_filterMap, single, Option.mem_toList, mem_condRequest_zero, signallingLoss_iff, working,
    or_assoc]
  refine or_congr_right (or_congr_right (or_congr_right ?_))
  rw [← or_assoc, ← and_or_left]

theorem any_locals_iff {st : Request} :
    (grp.locals env).any (·.outranks st) = true ↔ ∃ r, Present env grp r ∧ r.outranks st = true := by
  rw [List.any_eq_true]
  exact exists_congr fun r => and_congr_left fun _ => mem_locals

/-! ### L, E and T (R56 to R59) -/

theorem effectiveOf_local {l : Request} (no : grp.cfg.ends = .single ∨ grp.remote = none) : grp.effectiveOf l = l := by
  unfold Group.effectiveOf
  rcases no with e | e
  · rw [e]
  · rw [e]
    cases grp.cfg.ends <;> rfl

theorem effectiveOf_remote {l f : Request} (dual : grp.cfg.ends = .dual) (far : grp.remote = some f) :
    grp.effectiveOf l = if f.outranks l then f else l := by
  unfold Group.effectiveOf
  rw [dual, far]
  rfl

/-- Forming drops the stay request, with its timer, where another local request outranks it (R56). -/
theorem form_displaced {sel : Option Nat} {st : Request} (stays : grp.stay = some st)
    (outranked : (grp.locals env).any (·.outranks st) = true) :
    (grp.form env sel).stay = none ∧ (grp.form env sel).restoreTimer = none := by
  unfold Group.form
  rw [stays]
  dsimp only
  rw [if_pos outranked]
  exact ⟨rfl, rfl⟩

theorem form_keeps_stay {sel : Option Nat} (no : ∀ st, grp.stay = some st → ¬ (grp.locals env).any (·.outranks st) = true) :
    (grp.form env sel).stay = grp.stay ∧ (grp.form env sel).restoreTimer = grp.restoreTimer := by
  unfold Group.form
  cases stays : grp.stay with
  | none => exact ⟨stays, rfl⟩
  | some st =>
    dsimp only
    rw [if_neg (no st stays)]
    exact ⟨stays, rfl⟩

/-- What forming makes of L, E and T (R57 to R59). -/
theorem form_local (env : SwEnv) (sel : Option Nat) (grp : Group) :
    (grp.form env sel).local_ = topRequest ((grp.form env sel).locals env ++ (grp.form env sel).stay.toList)
      ∧ (grp.form env sel).effective = (grp.form env sel).effectiveOf (grp.form env sel).local_
      ∧ (grp.form env sel).target = targetOf (grp.form env sel).effective sel := by
  unfold Group.form
  split
  · dsimp only
    split <;> exact ⟨rfl, rfl, rfl⟩
  · exact ⟨rfl, rfl, rfl⟩

/-- Of a group's record forming changes the stay request with its timer, and L, E and T. -/
theorem form_frame (env : SwEnv) (sel : Option Nat) (grp : Group) : grp.form env sel = { grp with
    stay := (grp.form env sel).stay, restoreTimer := (grp.form env sel).restoreTimer, local_ := (grp.form env sel).local_
    effective := (grp.form env sel).effective, target := (grp.form env sel).target } := by
  unfold Group.form
  split
  · dsimp only
    split <;> rfl
  · rfl

end

/-- Settles O30: decoding by its cases, and forming by what it takes the highest of. -/
theorem farSignalDecodedAndRequestsFormed : Obligations.FarSignalDecodedAndRequestsFormed := by
  unfold Obligations.FarSignalDecodedAndRequestsFormed
  refine ⟨?_, ?_⟩
  · intro env grp port u absent
    refine ⟨Group.decode_keeps env grp, fun no => ?_, fun pf fl dual prot flags => ?_⟩
    · have same := decode_absent no
      exact ⟨congrArg Group.protocolMismatch same, congrArg Group.remote same, congrArg Group.farEcho same, congrArg Group.farBridged same⟩
    · intro kind echo bridged memberless unnamed member
      have same := decode_dual dual prot flags
      have isUnnamed : ∀ b : Byte, (ReqKind.ofCode (b.toNat / 16)).isNone = true ↔ unnamed (b.toNat / 16) := fun b =>
        ofCode_isNone ⟨highNibble b, highNibble_lt b⟩
      have read : requestedMember pf.request = member := requestedMember_eq pf.request
      have named : (ReqKind.ofCode (pf.request.toNat / 16)).any ReqKind.hasMember = true ↔ ¬ memberless ∧ ¬ unnamed kind :=
        ofCode_any_hasMember ⟨highNibble pf.request, highNibble_lt pf.request⟩
      have mismatch : u.protocolMismatch = mismatchOf grp.cfg pf fl := by
        show (grp.decode env).protocolMismatch = _
        rw [same]
        cases mismatchOf grp.cfg pf fl
        · cases env.ports[grp.cfg.prot].pilotLoss <;> rfl
        · rfl
      refine ⟨?_, fun lost => ?_, fun fits there => ?_⟩
      · have last : (¬ memberless ∧ ¬ unnamed kind) ∧ pf.request.toNat % 16 = 0 ↔ ¬ memberless ∧ ¬ unnamed kind ∧ member = 0 := by
          rw [and_assoc]
          refine and_congr_right fun no => ?_
          rw [show member = pf.request.toNat % 16 from if_neg no]
        rw [mismatch, mismatchOf_iff, isUnnamed, isUnnamed, read, named, last]
      · have absentIn : ∀ b : Bool, grp.decode env = { grp with protocolMismatch := b, remote := none, farEcho := none, farBridged := none } →
            absent := fun b e => ⟨congrArg Group.remote e, congrArg Group.farEcho e, congrArg Group.farBridged e⟩
        rw [mismatch] at lost
        by_cases bad : mismatchOf grp.cfg pf fl = true
        · exact absentIn true (same.trans (if_pos bad))
        · exact absentIn false (same.trans ((if_neg bad).trans (if_pos (lost.resolve_left bad))))
      · rw [mismatch] at fits
        have received := same.trans ((if_neg (Bool.eq_false_iff.mp fits)).trans (if_neg (Bool.eq_false_iff.mp there)))
        have no := fun h => Bool.eq_false_iff.mp fits ((mismatchOf_iff grp.cfg pf fl).mpr h)
        obtain ⟨k, hk⟩ := Option.ne_none_iff_exists'.mp fun e => no (.inr (.inl (Option.isNone_iff_eq_none.mpr e)))
        obtain ⟨x, hx⟩ := Option.ne_none_iff_exists'.mp fun e => no (.inr (.inr (.inl (Option.isNone_iff_eq_none.mpr e))))
        refine ⟨⟨⟨k, member⟩, ?_, ofCode_code hk, rfl⟩, ⟨x, ?_, ofCode_code hx⟩, congrArg Group.farBridged received⟩
        · refine (congrArg Group.remote received).trans ?_
          show (ReqKind.ofCode (pf.request.toNat / 16)).map _ = _
          rw [hk, read]
          rfl
        · exact (congrArg Group.farEcho received).trans hx
  · intro code beats present formed
    have codes : ∀ k : ReqKind, code k = k.code := fun k => by cases k <;> rfl
    have beaten : ∀ x y : Request, beats x y ↔ x.outranks y = true := fun x y => by
      rw [Request.outranks_iff, ← codes, ← codes]
    have top : ∀ (env : SwEnv) (sel : Option Nat) (grp : Group), grp.local_ = topRequest (grp.locals env ++ grp.stay.toList) →
        grp.effective = grp.effectiveOf grp.local_ → grp.target = targetOf grp.effective sel → formed env sel grp :=
      fun env sel grp highest e target => by
        have mem : ∀ r, r ∈ grp.locals env ++ grp.stay.toList ↔ present env grp r ∨ grp.stay = some r := fun r => by
          rw [List.mem_append, mem_locals, Option.mem_toList]
          rfl
        refine ⟨?_, fun r stands => ?_, fun no => e.trans (effectiveOf_local no), fun f dual far => ⟨fun h => ?_, fun h => ?_⟩, ?_⟩
        · rw [highest]
          exact (topRequest_mem _).imp_left (mem _).mp
        · have below := topRequest_le _ r ((mem r).mpr stands)
          rw [← highest] at below
          by_cases higher : grp.local_.outranks r = true
          · exact .inr ((beaten _ _).mpr higher)
          · exact .inl (Request.eq_of_not_outranks below higher)
        · exact (e.trans (effectiveOf_remote dual far)).trans (if_pos ((beaten _ _).mp h))
        · exact (e.trans (effectiveOf_remote dual far)).trans (if_neg fun k => h ((beaten _ _).mpr k))
        · rw [target]
          unfold targetOf
          cases grp.effective.kind <;> rfl
    refine ⟨fun env w grp f => top env _ grp f.local_ f.effective f.target, fun env sel grp => ?_⟩
    intro new displaced
    have outranked : ∀ st, (grp.locals env).any (·.outranks st) = true ↔ ∃ r, present env grp r ∧ beats r st := fun st =>
      any_locals_iff.trans (exists_congr fun r => and_congr_right fun _ => (beaten r st).symm)
    obtain ⟨highest, e, target⟩ := form_local env sel grp
    refine ⟨top env sel new highest e target, ?_, fun ⟨st, r, stays, there, higher⟩ => ?_, fun no => ?_⟩
    · exact form_frame env sel grp
    · exact form_displaced stays ((outranked st).mpr ⟨r, there, higher⟩)
    · exact form_keeps_stay fun st stays h => by
        obtain ⟨r, there, higher⟩ := (outranked st).mp h
        exact no ⟨st, r, stays, there, higher⟩

end Sys2Proof.Machine
end

section
/-! SET-MAINT ENTER, and the entry to MAINT, FROZEN and HALTED (R64, R88, R104). -/

namespace Sys2Proof.Machine

/-! ### A group stands down (R64) -/

/-- A group's record without its external MANUAL or TRIAL (R64, R88). -/
def Group.calmed (grp : Group) : Group :=
  if grp.hasTemporary then { grp with
    external := none
    trialResult := if grp.external.any (fun r => decide (r.kind = .trial)) then .abandoned else grp.trialResult
    trialTimer := if grp.external.any (fun r => decide (r.kind = .trial)) then none else grp.trialTimer }
  else grp

/-- What standing down makes of a group's record, but for L, E and T and the timers of its state (R64). -/
structure Stood (st : GroupState) (grp new : Group) : Prop where
  state : new.state = st
  stay : new.stay = none
  restoreTimer : new.restoreTimer = none
  cfg : new.cfg = grp.cfg
  external : new.external = if grp.hasTemporary then none else grp.external
  trial : if grp.external.any (fun r => decide (r.kind = .trial)) then new.trialResult = .abandoned ∧ new.trialTimer = none
    else new.trialResult = grp.trialResult ∧ new.trialTimer = grp.trialTimer

section
variable {env : SwEnv} {g : GroupId} {st : GroupState} {w : Switching} {grp : Group}

theorem hasTemporary_of_trial (trial : grp.external.any (fun r => decide (r.kind = .trial)) = true) : grp.hasTemporary = true := by
  obtain ⟨r, held, kind⟩ := Option.any_eq_true _ _ |>.mp trial
  exact hasTemporary_iff.mpr ⟨r, held, .inr (of_decide_eq_true kind)⟩

/-- The switching block without a group's MANUAL or TRIAL. -/
def Switching.calmed (g : GroupId) (w : Switching) : Switching :=
  match w.groups[g] with
  | some grp => if grp.hasTemporary then w.setExternal g none else w
  | none => w

theorem stand_eq (env : SwEnv) (g : GroupId) (st : GroupState) (w : Switching) :
    w.stand env g st = ((((w.calmed g).modGroup g Group.dropStay).refresh env g).enter env g st) := rfl

theorem calmed_groups (hg : w.groups[g] = some grp) : (w.calmed g).groups[g] = some grp.calmed := by
  unfold Switching.calmed Group.calmed
  rw [hg]
  dsimp only
  split
  · exact Switching.setExternal_some hg
  · exact hg

theorem stand_group (hg : w.groups[g] = some grp) :
    ∃ sel, (w.stand env g st).groups[g] = some (((grp.calmed.dropStay.decode env).form env sel).entered env.now st) :=
  ⟨_, enter_groups (Switching.refresh_some (Switching.modGroup_some (f := Group.dropStay) (calmed_groups hg)))⟩

theorem entered_stateOnly (now : Nat) (st : GroupState) (grp : Group) : StateOnly grp (grp.entered now st) := by
  unfold Group.entered
  split
  · exact .refl grp
  · exact ⟨rfl, rfl, rfl, rfl, rfl, rfl, rfl, rfl, rfl, rfl, rfl, rfl, rfl⟩

theorem calmed_stood (sel : Option Nat) (now : Nat) (st : GroupState) (grp : Group) :
    Stood st grp (((grp.calmed.dropStay.decode env).form env sel).entered now st) := by
  have same := entered_stateOnly now st ((grp.calmed.dropStay.decode env).form env sel)
  have external : (((grp.calmed.dropStay.decode env).form env sel).entered now st).external = grp.calmed.external :=
    same.external.trans (by simp)
  have cfg : (((grp.calmed.dropStay.decode env).form env sel).entered now st).cfg = grp.calmed.cfg := same.cfg.trans (by simp)
  have result : (((grp.calmed.dropStay.decode env).form env sel).entered now st).trialResult = grp.calmed.trialResult :=
    same.trialResult.trans (by simp)
  have timer : (((grp.calmed.dropStay.decode env).form env sel).entered now st).trialTimer = grp.calmed.trialTimer :=
    same.trialTimer.trans (by simp)
  refine ⟨(entered_kept now).2.2, same.stay.trans (Group.form_noStay (Group.decode_stay _ _)),
    same.restoreTimer.trans (Group.form_noTimer (Group.decode_restoreTimer _ _)), cfg.trans ?_, external.trans ?_, ?_⟩
  · unfold Group.calmed
    split <;> rfl
  · unfold Group.calmed
    split <;> rfl
  · rw [result, timer]
    unfold Group.calmed
    by_cases trial : grp.external.any (fun r => decide (r.kind = .trial)) = true
    · rw [if_pos (hasTemporary_of_trial trial), if_pos trial]
      exact ⟨if_pos trial, if_pos trial⟩
    · rw [if_neg trial]
      split
      · exact ⟨rfl, rfl⟩
      · exact ⟨rfl, rfl⟩

/-- A group stands down into a state (R64). -/
theorem stand_stood (hg : w.groups[g] = some grp) :
    ∃ new, (w.stand env g st).groups[g] = some new ∧ Formed env (w.stand env g st) new ∧ Stood st grp new := by
  obtain ⟨sel, hn⟩ := stand_group (env := env) (st := st) hg
  exact ⟨_, hn, formedIn_stand env g st w _ hn, calmed_stood _ _ _ _⟩

/-- The timer of AWAIT-FAR stops, with FAR-BRIDGE-TIMEOUT, as a group enters another state (R77). -/
theorem stand_await (hg : w.groups[g] = some grp) (moves : grp.state ≠ st) (away : st ≠ .awaitFar) :
    ∀ new, (w.stand env g st).groups[g] = some new → new.awaitTimer = none ∧ new.farBridgeTimeout = false := by
  intro new hn
  obtain ⟨sel, made⟩ := stand_group (env := env) (st := st) hg
  obtain rfl := Option.some.inj (hn.symm.trans made)
  have state : ((grp.calmed.dropStay.decode env).form env sel).state ≠ st := by
    rw [Group.form_state, Group.decode_state]
    show grp.calmed.state ≠ st
    unfold Group.calmed
    split <;> exact moves
  unfold Group.entered
  rw [if_neg state]
  exact ⟨if_neg away, rfl⟩

theorem stand_queue : (w.stand env g st).queue = (w.calmed g).queue := by
  rw [stand_eq, Switching.enter_queue, Switching.refresh_queue]
  rfl

theorem stand_elements : (w.stand env g st).elements = w.elements := (onlyGroup_stand env g st w).elements

/-! ### The entries of the move queue as a group stands down -/

/-- An entry as the trial of the group `g` stops (R88). -/
def Op.stopped (g : GroupId) (o : Op) : Op := if o.group = g then if o.isTrialRead then { o with judged := false } else o else o

theorem stopped_eq (g : GroupId) (o : Op) : o.stopped g = { o with judged := (o.stopped g).judged } := by
  unfold Op.stopped
  repeat' split
  all_goals rfl

theorem setExternal_queue_eq (ext : Option Request) : (w.setExternal g ext).queue =
    (w.queue.filter fun op => !(decide (op.group = g) && op.isTrialRead && !op.inFlight)).map (Op.stopped g) := rfl

theorem mem_setExternal_back {ext : Option Request} {op : Op} (mem : op ∈ (w.setExternal g ext).queue) :
    ∃ o ∈ w.queue, op = { o with judged := op.judged } := by
  rw [setExternal_queue_eq] at mem
  obtain ⟨o, ho, rfl⟩ := List.mem_map.mp mem
  exact ⟨o, (List.mem_filter.mp ho).1, stopped_eq g o⟩

theorem mem_setExternal {ext : Option Request} {o : Op} (mem : o ∈ w.queue) (flies : o.inFlight = true) :
    ∃ op ∈ (w.setExternal g ext).queue, op = { o with judged := op.judged } := by
  rw [setExternal_queue_eq]
  exact ⟨_, List.mem_map.mpr ⟨o, List.mem_filter.mpr ⟨mem, by simp [flies]⟩, rfl⟩, stopped_eq g o⟩

theorem mem_calmed_back {op : Op} (mem : op ∈ (w.calmed g).queue) : ∃ o ∈ w.queue, op = { o with judged := op.judged } := by
  unfold Switching.calmed at mem
  repeat' split at mem
  · exact mem_setExternal_back mem
  · exact ⟨op, mem, rfl⟩
  · exact ⟨op, mem, rfl⟩

theorem mem_calmed {o : Op} (mem : o ∈ w.queue) (flies : o.inFlight = true) :
    ∃ op ∈ (w.calmed g).queue, op = { o with judged := op.judged } := by
  unfold Switching.calmed
  repeat' split
  · exact mem_setExternal mem flies
  · exact ⟨o, mem, rfl⟩
  · exact ⟨o, mem, rfl⟩

theorem mem_withdraw {op : Op} : op ∈ (w.withdraw g).queue ↔ op ∈ w.queue ∧ (op.group = g → op.inFlight = true) := by
  show op ∈ w.queue.filter _ ↔ _
  rw [List.mem_filter]
  refine and_congr_right fun _ => ?_
  by_cases e : op.group = g <;> simp [e]

end

/-! ### SET-MAINT -/

section
variable {l : LinkId} {tag : Byte} {g : GroupId} {grp : Group} {s : State}

theorem setMaint_none {action : Byte} (fits : (maintAction action).isSome) (none : s.sw.groups[g] = none) :
    setMaint [byteOf g.val, action] s = (s, some [7]) := by
  obtain ⟨enters, act⟩ := Option.isSome_iff_exists.mp fits
  unfold setMaint
  rw [show indexArg 12 [byteOf g.val, action] = some g from indexArg_byteOf (by decide) g,
    show maintAction (byteAt [byteOf g.val, action] 1) = some enters from act]
  dsimp only
  rw [none]
  rfl

theorem setMaint_enter (hg : s.sw.groups[g] = some grp) : setMaint [byteOf g.val, 1] s =
    if grp.state = .adopting then plainly .state s
    else if grp.state = .maint then plainly .ok s
    else (finish .none (inSwitch (fun env => Switching.enterMaint env g) s), some [Result.ok.code]) := by
  unfold setMaint
  rw [show indexArg 12 [byteOf g.val, 1] = some g from indexArg_byteOf (by decide) g,
    show maintAction (byteAt [byteOf g.val, 1] 1) = some true from rfl]
  dsimp only
  rw [hg]
  rfl

theorem setMaint_leave (hg : s.sw.groups[g] = some grp) : setMaint [byteOf g.val, 0] s =
    if grp.state ≠ .maint ∨ (s.sw.opOf g).any (·.inFlight) then plainly .state s
    else (finish .none (inSwitch (fun env => Switching.leaveMaint env g) s), some [Result.ok.code]) := by
  unfold setMaint
  rw [show indexArg 12 [byteOf g.val, 0] = some g from indexArg_byteOf (by decide) g,
    show maintAction (byteAt [byteOf g.val, 0] 1) = some false from rfl]
  dsimp only
  rw [hg]
  rfl

theorem setMaint_badArg {b action : Byte} (bad : 12 ≤ b.toNat ∨ 1 < action.toNat) : setMaint [b, action] s = (s, some [6]) := by
  unfold setMaint
  split
  · next g enters index act =>
    rcases bad with far | far
    · rw [show indexArg 12 [b, action] = none from finOf_eq_none_iff.mpr far] at index
      cases index
    · rw [show maintAction (byteAt [b, action] 1) = none from flagOf_eq_none_iff.mpr far] at act
      cases act
  · rfl

theorem exec_setMaint_badArg (ready : MasterReady l s) {b action : Byte} (bad : 12 ≤ b.toNat ∨ 1 < action.toNat) :
    exec (.setMaintEnter l tag [b, action]) s = .next (replied l tag 0x28 [6] s)
      ∧ exec (.setMaintLeave l tag [b, action]) s = .next (replied l tag 0x28 [6] s) :=
  ⟨congrArg Host.Outcome.next (request_answers ready tag 0x28 (setMaint_badArg bad)),
    congrArg Host.Outcome.next (request_answers ready tag 0x28 (setMaint_badArg bad))⟩

end

/-- Settles O32: the refusals, and the entry to MAINT as the group's standing down. -/
theorem setMaintEnterStandsGroupDown : Obligations.SetMaintEnterStandsGroupDown := by
  unfold Obligations.SetMaintEnterStandsGroupDown
  intro l tag g s ready
  have answers : ∀ {r : Byte}, setMaint [byteOf g.val, 1] (taken l tag 0x28 s) = (taken l tag 0x28 s, some [r]) →
      exec (.setMaintEnter l tag [byteOf g.val, 1]) s = .next (replied l tag 0x28 [r] s) := fun h =>
    congrArg Host.Outcome.next (request_answers ready tag 0x28 h)
  refine ⟨fun none => answers ?_, fun grp hg => ?_, fun b action bad => exec_setMaint_badArg ready bad⟩
  · exact setMaint_none (s := taken l tag 0x28 s) rfl none
  have handled := setMaint_enter (s := taken l tag 0x28 s) hg
  refine ⟨fun adopting => answers (handled.trans (if_pos adopting)), fun maint => answers (handled.trans ?_), fun adopting maint => ?_⟩
  · exact (if_neg (by rw [maint]; decide)).trans (if_pos maint)
  · let u := inSwitch (fun env => Switching.enterMaint env g) (taken l tag 0x28 s)
    have sw : u.sw = (s.sw.withdraw g).stand s.swEnv g .maint := rfl
    have env : u.swEnv = s.swEnv := rfl
    have held : (s.sw.withdraw g).groups[g] = some grp := hg
    obtain ⟨new, hn, formed, stood⟩ := stand_stood (env := s.swEnv) (st := .maint) held
    have await := stand_await (env := s.swEnv) held maint (by decide) new hn
    have queue : u.sw.queue = ((s.sw.withdraw g).calmed g).queue := stand_queue
    refine ⟨u, new, congrArg Host.Outcome.next (request_accepts ready tag 0x28 (handled.trans ((if_neg adopting).trans (if_neg maint)))),
      inSwitch_groupCascade ((onlyGroup_withdraw g s.sw).trans (onlyGroup_stand s.swEnv g .maint _)), hn, formed, stood.state, stood.stay,
      stood.restoreTimer, await.1, await.2, stood.external, stood.trial, fun op mem own => ?_, fun op mem own flies => ?_⟩
    · rw [queue] at mem
      obtain ⟨o, ho, same⟩ := mem_calmed_back mem
      rw [same] at own ⊢
      exact (mem_withdraw.mp ho).2 own
    · rw [queue]
      exact mem_calmed (mem_withdraw.mpr ⟨mem, fun _ => flies⟩) flies

end Sys2Proof.Machine
end

section
/-! SET-MAINT LEAVE, CLEAR-HALT and adoption (R82 to R85, R103, R105). -/

namespace Sys2Proof.Machine

section
variable {env : SwEnv} {g : GroupId} {st : GroupState} {w : Switching} {grp : Group} {op : Op}

/-! ### A group enters a state, as a change of the block (R77, R161) -/

/-- The notices after a group's entry to a state. -/
def Switching.told (env : SwEnv) (g : GroupId) (st : GroupState) (grp : Group) (w : Switching) : List Notice :=
  if env.notify then w.raised ++ [.group g (some st) grp.effective (w.selected grp) grp.trialResult] else w.raised

theorem enter_eq (hg : w.groups[g] = some grp) (moves : grp.state ≠ st) :
    w.enter env g st = { w with groups := w.groups.set g (some (grp.entered env.now st)), raised := w.told env g st grp } := by
  unfold Switching.enter Group.entered Switching.told
  rw [hg]
  dsimp only
  rw [if_neg moves, if_neg moves]
  unfold Switching.note
  rw [Switching.setGroup_groups, set_get_self]
  dsimp only
  split <;> rfl

/-! ### The end of a group's operation, by its class (R101) -/

theorem succeed_maint (hg : w.groups[g] = some grp) (ho : w.opOf g = some op) (maint : grp.state = .maint) :
    w.succeed env g = w.dropOp g := by
  unfold Switching.succeed
  rw [hg, ho]
  exact if_pos maint

theorem succeed_adopt_read (hg : w.groups[g] = some grp) (ho : w.opOf g = some op) (away : grp.state ≠ .maint) (cls : op.cls = .adopt)
    (read : ∃ a b, op.kind = .read a b) : w.succeed env g = (w.dropOp g).judgeAdoption env g := by
  obtain ⟨a, b, kind⟩ := read
  unfold Switching.succeed
  rw [hg, ho]
  dsimp only
  rw [if_neg away, cls, kind]

theorem succeed_adopt_move (hg : w.groups[g] = some grp) (ho : w.opOf g = some op) (away : grp.state ≠ .maint) (cls : op.cls = .adopt)
    (move : ¬ ∃ a b, op.kind = .read a b) : w.succeed env g = (w.dropOp g).adoptionEnd env g := by
  unfold Switching.succeed
  rw [hg, ho]
  dsimp only
  rw [if_neg away, cls]
  cases kind : op.kind with
  | read a b => exact absurd ⟨a, b, kind⟩ move
  | move a x => rfl
  | paired a x b y => rfl

/-! ### Adoption (R82 to R85) -/

theorem adopt_made (hg : w.groups[g] = some grp) (moves : grp.state ≠ .adopting) :
    (w.adopt env g).groups[g] = some { grp with state := .adopting, awaitTimer := none, farBridgeTimeout := false }
      ∧ (w.adopt env g).queue = placeOp w.queue (.new .adopt (.read grp.cfg.selector grp.cfg.bridge) g) := by
  have made : w.adopt env g = (w.enter env g .adopting).place (.new .adopt (.read grp.cfg.selector grp.cfg.bridge) g) := by
    unfold Switching.adopt
    rw [hg]
  have entered : grp.entered env.now .adopting = { grp with state := .adopting, awaitTimer := none, farBridgeTimeout := false } :=
    if_neg moves
  rw [made]
  refine ⟨(enter_groups hg).trans (congrArg some entered), ?_⟩
  unfold Switching.place
  rw [Switching.enter_queue]

theorem consistent_iff {s : Nat} (selected : w.selected grp = some s) : w.consistent grp = true ↔
    (match grp.cfg.type with
      | .onePlusOne => s ≤ 1
      | .oneForN => s = 0 ∨ (w.bridgeAt grp = some s ∧ s ≤ grp.cfg.count)) := by
  unfold Switching.consistent
  rw [selected]
  cases grp.cfg.type <;> simp

theorem adoptionEnd_idle (hg : w.groups[g] = some grp) (selected : w.selected grp = some 0) :
    w.adoptionEnd env g = (w.enter env g .idle).step env g := by
  unfold Switching.adoptionEnd
  rw [hg]
  dsimp only
  rw [selected]
  rfl

/-- The record with the stay request an adoption leaves, unless another local request outranks it (R85). -/
def Group.adopted (env : SwEnv) (s : Nat) (x : Group) : Group :=
  if (x.locals env).any (·.outranks (x.stayFor s)) then x else x.takeStay env.now s

theorem adoptionEnd_switched {s : Nat} (hg : w.groups[g] = some grp) (selected : w.selected grp = some s) (away : 1 ≤ s) :
    w.adoptionEnd env g = (((w.enter env g .switched).modGroup g (Group.adopted env s)).refresh env g).step env g := by
  unfold Switching.adoptionEnd
  rw [hg]
  dsimp only
  rw [selected]
  exact if_neg (Nat.one_le_iff_ne_zero.mp away)

theorem adopted_cfg (env : SwEnv) (s : Nat) (x : Group) : (x.adopted env s).cfg = x.cfg := by
  unfold Group.adopted
  split <;> rfl

/-- The record a group in ADOPTING has after it enters SWITCHED (R85). -/
def Group.settledOn (env : SwEnv) (s : Nat) (sel : Option Nat) (grp : Group) : Group :=
  (((grp.entered env.now .switched).adopted env s).decode env).form env sel

theorem adoptionEnd_switched_eq {s : Nat} (hg : w.groups[g] = some grp) (moves : grp.state ≠ .switched)
    (selected : w.selected grp = some s) (away : 1 ≤ s) :
    w.adoptionEnd env g = ({ w with
      groups := w.groups.set g (some (grp.settledOn env s (w.selected grp)))
      raised := w.told env g .switched grp } : Switching).step env g := by
  rw [adoptionEnd_switched hg selected away, enter_eq hg moves]
  have cfg : ((grp.entered env.now .switched).adopted env s).cfg = grp.cfg := by
    rw [← (entered_kept (grp := grp) (st := .switched) env.now).1]
    exact adopted_cfg env s _
  let v : Switching := { w with
    groups := w.groups.set g (some (grp.entered env.now .switched)), raised := w.told env g .switched grp }
  have at_ : v.groups[g] = some (grp.entered env.now .switched) := set_get_self _ g _
  have stays : (v.modGroup g (Group.adopted env s)).groups[g] = some ((grp.entered env.now .switched).adopted env s) :=
    Switching.modGroup_some at_
  have known : (v.modGroup g (Group.adopted env s)).selected ((grp.entered env.now .switched).adopted env s) = w.selected grp := by
    unfold Switching.selected
    rw [cfg]
    rfl
  show ((v.modGroup g (Group.adopted env s)).refresh env g).step env g = _
  refine congrArg (Switching.step env g) ?_
  unfold Switching.refresh
  rw [stays]
  dsimp only
  rw [known]
  unfold Switching.setGroup Switching.modGroup upd
  simp only [v, Vector.set_set]
  rfl

/-- The record after the stay request of an adoption, and what the formation leaves of it (R56, R85). -/
theorem settledOn_facts {s : Nat} (sel : Option Nat) (moves : grp.state ≠ .switched) :
    (grp.settledOn env s sel).state = .switched ∧ (grp.settledOn env s sel).cfg = grp.cfg
      ∧ (grp.settledOn env s sel).external = grp.external
      ∧ (grp.decode env = grp → (∀ r ∈ grp.locals env, r.outranks (grp.stayFor s) = false) →
          (grp.settledOn env s sel).stay = some (grp.stayFor s)
          ∧ (grp.settledOn env s sel).restoreTimer =
              if grp.cfg.revertive then some (env.now + grp.cfg.restoreWait * 1000000) else none)
      ∧ (grp.decode env = grp → (∃ r ∈ grp.locals env, r.outranks (grp.stayFor s) = true) →
          (grp.settledOn env s sel).stay = none
            ∨ ((grp.settledOn env s sel).stay = grp.stay ∧ (grp.settledOn env s sel).restoreTimer = grp.restoreTimer)) := by
  let x : Group := { grp with state := .switched, awaitTimer := none, farBridgeTimeout := false }
  have entered : grp.entered env.now .switched = x := if_neg moves
  have locals : x.locals env = grp.locals env := Group.locals_congr rfl rfl rfl
  have adopted : x.adopted env s = if (grp.locals env).any (·.outranks (grp.stayFor s)) then x else x.takeStay env.now s := by
    rw [← locals]
    rfl
  have kept : (x.adopted env s).state = .switched ∧ (x.adopted env s).cfg = grp.cfg ∧ (x.adopted env s).external = grp.external := by
    rw [adopted]
    split <;> exact ⟨rfl, rfl, rfl⟩
  unfold Group.settledOn
  rw [entered]
  refine ⟨?_, ?_, ?_, fun decoded free => ?_, fun decoded ⟨r, mem, higher⟩ => ?_⟩
  · rw [Group.form_state, Group.decode_state, kept.1]
  · rw [Group.form_cfg, Group.decode_cfg, kept.2.1]
  · rw [Group.form_external, Group.decode_external, kept.2.2]
  · have none : ¬ (grp.locals env).any (·.outranks (grp.stayFor s)) = true := fun h => by
      obtain ⟨r, mem, higher⟩ := List.any_eq_true.mp h
      rw [free r mem] at higher
      cases higher
    rw [adopted, if_neg none, Group.decode_congr (y := x.takeStay env.now s) decoded rfl rfl rfl rfl rfl]
    refine form_keeps_stay fun st held outranked => none ?_
    obtain rfl : grp.stayFor s = st := Option.some.inj held
    rwa [Group.locals_congr (x := grp) (y := x.takeStay env.now s) rfl rfl rfl] at outranked
  · rw [adopted, if_pos (List.any_eq_true.mpr ⟨r, mem, higher⟩), Group.decode_congr (y := x) decoded rfl rfl rfl rfl rfl]
    by_cases outranked : ∃ st, x.stay = some st ∧ (x.locals env).any (·.outranks st) = true
    · obtain ⟨st, stays, higher⟩ := outranked
      exact .inl (form_displaced stays higher).1
    · exact .inr (form_keeps_stay fun st stays h => outranked ⟨st, stays, h⟩)

end

/-! ### The two requests -/

section
variable {l : LinkId} {tag : Byte} {g : GroupId} {grp : Group} {s : State}

theorem clearHalt_taken : clearHalt [byteOf g.val] s =
    if s.sw.groups[g].any fun grp => decide (grp.state = .frozen) || decide (grp.state = .halted) then
      (finish .none (inSwitch (fun env => Switching.adopt env g) s), some [Result.ok.code])
    else plainly .state s := by
  unfold clearHalt
  rw [indexArg_byteOf (by decide)]

end

/-- Settles O33: the two requests as the group's adoption, and the adoption's end by what its read has found. -/
theorem leaveAndClearHaltAdopt : Obligations.LeaveAndClearHaltAdopt := by
  unfold Obligations.LeaveAndClearHaltAdopt
  refine ⟨?_, ?_⟩
  · intro l tag g s ready adopts
    have leaves : ∀ {r : Byte}, setMaint [byteOf g.val, 0] (taken l tag 0x28 s) = (taken l tag 0x28 s, some [r]) →
        exec (.setMaintLeave l tag [byteOf g.val, 0]) s = .next (replied l tag 0x28 [r] s) := fun h =>
      congrArg Host.Outcome.next (request_answers ready tag 0x28 h)
    have clears : ∀ {r : Byte} {b : Byte}, clearHalt [b] (taken l tag 0x2A s) = (taken l tag 0x2A s, some [r]) →
        exec (.clearHalt l tag [b]) s = .next (replied l tag 0x2A [r] s) := fun h =>
      congrArg Host.Outcome.next (request_answers ready tag 0x2A h)
    refine ⟨fun grp hg => ⟨fun maint queued => ?_, fun down => ?_⟩, fun no => ?_, fun no => ?_, fun b action bad => ⟨?_, clears ?_⟩⟩
    · have handled := (setMaint_leave (s := taken l tag 0x28 s) hg).trans (if_neg fun h => h.elim (fun no => no maint) fun flies => by
        obtain ⟨op, held, inFlight⟩ := (Option.any_eq_true _ _).mp flies
        rw [queued op held] at inFlight
        cases inFlight)
      have made := adopt_made (env := s.swEnv) (w := s.sw.withdraw g) hg (by rw [maint]; decide)
      exact ⟨_, congrArg Host.Outcome.next (request_accepts ready tag 0x28 handled),
        inSwitch_groupCascade ((onlyGroup_withdraw g s.sw).trans (onlyGroup_adopt s.swEnv g _)), made.1, made.2⟩
    · have handled := (clearHalt_taken (g := g) (s := taken l tag 0x2A s)).trans (if_pos (by
        show s.sw.groups[g].any _ = true
        rw [hg]
        rcases down with e | e <;> simp [e]))
      have made := adopt_made (env := s.swEnv) hg (by rcases down with e | e <;> rw [e] <;> decide)
      exact ⟨_, congrArg Host.Outcome.next (request_accepts ready tag 0x2A handled),
        inSwitch_groupCascade (onlyGroup_adopt s.swEnv g _), made.1, made.2⟩
    · refine leaves ?_
      cases hg : s.sw.groups[g] with
      | none => exact setMaint_none (s := taken l tag 0x28 s) rfl hg
      | some grp =>
        refine (setMaint_leave (s := taken l tag 0x28 s) hg).trans (if_pos ((no grp hg).imp id fun ⟨op, held, flies⟩ => ?_))
        exact (Option.any_eq_true _ _).mpr ⟨op, held, flies⟩
    · refine clears ((clearHalt_taken (g := g) (s := taken l tag 0x2A s)).trans (if_neg fun h => ?_))
      obtain ⟨grp, hg, down⟩ := (Option.any_eq_true _ _).mp h
      obtain ⟨frozen, halted⟩ := no grp hg
      simp [frozen, halted] at down
    · exact (exec_setMaint_badArg ready (.inl bad)).2
    · unfold clearHalt
      rw [indexArg_eq_none bad]
      rfl
  · intro env g grp op w s hg ho cls adopting selected v rest told consistent read
    have dropped : w.dropOp g = rest := dropOp_eq ho
    have away : grp.state ≠ .maint := by rw [adopting]; decide
    have inRest : rest.groups[g] = some grp := hg
    have restSelected : rest.selected grp = some s := selected
    have judge : consistent ↔ rest.consistent grp = true := (consistent_iff restSelected).symm
    have ends : ¬ read ∨ consistent → v = rest.adoptionEnd env g := fun h => by
      by_cases r : read
      · refine (succeed_adopt_read hg ho away cls r).trans ?_
        rw [dropped]
        unfold Switching.judgeAdoption
        rw [inRest]
        exact if_pos (judge.mp (h.resolve_left (not_not.mpr r)))
      · refine (succeed_adopt_move hg ho away cls r).trans ?_
        rw [dropped]
    refine ⟨fun r no => ?_, fun h zero => ?_, fun h one => ?_⟩
    · refine (succeed_adopt_read hg ho away cls r).trans ?_
      rw [dropped]
      unfold Switching.judgeAdoption
      rw [inRest]
      exact if_neg fun h => no (judge.mpr h)
    · subst zero
      have idle : grp.state ≠ .idle := by rw [adopting]; decide
      rw [ends h, adoptionEnd_idle inRest restSelected, enter_eq inRest idle]
      have entered : grp.entered env.now .idle = { grp with state := .idle, awaitTimer := none, farBridgeTimeout := false } := if_neg idle
      rw [entered]
      unfold Switching.told
      rw [restSelected]
    · have switched : grp.state ≠ .switched := by rw [adopting]; decide
      intro stays
      refine ⟨grp.settledOn env s (some s), ?_, ?_, settledOn_facts (some s) switched⟩
      · rw [ends h, adoptionEnd_switched_eq inRest switched restSelected one]
        unfold Switching.told
        rw [restSelected]
      · have formed := formed_form env w (Group.decode_decode env ((grp.entered env.now .switched).adopted env s))
        have cfg : (((grp.entered env.now .switched).adopted env s).decode env).cfg = grp.cfg := by
          rw [Group.decode_cfg, ← (entered_kept (grp := grp) (st := .switched) env.now).1]
          exact adopted_cfg env s _
        have known : w.selected (((grp.entered env.now .switched).adopted env s).decode env) = some s := by
          rw [← selected]
          unfold Switching.selected
          rw [cfg]
        rwa [known] at formed

end Sys2Proof.Machine
end

section
/-! SET-GROUP (R43, R45 to R47, R82). -/

namespace Sys2Proof.Machine

/-! ### Its payload (R45, section 10.2) -/

theorem GroupType.ofCode_eq_none {b : Byte} : GroupType.ofCode b = none ↔ b.toNat ≠ 1 ∧ b.toNat ≠ 2 := by
  unfold GroupType.ofCode
  have one : b = 1 ↔ b.toNat = 1 := byte_eq_iff (by decide)
  have two : b = 2 ↔ b.toNat = 2 := byte_eq_iff (by decide)
  simp only [one, two]
  split
  · next h => simp [h]
  · split
    · next h => simp [h]
    · next h h' => simp [h, h']

theorem GroupType.ofCode_code {b : Byte} {t : GroupType} (h : GroupType.ofCode b = some t) : t.code = b.toNat := by
  unfold GroupType.ofCode at h
  split at h
  · next e =>
    subst e
    cases h
    rfl
  · split at h
    · next e =>
      subst e
      cases h
      rfl
    · cases h

theorem Ends.ofCode_eq_none {b : Byte} : Ends.ofCode b = none ↔ 1 < b.toNat := by
  unfold Ends.ofCode
  have zero : b = 0 ↔ b.toNat = 0 := byte_eq_iff (by decide)
  have one : b = 1 ↔ b.toNat = 1 := byte_eq_iff (by decide)
  simp only [zero, one]
  split
  · next h => simp [h]
  · split
    · next h => simp [h]
    · next h h' => simp; omega

theorem Ends.ofCode_code {b : Byte} {e : Ends} (h : Ends.ofCode b = some e) : e.code = b.toNat := by
  unfold Ends.ofCode at h
  split at h
  · next eq =>
    subst eq
    cases h
    rfl
  · split at h
    · next eq =>
      subst eq
      cases h
      rfl
    · cases h

section
variable {payload : List Byte}

theorem setGroupHead_eq_none : setGroupHead payload = none ↔
    12 ≤ (byteAt payload 0).toNat ∨ ((byteAt payload 1).toNat ≠ 1 ∧ (byteAt payload 1).toNat ≠ 2) ∨ 1 < (byteAt payload 2).toNat
      ∨ 1 < (byteAt payload (5 + groupCount payload)).toNat := by
  rw [← finOf_eq_none_iff, ← GroupType.ofCode_eq_none, ← Ends.ofCode_eq_none, ← flagOf_eq_none_iff]
  unfold setGroupHead
  cases finOf 12 (byteAt payload 0) <;> cases GroupType.ofCode (byteAt payload 1) <;> cases Ends.ofCode (byteAt payload 2) <;>
    cases flagOf (byteAt payload (5 + groupCount payload)) <;> simp

theorem setGroupHead_eq_some {g : GroupId} {type : GroupType} {ends : Ends} {rev : Bool}
    (h : setGroupHead payload = some (g, type, ends, rev)) :
    g.val = (byteAt payload 0).toNat ∧ type.code = (byteAt payload 1).toNat ∧ ends.code = (byteAt payload 2).toNat
      ∧ rev = decide ((byteAt payload (5 + groupCount payload)).toNat = 1) := by
  unfold setGroupHead at h
  split at h
  · next hg ht he hr =>
    cases h
    exact ⟨(finOf_eq_some_iff.mp hg).symm, GroupType.ofCode_code ht, Ends.ofCode_code he, (flagOf_eq_some_iff.mp hr).2⟩
  · cases h

/-- An item is missing where the list has none of them all. -/
theorem allPresent_eq_none {α : Type} {xs : List (Option α)} : allPresent xs = none ↔ none ∈ xs := by
  induction xs with
  | nil => simp [allPresent]
  | cons x xs ih => cases x <;> simp [allPresent, ih]

theorem allPresent_finOf {n : Nat} {bs : List Byte} {ys : List (Fin n)} (h : allPresent (bs.map (finOf n)) = some ys) :
    ys.map (fun y => y.val) = bs.map fun b => b.toNat := by
  induction bs generalizing ys with
  | nil => cases h; rfl
  | cons b bs ih =>
    rw [List.map_cons] at h
    cases first : finOf n b with
    | none => rw [first] at h; cases h
    | some x =>
      rw [first] at h
      obtain ⟨zs, rest, rfl⟩ := Option.map_eq_some_iff.mp h
      rw [List.map_cons, List.map_cons, ih rest, finOf_eq_some_iff.mp first]

theorem setGroupFits_length (fits : setGroupFits payload = true) : payload.length = 12 + groupCount payload := by
  unfold setGroupFits at fits
  exact of_decide_eq_true (Bool.and_eq_true_iff.mp fits).2

theorem workingBytes_eq (fits : setGroupFits payload = true) :
    (payload.drop 5).take (groupCount payload) = (List.range (groupCount payload)).map fun i => byteAt payload (5 + i) := by
  have length := setGroupFits_length fits
  refine List.ext_getElem (by simp; omega) fun i h _ => ?_
  have bound : i < groupCount payload := by simpa using (List.length_take_le _ _).trans_lt' h
  rw [List.getElem_take, List.getElem_drop, List.getElem_map, List.getElem_range]
  unfold byteAt
  rw [List.getD_eq_getElem]

theorem addressOf_none_iff {b : Byte} : addressOf b = none ↔ ¬ (1 ≤ b.toNat ∧ b.toNat ≤ 62) := by
  unfold addressOf
  split
  · next h => exact iff_of_false nofun (not_not.mpr h)
  · next h => exact iff_of_true rfl h

theorem addressOf_some {b : Byte} {a : Nat} (h : addressOf b = some a) : a = b.toNat := by
  unfold addressOf at h
  split at h
  · exact (Option.some.inj h).symm
  · cases h

theorem bridgeArg_none_iff {type : GroupType} {selector : Nat} {b : Byte} : bridgeArg type selector b = none ↔
    type = .oneForN ∧ (¬ (1 ≤ b.toNat ∧ b.toNat ≤ 62) ∨ b.toNat = selector) := by
  unfold bridgeArg
  cases type with
  | onePlusOne => simp
  | oneForN =>
    dsimp only
    cases h : addressOf b with
    | none => simp [addressOf_none_iff.mp h]
    | some a =>
      have fits : ¬ ¬ (1 ≤ b.toNat ∧ b.toNat ≤ 62) := fun no => by rw [addressOf_none_iff.mpr no] at h; cases h
      rw [addressOf_some h]
      simp only [fits, false_or, true_and]
      split
      · next e => exact iff_of_true rfl e
      · next e => exact iff_of_false nofun e

/-- The bridge a type has at an address (R45). -/
def GroupType.bridgeAt (type : GroupType) (a : Nat) : Option Nat :=
  match type with
  | .onePlusOne => none
  | .oneForN => some a

theorem bridgeArg_some {type : GroupType} {selector : Nat} {b : Byte} {bridge : Option Nat}
    (h : bridgeArg type selector b = some bridge) : bridge = type.bridgeAt b.toNat := by
  unfold bridgeArg at h
  cases type with
  | onePlusOne => exact (Option.some.inj h).symm
  | oneForN =>
    dsimp only at h
    split at h
    · next a address =>
      split at h
      · cases h
      · rw [← addressOf_some address]
        exact (Option.some.inj h).symm
    · cases h

theorem countFits_eq_false_iff (type : GroupType) (ends : Ends) (n : Nat) : countFits type ends n = false ↔
    (type = .onePlusOne ∧ n ≠ 1) ∨ (type = .oneForN ∧ (n < 1 ∨ 7 < n ∨ ends = .single)) := by
  unfold countFits
  cases type with
  | onePlusOne => simp
  | oneForN =>
    cases ends
    · simp
    · simp only [Bool.and_eq_false_iff, decide_eq_false_iff_not]
      simp

variable {type : GroupType} {ends : Ends} {rev : Bool}

/-- What steps 3 and 4 of R45 refuse, by the record's parts. -/
theorem setGroupConfig_eq_none : setGroupConfig type ends rev payload = none ↔
    countFits type ends (groupCount payload) = false ∨ finOf 32 (byteAt payload 3) = none
      ∨ allPresent (((payload.drop 5).take (groupCount payload)).map (finOf 32)) = none
      ∨ addressOf (byteAt payload (10 + groupCount payload)) = none
      ∨ bridgeArg type (byteAt payload (10 + groupCount payload)).toNat (byteAt payload (11 + groupCount payload)) = none := by
  unfold setGroupConfig
  dsimp only
  cases finOf 32 (byteAt payload 3) with
  | none => simp
  | some prot =>
    cases allPresent (((payload.drop 5).take (groupCount payload)).map (finOf 32)) with
    | none => simp
    | some working =>
      cases address : addressOf (byteAt payload (10 + groupCount payload)) with
      | none => simp
      | some selector =>
        rw [← addressOf_some address]
        dsimp only
        cases bridgeArg type selector (byteAt payload (11 + groupCount payload)) with
        | none => simp
        | some bridge => simp

theorem setGroupConfig_eq_some {c : GroupConfig} (fits : setGroupFits payload = true) (h : setGroupConfig type ends rev payload = some c) :
    c.type = type ∧ c.ends = ends ∧ c.revertive = rev ∧ c.prot.val = (byteAt payload 3).toNat
      ∧ c.working.map (fun p : PortId => p.val) = (List.range (groupCount payload)).map (fun i => (byteAt payload (5 + i)).toNat)
      ∧ c.holdOff = clampHoldOff (wordAt payload (6 + groupCount payload))
      ∧ c.restoreWait = floorTo 10 (clampNat 60 720 (wordAt payload (8 + groupCount payload)))
      ∧ c.selector = (byteAt payload (10 + groupCount payload)).toNat
      ∧ c.bridge = type.bridgeAt (byteAt payload (11 + groupCount payload)).toNat := by
  unfold setGroupConfig at h
  dsimp only at h
  split at h
  · next prot working selector hp hw hs =>
    split at h
    · next bridge hb =>
      split at h
      · cases h
        have members := allPresent_finOf hw
        rw [workingBytes_eq fits, List.map_map] at members
        exact ⟨rfl, rfl, rfl, (finOf_eq_some_iff.mp hp).symm, members, rfl, rfl, addressOf_some hs, bridgeArg_some hb⟩
      · cases h
    · cases h
  · cases h

end

end Sys2Proof.Machine
end

section
/-! SET-GROUP as it makes or rebuilds a group (R46, R47). -/

namespace Sys2Proof.Machine

section
variable {env : SwEnv} {g : GroupId} {w : Switching} {c : GroupConfig}

theorem formedIn_adopt (formed : FormedIn env g w) : FormedIn env g (w.adopt env g) := by
  unfold Switching.adopt
  split
  · exact formed
  · exact formedIn_place _ (formedIn_enter _ formed)

theorem adopt_chosen (w : Switching) : (w.adopt env g).chosen = w.chosen := by
  unfold Switching.adopt
  split
  · rfl
  · exact Switching.enter_chosen _ _ _ _

/-! ### Creation (R46) -/

/-- The switching block with a new record and its element records, before the far end's signal is read. -/
def Switching.withRecord (g : GroupId) (c : GroupConfig) (w : Switching) : Switching :=
  { w.setGroup g (Group.new c) with elements := w.elements ++ c.elements g }

theorem create_eq : w.create env g c = ((w.withRecord g c).refresh env g).adopt env g := rfl

/-- A group's record with the initial fields of R43 but for the far end's signal, and L, E and T. -/
theorem eq_new {y : Group} (cfg : y.cfg = c) (state : y.state = .idle) (external : y.external = none) (stay : y.stay = none)
    (restoreTimer : y.restoreTimer = none) (trialResult : y.trialResult = .none) (trialTimer : y.trialTimer = none)
    (awaitTimer : y.awaitTimer = none) (farBridgeTimeout : y.farBridgeTimeout = false) :
    y = { Group.new c with
      remote := y.remote, farEcho := y.farEcho, farBridged := y.farBridged, protocolMismatch := y.protocolMismatch
      local_ := y.local_, effective := y.effective, target := y.target } := by
  cases y
  dsimp only at *
  subst_vars
  rfl

theorem create_group : ∃ grp, (w.create env g c).groups[g] = some grp
    ∧ grp = { Group.new c with
        state := .adopting, remote := grp.remote, farEcho := grp.farEcho, farBridged := grp.farBridged
        protocolMismatch := grp.protocolMismatch, local_ := grp.local_, effective := grp.effective, target := grp.target }
    ∧ (w.create env g c).queue = placeOp w.queue (.new .adopt (.read c.selector c.bridge) g) := by
  have held : (w.withRecord g c).groups[g] = some (Group.new c) := set_get_self _ g _
  have formed := Switching.refresh_some (env := env) held
  have same := eq_new (c := c) (y := ((Group.new c).decode env).form env ((w.withRecord g c).selected (Group.new c)))
    (by simp; rfl) (by simp; rfl) (by simp; rfl) (Group.form_noStay (Group.decode_stay env (Group.new c)))
    (Group.form_noTimer (Group.decode_restoreTimer env (Group.new c))) (by simp; rfl) (by simp; rfl) (by simp; rfl) (by simp; rfl)
  rw [same] at formed
  obtain ⟨made, queue⟩ := adopt_made (env := env) formed nofun
  exact ⟨_, made, rfl, queue.trans (congrArg (placeOp · _) (Switching.refresh_queue _ _ _))⟩

/-- What creation leaves of the block (R46). -/
theorem create_rest : OnlyGroup g (w.withRecord g c) (w.create env g c) ∧ (w.create env g c).chosen = w.chosen :=
  ⟨(onlyGroup_refresh env g _).trans (onlyGroup_adopt env g _), (adopt_chosen _).trans (Switching.refresh_chosen _ _ _)⟩

/-! ### Rebuild (R47) -/

/-- What a rebuild's withdrawal leaves as it stands. -/
structure Withdrawn (g : GroupId) (w v : Switching) : Prop where
  groups : v.groups = w.groups
  others : v.queue.filter (fun op => decide (op.group ≠ g)) = w.queue.filter (fun op => decide (op.group ≠ g))
  busDefect : v.busDefect = w.busDefect
  settleFail : v.settleFail = w.settleFail

theorem withdrawn_rests (as : List Nat) {v : Switching} (h : Withdrawn g w v) : Withdrawn g w (as.foldl (fun w a => w.rests a) v) := by
  induction as generalizing v with
  | nil => exact h
  | cons a as ih => exact ih ⟨h.groups, h.others, h.busDefect, h.settleFail⟩

theorem withdrawn_dropWith (g : GroupId) (dropped : List Nat) (w : Switching) : Withdrawn g w (w.dropWith g dropped) := by
  have drop : Withdrawn g w (w.dropOp g) := ⟨rfl, (onlyGroup_dropOp g w).queue, rfl, rfl⟩
  unfold Switching.dropWith
  split
  · exact ⟨rfl, rfl, rfl, rfl⟩
  · next op _ =>
    split
    · have rested := withdrawn_rests op.kind.addresses drop
      exact ⟨rested.groups, rested.others, rested.busDefect, rested.settleFail⟩
    · exact ⟨rfl, rfl, rfl, rfl⟩

theorem dropWith_free (free : w.opOf g = none) (dropped : List Nat) : w.dropWith g dropped = w := by
  unfold Switching.dropWith
  rw [free]

/-- The switching block as a rebuild leaves it, before the far end's signal is read (R47). -/
def Switching.rerecorded (g : GroupId) (old : Group) (c : GroupConfig) (w : Switching) : Switching :=
  let v := (w.setExternal g none).dropWith g (old.cfg.addresses.filter fun a => decide (a ∉ c.addresses))
  ({ v with elements := rebuiltElements g c v.elements } : Switching).modGroup g fun grp => { grp.dropStay with cfg := c }

section
variable {old : Group} (hg : w.groups[g] = some old)
include hg

theorem rebuild_eq : w.rebuild env g c = (w.rerecorded g old c).refresh env g := by
  unfold Switching.rebuild
  rw [hg]
  rfl

theorem rebuild_group : ∃ grp, (w.rebuild env g c).groups[g] = some grp ∧ grp.cfg = c ∧ grp.state = old.state ∧ grp.external = none
    ∧ grp.stay = none ∧ grp.restoreTimer = none := by
  have kept := withdrawn_dropWith g (old.cfg.addresses.filter fun a => decide (a ∉ c.addresses)) (w.setExternal g none)
  have removed := Switching.setExternal_some (ext := none) hg
  rw [← kept.groups] at removed
  have made : (w.rerecorded g old c).groups[g] = some _ :=
    Switching.modGroup_some (w := { (w.setExternal g none).dropWith g _ with elements := rebuiltElements g c _ }) removed
  have formed := Switching.refresh_some (env := env) made
  rw [rebuild_eq hg]
  exact ⟨_, formed, by simp, by simp, by simp, Group.form_noStay (Group.decode_stay _ _), Group.form_noTimer (Group.decode_restoreTimer _ _)⟩

/-- What a rebuild leaves of the block (R47). -/
theorem rebuild_rest :
    (∀ h : GroupId, h ≠ g → (w.rebuild env g c).groups[h] = w.groups[h])
      ∧ (w.rebuild env g c).queue.filter (fun op => decide (op.group ≠ g)) = w.queue.filter (fun op => decide (op.group ≠ g))
      ∧ (w.rebuild env g c).busDefect = w.busDefect ∧ (w.rebuild env g c).settleFail = w.settleFail := by
  have kept := withdrawn_dropWith g (old.cfg.addresses.filter fun a => decide (a ∉ c.addresses)) (w.setExternal g none)
  have only := onlyGroup_setExternal g none w
  rw [rebuild_eq hg]
  refine ⟨fun h ne => ?_, ?_, ?_, ?_⟩
  · rw [(onlyGroup_refresh env g _).others h ne]
    refine (Switching.modGroup_other ne _ _).trans ?_
    show ((w.setExternal g none).dropWith g _).groups[h] = _
    rw [kept.groups]
    exact only.others h ne
  · rw [Switching.refresh_queue]
    exact kept.others.trans only.queue
  · rw [Switching.refresh_busDefect]
    exact kept.busDefect
  · rw [Switching.refresh_settleFail]
    exact kept.settleFail

/-- A rebuild without an operation of the group withdraws nothing (R47). -/
theorem rebuild_free (free : w.opOf g = none) :
    (w.rebuild env g c).elements = rebuiltElements g c w.elements ∧ (w.rebuild env g c).queue = w.queue
      ∧ (w.rebuild env g c).bus = w.bus ∧ (w.rebuild env g c).chosen = w.chosen := by
  have queue := Switching.setExternal_queue (ext := none) free
  have still : (w.setExternal g none).opOf g = none := by
    rw [← free]
    unfold Switching.opOf
    rw [queue]
  rw [rebuild_eq hg]
  unfold Switching.rerecorded
  rw [dropWith_free still]
  refine ⟨Switching.refresh_elements _ _ _, (Switching.refresh_queue _ _ _).trans queue, Switching.refresh_bus _ _ _,
    (Switching.refresh_chosen _ _ _).trans (Switching.setExternal_chosen (ext := none) free)⟩

end
end

/-! ### The request -/

section
variable {l : LinkId} {tag : Byte} {payload : List Byte} {s : State} {g : GroupId} {type : GroupType} {ends : Ends} {rev : Bool}
  {c : GroupConfig}

theorem setGroup_headless (head : setGroupHead payload = none) : setGroup payload s = (s, some [6]) := by
  unfold setGroup
  rw [head]
  rfl

variable (head : setGroupHead payload = some (g, type, ends, rev))
include head

theorem setGroup_busy {old : Group} (hg : s.sw.groups[g] = some old) (away : old.state ≠ .maint) :
    setGroup payload s = (s, some [7]) := by
  unfold setGroup
  rw [head]
  dsimp only
  rw [hg]
  exact if_pos (decide_eq_true away)

variable (free : ∀ old, s.sw.groups[g] = some old → old.state = .maint)
include free

theorem setGroup_further : setGroup payload s =
    match setGroupConfig type ends rev payload with
    | none => plainly .badArg s
    | some c => if groupConflict s g c then plainly .conflict s else (finish .none (writeGroup g c s), some (okWith (groupBytes g c))) := by
  have no : ¬ (s.sw.groups[g].any fun grp => decide (grp.state ≠ .maint)) = true := fun h => by
    obtain ⟨old, hg, away⟩ := (Option.any_eq_true _ _).mp h
    exact of_decide_eq_true away (free old hg)
  unfold setGroup
  rw [head]
  exact if_neg no

theorem setGroup_badConfig (bad : setGroupConfig type ends rev payload = none) : setGroup payload s = (s, some [6]) := by
  rw [setGroup_further head free, bad]
  rfl

theorem setGroup_conflict (good : setGroupConfig type ends rev payload = some c) (conflict : groupConflict s g c = true) :
    setGroup payload s = (s, some [9]) := by
  rw [setGroup_further head free, good]
  exact if_pos conflict

theorem setGroup_accepts (good : setGroupConfig type ends rev payload = some c) (no : groupConflict s g c = false) :
    setGroup payload s = (finish .none (writeGroup g c s), some (0 :: groupBytes g c)) := by
  rw [setGroup_further head free, good]
  exact if_neg (Bool.eq_false_iff.mp no)

end

/-- Settles O24: creation, rebuild and the refusals, and the payload as it is read. -/
theorem setGroupCreatesOrRebuilds : Obligations.SetGroupCreatesOrRebuilds := by
  unfold Obligations.SetGroupCreatesOrRebuilds
  refine ⟨?_, ?_, ?_, ?_⟩
  · intro l tag payload g type ends rev c s ready fits head good no
    have exec_ : ∀ {u : State}, setGroup payload (taken l tag 0x20 s) = (finish .none u, some (0 :: groupBytes g c)) →
        exec (.setGroup l tag payload) s = .next (accepts l (0 :: groupBytes g c) u) := fun h => by
      show Host.Outcome.next (request l tag 0x20 (setGroupFits payload) true (setGroup payload) s) = _
      rw [fits]
      exact congrArg Host.Outcome.next (request_accepts ready tag 0x20 h)
    refine ⟨fun absent => ?_, fun old hg maint => ?_⟩
    · obtain ⟨grp, hn, is, queue⟩ := create_group (env := s.swEnv) (g := g) (w := s.sw) (c := c)
      obtain ⟨only, chosen⟩ := create_rest (env := s.swEnv) (g := g) (w := s.sw) (c := c)
      let u := writeGroup g c (taken l tag 0x20 s)
      have sw : u.sw = s.sw.create s.swEnv g c := if_pos (by rw [show (taken l tag 0x20 s).sw.groups[g] = none from absent]; rfl)
      have formed : FormedIn s.swEnv g u.sw := sw ▸ formedIn_adopt (formedIn_refresh _ g _)
      rw [← sw] at hn queue only chosen
      refine ⟨u, grp, exec_ (setGroup_accepts head (fun old h => ?_) good no),
        ⟨rfl, rfl, rfl, rfl, rfl, rfl, rfl, rfl, rfl, rfl, rfl⟩, rfl, (timingFrame_regroup _ g s.timing).settings,
        (timingFrame_regroup _ g s.timing).forced, rfl, hn, formed grp hn, is, fun h ne => ?_, only.elements, queue, only.bus, chosen,
        only.busDefect, only.settleFail⟩
      · exact absurd (h.symm.trans (show (taken l tag 0x20 s).sw.groups[g] = none from absent)) (Option.some_ne_none old)
      · exact (only.others h ne).trans (set_get_other _ ne _)
    · intro slot
      obtain ⟨grp, hn, cfg, state, external, stay, timer⟩ := rebuild_group (env := s.swEnv) (c := c) hg
      obtain ⟨others, queue, defect, fails⟩ := rebuild_rest (env := s.swEnv) (c := c) hg
      let u := writeGroup g c (taken l tag 0x20 s)
      have sw : u.sw = s.sw.rebuild s.swEnv g c :=
        if_neg (by rw [show (taken l tag 0x20 s).sw.groups[g] = some old from hg]; exact Bool.false_ne_true)
      have formed : FormedIn s.swEnv g u.sw := by
        rw [sw, rebuild_eq hg]
        exact formedIn_refresh _ g _
      have untouched := rebuild_free (env := s.swEnv) (c := c) hg
      rw [← sw] at hn queue defect fails untouched
      refine ⟨u, grp, exec_ (setGroup_accepts head (fun old' h => ?_) good no),
        ⟨rfl, rfl, rfl, rfl, rfl, rfl, rfl, rfl, rfl, rfl, rfl⟩, rfl, (timingFrame_regroup _ g s.timing).settings,
        (timingFrame_regroup _ g s.timing).forced, rfl, hn, formed grp hn, cfg, state.trans maint, external, stay, timer,
        fun h ne => ?_, queue, defect, fails, fun free => ⟨?_, (untouched free).2⟩⟩
      · obtain rfl : old = old' := Option.some.inj (hg.symm.trans h)
        exact maint
      · rw [sw]
        exact others h ne
      · rw [(untouched free).1]
        unfold rebuiltElements GroupConfig.elements
        cases c.bridge <;> rfl
  · intro s g c
    unfold groupConflict memberElsewhere elementElsewhere
    simp only [Bool.or_eq_true, List.any_eq_true, decide_eq_true_eq, Bool.and_eq_true, Option.any_eq_true, List.mem_finRange, true_and,
      Bool.not_eq_true', and_or_left, exists_or, or_assoc, ne_eq, ← exists_and_left]
  · intro l tag payload s ready fits refused
    have answers : ∀ {r : Byte}, setGroup payload (taken l tag 0x20 s) = (taken l tag 0x20 s, some [r]) → refused r := fun h => by
      show Host.Outcome.next (request l tag 0x20 (setGroupFits payload) true (setGroup payload) s) = _
      rw [fits]
      exact congrArg Host.Outcome.next (request_answers ready tag 0x20 h)
    refine ⟨fun head => answers (setGroup_headless head), fun g type ends rev head => ⟨fun old hg away => ?_, fun free => ⟨fun bad => ?_,
      fun c good conflict => ?_⟩⟩⟩
    · exact answers (setGroup_busy (s := taken l tag 0x20 s) head hg away)
    · exact answers (setGroup_badConfig (s := taken l tag 0x20 s) head free bad)
    · exact answers (setGroup_conflict (s := taken l tag 0x20 s) head free good conflict)
  · intro payload fits b word n address
    refine ⟨setGroupHead_eq_none, fun g type ends rev head => setGroupHead_eq_some head, fun type ends rev => ⟨?_, fun c good => ?_⟩⟩
    · have working : allPresent (((payload.drop 5).take (groupCount payload)).map (finOf 32)) = none ↔ ∃ i < n, 32 ≤ b (5 + i) := by
        rw [allPresent_eq_none, workingBytes_eq fits, List.map_map]
        simp only [List.mem_map, List.mem_range, Function.comp_apply, finOf_eq_none_iff]
        rfl
      rw [setGroupConfig_eq_none, countFits_eq_false_iff, finOf_eq_none_iff, working, addressOf_none_iff, bridgeArg_none_iff, or_assoc]
      rfl
    · obtain ⟨h1, h2, h3, h4, h5, h6, h7, h8, h9⟩ := setGroupConfig_eq_some fits good
      refine ⟨h1, h2, h3, h4, h5, ?_, ?_, h8, h9.trans ?_⟩
      · rw [h6, wordAt_eq]
        simp only [clampHoldOff, floorTo, clampNat_zero]
        rfl
      · rw [h7, wordAt_eq]
        rfl
      · cases type <;> rfl

end Sys2Proof.Machine
end

section
/-! The arbiter of the bus and the move queue (R97 to R100). -/

namespace Sys2Proof.Machine

/-! ### The earliest of several (R99) -/

/-- Whether a choice came before another one, at equal times by the lower driver address. -/
def Choice.before (x y : Choice) : Bool := decide (x.since < y.since ∨ (x.since = y.since ∧ x.cmd.address < y.cmd.address))

theorem Choice.before_eq_false {x y : Choice} :
    x.before y = false ↔ y.since < x.since ∨ (y.since = x.since ∧ y.cmd.address ≤ x.cmd.address) := by
  unfold Choice.before
  rw [decide_eq_false_iff_not]
  omega

theorem earlier_eq (x y : Choice) : x.earlier y = if y.before x then y else x := by
  unfold Choice.earlier Choice.before
  simp only [decide_eq_true_eq]

theorem earliest_eq_none {cs : List Choice} : earliest cs = none ↔ cs = [] := by
  cases cs <;> simp [earliest]

theorem earliest_leads {cs : List Choice} {c : Choice} (h : earliest cs = some c) :
    c ∈ cs ∧ ∀ x ∈ cs, c.since < x.since ∨ (c.since = x.since ∧ c.cmd.address ≤ x.cmd.address) := by
  cases cs with
  | nil => cases h
  | cons first rest =>
    obtain rfl : rest.foldl Choice.earlier first = c := Option.some.inj h
    have one : ∀ x y : Choice, x.earlier y = x ∨ x.earlier y = y := fun x y => by
      rw [earlier_eq]
      split
      · exact .inr rfl
      · exact .inl rfl
    refine ⟨foldl_mem one rest first, fun x mem => Choice.before_eq_false.mp ?_⟩
    have fold : Choice.earlier = fun x y => if y.before x then y else x := funext fun x => funext (earlier_eq x)
    rw [fold]
    refine foldl_better (before := Choice.before) (fun x => ?_) (fun x y h => ?_) (fun x y z a b => ?_) rest first x mem
    · rw [Choice.before_eq_false]
      exact .inr ⟨rfl, Nat.le_refl _⟩
    · have h := of_decide_eq_true h
      rw [Choice.before_eq_false]
      omega
    · rw [Choice.before_eq_false] at a b ⊢
      omega

/-! ### What waits for the arbiter (R99) -/

section
variable {w : Switching} {c : Choice}

/-- A due poll of an element whose operation is, or is not, MAINTENANCE. -/
def Polls (w : Switching) (maintenance : Bool) (x : Choice) : Prop :=
  ∃ el ∈ w.elements, ∃ began, el.moving = some ⟨began, .due x.since⟩ ∧ x.cmd = .poll el.address ∧ x.owner = el.group
    ∧ (maintenance = true ↔ ∃ op, w.opOf el.group = some op ∧ op.cls = .maintenance)

/-- A ready transaction of an operation in flight that is not MAINTENANCE. -/
def Readies (w : Switching) (x : Choice) : Prop :=
  ∃ op ∈ w.queue, op.inFlight = true ∧ op.cls ≠ .maintenance ∧ op.ready = some (x.since, x.cmd) ∧ x.owner = op.group

/-- An operation that is not MAINTENANCE is queued. -/
def Waits (w : Switching) : Prop := ∃ op ∈ w.queue, op.inFlight = false ∧ op.cls ≠ .maintenance

theorem classOf_iff (w : Switching) (el : Element) :
    w.classOf el = some .maintenance ↔ ∃ op, w.opOf el.group = some op ∧ op.cls = .maintenance := by
  unfold Switching.classOf
  rw [Option.map_eq_some_iff]

theorem mem_duePolls {maintenance : Bool} {x : Choice} : x ∈ w.duePolls maintenance ↔ Polls w maintenance x := by
  have class_ : ∀ el : Element, decide (w.classOf el = some .maintenance) = maintenance ↔
      (maintenance = true ↔ ∃ op, w.opOf el.group = some op ∧ op.cls = .maintenance) := fun el => by
    rw [← classOf_iff]
    by_cases m : w.classOf el = some .maintenance <;> cases maintenance <;> simp [m]
  unfold Switching.duePolls Polls
  rw [List.mem_filterMap]
  refine exists_congr fun el => and_congr_right fun _ => ?_
  split
  · next began since moving =>
    rw [moving]
    split
    · next h =>
      rw [class_ el] at h
      constructor
      · intro e
        cases e
        exact ⟨began, rfl, rfl, rfl, h⟩
      · rintro ⟨b, moving', cmd, owner, -⟩
        obtain ⟨since', cmd', owner'⟩ := x
        cases moving'
        dsimp only at cmd owner
        rw [cmd, owner]
    · next h =>
      rw [class_ el] at h
      exact iff_of_false nofun fun ⟨_, _, _, _, m⟩ => h m
  · next other =>
    exact iff_of_false nofun fun ⟨b, moving, _⟩ => other b x.since moving

theorem mem_readyOnes {x : Choice} : x ∈ w.readyOnes ↔ Readies w x := by
  unfold Switching.readyOnes Readies
  rw [List.mem_filterMap]
  refine exists_congr fun op => and_congr_right fun _ => ?_
  cases ready : op.ready with
  | none => simp
  | some at_ =>
    obtain ⟨since, cmd⟩ := at_
    dsimp only
    by_cases flies : op.inFlight = true ∧ op.cls ≠ .maintenance
    · rw [if_pos flies]
      constructor
      · intro e
        cases e
        exact ⟨flies.1, flies.2, rfl, rfl⟩
      · rintro ⟨-, -, same, owner⟩
        obtain ⟨since', cmd', owner'⟩ := x
        cases same
        exact congrArg some (congrArg _ owner.symm)
    · rw [if_neg flies]
      exact iff_of_false nofun fun h => flies ⟨h.1, h.2.1⟩

theorem earliest_duePolls {maintenance : Bool} : earliest (w.duePolls maintenance) = none ↔ ¬ ∃ x, Polls w maintenance x := by
  rw [earliest_eq_none, List.eq_nil_iff_forall_not_mem, not_exists]
  exact forall_congr' fun x => not_congr mem_duePolls

theorem earliest_readyOnes : earliest w.readyOnes = none ↔ ¬ ∃ x, Readies w x := by
  rw [earliest_eq_none, List.eq_nil_iff_forall_not_mem, not_exists]
  exact forall_congr' fun x => not_congr mem_readyOnes

/-- An entry is the first that is queued and is, or is not, MAINTENANCE (R98). -/
def First (w : Switching) (maintenance : Bool) (c : Choice) : Prop :=
  ∃ before op after, w.queue = before ++ op :: after ∧ op.inFlight = false ∧ (maintenance = true ↔ op.cls = .maintenance)
    ∧ (∀ x ∈ before, x.inFlight = true ∨ ¬ (maintenance = true ↔ x.cls = .maintenance)) ∧ c.owner = op.group ∧ c.cmd = op.first

theorem queuedAs_iff {maintenance : Bool} {op : Op} :
    (!op.inFlight && decide (decide (op.cls = .maintenance) = maintenance)) = true ↔
      op.inFlight = false ∧ (maintenance = true ↔ op.cls = .maintenance) := by
  cases maintenance <;> simp

theorem firstQueued_some {maintenance : Bool} (h : w.firstQueued maintenance = some c) : First w maintenance c := by
  obtain ⟨op, found, rfl⟩ := Option.map_eq_some_iff.mp h
  obtain ⟨fits, before, after, queue, none⟩ := List.find?_eq_some_iff_append.mp found
  obtain ⟨queued, cls⟩ := queuedAs_iff.mp fits
  refine ⟨before, op, after, queue, queued, cls, fun x mem => ?_, rfl, rfl⟩
  have no : ¬ _ := fun h => Bool.eq_false_iff.mp (Bool.not_eq_true' _ |>.mp (none x mem)) (queuedAs_iff.mpr h)
  cases flies : x.inFlight
  · exact .inr fun same => no ⟨flies, same⟩
  · exact .inl rfl

theorem firstQueued_eq_none {maintenance : Bool} : w.firstQueued maintenance = none ↔
    ∀ op ∈ w.queue, ¬ (op.inFlight = false ∧ (maintenance = true ↔ op.cls = .maintenance)) := by
  unfold Switching.firstQueued
  rw [Option.map_eq_none_iff, List.find?_eq_none]
  exact forall_congr' fun op => forall_congr' fun _ => not_congr queuedAs_iff

theorem firstQueued_false_none : w.firstQueued false = none ↔ ¬ Waits w := by
  rw [firstQueued_eq_none]
  unfold Waits
  push Not
  simp

/-! ### The arbiter's choice (R99) -/

theorem no_polls_iff : (¬ (∃ x, Polls w false x) ∧ ¬ ∃ x, Polls w true x) ↔
    ∀ el ∈ w.elements, ∀ m due, el.moving = some m → m.poll ≠ .due due := by
  constructor
  · rintro ⟨others, maintenance⟩ el mem ⟨began, poll⟩ due moving rfl
    by_cases m : ∃ op, w.opOf el.group = some op ∧ op.cls = .maintenance
    · exact maintenance ⟨⟨due, .poll el.address, el.group⟩, el, mem, began, moving, rfl, rfl, iff_of_true rfl m⟩
    · exact others ⟨⟨due, .poll el.address, el.group⟩, el, mem, began, moving, rfl, rfl, iff_of_false Bool.false_ne_true m⟩
  · intro rests
    have no : ∀ m, ¬ ∃ x, Polls w m x := fun m ⟨x, el, mem, began, moving, _⟩ => rests el mem _ _ moving rfl
    exact ⟨no false, no true⟩

theorem no_ops_iff : (¬ (∃ x, Readies w x) ∧ w.firstQueued false = none ∧ w.firstQueued true = none) ↔
    ∀ op ∈ w.queue, op.inFlight = true ∧ (op.ready = none ∨ op.cls = .maintenance) := by
  rw [firstQueued_eq_none, firstQueued_eq_none]
  constructor
  · rintro ⟨ready, others, maintenance⟩ op mem
    have flies : op.inFlight = true := by
      by_contra queued
      have queued : op.inFlight = false := Bool.eq_false_iff.mpr queued
      by_cases cls : op.cls = .maintenance
      · exact maintenance op mem ⟨queued, iff_of_true rfl cls⟩
      · exact others op mem ⟨queued, iff_of_false Bool.false_ne_true cls⟩
    refine ⟨flies, or_iff_not_imp_right.mpr fun cls => Option.eq_none_iff_forall_ne_some.mpr fun at_ held => ready ?_⟩
    exact ⟨⟨at_.1, at_.2, op.group⟩, op, mem, flies, cls, held, rfl⟩
  · intro idle
    have flies : ∀ m, ∀ op ∈ w.queue, ¬ (op.inFlight = false ∧ (m = true ↔ op.cls = .maintenance)) := fun m op mem h => by
      rw [(idle op mem).1] at h
      cases h.1
    refine ⟨fun ⟨x, op, mem, _, cls, held, _⟩ => ?_, flies false, flies true⟩
    rcases (idle op mem).2 with none | maintenance
    · rw [none] at held
      cases held
    · exact cls maintenance

theorem choose_eq_none : w.choose = none ↔
    (∀ el ∈ w.elements, ∀ m due, el.moving = some m → m.poll ≠ .due due)
      ∧ ∀ op ∈ w.queue, op.inFlight = true ∧ (op.ready = none ∨ op.cls = .maintenance) := by
  rw [← no_polls_iff, ← no_ops_iff]
  unfold Switching.choose
  rw [Option.or_eq_none_iff, Option.or_eq_none_iff, Option.or_eq_none_iff, Option.or_eq_none_iff, earliest_duePolls, earliest_duePolls,
    earliest_readyOnes]
  tauto

theorem or_eq_left {α : Type} {a b : Option α} {x : α} (h : a.or b = some x) (some_ : a ≠ none) : a = some x := by
  cases a with
  | none => exact absurd rfl some_
  | some y => exact h

theorem or_eq_right {α : Type} {a b : Option α} {x : α} (h : a.or b = some x) (none_ : a = none) : b = some x := by
  subst none_
  exact h

/-- What the choice is, in the order of R99. -/
theorem choose_some (h : w.choose = some c) :
    ((∃ x, Polls w false x) → earliest (w.duePolls false) = some c)
      ∧ (¬ (∃ x, Polls w false x) → (∃ x, Readies w x) → earliest w.readyOnes = some c)
      ∧ (¬ (∃ x, Polls w false x) → ¬ (∃ x, Readies w x) → Waits w → w.firstQueued false = some c)
      ∧ (¬ (∃ x, Polls w false x) → ¬ (∃ x, Readies w x) → ¬ Waits w → (∃ x, Polls w true x) →
          earliest (w.duePolls true) = some c)
      ∧ (¬ (∃ x, Polls w false x) → ¬ (∃ x, Readies w x) → ¬ Waits w → ¬ (∃ x, Polls w true x) → w.firstQueued true = some c) := by
  unfold Switching.choose at h
  have due : ∀ m, (∃ x, Polls w m x) → earliest (w.duePolls m) ≠ none := fun m d e => earliest_duePolls.mp e d
  have past := fun d => or_eq_right h (earliest_duePolls.mpr d)
  have past' := fun d r => or_eq_right (past d) (earliest_readyOnes.mpr r)
  have past'' := fun d r q => or_eq_right (past' d r) (firstQueued_false_none.mpr q)
  refine ⟨fun d => or_eq_left h (due false d), fun d r => or_eq_left (past d) fun e => earliest_readyOnes.mp e r,
    fun d r q => or_eq_left (past' d r) fun e => firstQueued_false_none.mp e q, fun d r q m => or_eq_left (past'' d r q) (due true m),
    fun d r q m => or_eq_right (past'' d r q) (earliest_duePolls.mpr m)⟩

/-- Whether R98 bars a choice. -/
theorem barred_iff : w.barred c = true ↔ Waits w ∧ ∃ op, w.opOf c.owner = some op ∧ op.cls = .maintenance := by
  unfold Switching.barred Waits
  rw [Bool.and_eq_true, Option.any_eq_true, List.any_eq_true, and_comm]
  simp only [decide_eq_true_eq, Bool.and_eq_true, Bool.not_eq_true']

theorem arbitrate_busy (busy : w.bus ≠ none) : w.arbitrate = w := if_pos (Option.isSome_iff_ne_none.mpr busy)

theorem arbitrate_free (free : w.bus = none) :
    w.arbitrate = { w with chosen := (w.chosen.filter fun c => !w.barred c).or w.choose } := by
  unfold Switching.arbitrate
  rw [free]
  rfl

/-! ### Entries that leave and join (R98, R100) -/

theorem keepOps_chosen (keep : Op → Bool) :
    (w.keepOps keep).chosen = some c ↔ w.chosen = some c ∧ ∀ op, w.opOf c.owner = some op → keep op = true := by
  show w.chosen.filter _ = some c ↔ _
  rw [Option.filter_eq_some_iff, Option.all_eq_true]

theorem placeOp_ahead {op : Op} (queue : List Op) (cls : op.cls ≠ .maintenance) :
    ∃ before after, queue = before ++ after ∧ placeOp queue op = before ++ op :: after
      ∧ (∀ x ∈ before, ¬ (x.cls = .maintenance ∧ x.inFlight = false))
      ∧ (∀ x rest, after = x :: rest → x.cls = .maintenance ∧ x.inFlight = false) := by
  have waits : ∀ x : Op, x.waitsLast = true ↔ x.cls = .maintenance ∧ x.inFlight = false := fun x => by
    unfold Op.waitsLast
    rw [Bool.and_eq_true, decide_eq_true_eq, Bool.not_eq_true']
  refine ⟨queue.takeWhile fun o => !o.waitsLast, queue.dropWhile fun o => !o.waitsLast, List.takeWhile_append_dropWhile.symm,
    if_neg cls, fun x mem h => ?_, fun x rest after => (waits x).mp ?_⟩
  · have := List.mem_takeWhile_imp mem
    rw [(waits x).mpr h] at this
    cases this
  · have head := List.head_dropWhile_not (fun o : Op => !o.waitsLast) (l := queue) (by rw [after]; nofun)
    simpa [after] using head

end

end Sys2Proof.Machine
end

section
/-! The transactions of the bus (R92, R93, R99, R186). -/

namespace Sys2Proof.Machine

section
variable {env : SwEnv} {g : GroupId} {w : Switching} {op : Op}

/-! ### An entry changed -/

theorem modOp_opOf {f : Op → Op} (keeps : ∀ o, (f o).group = o.group) : (w.modOp g f).opOf g = (w.opOf g).map f := by
  show ((w.queue.map fun o => if o.group = g then f o else o).find? fun o => decide (o.group = g)) = _
  rw [List.find?_map]
  have same : ((fun o : Op => decide (o.group = g)) ∘ fun o => if o.group = g then f o else o) = fun o => decide (o.group = g) := by
    funext o
    by_cases e : o.group = g
    · simp [e, keeps]
    · simp [e]
  rw [same]
  show (w.opOf g).map _ = _
  cases held : w.opOf g with
  | none => rfl
  | some o => exact congrArg some (if_pos (opOf_some held).2)

theorem modOp_some {f : Op → Op} (ho : w.opOf g = some op) (keeps : ∀ o, (f o).group = o.group) :
    (w.modOp g f).opOf g = some (f op) := by
  rw [modOp_opOf keeps, ho]
  rfl

theorem setKnown_opOf (env : SwEnv) (a : Nat) (pos : Option Nat) (w : Switching) : (w.setKnown env a pos).opOf g = w.opOf g := by
  unfold Switching.opOf
  rw [Switching.setKnown_queue]

/-! ### A read goes on (R93) -/

theorem readOn_second {x y : Nat} (ho : w.opOf g = some op) (kind : op.kind = .read y (some x)) (first : op.second = false) :
    w.readOn env g = w.modOp g fun o => { o with second := true, ready := some (env.now, .read x) } := by
  unfold Switching.readOn
  rw [ho]
  dsimp only
  rw [kind, first]

theorem readOn_end {y : Nat} {b : Option Nat} (ho : w.opOf g = some op) (kind : op.kind = .read y b) (last : b = none ∨ op.second = true) :
    w.readOn env g = if op.unread.isEmpty then w.succeed env g else w.failOp env g y := by
  unfold Switching.readOn
  rw [ho]
  dsimp only
  rw [kind]
  rcases last with rfl | second
  · rfl
  · cases b <;> rw [second]

/-! ### Answer failure (R92, R93) -/

/-- The block as a transaction ends without an answer (R92). -/
def Switching.unanswered (now : Nat) (w : Switching) : Switching := { w with bus := none, busFreeAt := now, busDefect := true }

section
variable {t : Transaction}

theorem answerFailure_orphan (orphan : t.orphan = true) : w.answerFailure env t = w.unanswered env.now := if_pos orphan

variable (own : t.orphan = false)
include own

theorem answerFailure_poll {a : Nat} (cmd : t.cmd = .poll a) :
    w.answerFailure env t = ((w.unanswered env.now).rests a).failOp env t.owner a := by
  unfold Switching.answerFailure
  dsimp only
  rw [own, cmd]
  rfl

theorem answerFailure_move (cmd : (∃ x, t.cmd = .move t.cmd.address x) ∨ ∃ x y, t.cmd = .paired t.cmd.address x y) :
    w.answerFailure env t = (w.unanswered env.now).failOp env t.owner t.cmd.address := by
  unfold Switching.answerFailure
  dsimp only
  rw [own]
  generalize t.cmd.address = a at cmd ⊢
  rcases cmd with ⟨x, e⟩ | ⟨x, y, e⟩ <;> rw [e] <;> rfl

/-- The block after a read that found no answer, before the next read (R93). -/
def Switching.unread (env : SwEnv) (g : GroupId) (a : Nat) (adopts : Bool) (w : Switching) : Switching :=
  let v := w.modOp g fun op => { op with unread := op.unread ++ [a] }
  if adopts then v.setKnown env a none else v

theorem answerFailure_read {a : Nat} (cmd : t.cmd = .read a) (ho : w.opOf t.owner = some op) :
    w.answerFailure env t = ((w.unanswered env.now).unread env t.owner a (decide (op.cls = .adopt))).readOn env t.owner := by
  have held : ((w.unanswered env.now).modOp t.owner fun op => { op with unread := op.unread ++ [a] }).opOf t.owner =
      some { op with unread := op.unread ++ [a] } :=
    modOp_some (show (w.unanswered env.now).opOf t.owner = some op from ho) fun _ => rfl
  have adopts : (((w.unanswered env.now).modOp t.owner fun op => { op with unread := op.unread ++ [a] }).opOf t.owner).any
      (fun op => decide (op.cls = .adopt)) = decide (op.cls = .adopt) := by
    rw [held]
    rfl
  unfold Switching.unread
  dsimp only
  rw [← adopts]
  unfold Switching.answerFailure
  dsimp only
  rw [own, cmd]
  rfl

end

theorem unread_opOf {a : Nat} (adopts : Bool) (ho : w.opOf g = some op) :
    (w.unread env g a adopts).opOf g = some { op with unread := op.unread ++ [a] } := by
  have held : (w.modOp g fun op => { op with unread := op.unread ++ [a] }).opOf g = some { op with unread := op.unread ++ [a] } :=
    modOp_some ho fun _ => rfl
  unfold Switching.unread
  dsimp only
  split
  · rw [setKnown_opOf]
    exact held
  · exact held

/-- Answer failure frees the bus, and ACTUATOR-BUS comes up (R92). -/
theorem answerFailure_bus (t : Transaction) : (w.answerFailure env t).bus = none ∧ (w.answerFailure env t).busFreeAt = env.now
    ∧ (w.answerFailure env t).busDefect = true := by
  have through : ∀ {v u : Switching}, u.bus = v.bus ∧ u.busFreeAt = v.busFreeAt ∧ u.busDefect = v.busDefect →
      v.bus = none ∧ v.busFreeAt = env.now ∧ v.busDefect = true → u.bus = none ∧ u.busFreeAt = env.now ∧ u.busDefect = true :=
    fun ⟨b, f, d⟩ h => ⟨b.trans h.1, f.trans h.2.1, d.trans h.2.2⟩
  unfold Switching.answerFailure
  dsimp only
  split
  · exact ⟨rfl, rfl, rfl⟩
  · split
    · refine through (readOn_bus env _ _) ?_
      split
      · have kept := busKept_setKnown env t.cmd.address none
          ((w.close env.now false).modOp t.owner fun op => { op with unread := op.unread ++ [t.cmd.address] })
        exact through ⟨kept.bus, kept.busFreeAt, kept.busDefect⟩ ⟨rfl, rfl, rfl⟩
      · exact ⟨rfl, rfl, rfl⟩
    · exact through (failOp_bus env _ _ _) ⟨rfl, rfl, rfl⟩
    · exact through (failOp_bus env _ _ _) ⟨rfl, rfl, rfl⟩
    · exact through (failOp_bus env _ _ _) ⟨rfl, rfl, rfl⟩

/-- An operation that fails for want of an answer puts its group on the settle-failure list, but for a read (R101, R107). -/
theorem answerFailure_listed {t : Transaction} {grp : Group} (own : t.orphan = false) (hg : w.groups[t.owner] = some grp)
    (ho : w.opOf t.owner = some op) (notRead : ∀ a, t.cmd ≠ .read a) : t.owner ∈ (w.answerFailure env t).settleFail := by
  unfold Switching.answerFailure
  dsimp only
  rw [own]
  cases cmd : t.cmd with
  | read a => exact absurd cmd (notRead a)
  | move a x => exact failOp_listed (w := w.close env.now false) hg ho
  | paired a x y => exact failOp_listed (w := w.close env.now false) hg ho
  | poll a => exact failOp_listed (w := (w.close env.now false).rests _) hg ho

theorem onRepeat_repeating {t : Transaction} {due now : Nat} (bus : w.bus = some t) (repeats : t.exchange = .repeating due) :
    w.onRepeat now =
      { w with bus := some { t with exchange := .awaiting (now + t.cmd.duration + 2000), repeated := true } } := by
  unfold Switching.onRepeat
  rw [bus]
  dsimp only
  rw [repeats]

theorem onAnswerTimeout_awaiting {t : Transaction} {due : Nat} (bus : w.bus = some t) (awaits : t.exchange = .awaiting due) :
    w.onAnswerTimeout env =
      if t.repeated ∨ !t.repeatable then w.answerFailure env t
      else { w with bus := some { t with exchange := .repeating (env.now + 80) } } := by
  unfold Switching.onAnswerTimeout
  rw [bus]
  dsimp only
  rw [awaits]

end

/-! ### A transaction begins (R99, R186) -/

theorem begin_cmd (now : Nat) (c : Choice) (w : Switching) : (w.begin now c).bus =
    some ⟨c.cmd, c.owner, .awaiting (now + 40 * c.cmd.bytes.length + 2000), false, false, true⟩ := rfl

theorem actTxd_begin {now time : Nat} (later : now ≤ time) (c : Choice) (w : Switching) :
    actTxd time (w.begin now c) = levelOf (lineBits c.cmd.bytes) ((time - now) / 4) := by
  unfold actTxd
  rw [begin_cmd]
  dsimp only
  congr 1
  unfold bitAt BusCmd.duration
  omega

/-- Settles O36: the arbiter's order, the queue, and the commands of the bus. -/
theorem busRunsOneTransactionAtATime : Obligations.BusRunsOneTransactionAtATime := by
  unfold Obligations.BusRunsOneTransactionAtATime
  refine ⟨?_, ?_, ?_⟩
  · intro w v waits barred
    have bars : ∀ c, barred c ↔ w.barred c = true := fun c => barred_iff.symm
    refine ⟨arbitrate_busy, fun free => ⟨?_, fun c held no => ?_, fun h => ?_⟩, choose_eq_none, fun c chosen => ?_, fun keep => ?_⟩
    · show w.arbitrate = _
      rw [show v.chosen = w.arbitrate.chosen from rfl, arbitrate_free free]
    · show w.arbitrate.chosen = _
      rw [arbitrate_free free]
      dsimp only
      rw [held, Option.filter_some_pos (by simpa using fun h => no ((bars c).mpr h))]
      rfl
    · show w.arbitrate.chosen = _
      rw [arbitrate_free free]
      dsimp only
      rcases h with none | ⟨c, held, bar⟩
      · rw [none]
        rfl
      · rw [held, Option.filter_some_neg (by simpa using (bars c).mp bar)]
        rfl
    · obtain ⟨h1, h2, h3, h4, h5⟩ := choose_some chosen
      intro polls readies leads first due ready
      have ledPolls : ∀ m, earliest (w.duePolls m) = some c → leads (polls m) := fun m h =>
        ⟨mem_duePolls.mp (earliest_leads h).1, fun x p => (earliest_leads h).2 x (mem_duePolls.mpr p)⟩
      have ledReady : earliest w.readyOnes = some c → leads readies := fun h =>
        ⟨mem_readyOnes.mp (earliest_leads h).1, fun x r => (earliest_leads h).2 x (mem_readyOnes.mpr r)⟩
      have isFirst : ∀ m, w.firstQueued m = some c → first m := fun m h => by
        obtain ⟨before, op, after, queue, queued, cls, others, owner, cmd⟩ := firstQueued_some h
        refine ⟨before, op, after, queue, queued, cls, others, owner, cmd.trans ?_⟩
        unfold Op.first
        cases op.kind <;> rfl
      exact ⟨fun d => ledPolls false (h1 d), fun d r => ledReady (h2 d r), fun d r q => isFirst false (h3 d r q),
        fun d r q m => ledPolls true (h4 d r q m), fun d r q m => isFirst true (h5 d r q m)⟩
    · exact ⟨rfl, fun c => keepOps_chosen keep⟩
  · exact fun queue op => ⟨fun cls => if_pos cls, placeOp_ahead queue⟩
  · intro s
    refine ⟨fun rests => ?_, fun c free chosen => ?_, fun t due bus repeats => ?_, fun t due bus awaits => ?_⟩
    · exact congrArg Host.Outcome.next (by
        split
        · next free chosen =>
          rcases rests with busy | none
          · exact absurd free busy
          · rw [none] at chosen
            cases chosen
        · rfl)
    · intro now
      refine ⟨s.sw.begin now c, ?_, begin_cmd now c s.sw, ?_, fun time later => actTxd_begin later c s.sw⟩
      · show execBusTransactionStart s = _
        unfold execBusTransactionStart
        rw [free, chosen]
        rfl
      · unfold Switching.begin
        cases c.cmd <;> rfl
    · show execCommandRepeat s = _
      unfold execCommandRepeat
      rw [bus, Option.map_some, repeats]
      dsimp only
      rw [onRepeat_repeating (w := (s.reach due).sw) bus repeats]
      rfl
    · let u := inSwitch (fun env => Switching.onAnswerTimeout env) (s.reach due)
      have sw : u.sw = if t.repeated ∨ !t.repeatable then s.sw.answerFailure u.swEnv t
          else { s.sw with bus := some { t with exchange := .repeating (max s.now due + 80) } } := onAnswerTimeout_awaiting bus awaits
      refine ⟨u, ?_, inSwitch_busCascade (sameRecords_onAnswerTimeout _ _), fun first again => ?_, fun last => ?_⟩
      · show execAnswerTimeout s = _
        unfold execAnswerTimeout
        rw [bus, Option.map_some, awaits]
      · rw [sw, first, again]
        rfl
      · have fails : u.sw = s.sw.answerFailure u.swEnv t := sw.trans (if_pos (last.imp id fun h => by rw [h]; rfl))
        obtain ⟨b, f, d⟩ := answerFailure_bus (env := u.swEnv) (w := s.sw) t
        rw [← fails] at b f d
        refine ⟨b, f, d, ?_⟩
        intro closed a
        refine ⟨fun orphan => fails.trans (answerFailure_orphan orphan), fun own cmd => fails.trans (answerFailure_poll own cmd),
          fun own cmd => fails.trans (answerFailure_move own cmd), fun op y b own cmd ho kind => ?_, fun grp op own hg ho notRead => ?_⟩
        · have reads := fails.trans (answerFailure_read own cmd ho)
          have held := unread_opOf (env := u.swEnv) (a := a) (decide (op.cls = .adopt))
            (show (s.sw.unanswered u.swEnv.now).opOf t.owner = some op from ho)
          intro unread lost
          have lostIs : (s.sw.unanswered u.swEnv.now).unread u.swEnv t.owner a (decide (op.cls = .adopt)) = lost :=
            if_congr decide_eq_true_iff rfl rfl
          rw [lostIs] at reads held
          refine ⟨fun last => reads.trans ?_, fun x second first => reads.trans ?_⟩
          · refine (readOn_end held kind last).trans (if_neg ?_)
            simp
          · exact readOn_second held (kind.trans (congrArg _ second)) first
        · rw [fails]
          exact answerFailure_listed own hg ho notRead

end Sys2Proof.Machine
end

section
/-! The answers on the bus (R91, R93, R94, R96, R187). -/

namespace Sys2Proof.Machine

/-! ### The transaction an answer ends (R187) -/

section
variable {w : Switching} {run : AnswerRun} {frame : List Byte} {fits : BusCmd → Bool} {t : Transaction}

theorem runHolds_iff : runHolds run = true ↔ (∀ gap ∈ run.gaps, gap ≤ 40) ∧ run.framing = false := by
  unfold runHolds characterTime
  rw [Bool.and_eq_true, List.all_eq_true, Bool.not_eq_true']
  simp only [decide_eq_true_eq]

theorem answeredBy_eq_some : w.answeredBy run frame fits = some t ↔
    ∃ due, w.bus = some t ∧ t.exchange = .awaiting due ∧ (∀ gap ∈ run.gaps, gap ≤ 40) ∧ run.framing = false
      ∧ frame.head? = some (byteOf (t.cmd.address + 0x80)) ∧ byteSum frame = 0 ∧ fits t.cmd = true := by
  unfold Switching.answeredBy
  cases w.bus with
  | none => exact iff_of_false nofun fun ⟨_, h, _⟩ => nomatch h
  | some x =>
    dsimp only
    cases awaits : x.exchange with
    | repeating at_ =>
      refine iff_of_false nofun fun ⟨due, same, exchange, _⟩ => ?_
      obtain rfl : x = t := Option.some.inj same
      rw [awaits] at exchange
      cases exchange
    | awaiting due =>
      dsimp only
      constructor
      · intro h
        split at h
        · next tests =>
          obtain rfl : x = t := Option.some.inj h
          obtain ⟨holds, head, sum, fit⟩ := tests
          obtain ⟨gaps, framing⟩ := runHolds_iff.mp holds
          exact ⟨due, rfl, awaits, gaps, framing, head, sum, fit⟩
        · cases h
      · rintro ⟨due', same, -, gaps, framing, head, sum, fit⟩
        obtain rfl : x = t := Option.some.inj same
        exact if_pos ⟨runHolds_iff.mpr ⟨gaps, framing⟩, head, sum, fit⟩

end

/-! ### Which commands an answer answers (R187) -/

def BusCmd.isRead : BusCmd → Bool
  | .read _ => true
  | _ => false

def BusCmd.isMove : BusCmd → Bool
  | .move _ _ | .paired _ _ _ => true
  | _ => false

def BusCmd.isPaired : BusCmd → Bool
  | .paired _ _ _ => true
  | _ => false

def BusCmd.isPoll : BusCmd → Bool
  | .poll _ => true
  | _ => false

theorem isRead_iff {c : BusCmd} : c.isRead = true ↔ ∃ a, c = .read a := by cases c <;> simp [BusCmd.isRead]

theorem isMove_iff {c : BusCmd} : c.isMove = true ↔ (∃ a x, c = .move a x) ∨ ∃ a x y, c = .paired a x y := by
  cases c <;> simp [BusCmd.isMove]

theorem isPaired_iff {c : BusCmd} : c.isPaired = true ↔ ∃ a x y, c = .paired a x y := by cases c <;> simp [BusCmd.isPaired]

theorem isPoll_iff {c : BusCmd} : c.isPoll = true ↔ ∃ a, c = .poll a := by cases c <;> simp [BusCmd.isPoll]

/-- What a run of characters ends goes by the commands it answers. -/
theorem answeredBy_as {w : Switching} {run : AnswerRun} {frame : List Byte} {fits answers : BusCmd → Bool} {t : Option Transaction}
    (same : ∀ c, fits c = answers c) (h : w.answeredBy run frame answers = t) : w.answeredBy run frame fits = t := by
  rw [funext same]
  exact h

/-! ### A run of characters at the part -/

section
variable {f : SwEnv → Switching → Switching} {s : State} {t : Transaction} {due : Nat}

theorem answered_discards (same : ∀ env, f env s.sw = s.sw) : answered f s = s := by
  unfold answered
  dsimp only
  rw [same]
  exact if_pos rfl

theorem answered_ends (bus : s.sw.bus = some t) (awaits : t.exchange = .awaiting due) (ends : ∀ env, (f env s.sw).bus = none) :
    answered f s = finish .none (inSwitch f (s.reach (due - 2000))) := by
  have frameEnd : s.sw.frameEnd = due - 2000 := by
    unfold Switching.frameEnd
    rw [bus, Option.map_some, awaits]
  unfold answered
  dsimp only
  rw [ends, bus, if_neg nofun, frameEnd]

/-- The block as a transaction ends with an answer (R92). -/
def Switching.closed (now : Nat) (w : Switching) : Switching := { w with bus := none, busFreeAt := now, busDefect := false }

/-- An answer ends its transaction; one to a transaction that counts for nothing else has no other effect (R92, R187). -/
theorem answered_answer {i : Instr} {good : SwEnv → Switching} (row : exec i s = .next (answered f s)) (bus : s.sw.bus = some t)
    (awaits : t.exchange = .awaiting due) (made : ∀ env, f env s.sw = if t.orphan then s.sw.closed env.now else good env)
    (records : ∀ env w, SameRecords w (f env w))
    (free : ∀ env, (good env).bus = none ∧ (good env).busFreeAt = env.now ∧ (good env).busDefect = false) :
    ∃ u, exec i s = .next (finish .none u) ∧ BusCascade (s.reach (due - 2000)) u
      ∧ u.sw.bus = none ∧ u.sw.busFreeAt = max s.now (due - 2000) ∧ u.sw.busDefect = false
      ∧ (t.orphan = true → u.sw = s.sw.closed (max s.now (due - 2000)))
      ∧ (t.orphan = false → u.sw = good u.swEnv) ∧ u.now = max s.now (due - 2000) := by
  have closes : ∀ env, (f env s.sw).bus = none ∧ (f env s.sw).busFreeAt = env.now ∧ (f env s.sw).busDefect = false := fun env => by
    rw [made env]
    split
    · exact ⟨rfl, rfl, rfl⟩
    · exact free env
  let u := inSwitch f (s.reach (due - 2000))
  have sw : u.sw = if t.orphan then s.sw.closed (max s.now (due - 2000)) else good u.swEnv := made u.swEnv
  obtain ⟨b, at_, d⟩ := closes u.swEnv
  exact ⟨u, row.trans (congrArg _ (answered_ends bus awaits fun env => (closes env).1)), inSwitch_busCascade (records _ _), b, at_, d,
    fun orphan => sw.trans (if_pos orphan), fun own => sw.trans (if_neg (by rw [own]; exact Bool.false_ne_true)), rfl⟩

end

/-! ### What each answer does -/

section
variable {env : SwEnv} {w : Switching} {run : AnswerRun} {frame : List Byte} {t : Transaction}

/-- The block after a POSITION, before the next read (R91, R93). -/
def Switching.positioned (env : SwEnv) (g : GroupId) (a : Nat) (pos cap partner : Byte) (w : Switching) : Switching :=
  (((w.closed env.now).modElement a fun el =>
      { el with paired := decide (cap = 1), partner := if cap = 1 then some partner.toNat else none }).setKnown env a
    (some pos.toNat)).modOp g fun op => { op with matched := decide (w.known a = some pos.toNat) }

theorem onPosition_answered {pos cap partner : Byte} (by_ : w.answeredBy run frame BusCmd.isRead = some t)
    (range : pos.toNat ≤ 7 ∧ cap.toNat ≤ 1 ∧ (cap = 1 → 1 ≤ partner.toNat ∧ partner.toNat ≤ 62)) :
    w.onPosition env run frame pos cap partner =
      if t.orphan then w.closed env.now
      else (w.positioned env t.owner t.cmd.address pos cap partner).readOn env t.owner := by
  obtain ⟨low, flag, address⟩ := range
  have fits : ¬ (7 < pos.toNat ∨ 1 < cap.toNat ∨ (cap = 1 ∧ (partner.toNat < 1 ∨ 62 < partner.toNat))) := fun h => by
    rcases h with h | h | ⟨one, h⟩
    · omega
    · omega
    · have := address one
      omega
  unfold Switching.onPosition
  rw [answeredBy_as (fun c => by cases c <;> rfl) by_]
  exact if_neg fits

theorem onAccepted_answered
    (by_ : w.answeredBy run frame BusCmd.isMove = some t) :
    w.onAccepted env run frame =
      if t.orphan then w.closed env.now else (w.closed env.now).moves env.now t.cmd.address := by
  unfold Switching.onAccepted
  rw [answeredBy_as (fun c => by cases c <;> rfl) by_]
  rfl

theorem onRefused_answered {fault : Byte}
    (by_ : w.answeredBy run frame (fun c => !c.isRead) = some t) :
    w.onRefused env run frame fault =
      if t.orphan then w.closed env.now
      else (((w.closed env.now).modElement t.cmd.address fun el => { el with lastFault := fault }).rests t.cmd.address).failOp env t.owner
        t.cmd.address := by
  unfold Switching.onRefused
  rw [answeredBy_as (fun c => by cases c <;> rfl) by_]
  rfl

/-- The block after a SINGLE-ONLY (R91, R96). -/
def Switching.singled (now : Nat) (g : GroupId) (a : Nat) (w : Switching) : Switching :=
  ({ w with elements := w.elements.map fun (el : Element) =>
      if el.address = a ∨ (w.element a).bind (·.partner) = some el.address then { el with paired := false } else el }
    : Switching).modOp g fun op =>
      match op.kind with
      | .paired x st _ _ => { op with single := true, ready := some (now, .move x st) }
      | _ => op

theorem onSingleOnly_answered
    (by_ : w.answeredBy run frame BusCmd.isPaired = some t) :
    w.onSingleOnly env run frame =
      if t.orphan then w.closed env.now else (w.closed env.now).singled env.now t.owner t.cmd.address := by
  unfold Switching.onSingleOnly
  rw [answeredBy_as (fun c => by cases c <;> rfl) by_]
  rfl

theorem onMoving_answered (by_ : w.answeredBy run frame BusCmd.isPoll = some t) :
    w.onMoving env run frame =
      if t.orphan then w.closed env.now
      else (w.closed env.now).modElement t.cmd.address fun el =>
        { el with moving := el.moving.map fun m => { m with poll := .waiting (env.now + 5000) } } := by
  unfold Switching.onMoving
  rw [answeredBy_as (fun c => by cases c <;> rfl) by_]
  rfl

theorem onSettled_answered {pos : Byte} (by_ : w.answeredBy run frame BusCmd.isPoll = some t)
    (range : pos.toNat ≤ 7) :
    w.onSettled env run frame pos =
      if t.orphan then w.closed env.now
      else if (w.opOf t.owner).bind (·.targetOf t.cmd.address) = some pos.toNat then
        (((w.closed env.now).rests t.cmd.address).setKnown env t.cmd.address (some pos.toNat)).moveOn env t.owner t.cmd.address
      else ((w.closed env.now).rests t.cmd.address).failOp env t.owner t.cmd.address := by
  unfold Switching.onSettled
  rw [answeredBy_as (fun c => by cases c <;> rfl) by_]
  exact if_neg (Nat.not_lt.mpr range)

/-! ### A run of characters that is no answer (R187) -/

section
variable {inRange : Prop} {rest : List Byte} {answers : BusCmd → Bool} {Answers : BusCmd → Prop}

/-- Where no open exchange fits the run, no transaction is answered, or the answer is out of range. -/
theorem answeredBy_discarded (means : ∀ c, answers c = true ↔ Answers c)
    (no : ¬ (∃ t due, w.bus = some t ∧ t.exchange = .awaiting due ∧ (∀ gap ∈ run.gaps, gap ≤ 40) ∧ run.framing = false
      ∧ run.first = byteOf (t.cmd.address + 0x80) ∧ byteSum (run.first :: rest) = 0 ∧ Answers t.cmd ∧ inRange)) :
    w.answeredBy run (run.first :: rest) answers = none ∨ ¬ inRange := by
  refine or_iff_not_imp_right.mpr fun range => Option.eq_none_iff_forall_ne_some.mpr fun t by_ => ?_
  obtain ⟨due, bus, awaits, gaps, framing, head, sum, fits⟩ := answeredBy_eq_some.mp by_
  exact no ⟨t, due, bus, awaits, gaps, framing, Option.some.inj head, sum, (means _).mp fits, not_not.mp range⟩

end

theorem onPosition_discards {pos cap partner : Byte}
    (no : w.answeredBy run frame BusCmd.isRead = none
      ∨ ¬ (pos.toNat ≤ 7 ∧ cap.toNat ≤ 1 ∧ (cap = 1 → 1 ≤ partner.toNat ∧ partner.toNat ≤ 62))) :
    w.onPosition env run frame pos cap partner = w := by
  unfold Switching.onPosition
  split
  · rfl
  · next t by_ =>
    have by_ := answeredBy_as (fits := BusCmd.isRead) (fun c => by cases c <;> rfl) by_
    refine if_pos (Decidable.not_not.mp fun fits => no.elim (fun none => ?_) fun range => range ?_)
    · rw [none] at by_
      cases by_
    · refine ⟨by omega, by omega, fun one => ?_⟩
      by_contra far
      exact fits (.inr (.inr ⟨one, by omega⟩))

theorem onAccepted_discards (no : w.answeredBy run frame BusCmd.isMove = none) : w.onAccepted env run frame = w := by
  unfold Switching.onAccepted
  rw [answeredBy_as (fun c => by cases c <;> rfl) no]

theorem onRefused_discards {fault : Byte} (no : w.answeredBy run frame (fun c => !c.isRead) = none) :
    w.onRefused env run frame fault = w := by
  unfold Switching.onRefused
  rw [answeredBy_as (fun c => by cases c <;> rfl) no]

theorem onSingleOnly_discards (no : w.answeredBy run frame BusCmd.isPaired = none) : w.onSingleOnly env run frame = w := by
  unfold Switching.onSingleOnly
  rw [answeredBy_as (fun c => by cases c <;> rfl) no]

theorem onMoving_discards (no : w.answeredBy run frame BusCmd.isPoll = none) : w.onMoving env run frame = w := by
  unfold Switching.onMoving
  rw [answeredBy_as (fun c => by cases c <;> rfl) no]

theorem onSettled_discards {pos : Byte} (no : w.answeredBy run frame BusCmd.isPoll = none ∨ ¬ pos.toNat ≤ 7) :
    w.onSettled env run frame pos = w := by
  unfold Switching.onSettled
  split
  · rfl
  · next t by_ =>
    have by_ := answeredBy_as (fits := BusCmd.isPoll) (fun c => by cases c <;> rfl) by_
    refine if_pos (Nat.not_le.mp (no.resolve_left fun none => ?_))
    rw [none] at by_
    cases by_

/-! ### A known position reaches its group (R56, R60, R90) -/

theorem setKnown_groups {a : Nat} {pos : Option Nat} {el : Element} (he : w.element a = some el)
    (still : el.role = .bridge ∨ el.known = pos) : (w.setKnown env a pos).groups = w.groups := by
  unfold Switching.setKnown
  rw [he]
  dsimp only
  rw [if_neg fun h => still.elim (fun bridge => by rw [bridge] at h; exact nomatch h.1) h.2]
  rfl

/-- A group's record as its selector is known settled on another member than its stay request's (R56). -/
def Group.selectorAt (pos : Option Nat) (grp : Group) : Group :=
  match grp.stay, pos with
  | some st, some s => if st.member ≠ s then grp.dropStay else grp
  | _, _ => grp

theorem selectorAt_kept (pos : Option Nat) (grp : Group) :
    (grp.selectorAt pos).state = grp.state ∧ (grp.selectorAt pos).external = grp.external ∧ (grp.selectorAt pos).cfg = grp.cfg
      ∧ (grp.selectorAt pos).trialResult = grp.trialResult ∧ (grp.selectorAt pos).trialTimer = grp.trialTimer := by
  unfold Group.selectorAt
  repeat' split
  all_goals exact ⟨rfl, rfl, rfl, rfl, rfl⟩

theorem selectorAt_drops {st : Request} {m : Nat} {grp : Group} (stays : grp.stay = some st) (other : st.member ≠ m) :
    (grp.selectorAt (some m)).stay = none := by
  unfold Group.selectorAt
  rw [stays]
  dsimp only
  rw [if_pos other]
  rfl

theorem selectorMoved_eq (env : SwEnv) (g : GroupId) (pos : Option Nat) (w : Switching) :
    w.selectorMoved env g pos = (w.modGroup g (Group.selectorAt pos)).refresh env g := rfl

theorem setKnown_selector {a : Nat} {pos : Option Nat} {el : Element} {grp : Group} (he : w.element a = some el)
    (role : el.role = .selector) (moves : el.known ≠ pos) (hg : w.groups[el.group] = some grp) :
    ∃ new, (w.setKnown env a pos).groups[el.group] = some new ∧ Formed env (w.setKnown env a pos) new ∧ new.state = grp.state
      ∧ new.external = grp.external ∧ (∀ st m, grp.stay = some st → pos = some m → st.member ≠ m → new.stay = none) := by
  have made : w.setKnown env a pos = (w.modElement a fun x =>
      { x with known := pos, lastSettled := if pos.isSome then pos else x.lastSettled }).selectorMoved env el.group pos := by
    unfold Switching.setKnown
    rw [he]
    exact if_pos ⟨role, moves⟩
  have dropped := Switching.modGroup_some (w := w.modElement a fun x =>
    { x with known := pos, lastSettled := if pos.isSome then pos else x.lastSettled }) (f := Group.selectorAt pos) hg
  have formed := Switching.refresh_some (env := env) dropped
  obtain ⟨state, external, -⟩ := selectorAt_kept pos grp
  rw [made, selectorMoved_eq]
  refine ⟨_, formed, formedIn_refresh env el.group _ _ formed, ?_, ?_, fun st m stays at_ other => ?_⟩
  · rw [Group.form_state, Group.decode_state, state]
  · rw [Group.form_external, Group.decode_external, external]
  · subst at_
    exact Group.form_noStay ((Group.decode_stay _ _).trans (selectorAt_drops stays other))

end

end Sys2Proof.Machine
end

section
/-! What the answers leave of the elements and the groups (R91, R93, R94, R96). -/

namespace Sys2Proof.Machine

section
variable {env : SwEnv} {g : GroupId} {w : Switching} {t : Transaction} {op : Op}

theorem modOp_none {f : Op → Op} (ho : w.opOf g = none) (keeps : ∀ o, (f o).group = o.group) : (w.modOp g f).opOf g = none := by
  rw [modOp_opOf keeps, ho]
  rfl

theorem modElement_some {a : Nat} {f : Element → Element} {el : Element} (he : w.element a = some el)
    (keeps : ∀ x, (f x).address = x.address) : (w.modElement a f).element a = some (f el) := by
  rw [Switching.element_modElement _ _ keeps, if_pos rfl, he]
  rfl

/-! ### POSITION -/

theorem positioned_bus (g : GroupId) (a : Nat) (pos cap partner : Byte) :
    (w.positioned env g a pos cap partner).bus = none ∧ (w.positioned env g a pos cap partner).busFreeAt = env.now
      ∧ (w.positioned env g a pos cap partner).busDefect = false := by
  have kept := busKept_setKnown env a (some pos.toNat) ((w.closed env.now).modElement a fun el =>
    { el with paired := decide (cap = 1), partner := if cap = 1 then some partner.toNat else none })
  exact ⟨kept.bus, kept.busFreeAt, kept.busDefect⟩

theorem positioned_opOf {a : Nat} {pos cap partner : Byte} (ho : w.opOf g = some op) :
    (w.positioned env g a pos cap partner).opOf g = some { op with matched := decide (w.known a = some pos.toNat) } := by
  refine modOp_some ((setKnown_opOf env a _ _).trans ho) ?_
  exact fun _ => rfl

theorem positioned_opOf_none {a : Nat} {pos cap partner : Byte} (ho : w.opOf g = none) :
    (w.positioned env g a pos cap partner).opOf g = none := by
  refine modOp_none ((setKnown_opOf env a _ _).trans ho) ?_
  exact fun _ => rfl

/-- The record of the element read (R91, R93). -/
theorem positioned_element {a : Nat} {pos cap partner : Byte} {el : Element} (he : w.element a = some el) :
    (w.positioned env g a pos cap partner).element a = some { el with
      paired := decide (cap = 1), partner := if cap = 1 then some partner.toNat else none
      known := some pos.toNat, lastSettled := some pos.toNat } := by
  show ((Switching.modElement _ a _).setKnown env a (some pos.toNat)).element a = _
  have learned : ((w.closed env.now).modElement a fun el =>
      { el with paired := decide (cap = 1), partner := if cap = 1 then some partner.toNat else none }).element a = _ :=
    modElement_some (show (w.closed env.now).element a = some el from he) fun _ => rfl
  rw [Switching.element_setKnown, if_pos rfl, learned]
  rfl

/-! ### REFUSED -/

theorem refused_elements (a : Nat) (fault : Byte) (w : Switching) :
    (w.modElement a fun el => { el with lastFault := fault }).rests a =
      { w with elements := w.elements.map fun el => if el.address = a then { el with lastFault := fault, moving := none } else el } := by
  show { w with elements := (w.elements.map _).map _ } = _
  rw [List.map_map]
  congr 1
  refine List.map_congr_left fun el _ => ?_
  dsimp only [Function.comp_apply]
  by_cases e : el.address = a
  · rw [if_pos e, if_pos e]
    exact (if_pos e).symm
  · rw [if_neg e, if_neg e]
    exact (if_neg e).symm

end

/-- Settles O37: each answer as what it leaves of the block, the runs that are none, and the known position taken by its group. -/
theorem answersEndTheTransaction : Obligations.AnswersEndTheTransaction := by
  unfold Obligations.AnswersEndTheTransaction
  refine ⟨?_, ?_, ?_⟩
  · intro t due run check s bus awaits gaps framing first a now closed runs
    have by_ : ∀ {rest : List Byte} {fits : BusCmd → Bool}, byteSum (run.first :: rest) = 0 → fits t.cmd = true →
        s.sw.answeredBy run (run.first :: rest) fits = some t := fun sum fit =>
      answeredBy_eq_some.mpr ⟨due, bus, awaits, gaps, framing, congrArg some first, sum, fit⟩
    refine ⟨fun pos cap partner cmd low flag address sum => ?_, fun moves sum => ?_, fun fault notRead sum => ?_, fun pair sum => ?_⟩
    · obtain ⟨u, row, cascade, b, f, d, orphan, own, at_⟩ := answered_answer
        (f := fun env => Switching.onPosition env run [run.first, 0x81, pos, cap, partner, check] pos cap partner)
        (i := .answerPosition run pos cap partner check) rfl bus awaits
        (fun env => onPosition_answered (by_ sum (by rw [cmd]; rfl)) ⟨low, flag, address⟩)
        (fun env w => sameRecords_onPosition env run _ pos cap partner w)
        (fun env => by
          obtain ⟨b, f, d⟩ := readOn_bus env t.owner (s.sw.positioned env t.owner a pos cap partner)
          obtain ⟨b', f', d'⟩ := positioned_bus (env := env) (w := s.sw) t.owner a pos cap partner
          exact ⟨b.trans b', f.trans f', d.trans d'⟩)
      refine ⟨u, row, cascade, b, f, d, orphan, fun no => ?_⟩
      have sw := own no
      refine ⟨fun el he quiet => ?_, fun op x y ho kind => ?_⟩
      · have read := readOn_element u.swEnv t.owner a (s.sw.positioned u.swEnv t.owner a pos cap partner) fun op held => by
          cases ho : s.sw.opOf t.owner with
          | none =>
            rw [positioned_opOf_none ho] at held
            cases held
          | some o =>
            rw [positioned_opOf ho] at held
            cases held
            exact quiet o ho
        rw [← sw, positioned_element he] at read
        exact ⟨_, read, rfl, rfl, rfl, rfl, rfl⟩
      · have held := positioned_opOf (env := u.swEnv) (a := a) (pos := pos) (cap := cap) (partner := partner) ho
        intro learned known read
        have readIs : s.sw.positioned u.swEnv t.owner a pos cap partner = read := by
          unfold Switching.positioned
          rw [show u.swEnv.now = now from at_]
          rfl
        rw [readIs] at sw held
        refine ⟨fun b second first => sw.trans ?_, fun last none_ => sw.trans ?_, fun last some_ => sw.trans ?_⟩
        · rw [readOn_second held (kind.trans (congrArg _ second)) first, show u.swEnv.now = now from at_]
          rfl
        · rw [readOn_end held kind last]
          exact if_pos (List.isEmpty_iff.mpr none_)
        · rw [readOn_end held kind last]
          exact if_neg fun h => some_ (List.isEmpty_iff.mp h)
    · obtain ⟨u, row, cascade, b, f, d, orphan, own, at_⟩ := answered_answer
        (f := fun env => Switching.onAccepted env run [run.first, 0x82, check])
        (i := .answerAccepted run check) rfl bus awaits
        (fun env => onAccepted_answered (by_ sum (isMove_iff.mpr (moves.imp (fun h => ⟨_, h⟩) fun h => ⟨_, h⟩))))
        (fun env w => sameRecords_onAccepted env run _ w) (fun env => ⟨rfl, rfl, rfl⟩)
      exact ⟨u, row, cascade, b, f, d, orphan, fun no => (own no).trans (by rw [show u.swEnv.now = now from at_]; rfl)⟩
    · have fits : (!t.cmd.isRead) = true := by
        rw [Bool.not_eq_true', ← Bool.not_eq_true, isRead_iff]
        exact fun ⟨x, h⟩ => notRead x h
      obtain ⟨u, row, cascade, b, f, d, orphan, own, at_⟩ := answered_answer
        (f := fun env => Switching.onRefused env run [run.first, 0x83, fault, check] fault)
        (i := .answerRefused run fault check) rfl bus awaits
        (fun env => onRefused_answered (by_ (fits := fun c => !c.isRead) sum fits))
        (fun env w => sameRecords_onRefused env run _ fault w)
        (fun env => by
          obtain ⟨b, f, d⟩ := failOp_bus env t.owner a
            (((s.sw.closed env.now).modElement a fun el => { el with lastFault := fault }).rests a)
          exact ⟨b, f, d⟩)
      refine ⟨u, row, cascade, b, f, d, orphan, fun no => ?_⟩
      have sw := own no
      rw [show u.swEnv.now = now from at_] at sw
      refine ⟨sw.trans (congrArg (Switching.failOp u.swEnv t.owner a) (refused_elements a fault _)), fun el he => ?_, fun grp op hg ho => ?_⟩
      · have rested : (((s.sw.closed now).modElement a fun el => { el with lastFault := fault }).rests a).element a =
            some { el with lastFault := fault, moving := none } := by
          have stored : ((s.sw.closed now).modElement a fun el => { el with lastFault := fault }).element a =
              some { el with lastFault := fault } :=
            modElement_some (show (s.sw.closed now).element a = some el from he) fun _ => rfl
          rw [Switching.element_rests, if_pos rfl, stored]
          rfl
        rcases failOp_element u.swEnv t.owner a a
          (((s.sw.closed now).modElement a fun el => { el with lastFault := fault }).rests a) with e | e
        · rw [← sw, rested] at e
          exact ⟨_, e, rfl, rfl⟩
        · rw [← sw, rested] at e
          exact ⟨_, e, rfl, rfl⟩
      · rw [sw]
        exact failOp_listed (w := ((s.sw.closed now).modElement a fun el => { el with lastFault := fault }).rests a) hg ho
    · obtain ⟨u, row, cascade, b, f, d, orphan, own, at_⟩ := answered_answer
        (f := fun env => Switching.onSingleOnly env run [run.first, 0x84, check])
        (i := .answerSingleOnly run check) rfl bus awaits
        (fun env => onSingleOnly_answered (by_ sum (isPaired_iff.mpr ⟨_, pair⟩)))
        (fun env w => sameRecords_onSingleOnly env run _ w) (fun env => ⟨rfl, rfl, rfl⟩)
      exact ⟨u, row, cascade, b, f, d, orphan, fun no => (own no).trans (by rw [show u.swEnv.now = now from at_]; rfl)⟩
  · intro run pos cap partner fault check s discards moves polls
    have row : ∀ {i : Instr} {f : SwEnv → Switching → Switching}, exec i s = .next (answered f s) → (∀ env, f env s.sw = s.sw) →
        exec i s = .next s := fun h same => h.trans (congrArg _ (answered_discards same))
    have refuses : ∀ c : BusCmd, (!c.isRead) = true ↔ moves c ∨ polls c := fun c => by
      cases c <;> simp [BusCmd.isRead, moves, polls]
    exact ⟨fun no => row rfl fun env => onPosition_discards (answeredBy_discarded (fun _ => isRead_iff) no),
      fun no => row rfl fun env => onAccepted_discards ((answeredBy_discarded (fun _ => isMove_iff) no).resolve_right (not_not.mpr trivial)),
      fun no => row rfl fun env => onRefused_discards ((answeredBy_discarded (Answers := fun c => moves c ∨ polls c) refuses no).resolve_right (not_not.mpr trivial)),
      fun no => row rfl fun env => onSingleOnly_discards ((answeredBy_discarded (fun _ => isPaired_iff) no).resolve_right (not_not.mpr trivial)),
      fun no => row rfl fun env => onMoving_discards ((answeredBy_discarded (fun _ => isPoll_iff) no).resolve_right (not_not.mpr trivial)),
      fun no => row rfl fun env => onSettled_discards (answeredBy_discarded (fun _ => isPoll_iff) no)⟩
  · intro env a pos w v
    have kept := busKept_setKnown env a pos w
    refine ⟨Switching.setKnown_queue env a pos w, kept.bus, kept.settleFail, fun b ne => ?_, fun el he => ⟨?_, setKnown_groups he,
      fun grp role moves hg => setKnown_selector he role moves hg⟩⟩
    · exact (Switching.element_setKnown env a b pos w).trans (if_neg ne)
    · show (w.setKnown env a pos).element a = _
      rw [Switching.element_setKnown, if_pos rfl, he]
      rfl

end Sys2Proof.Machine
end

section
/-! What an operation's end does by its class and the group's state (R64, R81, R87, R88, R101, R102, R104, R106). -/

namespace Sys2Proof.Machine

section
variable {env : SwEnv} {g : GroupId} {w : Switching} {grp : Group} {op : Op} {a : Nat}

/-! ### Success (R101) -/

section
variable (hg : w.groups[g] = some grp) (ho : w.opOf g = some op) (away : grp.state ≠ .maint)
include hg ho away

theorem succeed_move (cls : op.cls = .protection) (move : ¬ ∃ x y, op.kind = .read x y) : w.succeed env g = (w.dropOp g).step env g := by
  unfold Switching.succeed
  rw [hg, ho]
  dsimp only
  rw [if_neg away, cls]
  cases kind : op.kind with
  | read x y => exact absurd ⟨x, y, kind⟩ move
  | move _ _ => rfl
  | paired _ _ _ _ => rfl

theorem succeed_trial (cls : op.cls = .protection) (read : ∃ x y, op.kind = .read x y) :
    w.succeed env g = (w.dropOp g).trialOutcome env g op op.matched := by
  obtain ⟨x, y, kind⟩ := read
  unfold Switching.succeed
  rw [hg, ho]
  dsimp only
  rw [if_neg away, cls, kind]

theorem succeed_recovery (cls : op.cls = .recovery) : w.succeed env g = (w.dropOp g).stand env g .frozen := by
  unfold Switching.succeed
  rw [hg, ho]
  dsimp only
  rw [if_neg away, cls]

theorem succeed_maintenance (cls : op.cls = .maintenance) : w.succeed env g = w.dropOp g := by
  unfold Switching.succeed
  rw [hg, ho]
  dsimp only
  rw [if_neg away, cls]

end

/-! ### Failure (R101) -/

/-- The block after an operation's entry has left for its failure, the group on the settle-failure list (R101, R107). -/
def Switching.failed (g : GroupId) (w : Switching) : Switching := { w.dropOp g with settleFail := addFailure g w.settleFail }

section
variable (hg : w.groups[g] = some grp) (ho : w.opOf g = some op)
include hg ho

theorem failOp_maint_move (maint : grp.state = .maint) (move : ¬ ∃ x y, op.kind = .read x y) :
    w.failOp env g a = (w.failed g).setKnown env a none := by
  unfold Switching.failOp
  rw [hg, ho]
  dsimp only
  rw [if_pos maint]
  cases kind : op.kind with
  | read x y => exact absurd ⟨x, y, kind⟩ move
  | move _ _ => rfl
  | paired _ _ _ _ => rfl

theorem failOp_maint_read (maint : grp.state = .maint) (read : ∃ x y, op.kind = .read x y) :
    w.failOp env g a = op.unread.foldl (fun w a => w.setKnown env a none) (w.failed g) := by
  obtain ⟨x, y, kind⟩ := read
  unfold Switching.failOp
  rw [hg, ho]
  dsimp only
  rw [if_pos maint, kind]
  rfl

variable (away : grp.state ≠ .maint)
include away

theorem failOp_move (cls : op.cls = .protection) (move : ¬ ∃ x y, op.kind = .read x y) :
    w.failOp env g a = (w.failed g).recover env g a := by
  unfold Switching.failOp
  rw [hg, ho]
  dsimp only
  rw [if_neg away, cls]
  cases kind : op.kind with
  | read x y => exact absurd ⟨x, y, kind⟩ move
  | move _ _ => rfl
  | paired _ _ _ _ => rfl

theorem failOp_trial (cls : op.cls = .protection) (read : ∃ x y, op.kind = .read x y) :
    w.failOp env g a = if op.judged then (w.failed g).trialOutcome env g op false else w.failed g := by
  obtain ⟨x, y, kind⟩ := read
  unfold Switching.failOp
  rw [hg, ho]
  dsimp only
  rw [if_neg away, cls, kind]
  rfl

theorem failOp_adopt_read (cls : op.cls = .adopt) (read : ∃ x y, op.kind = .read x y) :
    w.failOp env g a = (w.failed g).stand env g .halted := by
  obtain ⟨x, y, kind⟩ := read
  unfold Switching.failOp
  rw [hg, ho]
  dsimp only
  rw [if_neg away, cls, kind]
  rfl

theorem failOp_adopt_move (cls : op.cls = .adopt) (move : ¬ ∃ x y, op.kind = .read x y) :
    w.failOp env g a = ((w.failed g).setKnown env a none).stand env g .halted := by
  unfold Switching.failOp
  rw [hg, ho]
  dsimp only
  rw [if_neg away, cls]
  cases kind : op.kind with
  | read x y => exact absurd ⟨x, y, kind⟩ move
  | move _ _ => rfl
  | paired _ _ _ _ => rfl

theorem failOp_recovery (cls : op.cls = .recovery) : w.failOp env g a = ((w.failed g).setKnown env a none).stand env g .halted := by
  unfold Switching.failOp
  rw [hg, ho]
  dsimp only
  rw [if_neg away, cls]
  rfl

theorem failOp_maintenance (cls : op.cls = .maintenance) : w.failOp env g a = (w.failed g).setKnown env a none := by
  unfold Switching.failOp
  rw [hg, ho]
  dsimp only
  rw [if_neg away, cls]
  rfl

end

/-! ### A trial read that ends (R87, R88) -/

theorem endTrial_raised (hg : w.groups[g] = some grp) (res : TrialResult) : (w.endTrial env g res).raised =
    if env.notify then w.raised ++ [.group g (some grp.state) grp.effective (w.selected grp) res] else w.raised := by
  have ended := Switching.modGroup_some (f := fun x => { x with trialResult := res, trialTimer := none }) hg
  unfold Switching.endTrial
  dsimp only
  rw [Switching.refresh_raised]
  unfold Switching.note
  rw [ended]
  dsimp only [Option.map_some]
  show (ite _ _ _ : Switching).raised = _
  split <;> rfl

/-- A trial read that still counts ends its trial, and a step takes what changed meanwhile. -/
theorem trialOutcome_judged (hg : w.groups[g] = some grp) (judged : op.judged = true) (pass : Bool) :
    ∃ mid new, w.trialOutcome env g op pass = mid.step env g ∧ mid.groups[g] = some new ∧ Formed env mid new
      ∧ new.trialResult = (if pass then .pass else .fail) ∧ new.trialTimer = none ∧ new.external = none ∧ new.state = grp.state
      ∧ mid.queue = w.queue ∧ mid.elements = w.elements
      ∧ mid.raised = if env.notify then
          w.raised ++ [.group g (some grp.state) grp.effective (w.selected grp) (if pass then .pass else .fail)] else w.raised := by
  have ended := Switching.endTrial_some (env := env) (res := if pass then .pass else .fail) hg
  have same := queueSame_endTrial env g (if pass then .pass else .fail) w
  refine ⟨w.endTrial env g (if pass then .pass else .fail), _, ?_, ended, formedIn_refresh env g _ _ ended, by simp, by simp, by simp,
    by simp, same.queue, ?_, endTrial_raised hg _⟩
  · unfold Switching.trialOutcome
    rw [judged]
    rfl
  · exact (onlyGroup_endTrial env g _ w).elements

theorem trialOutcome_stopped (stopped : op.judged = false) (pass : Bool) : w.trialOutcome env g op pass = w.step env g := by
  unfold Switching.trialOutcome
  rw [stopped]
  rfl

/-! ### A group that stands down without an operation (R64) -/

theorem stand_queue_free {st : GroupState} (free : w.opOf g = none) : (w.stand env g st).queue = w.queue := by
  rw [stand_queue]
  unfold Switching.calmed
  repeat' split
  · exact Switching.setExternal_queue free
  · rfl
  · rfl

/-- What a known position leaves of a group's record. -/
theorem setKnown_group {pos : Option Nat} (hg : w.groups[g] = some grp) : ∃ new, (w.setKnown env a pos).groups[g] = some new
    ∧ new.state = grp.state ∧ new.external = grp.external ∧ new.cfg = grp.cfg ∧ new.trialResult = grp.trialResult
    ∧ new.trialTimer = grp.trialTimer := by
  unfold Switching.setKnown
  split
  · exact ⟨grp, hg, rfl, rfl, rfl, rfl, rfl⟩
  · next el he =>
    dsimp only
    split
    · by_cases own : el.group = g
      · subst own
        obtain ⟨state, external, cfg, result, timer⟩ := selectorAt_kept pos grp
        have dropped := Switching.modGroup_some (w := w.modElement a fun x =>
          { x with known := pos, lastSettled := if pos.isSome then pos else x.lastSettled }) (f := Group.selectorAt pos) hg
        exact ⟨_, Switching.refresh_some dropped, by simp [state], by simp [external], by simp [cfg], by simp [result], by simp [timer]⟩
      · exact ⟨grp, ((onlyGroup_selectorMoved env el.group pos _).others g (Ne.symm own)).trans hg, rfl, rfl, rfl, rfl, rfl⟩
    · exact ⟨grp, hg, rfl, rfl, rfl, rfl, rfl⟩

theorem known_forgotten (env : SwEnv) (a : Nat) (w : Switching) : (w.setKnown env a none).known a = none := by
  unfold Switching.known
  rw [Switching.element_setKnown, if_pos rfl]
  cases w.element a <;> rfl

theorem known_congr {v : Switching} (elements : v.elements = w.elements) (b : Nat) : v.known b = w.known b := by
  unfold Switching.known
  rw [Switching.element_of_elements elements]

/-- A group that stands down as an element's position becomes unknown (R64, R102). -/
theorem forget_stand {st : GroupState} (hg : w.groups[g] = some grp) (free : w.opOf g = none) :
    (∃ new, ((w.setKnown env a none).stand env g st).groups[g] = some new
        ∧ Formed env ((w.setKnown env a none).stand env g st) new ∧ Stood st grp new)
      ∧ ((w.setKnown env a none).stand env g st).known a = none
      ∧ ((w.setKnown env a none).stand env g st).queue = w.queue := by
  obtain ⟨mid, hm, state, external, cfg, result, timer⟩ := setKnown_group (env := env) (a := a) (pos := none) hg
  obtain ⟨new, hn, formed, stood⟩ := stand_stood (env := env) (st := st) hm
  have temporary : mid.hasTemporary = grp.hasTemporary := by
    unfold Group.hasTemporary
    rw [external]
  refine ⟨⟨new, hn, formed, stood.state, stood.stay, stood.restoreTimer, stood.cfg.trans cfg, ?_, ?_⟩, ?_, ?_⟩
  · rw [stood.external, temporary, external]
  · have trial := stood.trial
    rwa [external, result, timer] at trial
  · rw [known_congr stand_elements]
    exact known_forgotten env a w
  · rw [stand_queue_free ((setKnown_opOf env a none w).trans free), Switching.setKnown_queue]

end

end Sys2Proof.Machine
end

section
/-! Moves (R95, R96), and what an operation's end does (R101, R102). -/

namespace Sys2Proof.Machine

section
variable {env : SwEnv} {g : GroupId} {w : Switching} {grp : Group} {op : Op} {a : Nat}

/-! ### Recovery (R81, R102) -/

theorem recover_back {pos : Nat} (settled : (w.element a).bind (·.lastSettled) = some pos) :
    w.recover env g a = (w.enter env g .recovering).place (.new .recovery (.move a pos) g) := by
  unfold Switching.recover
  rw [settled]

theorem recover_never (settled : (w.element a).bind (·.lastSettled) = none) :
    w.recover env g a = (w.setKnown env a none).stand env g .halted := by
  unfold Switching.recover
  rw [settled]

theorem recover_made {pos : Nat} (hg : w.groups[g] = some grp) (settled : (w.element a).bind (·.lastSettled) = some pos) :
    (w.recover env g a).groups[g] = some (if grp.state = .recovering then grp else { grp with
        state := .recovering, awaitTimer := none, farBridgeTimeout := false })
      ∧ (w.recover env g a).queue = placeOp w.queue (.new .recovery (.move a pos) g) ∧ (w.recover env g a).elements = w.elements := by
  rw [recover_back settled]
  refine ⟨(enter_groups (st := .recovering) hg).trans ?_, ?_, Switching.enter_elements _ _ _ _⟩
  · unfold Group.entered
    split <;> rfl
  · unfold Switching.place
    rw [Switching.enter_queue]

/-! ### A move that goes on (R96) -/

theorem moveOn_move {x : Nat} (ho : w.opOf g = some op) (kind : op.kind = .move a x) : w.moveOn env g a = w.succeed env g := by
  unfold Switching.moveOn
  rw [ho]
  dsimp only
  rw [kind]

theorem moveOn_paired_first {x st b bt : Nat} (ho : w.opOf g = some op) (kind : op.kind = .paired x st b bt) (own : a = x)
    (first : op.second = false) : w.moveOn env g a =
      if op.single then w.modOp g fun o => { o with second := true, ready := some (env.now, .move b bt) }
      else (w.modOp g fun o => { o with second := true }).moves env.now b := by
  unfold Switching.moveOn
  rw [ho]
  dsimp only
  rw [kind]
  exact if_pos ⟨own, first⟩

theorem moveOn_paired_last {x st b bt : Nat} (ho : w.opOf g = some op) (kind : op.kind = .paired x st b bt)
    (last : a ≠ x ∨ op.second = true) : w.moveOn env g a = w.succeed env g := by
  unfold Switching.moveOn
  rw [ho]
  dsimp only
  rw [kind]
  refine if_neg fun h => last.elim (fun other => other h.1) fun second => ?_
  rw [second] at h
  exact nomatch h.2

theorem succeed_element (b : Nat) : (w.succeed env g).element b = w.element b :=
  Switching.element_of_elements (onlyGroup_succeed env g w).elements b

theorem moves_element {now b : Nat} : (w.moves now b).element a =
    if a = b then (w.element a).map (fun x => { x with moving := some ⟨now, .waiting (now + 5000)⟩ }) else w.element a := by
  refine Switching.element_modElement b a ?_ w
  exact fun _ => rfl

/-- A move that goes on leaves every known position. -/
theorem moveOn_known (b : Nat) : (w.moveOn env g a).known b = w.known b := by
  unfold Switching.moveOn
  repeat' split
  · rfl
  · rfl
  · unfold Switching.known
    rw [moves_element]
    show (ite _ _ (w.element b)).bind _ = _
    split
    · show ((w.element b).map _).bind _ = _
      cases w.element b <;> rfl
    · rfl
  · exact known_congr (onlyGroup_succeed env g w).elements b
  · exact known_congr (onlyGroup_succeed env g w).elements b

/-- A move that goes on leaves the record of its own element, where its bridge is another one. -/
theorem moveOn_element (other : ∀ op, w.opOf g = some op → ∀ x y, op.kind ≠ .paired a x a y) :
    (w.moveOn env g a).element a = w.element a := by
  unfold Switching.moveOn
  split
  · rfl
  · next op ho =>
    split
    · next x st b bt kind =>
      split
      · next h =>
        split
        · rfl
        · rw [moves_element, if_neg]
          · rfl
          · rintro rfl
            exact other op ho st bt (by rw [kind, h.1])
      · exact succeed_element a
    · exact succeed_element a

/-! ### The moving set (R95) -/

theorem abandonPoll_other (now a : Nat) (w : Switching) : w.abandonPoll now a = { w with
    bus := (w.abandonPoll now a).bus, busFreeAt := (w.abandonPoll now a).busFreeAt, busDefect := (w.abandonPoll now a).busDefect } := by
  unfold Switching.abandonPoll
  repeat' split
  all_goals rfl

theorem abandonPoll_awaiting {now : Nat} {t : Transaction} {due : Nat} (bus : w.bus = some t) (cmd : t.cmd = .poll a)
    (awaits : t.exchange = .awaiting due) : (w.abandonPoll now a).bus = some { t with orphan := true, repeatable := false } := by
  unfold Switching.abandonPoll
  rw [bus]
  dsimp only
  rw [if_pos cmd, awaits]

theorem abandonPoll_none {now : Nat} (no : ∀ t, w.bus = some t → t.cmd ≠ .poll a) : w.abandonPoll now a = w := by
  unfold Switching.abandonPoll
  split
  · next t bus => exact if_neg (no t bus)
  · rfl

theorem onMoveTimeout_moving {el : Element} {m : Move} (he : w.element a = some el) (moving : el.moving = some m) :
    w.onMoveTimeout env a = ((w.abandonPoll env.now a).rests a).failOp env el.group a := by
  unfold Switching.onMoveTimeout
  rw [he]
  dsimp only
  rw [moving]
  rfl

end

end Sys2Proof.Machine
end

section
/-! The moving set and the ends of operations, as the commands bring them about (R81, R87, R88, R95, R96, R101, R102). -/

namespace Sys2Proof.Machine

/-! ### Commands of the moving set -/

section
variable {a : Nat} {s : State} {el : Element}

theorem exec_pollDue {began due : Nat} (he : s.sw.element a = some el) (moving : el.moving = some ⟨began, .waiting due⟩) :
    exec (.pollDue a) s = .next { s.reach due with sw := (s.sw.onPollDue a).arbitrate } := by
  show execPollDue a s = _
  unfold execPollDue
  rw [he, Option.bind_some, moving]
  rfl

theorem exec_moveTimeout {m : Move} (he : s.sw.element a = some el) (moving : el.moving = some m) :
    exec (.moveTimeout a) s =
      .next (finish .none (inSwitch (fun env => Switching.onMoveTimeout env a) (s.reach (m.began + 200000)))) := by
  show execMoveTimeout a s = _
  unfold execMoveTimeout
  rw [he, Option.bind_some, moving]
  rfl

/-- A move that times out (R95). -/
theorem moveTimeout_fails {m : Move} (he : s.sw.element a = some el) (moving : el.moving = some m) :
    ∃ u, exec (.moveTimeout a) s = .next (finish .none u) ∧ BusCascade (s.reach (m.began + 200000)) u
      ∧ (∃ el', u.sw.element a = some el' ∧ el'.moving = none ∧ el'.lastFault = el.lastFault)
      ∧ (∀ grp op, s.sw.groups[el.group] = some grp → s.sw.opOf el.group = some op → el.group ∈ u.sw.settleFail)
      ∧ (∀ t due, s.sw.bus = some t → t.cmd = .poll a → t.exchange = .awaiting due →
          u.sw.bus = some { t with orphan := true, repeatable := false })
      ∧ ((∀ t, s.sw.bus = some t → t.cmd ≠ .poll a) → u.sw = (s.sw.rests a).failOp u.swEnv el.group a) := by
  let u := inSwitch (fun env => Switching.onMoveTimeout env a) (s.reach (m.began + 200000))
  have sw : u.sw = ((s.sw.abandonPoll u.swEnv.now a).rests a).failOp u.swEnv el.group a := onMoveTimeout_moving he moving
  have other := abandonPoll_other u.swEnv.now a s.sw
  refine ⟨u, exec_moveTimeout he moving, inSwitch_busCascade (sameRecords_onMoveTimeout _ a _), ?_, fun grp op hg ho => ?_,
    fun t due bus cmd awaits => ?_, fun no => ?_⟩
  · have there : (s.sw.abandonPoll u.swEnv.now a).element a = some el := by
      rw [other]
      exact he
    have rested : ((s.sw.abandonPoll u.swEnv.now a).rests a).element a = some { el with moving := none } := by
      rw [Switching.element_rests, if_pos rfl, there]
      rfl
    rcases failOp_element u.swEnv el.group a a ((s.sw.abandonPoll u.swEnv.now a).rests a) with e | e
    · rw [← sw, rested] at e
      exact ⟨_, e, rfl, rfl⟩
    · rw [← sw, rested] at e
      exact ⟨_, e, rfl, rfl⟩
  · rw [sw]
    refine failOp_listed (grp := grp) (op := op) ?_ ?_
    · rw [other]
      exact hg
    · rw [other]
      exact ho
  · rw [sw, (failOp_bus _ _ _ _).1]
    exact abandonPoll_awaiting bus cmd awaits
  · rw [sw, abandonPoll_none no]

end

/-! ### The answers to a POLL -/

section
variable {t : Transaction} {due : Nat} {run : AnswerRun} {check : Byte} {a : Nat} {s : State} (bus : s.sw.bus = some t)
  (awaits : t.exchange = .awaiting due) (cmd : t.cmd = .poll a) (gaps : ∀ gap ∈ run.gaps, gap ≤ 40) (framing : run.framing = false)
  (first : run.first = byteOf (a + 0x80))
include bus awaits cmd gaps framing first

theorem answered_poll {rest : List Byte} (sum : byteSum (run.first :: rest) = 0) :
    s.sw.answeredBy run (run.first :: rest) BusCmd.isPoll = some t :=
  answeredBy_eq_some.mpr ⟨due, bus, awaits, gaps, framing, by rw [first, cmd]; rfl, sum, by rw [cmd]; rfl⟩

/-- MOVING puts the next poll 5 ms later (R95). -/
theorem answerMoving_polls (sum : byteSum [run.first, 0x85, check] = 0) :
    ∃ u, exec (.answerMoving run check) s = .next (finish .none u) ∧ BusCascade (s.reach (due - 2000)) u
      ∧ u.sw = if t.orphan then s.sw.closed (max s.now (due - 2000))
          else (s.sw.closed (max s.now (due - 2000))).modElement a fun el =>
            { el with moving := el.moving.map fun m => { m with poll := .waiting (max s.now (due - 2000) + 5000) } } := by
  have address : t.cmd.address = a := by rw [cmd]; rfl
  obtain ⟨u, row, cascade, -, -, -, orphan, own, at_⟩ := answered_answer
    (f := fun env => Switching.onMoving env run [run.first, 0x85, check])
    (i := .answerMoving run check) rfl bus awaits
    (fun env => onMoving_answered (answered_poll bus awaits cmd gaps framing first sum))
    (fun env w => sameRecords_onMoving env run _ w) (fun env => ⟨rfl, rfl, rfl⟩)
  refine ⟨u, row, cascade, ?_⟩
  cases no : t.orphan with
  | true => exact orphan no
  | false =>
    have sw := own no
    rwa [show u.swEnv.now = max s.now (due - 2000) from at_, address] at sw

/-- SETTLED takes the element out of the moving set: at its target the move goes on, elsewhere the operation fails (R95). -/
theorem answerSettled_settles {pos : Byte} (range : pos.toNat ≤ 7) (sum : byteSum [run.first, 0x86, pos, check] = 0) :
    ∃ u, exec (.answerSettled run pos check) s = .next (finish .none u) ∧ BusCascade (s.reach (due - 2000)) u
      ∧ u.sw.bus = none ∧ u.sw.busFreeAt = max s.now (due - 2000) ∧ u.sw.busDefect = false
      ∧ (t.orphan = true → u.sw = s.sw.closed (max s.now (due - 2000)))
      ∧ (t.orphan = false → u.sw =
          if (s.sw.opOf t.owner).bind (·.targetOf a) = some pos.toNat then
            (((s.sw.closed (max s.now (due - 2000))).rests a).setKnown u.swEnv a (some pos.toNat)).moveOn u.swEnv t.owner a
          else ((s.sw.closed (max s.now (due - 2000))).rests a).failOp u.swEnv t.owner a)
      ∧ u.now = max s.now (due - 2000) := by
  have address : t.cmd.address = a := by rw [cmd]; rfl
  obtain ⟨u, row, cascade, b, f, d, orphan, own, at_⟩ := answered_answer
    (f := fun env => Switching.onSettled env run [run.first, 0x86, pos, check] pos)
    (i := .answerSettled run pos check) rfl bus awaits
    (fun env => onSettled_answered (answered_poll bus awaits cmd gaps framing first sum) range)
    (fun env w => sameRecords_onSettled env run _ pos w)
    (fun env => by
      split
      · obtain ⟨b, f, d⟩ := moveOn_bus env t.owner t.cmd.address
          (((s.sw.closed env.now).rests t.cmd.address).setKnown env t.cmd.address (some pos.toNat))
        have kept := busKept_setKnown env t.cmd.address (some pos.toNat) ((s.sw.closed env.now).rests t.cmd.address)
        exact ⟨b.trans kept.bus, f.trans kept.busFreeAt, d.trans kept.busDefect⟩
      · exact failOp_bus env t.owner t.cmd.address ((s.sw.closed env.now).rests t.cmd.address))
  refine ⟨u, row, cascade, b, f, d, orphan, fun no => ?_, at_⟩
  have sw := own no
  rwa [show u.swEnv.now = max s.now (due - 2000) from at_, address] at sw

end

/-! ### The end of an operation, by its class -/

section
variable {env : SwEnv} {g : GroupId} {w : Switching} {grp : Group} {op : Op} {a : Nat} (hg : w.groups[g] = some grp)
  (ho : w.opOf g = some op)

theorem failed_opOf (g : GroupId) (w : Switching) : (w.failed g).opOf g = none := dropOp_opOf w g

theorem trialOutcome_elements (g : GroupId) (op : Op) (pass : Bool) (w : Switching) : (w.trialOutcome env g op pass).elements = w.elements :=
  (onlyGroup_trialOutcome env g op pass w).elements

include hg ho

/-- A failed move that has somewhere to go back to leaves the elements' records (R102). -/
theorem failOp_protection_elements (away : grp.state ≠ .maint) (cls : op.cls = .protection)
    (settled : (w.element a).bind (·.lastSettled) ≠ none) : (w.failOp env g a).elements = w.elements := by
  by_cases read : ∃ x y, op.kind = .read x y
  · rw [failOp_trial hg ho away cls read]
    split
    · exact trialOutcome_elements g op false (w.failed g)
    · rfl
  · obtain ⟨pos, back⟩ := Option.ne_none_iff_exists'.mp settled
    rw [failOp_move hg ho away cls read]
    exact (recover_made (w := w.failed g) hg back).2.2

/-- What a failure leaves of the settle-failure list (R107). -/
theorem failOp_settleFail : (w.failOp env g a).settleFail = addFailure g w.settleFail := (busKept_failOp hg ho).settleFail

end

/-- Settles O38: the moving set's commands, and the ends of operations by class and state. -/
theorem movesArePolledUntilSettled : Obligations.MovesArePolledUntilSettled := by
  unfold Obligations.MovesArePolledUntilSettled
  refine ⟨fun a s => ⟨fun el began due he moving => ?_, fun el m he moving => moveTimeout_fails he moving,
    fun t due run check bus awaits cmd gaps framing first => ?_⟩, ?_⟩
  · refine ⟨(s.sw.onPollDue a).elements, exec_pollDue he moving, ?_, fun b ne => ?_⟩
    · refine (modElement_some he ?_).trans (by rw [moving]; rfl)
      exact fun _ => rfl
    · refine (Switching.element_modElement a b ?_ s.sw).trans (if_neg ne)
      exact fun _ => rfl
  · intro now closed
    refine ⟨answerMoving_polls bus awaits cmd gaps framing first, fun pos range sum => ?_⟩
    obtain ⟨u, row, cascade, b, f, d, orphan, own, at_⟩ := answerSettled_settles bus awaits cmd gaps framing first range sum
    refine ⟨u, row, cascade, b, f, d, orphan, fun el op no he ho => ?_⟩
    intro rested settled
    have sw := own no
    rw [ho, Option.bind_some] at sw
    have restedElement : rested.element a = some { el with moving := none } := by
      show ((s.sw.closed now).rests a).element a = _
      rw [Switching.element_rests, if_pos rfl, show (s.sw.closed now).element a = some el from he]
      rfl
    have settledElement : settled.element a =
        some { el with moving := none, known := some pos.toNat, lastSettled := some pos.toNat } := by
      show (rested.setKnown u.swEnv a (some pos.toNat)).element a = _
      rw [Switching.element_setKnown, if_pos rfl, restedElement]
      rfl
    have held : settled.opOf t.owner = some op := (setKnown_opOf u.swEnv a _ rested).trans ho
    have at_target : op.targetOf a = some pos.toNat → u.sw = settled.moveOn u.swEnv t.owner a := fun h => sw.trans (if_pos h)
    have elsewhere : op.targetOf a ≠ some pos.toNat → u.sw = rested.failOp u.swEnv t.owner a := fun h => sw.trans (if_neg h)
    refine ⟨fun other => ?_, fun target => ⟨?_, fun x kind => ?_, fun x st b bt kind own first => ?_, fun x st b bt kind last => ?_⟩,
      fun target => ⟨elsewhere target, fun grp hg => ⟨?_, fun cls away settledOnce => ?_⟩⟩⟩
    · by_cases target : op.targetOf a = some pos.toNat
      · rw [at_target target, moveOn_element fun o ho' => by rw [held] at ho'; cases ho'; exact other]
        exact ⟨_, settledElement, rfl⟩
      · rw [elsewhere target]
        rcases failOp_element u.swEnv t.owner a a rested with e | e
        · exact ⟨_, e.trans restedElement, rfl⟩
        · rw [restedElement] at e
          exact ⟨_, e, rfl⟩
    · rw [at_target target, moveOn_known]
      unfold Switching.known
      rw [settledElement]
      rfl
    · exact (at_target target).trans (moveOn_move held kind)
    · refine (at_target target).trans ((moveOn_paired_first held kind own first).trans ?_)
      rw [show u.swEnv.now = now from at_]
      rfl
    · exact (at_target target).trans (moveOn_paired_last held kind last)
    · rw [elsewhere target]
      exact failOp_listed (w := rested) hg ho
    · have back : (rested.element a).bind (·.lastSettled) ≠ none := by
        rw [restedElement]
        exact settledOnce
      rw [elsewhere target, known_congr (failOp_protection_elements (w := rested) hg ho away cls back)]
      unfold Switching.known
      rw [restedElement, he]
      rfl
  · intro env g grp op a w hg ho good bad rest failed read stands judged
    have dropped : w.dropOp g = rest := dropOp_eq ho
    have failedIs : w.failed g = failed := by
      unfold Switching.failed
      rw [dropped]
      rfl
    have free : failed.opOf g = none := failedIs ▸ failed_opOf g w
    have restFree : rest.opOf g = none := dropped ▸ dropOp_opOf w g
    have halts : ∀ {v : Switching} {st : GroupState}, v.groups[g] = some grp → stands (v.stand env g st) st := fun hv => by
      obtain ⟨new, hn, formed, stood⟩ := stand_stood (env := env) hv
      exact ⟨new, hn, formed, stood.state, stood.stay, stood.restoreTimer, stood.cfg, stood.external, stood.trial⟩
    have forgets : stands ((failed.setKnown env a none).stand env g .halted) .halted
        ∧ ((failed.setKnown env a none).stand env g .halted).known a = none
        ∧ ((failed.setKnown env a none).stand env g .halted).queue = rest.queue := by
      obtain ⟨⟨new, hn, formed, stood⟩, known, queue⟩ := forget_stand (env := env) (a := a) (st := .halted) (w := failed) hg free
      exact ⟨⟨new, hn, formed, stood.state, stood.stay, stood.restoreTimer, stood.cfg, stood.external, stood.trial⟩, known, queue⟩
    refine ⟨failOp_settleFail hg ho, (onlyGroup_succeed env g w).settleFail, fun maint => ⟨?_, fun move => ?_, fun read x => ?_⟩, fun away =>
      ⟨fun cls move => ⟨?_, fun el pos he back => ?_, fun never => ?_⟩, fun cls read => ⟨fun isJudged => ⟨?_, ?_⟩, fun stopped => ⟨?_, ?_⟩⟩,
        fun cls => ?_, fun cls => ?_, fun cls => ⟨?_, ?_⟩⟩⟩
    · exact (succeed_maint hg ho maint).trans dropped
    · exact (failOp_maint_move hg ho maint move).trans (by rw [failedIs])
    · have forgotten := congrArg (Option.bind · (·.known)) (Switching.element_forget env op.unread x (w.failed g))
      rw [← failOp_maint_read (a := a) hg ho maint read] at forgotten
      refine ⟨fun mem => forgotten.trans ?_, fun notMem => forgotten.trans ?_⟩
      · rw [if_pos mem]
        cases (w.failed g).element x <;> rfl
      · rw [if_neg notMem]
        rfl
    · exact (succeed_move hg ho away cls move).trans (by rw [dropped])
    · have made := recover_made (env := env) (a := a) (w := failed) hg (by
        rw [show failed.element a = some el from he]
        exact back)
      rwa [← failedIs, ← failOp_move hg ho away cls move] at made
    · rw [← recover_never (w := failed) never, ← failedIs, ← failOp_move hg ho away cls move] at forgets
      exact forgets
    · have made := trialOutcome_judged (env := env) (w := rest) hg isJudged op.matched
      rwa [← dropped, ← succeed_trial hg ho away cls read] at made
    · have made := trialOutcome_judged (env := env) (w := failed) hg isJudged false
      have is : bad = failed.trialOutcome env g op false :=
        (failOp_trial hg ho away cls read).trans ((if_pos isJudged).trans (by rw [failedIs]))
      rw [← is] at made
      exact made
    · exact (succeed_trial hg ho away cls read).trans ((trialOutcome_stopped stopped op.matched).trans (by rw [dropped]))
    · exact (failOp_trial hg ho away cls read).trans ((if_neg (by rw [stopped]; exact Bool.false_ne_true)).trans failedIs)
    · have succeeds : good = rest.stand env g .frozen := (succeed_recovery hg ho away cls).trans (by rw [dropped])
      rw [← failedIs, ← failOp_recovery hg ho away cls] at forgets
      rw [succeeds]
      exact ⟨halts (v := rest) hg, stand_elements, stand_queue_free restFree, forgets⟩
    · by_cases reads : read
      · have is : bad = failed.stand env g .halted := (failOp_adopt_read hg ho away cls reads).trans (by rw [failedIs])
        rw [is]
        exact ⟨halts (v := failed) hg, stand_queue_free free, fun _ => stand_elements, fun no => absurd reads no⟩
      · rw [← failedIs, ← failOp_adopt_move hg ho away cls reads] at forgets
        exact ⟨forgets.1, forgets.2.2, fun yes => absurd yes reads, fun _ => forgets.2.1⟩
    · exact (succeed_maintenance hg ho away cls).trans dropped
    · exact (failOp_maintenance hg ho away cls).trans (by rw [failedIs])

end Sys2Proof.Machine
end

section
/-! The timers of a group (R55, R77, R86), and the stay request that arises as the selected member recovers (R54). -/

namespace Sys2Proof.Machine

/-! ### RESTORE-WAIT and the trial timer (R55, R86) -/

section
variable {env : SwEnv} {g : GroupId} {w : Switching} {grp : Group}

/-- A stay request dropped is an event that leaves none, at whose reaction the group's state, the queue and the elements still stand. -/
theorem event_dropStay (there : w.groups[g] = some grp) :
    Has g (fun x => x.stay = none ∧ x.restoreTimer = none) (w.event env g fun w => w.modGroup g Group.dropStay)
      ∧ ∃ mid x, mid.groups[g] = some x ∧ Formed env mid x ∧ x.stay = none ∧ x.state = grp.state ∧ mid.queue = w.queue
          ∧ mid.elements = w.elements ∧ w.event env g (fun w => w.modGroup g Group.dropStay) = mid.react env g grp := by
  have dropped : Has g (fun x => x.stay = none ∧ x.restoreTimer = none) (w.modGroup g Group.dropStay) :=
    ⟨_, Switching.modGroup_some there, rfl, rfl⟩
  have same : QueueSame w (((w.modGroup g Group.dropStay).refresh env g).echoTest env g) :=
    (queueSame_modGroup g w (f := Group.dropStay) fun _ => rfl).trans ((queueSame_refresh env g _).trans (queueSame_echoTest env g _))
  have only : OnlyGroup g w (((w.modGroup g Group.dropStay).refresh env g).echoTest env g) :=
    (onlyGroup_modGroup g w (f := Group.dropStay) fun _ => rfl).trans ((onlyGroup_refresh env g _).trans (onlyGroup_echoTest env g _))
  obtain ⟨x, at_, stay, _⟩ := has_echoTest steady_noStay (env := env) (has_refresh steady_noStay (env := env) dropped)
  have state := same.states g
  rw [at_, there] at state
  refine ⟨has_event steady_noStay there dropped, _, x, at_, formedIn_echoTest (formedIn_refresh env g _) x at_, stay,
    Option.some_inj.mp state, same.queue, only.elements, ?_⟩
  unfold Switching.event
  rw [there]

theorem event_failTrial (there : w.groups[g] = some grp) :
    Has g (fun x => x.external = none ∧ x.trialResult = .fail ∧ x.trialTimer = none)
      (w.event env g fun w => w.endTrial env g .fail) :=
  has_event (steady_ended .fail none) there ⟨_, Switching.endTrial_some there, by simp⟩

end

/-! ### The stay request of a member that recovers (R54) -/

/-- Whether the stay request of member `m` arises in the group `grp` as the part `u` leaves that member's port `p`. -/
structure StayArises (w : Switching) (p : PortId) (m : Nat) (grp : Group) (u : State) : Prop where
  recovers : u.ports[p].reported = .ok
  own : grp.effective = ⟨.fail, m⟩ ∨ grp.effective = ⟨.degrade, m⟩
  agrees : grp.local_ = grp.effective
  selected : w.selected grp = some m
  working : 1 ≤ m
  rests : grp.state = .idle ∨ grp.state = .switched ∨ grp.state = .awaitFar
  highest : ∀ r ∈ grp.locals u.swEnv, r.outranks (grp.stayFor m) = false

/-- What an event of member `m`'s port leaves of the stay request of the group `grp` (R54, R56). -/
def StayJudged (w : Switching) (p : PortId) (g : GroupId) (m : Nat) (grp : Group) (u : State) : Prop :=
  ∃ new, u.sw.groups[g] = some new
    ∧ (StayArises w p m grp u → new.stay = some (grp.stayFor m)
        ∧ new.restoreTimer = if grp.cfg.revertive then some (u.now + grp.cfg.restoreWait * 1000000) else none)
    ∧ (¬ StayArises w p m grp u → new.stay = none ∨ (new.stay = grp.stay ∧ new.restoreTimer = grp.restoreTimer))

theorem Switching.stayArises_iff {env : SwEnv} {w : Switching} {grp : Group} {m : Nat} : w.stayArises env grp m = true ↔
    (grp.effective = ⟨.fail, m⟩ ∨ grp.effective = ⟨.degrade, m⟩) ∧ grp.local_ = grp.effective ∧ w.selected grp = some m ∧ 1 ≤ m
      ∧ (grp.state = .idle ∨ grp.state = .switched ∨ grp.state = .awaitFar) ∧ ∀ r ∈ grp.locals env, r.outranks (grp.stayFor m) = false := by
  have own : (grp.effective = ⟨.fail, m⟩ ∨ grp.effective = ⟨.degrade, m⟩)
      ↔ (grp.effective.kind = .fail ∨ grp.effective.kind = .degrade) ∧ grp.effective.member = m := by
    cases grp.effective
    simp only [Request.mk.injEq]
    tauto
  rw [own]
  unfold Switching.stayArises
  simp [and_assoc, or_assoc]

theorem StayArises.iff {w : Switching} {p : PortId} {m : Nat} {grp : Group} {u : State} {env : SwEnv}
    (same : grp.locals u.swEnv = grp.locals env) :
    StayArises w p m grp u ↔ u.ports[p].reported = .ok ∧ w.stayArises env grp m = true := by
  rw [Switching.stayArises_iff, ← same]
  exact ⟨fun ⟨ok, own, agrees, selected, working, rests, highest⟩ => ⟨ok, own, agrees, selected, working, rests, highest⟩,
    fun ⟨ok, own, agrees, selected, working, rests, highest⟩ => ⟨ok, own, agrees, selected, working, rests, highest⟩⟩

section
variable {env : SwEnv} {g : GroupId} {m : Nat} {w : Switching} {grp : Group} {before after : Condition}

/-- A recovery by which the stay request arises: it stands, as no local request outranks it. -/
theorem memberEvent_arises (there : w.groups[g] = some grp) (ill : before ≠ .ok) (recovers : after = .ok)
    (arises : w.stayArises env grp m = true) (signal : mismatchIn env grp.cfg = grp.protocolMismatch) :
    Has g (fun x => x.stay = some (grp.stayFor m)
        ∧ x.restoreTimer = if grp.cfg.revertive then some (env.now + grp.cfg.restoreWait * 1000000) else none)
      (w.memberEvent env g m before after) := by
  obtain ⟨-, -, -, -, -, highest⟩ := Switching.stayArises_iff.mp arises
  have stood : Has g (Stands env (grp.stayFor m) (if grp.cfg.revertive then some (env.now + grp.cfg.restoreWait * 1000000) else none))
      (w.memberEvent env g m before after) := by
    unfold Switching.memberEvent
    refine has_event (steady_stands _ _) there ⟨grp.takeStay env.now m, ?_, rfl, rfl, (Group.decode_mismatch env _).trans signal, highest⟩
    rw [there]
    dsimp only
    rw [if_pos ⟨ill, recovers, arises⟩, Switching.setGroup_groups, set_get_self]
  obtain ⟨x, at_, stands⟩ := stood
  exact ⟨x, at_, stands.stay, stands.timer⟩

/-- Any other change of a member's condition leaves the stay request as it is, or discards it. -/
theorem memberEvent_stays (there : w.groups[g] = some grp) (calm : ¬ (after = .ok ∧ w.stayArises env grp m = true)) :
    Has g (fun x => x.stay = none ∨ (x.stay = grp.stay ∧ x.restoreTimer = grp.restoreTimer)) (w.memberEvent env g m before after) := by
  unfold Switching.memberEvent
  refine has_event (steady_stay grp.stay grp.restoreTimer) there ⟨grp, ?_, .inr ⟨rfl, rfl⟩⟩
  rw [there]
  dsimp only
  rw [if_neg fun h => calm h.2]
  exact there

end

/-- Only its protection port tells whether a group's signal mismatches. -/
theorem mismatchIn_congr {env new : SwEnv} {cfg : GroupConfig} (prot : new.ports[cfg.prot].accProt = env.ports[cfg.prot].accProt)
    (flags : new.ports[cfg.prot].accFlags = env.ports[cfg.prot].accFlags) : mismatchIn new cfg = mismatchIn env cfg := by
  unfold mismatchIn
  rw [prot, flags]

/-- A member other than member 0 is another port than the protection port. -/
theorem prot_ne_of_memberOf {groups : Vector (Option Group) 12} {p : PortId} {g : GroupId} {m : Nat} {grp : Group}
    (member : memberOf groups p = some (g, m)) (there : groups[g] = some grp) : p ∈ grp.cfg.members ∧ (1 ≤ m → grp.cfg.prot ≠ p) := by
  obtain ⟨h, -, at_⟩ := List.exists_of_findSome?_eq_some member
  obtain ⟨x, found, at_⟩ := Option.bind_eq_some_iff.mp at_
  split at at_
  · next mem =>
    obtain ⟨rfl, rfl⟩ := Prod.mk.inj (Option.some_inj.mp at_)
    obtain rfl : grp = x := Option.some_inj.mp (there.symm.trans found)
    refine ⟨mem, fun one e => ?_⟩
    subst e
    simp [GroupConfig.members] at one
  · cases at_

theorem setPortTo_swEnv (p : PortId) (new : Port) (s : State) :
    (setPortTo p new s).swEnv = State.swEnv { s with ports := s.ports.set p new } := by
  have k := setPortTo_keeps p new s
  unfold State.swEnv
  rw [k.now, setPortTo_ports, k.ranges, k.notices]

/-- A port replaced, whose condition stood worse than OK: its group's stay request arises or stands (R54). -/
theorem setPortTo_stayJudged {s : State} {p : PortId} {g : GroupId} {m : Nat} {grp : Group} (new : Port)
    (member : memberOf s.sw.groups p = some (g, m)) (there : s.sw.groups[g] = some grp)
    (signal : mismatchIn s.swEnv grp.cfg = grp.protocolMismatch) (ill : s.ports[p].reported ≠ .ok) :
    StayJudged s.sw p g m grp (setPortTo p new s) := by
  have env := setPortTo_swEnv p new s
  have now := (setPortTo_keeps p new s).now
  have port : (setPortTo p new s).ports[p] = new := by rw [setPortTo_ports, set_get_self]
  have arises_iff := StayArises.iff (w := s.sw) (p := p) (m := m) (grp := grp) (congrArg grp.locals env)
  rw [port] at arises_iff
  have sw : (setPortTo p new s).sw = (tellGroup p s.ports[p] { s with ports := s.ports.set p new }).sw := tellTiming_sw _ _ _
  unfold tellGroup at sw
  dsimp only at sw
  rw [member, set_get_self] at sw
  dsimp only at sw
  by_cases changed : s.ports[p].reported ≠ new.reported
  · rw [if_pos changed, inSwitch_sw] at sw
    by_cases arises : StayArises s.sw p m grp (setPortTo p new s)
    · obtain ⟨recovers, arises'⟩ := arises_iff.mp arises
      have apart := (prot_ne_of_memberOf member there).2 arises.working
      have same : (State.swEnv { s with ports := s.ports.set p new }).ports[grp.cfg.prot] = s.ports[grp.cfg.prot] :=
        set_get_other _ apart _
      obtain ⟨x, at_, stays⟩ := memberEvent_arises there ill recovers arises'
        ((mismatchIn_congr (congrArg Port.accProt same) (congrArg Port.accFlags same)).trans signal)
      exact ⟨x, by rw [sw]; exact at_, fun _ => by rw [now]; exact stays, fun no => absurd arises no⟩
    · obtain ⟨x, at_, stays⟩ := memberEvent_stays there (before := s.ports[p].reported) fun h => arises (arises_iff.mpr h)
      exact ⟨x, by rw [sw]; exact at_, fun yes => absurd yes arises, fun _ => stays⟩
  · have calm : ¬ StayArises s.sw p m grp (setPortTo p new s) := fun h =>
      ill ((not_ne_iff.mp changed).trans (arises_iff.mp h).1)
    rw [if_neg changed] at sw
    have stays : Has g (fun x => x.stay = none ∨ (x.stay = grp.stay ∧ x.restoreTimer = grp.restoreTimer)) (setPortTo p new s).sw := by
      rw [sw]
      split
      · rw [inSwitch_sw]
        exact has_event (steady_stay _ _) there ⟨grp, there, .inr ⟨rfl, rfl⟩⟩
      · exact ⟨grp, there, .inr ⟨rfl, rfl⟩⟩
    obtain ⟨x, at_, stays⟩ := stays
    exact ⟨x, at_, fun yes => absurd yes calm, fun _ => stays⟩

/-! ### A turn of ports (R35, R54) -/

/-- Local requests are formed from the ranges and from what the group's own ports report. -/
theorem Group.locals_env {env new : SwEnv} {x : Group} (ranges : new.ranges = env.ranges)
    (ports : ∀ q ∈ x.cfg.members, new.ports[q] = env.ports[q]) : x.locals new = x.locals env := by
  have prot : new.ports[x.cfg.prot] = env.ports[x.cfg.prot] := ports _ List.mem_cons_self
  have conds : condRequest new x.cfg = condRequest env x.cfg := by
    funext i
    unfold condRequest
    rw [prot, ranges]
    split
    · rfl
    · split
      · rfl
      · next q at_ => rw [ports q (List.mem_cons_of_mem _ (List.mem_of_getElem? at_))]
  unfold Group.locals Group.conditions Group.signallingLoss
  rw [conds, prot, ranges]

/-- From `s` to `t` nothing has changed that group `g` with the record `cfg` forms its requests from. -/
structure Aside (g : GroupId) (cfg : GroupConfig) (s t : State) : Prop where
  now : t.now = s.now
  ranges : t.ranges = s.ranges
  records : SameRecords s.sw t.sw
  group : t.sw.groups[g] = s.sw.groups[g]
  elements : t.sw.elements = s.sw.elements
  ports : ∀ q ∈ cfg.members, t.ports[q] = s.ports[q]

theorem Aside.refl (g : GroupId) (cfg : GroupConfig) (s : State) : Aside g cfg s s := ⟨rfl, rfl, .refl _, rfl, rfl, fun _ _ => rfl⟩

theorem Aside.trans {g : GroupId} {cfg : GroupConfig} {r s t : State} (a : Aside g cfg r s) (b : Aside g cfg s t) : Aside g cfg r t :=
  ⟨b.now.trans a.now, b.ranges.trans a.ranges, a.records.trans b.records, b.group.trans a.group, b.elements.trans a.elements,
    fun q mem => (b.ports q mem).trans (a.ports q mem)⟩

section
variable {g : GroupId} {m : Nat} {p : PortId} {grp x : Group} {s : State}

/-- An event at a port that is no member of a group. -/
theorem portEvent_aside {q : PortId} (there : s.sw.groups[g] = some x) (apart : q ∉ x.cfg.members) (f : Port → Port) :
    Aside g x.cfg s (portEvent q f s) := by
  have cascade := portEvent_cascade q f s
  have others := cascade.others
  have other : ∀ r ∈ x.cfg.members, r ≠ q := fun r mem e => apart (e ▸ mem)
  have group : (portEvent q f s).sw.groups[g] = s.sw.groups[g] ∧ (portEvent q f s).sw.elements = s.sw.elements := by
    rcases cascade.switching with same | ⟨h, i, member, only⟩
    · rw [same]
      exact ⟨rfl, rfl⟩
    · refine ⟨only.others g fun e => ?_, only.elements⟩
      subst e
      exact apart (prot_ne_of_memberOf member there).1
  exact ⟨others.now, others.ranges, portEvent_sameRecords q f s, group.1, group.2, fun r mem => portEvent_other (other r mem) f s⟩

theorem turn_aside (xs : List PortId) : ∀ {s : State}, s.sw.groups[g] = some x → (∀ q ∈ xs, q ∉ x.cfg.members) →
    Aside g x.cfg s (xs.foldl (fun s p => portEvent p id s) s) := by
  induction xs with
  | nil => exact fun _ _ => .refl _ _ _
  | cons q xs ih =>
    intro s there apart
    have first := portEvent_aside there (apart q List.mem_cons_self) id
    exact first.trans (ih (first.group.trans there) fun r mem => apart r (List.mem_cons_of_mem q mem))

/-- What a port's event has left of a stay request stands while other groups are told. -/
theorem StayJudged.aside {w : Switching} {u v : State} (judged : StayJudged w p g m grp u) (aside : Aside g grp.cfg u v)
    (mem : p ∈ grp.cfg.members) : StayJudged w p g m grp v := by
  obtain ⟨new, at_, arises, calm⟩ := judged
  have same : StayArises w p m grp v ↔ StayArises w p m grp u := by
    rw [StayArises.iff rfl, StayArises.iff (Group.locals_env (env := v.swEnv) (new := u.swEnv) aside.ranges.symm fun q mem => (aside.ports q mem).symm), aside.ports p mem]
  refine ⟨new, aside.group.trans at_, fun h => ?_, fun h => calm fun h' => h (same.mpr h')⟩
  rw [aside.now]
  exact arises (same.mp h)

theorem StayJudged.selected {w v : Switching} {u : State} (judged : StayJudged v p g m grp u)
    (same : v.selected grp = w.selected grp) : StayJudged w p g m grp u := by
  have iff : StayArises w p m grp u ↔ StayArises v p m grp u :=
    ⟨fun h => ⟨h.recovers, h.own, h.agrees, same.trans h.selected, h.working, h.rests, h.highest⟩,
      fun h => ⟨h.recovers, h.own, h.agrees, same.symm.trans h.selected, h.working, h.rests, h.highest⟩⟩
  unfold StayJudged
  simp only [iff]
  exact judged

/-- In a turn of ports that takes no other member of a port's group, the stay request is judged at the port's own event, if at all. -/
theorem turn_stayJudged (xs : List PortId) : ∀ {s : State}, memberOf s.sw.groups p = some (g, m) → s.sw.groups[g] = some grp →
    mismatchIn s.swEnv grp.cfg = grp.protocolMismatch → s.ports[p].reported ≠ .ok → xs.Nodup →
    (∀ q ∈ xs, q ∈ grp.cfg.members → q = p) → StayJudged s.sw p g m grp (xs.foldl (fun s p => portEvent p id s) s) := by
  induction xs with
  | nil => exact fun _ there _ ill _ _ => ⟨grp, there, fun h => absurd h.recovers ill, fun _ => .inr ⟨rfl, rfl⟩⟩
  | cons q xs ih =>
    intro s member there signal ill once apart
    obtain ⟨out, rest⟩ := List.nodup_cons.mp once
    have mem := (prot_ne_of_memberOf member there).1
    rw [List.foldl_cons]
    by_cases e : q = p
    · subst e
      have judged : StayJudged s.sw q g m grp (portEvent q id s) := setPortTo_stayJudged _ member there signal ill
      obtain ⟨new, at_, _⟩ := id judged
      have cfg : new.cfg = grp.cfg := by
        have := (portEvent_sameRecords q id s).groups g
        rw [at_, there] at this
        exact Option.some_inj.mp this
      refine judged.aside (cfg ▸ turn_aside xs at_ fun r mem' in_ => ?_) mem
      obtain rfl := apart r (List.mem_cons_of_mem q mem') (cfg ▸ in_)
      exact out mem'
    · have first := portEvent_aside there (fun in_ => e (apart q List.mem_cons_self in_)) id
      have prot := first.ports grp.cfg.prot List.mem_cons_self
      have judged := ih (s := portEvent q id s) ((memberOf_sameRecords first.records p).trans member) (first.group.trans there)
        ((mismatchIn_congr (congrArg Port.accProt prot) (congrArg Port.accFlags prot)).trans signal)
        (by rw [first.ports p mem]; exact ill) rest fun r mem' => apart r (List.mem_cons_of_mem q mem')
      exact judged.selected (Switching.selected_congr first.elements grp)

/-- A tick of the seconds clock at which no other member of a port's group changes its raw condition. -/
theorem secondsTick_stayJudged (member : memberOf s.sw.groups p = some (g, m)) (there : s.sw.groups[g] = some grp)
    (signal : mismatchIn s.swEnv grp.cfg = grp.protocolMismatch) (ill : s.ports[p].reported ≠ .ok)
    (calm : ∀ q ∈ grp.cfg.members, q ≠ p → s.ports[q].cfg.enabled = true → s.ports[q].tick.rawCondition = s.ports[q].raw) :
    StayJudged s.sw p g m grp (portsInTurn (unsettled (tickPorts s)) (tickPorts s)) := by
  have ticked : ∀ q : PortId, (tickPorts s).ports[q].reported = s.ports[q].reported ∧ (tickPorts s).ports[q].accProt = s.ports[q].accProt
      ∧ (tickPorts s).ports[q].accFlags = s.ports[q].accFlags := fun q => by
    rw [tickPorts_get]
    split
    · exact ⟨rfl, rfl, rfl⟩
    · exact ⟨rfl, rfl, rfl⟩
  have once : (unsettled (tickPorts s)).Nodup := List.Nodup.filter _ (List.nodup_finRange 32)
  refine turn_stayJudged (s := { tickPorts s with orderDraws := _ }) _ member there
    ((mismatchIn_congr (ticked _).2.1 (ticked _).2.2).trans signal) (by rw [(ticked p).1]; exact ill) (freeOrder_nodup _ once) ?_
  intro q mem in_
  obtain ⟨on, changes⟩ := mem_unsettled_tick.mp ((freeOrder_mem _ _ q).mp mem)
  exact not_ne_iff.mp fun ne => changes (calm q in_ ne on)

end

/-! ### The obligation -/

/-- An event at a group of the part, whose own change keeps the records and all but its group. -/
theorem inSwitch_event {v : State} (g : GroupId) (f : SwEnv → Switching → Switching)
    (only : ∀ env w, OnlyGroup g w (f env w)) :
    GroupCascade g v (inSwitch (fun env w => w.event env g (f env)) v)
      ∧ FormedIn (inSwitch (fun env w => w.event env g (f env)) v).swEnv g (inSwitch (fun env w => w.event env g (f env)) v).sw :=
  ⟨inSwitch_groupCascade (onlyGroup_event _ g _ (only _ _)), formedIn_event v.swEnv g (f v.swEnv) v.sw⟩

/-- Settles O29: each timer is one event at its group, and every event of a port judges its group's stay request. -/
theorem groupTimersExpire : Obligations.GroupTimersExpire := by
  unfold Obligations.GroupTimersExpire
  intro g grp due s there
  refine ⟨fun runs => ?_, fun runs => ?_, fun runs => ?_, fun p m member decoded ill => ?_⟩
  · obtain ⟨⟨new, at_, stay, timer⟩, reacts⟩ := event_dropStay (env := (s.reach due).swEnv) there
    obtain ⟨cascade, formed⟩ := inSwitch_event (v := s.reach due) g (fun _ w => w.modGroup g Group.dropStay)
      fun _ _ => onlyGroup_modGroup g _ fun _ => rfl
    refine ⟨_, new, ?_, cascade, at_, formed new at_, stay, timer, reacts⟩
    show Host.Outcome.next _ = _
    rw [there, Option.bind_some, runs]
  · show Host.Outcome.next _ = _
    rw [there, Option.bind_some, runs]
    dsimp only
    unfold Switching.modGroup upd
    rw [show (s.reach due).sw.groups[g] = some grp from there]
    rfl
  · obtain ⟨new, at_, external, result, timer⟩ := event_failTrial (env := (s.reach due).swEnv) there
    obtain ⟨cascade, formed⟩ := inSwitch_event (v := s.reach due) g (fun env w => w.endTrial env g .fail)
      fun env w => onlyGroup_endTrial env g _ w
    refine ⟨_, new, ?_, cascade, at_, formed new at_, external, result, timer⟩
    show Host.Outcome.next _ = _
    rw [there, Option.bind_some, runs]
  · intro old judged judges
    have signal : mismatchIn s.swEnv grp.cfg = grp.protocolMismatch := by rw [← Group.decode_mismatch, decoded]
    have judged_of : ∀ {u : State}, StayJudged s.sw p g m grp u → judged u := by
      rintro u ⟨new, at_, arises, calm⟩
      exact ⟨new, at_, fun ⟨ok, own, agrees, selected, working, rests, highest⟩ =>
        arises ⟨ok, own, agrees, selected, working, rests, highest⟩,
        fun no => calm fun h => no ⟨h.recovers, h.own, h.agrees, h.selected, h.working, h.rests, h.highest⟩⟩
    have replaced : ∀ (v : State) (new : Port), v.ports = s.ports → v.sw = s.sw → judged (setPortTo p new v) := by
      intro v new ports sw
      have same : mismatchIn v.swEnv grp.cfg = grp.protocolMismatch := by
        refine (mismatchIn_congr ?_ ?_).trans signal <;> exact congrArg _ (congrArg (·[grp.cfg.prot]) ports)
      have stays := setPortTo_stayJudged (s := v) new (by rw [sw]; exact member) (by rw [sw]; exact there) same (by rw [ports]; exact ill)
      rw [sw] at stays
      exact judged_of stays
    have event : ∀ (v : State) (f : Port → Port), v.ports = s.ports → v.sw = s.sw → judged (portEvent p f v) :=
      fun v f ports sw => replaced v _ ports sw
    refine ⟨fun code endsAt scans => ?_, fun body noise listens => ?_,
      fun b listens => ?_, fun runs => ?_, fun runs => ?_, fun on calm => ?_, fun l tag payload cfg ready length args on was => ?_⟩
    · refine ⟨scanOn p (portEvent p (Port.convert code.toNat) (s.reach endsAt)), ?_, event (s.reach endsAt) (Port.convert code.toNat) rfl rfl⟩
      show Host.Outcome.next _ = _
      rw [scans]
      rfl
    · have run : exec (.pilotMessage p body noise) s = .next (finish .none (portEvent p (Port.wholeMessage s.now body noise) s)) :=
        congrArg Host.Outcome.next (if_pos listens)
      exact ⟨_, run, event s (Port.wholeMessage s.now body noise) rfl rfl⟩
    · intro next loud
      have run : exec (.truncatedMessage ⟨p, [b]⟩) s = .next (pilotSample p s b) := exec_truncatedMessage listens [b]
      rcases pilotSample_cases p s b with ⟨still, e⟩ | ⟨-, e⟩
      · exact absurd still.eq loud
      · exact ⟨_, run.trans (congrArg _ e), event s (fun x => x.sample s.now b) rfl rfl⟩
    · obtain ⟨t, runs⟩ := Option.isSome_iff_exists.mp runs
      refine ⟨_, ?_, event (s.reach t) Port.loss rfl rfl⟩
      show Host.Outcome.next _ = _
      rw [show s.ports[p].lossTimer = some t from runs]
    · obtain ⟨t, runs⟩ := Option.isSome_iff_exists.mp runs
      refine ⟨_, ?_, replaced (s.reach t) s.ports[p].holdOffExpire rfl rfl⟩
      show Host.Outcome.next _ = _
      rw [show s.ports[p].holdTimer = some t from runs]
      rfl
    · let v : State := { s.reach s.timing.nextTick with timing := { s.timing with nextTick := s.timing.nextTick + 1000000 } }
      have stays := secondsTick_stayJudged (s := v) member there signal ill calm
      exact ⟨tickTiming (portsInTurn (unsettled (tickPorts v)) (tickPorts v)), rfl, judged_of
        (stays.aside ⟨rfl, rfl, .refl _, rfl, rfl, fun _ _ => rfl⟩ (prot_ne_of_memberOf member there).1)⟩
    · refine ⟨_, exec_setPort_accepts ready length args (.inl on) tag, ?_⟩
      rw [writePort_keeps (s := taken l tag 0x10 s) was on]
      exact event (taken l tag 0x10 s) (Port.rewrite cfg) rfl rfl

end Sys2Proof.Machine
end
